-- ==== Sys2Proof/Word.lean ====
section
/-! DEFINITION. The word types of the GZ-880 (R3, R17): bytes, 32-bit lane registers, 64-bit words, 80-bit virtual
addresses and 1,024-bit predicates. -/

namespace Sys2Proof

/-- One byte of memory (R3). -/
abbrev Byte := BitVec 8

/-- One lane of a vector register (R39). -/
abbrev W32 := BitVec 32

/-- An instruction word, a clause header, a scalar register (R30, R39). -/
abbrev W64 := BitVec 64

/-- An 80-bit virtual address (R16). -/
abbrev VA := BitVec 80

/-- A predicate or an execution mask: bit L is lane L (R39, R109). -/
abbrev Mask := BitVec 1024

end Sys2Proof
end

