-- ==== Sys2Proof/Syntax.lean ====
section
/-! DEFINITION. The syntax of the GZ-880: operand codes (R39), element types (R17 to R19), the seven word formats (R37)
and one constructor of Instr for every row of spec/opcode_table.json: the instruction words, and the steps that the part
and its surroundings take without a word. -/

namespace Sys2Proof

/-- What a 9-bit operand code names (R39). Every code has exactly one value here; rsv k is the reserved code 384 + k. -/
inductive Opd where
  | v (n : Fin 256)
  | s (n : Fin 64)
  | p (n : Fin 8)
  | kv (n : Fin 16)
  | ks (n : Fin 8)
  | x (n : Fin 32)
  | rsv (n : Fin 127)
  | none
  deriving DecidableEq, Repr

/-- The element types, in the order of their T codes 0x0 to 0xf (R17, R18, R19). -/
inductive ETy where
  | b32 | i32 | n32 | i64 | n64 | i16 | n16 | i8 | n8 | f32 | f16 | bf16 | f64 | e4m3 | e5m2 | f16x2
  deriving DecidableEq, Repr

/-- The guard of a word: PG [53:51] and PN [50] (R36). illegal is PG = 7 with PN = 1. -/
inductive Guard where
  | always
  | pos (n : Fin 7)
  | neg (n : Fin 7)
  | illegal
  deriving DecidableEq, Repr

/-- A VR word (R37). m is the M field, whose layout each instruction gives. -/
structure VR where
  g : Guard
  d : Opd
  a : Opd
  b : Opd
  c : Opd
  t : ETy
  m : BitVec 10
  deriving DecidableEq, Repr

/-- A VI word (R37). -/
structure VI where
  g : Guard
  d : Opd
  a : Opd
  imm : BitVec 32
  deriving DecidableEq, Repr

/-- A MEM word (R37, R44). -/
structure MEM where
  g : Guard
  d : Opd
  base : Opd
  index : Opd
  scope : BitVec 3
  order : BitVec 3
  hint : BitVec 2
  size : BitVec 3
  off : BitVec 12
  deriving DecidableEq, Repr

/-- An ATM word (R37, R44). -/
structure ATM where
  g : Guard
  d : Opd
  addr : Opd
  data : Opd
  cmp : Opd
  scope : BitVec 3
  order : BitVec 3
  aop : BitVec 4
  size : BitVec 3
  noRet : Bool
  deriving DecidableEq, Repr

/-- A BR word (R37, R45). -/
structure BR where
  g : Guard
  disp : BitVec 26
  cond : BitVec 3
  pred : BitVec 3
  rsv : BitVec 18
  deriving DecidableEq, Repr

/-- An MX word (R37, R46). -/
structure MX where
  g : Guard
  acc : BitVec 6
  ua : BitVec 6
  ub : BitVec 6
  fb : Opd
  bar : Opd
  flags : BitVec 14
  deriving DecidableEq, Repr

/-- A SYS word (R37, R47): hi is [31:16], lo is [15:0]. -/
structure SYS where
  g : Guard
  d : Opd
  a : Opd
  hi : BitVec 16
  lo : BitVec 16
  deriving DecidableEq, Repr

/-- One constructor per row of spec/opcode_table.json. The constructors with a format structure are instruction words;
the two with a raw word are the words whose opcode no instruction has; the others are steps without a word, with the
place they happen at as arguments. A step without arguments acts at State.sel or on the whole part; those stand last,
because a compiled constructor with arguments has a number of at most 244. -/
inductive Instr where
  /-- The part loads the partition's first context from BOOT_REC and BOOT_VA with the ctx.load checks, stages and swaps it in, writes the status and clears GO. (R313) -/
  | bootCtlGo (part : Nat)
  /-- A PF write of CORES allots cores to a partition; it is dropped and sets ERR if a core would be shared with an untimed partition. (R309) -/
  | coresWrite (part : Nat) (value : BitVec 64)
  /-- A PF write of SLICE sets the time slice; it is dropped if it would leave a shared core untimed or if TSLICE is not accepted. (R309) -/
  | sliceWrite (part : Nat) (value : BitVec 64)
  /-- A write to a register that has no row of its own stores the value, or is dropped and sets ERR when a PF write breaks a limit; W1C bits clear. (R308) -/
  | registerWrite (fn : Nat) (offset : Nat) (value : BitVec 64)
  /-- A FLUSH write raises FB_GEN, clears the fault filters, discards queued old records and makes waiting teams below the new generation replay. (R249) -/
  | fbCtlFlush (part : Nat)
  /-- A FAIL write makes every waiting team of the named OID below the generation take its fault as a PAGE or QUOTA trap. (R249) -/
  | fbCtlFail (part : Nat) (oid : BitVec 12)
  /-- A host invalidation of the INV_VA range invalidates TLB entries and writes back the OID's L1 lines in every cluster, then clears GO. (R254) -/
  | invCtlGo (part : Nat)
  /-- Setting ENABLE to 1 moves a DOWN port to TRAINING. (R316) -/
  | portEnable (port : Nat)
  /-- Setting ENABLE to 0 moves the port to DOWN. (R316) -/
  | portDisable (port : Nat)
  /-- RETRAIN moves the port to TRAINING and is cleared by the part. (R316) -/
  | portRetrain (port : Nat)
  /-- FENCE moves the port to FENCED, after which requests fail and replica flits still pass. (R316) -/
  | portFence (port : Nat)
  /-- UNFENCE moves a FENCED port to TRAINING and is cleared by the part. (R316) -/
  | portUnfence (port : Nat)
  /-- Training ends as ACTIVE on four lanes or DEGRADED on two or three; waiting requests proceed. (R316) -/
  | portTrainingComplete (port lanes : Nat)
  /-- If no lane trains within 10^8 ticks, the port goes DOWN. (R316) -/
  | portTrainingTimeout (port : Nat)
  /-- A lane lost on an ACTIVE port moves it to TRAINING, and outstanding requests fail. (R316) -/
  | laneLost (port : Nat)
  /-- Loss of signal moves the port to DOWN. (R316) -/
  | lossOfSignal (port : Nat)
  /-- A received flit is checked by CRC, nacked on failure, and otherwise delivered in order, advancing LCLK. (R315) -/
  | flitReceive (port : Nat) (flit : List (BitVec 8))
  /-- A nack makes the sender replay the flit from its replay buffer; eight consecutive replays fence the port. (R315) -/
  | nackReplay (port : Nat)
  /-- A CAR_CTL write enables the carillon with interval k; it is dropped if k or CAR_SIZE is out of range. (R324) -/
  | carCtlWrite (value : BitVec 64)
  /-- A DVFS change moves the core and matrix clocks on one edge and writes a MARKER per core. (R13) -/
  | dvfsChange (mhz : Nat)
  /-- A host CXL.mem access is performed at its home slice as a sys-scope party, with back-invalidation where needed. (R314) -/
  | hostCxlMemAccess (write : Bool) (pa : Nat) (bytes : List (BitVec 8))
  /-- A trapping team latches its frame, takes its pipe's handler store when it is free, zeroes kv and ks, and resumes at %hentry. (R297) -/
  | handlerEntry (core slot : Nat)
  /-- When the tick reaches a SLEEPING team's wake tick, the team becomes READY. (R120) -/
  | sleepWake (core slot : Nat)
  /-- A store accepted at a watched line or a deadline reached makes a WAITING waitaddr, rng.await or seqwait team re-evaluate or time out. (R213) -/
  | waitWake (core slot : Nat)
  /-- When a bar.wait deadline passes, the team becomes READY and the bar.wait commits with status 1. (R221) -/
  | barWaitTimeout (core slot : Nat)
  /-- At cycle 0 of a swap, no outgoing clause issues and each team's resume point is fixed, while in-flight work continues. (R63) -/
  | swapRequest (cores : BitVec 64)
  /-- When all save work has drained, the context becomes SAVED with a release and its OID is released. (R62) -/
  | ctxSaveComplete (oid : Nat)
  /-- The part observes a queue tail store at its home slice and reads newly and wholly published commands, or detects TAIL_BACK or a resume. (R91) -/
  | tailAdvanceObserved (oid queue : Nat)
  /-- A NOP entry is read and completes at once. (R90) -/
  | nopCommand (oid queue : Nat)
  /-- A LINK entry redirects reading to the named address and completes when read. (R90) -/
  | linkCommand (oid queue : Nat)
  /-- A LAUNCH packet is read and a kernel enters READ, recording its parent. (R97) -/
  | launchCommand (oid queue : Nat)
  /-- A JOB card is read and enters the task-scheduler window subject to CONC and footprint edges. (R98) -/
  | jobCommand (oid queue : Nat)
  /-- A WAIT entry holds the queue until its three dependences are met, and then completes. (R96) -/
  | waitCommand (oid queue : Nat)
  /-- Once CONC, dependence, parent and window conditions hold, the distributor checks the packet and admits the kernel or faults the queue. (R100) -/
  | kernelAdmission (kernel : Nat)
  /-- When an exiting team's outstanding operations complete, its slot becomes FREE, scratch may be zeroed, and SCRATCH raised if lanes were switched off. (R105) -/
  | exitPerformed (core slot : Nat)
  /-- When all teams are placed and exited or removed, the kernel retires, writes its digest if any, and writes its completion. (R105) -/
  | kernelRetirement (kernel : Nat)
  /-- A load's data returns and writes its lane destinations, releasing interlocks and lowering the load count. (R203) -/
  | loadDataReturn (load : Nat)
  /-- A miss or prefetch fill installs a line with RST-derived RRV, choosing a victim and serving joined accesses. (R80) -/
  | l1Fill (fill : Nat)
  /-- A line dirty for 65,536 core cycles is written back. (R182) -/
  | dirtyLineTimeout (core line : Nat)
  /-- The home slice accepts a write-back's dirty bytes, and the line's dirty mask clears. (R180) -/
  | writeBackAccepted (core line : Nat)
  /-- A home slice accepts a store or performs an atomic as one step in the byte's single order. (R181) -/
  | homeSliceAccept (post : Nat)
  /-- An L1 miss, fetch or engine access walks the page tables and installs, waits, pages in or reports a reason. (R241) -/
  | tlbWalk (cluster oid : Nat) (va : BitVec 80) (access : Nat)
  /-- The copy engine sets BUSY on a parked leaf, checks quota, pops a frame, copies 256 KiB from tier 2 and installs the tier-0 leaf. (R246) -/
  | pageIn (page : Nat)
  /-- A change at a BUSY leaf's line makes waiting accesses walk again. (R241) -/
  | busyLeafChange (line : Nat)
  /-- When every cluster has acknowledged a pg.inv, frames are pushed back under FREE and the team is released. (R254) -/
  | pgInvAckComplete (core slot : Nat)
  /-- A slot.load or slot.zero finishes writing its bytes; the slot becomes FULL and any named barrier is reduced. (R169) -/
  | slotFillComplete (core unit : Nat)
  /-- A slot.store's bytes are all accepted; the slot leaves BUSY, the barrier is reduced and exceptions are ORed in. (R169) -/
  | slotStoreComplete (core unit : Nat)
  /-- On a release write to a watched offset, the copy engine reads the block, checks the ring header and reads new entries. (R226) -/
  | ringNotify (notice : Nat)
  /-- A COPY entry starts in order, copies its bytes, and on completion reduces its barrier and advances done. (R228) -/
  | ringCopy (entry : Nat)
  /-- After every earlier entry has completed, a SIGNAL stores its value as a gang-scope release. (R228) -/
  | ringSignal (entry : Nat)
  /-- A fill-ring COPY waits for a free slot, copies into it, and raises wr in slot order. (R230) -/
  | fillRingSlotFill (entry : Nat)
  /-- When a halo's barrier phase completes, the copy engine copies the rows and reduces barrier object B. (R235) -/
  | haloCopy (halo : Nat)
  /-- The copy engine runs a copy job card row by row at home slices and completes when the last byte is written. (R236) -/
  | copyJob (job : Nat)
  /-- The gather-and-deduplicate engine handles positions in windows of 1,024 for GATHER or SCATTER_ADD. (R237) -/
  | gatherJob (job : Nat)
  /-- A collective card copies or atomically adds bytes to a peer window and then stores its signal word. (R321) -/
  | collectivePut (job : Nat)
  /-- A REPLICA card sends its digest, and on the partner's flit or a 10^9-tick timeout writes the replica record. (R322) -/
  | replicaExchange (job : Nat)
  /-- A TST pre-walk reads the volume tree and installs what it finds in the CLB, never faulting or allocating. (R84) -/
  | clusterClbPreWalk (walk : Nat)
  /-- When all 16 clusters acknowledge a cymbal, blocks are pushed, the version may rise, and the sending team is released. (R267) -/
  | cymbalComplete (core slot : Nat)
  /-- An edit that waited on EDIT proceeds to build and publish its version, adjust counts, retire the old version and commit. (R282) -/
  | stitchEditPublish (core slot : Nat)
  /-- A host reply on a host-ring entry writes D and makes the PARKED team READY. (R304) -/
  | systemCallReply (core slot : Nat)
  /-- A word with OP in 0x380-0x3ff raises ILLEGAL_OP at decode check 1, leaving its whole word in %einst. (R51) -/
  | translationRangeWord (word : BitVec 64)
  /-- Integer add, wrapping or saturating. (R132) -/
  | add (f : VR)
  /-- Add with carry in and out through a predicate. (R133) -/
  | addc (f : VR)
  /-- Integer subtract. (R132) -/
  | sub (f : VR)
  /-- Subtract with borrow through a predicate. (R133) -/
  | subb (f : VR)
  /-- Integer negate. (R132) -/
  | neg (f : VR)
  /-- Integer absolute value. (R132) -/
  | abs (f : VR)
  /-- Integer minimum. (R132) -/
  | min (f : VR)
  /-- Integer maximum. (R132) -/
  | max (f : VR)
  /-- Integer clamp Min(Max(a, b), c). (R132) -/
  | clamp (f : VR)
  /-- Integer multiply, low part. (R132) -/
  | mul (f : VR)
  /-- High half of an integer product. (R132) -/
  | mulhi (f : VR)
  /-- Integer multiply-add, fitted once. (R132) -/
  | mad (f : VR)
  /-- 32 by 32 multiply with 64-bit add and result. (R132) -/
  | madw (f : VR)
  /-- Sum of absolute difference. (R132) -/
  | sad (f : VR)
  /-- Bitwise and. (R134) -/
  | and (f : VR)
  /-- Bitwise or. (R134) -/
  | or (f : VR)
  /-- Bitwise exclusive or. (R134) -/
  | xor (f : VR)
  /-- Bitwise a and not b. (R134) -/
  | andn (f : VR)
  /-- Bitwise complement. (R134) -/
  | not (f : VR)
  /-- Shift left, saturating or wrapping the amount. (R135) -/
  | shl (f : VR)
  /-- Logical shift right. (R135) -/
  | shr (f : VR)
  /-- Arithmetic shift right. (R135) -/
  | sar (f : VR)
  /-- Rotate left or right. (R135) -/
  | rot (f : VR)
  /-- Funnel shift of two words. (R135) -/
  | funnel (f : VR)
  /-- Bit-field extract. (R136) -/
  | bfx (f : VR)
  /-- Bit-field insert. (R136) -/
  | bfi (f : VR)
  /-- Population count. (R136) -/
  | popc (f : VR)
  /-- Count leading zeros. (R136) -/
  | clz (f : VR)
  /-- Count trailing zeros. (R136) -/
  | ctz (f : VR)
  /-- Bit reverse. (R136) -/
  | brev (f : VR)
  /-- Byte permute of two words. (R136) -/
  | perm (f : VR)
  /-- Select by predicate. (R137) -/
  | sel (f : VR)
  /-- Integer compare into a predicate with optional combine. (R137) -/
  | cmp (f : VR)
  /-- Register move. (R138) -/
  | mov (f : VR)
  /-- Move a 32-bit immediate, sign-extended in an S register. (R138) -/
  | movi (f : VI)
  /-- Place an immediate in the high half of an S register, keeping the low half. (R138) -/
  | moviHi (f : VI)
  /-- Compute base plus scaled index without accessing memory. (R139) -/
  | lea (f : VR)
  /-- Sign-extend the low n bits. (R139) -/
  | sxt (f : VR)
  /-- Zero-extend the low n bits. (R139) -/
  | zxt (f : VR)
  /-- Four-way byte dot product with accumulate. (R140) -/
  | dp4 (f : VR)
  /-- Add an immediate. (R141) -/
  | addi (f : VI)
  /-- And with an immediate. (R141) -/
  | andi (f : VI)
  /-- Or with an immediate. (R141) -/
  | ori (f : VI)
  /-- Compare with an immediate into a predicate. (R142) -/
  | cmpi (f : VI)
  /-- Float add, rounded once. (R146) -/
  | fadd (f : VR)
  /-- Float subtract. (R146) -/
  | fsub (f : VR)
  /-- Float multiply. (R146) -/
  | fmul (f : VR)
  /-- Fused multiply-add with one rounding. (R146) -/
  | ffma (f : VR)
  /-- IEEE minimumNumber, or legacy under MMXL. (R147) -/
  | fmin (f : VR)
  /-- IEEE maximumNumber, or legacy under MMXL. (R147) -/
  | fmax (f : VR)
  /-- Legacy minimum a < b ? a : b. (R147) -/
  | fminl (f : VR)
  /-- Legacy maximum a > b ? a : b. (R147) -/
  | fmaxl (f : VR)
  /-- Float compare into a predicate. (R148) -/
  | fcmp (f : VR)
  /-- Float classification mask. (R149) -/
  | fclass (f : VR)
  /-- Reciprocal within a stated bound. (R150) -/
  | frcp (f : VR)
  /-- Reciprocal square root within a bound. (R150) -/
  | frsq (f : VR)
  /-- Correctly rounded square root. (R150) -/
  | fsqrt (f : VR)
  /-- Base-2 exponential within a bound. (R150) -/
  | fexp2 (f : VR)
  /-- Base-2 logarithm within a bound. (R150) -/
  | flog2 (f : VR)
  /-- Sine within a bound. (R150) -/
  | fsin (f : VR)
  /-- Cosine within a bound. (R150) -/
  | fcos (f : VR)
  /-- Hyperbolic tangent within a bound. (R150) -/
  | ftanh (f : VR)
  /-- Multiply by 2^b. (R146) -/
  | fscale (f : VR)
  /-- Integer exponent Floor(log2|a|). (R152) -/
  | fexpo (f : VR)
  /-- Fractional part, clamped below 1. (R152) -/
  | ffract (f : VR)
  /-- Round to an integral value. (R152) -/
  | frnd (f : VR)
  /-- Two-element dot product plus f32 accumulate. (R153) -/
  | fdot2 (f : VR)
  /-- Packed f16x2 fused multiply-add. (R153) -/
  | fpma (f : VR)
  /-- Convert between float and integer types. (R154) -/
  | cvt (f : VR)
  /-- Quantise a / b to a Q16N code in a nibble. (R156) -/
  | qnt (f : VR)
  /-- Decode a Q16N nibble times a scale. (R157) -/
  | dqnt (f : VR)
  /-- Online-softmax rescale into four registers. (R158) -/
  | smx (f : VR)
  /-- Relative-position bucket. (R159) -/
  | relbk (f : VR)
  /-- No operation. (R120) -/
  | nop (f : VR)
  /-- Unconditional branch to a clause header. (R117) -/
  | bra (f : BR)
  /-- Conditional branch on a predicate over active lanes. (R117) -/
  | brc (f : BR)
  /-- Branch, saving the next clause address in s63. (R117) -/
  | call (f : BR)
  /-- Jump to the address in s63. (R118) -/
  | ret (f : VR)
  /-- Indirect jump through a scalar. (R118) -/
  | jmpi (f : VR)
  /-- Remove guard-passing lanes, ending the team if none remain. (R119) -/
  | exit (f : VR)
  /-- End the team. (R119) -/
  | exitTeam (f : VR)
  /-- Save E into a predicate. (R121) -/
  | mpush (f : VR)
  /-- Restore E from a predicate. (R121) -/
  | mpop (f : VR)
  /-- E := E and predicate. (R121) -/
  | mand (f : VR)
  /-- E := E and not predicate. (R121) -/
  | mandn (f : VR)
  /-- E := predicate and not E. (R121) -/
  | melse (f : VR)
  /-- Set the yielded bit, parking under an expired deadline. (R120) -/
  | yield (f : VR)
  /-- Sleep the team for IMM32 ticks. (R120) -/
  | sleep (f : VI)
  /-- Move into a predicate. (R122) -/
  | pmov (f : VR)
  /-- Predicate and. (R122) -/
  | pand (f : VR)
  /-- Predicate or. (R122) -/
  | por (f : VR)
  /-- Predicate exclusive or. (R122) -/
  | pxor (f : VR)
  /-- Predicate complement. (R122) -/
  | pnot (f : VR)
  /-- Count set predicate lanes. (R122) -/
  | pcnt (f : VR)
  /-- Lowest set predicate lane. (R122) -/
  | pfirst (f : VR)
  /-- Any, all or uniform vote into a predicate. (R123) -/
  | vote (f : VR)
  /-- Gather 64 predicate lanes into a scalar. (R123) -/
  | ballot (f : VR)
  /-- Cross-lane shuffle. (R124) -/
  | shfl (f : VR)
  /-- Pairwise tree reduction over participants. (R125) -/
  | rdc (f : VR)
  /-- Inclusive or exclusive prefix scan. (R125) -/
  | scan (f : VR)
  /-- Check membership masks and order named lanes, raising SYNC_MASK on disagreement. (R126) -/
  | msync (f : VR)
  /-- Intersect two lane-spread lists. (R127) -/
  | isect (f : VR)
  /-- Per-lane load, training the SPT. (R203) -/
  | ld (f : MEM)
  /-- Per-lane store. (R203) -/
  | st (f : MEM)
  /-- Uniform load into a scalar. (R203) -/
  | ldu (f : MEM)
  /-- Scratchpad load. (R207) -/
  | ldsp (f : MEM)
  /-- Scratchpad store. (R207) -/
  | stsp (f : MEM)
  /-- Atomic read-modify-write at the home slice. (R211) -/
  | atom (f : ATM)
  /-- Atomic read-modify-write in scratchpad. (R211) -/
  | atomsp (f : ATM)
  /-- Ordering fence at a scope. (R212) -/
  | fence (f : MEM)
  /-- Wait until a memory word meets a condition or a timeout passes. (R213) -/
  | waitaddr (f : ATM)
  /-- Prefetch hint into the L1 or L2. (R215) -/
  | pfh (f : MEM)
  /-- Initialise a barrier object. (R219) -/
  | barInit (f : VR)
  /-- Add expected bytes to a barrier object. (R219) -/
  | barExpect (f : VR)
  /-- Release, then arrive on a barrier object. (R220) -/
  | barArrive (f : VR)
  /-- Wait for the barrier phase after the given parity. (R221) -/
  | barWait (f : VR)
  /-- Test whether the barrier phase has moved. (R221) -/
  | barTest (f : VR)
  /-- Arrive once on a cluster barrier and wait for its phase. (R224) -/
  | hbarSync (f : VR)
  /-- Arrive k counts on a cluster barrier. (R224) -/
  | hbarArrive (f : VR)
  /-- Wait on a cluster barrier's phase parity. (R224) -/
  | hbarWait (f : VR)
  /-- Take a cluster barrier or set its count. (R224) -/
  | hbarCnt (f : VR)
  /-- Free a held cluster barrier. (R224) -/
  | hbarCntFree (f : VR)
  /-- Wait for a filled fill-ring slot and return its offset. (R232) -/
  | rngAwait (f : VR)
  /-- Release consumed fill-ring slots. (R232) -/
  | rngRelease (f : VR)
  /-- Wait until a queue's completion reaches a sequence number. (R233) -/
  | seqwait (f : VR)
  /-- Arrive on a cluster barrier and schedule a halo copy. (R235) -/
  | halo (f : VR)
  /-- Claim free units as a slot. (R168) -/
  | slotClaim (f : VR)
  /-- Release a slot, to FREE or DRAINING. (R168) -/
  | slotRelease (f : VR)
  /-- Start filling a slot from memory. (R169) -/
  | slotLoad (f : VR)
  /-- Start storing a slot to memory, converting accumulators optionally. (R169) -/
  | slotStore (f : VR)
  /-- Start zeroing a slot. (R169) -/
  | slotZero (f : VR)
  /-- Read four bytes per lane from a slot. (R170) -/
  | slotRd (f : VR)
  /-- Write four bytes per lane into a slot. (R170) -/
  | slotWr (f : VR)
  /-- Check operands and format block, and enter the matrix queue. (R171) -/
  | mma (f : MX)
  /-- Read volume elements. (R270) -/
  | volLd (f : VR)
  /-- Make tiles writable and store volume elements. (R270) -/
  | volSt (f : VR)
  /-- Atomic read-modify-write of volume elements. (R270) -/
  | volAtom (f : VR)
  /-- Report the walk outcome per lane without faulting. (R271) -/
  | volProbe (f : VR)
  /-- Make tiles writable without storing. (R272) -/
  | volAlloc (f : VR)
  /-- Replace leaves with empty entries and push their blocks after the cymbal. (R272) -/
  | volFree (f : VR)
  /-- Convert leaf tiles to a format. (R272) -/
  | volFmt (f : VR)
  /-- Wait for earlier vol work, then fence. (R273) -/
  | volSync (f : VR)
  /-- Drop the cluster's CLB entries for a volume. (R273) -/
  | volInv (f : VR)
  /-- Pin the current version and return its token. (R281) -/
  | sxPin (f : VR)
  /-- Unpin a version, retiring it when its pins reach zero. (R281) -/
  | sxUnpin (f : VR)
  /-- Load elements through a token. (R290) -/
  | sxLd (f : VR)
  /-- Store elements through a token. (R290) -/
  | sxSt (f : VR)
  /-- Return the next resident or arrived piece, or PENDING, END or FAILED. (R287) -/
  | sxNext (f : VR)
  /-- Return total, count, start or length. (R290) -/
  | sxLen (f : VR)
  /-- Return an index's offset, piece and tier. (R290) -/
  | sxWhere (f : VR)
  /-- Splice pieces into a new version. (R285) -/
  | sxSplice (f : VR)
  /-- Append elements in place, by copy, or in a new piece. (R284) -/
  | sxAppend (f : VR)
  /-- Publish the source's current version in an empty list. (R286) -/
  | sxFork (f : VR)
  /-- Truncate the list to a new total. (R286) -/
  | sxTrunc (f : VR)
  /-- Read one history table entry. (R85) -/
  | hbRd (f : SYS)
  /-- Write one history table entry. (R85) -/
  | hbWr (f : SYS)
  /-- Clear selected tables or the header. (R86) -/
  | hbClr (f : SYS)
  /-- Freeze selected tables. (R86) -/
  | hbFrz (f : SYS)
  /-- Thaw selected tables. (R86) -/
  | hbThw (f : SYS)
  /-- Validate and install a bank image. (R87) -/
  | hbLd (f : SYS)
  /-- Snapshot the bank and store its image. (R87) -/
  | hbSt (f : SYS)
  /-- Trap with a code at or above 0x8000 raises USER. (R303) -/
  | trapUser (f : SYS)
  /-- Trap below 0x8000 posts a host-ring record and parks the team. (R303) -/
  | trapSystemCall (f : SYS)
  /-- Leave handler mode and resume at %epc, or re-enter on held causes. (R300) -/
  | rte (f : SYS)
  /-- Leave handler mode and pass the frame to containment. (R300) -/
  | rteUp (f : SYS)
  /-- Copy a user register into the handler store. (R301) -/
  | frd (f : SYS)
  /-- Copy the handler store into a user register. (R301) -/
  | fwr (f : SYS)
  /-- Read a system register. (R302) -/
  | sysrd (f : SYS)
  /-- Write a system register. (R302) -/
  | syswr (f : SYS)
  /-- Map a first-touch page with frames from a pool. (R253) -/
  | pgMap (f : SYS)
  /-- Invalidate translations of a range, optionally freeing frames. (R254) -/
  | pgInv (f : SYS)
  /-- Stage a context into the shadow bank on masked cores. (R69) -/
  | ctxSwapStage (f : SYS)
  /-- Swap the staged context in on masked cores. (R69) -/
  | ctxSwap (f : SYS)
  /-- Stage, then swap in once staging completes. (R69) -/
  | ctxSwapChain (f : SYS)
  /-- Free the shadow bank without writing. (R69) -/
  | ctxSwapDrop (f : SYS)
  /-- Swap the context off its cores, write its registers and cursors, and move it to SAVING. (R68) -/
  | ctxSave (f : SYS)
  /-- Make a saved context READY with a live OID. (R68) -/
  | ctxLoad (f : SYS)
  /-- Read the tick. (R330) -/
  | clk (f : SYS)
  /-- Read the Lamport clock LCLK. (R330) -/
  | clkLamport (f : SYS)
  /-- Read the team's running digest. (R330) -/
  | dgst (f : SYS)
  /-- Stop the team with a halt hit. (R330) -/
  | halt (f : SYS)
  /-- When a REPLICA card's partner does not answer within 10^9 ticks, the part writes the replica record with TIMEOUT set and the card completes. (R322) -/
  | replicaTimeout (job : Nat)
  /-- A word whose OP is an unassigned code inside an assigned range raises ILLEGAL_OP at decode check 1. (R49) -/
  | unassignedOpcodeWord (word : BitVec 64)
  /-- Reset brings the part up and loads the fuse remap table before any core fetches an instruction. (R8) -/
  | reset
  /-- When memory and link training complete, the part sets READY in DEV_STAT. (R311) -/
  | memoryAndLinkTrainingDone
  /-- The driver sets GO; the part checks DRV_FEAT against DEV_FEAT and sets either RUN or NEG_FAIL. (R311) -/
  | devCtlGo
  /-- A FIRE write to GONG makes every block latch its snapshot on the next tick and each core write a GONG record. (R328) -/
  | gong
  /-- On each tick that is a multiple of 2^k, every core latches its eight counters and writes a SWEEP_ABS or SWEEP_DELTA record. (R325) -/
  | carillonSweep
  /-- A clock stop writes a MARKER with cause 2. (R327) -/
  | clockStop
  /-- A clock restart writes a MARKER with cause 3. (R327) -/
  | clockRestart
  /-- A free pipe picks among eligible teams whose header waits hold, by pass-over count, yielded bit, CCT and age, and the winner issues its clause. (R115) -/
  | clauseArbitration
  /-- The whole clause is fetched and its header checked; a fetch fault or ILLEGAL_CLAUSE is raised with resume point (H, 0). (R32) -/
  | clauseFetch
  /-- While VALID is 0 and a slot holds a HELD hit, %snhit takes the lowest such hit on the next core cycle. (R307) -/
  | snhitReport
  /-- A %snhit write with bit 62 clears HELD and VALID and makes the team READY, issuing its matched instruction once past the snare. (R307) -/
  | snhitResume
  /-- A %snhit write with bit 61 and not bit 62 clears HELD and VALID and leaves the team STOPPED. (R307) -/
  | snhitClear
  /-- Once the tick reaches the core's deadline, teams winning yield-point clauses or completing yield park. (R116) -/
  | cooperativeDeadlineExpiry
  /-- After the deadline expires and no team of the active context is READY, the core swaps to the next partition's staged context and arms the deadline. (R310) -/
  | timeSliceTurnEnd
  /-- At cycle 128 the banks exchange, every L1 line takes RRV 3, and incoming teams become eligible. (R63) -/
  | swapExchange
  /-- When the spill engine writes the last byte, it raises the save sequence with a release, and the context state follows. (R66) -/
  | spillComplete
  /-- A spill that meets a translation fault or an uncorrectable error makes the context FAILED and sends a host record. (R66) -/
  | spillError
  /-- A staging load of the bank and control records completes, validating the image, and a chain swap starts on the next edge. (R69) -/
  | stagingComplete
  /-- The distributor places the next fitting gang whole within 64 core cycles, choosing cores, slots and scratch. (R101) -/
  | gangPlacement
  /-- For a higher-priority gang that fits nowhere, the distributor chain-swaps the kernel's context onto a qualifying cluster, and swaps back later. (R106) -/
  | distributorPreemption
  /-- The array takes the queue head and may fuse it with a qualifying entry sharing the B operand. (R175) -/
  | matrixPassStart
  /-- A pass completes its accumulator, makes its barrier arrival, ORs flags and holds enabled traps. (R174) -/
  | matrixPassComplete
  /-- The copy engine pages in a queued piece's parked leaves in FIFO order and writes the arrival entry, or marks it FAILED. (R288) -/
  | stitchPageIn
  /-- The copy engine processes a dead POOLED piece by invalidating its pages, lowering USED, zeroing used and pushing the record. (R336) -/
  | pieceDeath
  deriving DecidableEq, Repr

end Sys2Proof
end

