-- ==== Sys2Proof/WellFormed.lean ====
section
/-! DEFINITION. What the decode checks 3 and 4 of R48 accept, as far as the word alone decides it: the types, modifiers,
scopes, orders, hints, sizes and conditions of each form (a violation is ILLEGAL_OP) and the operand kinds and alignments
of each form (a violation is ILLEGAL_OPERAND). What depends on the team (declared counts, handler mode, the unit limit of
a PREEMPT context, the width of an msync team) is checked at issue, in Machine/Ops.lean. -/

namespace Sys2Proof

/-! ## Operand kinds (R39, R40) -/

/-- Kind V only. -/
def Opd.isV : Opd → Bool | .v _ => true | _ => false
/-- Kind S only: what a uniform field accepts (R40). -/
def Opd.isS : Opd → Bool | .s _ => true | _ => false
/-- V or KV. -/
def Opd.isVK : Opd → Bool | .v _ => true | .kv _ => true | _ => false
/-- S or KS. -/
def Opd.isSK : Opd → Bool | .s _ => true | .ks _ => true | _ => false
/-- An assigned special: codes 352 to 375 (R41, R112). -/
def Opd.isX : Opd → Bool | .x n => decide (n.val < 24) | _ => false
/-- A special whose value is the same in every lane (R112): not %lid, %mword or %lword. -/
def Opd.isXU : Opd → Bool
  | .x n => decide (n.val < 24 ∧ n.val ≠ 1 ∧ n.val ≠ 20 ∧ n.val ≠ 22)
  | _ => false
/-- p0 to p7. -/
def Opd.isP : Opd → Bool | .p _ => true | _ => false
/-- p0 to p6: a predicate that may be written (R40). -/
def Opd.isQ : Opd → Bool | .p n => decide (n.val < 7) | _ => false
/-- %zero: as a destination it discards the result (R40). -/
def Opd.isZero : Opd → Bool | .x n => decide (n.val = 0) | _ => false
/-- The code 511. -/
def Opd.isN : Opd → Bool | .none => true | _ => false

/-- S, KS or X. -/
def Opd.isSX (o : Opd) : Bool := o.isSK || o.isX
/-- V, KV, S, KS or X. -/
def Opd.isVSX (o : Opd) : Bool := o.isVK || o.isSX
/-- S, KS or 511. -/
def Opd.isSN (o : Opd) : Bool := o.isSK || o.isN
/-- The barrier operand of a slot operation or an mma: S or 511, as R169 and R171 list it. R218 speaks of S or KS; the lists of the
instructions themselves are followed (R40, R46, log entry 65). -/
def Opd.isBarOpd (o : Opd) : Bool := o.isS || o.isN

/-! ## Element types -/

/-- The 64-bit types (R17, R18). -/
def ETy.wide : ETy → Bool | .i64 => true | .n64 => true | .f64 => true | _ => false
/-- The set INT of R130. -/
def ETy.isInt : ETy → Bool
  | .i8 => true | .n8 => true | .i16 => true | .n16 => true | .i32 => true | .n32 => true | .i64 => true | .n64 => true
  | _ => false
/-- The set WIDE of R130. -/
def ETy.isWide : ETy → Bool | .i32 => true | .n32 => true | .i64 => true | .n64 => true | _ => false
/-- The set BITS of R130. -/
def ETy.isBits : ETy → Bool | .b32 => true | .n64 => true | _ => false
/-- The set FL of R144. -/
def ETy.isFL : ETy → Bool | .f64 => true | .f32 => true | .f16 => true | .bf16 => true | _ => false
/-- The set FLP of R144. -/
def ETy.isFLP : ETy → Bool | .f16x2 => true | t => t.isFL
/-- The set TR of R144. -/
def ETy.isTR : ETy → Bool | .f32 => true | .f16 => true | _ => false
/-- The floats of cvt (R154). -/
def ETy.isCvtFloat : ETy → Bool | .e4m3 => true | .e5m2 => true | t => t.isFL

/-- The type of a T code (R17, R18, R19). -/
def ETy.ofBits (c : BitVec 4) : ETy :=
  match c.toNat with
  | 0 => .b32 | 1 => .i32 | 2 => .n32 | 3 => .i64 | 4 => .n64 | 5 => .i16 | 6 => .n16 | 7 => .i8 | 8 => .n8
  | 9 => .f32 | 10 => .f16 | 11 => .bf16 | 12 => .f64 | 13 => .e4m3 | 14 => .e5m2 | _ => .f16x2

/-- The T code of a type. -/
def ETy.bits : ETy → BitVec 4
  | .b32 => 0 | .i32 => 1 | .n32 => 2 | .i64 => 3 | .n64 => 4 | .i16 => 5 | .n16 => 6 | .i8 => 7 | .n8 => 8
  | .f32 => 9 | .f16 => 10 | .bf16 => 11 | .f64 => 12 | .e4m3 => 13 | .e5m2 => 14 | .f16x2 => 15

/-! ## Fields of M -/

/-- Every bit of m outside the mask is zero (R38, R130). -/
def within {w : Nat} (m mask : BitVec w) : Bool := decide (m &&& ~~~mask = 0)

/-- Bits [hi:lo] of a field as a number. -/
def fld {w : Nat} (m : BitVec w) (lo n : Nat) : Nat := (m.toNat >>> lo) % 2 ^ n

/-- An R43 layout whose bits lie in the mask and whose rounding code is 0 to 4. -/
def fpM (m mask : BitVec 10) : Bool := within m mask && decide (fld m 7 3 ≤ 4)

/-- The guard rule of R36. -/
def Guard.legal : Guard → Bool | .illegal => false | _ => true
/-- A form that must be unguarded (R117, R121, R300, R330). -/
def Guard.none : Guard → Bool | .always => true | _ => false

/-! ## Check 3 of R48, the part a word decides -/

/-- Scope and order of R44: both assigned, and a relaxed access has scope 0. -/
def soOk (scope order : BitVec 3) : Bool :=
  decide (scope.toNat < 4 ∧ order.toNat < 4 ∧ (order = 0 → scope = 0))

/-- A VR word's T and M under a form's rule. -/
def vr3 (f : VR) (t m : Bool) : Bool := f.g.legal && t && m

/-- A VR word of T 0 (b32) with the given M rule. -/
def vr0 (f : VR) (m : Bool) : Bool := vr3 f (decide (f.t = .b32)) m

/-- T and M both zero, unguarded: the mask and plain control forms (R117, R121). -/
def vrPlain (f : VR) : Bool := f.g.none && decide (f.t = .b32) && decide (f.m = 0)

/-- The system-register numbers of R295. -/
def sysRegKnown (n : Nat) : Bool := decide (n ≤ 9 ∨ (0x20 ≤ n ∧ n ≤ 0x2b) ∨ (0x30 ≤ n ∧ n ≤ 0x3b) ∨ n = 0x3f)
/-- %emask and %eexec, the two 1,024-bit registers of R295. -/
def sysRegMask (n : Nat) : Bool := decide (n = 6 ∨ n = 7)

/-- cvt's pair of types and its M (R154). -/
def cvt3 (f : VR) : Bool :=
  let st := ETy.ofBits (BitVec.ofNat 4 (fld f.m 0 4))
  let fl := f.t.isCvtFloat && st.isCvtFloat
  let fi := f.t.isInt && st.isCvtFloat
  let ifl := f.t.isCvtFloat && st.isInt
  (fl || fi || ifl) && decide (fld f.m 7 3 ≤ 4) && (!ifl || decide (fld f.m 4 2 = 0))

/-- rdc and scan: op, rounding and types (R125). -/
def red3 (f : VR) (excl : Bool) : Bool :=
  let op := fld f.m 0 3
  let ty := f.t.isWide || (decide (3 ≤ op) && decide (f.t = .b32)) || (decide (op ≤ 2) && decide (f.t = .f32))
  let rnd := fld f.m 4 3
  decide (op ≤ 5) && ty && (excl || decide (fld f.m 3 1 = 0)) && decide (fld f.m 7 3 = 0) &&
    (if op = 0 ∧ f.t = .f32 then decide (rnd ≤ 4) else decide (rnd = 0))

/-- The M of slot.claim to slot.wr and the T each allows (R167, R169). -/
def slot3 (f : VR) (store : Bool) : Bool :=
  let kind := fld f.m 6 2
  let acc := store && decide (kind = 2)
  f.g.legal && decide (fld f.m 9 1 = 0) && (store || decide (fld f.m 8 1 = 0)) && decide (kind ≤ 2) &&
    (decide (f.t = .b32) ||
      (acc && (decide (f.t = .f32) || decide (f.t = .bf16) || decide (f.t = .f16) || decide (f.t = .e4m3) || decide (f.t = .e5m2))))

/-- A MEM word's common fields (R44). -/
def mem3 (f : MEM) (hintMax : Nat) : Bool :=
  f.g.legal && soOk f.scope f.order && decide (f.hint.toNat ≤ hintMax) && decide (f.size.toNat < 5)

/-- A SYS word with both halves zero. -/
def sys00 (f : SYS) : Bool := f.g.legal && decide (f.hi = 0) && decide (f.lo = 0)

/-- Check 3 of R48 for a word: guard, reserved bits, T, M, scope, order, hint, size, condition. -/
def Instr.check3 : Instr → Bool
  -- integer and address (09)
  | .add f | .sub f | .neg f | .mul f | .mad f => vr3 f f.t.isInt (within f.m 1)
  | .abs f => vr3 f (f.t.isInt && (decide (f.t = .i8) || decide (f.t = .i16) || decide (f.t = .i32) || decide (f.t = .i64))) (within f.m 1)
  | .min f | .max f | .clamp f => vr3 f f.t.isInt (within f.m 0)
  | .mulhi f => vr3 f f.t.isWide (within f.m 0)
  | .madw f => vr3 f (decide (f.t = .i32) || decide (f.t = .n32)) (within f.m 1)
  | .sad f => vr3 f (f.t.isInt && !f.t.wide) (within f.m 1)
  | .addc f | .subb f => vr3 f (decide (f.t = .n32) || decide (f.t = .n64)) (within f.m 0)
  | .and f | .or f | .xor f | .andn f | .not f => vr3 f f.t.isBits (within f.m 0)
  | .shl f | .shr f | .sar f => vr3 f f.t.isBits (within f.m 1)
  | .rot f => vr3 f f.t.isBits (within f.m 2)
  | .funnel f => vr3 f f.t.isBits (within f.m 3)
  | .bfx f => vr3 f f.t.isWide (within f.m 0)
  | .bfi f | .popc f | .clz f | .ctz f | .brev f => vr3 f f.t.isBits (within f.m 0)
  | .perm f => vr0 f (within f.m 0)
  | .sel f => vr3 f f.t.isBits (within f.m 0)
  | .cmp f => vr3 f (f.t.isInt || (decide (f.t = .b32) && decide (fld f.m 0 3 ≤ 1))) (within f.m 0x1f && decide (fld f.m 0 3 ≤ 5))
  | .mov f => vr3 f f.t.isBits (within f.m 0)
  | .movi f | .moviHi f => f.g.legal
  | .lea f => vr3 f (decide (f.t = .n64)) (within f.m 0xf)
  | .sxt f | .zxt f => vr3 f f.t.isBits (within f.m 0x7f && decide (1 ≤ fld f.m 0 7 ∧ fld f.m 0 7 ≤ (if f.t = .n64 then 64 else 32)))
  | .dp4 f => vr3 f (decide (f.t = .i32) || decide (f.t = .n32)) (within f.m 7)
  | .addi f | .andi f | .ori f => f.g.legal
  | .cmpi f => f.g.legal && decide (fld f.imm 29 3 ≤ 5)
  -- float and conversion (10)
  | .fadd f | .fsub f | .fmul f => vr3 f f.t.isFLP (fpM f.m 0x3fc)
  | .ffma f => vr3 f f.t.isFL (fpM f.m 0x3ff)
  | .fscale f => vr3 f f.t.isFLP (fpM f.m 0x3f0)
  | .fmin f | .fmax f => vr3 f f.t.isFLP (fpM f.m 0x3bc)
  | .fminl f | .fmaxl f => vr3 f (decide (f.t = .f32) || decide (f.t = .f64)) (fpM f.m 0x3bc)
  | .fcmp f => vr3 f f.t.isFL (within f.m 0x1ff)
  | .fclass f => vr3 f f.t.isCvtFloat (within f.m 0)
  | .frcp f | .frsq f => vr3 f (decide (f.t = .f64) || f.t.isTR) (within f.m 0x3f0 && decide (fld f.m 7 3 ≤ 1))
  | .fsqrt f => vr3 f (decide (f.t = .f64) || f.t.isTR) (fpM f.m 0x3f0)
  | .fexp2 f | .flog2 f | .fsin f | .fcos f | .ftanh f => vr3 f f.t.isTR (within f.m 0x3f0 && decide (fld f.m 7 3 ≤ 1))
  | .fexpo f => vr3 f f.t.isFL (within f.m 0x030)
  | .ffract f => vr3 f f.t.isFL (fpM f.m 0x3b0)
  | .frnd f => vr3 f f.t.isFLP (fpM f.m 0x3b0)
  | .fdot2 f => vr3 f (decide (f.t = .f16x2) || decide (f.t = .bf16)) (fpM f.m 0x3ff)
  | .fpma f => vr3 f (decide (f.t = .f16x2)) (fpM f.m 0x3ff)
  | .cvt f => f.g.legal && cvt3 f
  | .qnt f => vr3 f (decide (f.t = .f32)) (within f.m 7)
  | .dqnt f => vr3 f f.t.isTR (fpM f.m 0x3c7)
  | .smx f => vr3 f (decide (f.t = .f32)) (within f.m 0)
  | .relbk f => vr3 f (decide (f.t = .i32)) (within f.m 1)
  -- control, masks, predicates (08)
  | .nop f | .ret f | .jmpi f | .yield f | .mpush f | .mpop f | .mand f | .mandn f | .melse f => vrPlain f
  | .exit f => f.g.legal && decide (f.t = .b32) && decide (f.m = 0)
  | .exitTeam f => f.g.none && decide (f.t = .b32) && decide (f.m = 1)
  | .bra f | .call f => f.g.none && decide (f.cond = 0 ∧ f.pred = 7 ∧ f.rsv = 0)
  | .brc f => f.g.none && decide (1 ≤ f.cond.toNat ∧ f.cond.toNat ≤ 4 ∧ f.rsv = 0)
  | .sleep f => f.g.none
  | .pmov f | .pand f | .por f | .pxor f | .pnot f | .pcnt f | .pfirst f => vr0 f (within f.m 0)
  | .vote f => vr0 f (decide (f.m.toNat ≤ 2))
  | .ballot f => vr0 f (within f.m 0xf)
  | .shfl f => vr3 f (decide (f.t = .b32) || decide (f.t = .i64) || decide (f.t = .n64)) (within f.m 3)
  | .rdc f => f.g.legal && red3 f false
  | .scan f => f.g.legal && red3 f true
  | .msync f => vr3 f f.t.isBits (within f.m 0)
  | .isect f => vr3 f (decide (f.t = .n32) || decide (f.t = .n64)) (within f.m 0)
  -- loads, stores, atomics, fences (13)
  | .ld f | .ldu f => mem3 f 2 && decide (f.order ≠ 2)
  | .st f => mem3 f 2 && decide (f.order ≠ 1)
  | .ldsp f => mem3 f 0 && decide (f.order ≠ 2 ∧ f.scope.toNat ≤ 1)
  | .stsp f => mem3 f 0 && decide (f.order ≠ 1 ∧ f.scope.toNat ≤ 1)
  | .atom f => f.g.legal && soOk f.scope f.order && decide (f.aop.toNat ≤ 12 ∧ (f.size = 2 ∨ f.size = 3))
  | .atomsp f => f.g.legal && soOk f.scope f.order && decide (f.scope.toNat ≤ 1 ∧ f.aop.toNat ≤ 12 ∧ (f.size = 2 ∨ f.size = 3))
  | .fence f => f.g.legal && soOk f.scope f.order && decide (f.order ≠ 0 ∧ f.hint = 0 ∧ f.size = 0 ∧ f.off = 0)
  | .waitaddr f => f.g.legal && soOk f.scope f.order &&
      decide (f.aop.toNat ≤ 3 ∧ (f.size = 2 ∨ f.size = 3) ∧ f.noRet = false ∧ (f.order = 0 ∨ (f.order = 1 ∧ f.scope ≠ 0)))
  | .pfh f => mem3 f 1 && decide (f.order = 0)
  -- barriers (14), rings and halo (15)
  | .barInit f | .barExpect f => vr0 f (within f.m 0)
  | .barArrive f | .barWait f | .barTest f => vr0 f (decide (f.m.toNat ≤ 2))
  | .hbarSync f => vr0 f (within f.m 0x1f && decide (fld f.m 5 2 = 0))
  | .hbarArrive f => vr0 f (within f.m 0x3f && decide (fld f.m 5 2 = 1))
  | .hbarWait f => vr0 f (within f.m 0x5f && decide (fld f.m 5 2 = 2))
  | .hbarCnt f => vr0 f (within f.m 0x1f && decide (fld f.m 5 1 = 0))
  | .hbarCntFree f => vr0 f (within f.m 0x3f && decide (fld f.m 5 1 = 1))
  | .rngAwait f | .rngRelease f | .seqwait f => vr0 f (within f.m 0)
  | .halo f => vr0 f (within f.m 0x1f)
  -- slots and matrix (11)
  | .slotClaim f | .slotRelease f | .slotLoad f | .slotZero f | .slotRd f | .slotWr f => slot3 f false
  | .slotStore f => slot3 f true
  | .mma f => f.g.legal && within f.flags 3
  -- volume (17)
  | .volLd f | .volSt f => vr3 f f.t.isBits (within f.m 0)
  | .volAtom f => vr3 f f.t.isBits (decide (f.m.toNat ≤ 12 ∧ f.m ≠ 9))
  | .volProbe f | .volAlloc f | .volFree f | .volInv f => vr0 f (within f.m 0)
  | .volFmt f => vr0 f (within f.m 3)
  | .volSync f => vr0 f (within f.m 0x1f && decide (fld f.m 0 2 ≠ 0 ∧ fld f.m 2 3 < 4))
  -- stitch (18)
  | .sxPin f | .sxUnpin f | .sxWhere f | .sxSplice f | .sxAppend f | .sxFork f | .sxTrunc f => vr0 f (within f.m 0)
  | .sxLd f | .sxSt f => vr3 f f.t.isBits (within f.m 0)
  | .sxNext f => vr0 f (within f.m 1)
  | .sxLen f => vr0 f (within f.m 3)
  -- history (05)
  | .hbRd f => f.g.legal && decide (f.hi.toNat ≤ 4 ∧ f.lo = 0)
  | .hbWr f => f.g.legal && decide (f.hi.toNat ≤ 3 ∧ f.lo = 0)
  | .hbClr f => f.g.legal && decide (f.hi = 0 ∧ f.lo ≠ 0 ∧ f.lo.toNat ≤ 31)
  | .hbFrz f | .hbThw f => f.g.legal && decide (f.hi = 0 ∧ f.lo ≠ 0 ∧ f.lo.toNat ≤ 15)
  | .hbLd f | .hbSt f => sys00 f
  -- system (19, 16, 04, 22)
  | .trapUser f => f.g.legal && decide (f.hi = 0 ∧ 0x8000 ≤ f.lo.toNat)
  | .trapSystemCall f => f.g.legal && decide (f.hi = 0 ∧ f.lo.toNat < 0x8000)
  | .rte f => f.g.none && decide (f.hi = 0 ∧ f.lo = 0)
  | .rteUp f => f.g.none && decide (f.hi = 0 ∧ f.lo = 1)
  | .frd f | .fwr f => f.g.legal && decide (f.lo = 0) && (if f.a.isN then decide (f.hi.toNat < 512) else decide (f.hi = 0))
  | .sysrd f | .syswr f => f.g.legal && decide (f.lo = 0)
  | .pgMap f => f.g.legal && decide (f.hi = 0 ∧ f.lo.toNat < 8)
  | .pgInv f => f.g.legal && decide (f.hi = 0 ∧ f.lo.toNat ≤ 2)
  | .ctxSwapStage f => f.g.legal && decide (f.hi = 0 ∧ f.lo = 0)
  | .ctxSwap f => f.g.legal && decide (f.hi = 0 ∧ f.lo = 1)
  | .ctxSwapChain f => f.g.legal && decide (f.hi = 0 ∧ f.lo = 2)
  | .ctxSwapDrop f => f.g.legal && decide (f.hi = 0 ∧ f.lo = 3)
  | .ctxSave f | .ctxLoad f | .dgst f => sys00 f
  | .clk f => f.g.legal && decide (f.hi = 0 ∧ f.lo = 0)
  | .clkLamport f => f.g.legal && decide (f.hi = 0 ∧ f.lo = 1)
  | .halt f => f.g.none && decide (f.hi = 0 ∧ f.lo = 0)
  | _ => true

/-! ## Check 4 of R48, the part a word decides -/

/-- The D rule of R128: V or S, KV or KS, or %zero, which discards (R40). -/
def dR128 (d : Opd) : Bool := d.isVK || d.isSK || d.isZero

/-- A source of R128 under destination d: V, S or X; with an S destination only S or a uniform special. -/
def srcR128 (d o : Opd) : Bool := if d.isSK then o.isSK || o.isXU else o.isVSX

/-- D, A, B and C under R128, each of B and C used (true) or 511 (false). -/
def alu4 (f : VR) (b c : Bool) : Bool :=
  dR128 f.d && srcR128 f.d f.a && (if b then srcR128 f.d f.b else f.b.isN) && (if c then srcR128 f.d f.c else f.c.isN)

/-- All four operand fields under given rules. -/
def ops4 (f : VR) (d a b c : Opd → Bool) : Bool := d f.d && a f.a && b f.b && c f.c

/-- The base of R199. -/
def baseOk (o : Opd) : Bool := o.isVK || o.isSK || o.isZero
/-- The index of R199, or the base of a scratchpad form (R207). -/
def indexOk (o : Opd) : Bool := o.isVSX || o.isN
/-- With a 16-byte size, an S or X data operand is illegal (R202). -/
def size16 (f : MEM) : Bool := decide (f.size.toNat ≠ 4) || f.d.isVK || f.d.isZero

/-- The user register that frd or fwr names, when the word fixes it, suits D (R301). -/
def frOk (f : SYS) (wr : Bool) : Bool :=
  let n := f.hi.toNat
  (f.a.isSK || f.a.isN) &&
  match f.d with
  | .kv _ => !f.a.isN || decide (n ≤ 255) || decide (320 ≤ n ∧ n ≤ (if wr then 326 else 327))
  | .ks _ => !f.a.isN || decide (256 ≤ n ∧ n ≤ 319)
  | _ => false

/-- The operand of sysrd or syswr suits the register (R302), and the register exists (R47). -/
def sysOpdOk (n : Nat) (o : Opd) : Bool := sysRegKnown n && (if sysRegMask n then o.isQ else o.isSK)

/-- The kinds of check 4 of R48. -/
def Instr.kinds : Instr → Bool
  | .add f | .sub f | .min f | .max f | .mul f | .mulhi f | .and f | .or f | .xor f | .andn f
  | .shl f | .shr f | .sar f | .rot f | .lea f => alu4 f true false
  | .neg f | .abs f | .not f | .popc f | .clz f | .ctz f | .brev f | .mov f | .sxt f | .zxt f => alu4 f false false
  | .clamp f | .mad f | .sad f | .funnel f | .bfx f | .bfi f | .perm f | .dp4 f => alu4 f true true
  | .madw f => alu4 f true true && !f.c.isX
  | .addc f | .subb f => ops4 f Opd.isVK Opd.isVSX Opd.isVSX Opd.isQ
  | .sel f => ops4 f Opd.isVK Opd.isVSX Opd.isVSX Opd.isP
  | .cmp f => ops4 f Opd.isQ Opd.isVSX Opd.isVSX (if fld f.m 3 2 = 0 then Opd.isN else Opd.isP)
  | .movi f => dR128 f.d && f.a.isN
  | .moviHi f => f.a.isSK && f.d.isSK
  | .addi f | .andi f | .ori f => dR128 f.d && srcR128 f.d f.a
  | .cmpi f => f.d.isQ && f.a.isVSX
  | .fadd f | .fsub f | .fmul f | .fscale f | .fmin f | .fmax f | .fminl f | .fmaxl f | .dqnt f => alu4 f true false
  | .ffma f | .fdot2 f | .fpma f => alu4 f true true
  | .fclass f | .frcp f | .frsq f | .fsqrt f | .fexp2 f | .flog2 f | .fsin f | .fcos f | .ftanh f
  | .fexpo f | .ffract f | .frnd f | .cvt f => alu4 f false false
  | .fcmp f => ops4 f Opd.isQ Opd.isVSX Opd.isVSX (if fld f.m 3 2 = 0 then Opd.isN else Opd.isP)
  | .qnt f => ops4 f Opd.isVK Opd.isVSX Opd.isVSX (fun o => o.isVK || o.isN)
  | .smx f => ops4 f Opd.isVK Opd.isVSX Opd.isVSX Opd.isVSX
  | .relbk f => alu4 f true false
  | .nop f | .yield f | .exit f | .exitTeam f | .ret f => ops4 f Opd.isN Opd.isN Opd.isN Opd.isN
  | .jmpi f => ops4 f Opd.isN Opd.isSK Opd.isN Opd.isN
  | .mpush f => ops4 f Opd.isQ Opd.isN Opd.isN Opd.isN
  | .mpop f | .melse f => ops4 f Opd.isN Opd.isQ Opd.isN Opd.isN
  | .mand f | .mandn f => ops4 f Opd.isN Opd.isP Opd.isN Opd.isN
  | .bra _ | .brc _ | .call _ => true
  | .sleep f => f.d.isN && f.a.isN
  | .pmov f => ops4 f Opd.isQ (fun o => o.isP || o.isV || o.isS || o.isX) Opd.isN Opd.isN
  | .pand f | .por f | .pxor f => ops4 f Opd.isQ Opd.isP Opd.isP Opd.isN
  | .pnot f => ops4 f Opd.isQ Opd.isP Opd.isN Opd.isN
  | .pcnt f | .pfirst f => ops4 f (fun o => o.isS || o.isV) Opd.isP Opd.isN Opd.isN
  | .vote f => ops4 f Opd.isQ Opd.isP Opd.isN Opd.isN
  | .ballot f => ops4 f Opd.isSK Opd.isP Opd.isN Opd.isN
  | .shfl f => ops4 f Opd.isV Opd.isV (fun o => o.isV || o.isS || o.isX) (fun o => o.isS || o.isX || o.isN)
  | .rdc f => ops4 f (fun o => o.isS || o.isV) Opd.isV Opd.isN Opd.isN
  | .scan f => ops4 f Opd.isV Opd.isV Opd.isN Opd.isN
  | .msync f => ops4 f Opd.isN Opd.isV Opd.isN Opd.isN
  | .isect f => ops4 f Opd.isV Opd.isV Opd.isV Opd.isS
  | .ld f => (f.d.isVK || f.d.isZero) && baseOk f.base && indexOk f.index
  | .st f => f.d.isVSX && baseOk f.base && indexOk f.index && size16 f
  | .ldu f => (f.d.isSK || f.d.isZero) && (f.base.isSK || f.base.isZero) && (f.index.isSX || f.index.isN) && size16 f
  | .ldsp f => (f.d.isVK || f.d.isZero) && indexOk f.base && indexOk f.index
  | .stsp f => f.d.isVSX && indexOk f.base && indexOk f.index && size16 f
  | .atom f => (f.noRet == f.d.isN) && (f.d.isVK || f.d.isN) && (f.addr.isVK || f.addr.isSK) && f.data.isVSX &&
      (if f.aop = 9 then f.cmp.isVSX else f.cmp.isN)
  | .atomsp f => (f.noRet == f.d.isN) && (f.d.isVK || f.d.isN) && f.addr.isVSX && f.data.isVSX &&
      (if f.aop = 9 then f.cmp.isVSX else f.cmp.isN)
  | .fence f => f.d.isN && f.base.isN && f.index.isN
  | .waitaddr f => f.d.isSN && f.addr.isSK && f.data.isSX && f.cmp.isSN
  | .pfh f => f.d.isN && baseOk f.base && indexOk f.index
  | .barInit f | .barExpect f => ops4 f Opd.isN Opd.isSK Opd.isSX Opd.isN
  | .barArrive f => ops4 f Opd.isSN Opd.isSK (fun o => o.isSX || o.isN) Opd.isN
  | .barWait f => ops4 f Opd.isSN Opd.isSK Opd.isSX Opd.isSN
  | .barTest f => ops4 f Opd.isSK Opd.isSK Opd.isSX Opd.isN
  | .hbarSync f | .hbarCntFree f => ops4 f Opd.isSN Opd.isN Opd.isN Opd.isN
  | .hbarArrive f | .hbarWait f | .hbarCnt f => ops4 f Opd.isSN Opd.isSX Opd.isN Opd.isN
  | .rngAwait f => ops4 f Opd.isSK Opd.isSK Opd.isSX Opd.isSN
  | .rngRelease f => ops4 f Opd.isSK Opd.isSK Opd.isSX Opd.isN
  | .seqwait f => ops4 f Opd.isSK Opd.isSX Opd.isSK Opd.isSN
  | .halo f => ops4 f Opd.isSK Opd.isSK Opd.isSN Opd.isN
  | .slotClaim f => ops4 f Opd.isSN Opd.isN Opd.isN Opd.isN
  | .slotRelease f => ops4 f Opd.isN Opd.isN Opd.isN Opd.isN
  | .slotZero f => ops4 f Opd.isN Opd.isN Opd.isN Opd.isBarOpd
  | .slotLoad f | .slotStore f => ops4 f Opd.isN Opd.isS (fun o => o.isS || o.isX) Opd.isBarOpd
  | .slotRd f => ops4 f Opd.isVK (fun o => o.isV || o.isS || o.isX) Opd.isN Opd.isN
  | .slotWr f => ops4 f Opd.isN (fun o => o.isV || o.isS || o.isX) Opd.isVK Opd.isN
  | .mma f => f.fb.isS && f.bar.isBarOpd
  | .volLd f | .volProbe f | .volFmt f => ops4 f Opd.isVK Opd.isVK Opd.isSK Opd.isN
  | .volSt f => ops4 f Opd.isN Opd.isVK Opd.isSK Opd.isVSX
  | .volAtom f => ops4 f (fun o => o.isVK || o.isN) Opd.isVK Opd.isSK Opd.isVSX
  | .volAlloc f | .volFree f => ops4 f Opd.isN Opd.isVK Opd.isSK Opd.isN
  | .volSync f => ops4 f Opd.isN Opd.isN Opd.isN Opd.isN
  | .volInv f => ops4 f Opd.isN Opd.isN Opd.isSK Opd.isN
  | .sxPin f => ops4 f Opd.isSK Opd.isN Opd.isSK Opd.isN
  | .sxUnpin f => ops4 f Opd.isN Opd.isN Opd.isSK Opd.isN
  | .sxLd f | .sxWhere f => ops4 f Opd.isVK Opd.isVSX Opd.isSK Opd.isSN
  | .sxSt f => ops4 f Opd.isVSX Opd.isVSX Opd.isSK Opd.isSN
  | .sxNext f => ops4 f Opd.isSK Opd.isSK Opd.isN Opd.isN
  | .sxLen f => ops4 f Opd.isSK (if fld f.m 0 2 ≤ 1 then Opd.isN else Opd.isSX) Opd.isSK Opd.isN
  | .sxSplice f | .sxAppend f | .sxFork f | .sxTrunc f => ops4 f Opd.isSK Opd.isSK Opd.isN Opd.isN
  | .hbRd f | .hbWr f | .hbLd f | .hbSt f => f.d.isSK && f.a.isSK
  | .hbClr f | .hbFrz f | .hbThw f | .rte f | .rteUp f | .halt f => f.d.isN && f.a.isN
  | .trapUser f | .trapSystemCall f => f.d.isSN && f.a.isN
  | .frd f => frOk f false
  | .fwr f => frOk f true
  | .sysrd f => sysOpdOk f.hi.toNat f.d && f.a.isN
  | .syswr f => sysOpdOk f.hi.toNat f.a && f.d.isN
  | .pgMap f | .pgInv f => f.d.isSN && f.a.isSK
  | .ctxSwapStage f | .ctxSwap f | .ctxSwapChain f | .ctxSwapDrop f | .ctxSave f | .ctxLoad f => f.d.isS && f.a.isS
  | .clk f | .clkLamport f | .dgst f => f.d.isSK && f.a.isN
  | _ => true

/-- One operand of a word with the registers it takes: vn vector registers from a number that is a multiple of va, or sn
scalar registers from a number that is a multiple of sa (R17, R40, R202). -/
structure Use where
  o : Opd
  vn : Nat := 1
  va : Nat := 1
  sn : Nat := 1
  sa : Nat := 1
  deriving DecidableEq, Repr

/-- A 32-bit operand. -/
def u1 (o : Opd) : Use := { o := o }
/-- A 64-bit operand: an even V pair or one S register (R17). -/
def u2 (o : Opd) : Use := { o := o, vn := 2, va := 2 }
/-- An operand of type t. -/
def ut (t : ETy) (o : Opd) : Use := if t.wide then u2 o else u1 o
/-- A group of n S registers from a multiple of al. -/
def ug (n al : Nat) (o : Opd) : Use := { o := o, sn := n, sa := al }
/-- Data of a memory access of size code z (R202). -/
def uz (z : Nat) (o : Opd) : Use :=
  if z = 3 then u2 o else if z = 4 then { o := o, vn := 4, va := 4 } else u1 o

/-- The operands of a word with the registers each takes. -/
def Instr.uses : Instr → List Use
  | .add f | .sub f | .min f | .max f | .mul f | .mulhi f | .and f | .or f | .xor f | .andn f
  | .neg f | .abs f | .not f | .brev f | .mov f | .sxt f | .zxt f | .clamp f | .mad f | .sad f | .perm f | .dp4 f
  | .addc f | .subb f | .sel f => [ut f.t f.d, ut f.t f.a, ut f.t f.b, ut f.t f.c]
  | .madw f => [u2 f.d, u1 f.a, u1 f.b, u2 f.c]
  | .shl f | .shr f | .sar f | .rot f | .lea f => [ut f.t f.d, ut f.t f.a, u1 f.b]
  | .funnel f | .bfi f => [ut f.t f.d, ut f.t f.a, ut f.t f.b, u1 f.c]
  | .bfx f => [ut f.t f.d, ut f.t f.a, u1 f.b, u1 f.c]
  | .popc f | .clz f | .ctz f => [u1 f.d, ut f.t f.a]
  | .cmp f | .fcmp f => [u1 f.d, ut f.t f.a, ut f.t f.b, u1 f.c]
  | .movi f | .moviHi f | .addi f | .andi f | .ori f | .cmpi f => [u1 f.d, u1 f.a]
  | .fadd f | .fsub f | .fmul f | .ffma f | .fmin f | .fmax f | .fminl f | .fmaxl f
  | .frcp f | .frsq f | .fsqrt f | .fexp2 f | .flog2 f | .fsin f | .fcos f | .ftanh f
  | .ffract f | .frnd f | .fpma f => [ut f.t f.d, ut f.t f.a, ut f.t f.b, ut f.t f.c]
  | .fscale f => [ut f.t f.d, ut f.t f.a, u1 f.b]
  | .fclass f | .fexpo f => [u1 f.d, ut f.t f.a]
  | .fdot2 f | .qnt f | .dqnt f | .relbk f => [u1 f.d, u1 f.a, u1 f.b, u1 f.c]
  | .cvt f => [ut f.t f.d, ut (ETy.ofBits (BitVec.ofNat 4 (fld f.m 0 4))) f.a]
  | .smx f => [{ o := f.d, vn := 4, va := 4 }, u1 f.a, u1 f.b, u1 f.c]
  | .call _ | .ret _ => [u1 (.s 63)]
  | .jmpi f => [u1 f.a]
  | .mpush f | .mpop f | .mand f | .mandn f | .melse f | .pmov f | .pand f | .por f | .pxor f | .pnot f
  | .pcnt f | .pfirst f | .vote f | .ballot f => [u1 f.d, u1 f.a, u1 f.b]
  | .shfl f => [ut f.t f.d, ut f.t f.a, u1 f.b, u1 f.c]
  | .rdc f | .scan f => [ut f.t f.d, ut f.t f.a]
  | .msync f => [ut f.t f.a]
  | .isect f => [u1 f.d, ut f.t f.a, ut f.t f.b, u1 f.c]
  | .ld f | .st f | .ldu f => [uz f.size.toNat f.d, u2 f.base, u1 f.index]
  | .ldsp f | .stsp f => [uz f.size.toNat f.d, u1 f.base, u1 f.index]
  | .atom f => [uz f.size.toNat f.d, u2 f.addr, uz f.size.toNat f.data, uz f.size.toNat f.cmp]
  | .atomsp f => [uz f.size.toNat f.d, u1 f.addr, uz f.size.toNat f.data, uz f.size.toNat f.cmp]
  | .waitaddr f => [u1 f.d, u1 f.addr, u1 f.data, u1 f.cmp]
  | .pfh f => [u2 f.base, u1 f.index]
  | .barInit f | .barExpect f | .barArrive f | .barWait f | .barTest f | .hbarSync f | .hbarArrive f | .hbarWait f
  | .hbarCnt f | .hbarCntFree f | .rngAwait f | .rngRelease f | .seqwait f | .halo f
  | .slotClaim f | .slotLoad f | .slotStore f | .slotZero f | .slotRd f | .slotWr f => [u1 f.d, u1 f.a, u1 f.b, u1 f.c]
  | .mma f => [ug 4 4 f.fb, u1 f.bar]
  | .volLd f | .volProbe f | .volFmt f | .volSt f | .volAtom f | .volAlloc f | .volFree f =>
    [ut f.t f.d, { o := f.a, vn := 3 }, u1 f.b, ut f.t f.c]
  | .volInv f => [u1 f.b]
  | .sxPin f | .sxUnpin f | .sxNext f | .sxLen f => [u1 f.d, u1 f.a, u1 f.b]
  | .sxLd f | .sxSt f => [ut f.t f.d, u1 f.a, u1 f.b, u1 f.c]
  | .sxWhere f => [u2 f.d, u1 f.a, u1 f.b, u1 f.c]
  | .sxSplice f => [u1 f.d, ug 4 4 f.a]
  | .sxAppend f | .sxFork f | .sxTrunc f => [u1 f.d, ug 2 2 f.a]
  | .hbRd f | .hbWr f => [ug 2 2 f.d, u1 f.a]
  | .hbLd f | .hbSt f => [u1 f.d, u1 f.a]
  | .trapUser f | .trapSystemCall f | .pgMap f | .clk f | .clkLamport f | .dgst f => [u1 f.d, u1 f.a]
  | .frd f | .fwr f | .sysrd f | .syswr f => [u1 f.d, u1 f.a]
  | .pgInv f | .ctxSwapStage f | .ctxSwap f | .ctxSwapChain f | .ctxSwapDrop f => [u1 f.d, ug 2 2 f.a]
  | .ctxSave f | .ctxLoad f => [u1 f.d, u1 f.a]
  | _ => []

/-- The alignment of an operand's register group (R17, R40, R202). -/
def Use.aligned (u : Use) : Bool :=
  match u.o with
  | .v n => decide (n.val % u.va = 0)
  | .kv n => decide (n.val % u.va = 0)
  | .s n => decide (n.val % u.sa = 0)
  | .ks n => decide (n.val % u.sa = 0)
  | _ => true

/-- The slot units a word names, each with its required alignment (R161, R171). -/
def Instr.slotUnits : Instr → List (Nat × Nat)
  | .slotClaim f | .slotRelease f | .slotLoad f | .slotStore f | .slotZero f | .slotRd f | .slotWr f =>
    [(fld f.m 0 6, if fld f.m 6 2 = 0 then 1 else if fld f.m 6 2 = 1 then 2 else 4)]
  | .mma f => [(f.acc.toNat, 4), (f.ua.toNat, 1), (f.ub.toNat, 2)]
  | _ => []

/-- Check 4 of R48, the part a word decides: kinds, register alignment, slot-unit alignment. -/
def Instr.check4 (i : Instr) : Bool :=
  i.kinds && i.uses.all Use.aligned && i.slotUnits.all fun u => decide (u.1 % u.2 = 0)

/-- A word that the decode checks accept as far as the word decides. -/
def Instr.wellFormed (i : Instr) : Bool := i.check3 && i.check4

end Sys2Proof
end

