-- ==== Sys2Proof/Decode.lean ====
section
/-! DEFINITION. The decoder and the encoder of instruction words (R36, R37, R39, R42, R49, R50). parse is total: every
64-bit word is one term of Instr. decode adds the checks 1, 3 and 4 of R48 that the word decides and refuses by name. -/

namespace Sys2Proof

/-! ## Fields -/

/-- The operand that a 9-bit code names (R39). -/
def Opd.ofCode (c : Nat) : Opd :=
  if h : c < 256 then .v ⟨c, h⟩
  else if h : c - 256 < 64 then .s ⟨c - 256, h⟩
  else if h : c - 320 < 8 then .p ⟨c - 320, h⟩
  else if h : c - 328 < 16 then .kv ⟨c - 328, h⟩
  else if h : c - 344 < 8 then .ks ⟨c - 344, h⟩
  else if h : c - 352 < 32 then .x ⟨c - 352, h⟩
  else if h : c - 384 < 127 then .rsv ⟨c - 384, h⟩
  else .none

/-- The 9-bit code of an operand (R39). -/
def Opd.code : Opd → Nat
  | .v n => n.val
  | .s n => 256 + n.val
  | .p n => 320 + n.val
  | .kv n => 328 + n.val
  | .ks n => 344 + n.val
  | .x n => 352 + n.val
  | .rsv n => 384 + n.val
  | .none => 511

/-- The guard of the four bits PG, PN (R36). -/
def Guard.ofCode (c : Nat) : Guard :=
  if h : c / 2 < 7 then (if c % 2 = 0 then .pos ⟨c / 2, h⟩ else .neg ⟨c / 2, h⟩)
  else if c % 2 = 0 then .always else .illegal

/-- PG, PN of a guard (R36). -/
def Guard.code : Guard → Nat
  | .pos n => 2 * n.val
  | .neg n => 2 * n.val + 1
  | .always => 14
  | .illegal => 15

/-- n bits of a word from bit lo up. -/
def bitsAt (w lo n : Nat) : Nat := w / 2 ^ lo % 2 ^ n

/-- OP of a word: bits [63:54] (R36). -/
def opOf (w : W64) : Nat := w.toNat / 2 ^ 54

/-- The operand field whose lowest bit is lo. -/
def opdAt (w lo : Nat) : Opd := Opd.ofCode (bitsAt w lo 9)

/-- The guard field of a word. -/
def guardAt (w : Nat) : Guard := Guard.ofCode (bitsAt w 50 4)

/-! ## The seven formats (R37) -/

/-- Bits [49:0] and the guard as a VR word. -/
def getVR (w : Nat) : VR :=
  { g := guardAt w, d := opdAt w 41, a := opdAt w 32, b := opdAt w 23, c := opdAt w 14,
    t := ETy.ofBits (BitVec.ofNat 4 (bitsAt w 10 4)), m := BitVec.ofNat 10 (bitsAt w 0 10) }

/-- As a VI word. -/
def getVI (w : Nat) : VI :=
  { g := guardAt w, d := opdAt w 41, a := opdAt w 32, imm := BitVec.ofNat 32 (bitsAt w 0 32) }

/-- As a MEM word. -/
def getMEM (w : Nat) : MEM :=
  { g := guardAt w, d := opdAt w 41, base := opdAt w 32, index := opdAt w 23,
    scope := BitVec.ofNat 3 (bitsAt w 20 3), order := BitVec.ofNat 3 (bitsAt w 17 3),
    hint := BitVec.ofNat 2 (bitsAt w 15 2), size := BitVec.ofNat 3 (bitsAt w 12 3), off := BitVec.ofNat 12 (bitsAt w 0 12) }

/-- As an ATM word. -/
def getATM (w : Nat) : ATM :=
  { g := guardAt w, d := opdAt w 41, addr := opdAt w 32, data := opdAt w 23, cmp := opdAt w 14,
    scope := BitVec.ofNat 3 (bitsAt w 11 3), order := BitVec.ofNat 3 (bitsAt w 8 3),
    aop := BitVec.ofNat 4 (bitsAt w 4 4), size := BitVec.ofNat 3 (bitsAt w 1 3), noRet := decide (bitsAt w 0 1 = 1) }

/-- As a BR word. -/
def getBR (w : Nat) : BR :=
  { g := guardAt w, disp := BitVec.ofNat 26 (bitsAt w 24 26), cond := BitVec.ofNat 3 (bitsAt w 21 3),
    pred := BitVec.ofNat 3 (bitsAt w 18 3), rsv := BitVec.ofNat 18 (bitsAt w 0 18) }

/-- As an MX word. -/
def getMX (w : Nat) : MX :=
  { g := guardAt w, acc := BitVec.ofNat 6 (bitsAt w 44 6), ua := BitVec.ofNat 6 (bitsAt w 38 6),
    ub := BitVec.ofNat 6 (bitsAt w 32 6), fb := opdAt w 23, bar := opdAt w 14, flags := BitVec.ofNat 14 (bitsAt w 0 14) }

/-- As a SYS word. -/
def getSYS (w : Nat) : SYS :=
  { g := guardAt w, d := opdAt w 41, a := opdAt w 32, hi := BitVec.ofNat 16 (bitsAt w 16 16), lo := BitVec.ofNat 16 (bitsAt w 0 16) }

/-- A word from OP, guard and the 50 bits of its format. -/
def putWord (op : Nat) (g : Guard) (low : Nat) : W64 := BitVec.ofNat 64 (op * 2 ^ 54 + g.code * 2 ^ 50 + low)

def putVR (op : Nat) (f : VR) : W64 :=
  putWord op f.g (f.d.code * 2 ^ 41 + f.a.code * 2 ^ 32 + f.b.code * 2 ^ 23 + f.c.code * 2 ^ 14 + f.t.bits.toNat * 2 ^ 10 + f.m.toNat)
def putVI (op : Nat) (f : VI) : W64 :=
  putWord op f.g (f.d.code * 2 ^ 41 + f.a.code * 2 ^ 32 + f.imm.toNat)
def putMEM (op : Nat) (f : MEM) : W64 :=
  putWord op f.g (f.d.code * 2 ^ 41 + f.base.code * 2 ^ 32 + f.index.code * 2 ^ 23 + f.scope.toNat * 2 ^ 20 +
    f.order.toNat * 2 ^ 17 + f.hint.toNat * 2 ^ 15 + f.size.toNat * 2 ^ 12 + f.off.toNat)
def putATM (op : Nat) (f : ATM) : W64 :=
  putWord op f.g (f.d.code * 2 ^ 41 + f.addr.code * 2 ^ 32 + f.data.code * 2 ^ 23 + f.cmp.code * 2 ^ 14 +
    f.scope.toNat * 2 ^ 11 + f.order.toNat * 2 ^ 8 + f.aop.toNat * 2 ^ 4 + f.size.toNat * 2 + (if f.noRet then 1 else 0))
def putBR (op : Nat) (f : BR) : W64 :=
  putWord op f.g (f.disp.toNat * 2 ^ 24 + f.cond.toNat * 2 ^ 21 + f.pred.toNat * 2 ^ 18 + f.rsv.toNat)
def putMX (op : Nat) (f : MX) : W64 :=
  putWord op f.g (f.acc.toNat * 2 ^ 44 + f.ua.toNat * 2 ^ 38 + f.ub.toNat * 2 ^ 32 + f.fb.code * 2 ^ 23 + f.bar.code * 2 ^ 14 + f.flags.toNat)
def putSYS (op : Nat) (f : SYS) : W64 :=
  putWord op f.g (f.d.code * 2 ^ 41 + f.a.code * 2 ^ 32 + f.hi.toNat * 2 ^ 16 + f.lo.toNat)

/-! ## The opcode map (R49, R50) -/

/-- The 170 assigned opcodes. -/
def opAssigned (op : Nat) : Bool :=
  decide (op < 0x2b ∨ (0x80 ≤ op ∧ op < 0x9d) ∨ (0x100 ≤ op ∧ op < 0x115) ∨ (0x140 ≤ op ∧ op < 0x147) ∨ (0x180 ≤ op ∧ op < 0x18a) ∨ (0x200 ≤ op ∧ op < 0x207) ∨ (0x220 ≤ op ∧ op < 0x224) ∨ (0x240 ≤ op ∧ op < 0x248) ∨ (0x280 ≤ op ∧ op < 0x289) ∨ (0x2c0 ≤ op ∧ op < 0x2cb) ∨ (0x300 ≤ op ∧ op < 0x307) ∨ (0x320 ≤ op ∧ op < 0x32e))

/-- The rows of the opcode 0x22 (movi). -/
def splitMovi (f : VI) : Instr :=
  if f.a = .none then .movi f else .moviHi f

/-- The rows of the opcode 0x106 (exit). -/
def splitExit (f : VR) : Instr :=
  if fld f.m 0 1 = 0 then .exit f else .exitTeam f

/-- The rows of the opcode 0x205 (hbar). -/
def splitHbarSync (f : VR) : Instr :=
  if fld f.m 5 2 = 0 then .hbarSync f else if fld f.m 5 2 = 1 then .hbarArrive f else .hbarWait f

/-- The rows of the opcode 0x206 (hbar.cnt). -/
def splitHbarCnt (f : VR) : Instr :=
  if fld f.m 5 1 = 0 then .hbarCnt f else .hbarCntFree f

/-- The rows of the opcode 0x320 (trap). -/
def splitTrapUser (f : SYS) : Instr :=
  if 0x8000 ≤ f.lo.toNat then .trapUser f else .trapSystemCall f

/-- The rows of the opcode 0x321 (rte). -/
def splitRte (f : SYS) : Instr :=
  if f.lo.toNat % 2 = 0 then .rte f else .rteUp f

/-- The rows of the opcode 0x328 (ctx.swap). -/
def splitCtxSwapStage (f : SYS) : Instr :=
  if f.lo = 0 then .ctxSwapStage f else if f.lo = 2 then .ctxSwapChain f else if f.lo = 3 then .ctxSwapDrop f else .ctxSwap f

/-- The rows of the opcode 0x32b (clk). -/
def splitClk (f : SYS) : Instr :=
  if f.lo = 0 then .clk f else .clkLamport f

/-- Opcodes from 0x0, by their place in the range (R49). -/
def assembleInteger (k w : Nat) (other : Instr) : Instr :=
  match k with
  | 0 => .add (getVR w)
  | 1 => .addc (getVR w)
  | 2 => .sub (getVR w)
  | 3 => .subb (getVR w)
  | 4 => .neg (getVR w)
  | 5 => .abs (getVR w)
  | 6 => .min (getVR w)
  | 7 => .max (getVR w)
  | 8 => .clamp (getVR w)
  | 9 => .mul (getVR w)
  | 10 => .mulhi (getVR w)
  | 11 => .mad (getVR w)
  | 12 => .madw (getVR w)
  | 13 => .sad (getVR w)
  | 14 => .and (getVR w)
  | 15 => .or (getVR w)
  | 16 => .xor (getVR w)
  | 17 => .andn (getVR w)
  | 18 => .not (getVR w)
  | 19 => .shl (getVR w)
  | 20 => .shr (getVR w)
  | 21 => .sar (getVR w)
  | 22 => .rot (getVR w)
  | 23 => .funnel (getVR w)
  | 24 => .bfx (getVR w)
  | 25 => .bfi (getVR w)
  | 26 => .popc (getVR w)
  | 27 => .clz (getVR w)
  | 28 => .ctz (getVR w)
  | 29 => .brev (getVR w)
  | 30 => .perm (getVR w)
  | 31 => .sel (getVR w)
  | 32 => .cmp (getVR w)
  | 33 => .mov (getVR w)
  | 34 => splitMovi (getVI w)
  | 35 => .lea (getVR w)
  | 36 => .sxt (getVR w)
  | 37 => .zxt (getVR w)
  | 38 => .dp4 (getVR w)
  | 39 => .addi (getVI w)
  | 40 => .andi (getVI w)
  | 41 => .ori (getVI w)
  | 42 => .cmpi (getVI w)
  | _ => other

/-- Opcodes from 0x80, by their place in the range (R49). -/
def assembleFloat (k w : Nat) (other : Instr) : Instr :=
  match k with
  | 0 => .fadd (getVR w)
  | 1 => .fsub (getVR w)
  | 2 => .fmul (getVR w)
  | 3 => .ffma (getVR w)
  | 4 => .fmin (getVR w)
  | 5 => .fmax (getVR w)
  | 6 => .fminl (getVR w)
  | 7 => .fmaxl (getVR w)
  | 8 => .fcmp (getVR w)
  | 9 => .fclass (getVR w)
  | 10 => .frcp (getVR w)
  | 11 => .frsq (getVR w)
  | 12 => .fsqrt (getVR w)
  | 13 => .fexp2 (getVR w)
  | 14 => .flog2 (getVR w)
  | 15 => .fsin (getVR w)
  | 16 => .fcos (getVR w)
  | 17 => .ftanh (getVR w)
  | 18 => .fscale (getVR w)
  | 19 => .fexpo (getVR w)
  | 20 => .ffract (getVR w)
  | 21 => .frnd (getVR w)
  | 22 => .fdot2 (getVR w)
  | 23 => .fpma (getVR w)
  | 24 => .cvt (getVR w)
  | 25 => .qnt (getVR w)
  | 26 => .dqnt (getVR w)
  | 27 => .smx (getVR w)
  | 28 => .relbk (getVR w)
  | _ => other

/-- Opcodes from 0x100, by their place in the range (R49). -/
def assembleControl (k w : Nat) (other : Instr) : Instr :=
  match k with
  | 0 => .nop (getVR w)
  | 1 => .bra (getBR w)
  | 2 => .brc (getBR w)
  | 3 => .call (getBR w)
  | 4 => .ret (getVR w)
  | 5 => .jmpi (getVR w)
  | 6 => splitExit (getVR w)
  | 7 => .mpush (getVR w)
  | 8 => .mpop (getVR w)
  | 9 => .mand (getVR w)
  | 10 => .mandn (getVR w)
  | 11 => .melse (getVR w)
  | 12 => .yield (getVR w)
  | 13 => .sleep (getVI w)
  | 14 => .pmov (getVR w)
  | 15 => .pand (getVR w)
  | 16 => .por (getVR w)
  | 17 => .pxor (getVR w)
  | 18 => .pnot (getVR w)
  | 19 => .pcnt (getVR w)
  | 20 => .pfirst (getVR w)
  | _ => other

/-- Opcodes from 0x140, by their place in the range (R49). -/
def assembleCrossLane (k w : Nat) (other : Instr) : Instr :=
  match k with
  | 0 => .vote (getVR w)
  | 1 => .ballot (getVR w)
  | 2 => .shfl (getVR w)
  | 3 => .rdc (getVR w)
  | 4 => .scan (getVR w)
  | 5 => .msync (getVR w)
  | 6 => .isect (getVR w)
  | _ => other

/-- Opcodes from 0x180, by their place in the range (R49). -/
def assembleMemory (k w : Nat) (other : Instr) : Instr :=
  match k with
  | 0 => .ld (getMEM w)
  | 1 => .st (getMEM w)
  | 2 => .ldu (getMEM w)
  | 3 => .ldsp (getMEM w)
  | 4 => .stsp (getMEM w)
  | 5 => .atom (getATM w)
  | 6 => .atomsp (getATM w)
  | 7 => .fence (getMEM w)
  | 8 => .waitaddr (getATM w)
  | 9 => .pfh (getMEM w)
  | _ => other

/-- Opcodes from 0x200, by their place in the range (R49). -/
def assembleBarrier (k w : Nat) (other : Instr) : Instr :=
  match k with
  | 0 => .barInit (getVR w)
  | 1 => .barExpect (getVR w)
  | 2 => .barArrive (getVR w)
  | 3 => .barWait (getVR w)
  | 4 => .barTest (getVR w)
  | 5 => splitHbarSync (getVR w)
  | 6 => splitHbarCnt (getVR w)
  | _ => other

/-- Opcodes from 0x220, by their place in the range (R49). -/
def assembleRing (k w : Nat) (other : Instr) : Instr :=
  match k with
  | 0 => .rngAwait (getVR w)
  | 1 => .rngRelease (getVR w)
  | 2 => .seqwait (getVR w)
  | 3 => .halo (getVR w)
  | _ => other

/-- Opcodes from 0x240, by their place in the range (R49). -/
def assembleSlot (k w : Nat) (other : Instr) : Instr :=
  match k with
  | 0 => .slotClaim (getVR w)
  | 1 => .slotRelease (getVR w)
  | 2 => .slotLoad (getVR w)
  | 3 => .slotStore (getVR w)
  | 4 => .slotZero (getVR w)
  | 5 => .slotRd (getVR w)
  | 6 => .slotWr (getVR w)
  | 7 => .mma (getMX w)
  | _ => other

/-- Opcodes from 0x280, by their place in the range (R49). -/
def assembleVolume (k w : Nat) (other : Instr) : Instr :=
  match k with
  | 0 => .volLd (getVR w)
  | 1 => .volSt (getVR w)
  | 2 => .volAtom (getVR w)
  | 3 => .volProbe (getVR w)
  | 4 => .volAlloc (getVR w)
  | 5 => .volFree (getVR w)
  | 6 => .volFmt (getVR w)
  | 7 => .volSync (getVR w)
  | 8 => .volInv (getVR w)
  | _ => other

/-- Opcodes from 0x2c0, by their place in the range (R49). -/
def assembleStitch (k w : Nat) (other : Instr) : Instr :=
  match k with
  | 0 => .sxPin (getVR w)
  | 1 => .sxUnpin (getVR w)
  | 2 => .sxLd (getVR w)
  | 3 => .sxSt (getVR w)
  | 4 => .sxNext (getVR w)
  | 5 => .sxLen (getVR w)
  | 6 => .sxWhere (getVR w)
  | 7 => .sxSplice (getVR w)
  | 8 => .sxAppend (getVR w)
  | 9 => .sxFork (getVR w)
  | 10 => .sxTrunc (getVR w)
  | _ => other

/-- Opcodes from 0x300, by their place in the range (R49). -/
def assembleHistory (k w : Nat) (other : Instr) : Instr :=
  match k with
  | 0 => .hbRd (getSYS w)
  | 1 => .hbWr (getSYS w)
  | 2 => .hbClr (getSYS w)
  | 3 => .hbFrz (getSYS w)
  | 4 => .hbThw (getSYS w)
  | 5 => .hbLd (getSYS w)
  | 6 => .hbSt (getSYS w)
  | _ => other

/-- Opcodes from 0x320, by their place in the range (R49). -/
def assembleSystem (k w : Nat) (other : Instr) : Instr :=
  match k with
  | 0 => splitTrapUser (getSYS w)
  | 1 => splitRte (getSYS w)
  | 2 => .frd (getSYS w)
  | 3 => .fwr (getSYS w)
  | 4 => .sysrd (getSYS w)
  | 5 => .syswr (getSYS w)
  | 6 => .pgMap (getSYS w)
  | 7 => .pgInv (getSYS w)
  | 8 => splitCtxSwapStage (getSYS w)
  | 9 => .ctxSave (getSYS w)
  | 10 => .ctxLoad (getSYS w)
  | 11 => splitClk (getSYS w)
  | 12 => .dgst (getSYS w)
  | 13 => .halt (getSYS w)
  | _ => other

/-- The term of Instr that a word with opcode op is. -/
def assemble (op w : Nat) (other : Instr) : Instr :=
  if op < 0x80 then assembleInteger (op - 0x0) w other
  else if op < 0x100 then assembleFloat (op - 0x80) w other
  else if op < 0x140 then assembleControl (op - 0x100) w other
  else if op < 0x180 then assembleCrossLane (op - 0x140) w other
  else if op < 0x200 then assembleMemory (op - 0x180) w other
  else if op < 0x220 then assembleBarrier (op - 0x200) w other
  else if op < 0x240 then assembleRing (op - 0x220) w other
  else if op < 0x280 then assembleSlot (op - 0x240) w other
  else if op < 0x2c0 then assembleVolume (op - 0x280) w other
  else if op < 0x300 then assembleStitch (op - 0x2c0) w other
  else if op < 0x320 then assembleHistory (op - 0x300) w other
  else if op < 0x380 then assembleSystem (op - 0x320) w other
  else other

/-- Every word as a term of Instr. -/
def parse (w : W64) : Instr :=
  assemble (opOf w) w.toNat (if opOf w < 0x380 then .unassignedOpcodeWord w else .translationRangeWord w)

/-! ## Encoding -/

/-- The opcode of an instruction word's constructor; 1024 for a step that has no word. -/
def Instr.op : Instr → Nat
  | .add _ => 0x0
  | .addc _ => 0x1
  | .sub _ => 0x2
  | .subb _ => 0x3
  | .neg _ => 0x4
  | .abs _ => 0x5
  | .min _ => 0x6
  | .max _ => 0x7
  | .clamp _ => 0x8
  | .mul _ => 0x9
  | .mulhi _ => 0xa
  | .mad _ => 0xb
  | .madw _ => 0xc
  | .sad _ => 0xd
  | .and _ => 0xe
  | .or _ => 0xf
  | .xor _ => 0x10
  | .andn _ => 0x11
  | .not _ => 0x12
  | .shl _ => 0x13
  | .shr _ => 0x14
  | .sar _ => 0x15
  | .rot _ => 0x16
  | .funnel _ => 0x17
  | .bfx _ => 0x18
  | .bfi _ => 0x19
  | .popc _ => 0x1a
  | .clz _ => 0x1b
  | .ctz _ => 0x1c
  | .brev _ => 0x1d
  | .perm _ => 0x1e
  | .sel _ => 0x1f
  | .cmp _ => 0x20
  | .mov _ => 0x21
  | .movi _ | .moviHi _ => 0x22
  | .lea _ => 0x23
  | .sxt _ => 0x24
  | .zxt _ => 0x25
  | .dp4 _ => 0x26
  | .addi _ => 0x27
  | .andi _ => 0x28
  | .ori _ => 0x29
  | .cmpi _ => 0x2a
  | .fadd _ => 0x80
  | .fsub _ => 0x81
  | .fmul _ => 0x82
  | .ffma _ => 0x83
  | .fmin _ => 0x84
  | .fmax _ => 0x85
  | .fminl _ => 0x86
  | .fmaxl _ => 0x87
  | .fcmp _ => 0x88
  | .fclass _ => 0x89
  | .frcp _ => 0x8a
  | .frsq _ => 0x8b
  | .fsqrt _ => 0x8c
  | .fexp2 _ => 0x8d
  | .flog2 _ => 0x8e
  | .fsin _ => 0x8f
  | .fcos _ => 0x90
  | .ftanh _ => 0x91
  | .fscale _ => 0x92
  | .fexpo _ => 0x93
  | .ffract _ => 0x94
  | .frnd _ => 0x95
  | .fdot2 _ => 0x96
  | .fpma _ => 0x97
  | .cvt _ => 0x98
  | .qnt _ => 0x99
  | .dqnt _ => 0x9a
  | .smx _ => 0x9b
  | .relbk _ => 0x9c
  | .nop _ => 0x100
  | .bra _ => 0x101
  | .brc _ => 0x102
  | .call _ => 0x103
  | .ret _ => 0x104
  | .jmpi _ => 0x105
  | .exit _ | .exitTeam _ => 0x106
  | .mpush _ => 0x107
  | .mpop _ => 0x108
  | .mand _ => 0x109
  | .mandn _ => 0x10a
  | .melse _ => 0x10b
  | .yield _ => 0x10c
  | .sleep _ => 0x10d
  | .pmov _ => 0x10e
  | .pand _ => 0x10f
  | .por _ => 0x110
  | .pxor _ => 0x111
  | .pnot _ => 0x112
  | .pcnt _ => 0x113
  | .pfirst _ => 0x114
  | .vote _ => 0x140
  | .ballot _ => 0x141
  | .shfl _ => 0x142
  | .rdc _ => 0x143
  | .scan _ => 0x144
  | .msync _ => 0x145
  | .isect _ => 0x146
  | .ld _ => 0x180
  | .st _ => 0x181
  | .ldu _ => 0x182
  | .ldsp _ => 0x183
  | .stsp _ => 0x184
  | .atom _ => 0x185
  | .atomsp _ => 0x186
  | .fence _ => 0x187
  | .waitaddr _ => 0x188
  | .pfh _ => 0x189
  | .barInit _ => 0x200
  | .barExpect _ => 0x201
  | .barArrive _ => 0x202
  | .barWait _ => 0x203
  | .barTest _ => 0x204
  | .hbarSync _ | .hbarArrive _ | .hbarWait _ => 0x205
  | .hbarCnt _ | .hbarCntFree _ => 0x206
  | .rngAwait _ => 0x220
  | .rngRelease _ => 0x221
  | .seqwait _ => 0x222
  | .halo _ => 0x223
  | .slotClaim _ => 0x240
  | .slotRelease _ => 0x241
  | .slotLoad _ => 0x242
  | .slotStore _ => 0x243
  | .slotZero _ => 0x244
  | .slotRd _ => 0x245
  | .slotWr _ => 0x246
  | .mma _ => 0x247
  | .volLd _ => 0x280
  | .volSt _ => 0x281
  | .volAtom _ => 0x282
  | .volProbe _ => 0x283
  | .volAlloc _ => 0x284
  | .volFree _ => 0x285
  | .volFmt _ => 0x286
  | .volSync _ => 0x287
  | .volInv _ => 0x288
  | .sxPin _ => 0x2c0
  | .sxUnpin _ => 0x2c1
  | .sxLd _ => 0x2c2
  | .sxSt _ => 0x2c3
  | .sxNext _ => 0x2c4
  | .sxLen _ => 0x2c5
  | .sxWhere _ => 0x2c6
  | .sxSplice _ => 0x2c7
  | .sxAppend _ => 0x2c8
  | .sxFork _ => 0x2c9
  | .sxTrunc _ => 0x2ca
  | .hbRd _ => 0x300
  | .hbWr _ => 0x301
  | .hbClr _ => 0x302
  | .hbFrz _ => 0x303
  | .hbThw _ => 0x304
  | .hbLd _ => 0x305
  | .hbSt _ => 0x306
  | .trapUser _ | .trapSystemCall _ => 0x320
  | .rte _ | .rteUp _ => 0x321
  | .frd _ => 0x322
  | .fwr _ => 0x323
  | .sysrd _ => 0x324
  | .syswr _ => 0x325
  | .pgMap _ => 0x326
  | .pgInv _ => 0x327
  | .ctxSwapStage _ | .ctxSwapChain _ | .ctxSwapDrop _ | .ctxSwap _ => 0x328
  | .ctxSave _ => 0x329
  | .ctxLoad _ => 0x32a
  | .clk _ | .clkLamport _ => 0x32b
  | .dgst _ => 0x32c
  | .halt _ => 0x32d
  | .translationRangeWord w | .unassignedOpcodeWord w => opOf w
  | _ => 1024

/-- The guard of an instruction word. -/
def Instr.guard : Instr → Guard
  | .add f | .addc f | .sub f | .subb f | .neg f | .abs f | .min f | .max f | .clamp f | .mul f | .mulhi f | .mad f
  | .madw f | .sad f | .and f | .or f | .xor f | .andn f | .not f | .shl f | .shr f | .sar f | .rot f | .funnel f
  | .bfx f | .bfi f | .popc f | .clz f | .ctz f | .brev f | .perm f | .sel f | .cmp f | .mov f | .lea f | .sxt f
  | .zxt f | .dp4 f | .fadd f | .fsub f | .fmul f | .ffma f | .fmin f | .fmax f | .fminl f | .fmaxl f | .fcmp f
  | .fclass f | .frcp f | .frsq f | .fsqrt f | .fexp2 f | .flog2 f | .fsin f | .fcos f | .ftanh f | .fscale f
  | .fexpo f | .ffract f | .frnd f | .fdot2 f | .fpma f | .cvt f | .qnt f | .dqnt f | .smx f | .relbk f | .nop f
  | .ret f | .jmpi f | .exit f | .exitTeam f | .mpush f | .mpop f | .mand f | .mandn f | .melse f | .yield f
  | .pmov f | .pand f | .por f | .pxor f | .pnot f | .pcnt f | .pfirst f | .vote f | .ballot f | .shfl f | .rdc f
  | .scan f | .msync f | .isect f | .barInit f | .barExpect f | .barArrive f | .barWait f | .barTest f | .hbarSync f
  | .hbarArrive f | .hbarWait f | .hbarCnt f | .hbarCntFree f | .rngAwait f | .rngRelease f | .seqwait f | .halo f
  | .slotClaim f | .slotRelease f | .slotLoad f | .slotStore f | .slotZero f | .slotRd f | .slotWr f | .volLd f
  | .volSt f | .volAtom f | .volProbe f | .volAlloc f | .volFree f | .volFmt f | .volSync f | .volInv f | .sxPin f
  | .sxUnpin f | .sxLd f | .sxSt f | .sxNext f | .sxLen f | .sxWhere f | .sxSplice f | .sxAppend f | .sxFork f
  | .sxTrunc f => f.g
  | .movi f | .moviHi f | .addi f | .andi f | .ori f | .cmpi f | .sleep f => f.g
  | .ld f | .st f | .ldu f | .ldsp f | .stsp f | .fence f | .pfh f => f.g
  | .atom f | .atomsp f | .waitaddr f => f.g
  | .bra f | .brc f | .call f => f.g
  | .mma f => f.g
  | .hbRd f | .hbWr f | .hbClr f | .hbFrz f | .hbThw f | .hbLd f | .hbSt f | .trapUser f | .trapSystemCall f | .rte f
  | .rteUp f | .frd f | .fwr f | .sysrd f | .syswr f | .pgMap f | .pgInv f | .ctxSwapStage f | .ctxSwap f
  | .ctxSwapChain f | .ctxSwapDrop f | .ctxSave f | .ctxLoad f | .clk f | .clkLamport f | .dgst f | .halt f => f.g
  | _ => .always

/-- The word of an instruction, from the same tables; none for a step that has no word. -/
def encode (i : Instr) : Option W64 :=
  match i with
  | .add f | .addc f | .sub f | .subb f | .neg f | .abs f | .min f | .max f | .clamp f | .mul f | .mulhi f | .mad f
  | .madw f | .sad f | .and f | .or f | .xor f | .andn f | .not f | .shl f | .shr f | .sar f | .rot f | .funnel f
  | .bfx f | .bfi f | .popc f | .clz f | .ctz f | .brev f | .perm f | .sel f | .cmp f | .mov f | .lea f | .sxt f
  | .zxt f | .dp4 f | .fadd f | .fsub f | .fmul f | .ffma f | .fmin f | .fmax f | .fminl f | .fmaxl f | .fcmp f
  | .fclass f | .frcp f | .frsq f | .fsqrt f | .fexp2 f | .flog2 f | .fsin f | .fcos f | .ftanh f | .fscale f
  | .fexpo f | .ffract f | .frnd f | .fdot2 f | .fpma f | .cvt f | .qnt f | .dqnt f | .smx f | .relbk f | .nop f
  | .ret f | .jmpi f | .exit f | .exitTeam f | .mpush f | .mpop f | .mand f | .mandn f | .melse f | .yield f
  | .pmov f | .pand f | .por f | .pxor f | .pnot f | .pcnt f | .pfirst f | .vote f | .ballot f | .shfl f | .rdc f
  | .scan f | .msync f | .isect f | .barInit f | .barExpect f | .barArrive f | .barWait f | .barTest f | .hbarSync f
  | .hbarArrive f | .hbarWait f | .hbarCnt f | .hbarCntFree f | .rngAwait f | .rngRelease f | .seqwait f | .halo f
  | .slotClaim f | .slotRelease f | .slotLoad f | .slotStore f | .slotZero f | .slotRd f | .slotWr f | .volLd f
  | .volSt f | .volAtom f | .volProbe f | .volAlloc f | .volFree f | .volFmt f | .volSync f | .volInv f | .sxPin f
  | .sxUnpin f | .sxLd f | .sxSt f | .sxNext f | .sxLen f | .sxWhere f | .sxSplice f | .sxAppend f | .sxFork f
  | .sxTrunc f => some (putVR i.op f)
  | .movi f | .moviHi f | .addi f | .andi f | .ori f | .cmpi f | .sleep f => some (putVI i.op f)
  | .ld f | .st f | .ldu f | .ldsp f | .stsp f | .fence f | .pfh f => some (putMEM i.op f)
  | .atom f | .atomsp f | .waitaddr f => some (putATM i.op f)
  | .bra f | .brc f | .call f => some (putBR i.op f)
  | .mma f => some (putMX i.op f)
  | .hbRd f | .hbWr f | .hbClr f | .hbFrz f | .hbThw f | .hbLd f | .hbSt f | .trapUser f | .trapSystemCall f | .rte f
  | .rteUp f | .frd f | .fwr f | .sysrd f | .syswr f | .pgMap f | .pgInv f | .ctxSwapStage f | .ctxSwap f
  | .ctxSwapChain f | .ctxSwapDrop f | .ctxSave f | .ctxLoad f | .clk f | .clkLamport f | .dgst f | .halt f => some (putSYS i.op f)
  | .translationRangeWord w => if 0x380 ≤ opOf w then some w else none
  | .unassignedOpcodeWord w => if opOf w < 0x380 ∧ opAssigned (opOf w) = false then some w else none
  | _ => none

/-! ## Decoding with the checks -/

/-- Why the decoder refuses a word: the cause of the decode check that fails (R48). -/
inductive DecodeFault where
  /-- Check 3. -/
  | illegalOp
  /-- Check 4. -/
  | illegalOperand
  deriving DecidableEq, Repr

/-- The instruction of a word, or the check that refuses it. A word whose opcode is unassigned decodes to the row that
raises ILLEGAL_OP for it (check 1). -/
def decode (w : W64) : Except DecodeFault Instr :=
  if (parse w).check3 = false then .error .illegalOp
  else if (parse w).check4 = false then .error .illegalOperand
  else .ok (parse w)

/-- The instruction that an instruction memory holding the table's number w of nbits bits decodes to; bits above nbits
are zero. An instruction of the GZ-880 is one 64-bit little-endian word (R3, R37). -/
def decodeTableWord (nbits w : Nat) : Option Instr :=
  match decode (BitVec.ofNat 64 (w % 2 ^ nbits)) with
  | .ok i => some i
  | .error _ => none

/-- The clause classes that admit an opcode (R35). -/
def classAdmits (cls op : Nat) : Bool :=
  let r := if op < 0x080 then 0 else if op < 0x100 then 1 else if op < 0x140 then 2 else if op < 0x180 then 3
    else if op < 0x200 then 4 else if op < 0x220 then 5 else if op < 0x240 then 6 else if op < 0x280 then 7
    else if op < 0x2c0 then 8 else if op < 0x300 then 9 else if op < 0x320 then 10 else if op < 0x380 then 11 else 12
  match cls with
  | 0 => decide (r ≤ 10)
  | 1 => decide (r = 0 ∨ r = 2 ∨ r = 4 ∨ r = 8 ∨ r = 9)
  | 2 => decide (r = 0 ∨ r = 2 ∨ r = 7)
  | 3 => decide (r = 0 ∨ r = 2 ∨ r = 5 ∨ r = 6 ∨ r = 7)
  | 4 => decide (r = 0 ∨ r = 2 ∨ r = 3)
  | 5 => decide (r = 0 ∨ r = 2 ∨ r = 10 ∨ r = 11)
  | _ => false

end Sys2Proof
end

