-- ==== Sys2Proof/Config.lean ====
section
/-! DEFINITION. What the GZ-880 fixes for one part and the values the manual leaves open. An opaque constant has no body:
nothing can be proved of its value. -/

namespace Sys2Proof.Config

/-- Whether a physical core 0 to 4 of a cluster is good, as the fuses of one part have it (R8). At least four of each cluster are. -/
opaque fuseGood : Nat → Nat → Bool

/-- The result bits of frcp before the bound of R150 is applied, for a type code and an operand. -/
opaque rawFrcp : Nat → Nat → Nat
/-- The result bits of frsq before the bound of R150 is applied. -/
opaque rawFrsq : Nat → Nat → Nat
/-- The result bits of fexp2 before the bound of R150 is applied. -/
opaque rawFexp2 : Nat → Nat → Nat
/-- The result bits of flog2 before the bound of R150 is applied. -/
opaque rawFlog2 : Nat → Nat → Nat
/-- The result bits of fsin before the bound of R150 is applied. -/
opaque rawFsin : Nat → Nat → Nat
/-- The result bits of fcos before the bound of R150 is applied. -/
opaque rawFcos : Nat → Nat → Nat
/-- The result bits of ftanh before the bound of R150 is applied. -/
opaque rawFtanh : Nat → Nat → Nat

/-- What the part reads from a field of a queue descriptor that only the part writes, after software has written it (R89), for
the number of the read and the field's offset. -/
opaque queueField : Nat → Nat → Nat

end Sys2Proof.Config
end

