-- ==== Sys2Proof/Machine/Table.lean ====
section
/-! DEFINITION. Finite tables: lists of key and value in one canonical form, keys strictly rising. Memory is a table of
bytes (Host.Cell) whose unlisted addresses read 0. -/

namespace Sys2Proof.Machine

/-- A sparse table: key and value pairs, keys strictly rising. -/
abbrev Table (α : Type) := List (Nat × α)

/-- The value at a key, if one is listed. -/
def Table.find {α : Type} : Table α → Nat → Option α
  | [], _ => none
  | (k', v) :: r, k => if k' = k then some v else Table.find r k

/-- The value at a key, or a default. -/
def Table.get {α : Type} (t : Table α) (k : Nat) (d : α) : α := (t.find k).getD d

/-- The table without a key. -/
def Table.erase {α : Type} (t : Table α) (k : Nat) : Table α := t.filter fun p => decide (p.1 ≠ k)

/-- A pair put before the first larger key. -/
def Table.insert {α : Type} : Table α → Nat → α → Table α
  | [], k, v => [(k, v)]
  | (k', v') :: r, k, v => if k < k' then (k, v) :: (k', v') :: r else (k', v') :: Table.insert r k v

/-- The table with the value at a key replaced. -/
def Table.put {α : Type} (t : Table α) (k : Nat) (v : α) : Table α := (t.erase k).insert k v

/-- The table with the value at a listed key changed. -/
def Table.modify {α : Type} (t : Table α) (k : Nat) (f : α → α) : Table α :=
  match t.find k with
  | some v => t.put k (f v)
  | none => t

/-- The values in key order. -/
def Table.vals {α : Type} (t : Table α) : List α := t.map (·.2)

/-- Keys strictly rising: the canonical form. -/
def Table.sorted {α : Type} : Table α → Bool
  | [] => true
  | [_] => true
  | a :: b :: r => decide (a.1 < b.1) && Table.sorted (b :: r)

/-! ## Memory -/

/-- Bytes by address, in canonical form: addresses strictly rising and no byte 0, which is what an unlisted address reads
as (log entry 2). -/
abbrev Memory := List Host.Cell

/-- What an unlisted address reads as. DESIGN CHOICE (log entry 2): the spec gives no contents for memory that nothing has
written. -/
def Memory.blank : Byte := 0

/-- The byte at an address. -/
def Memory.byte (m : Memory) (a : Nat) : Byte := Table.get (α := Byte) m a Memory.blank

/-- The memory with one byte written. Writing the blank value removes the entry. -/
def Memory.setByte (m : Memory) (a : Nat) (b : Byte) : Memory :=
  if b = Memory.blank then Table.erase (α := Byte) m a else Table.put (α := Byte) m a b

/-- n bytes from an address up. -/
def Memory.bytes (m : Memory) (a : Nat) : Nat → List Byte
  | 0 => []
  | n + 1 => m.byte a :: Memory.bytes m (a + 1) n

/-- The memory with a list of bytes written from an address up. -/
def Memory.setBytes (m : Memory) (a : Nat) : List Byte → Memory
  | [] => m
  | b :: r => Memory.setBytes (m.setByte a b) (a + 1) r

/-- The memory with n bytes from an address up written as 0. -/
def Memory.zero (m : Memory) (a n : Nat) : Memory := m.filter fun c => decide (c.1 < a ∨ a + n ≤ c.1)

/-- The canonical form: addresses strictly rising and no blank byte listed. -/
def Memory.wf (m : Memory) : Bool := Table.sorted (α := Byte) m && m.all fun c => decide (c.2 ≠ Memory.blank)

/-- A little-endian number from bytes (R3). -/
def leNat : List Byte → Nat
  | [] => 0
  | b :: r => b.toNat + 256 * leNat r

/-- The n little-endian bytes of a number (R3). -/
def leBytes : Nat → Nat → List Byte
  | 0, _ => []
  | n + 1, v => BitVec.ofNat 8 v :: leBytes n (v / 256)

/-- A little-endian number read from memory. -/
def Memory.nat (m : Memory) (a n : Nat) : Nat := leNat (m.bytes a n)

/-- A little-endian number written to memory. -/
def Memory.setNat (m : Memory) (a n v : Nat) : Memory := m.setBytes a (leBytes n v)

end Sys2Proof.Machine
end

