-- ==== Sys2Proof/Machine/State.lean ====
section
/-! DEFINITION. The state of the GZ-880: all that the spec gives the part, as plain data, and the state after reset.
INVENTORY.md, under State, names the rule of each field. -/

namespace Sys2Proof.Machine

/-! ## Named states -/

/-- Team states (R113). -/
inductive TState where
  | free | ready | waiting | sleeping | parked | stopped | exiting
  deriving DecidableEq, Repr

/-- Context states (R62). -/
inductive CState where
  | saved | ready | staged | active | saving | failed
  deriving DecidableEq, Repr

/-- Kernel states (R99). -/
inductive KState where
  | read | admitted | running | draining | killed | retired
  deriving DecidableEq, Repr

/-- Queue states (R94). -/
inductive QState where
  | disabled | idle | running | waiting | faulted | suspended
  deriving DecidableEq, Repr

/-- Slot states (R163). -/
inductive SState where
  | free | claimed | filling | full | busy | draining
  deriving DecidableEq, Repr

/-- GZL port states (R316). -/
inductive PState where
  | down | training | active | degraded | fenced
  deriving DecidableEq, Repr

/-- What a WAITING or PARKED team waits for: which layout its wait record has (R114). -/
inductive WKind where
  | none
  /-- bar.wait (R221). -/
  | bar
  /-- hbar (R224). -/
  | hbar
  /-- waitaddr (R214). -/
  | addr
  /-- rng.await (R234). -/
  | ring
  /-- seqwait (R234). -/
  | seq
  /-- A page fault that the host serves (R249). -/
  | host
  /-- A request that a peer has refused: the host serves it as a page fault (R249, R319). -/
  | peer
  /-- pg.inv (R254). -/
  | pgInv
  /-- A cymbal (R267). -/
  | cymbal
  /-- A stitch edit (R282), or an sx.unpin that waits for one (R281). -/
  | edit
  /-- sx.next (R287). -/
  | next
  /-- PARKED by the cooperative deadline (R116). -/
  | deadline
  /-- PARKED by a system call (R303). -/
  | call
  /-- A record that ctx.save wrote: that of the instruction at the resume point (R222). -/
  | saved
  deriving DecidableEq, Repr

/-! ## Teams -/

/-- A frame to deliver (R298). -/
structure Frame where
  /-- The resume point that %epc takes: clause header address and index (R294). -/
  h : W64
  i : Nat
  inst : W64
  hdr : W64
  cause : W64
  addr : W64
  mask : Mask
  deriving DecidableEq, Repr

/-- The FP report of a clause: its earliest trapping instruction (R28). -/
structure FpReport where
  word : W64
  i : Nat
  lane : Nat
  cause : W64
  deriving DecidableEq, Repr

/-- An uncorrectable error met by a load's data, not yet raised (R206). -/
structure Poison where
  /-- The codes of the registers that were not written. -/
  regs : List Nat
  word : W64
  hdr : W64
  addr : W64
  deriving DecidableEq, Repr

/-- A volume descriptor as it was read, with the bound of the partition's HBM segment (R258). -/
structure VDesc where
  va : Nat
  pa : Nat
  root : W64
  bg : Nat
  /-- Element size in bytes. -/
  e : Nat
  fmt : Nat
  bounds : List Nat
  pool : Nat
  bound : Nat
  part : Nat
  deriving DecidableEq, Repr

/-- A leaf on which vol.fmt has set BUSY: its tile, its place and the leaf without BUSY (R266). -/
structure FmtItem where
  tile : Nat
  pa : Nat
  leaf : W64
  deriving DecidableEq, Repr

/-- A vol.fmt between its cymbal and its end (R266, R272). -/
structure FmtWork where
  desc : VDesc
  fmt : Nat
  items : List FmtItem
  dst : Opd
  /-- Each lane with the tile that it names, none outside the volume. -/
  lanes : List (Nat × Option Nat)
  deriving DecidableEq, Repr

/-- What a WAITING instruction still has to do when its wait ends (R254, R267). -/
structure Work where
  /-- Blocks and frames to push: the segment offset of the pool descriptor, and the block. -/
  pushes : List (Nat × Nat)
  /-- Page-pool frames among them, which lower USED (R254). -/
  frames : Nat
  /-- The physical address of the version field to raise (R267). -/
  version : Option Nat
  /-- The fault that is delivered when the wait ends (R268). -/
  fault : Option Frame
  /-- The tiles that a vol.fmt converts when the wait ends. -/
  fmt : Option FmtWork
  deriving DecidableEq, Repr

/-- A stitch edit between its issue and its publication (R282, R284). Addresses are virtual. -/
structure Edit where
  header : Nat
  /-- The popped version block, 0 for a new version without references. -/
  block : Nat
  /-- References of the new version: piece record and start. -/
  refs : List (Nat × Nat)
  total : Nat
  result : W64
  dst : Opd
  /-- 0 no append, 1 INPLACE, 2 COPY, 3 NEW. -/
  path : Nat
  /-- The old tail piece and the popped piece record. -/
  tail : Nat
  piece : Nat
  /-- Elements appended, and elements of the tail in the old version. -/
  count : Nat
  tailLen : Nat
  /-- The physical address of each page that the edit has translated, by page number (R348). -/
  pages : Table Nat
  deriving DecidableEq, Repr

/-- What the yields and sleeps of a clause ask for at its end (R120). -/
structure Ask where
  h : W64
  handler : Bool
  yield : Bool
  /-- Ticks to sleep, or 0. -/
  sleep : Nat
  deriving DecidableEq, Repr

/-- What a digest-mode team folds in next (R329). -/
inductive DigestItem where
  /-- The bytes that a lane has written. -/
  | data (va : Nat) (bs : List Byte)
  /-- A compare-and-swap at a peer, by the number of its request: it wrote if the answer says so (R211, R319). -/
  | ask (req : Nat)
  /-- A digest point (R34, R327). -/
  | point
  deriving DecidableEq, Repr

/-- A team slot: the control record of R114, the registers of R39, the frame of R295, and what the pipe knows of the
team's clause and operations in flight. -/
structure Team where
  oid : Nat
  kernel : Nat
  gang : Nat
  state : TState
  width : Nat
  stage : Nat
  passOver : Nat
  yielded : Bool
  tix : Nat
  handler : Bool
  digestMode : Bool
  policy : Nat
  gidx : Nat
  age : Nat
  wake : Nat
  digest : W64
  /-- What waits to be folded in behind a compare-and-swap that a peer has not answered, in commit order (R329). -/
  digestQ : List DigestItem
  /-- Pending trap causes: the held causes of R347. -/
  pending : W64
  sfwords : BitVec 32
  sffirst : BitVec 16
  sfcount : Nat
  /-- The 32-byte wait record. -/
  wait : BitVec 256
  waitKind : WKind
  /-- Byte 232: HELD and the snare (R307). -/
  held : Bool
  heldSnare : Nat
  heldWord : W64
  heldAddr : W64
  /-- E (R109). -/
  e : Mask
  /-- The resume point (H, i) (R294). -/
  h : W64
  i : Nat
  fmode : W64
  /-- v registers, 1,024 lanes of 32 bits each; an unlisted register reads 0 (R103). -/
  v : Table (BitVec 32768)
  s : Table W64
  p : Table Mask
  /-- The fetched clause, header first; empty when none is fetched (R32). -/
  clause : List W64
  /-- A trapped team that has latched its frame and does not hold its pipe's handler store yet (R297). -/
  entering : Bool
  epc : W64
  einst : W64
  ehdr : W64
  ecause : W64
  eaddr : W64
  emask : Mask
  eexec : Mask
  epend : W64
  /-- Latched for the first cause held in handler mode (R299). -/
  lInst : W64
  lHdr : W64
  lAddr : W64
  lMask : Mask
  /-- Exceptions of the clause so far, NV at bit 0 to NX at bit 4 (R28). -/
  fpFlags : BitVec 5
  fpReport : Option FpReport
  /-- The clause whose later words set flags only, after a precise fault that followed its FP report (R28). -/
  fpQuiet : Option W64
  /-- What yield and sleep ask for at the end of their clause: at most one clause in handler mode and one outside it (R120). -/
  asks : List Ask
  /-- The header and core cycle of a completed clause whose CCT count runs (R82). -/
  cct : Option (W64 × Nat)
  /-- Outstanding matrix operations (R176). -/
  mxOut : Nat
  /-- Stores of the team's instructions that no home slice has accepted, by their number (R204). -/
  storesOut : List Nat
  /-- Errors of loads' data, oldest first, that no reader and no clause boundary has raised (R206). -/
  poison : List Poison
  /-- The word at the resume point has stalled and has not issued since (R110, R325). -/
  stalled : Bool
  /-- The team has left handler mode, or has come back with its bank or with ctx.load, and has not issued since: what it holds is
  delivered at its resume point (R63, R347). -/
  atResume : Bool
  /-- The resume point of the latched frame lies past the word that raised it: USER, FP and held frames (R305). -/
  epast : Bool
  /-- An indirect transfer has left the region of its clause, so that H, joined to the clause's [79:64], is no valid header
  address (R118, R294). -/
  farH : Bool
  /-- The lanes on which a resumed vol or sx instruction acts (R268, R305). -/
  resumeLanes : Option Mask
  /-- The resume point of the latched frame, packed as %epc. -/
  fpoint : W64
  /-- The lanes on which the vol or sx instruction there acts when it issues again after a failure that followed the lanes that
  performed (R268, R305). -/
  frameLanes : Option Mask
  /-- The snare that the next issue passes (R307). -/
  passSnare : Option Nat
  /-- The wait of the instruction at the resume point of the latched frame: the resume point, the kind and the record. The
  instruction goes on with it when the team comes back there (R221, R222). -/
  heldWait : Option (W64 × Nat × WKind × BitVec 256)
  /-- A BUSY or parked leaf that the team's access waits on: its address and the value seen (R241, R246). -/
  busyLeaf : Option (Nat × W64)
  /-- The list whose EDIT the team holds while step 1 of its edit waits for a page (R282). -/
  holdsEdit : Option Nat
  work : Option Work
  edit : Option Edit
  /-- The word, header and mask of the access that waits for the host (R249, R298). -/
  hostWord : W64
  hostHdr : W64
  hostMask : Mask
  /-- The virtual address of the host-ring entry of a system call, 0 while the ring is full (R303). -/
  callEntry : Nat
  deriving DecidableEq, Repr

/-- A lane's access of a load in flight. -/
structure LaneLoad where
  lane : Nat
  va : Nat
  pa : Nat
  /-- The bytes, once the access is bound. -/
  data : Option (List Byte)
  /-- The access met an uncorrectable error (R206). -/
  bad : Bool
  deriving DecidableEq, Repr

/-- A load whose data has not returned: ld, ldu, ldsp, returning atomics, vol and sx loads (R203, R204). -/
structure Load where
  team : Nat
  word : W64
  hdr : W64
  /-- The destination operand; none discards. -/
  dst : Opd
  size : Nat
  lanes : List LaneLoad
  /-- 0 normal, 1 no-allocate, 2 bypass. -/
  hint : Nat
  /-- RRV signature of the filling instruction (R80). -/
  sig : Nat
  deriving DecidableEq, Repr

/-- What one store instruction writes to one 128-byte line: one request (R205). -/
structure LineWrite where
  /-- VA[79:7] and PA[51:7]. -/
  vline : Nat
  pline : Nat
  mask : BitVec 128
  data : BitVec 1024
  deriving DecidableEq, Repr

/-- A store sent to its home slice and not accepted yet (R184, R204). -/
structure Post where
  team : Nat
  /-- The number that storesOut holds. -/
  num : Nat
  /-- Accepting it allocates an L2 line: no-allocate does, bypass does not (R184). -/
  alloc : Bool
  write : LineWrite
  deriving DecidableEq, Repr

/-! ## Caches -/

/-- An L1 line (R179, R80). -/
structure Line where
  /-- VA[79:7] and PA[51:7]. -/
  vline : Nat
  pline : Nat
  oid : Nat
  rrv : Nat
  sig : Nat
  reused : Bool
  dirty : BitVec 128
  /-- The core cycle at which the line first became dirty (R182). -/
  since : Nat
  /-- The write-back of R182's timeout has been sent and its home slice has not accepted it. -/
  leaving : Bool
  /-- The team that dirtied it. -/
  writer : Nat
  data : BitVec 1024
  deriving DecidableEq, Repr

/-- A fill in flight: a demand miss or a prefetch (R79, R205, R332). -/
structure Fill where
  core : Nat
  oid : Nat
  vline : Nat
  pline : Nat
  sig : Nat
  demand : Bool
  /-- A pfh with hint 1 fills only the L2 (R215). -/
  l2Only : Bool
  /-- An acquire discards the fill on arrival (R183). -/
  discard : Bool
  /-- Stores that joined, in order: store number, team, what they write (R332). -/
  stores : List (Nat × Nat × LineWrite)
  deriving DecidableEq, Repr

/-- A TLB entry (R244): page number, size, the leaf's frame, tier and permissions, the cached D. -/
structure TlbEntry where
  oid : Nat
  large : Bool
  vpn : Nat
  leafPa : Nat
  leaf : W64
  way : Nat
  deriving DecidableEq, Repr

/-- A CLB entry (R263). -/
structure ClbEntry where
  oid : Nat
  handle : Nat
  tile : Nat
  entry : W64
  level : Nat
  /-- The entry's physical address. -/
  pa : Nat
  set : Nat
  way : Nat
  deriving DecidableEq, Repr

/-! ## Cores and clusters -/

/-- A history bank in the layout of its image (R73 to R75). -/
structure Hist where
  freeze : BitVec 4
  status : BitVec 8
  spt : BitVec 6144
  rst : BitVec 3072
  cct : BitVec 2048
  tst : BitVec 3072
  deriving DecidableEq, Repr

/-- A control bank (R62 to R66). -/
structure Bank where
  owner : Option Nat
  hist : Hist
  /-- Staging loads are running (R69). -/
  staging : Bool
  /-- The bank's outgoing image is being spilled (R66). -/
  spilling : Bool
  /-- The staging loaded the register half from the save area (R69). -/
  loadedHalf : Bool
  /-- The chain swap that follows the staging (R69). -/
  chain : Bool
  deriving DecidableEq, Repr

/-- A swap in progress on a core (R63). -/
structure Swap where
  start : Nat
  /-- Cycle 0 has come. -/
  begun : Bool
  /-- The incoming bank's context, or none. -/
  incoming : Option Nat
  deriving DecidableEq, Repr

/-- A slot: a claimed group of units (R163 to R165). -/
structure Slot where
  kind : Nat
  state : SState
  oid : Nat
  kernel : Nat
  /-- Pending readers and writers that keep the slot BUSY or DRAINING. -/
  users : Nat
  /-- Committed mma that name it as accumulator and have not completed. -/
  writers : Nat
  /-- Committed slot.store that have not completed. -/
  stores : Nat
  deriving DecidableEq, Repr

/-- A slot.load, slot.zero or slot.store in flight (R169). -/
structure SlotOp where
  unit : Nat
  kind : Nat
  /-- 0 load, 1 zero, 2 store. -/
  op : Nat
  team : Nat
  word : W64
  va : W64
  stride : W64
  /-- The physical address of each page of the transfer, as it was translated before the commit. -/
  pages : Table Nat
  ty : ETy
  sat : Bool
  /-- The barrier object's offset. -/
  bar : Option Nat
  gang : Nat
  core : Nat
  deriving DecidableEq, Repr

/-- An entry of the matrix queue (R174). The scales are the snapshot taken at issue. -/
structure MmaEntry where
  team : Nat
  gang : Nat
  word : W64
  acc : Nat
  ua : Nat
  ub : Nat
  fb : List Byte
  zero : Bool
  noFuse : Bool
  bar : Option Nat
  scaleA : List Byte
  scaleB : List Byte
  superA : List Byte
  superB : List Byte
  /-- The 8-cycle window in which it entered (R175). -/
  window : Nat
  deriving DecidableEq, Repr

/-- A logical core (R9, R62, R63, R79, R160, R174, R307, R325). -/
structure Core where
  active : Nat
  bank0 : Bank
  bank1 : Bank
  swap : Option Swap
  l1 : Table Line
  /-- Operand memory, 2 MiB. -/
  opmem : Memory
  /-- Slots by physical first unit. -/
  slots : Table Slot
  mq : List MmaEntry
  /-- The entries of the pass that the array executes. -/
  pass : List MmaEntry
  deadline : Option Nat
  slicePart : Option Nat
  /-- Nothing was staged for the partition whose turn it is: the core stays idle for that turn (R310). -/
  idleTurn : Bool
  counters : List Nat
  lastSweep : List Nat
  /-- The next sweep is SWEEP_ABS (R326). -/
  absNext : Bool
  /-- %snpc, %snda, %snctl and %snhit by register number; unlisted reads 0. -/
  snares : Table W64
  /-- The team that %snhit reports, whichever bank is active (R307). -/
  hitKey : Option Nat
  /-- The team slot that holds each pipe (R110). -/
  pipes : Table Nat
  /-- The team slot that holds each handler store, by 8·bank + pipe (R297). -/
  store : Table Nat
  kv : Table (BitVec 32768)
  ks : Table W64
  /-- The age of the next placement (R114). -/
  nextAge : Nat
  /-- The context that the distributor has swapped out of this core and will swap back in (R106). -/
  ousted : List Nat
  deriving DecidableEq, Repr

/-- A cluster barrier (R223). -/
structure HBar where
  oid : Nat
  kernel : Nat
  gidx : Nat
  count : Nat
  pending : Nat
  phase : Bool
  ovf : Bool
  deriving DecidableEq, Repr

/-- A cluster (R10, R102, R223, R244, R249, R263). -/
structure Cluster where
  fused : Bool
  tlb : List TlbEntry
  tlbFill : Table Nat
  clb : List ClbEntry
  clbFill : Table Nat
  /-- Held barriers by number; an unlisted one is free. -/
  hbars : Table HBar
  /-- Reported (OID, page, access bits) under the current FB_GEN (R249). -/
  filter : List (Nat × Nat × Nat)
  deriving DecidableEq, Repr

/-! ## Contexts, queues, kernels, gangs -/

/-- A launch packet (R97). -/
structure Packet where
  conc : Bool
  digest : Bool
  fuse : Bool
  polTeam : Nat
  polGang : Nat
  polKernel : Nat
  teams : Nat
  width : Nat
  vregs : Nat
  entry : W64
  nx : Nat
  ny : Nat
  nz : Nat
  scratch : Nat
  sregs : Nat
  stages : Nat
  stageMap : Nat
  fmode : Nat
  args : W64
  digestRec : Nat
  depSeq : Nat
  depQueue : Nat
  regions : List (Nat × Nat × Nat)
  deriving DecidableEq, Repr

/-- A kernel (R99). -/
structure Kernel where
  oid : Nat
  queue : Nat
  seq : Nat
  state : KState
  pkt : Packet
  hentry : W64
  parent : Option Nat
  nextGang : Nat
  lastCluster : Option Nat
  /-- XOR of the rotated team digests so far (R107). -/
  digest : W64
  /-- The serialised run of R107 is under way. -/
  serial : Bool
  /-- Posting order (R93). -/
  order : Nat
  /-- The address of the packet. -/
  addr : Nat
  /-- The fault code that the packet's own fields give, or 0 (R95, R97). -/
  bad : Nat
  deriving DecidableEq, Repr

/-- A gang: its teams and its scratchpad allocations (R101, R178). -/
structure Gang where
  kernel : Nat
  g : Nat
  oid : Nat
  cluster : Nat
  size : Nat
  /-- The keys of its teams, in team order. -/
  teams : List Nat
  /-- The index of each team that has ended (R117, R223). -/
  gone : List Nat
  /-- Containment has ended the gang: its teams in the save area end when they come back (R305). -/
  killed : Bool
  /-- Scratchpad bytes: core · 2^20 + offset. -/
  mem : Memory
  deriving DecidableEq, Repr

/-- What a REPLICA card sent: when, the digest, whether it is the serialised run's, and whether its port has left ACTIVE or DEGRADED
since, with no answer yet (R322, R331). -/
structure Sent where
  tick : Nat
  own : Nat
  serial : Bool
  left : Bool
  deriving DecidableEq, Repr

/-- A job or launch of the task-scheduler window (R98). -/
structure Entry where
  queue : Nat
  seq : Nat
  /-- The address of the command's first entry. -/
  addr : Nat
  /-- The kernel, for a launch. -/
  kernel : Option Nat
  card : List Byte
  regions : List (Nat × Nat × Nat)
  /-- Posting order (R93). -/
  order : Nat
  started : Bool
  done : Bool
  /-- Bytes, positions or acked bytes done (R238). -/
  progress : Nat
  /-- A REPLICA card's flit that has been sent (R322). -/
  sentAt : Option Sent
  deriving DecidableEq, Repr

/-- A queue of a context (R89, R94). -/
structure Queue where
  /-- The descriptor's virtual and physical address. -/
  desc : Nat
  descPa : Nat
  prio : Nat
  state : QState
  fault : Nat
  faultEntry : Nat
  tail : Nat
  readPos : Nat
  readCount : Nat
  completion : Nat
  /-- The quota counts it (R308). -/
  enabled : Bool
  /-- Tail values stored and not observed yet, with the kernel that stored each (R97) and its number in the order of acceptance at the
  home slices (R93). -/
  pubs : List (Nat × Option Nat × Nat)
  /-- Those that the part has observed (R91). -/
  seen : List (Nat × Option Nat × Nat)
  /-- Sequence numbers of completed commands that the completion word does not cover yet, and of those read. -/
  ended : List Nat
  issued : List Nat
  /-- The WAIT commands read whose dependences are unmet: sequence number and dependences (R92, R96). -/
  waits : List (Nat × List (Nat × Nat))
  /-- The code of a fault that the descriptor itself has, or 0 (R95). -/
  descBad : Nat
  /-- PUT_ADD cards that a fault stopped: sequence number, card and bytes acked, from which such a card goes on, so that no element is
  added twice (R321). -/
  added : List (Nat × List Byte × Nat)
  /-- Fields of the descriptor that the part has still to write, oldest first: offset, size and value. A leaf on the way was BUSY or
  parked (R89, R241, R246). -/
  owed : List (Nat × Nat × Nat)
  deriving DecidableEq, Repr

/-- A live or saved context (R58 to R62). -/
structure Ctx where
  partition : Nat
  preempt : Bool
  sched : Bool
  policy : Nat
  state : CState
  roots : List W64
  queueList : Nat
  hostRing : Nat
  saveArea : Nat
  saveSeq : Nat
  queues : Table Queue
  /-- The task-scheduler window in posting order, at most 256. -/
  window : List Entry
  /-- Register halves held: 2·core + half (R64). -/
  halves : List Nat
  /-- The queue list is still to be read: a leaf was BUSY or a page-in under way (R88, R241). -/
  listDue : Bool
  /-- The state word in the save area is still to be written: a leaf on the way was BUSY or parked (R62, R246). -/
  wordDue : Bool
  /-- LCLK when the context's engines stopped for its save (R321). -/
  stopClock : Nat
  /-- A FAILED context's release waits for its work in flight (R68). -/
  releasing : Bool
  deriving DecidableEq, Repr

/-! ## Engines -/

/-- A release access to a watched scratchpad offset that the engine has not looked at (R226). -/
structure Notice where
  core : Nat
  gang : Nat
  off : Nat
  team : Nat
  /-- The notify count that the release published (R226). -/
  count : Nat
  deriving DecidableEq, Repr

/-- What the engine knows of a copy ring: the index of the next entry to read (R226). -/
structure Ring where
  core : Nat
  gang : Nat
  off : Nat
  next : Nat
  /-- A fault or a bad entry has stopped it until the next publication (R229). -/
  stopped : Bool
  deriving DecidableEq, Repr

/-- A copy-ring entry that the engine has read (R227, R228). -/
structure RingEntry where
  core : Nat
  gang : Nat
  ring : Nat
  index : Nat
  /-- The key and the team index of its publisher (R229). -/
  team : Nat
  tix : Nat
  raw : List Byte
  started : Bool
  done : Bool
  /-- The fill-ring slot index taken at the start (R230). -/
  slot : Option Nat
  deriving DecidableEq, Repr

/-- A halo copy (R235). -/
structure Halo where
  team : Nat
  gang : Nat
  core : Nat
  srcCore : Nat
  bar : Nat
  /-- The phase of its arrival has completed. -/
  go : Bool
  rows : Nat
  rowBytes : Nat
  stride : Nat
  src : Nat
  dst : Nat
  obj : Option Nat
  deriving DecidableEq, Repr

/-- A page-in to run (R246). -/
structure PageIn where
  cluster : Nat
  oid : Nat
  leafPa : Nat
  leaf : W64
  va : Nat
  acc : Nat
  /-- The team whose access started it, or none for an engine. -/
  team : Option Nat
  /-- The lanes of that access on the page. -/
  mask : Mask
  /-- The engine's code, when no team started it (R98, R248). -/
  code : Nat
  deriving DecidableEq, Repr

/-- A page-in that an engine started and that failed, until the engine meets it (R246). -/
structure PageFail where
  leafPa : Nat
  oid : Nat
  cluster : Nat
  code : Nat
  reason : Nat
  deriving DecidableEq, Repr

/-- A stitch page-in of the cluster's FIFO (R288). -/
structure SxPage where
  cluster : Nat
  oid : Nat
  team : Nat
  gang : Nat
  core : Nat
  cursor : Nat
  /-- The piece index, the piece record's address, and the bytes of its range. -/
  piece : Nat
  prec : Nat
  base : Nat
  len : Nat
  deriving DecidableEq, Repr

/-- A dead piece to process (R283, R336). -/
structure Death where
  cluster : Nat
  oid : Nat
  prec : Nat
  pool : Nat
  esize : Nat
  deriving DecidableEq, Repr

/-- A TST pre-walk (R84). -/
structure PreWalk where
  cluster : Nat
  oid : Nat
  handle : Nat
  tile : Nat
  deriving DecidableEq, Repr

/-- A request to a peer (R319, R320). -/
structure PeerReq where
  port : Nat
  /-- 0 read, 1 write, 2 atomic. -/
  kind : Nat
  pa : Nat
  data : List Byte
  /-- The virtual address of a team's access, and the context. -/
  va : Nat
  oid : Nat
  /-- The word and the header of that access (R298). -/
  word : W64
  hdr : W64
  /-- The scope of an access with acquire: the acquire follows the access (R183, R186). -/
  acq : Option Nat
  /-- The load and lane that wait for the data, or the store number. -/
  load : Option (Nat × Nat)
  team : Option Nat
  num : Nat
  /-- The collective card: OID, queue and sequence number (R321). -/
  job : Option (Nat × Nat × Nat)
  /-- Later accesses of the team wait for it: an access with acquire, or an ar store (R186, R203). -/
  hold : Bool
  /-- The request has been sent. -/
  sent : Bool
  /-- The peer has refused it, and the host has been told (R247, R249, R319). -/
  refused : Bool
  deriving DecidableEq, Repr

/-! ## Partitions, ports, device -/

/-- A partition's registers (R308, R250, R319). -/
structure Part where
  cores : W64
  hbmCh : W64
  queues : W64
  qused : Nat
  slice : W64
  bootRec : W64
  bootVa : W64
  bootGo : Bool
  bootStatus : Nat
  /-- The context that BOOT stages and swaps in (R313). -/
  bootOid : Option Nat
  err : Bool
  segHbmBase : W64
  segHbmBound : W64
  segLpBase : W64
  segLpBound : W64
  segCxBase : W64
  segCxBound : W64
  poolHbm : W64
  poolLp : W64
  quota : W64
  used : Nat
  fbBase : W64
  fbSize : W64
  fbHead : Nat
  fbTail : W64
  fbGen : Nat
  fbOver : Bool
  invVa : W64
  invVah : W64
  invCtl : W64
  /-- PWIN_BASE_k at 2k and PWIN_BOUND_k at 2k + 1. -/
  pwin : Table W64
  deriving DecidableEq, Repr

/-- A GZL port (R315 to R317). -/
structure Port where
  enable : Bool
  fence : Bool
  state : PState
  lanes : Nat
  replays : Nat
  inBase : W64
  inBound : W64
  seq : Nat
  /-- The replay buffer: the flits sent whose buffer the peer has not freed, oldest first. -/
  replay : List (List Byte)
  /-- The sequence of the flit replayed last, and how often in a row. -/
  replayed : Option Nat
  consecutive : Nat
  /-- The sequence that the next flit to deliver carries; none until a first flit has come after training. -/
  expect : Option Nat
  /-- Good flits that came before one that failed its check. -/
  early : List (List Byte)
  /-- Receive buffers freed since the last flit was sent. -/
  freed : Nat
  trainStart : Nat
  /-- Replica flits received: step, digest, stamp, and the tick of arrival. -/
  replicas : List (Nat × Nat × Nat × Nat)
  deriving DecidableEq, Repr

/-- The physical function's registers (R311, R324). -/
structure Dev where
  featLo : W64
  featHi : W64
  go : Bool
  ready : Bool
  run : Bool
  negFail : Bool
  t2Base : W64
  lclk : Nat
  carCtl : W64
  carBase : W64
  carSize : W64
  carHead : Nat
  carTail : W64
  carOver : Bool
  gongTick : Nat
  /-- A gong has been fired and its records are not written. -/
  gongFired : Bool
  /-- The tick on which it latches the snapshot registers (R328). -/
  gongAt : Nat
  /-- The snapshot registers: each core's counters, the lines in flight of each cluster's copy engine, PORT_STAT of each port (R328). -/
  snapCounters : Table (List Nat)
  snapLines : Table Nat
  snapPorts : Table Nat
  /-- The tick of the last sweep (R325). -/
  sweptAt : Option Nat
  deriving DecidableEq, Repr

/-! ## The whole part -/

/-- The core and pipe at which a step without arguments of its own acts. -/
structure Sel where
  core : Nat
  pipe : Nat
  deriving DecidableEq, Repr

/-- Which agent moves next: the model's schedule (log entry 1). -/
inductive Turn where
  /-- A pipe issues its next word, or arbitrates or fetches when it has none. -/
  | issue (core pipe : Nat)
  /-- A step without a word. -/
  | event (core pipe : Nat) (i : Instr)
  /-- Time passes. -/
  | advance (ticks cycles : Nat)
  /-- An uncorrectable error strikes a 32-byte granule of physical memory (R256, log entry 11). -/
  | strike (granule : Nat)
  deriving DecidableEq, Repr

/-- The state of the part. -/
structure State where
  tick : Nat
  cycle : Nat
  /-- What has acted on the current core-clock edge: under core + 1 the place of the core's last turn in the order of R72, from 1;
  under 0 a 1 once something that no pipe issued has acted (R72, R216). -/
  edge : Table Nat
  mhz : Nat
  stopped : Bool
  mem : Memory
  hostMem : Memory
  /-- 32-byte granules that hold an uncorrectable error (R256). -/
  bad : List Nat
  /-- Fuse remap: for each cluster its physical cores, by logical index 0 to 3 (R8). -/
  fuse : Table (List Nat)
  /-- L2 tags: per slice and set, the lines by way; and the per-set fill counters (R11). -/
  l2 : Table (Table Nat)
  l2Fill : Table Nat
  dev : Dev
  parts : Table Part
  ports : Table Port
  ctxs : Table Ctx
  kernels : Table Kernel
  gangs : Table Gang
  clusters : Table Cluster
  cores : Table Core
  /-- Team slots by 128·core + 64·bank + slot; an unlisted one is FREE. -/
  teams : Table Team
  loads : Table Load
  posts : Table Post
  fills : Table Fill
  slotOps : Table SlotOp
  notices : Table Notice
  rings : List Ring
  entries : Table RingEntry
  halos : Table Halo
  pageIns : Table PageIn
  /-- Failed page-ins that an engine started (R246). -/
  pageFails : List PageFail
  sxPages : List SxPage
  deaths : List Death
  walks : Table PreWalk
  peers : Table PeerReq
  turns : List Turn
  sel : Sel
  /-- The next number for an operation in flight, a kernel, a gang or a store. -/
  nextId : Nat
  /-- Flits sent, by port, oldest first (R315). -/
  outbox : List (Nat × List Byte)
  /-- MSI-X messages sent: function and vector (R314). -/
  msix : List (Nat × Nat)
  deriving DecidableEq, Repr

/-- Why a step stops. -/
inductive Fault where
  /-- A host access outside the HDM decoders (R314): no such address exists. Raised by hostCxlMemAccess only. Safe. -/
  | noHostDecoder
  deriving DecidableEq, Repr

/-- Why an instruction has no meaning. -/
inductive Refusal where
  /-- An instruction that the model does not give a meaning, by its mnemonic: raised by its arm in Dispatch.lean. Safe. -/
  | notModelled (mnemonic : String)
  deriving DecidableEq, Repr

/-! ## Reset -/

/-- A cleared history bank (R76). -/
def Hist.clear : Hist := { freeze := 0, status := 0, spt := 0, rst := 0, cct := 0, tst := 0 }

/-- A control bank without an owner. -/
def Bank.empty : Bank :=
  { owner := none, hist := Hist.clear, staging := false, spilling := false, loadedHalf := false, chain := false }

/-- A core after reset. -/
def Core.reset : Core :=
  { active := 0, bank0 := Bank.empty, bank1 := Bank.empty, swap := none, l1 := [], opmem := [], slots := [], mq := [],
    pass := [], deadline := none, slicePart := none, idleTurn := false, counters := List.replicate 8 0, lastSweep := List.replicate 8 0,
    absNext := true, snares := [], hitKey := none, pipes := [], store := [], kv := [], ks := [], nextAge := 0, ousted := [] }

/-- A cluster after reset. -/
def Cluster.reset : Cluster :=
  { fused := false, tlb := [], tlbFill := [], clb := [], clbFill := [], hbars := [], filter := [] }

/-- A partition's registers after reset (R308, R250). -/
def Part.reset (p : Nat) : Part :=
  { cores := if p = 0 then BitVec.allOnes 64 else 0, hbmCh := 64, queues := if p = 0 then 4096 else 0, qused := 0,
    slice := 0, bootRec := 0, bootVa := 0, bootGo := false, bootStatus := 0, bootOid := none, err := false,
    segHbmBase := 0, segHbmBound := 0, segLpBase := 0, segLpBound := 0, segCxBase := 0, segCxBound := 0,
    poolHbm := 0, poolLp := 0, quota := 0, used := 0, fbBase := 0, fbSize := 0, fbHead := 0, fbTail := 0, fbGen := 0,
    fbOver := false, invVa := 0, invVah := 0, invCtl := 0, pwin := [] }

/-- A port after reset (R316, R317). -/
def Port.reset : Port :=
  { enable := false, fence := false, state := .down, lanes := 0, replays := 0, inBase := 0, inBound := 0, seq := 0,
    replay := [], replayed := none, consecutive := 0, expect := none, early := [], freed := 0, trainStart := 0, replicas := [] }

/-- The physical function's registers after reset (R311, R324). -/
def Dev.reset : Dev :=
  { featLo := 0, featHi := 0, go := false, ready := false, run := false, negFail := false, t2Base := 0, lclk := 0,
    carCtl := 0, carBase := 0, carSize := 0, carHead := 0, carTail := 0, carOver := false, gongTick := 0, gongFired := false,
    gongAt := 0, snapCounters := [], snapLines := [], snapPorts := [], sweptAt := none }

/-- The remap of a cluster from its fuses: the good physical cores in ascending order; with all five good, core 4 is the spare (R8). -/
def fuseRemap (good : Nat → Bool) : List Nat := ((List.range 5).filter good).take 4

/-- The part right after reset: every register at its reset value, no context, no team, memory with nothing listed. The
fuse remap table is loaded (R8). Tables list only what differs from the reset value of their kind. -/
def State.reset : State :=
  { tick := 0, cycle := 0, edge := [], mhz := 1400, stopped := false, mem := [], hostMem := [], bad := [],
    fuse := (List.range 16).map fun k => (k, fuseRemap (Config.fuseGood k)),
    l2 := [], l2Fill := [], dev := Dev.reset, parts := [], ports := [], ctxs := [], kernels := [], gangs := [],
    clusters := [], cores := [], teams := [], loads := [], posts := [], fills := [], slotOps := [], notices := [],
    rings := [], entries := [], halos := [], pageIns := [], pageFails := [], sxPages := [], deaths := [], walks := [], peers := [],
    turns := [], sel := { core := 0, pipe := 0 }, nextId := 1, outbox := [], msix := [] }

end Sys2Proof.Machine
end

