-- ==== Sys2Proof/Machine/Base.lean ====
section
/-! DEFINITION. Accessors of the state, masks and lane vectors, addresses. -/

namespace Sys2Proof.Machine

/-! ## Parts of the state -/

def State.core (s : State) (c : Nat) : Core := s.cores.get c Core.reset
def State.setCore (s : State) (c : Nat) (v : Core) : State := { s with cores := s.cores.put c v }
def State.cluster (s : State) (k : Nat) : Cluster := s.clusters.get k Cluster.reset
def State.setCluster (s : State) (k : Nat) (v : Cluster) : State := { s with clusters := s.clusters.put k v }
def State.part (s : State) (p : Nat) : Part := s.parts.get p (Part.reset p)
def State.setPart (s : State) (p : Nat) (v : Part) : State := { s with parts := s.parts.put p v }
def State.port (s : State) (p : Nat) : Port := s.ports.get p Port.reset
def State.setPort (s : State) (p : Nat) (v : Port) : State := { s with ports := s.ports.put p v }
def State.team (s : State) (k : Nat) : Option Team := s.teams.find k
def State.setTeam (s : State) (k : Nat) (t : Team) : State := { s with teams := s.teams.put k t }
def State.modTeam (s : State) (k : Nat) (f : Team → Team) : State := { s with teams := s.teams.modify k f }
def State.ctx (s : State) (o : Nat) : Option Ctx := s.ctxs.find o
def State.setCtx (s : State) (o : Nat) (c : Ctx) : State := { s with ctxs := s.ctxs.put o c }
def State.kernel (s : State) (k : Nat) : Option Kernel := s.kernels.find k
def State.setKernel (s : State) (k : Nat) (v : Kernel) : State := { s with kernels := s.kernels.put k v }
def State.gang (s : State) (g : Nat) : Option Gang := s.gangs.find g
def State.setGang (s : State) (g : Nat) (v : Gang) : State := { s with gangs := s.gangs.put g v }

/-- The bank of a number. -/
def Core.bank (c : Core) (b : Nat) : Bank := if b = 0 then c.bank0 else c.bank1
def Core.setBank (c : Core) (b : Nat) (v : Bank) : Core := if b = 0 then { c with bank0 := v } else { c with bank1 := v }
/-- The active control bank (R62). -/
def Core.activeBank (c : Core) : Bank := c.bank c.active
/-- The number of the shadow bank. -/
def Core.shadow (c : Core) : Nat := 1 - c.active

/-- The key of a team slot in State.teams. -/
def teamKey (core bank slot : Nat) : Nat := 128 * core + 64 * bank + slot
def keyCore (k : Nat) : Nat := k / 128
def keyBank (k : Nat) : Nat := k / 64 % 2
def keySlot (k : Nat) : Nat := k % 64
/-- The team slot s is bound to pipe s mod 8 (R9). -/
def keyPipe (k : Nat) : Nat := k % 8
/-- The cluster of a logical core (R7). -/
def clusterOf (core : Nat) : Nat := core / 4

/-- The physical core of a cluster that stands behind a logical core (R8). -/
def physicalCore (s : State) (core : Nat) : Nat := (s.fuse.get (clusterOf core) []).getD (core % 4) 0
/-- The identifier of a physical core p of a cluster, through the remap table; none for the spare and for a core that is not good (R8).
The state keeps each core under its identifier, so that no physical number enters an operand, a record or a save area. -/
def logicalCore (s : State) (cluster p : Nat) : Option Nat := ((s.fuse.get cluster []).idxOf? p).map (4 * cluster + ·)

/-- The team of a core's active bank in a slot. -/
def State.activeKey (s : State) (core slot : Nat) : Nat := teamKey core (s.core core).active slot

/-- The key of the team that holds the pipe at State.sel. -/
def State.selKey (s : State) : Option Nat :=
  ((s.core s.sel.core).pipes.find s.sel.pipe).map fun slot => s.activeKey s.sel.core slot

/-- A fresh number for an operation in flight. -/
def State.fresh (s : State) : Nat × State := (s.nextId, { s with nextId := s.nextId + 1 })

/-! ## Masks and lanes -/

/-- The mask of lanes 0 to n − 1. -/
def lowMask (n : Nat) : Mask := BitVec.ofNat 1024 (2 ^ n - 1)

/-- Bit i of the result is f i, for i below n. -/
def packBits (f : Nat → Bool) : Nat → Nat
  | 0 => 0
  | n + 1 => packBits f n + (if f n then 2 ^ n else 0)

/-- The mask whose lane L is f L, for L below n. -/
def maskOf (n : Nat) (f : Nat → Bool) : Mask := BitVec.ofNat 1024 (packBits f n)

/-- The lanes of a mask below n, ascending. -/
def maskLanes (m : Mask) (n : Nat) : List Nat := (List.range n).filter fun L => m.getLsbD L

/-- Lane L of the vector is f L, for L below n. -/
def packLanes (f : Nat → W32) : Nat → Nat
  | 0 => 0
  | n + 1 => packLanes f n + (f n).toNat * 2 ^ (32 * n)

/-- The register whose lane L is f L, for L below n, and 0 above. -/
def buildV (n : Nat) (f : Nat → W32) : BitVec 32768 := BitVec.ofNat 32768 (packLanes f n)

/-- Lane L of a vector register. -/
def laneV (r : BitVec 32768) (L : Nat) : W32 := r.extractLsb' (32 * L) 32

/-- Some lane below n is in the mask. -/
def maskAny (m : Mask) (n : Nat) : Bool := decide (m &&& lowMask n ≠ 0)

/-- The lowest lane of a mask below n. -/
def maskFirst (m : Mask) (n : Nat) : Option Nat := (List.range n).find? fun L => m.getLsbD L

/-- A team with nothing in it but its width: READY, lanes 0 to W − 1 active, every register 0. -/
def Team.blank (w : Nat) : Team :=
  { oid := 0, kernel := 0, gang := 0, state := .ready, width := w, stage := 0, passOver := 0, yielded := false, tix := 0,
    handler := false, digestMode := false, policy := 0, gidx := 0, age := 0, wake := 0, digest := 0, digestQ := [], pending := 0, sfwords := 0,
    sffirst := 0, sfcount := 0, wait := 0, waitKind := .none, held := false, heldSnare := 0, heldWord := 0, heldAddr := 0,
    e := lowMask w, h := 0, i := 0, fmode := 0, v := [], s := [], p := [], clause := [], entering := false, epc := 0,
    einst := 0, ehdr := 0, ecause := 0, eaddr := 0, emask := 0, eexec := 0, epend := 0, lInst := 0, lHdr := 0, lAddr := 0,
    lMask := 0, fpFlags := 0, fpReport := none, fpQuiet := none, asks := [], cct := none, mxOut := 0,
    storesOut := [], poison := [], stalled := false, atResume := false, epast := false, farH := false, resumeLanes := none, fpoint := 0, frameLanes := none, passSnare := none, heldWait := none, busyLeaf := none, holdsEdit := none, work := none, edit := none, hostWord := 0, hostHdr := 0,
    hostMask := 0, callEntry := 0 }

/-! ## Addresses -/

/-- An 80-bit virtual address from 64 bits: [79:64] are copies of bit 63 (R199). -/
def extVA (a : W64) : Nat := if a.getLsbD 63 then a.toNat + (2 ^ 80 - 2 ^ 64) else a.toNat

/-- The resume point of R294: i in [63:59], H[61:3] in [58:0]. -/
def packEpc (h : W64) (i : Nat) : W64 := BitVec.ofNat 64 (i % 32 * 2 ^ 59 + h.toNat / 8 % 2 ^ 59)
/-- H of a resume point: H[63:62] are copies of H[61] (R294). -/
def epcH (e : W64) : W64 :=
  let low := e.toNat % 2 ^ 59 * 8
  BitVec.ofNat 64 (if 2 ^ 61 ≤ low then low + (2 ^ 64 - 2 ^ 62) else low)
/-- i of a resume point. -/
def epcI (e : W64) : Nat := e.toNat / 2 ^ 59
/-- A clause header address: a multiple of 8 whose bits [63:61] are equal (R294, R30). -/
def headerOk (h : W64) : Bool := decide (h.toNat % 8 = 0 ∧ (h.toNat / 2 ^ 61 = 0 ∨ h.toNat / 2 ^ 61 = 7))

/-- Count field of a clause header (R31). -/
def hdrCount (hdr : W64) : Nat := bitsAt hdr.toNat 52 5
def hdrClass (hdr : W64) : Nat := bitsAt hdr.toNat 57 3
def hdrLdw (hdr : W64) : Nat := bitsAt hdr.toNat 48 4
def hdrStw (hdr : W64) : Nat := bitsAt hdr.toNat 44 4
def hdrMxw (hdr : W64) : Nat := bitsAt hdr.toNat 40 4
def hdrYield (hdr : W64) : Bool := hdr.getLsbD 39
def hdrDigest (hdr : W64) : Bool := hdr.getLsbD 38
/-- The header checks of R32. -/
def hdrOk (hdr : W64) : Bool :=
  decide (bitsAt hdr.toNat 60 4 = 0xa ∧ hdrClass hdr < 6 ∧ 1 ≤ hdrCount hdr ∧ hdrCount hdr ≤ 24 ∧ bitsAt hdr.toNat 0 38 = 0)

/-! ## Records and wait records: a wait record is 32 bytes as one little-endian number (R114) -/

/-- n bytes of a list as a number. -/
def fieldOf (bs : List Byte) (i n : Nat) : Nat := leNat ((bs.drop i).take n)
/-- n bytes of a wait record from byte b. -/
def waitField (w : BitVec 256) (b n : Nat) : Nat := w.toNat / 2 ^ (8 * b) % 2 ^ (8 * n)
/-- A wait record from byte offsets, and values. -/
def waitMake (fs : List (Nat × Nat)) : BitVec 256 := BitVec.ofNat 256 (fs.foldl (fun acc f => acc + f.2 * 2 ^ (8 * f.1)) 0)
/-- The deadline value for none: all ones (R214, R221, R234). -/
def noDeadline : Nat := 2 ^ 64 - 1

end Sys2Proof.Machine
end

