-- ==== Sys2Proof/Machine/Home.lean ====
section
/-! DEFINITION. Memory at the home slices: the single order of each byte (R181), the uncorrectable errors of R256, the L2
tags (R11), and the records that the part writes for the host and for observation (R248, R324). -/

namespace Sys2Proof.Machine

/-- Device physical 2^48 maps to host physical T2_BASE (R311, R314). -/
def hostAddr (s : State) (pa : Nat) : Nat := pa - 2 ^ 48 + s.dev.t2Base.toNat

/-- A byte at its home slice; the tier-2 window lies in host memory (R314). -/
def homeByte (s : State) (pa : Nat) : Byte :=
  if 2 ^ 48 ≤ pa then s.hostMem.byte (hostAddr s pa) else s.mem.byte pa

/-- n bytes at their home slices. -/
def homeBytes (s : State) (pa n : Nat) : List Byte :=
  if 2 ^ 48 ≤ pa then s.hostMem.bytes (hostAddr s pa) n else s.mem.bytes pa n

/-- A little-endian number at the home slices. -/
def homeNat (s : State) (pa n : Nat) : Nat := leNat (homeBytes s pa n)

/-- Bytes written without a look at error granules. -/
def rawWrite (s : State) (pa : Nat) (bs : List Byte) : State :=
  if 2 ^ 48 ≤ pa then { s with hostMem := s.hostMem.setBytes (hostAddr s pa) bs } else { s with mem := s.mem.setBytes pa bs }

/-- The byte range touches a granule that holds an uncorrectable error (R256). -/
def badAt (s : State) (pa n : Nat) : Bool := s.bad.any fun g => decide (32 * g < pa + n ∧ pa < 32 * g + 32)

/-- A store to the tail word of a queue is remembered with the kernel whose team made it, or none (R91, R97), and with its number in
the order of acceptance (R93). -/
def noteTail (s : State) (who : Option Nat) (pa n : Nat) : State :=
  if s.ctxs.all fun c => c.2.queues.all fun q => decide (pa + n ≤ q.2.descPa ∨ q.2.descPa + 8 ≤ pa) then s
  else
    { s with nextId := s.nextId + 1, ctxs := s.ctxs.map fun c => (c.1, { c.2 with queues := c.2.queues.map fun q =>
        if pa < q.2.descPa + 8 ∧ q.2.descPa < pa + n ∧ q.2.state ≠ .disabled
        then (q.1, { q.2 with pubs := q.2.pubs ++ [(homeNat s q.2.descPa 8, who, s.nextId)] }) else q }) }

/-- The bytes of a write that fall into granules with errors that it does not cover whole are dropped (R256). -/
def keepGood (s : State) (pa : Nat) (bs : List Byte) : List Nat :=
  s.bad.filter fun g => decide (32 * g < pa + bs.length ∧ pa < 32 * g + 32) && !decide (pa ≤ 32 * g ∧ 32 * g + 32 ≤ pa + bs.length)

/-- A store accepted at the home slices by a team of a kernel, an engine or the host (R181). The second component is true
when part of it was dropped because its granule holds an error (R256). -/
def homeWrite (s : State) (who : Option Nat) (pa : Nat) (bs : List Byte) : State × Bool :=
  if badAt s pa bs.length then
    let keep := keepGood s pa bs
    let s1 := (List.range bs.length).foldl (fun st i =>
      if keep.any fun g => decide ((pa + i) / 32 = g) then st else rawWrite st (pa + i) [bs.getD i 0]) s
    let s2 := { s1 with bad := s1.bad.filter fun g => !decide (pa ≤ 32 * g ∧ 32 * g + 32 ≤ pa + bs.length) }
    (noteTail s2 who pa bs.length, !keep.isEmpty)
  else (noteTail (rawWrite s pa bs) who pa bs.length, false)

/-- A store at the home slices whose drop nobody reports. -/
def homePut (s : State) (who : Option Nat) (pa : Nat) (bs : List Byte) : State := (homeWrite s who pa bs).1

/-- A little-endian number stored at the home slices. -/
def homePutNat (s : State) (who : Option Nat) (pa n v : Nat) : State := homePut s who pa (leBytes n v)

/-- n bytes of zero stored at the home slices. -/
def homeZero (s : State) (pa n : Nat) : State :=
  let s1 := if 2 ^ 48 ≤ pa then { s with hostMem := s.hostMem.zero (hostAddr s pa) n } else { s with mem := s.mem.zero pa n }
  { s1 with bad := s1.bad.filter fun g => !decide (pa ≤ 32 * g ∧ 32 * g + 32 ≤ pa + n) }

/-- An 8-byte compare-and-swap at a home slice: the new state and whether it took place. In a granule that holds an error nothing is
stored (R256). -/
def homeCas (s : State) (pa : Nat) (old new : W64) : State × Bool :=
  if homeNat s pa 8 = old.toNat ∧ badAt s pa 8 = false then (homePutNat s none pa 8 new.toNat, true) else (s, false)

/-! ## The L2 (R11, R181) -/

/-- The home slice of a physical address (R181). -/
def homeSlice (pa : Nat) : Nat :=
  (bitsAt pa 7 7) ^^^ (bitsAt pa 14 7) ^^^ (bitsAt pa 21 7) ^^^ (bitsAt pa 28 7) ^^^ (bitsAt pa 35 7) ^^^ (bitsAt pa 42 7) ^^^ (bitsAt pa 49 3)
/-- The set within the slice (R181). -/
def homeSet (pa : Nat) : Nat := bitsAt pa 7 10

/-- A line brought into its L2 set: the per-set fill counter chooses the way and advances (R11). A host line is not kept (R314). -/
def l2Touch (s : State) (pa : Nat) : State :=
  if 2 ^ 48 ≤ pa then s else
  let k := homeSlice pa * 1024 + homeSet pa
  let ways := s.l2.get k []
  if ways.any fun w => decide (w.2 = pa / 128) then s
  else
    let n := s.l2Fill.get k 0
    { s with l2 := s.l2.put k (ways.put (n % 16) (pa / 128)), l2Fill := s.l2Fill.put k (n + 1) }

/-! ## Host fault buffer (R248) -/

/-- What a host record holds besides its tick, partition and generation. -/
structure HostRec where
  va : Nat := 0
  oid : Nat := 0
  kind : Nat
  reason : Nat := 0
  acc : Nat := 0
  core : Nat := 0xff
  slot : Nat := 0
  /-- Detail fields: offset within the record and size in bytes, and value. -/
  detail : List (Nat × Nat × Nat) := []

/-- Fields laid into n bytes of zero. -/
def layout (n : Nat) (fs : List (Nat × Nat × Nat)) : List Byte :=
  leBytes n (fs.foldl (fun acc f => acc + f.2.2 % 2 ^ (8 * f.2.1) * 2 ^ (8 * f.1)) 0)

/-- A record written to a partition's host fault buffer, or discarded with OVERFLOW when the ring is full or has no legal
size (R248, R250). MSI-X vector 0 follows a written record (R314). -/
def hostRecord (s : State) (p : Nat) (r : HostRec) : State :=
  let q := s.part p
  let sz := q.fbSize.toNat
  if sz < 6 ∨ 20 < sz ∨ q.fbHead - q.fbTail.toNat = 2 ^ sz then s.setPart p { q with fbOver := true }
  else
    let bs := layout 64 ([(0, 8, s.tick), (8, 10, r.va), (18, 2, r.oid), (20, 1, p), (21, 1, r.kind), (22, 1, r.reason),
      (23, 1, r.acc), (24, 4, q.fbGen), (28, 1, r.core), (29, 1, r.slot)] ++ r.detail)
    let s1 := { s with hostMem := s.hostMem.setBytes (q.fbBase.toNat + 64 * (q.fbHead % 2 ^ sz)) bs, msix := s.msix ++ [(p, 0)] }
    s1.setPart p { q with fbHead := q.fbHead + 1 }

/-! ## The carillon (R324, R326) -/

/-- A carillon record, or its discard with OVERFLOW; a discard makes every core's next sweep absolute (R324, R326). -/
def carRecord (s : State) (kind core : Nat) (fs : List (Nat × Nat × Nat)) : State :=
  let d := s.dev
  let sz := d.carSize.toNat % 32
  if d.carHead - d.carTail.toNat ≥ 2 ^ sz then
    { s with dev := { d with carOver := true }, cores := (List.range 64).foldl (fun t c => t.put c { t.get c Core.reset with absNext := true }) s.cores }
  else
    let bs := layout 64 ([(0, 8, s.tick), (8, 1, kind), (9, 1, core)] ++ fs)
    let s1 := homePut s none (d.carBase.toNat + 64 * (d.carHead % 2 ^ sz)) bs
    { s1 with dev := { d with carHead := d.carHead + 1 } }

/-- The carillon is on (R324). -/
def carOn (s : State) : Bool := s.dev.carCtl.getLsbD 0

/-- One of a core's eight counters raised, modulo 2^48 (R325). -/
def bumpCounter (s : State) (core j n : Nat) : State :=
  let c := s.core core
  s.setCore core { c with counters := c.counters.set j ((c.counters.getD j 0 + n) % 2 ^ 48) }

end Sys2Proof.Machine
end

