-- ==== Sys2Proof/Machine/Operands.lean ====
section
/-! DEFINITION. Operand reads and writes: registers, handler stores, specials, and the placement of each element type
(R17, R39, R40, R41, R112). -/

namespace Sys2Proof.Machine

/-! ## Registers -/

/-- The partition of a team's context. -/
def teamPart (s : State) (t : Team) : Nat := match s.ctx t.oid with | some c => c.partition | none => 0

/-- The launch packet of a team's kernel. -/
def teamPkt (s : State) (t : Team) : Option Packet := (s.kernel t.kernel).map (·.pkt)

/-- A team's s register. -/
def Team.sreg (t : Team) (n : Nat) : W64 := t.s.get n 0
def Team.setS (t : Team) (n : Nat) (v : W64) : Team := { t with s := t.s.put n v }
/-- A predicate; p7 reads all ones (R39). -/
def Team.preg (t : Team) (n : Nat) : Mask := if n = 7 then BitVec.allOnes 1024 else t.p.get n 0
def Team.setP (t : Team) (n : Nat) (v : Mask) : Team := { t with p := t.p.put n v }
/-- A v register, all its lanes. -/
def Team.vreg (t : Team) (n : Nat) : BitVec 32768 := t.v.get n 0
def Team.setV (t : Team) (n : Nat) (v : BitVec 32768) : Team := { t with v := t.v.put n v }

/-- The handler store of a team: 8·bank + pipe (R297). -/
def storeKey (k : Nat) : Nat := 8 * keyBank k + keyPipe k
def kvReg (s : State) (k n : Nat) : BitVec 32768 := (s.core (keyCore k)).kv.get (16 * storeKey k + n) 0
def ksReg (s : State) (k n : Nat) : W64 := (s.core (keyCore k)).ks.get (8 * storeKey k + n) 0
def setKv (s : State) (k n : Nat) (v : BitVec 32768) : State :=
  let c := s.core (keyCore k)
  s.setCore (keyCore k) { c with kv := c.kv.put (16 * storeKey k + n) v }
def setKs (s : State) (k n : Nat) (v : W64) : State :=
  let c := s.core (keyCore k)
  s.setCore (keyCore k) { c with ks := c.ks.put (8 * storeKey k + n) v }

/-! ## Specials (R112) -/

/-- The summary word of E (R109). -/
def summary (e : Mask) : Nat := packBits (fun w => decide (e.extractLsb' (32 * w) 32 ≠ 0)) 32

/-- The value of a special in a lane (R112). Each is 32 bits wide but %gidx. -/
def special (s : State) (k : Nat) (t : Team) (x lane : Nat) : Nat :=
  let pk := teamPkt s t
  let nx := match pk with | some p => p.nx | none => 1
  let ny := match pk with | some p => p.ny | none => 1
  let nz := match pk with | some p => p.nz | none => 1
  match x with
  | 1 => lane
  | 2 => t.tix
  | 3 => t.gidx % nx
  | 4 => t.gidx / nx % ny
  | 5 => t.gidx / (nx * ny)
  | 6 => t.stage
  | 7 => t.width
  | 8 => t.oid
  | 9 => keyCore k
  | 10 => s.tick % 2 ^ 32
  | 11 => s.tick / 2 ^ 32 % 2 ^ 32
  | 12 => nx
  | 13 => ny
  | 14 => nz
  | 15 => match pk with | some p => p.teams | none => 1
  | 16 => keySlot k
  | 17 => keyPipe k
  | 18 => clusterOf (keyCore k)
  | 19 => teamPart s t
  | 20 => (t.e.extractLsb' (32 * (lane / 32)) 32).toNat
  | 21 => summary t.e
  | 22 => lane / 32
  | 23 => t.gidx
  | _ => 0

/-! ## Operand reads -/

/-- The value of a V, KV, S, KS or X operand in a lane, as 64 bits: a 32-bit read of a vector register is zero-extended,
a 64-bit read takes the pair (R17); a scalar or special gives every lane its value (R111). -/
def opd (s : State) (k : Nat) (t : Team) (wide : Bool) (o : Opd) (L : Nat) : W64 :=
  match o with
  | .v n => let lo := laneV (t.vreg n.val) L
            if wide then laneV (t.vreg (n.val + 1)) L ++ lo else lo.zeroExtend 64
  | .kv n => let lo := laneV (kvReg s k n.val) L
             if wide then laneV (kvReg s k (n.val + 1)) L ++ lo else lo.zeroExtend 64
  | .s n => t.sreg n.val
  | .ks n => ksReg s k n.val
  | .x n => BitVec.ofNat 64 (special s k t n.val L)
  | _ => 0

/-- A scalar operand: S, KS or a uniform special. -/
def opdS (s : State) (k : Nat) (t : Team) (o : Opd) : W64 := opd s k t true o 0

/-- The predicate that an operand names. -/
def opdP (t : Team) (o : Opd) : Mask := match o with | .p n => t.preg n.val | _ => 0

/-- Register o + d of the same kind. -/
def Opd.next (o : Opd) (d : Nat) : Opd :=
  match o with
  | .v n => if h : n.val + d < 256 then .v ⟨n.val + d, h⟩ else .none
  | .kv n => if h : n.val + d < 16 then .kv ⟨n.val + d, h⟩ else .none
  | .s n => if h : n.val + d < 64 then .s ⟨n.val + d, h⟩ else .none
  | .ks n => if h : n.val + d < 8 then .ks ⟨n.val + d, h⟩ else .none
  | o => o

/-! ## Operand writes -/

/-- One 32-bit vector register written in some lanes below the team's width. -/
def mergeV (w : Nat) (old : BitVec 32768) (lanes : Mask) (f : Nat → W32) : BitVec 32768 :=
  buildV w fun L => if lanes.getLsbD L then f L else laneV old L

/-- A result written to D in the lanes of a mask: a vector register or pair per lane, a scalar register once, with lane 0's
value, %zero never (R40, R111). The team is read from the state. -/
def writeD (s : State) (k : Nat) (lanes : Mask) (wide : Bool) (d : Opd) (f : Nat → W64) : State :=
  match s.team k with
  | none => s
  | some t =>
    match d with
    | .v n =>
      let t1 := t.setV n.val (mergeV t.width (t.vreg n.val) lanes fun L => (f L).truncate 32)
      s.setTeam k (if wide then t1.setV (n.val + 1) (mergeV t.width (t.vreg (n.val + 1)) lanes fun L => (f L).extractLsb' 32 32) else t1)
    | .kv n =>
      let s1 := setKv s k n.val (mergeV t.width (kvReg s k n.val) lanes fun L => (f L).truncate 32)
      if wide then setKv s1 k (n.val + 1) (mergeV t.width (kvReg s k (n.val + 1)) lanes fun L => (f L).extractLsb' 32 32) else s1
    | .s n => s.setTeam k (t.setS n.val (f 0))
    | .ks n => setKs s k n.val (f 0)
    | _ => s

/-- A predicate destination written in the lanes of a mask; other bits keep their value (R122). -/
def writeP (s : State) (k : Nat) (lanes : Mask) (d : Opd) (r : Mask) : State :=
  match d, s.team k with
  | .p n, some t => if n.val = 7 then s else s.setTeam k (t.setP n.val ((t.preg n.val &&& ~~~lanes) ||| (r &&& lanes)))
  | _, _ => s

/-- A scalar destination written; 511 and %zero discard. -/
def writeS (s : State) (k : Nat) (d : Opd) (v : W64) : State := writeD s k 0 true d fun _ => v

/-! ## Placement of results (R17, R18, R19) -/

/-- The width in bits of an element type. -/
def ETy.width : ETy → Nat
  | .i64 | .n64 | .f64 => 64
  | .i16 | .n16 | .f16 | .bf16 => 16
  | .i8 | .n8 | .e4m3 | .e5m2 => 8
  | _ => 32

/-- The type is signed. -/
def ETy.signed : ETy → Bool | .i8 | .i16 | .i32 | .i64 => true | _ => false

/-- A source of an element type as it is read: its low bits (R17). -/
def narrow (t : ETy) (v : W64) : W64 :=
  match ETy.width t with
  | 64 => v
  | w => v &&& BitVec.ofNat 64 (2 ^ w - 1)

/-- The value of an integer source: two's complement for a signed type, unsigned otherwise (R17). -/
def intVal (t : ETy) (v : W64) : Int :=
  let n := v.toNat % 2 ^ ETy.width t
  if ETy.signed t && decide (2 ^ (ETy.width t - 1) ≤ n) then (n : Int) - 2 ^ ETy.width t else n

/-- A result of an element type as it stands in 64 bits: a signed integer is sign-extended, everything else
zero-extended (R17, R18, R19). The low 32 bits are what a vector register takes. -/
def place (t : ETy) (v : W64) : W64 :=
  match ETy.width t, ETy.signed t with
  | 8, true => (v.truncate 8).signExtend 64
  | 16, true => (v.truncate 16).signExtend 64
  | 32, true => (v.truncate 32).signExtend 64
  | _, _ => narrow t v

end Sys2Proof.Machine
end

