-- ==== Sys2Proof/Machine/Ops.lean ====
section
/-! DEFINITION. The shared operations of every instruction word: the lanes it acts on, the checks at issue, commit and the
end of a clause, taking an exception and returning from one, and containment (R28, R32, R33, R48, R109 to R120, R293 to
R307, R347). -/

namespace Sys2Proof.Machine

/-- The outcome of a step of this machine. -/
abbrev Out := Host.Outcome State Fault Refusal

/-! ## Lanes (R36, R109, R111) -/

/-- The lanes that pass a guard. -/
def guardPass (t : Team) : Guard → Mask
  | .pos n => t.preg n.val
  | .neg n => ~~~ t.preg n.val
  | _ => BitVec.allOnes 1024

/-- Lanes: the active lanes that pass the guard (R129). -/
def lanesOf (t : Team) (g : Guard) : Mask := t.e &&& guardPass t g &&& lowMask t.width

/-- A team-wide instruction executes: unguarded, or at least one active lane passes (R111). -/
def teamRuns (t : Team) (g : Guard) : Bool :=
  match g with
  | .always => true
  | g => maskAny (lanesOf t g) t.width

/-! ## Causes (R293) -/

def cIllegalOp : W64 := 1
def cIllegalOperand : W64 := 2
def cIllegalClause : W64 := 4
def cPage : W64 := 8
def cQuota : W64 := 16
def cVolAlloc : W64 := 32
def cTileFormat : W64 := 64
def cStitch : W64 := 128
def cSlotState : W64 := 256
def cSyncMask : W64 := 512
def cMisalign : W64 := BitVec.ofNat 64 (2 ^ 15)
def cScratch : W64 := BitVec.ofNat 64 (2 ^ 16)
def cUser : W64 := BitVec.ofNat 64 (2 ^ 18)
def cUncorrectable : W64 := BitVec.ofNat 64 (2 ^ 20)
def cAsync : W64 := BitVec.ofNat 64 (2 ^ 62)
def cNested : W64 := BitVec.ofNat 64 (2 ^ 63)
/-- The page reason in the detail field [55:48] (R293). -/
def cReason (r : Nat) : W64 := BitVec.ofNat 64 (r * 2 ^ 48)
/-- The FP cause bits [14:10] of five exceptions, NV first (R293). -/
def cFp (x : BitVec 5) : W64 := BitVec.ofNat 64 (x.toNat * 2 ^ 10)

/-- What an instruction that traps says of its cause. -/
structure Cause where
  bits : W64
  addr : W64
  mask : Mask
  /-- The resume point is (H, i + 1): USER (R298). -/
  past : Bool := false
  /-- The word and header that the frame names, when they are not those of the word that issues (R298). -/
  origin : Option (W64 × W64) := none

/-- What the meaning of an instruction word comes to. -/
inductive Res where
  /-- The word commits. -/
  | commit (s : State)
  /-- The word commits and ends its clause; the team goes on at a clause header (R117). -/
  | jump (s : State) (target : W64)
  /-- The word waits at issue and holds the pipe (R110). -/
  | stall (s : State)
  /-- The team leaves its pipe with resume point (H, i) (R113). -/
  | leave (s : State)
  /-- The word raises a precise fault; the state holds the changes that stand. -/
  | trap (s : State) (c : Cause)
  /-- The word commits and ends the team (R119). -/
  | endTeam (s : State)
  /-- The word commits as the last thing the team does before it waits; the team then continues at (H, i + 1) (R303). -/
  | park (s : State)
  /-- The meaning has placed the team itself (R300, R330). -/
  | done (s : State)

/-! ## Pipes and handler stores -/

/-- The team gives up its pipe. -/
def freePipe (s : State) (k : Nat) : State :=
  let c := s.core (keyCore k)
  if c.pipes.find (keyPipe k) = some (keySlot k) ∧ c.active = keyBank k
  then s.setCore (keyCore k) { c with pipes := c.pipes.erase (keyPipe k) } else s

/-- A destination, unless it lies in the handler store. -/
def dropKv : Opd → Opd
  | .kv _ => .none
  | .ks _ => .none
  | o => o

/-- The handler store of a team is free (R297). -/
def storeFree (s : State) (k : Nat) : Bool := ((s.core (keyCore k)).store.find (storeKey k)).isNone

/-- Data that loads of the team have still to write into its handler store is discarded with the store, so that late data never
overwrites a later use of it (R33, R297). -/
def dropStoreLoads (s : State) (k : Nat) : State :=
  { s with loads := s.loads.map fun l => (l.1, if l.2.team = k then { l.2 with dst := dropKv l.2.dst } else l.2) }

/-- The team gives up its handler store (R297, R300). -/
def freeStore (s : State) (k : Nat) : State :=
  let c := s.core (keyCore k)
  if c.store.find (storeKey k) = some (keySlot k)
  then dropStoreLoads (s.setCore (keyCore k) { c with store := c.store.erase (storeKey k) }) k else s

/-- %hentry of a team's kernel (R295). -/
def hentry (s : State) (t : Team) : W64 := match s.kernel t.kernel with | some kn => kn.hentry | none => 0

/-- A team with a lower age waits for the same handler store (R297). -/
def olderEntering (s : State) (k : Nat) (t : Team) : Bool :=
  s.teams.any fun p => decide (keyCore p.1 = keyCore k ∧ storeKey p.1 = storeKey k ∧ p.1 ≠ k ∧ p.2.age < t.age) && p.2.entering

/-- The team takes its pipe's handler store and starts its handler: kv and ks zeroed, handler flag set, E := %emask, resume
at (%hentry, 0) (R297). -/
def takeStore (s : State) (k : Nat) : State :=
  match s.team k with
  | none => s
  | some t =>
    let c := s.core (keyCore k)
    let q := storeKey k
    let s1 := s.setCore (keyCore k) { c with
      store := c.store.put q (keySlot k)
      kv := c.kv.filter fun e => decide (e.1 / 16 ≠ q)
      ks := c.ks.filter fun e => decide (e.1 / 8 ≠ q) }
    s1.setTeam k { t with handler := true, entering := false, e := t.emask, h := hentry s t, i := 0, clause := [], state := .ready }

/-- A latched team enters its handler if the store is free and no older team waits for it (R297). -/
def tryEnter (s : State) (k : Nat) : State :=
  match s.team k with
  | none => s
  | some t => if t.entering && storeFree s k && !olderEntering s k t then takeStore s k else s

/-! ## Ends of teams, gangs and kernels -/

/-- The team issues nothing more and its operations drain (R113, R119). A cymbal, a shootdown or an edit that it waits for
still completes. -/
def exitTeamNow (s : State) (k : Nat) : State :=
  let s1 := freeStore (freePipe s k) k
  s1.modTeam k fun t => { t with
    state := .exiting, clause := [], handler := false, entering := false, busyLeaf := none,
    waitKind := if t.work.isSome || t.edit.isSome then t.waitKind else .none, wait := if t.work.isSome || t.edit.isSome then t.wait else 0,
    fmode := t.fmode ||| BitVec.ofNat 64 (t.fpFlags.toNat * 2 ^ 13), fpFlags := 0, fpReport := none, fpQuiet := none, pending := 0,
    heldWord := 0, heldAddr := 0, poison := [], stalled := false, atResume := false, farH := false, heldWait := none, cct := none, asks := [], held := false }

/-- A team that containment ends (R305): it drains as an exiting team and raises no SCRATCH of its own. -/
def killTeam (s : State) (k : Nat) : State :=
  match s.team k with
  | none => s
  | some t => if t.state = .exiting then s else (exitTeamNow s k).modTeam k fun t => { t with sfcount := 0 }

/-- A gang that containment ends: its teams stop (R305). -/
def killGang (s : State) (g : Nat) : State :=
  (s.teams.filter fun e => decide (e.2.gang = g)).foldl (fun st e => killTeam st e.1) { s with gangs := s.gangs.modify g fun x => { x with killed := true } }

/-- A kernel that containment ends: its teams stop, its unplaced gangs are discarded and a record goes to the host fault
buffer (R105). -/
def killKernel (s : State) (kid : Nat) : State :=
  match s.kernel kid with
  | none => s
  | some kn =>
    if kn.state = .killed ∨ kn.state = .retired then s
    else
      let s1 := s.setKernel kid { kn with state := .killed }
      let s2 := (s1.teams.filter fun p => decide (p.2.kernel = kid)).foldl (fun st p => killTeam st p.1) s1
      let p := match s.ctx kn.oid with | some c => c.partition | none => 0
      hostRecord s2 p { oid := kn.oid, kind := 3, detail := [(32, 8, kn.seq)] }

/-- Every kernel of a context (R305). -/
def killCtx (s : State) (o : Nat) : State :=
  (s.kernels.filter fun p => decide (p.2.oid = o)).foldl (fun st p => killKernel st p.1) s

/-- The containment policies from a level up: 0 team, 1 gang, 2 kernel, 3 context (R305). -/
def policiesFrom (s : State) (t : Team) (level : Nat) : List (Nat × Nat) :=
  let pk := teamPkt s t
  let pg := match pk with | some p => p.polGang | none => 3
  let pkn := match pk with | some p => p.polKernel | none => 3
  let pc := match s.ctx t.oid with | some c => c.policy | none => 2
  [(0, t.policy), (1, pg), (2, pkn), (3, pc)].drop level

/-- The first level that absorbs: IGNORE 0, RETRY 1, KILL_SELF 2; KILL_PARENT 3 passes on, and kills at the context level
(R305). -/
def absorbing : List (Nat × Nat) → Nat × Nat
  | [] => (3, 2)
  | (l, p) :: r => if p = 3 then absorbing r else (l, p)

/-- A wait that an instruction begins and ends itself, so that it goes on when the instruction issues again. -/
def WKind.resumes : WKind → Bool
  | .bar | .hbar | .addr | .ring | .seq | .next | .saved => true
  | _ => false

/-- The team has come back to its resume point: the wait of the instruction there goes on. -/
def regainWait (t : Team) : Team :=
  match t.heldWait with
  | some (h, i, kind, w) => if h = t.h ∧ i = t.i then { t with waitKind := kind, wait := w, heldWait := none } else { t with heldWait := none }
  | none => t

/-- The team resumes at (h, i) with E := %eexec (R305). -/
def resumeAt (s : State) (k : Nat) (h : W64) (i : Nat) : State :=
  s.modTeam k fun t => regainWait { t with
    h := h, i := i, e := t.eexec, clause := [], state := .ready, entering := false, handler := false, atResume := true, farH := false }

/-- The lanes that a frame leaves to the vol or sx instruction at its resume point: the lanes of %emask (R268, R305). A frame whose
resume point lies past its word leaves none. -/
def lanesLeft (f : Frame) : Option Mask :=
  let op := opOf f.inst
  if f.cause &&& (cUser ||| cAsync ||| cFp 31) = 0 ∧ 0x280 ≤ op ∧ op ≤ 0x2ca then some f.mask else none

/-- The lanes on which the instruction at a resume point acts when the team comes back to the one of its frame (R268, R305). -/
def lanesBack (t : Team) : Option Mask := if t.epc = t.fpoint then t.frameLanes else none

/-- The lanes of an instruction that resumes: those of E that pass its guard, without the lanes that have performed (R268, R305). -/
def resumedLanes (t : Team) (g : Guard) : Mask := lanesOf t g &&& t.resumeLanes.getD (BitVec.allOnes 1024)

/-- Containment of the frame latched in a team, from a level up (R305). -/
def contain (s : State) (k : Nat) (level : Nat) : State :=
  match s.team k with
  | none => s
  | some t =>
    match absorbing (policiesFrom s t level) with
    | (_, 0) => resumeAt s k (epcH t.epc) (if t.epast then epcI t.epc else epcI t.epc + 1)
    | (_, 1) =>
      (resumeAt s k (epcH t.epc) (epcI t.epc)).modTeam k fun u => { u with resumeLanes := lanesBack t }
    | (0, _) => killTeam s k
    | (1, _) => killGang s t.gang
    | (2, _) => killKernel s t.kernel
    | (_, _) => killCtx s t.oid

/-! ## Taking an exception (R296, R297, R298) -/

/-- A frame is latched in the team: %epc, %einst, %ehdr, %ecause, %eaddr, %emask from the frame, %eexec := E, %epend := 0
(R297). The team leaves its pipe. -/
def latchFrame (s : State) (k : Nat) (f : Frame) : State :=
  (freePipe s k).modTeam k fun t => { t with
    epc := packEpc f.h f.i, einst := f.inst, ehdr := f.hdr, ecause := f.cause, eaddr := f.addr, emask := f.mask,
    epast := decide (f.cause &&& (cUser ||| cAsync ||| cFp 31) ≠ 0), farH := false,
    fpoint := packEpc f.h f.i, frameLanes := (lanesLeft f).or t.resumeLanes, resumeLanes := none,
    heldWait := if t.waitKind.resumes then some (t.h, t.i, t.waitKind, t.wait) else none,
    eexec := t.e, epend := 0, clause := [], waitKind := .none, wait := 0, busyLeaf := none, stalled := false }

/-- A frame is delivered: to the handler when %hentry ≠ 0, otherwise to containment at the team level; a frame of SCRATCH always goes
to containment, from the gang level up, whichever instruction raised it (R296). -/
def deliver (s : State) (k : Nat) (f : Frame) : State :=
  match s.team k with
  | none => s
  | some t =>
    let s1 := latchFrame s k f
    if f.cause &&& cScratch ≠ 0 then contain s1 k 1
    else if hentry s t ≠ 0 then tryEnter (s1.modTeam k fun u => { u with entering := true, state := .ready }) k
    else contain s1 k 0

/-- A cause is held for later delivery: its bits are ORed into the pending field and the first one's word and address are
kept (R347). -/
def holdCause (t : Team) (bits word addr : W64) : Team :=
  if t.state = .exiting then t
  else if t.pending = 0 then { t with pending := bits, heldWord := word, heldAddr := addr }
  else { t with pending := t.pending ||| bits }

/-- At a clause boundary the errors of loads' data are held, oldest first (R206, R347). -/
def holdPoison (t : Team) : Team :=
  t.poison.foldl (fun u p => holdCause u cUncorrectable p.word p.addr) { t with poison := [] }

/-- The address of word i of the clause at H (R30). -/
def wordAddr (h : W64) (i : Nat) : W64 := h + 8 + 8 * BitVec.ofNat 64 i

/-- The word of a team that issues next. -/
def curWord (t : Team) : W64 := t.clause.getD (t.i + 1) 0
/-- The header of its clause. -/
def curHdr (t : Team) : W64 := t.clause.getD 0 0

/-- An FP report becomes a held cause: the index in [4:0] and the lane in [25:16] of its address (R28, R298). Inside a clause the words
that follow it only set flags; at index 0 the report is that of the clause before, which has ended. -/
def holdReport (t : Team) : Team :=
  match t.fpReport with
  | none => t
  | some r => holdCause { t with fpReport := none, fpQuiet := if t.i = 0 then t.fpQuiet else some t.h } r.cause r.word (BitVec.ofNat 64 (r.i % 32 + r.lane % 1024 * 2 ^ 16))

/-- The sticky flags of the clause so far are set (R28). -/
def setSticky (t : Team) : Team :=
  { t with fmode := t.fmode ||| BitVec.ofNat 64 (t.fpFlags.toNat * 2 ^ 13), fpFlags := 0 }

/-- The word moves the team to the next word, or ends the clause; see commitWord. -/
def advance (t : Team) : Team := { t with i := t.i + 1, passSnare := none, resumeLanes := none, atResume := false, stalled := false }

/-- A held cause of handler mode (R299): the instruction has no effect, its bits are ORed into %epend and the first one's
word, header, address and mask are latched. -/
def holdInHandler (t : Team) (c : Cause) : Team :=
  let o := c.origin.getD (curWord t, curHdr t)
  let t1 := if t.epend = 0 then { t with lInst := o.1, lHdr := o.2, lAddr := c.addr, lMask := c.mask } else t
  { t1 with epend := t1.epend ||| c.bits }

/-- The record of a digest point (R327). -/
def digestRec (s : State) (k : Nat) (t : Team) : State :=
  carRecord s 4 (keyCore k) [(10, 1, keySlot k), (11, 1, t.tix), (16, 8, t.digest.toNat), (24, 8, t.gidx)]

/-- A clause closes a digest interval: in a digest-mode launch the running digest is recorded (R34, R327), once all that the team has
committed before is folded in (R329). -/
def digestPoint (s : State) (k : Nat) (t : Team) : State :=
  if hdrDigest (curHdr t) && t.digestMode && carOn s then
    if t.digestQ.isEmpty then digestRec s k t else s.modTeam k fun u => { u with digestQ := u.digestQ ++ [.point] }
  else s

/-! ## The end of a clause (R28, R34, R82, R116, R117, R120) -/

/-- The core's cooperative deadline has expired (R116). -/
def deadlinePast (s : State) (core : Nat) : Bool :=
  match (s.core core).deadline with | some d => decide (d ≤ s.tick) | none => false

/-- What the yields and sleeps of the team's clause have asked for. -/
def askOf (t : Team) : Ask :=
  (t.asks.find? fun a => decide (a.h = t.h ∧ a.handler = t.handler)).getD { h := t.h, handler := t.handler, yield := false, sleep := 0 }
def putAsk (t : Team) (a : Ask) : Team := { t with asks := a :: t.asks.filter fun b => decide (b.handler ≠ a.handler) }

/-- A clause completes and the team goes on at the header target: the clause's sticky flags are set, a yield and a sleep of
the clause act, a digest point is recorded, the pipe is free and the CCT count of the clause starts. -/
def completeClause (s : State) (k : Nat) (target : W64) : State :=
  match s.team k with
  | none => s
  | some t =>
    let core := keyCore k
    let a := askOf t
    let parked := a.yield && deadlinePast s core
    let slept := decide (a.sleep ≠ 0)
    let t1 := setSticky t
    let t2 : Team := { t1 with
      h := target, i := 0, clause := [], passSnare := none, resumeLanes := none, atResume := false, stalled := false,
      fpQuiet := if t.handler then t.fpQuiet else none, cct := some (t.h, s.cycle),
      yielded := t.yielded || a.yield, asks := t.asks.filter fun b => decide (b.handler ≠ t.handler),
      wake := if slept then s.tick + a.sleep else t.wake,
      state := if slept then .sleeping else if parked then .parked else t.state,
      waitKind := if !slept && parked then .deadline else t.waitKind }
    let s1 := freePipe (s.setTeam k t2) k
    let s2 := if !slept && parked then bumpCounter s1 core 6 1 else s1
    digestPoint s2 k t

/-- The header after a clause in sequence (R30). -/
def nextHeader (t : Team) : W64 := t.h + 8 + 8 * BitVec.ofNat 64 (hdrCount (curHdr t))

/-- A word commits: the next word of the clause follows, or the next clause in sequence (R30, R117). -/
def commitWord (s : State) (k : Nat) : State :=
  match s.team k with
  | none => s
  | some t =>
    if t.i + 1 < hdrCount (curHdr t) then s.setTeam k (advance t)
    else completeClause s k (nextHeader t)

/-- The mask words with an active lane: those that a sweep visits (R110). -/
def sweepCycles (t : Team) : Nat := ((List.range 32).filter fun w => (summary t.e).testBit w).length

/-- The core cycles that a word takes: its multiple for each mask word swept, or its cycles on the scalar unit when its
destination is scalar; one when no mask word is swept (R110, R131, R145, R170). -/
def issueCycles (t : Team) : Nat :=
  let w := (curWord t).toNat
  let op := bitsAt w 54 10
  let d := bitsAt w 41 9
  let ty := bitsAt w 10 4
  let scalar := decide ((256 ≤ d ∧ d < 320) ∨ (344 ≤ d ∧ d < 352))
  let wide := decide (ty = 3 ∨ ty = 4)
  let product := decide (9 ≤ op ∧ op ≤ 11)
  let bounded := decide ((0x08a ≤ op ∧ op ≤ 0x091) ∨ op = 0x09b)
  let imm := decide (op = 0x022 ∨ (0x027 ≤ op ∧ op ≤ 0x02a))
  let n := sweepCycles t
  Nat.max 1 <| if op < 0x080 then
    if scalar then (if (product && wide) || decide (op = 12) then 4 else 1)
    else n * (if op = 12 then 4 else if product then (if wide then 8 else 2) else if wide && !imm then 2 else 1)
  else if op < 0x100 then
    if scalar then (if bounded then 8 else if ty = 12 then 4 else 1)
    else n * (if bounded then (if ty = 12 then 16 else 4) else if ty = 12 then 4 else 1)
  else if op = 0x245 ∨ op = 0x246 then 2 * n
  else n

/-- The issue cycles of a word that does not stall are counted (R325). -/
def charge (k n : Nat) : Res → Res
  | .commit s => .commit (bumpCounter s (keyCore k) 0 n)
  | .jump s h => .jump (bumpCounter s (keyCore k) 0 n) h
  | .stall s => .stall s
  | .leave s => .leave (bumpCounter s (keyCore k) 0 n)
  | .trap s c => .trap (bumpCounter s (keyCore k) 0 n) c
  | .endTeam s => .endTeam (bumpCounter s (keyCore k) 0 n)
  | .park s => .park (bumpCounter s (keyCore k) 0 n)
  | .done s => .done (bumpCounter s (keyCore k) 0 n)

/-- A precise fault of the word that issues (R28, R298, R299): in handler mode it is held; otherwise the flags of the
clause so far are set, an FP report of the clause is held, and the frame is delivered. -/
def raise (s : State) (k : Nat) (c : Cause) : State :=
  match s.team k with
  | none => s
  | some t =>
    if t.handler then commitWord (s.setTeam k (holdInHandler t c)) k
    else
      deliver (s.setTeam k (holdReport (setSticky t))) k
        { h := t.h, i := if c.past then t.i + 1 else t.i, inst := (c.origin.map (·.1)).getD (curWord t),
          hdr := (c.origin.map (·.2)).getD (curHdr t), cause := c.bits, addr := c.addr, mask := c.mask }

/-- The word stalls and holds the pipe: the core cycles that pass until it issues are counted (R110, R325). -/
def stallAt (s : State) (k : Nat) : State := s.modTeam k fun t => { t with stalled := true }

/-- What a meaning comes to, as the next state. -/
def finish (k : Nat) : Res → State
  | .commit s => commitWord s k
  | .jump s target => completeClause s k target
  | .stall s => stallAt s k
  | .leave s => freePipe (s.modTeam k fun t => { t with clause := [] }) k
  | .trap s c => raise s k c
  | .endTeam s => exitTeamNow (match s.team k with | some t => digestPoint s k t | none => s) k
  | .park s => freePipe (s.modTeam k fun t => { advance t with clause := [] }) k
  | .done s => s

/-! ## Checks at issue (R48) -/

/-- The register codes an operand use takes (R39). -/
def useCodes (u : Use) : List Nat :=
  match u.o with
  | .v n => (List.range u.vn).map fun d => n.val + d
  | .kv n => (List.range u.vn).map fun d => 328 + n.val + d
  | .s n => (List.range u.sn).map fun d => 256 + n.val + d
  | .ks n => (List.range u.sn).map fun d => 344 + n.val + d
  | _ => []

/-- An operand use lies within the declared counts, and KV and KS only in handler mode (R40). -/
def useFits (vregs sregs : Nat) (handler : Bool) (u : Use) : Bool :=
  match u.o with
  | .v n => decide (n.val + u.vn ≤ vregs)
  | .s n => decide (n.val + u.sn ≤ sregs)
  | .kv n => handler && decide (n.val + u.vn ≤ 16)
  | .ks n => handler && decide (n.val + u.sn ≤ 8)
  | _ => true

/-- The user register that a word of frd or fwr fixes (R301). -/
def namedUse : Instr → List Use
  | .frd f | .fwr f => if f.a = .none then [u1 (Opd.ofCode (f.hi.toNat % 512))] else []
  | _ => []

/-- The part of check 3 that depends on the team: msync's type and width (R126). -/
def dyn3 (t : Team) : Instr → Bool
  | .msync f => (decide (t.width = 32) && decide (f.t = .b32)) || (decide (t.width = 64) && decide (f.t = .n64))
  | _ => true

/-- The part of check 4 that depends on the team: declared counts, handler registers, and unit numbers in a PREEMPT context
(R40, R160). -/
def dyn4 (s : State) (t : Team) (i : Instr) : Bool :=
  let pk := teamPkt s t
  let vr := match pk with | some p => p.vregs | none => 256
  let sr := match pk with | some p => p.sregs | none => 64
  let pre := match s.ctx t.oid with | some c => c.preempt | none => false
  (i.uses ++ namedUse i).all (useFits vr sr t.handler) && (!pre || i.slotUnits.all fun u => decide (u.1 < 32))

/-- The registers that loads in flight will write (R33). -/
def pendingCodes (s : State) (k : Nat) : List Nat :=
  s.loads.flatMap fun l => if l.2.team = k then useCodes (uz (if l.2.size = 8 then 3 else if l.2.size = 16 then 4 else 2) l.2.dst) else []

/-- The user register that frd or fwr names through a scalar (R301, R337). -/
def dynNamed (s : State) (k : Nat) (t : Team) : Instr → List Nat
  | .frd f | .fwr f => if f.a = .none then [] else [(opdS s k t f.a).toNat]
  | _ => []

/-- The registers that a word reads without an operand that names them: s0 to s5 of a system call (R304). -/
def hiddenCodes : Instr → List Nat
  | .trapSystemCall _ => (List.range 6).map (256 + ·)
  | _ => []

/-- Every register that a word reads or writes. -/
def allCodes (s : State) (k : Nat) (t : Team) (i : Instr) : List Nat :=
  (i.uses ++ namedUse i).flatMap useCodes ++ dynNamed s k t i ++ hiddenCodes i

/-- The registers that a word reads: D only where it is a source, and not isect's C. -/
def readCodes (s : State) (k : Nat) (t : Team) (i : Instr) : List Nat :=
  let us := match i with
    | .st _ | .stsp _ | .hbWr _ | .fwr _ | .sxSt _ => i.uses
    | .isect f => [ut f.t f.a, ut f.t f.b]
    | .frd _ => namedUse i ++ i.uses.drop 1
    | .jmpi _ | .ret _ | .mma _ | .volInv _ | .pfh _ | .msync _ => i.uses
    | _ => i.uses.drop 1
  us.flatMap useCodes ++ (match i with | .frd _ => dynNamed s k t i | _ => []) ++ hiddenCodes i

/-! ## Snares (R307) -/

/-- A snare control register matches an access by lanes of a team: enabled, of the kind, for the OID, in a lane of its
word. -/
def snareOn (ctl : W64) (kindOk : Nat → Bool) (oid : Nat) (lanes : Mask) : Bool :=
  let n := ctl.toNat
  let w := bitsAt n 56 5
  ctl.getLsbD 63 && kindOk (bitsAt n 61 2) && decide (bitsAt n 44 12 = oid) &&
    decide ((lanes.extractLsb' (32 * w) 32) &&& BitVec.ofNat 32 (bitsAt n 0 32) ≠ 0)

/-- The PC snare that matches a word at an address, if any (R307). -/
def pcSnare (s : State) (k : Nat) (t : Team) (i : Instr) : Option Nat :=
  let c := s.core (keyCore k)
  (List.range 8).find? fun j =>
    decide (t.passSnare ≠ some j) && decide (c.snares.get (0x20 + j) 0 = wordAddr t.h t.i) &&
      snareOn (c.snares.get (0x30 + j) 0) (fun q => decide (q = 0)) t.oid (lanesOf t i.guard)

/-- An access of n bytes touches the 8-byte granule of an address (R307). -/
def touches (va n a : Nat) : Bool := decide (va / 8 ≤ a / 8 ∧ a / 8 ≤ (va + n - 1) / 8)

/-- The data snare that matches an access of a kind (1 read, 2 write, 3 both) by the lanes that touch its granule, if any (R307). -/
def snareBy (s : State) (k : Nat) (t : Team) (kind : Nat) (lanesAt : Nat → Mask) : Option Nat :=
  let c := s.core (keyCore k)
  ((List.range 4).find? fun j =>
    decide (t.passSnare ≠ some (8 + j)) &&
      snareOn (c.snares.get (0x38 + j) 0) (fun q => decide (q = 3 ∨ q = kind ∨ (kind = 3 ∧ q ≠ 0))) t.oid
        (lanesAt (extVA (c.snares.get (0x28 + j) 0)))).map (8 + ·)

/-- The data snare that matches an access of a kind by lanes at addresses, if any (R307). -/
def dataSnare (s : State) (k : Nat) (t : Team) (kind : Nat) (size : Nat) (accs : List (Nat × Nat)) : Option Nat :=
  snareBy s k t kind fun a => maskOf 1024 fun L => accs.any fun p => decide (p.1 = L) && touches p.2 size a

/-- The same for an instruction that acts once for the lanes of a mask, on ranges: address and bytes of each. -/
def wideSnare (s : State) (k : Nat) (t : Team) (m : Mask) (kind : Nat) (ranges : List (Nat × Nat)) : Option Nat :=
  snareBy s k t kind fun a => if ranges.any fun r => touches r.1 r.2 a then m else 0

/-- A team is stopped at its resume point with a hit latched (R307). -/
def stopHeld (s : State) (k snare : Nat) : State :=
  freePipe (s.modTeam k fun t => { t with state := .stopped, held := true, heldSnare := snare, clause := [], stalled := false }) k

/-- A team that a match has stopped on this edge stays READY after all: another match of the edge goes before its own (R307). -/
def unstop (s : State) (k snare : Nat) : State :=
  s.modTeam k fun t => if t.state = .stopped ∧ t.held = true ∧ t.heldSnare = snare then { t with state := .ready, held := false, heldSnare := 0 } else t

/-- The match that has stopped a team of a core on the current edge: the team's key and the snare (R307). -/
def edgeMatch (s : State) (core : Nat) : Option (Nat × Nat) :=
  match s.edge.get (128 + core) 0 with
  | 0 => none
  | n + 1 => some (n / 16, n % 16)

/-- A snare matches. Of several matches on one edge only the lowest snare, then the lowest pipe, stops its team; the others stay READY
with nothing of their instructions performed, and meet their snares again (R307). -/
def stopTeam (s : State) (k snare : Nat) : State :=
  let stop := fun (st : State) => { stopHeld st k snare with edge := st.edge.put (128 + keyCore k) (16 * k + snare + 1) }
  match edgeMatch s (keyCore k) with
  | none => stop s
  | some (k', n') => if snare < n' ∨ (snare = n' ∧ keyPipe k < keyPipe k') then stop (unstop s k' n') else s

/-- An access of an instruction that acts once for the lanes of a mask goes on unless a data snare stops the team (R307). -/
def withWide (s : State) (k : Nat) (t : Team) (m : Mask) (kind : Nat) (ranges : List (Nat × Nat)) (go : Res) : Res :=
  match wideSnare s k t m kind ranges with
  | some n => .done (stopTeam s k n)
  | none => go

/-! ## Issue -/

/-- The team's slot issues: it is READY, has its clause, waits for no handler store and on no leaf (R113, R241, R297). -/
def canIssue (t : Team) : Bool :=
  decide (t.state = .ready) && !t.entering && !t.clause.isEmpty && t.busyLeaf.isNone

/-- The core clock is stopped, a swap request has reached the team's core, or its context is being saved and the team is not in handler mode, or the
context has failed: the team issues nothing (R63, R306). -/
def halted (s : State) (k : Nat) (t : Team) : Bool :=
  s.stopped || (s.core (keyCore k)).swap.isSome ||
    (match s.ctx t.oid with
    | some c => decide (c.state = .failed) || (decide (c.state = .saving) && !(t.handler || t.entering))
    | none => false)

/-- The lanes of X leave: E and p0 to p6 lose them (R119). -/
def dropLanes (t : Team) (x : Mask) : Team := { t with e := t.e &&& ~~~x, p := t.p.map fun q => (q.1, q.2 &&& ~~~x) }

/-- No lane is active and no predicate keeps one (R119). -/
def noLanes (t : Team) : Bool := !maskAny t.e t.width && t.p.all fun q => decide (7 ≤ q.1) || !maskAny q.2 t.width

/-- The instruction ends its team: exit.team, or an exit that leaves no lane (R119). -/
def endsTeam (i : Instr) (t : Team) : Bool :=
  match i with
  | .exitTeam _ => true
  | .exit f => noLanes (dropLanes t (lanesOf t f.g))
  | _ => false

/-- The teams of a gang that have not left it, by key; one in the save area keeps the key that it had (R99, R119). -/
def gangLeft (g : Gang) : List Nat := (List.range g.teams.length).filterMap fun x => if g.gone.contains x then none else g.teams[x]?

/-- The team is the last one of its kernel: every gang is placed, and every other team exits or has exited (R99). -/
def lastTeam (s : State) (k : Nat) (t : Team) : Bool :=
  let exits : Nat → Nat → Bool := fun g q => match s.team q with | some u => decide (u.gang = g ∧ (q = k ∨ u.state = .exiting)) | none => false
  (match s.kernel t.kernel with | some n => decide (n.pkt.nx * n.pkt.ny * n.pkt.nz ≤ n.nextGang) | none => false) &&
    s.gangs.all fun g => decide (g.2.kernel ≠ t.kernel) || (gangLeft g.2).all (exits g.1)

/-- The exit of a kernel's last team commits before a swap whose request reaches its core on that edge (R65). -/
def exitsFirst (i : Instr) (s : State) (k : Nat) (t : Team) : Bool :=
  endsTeam i t && lastTeam s k t && !s.stopped && (match (s.core (keyCore k)).swap with | some w => !w.begun | none => false) &&
    (match s.ctx t.oid with | some c => decide (c.state ≠ .failed ∧ c.state ≠ .saving) | none => true)

/-- A decode fault (R48): its frame's address is that of the word and its mask is E (R298, R337). -/
def decodeFault (s : State) (k : Nat) (t : Team) (bits : W64) : State :=
  raise s k { bits := bits, addr := wordAddr t.h t.i, mask := t.e }

/-- The wait record that an instruction has written when it waited. That of a bar.wait stays marked as saved, since the instruction
reads its object again (R222). -/
def waitsAs : Instr → WKind
  | .barWait _ => .saved
  | .hbarSync _ | .hbarWait _ => .hbar
  | .waitaddr _ => .addr
  | .rngAwait _ => .ring
  | .seqwait _ => .seq
  | _ => .none

/-- A wait record from a save area is that of the instruction at the resume point. -/
def claimWait (i : Instr) (t : Team) : Team := if t.waitKind = .saved then { t with waitKind := waitsAs i } else t

/-- The instruction word i reaches issue at State.sel, in a team that may issue it (R63, R65): the checks of R48 in their order, the PC snares (R307), the register
interlock (R33), a poisoned source (R206), then its meaning. A slot that is not READY issues nothing. -/
def issue (i : Instr) (s : State) (body : Nat → Team → State → Res) : State :=
  match s.selKey with
  | none => s
  | some k =>
    match s.team k with
    | none => s
    | some t0 =>
      let t := claimWait i t0
      if !canIssue t || (halted s k t && !exitsFirst i s k t) then s
      else if !classAdmits (hdrClass (curHdr t)) i.op then decodeFault s k t cIllegalClause
      else if !(i.check3 && dyn3 t i) then decodeFault s k t cIllegalOp
      else if !(i.check4 && dyn4 s t i) then decodeFault s k t cIllegalOperand
      else
        match pcSnare s k t i with
        | some n => stopTeam s k n
        | none =>
          if (allCodes s k t i).any fun c => (pendingCodes s k).contains c then finish k (.stall s)
          else
            match t.poison.find? fun p => (readCodes s k t i).any p.regs.contains with
            | some p =>
              raise (s.setTeam k { t with poison := t.poison.erase p }) k
                { bits := cUncorrectable, addr := p.addr, mask := t.e, origin := some (p.word, p.hdr) }
            | none => finish k (charge k (issueCycles t) (body k t s))

/-- An instruction whose guard has come to pass in no lane while it waited is done, and its wait with it (R221, R224). -/
def endWait (s : State) (k : Nat) : State :=
  match s.team k with
  | some u => if u.waitKind.resumes then s.setTeam k { u with waitKind := .none, wait := 0 } else s
  | none => s

/-- The meaning of an instruction that executes once for the team (R111): nothing happens when its guard passes in no
active lane. -/
def once (g : Guard) (body : Nat → Team → State → Res) (k : Nat) (t : Team) (s : State) : Res :=
  if teamRuns t g then body k t s else .commit (endWait s k)

/-- The same for an instruction that may resume: a guarded one acts again only if one of the lanes left to it is still active and
passes (R268, R305). -/
def onceLeft (g : Guard) (body : Nat → Team → State → Res) : Nat → Team → State → Res :=
  once g fun k t s => if g = .always ∨ maskAny (resumedLanes t g) t.width then body k t s else .commit (endWait s k)

/-- A team-wide fault: its mask is E ∩ guard pass (R298). -/
def teamTrap (s : State) (t : Team) (g : Guard) (bits addr : W64) : Res :=
  .trap s { bits := bits, addr := addr, mask := lanesOf t g }

/-! ## Return from a handler (R300) -/

/-- A cause of handler mode that its clause raises at its end, or before a word: its bits and the first one's frame are kept, and
the handler stays where it is (R299). -/
def holdAt (t : Team) (f : Frame) : Team :=
  let t1 := if t.epend = 0 then { t with lInst := f.inst, lHdr := f.hdr, lAddr := f.addr, lMask := f.mask } else t
  { t1 with epend := t1.epend ||| f.cause }

/-- The frame that the held causes of handler mode make (R300). -/
def nestedFrame (t : Team) : Team :=
  { t with ecause := t.epend ||| cNested, einst := t.lInst, ehdr := t.lHdr, eaddr := t.lAddr, emask := t.lMask, epend := 0, clause := [] }

/-- The held causes of handler mode are redelivered back to back (R300). -/
def reenter (s : State) (k : Nat) (t : Team) : State :=
  (freePipe s k).setTeam k { nestedFrame t with e := t.lMask, h := hentry s t, i := 0 }

/-- What the yields and sleeps of a handler's clause have asked for acts when rte ends it (R34, R116, R120). -/
def honourAsk (s : State) (k : Nat) (a : Ask) : State :=
  match s.team k with
  | none => s
  | some t =>
    let parked := a.yield && decide (a.sleep = 0) && deadlinePast s (keyCore k) && decide (t.state = .ready)
    let s1 := s.setTeam k { t with
      yielded := t.yielded || a.yield,
      wake := if a.sleep ≠ 0 then s.tick + a.sleep else t.wake,
      state := if t.state ≠ .ready then t.state else if a.sleep ≠ 0 then .sleeping else if parked then .parked else t.state,
      waitKind := if parked then .deadline else t.waitKind }
    if parked then bumpCounter s1 (keyCore k) 6 1 else s1

/-- A held frame is delivered at a resume point (R298, R347). -/
def deliverHeld (s : State) (k : Nat) (hdr : W64) : State :=
  match s.team k with
  | none => s
  | some t =>
    if t.pending = 0 then s
    else
      deliver (s.setTeam k { t with pending := 0, heldWord := 0, heldAddr := 0, atResume := false }) k
        { h := t.h, i := t.i, inst := t.heldWord, hdr := hdr, cause := t.pending ||| cAsync, addr := t.heldAddr, mask := t.e }

/-- Where rte and rte.up lead (R300): held causes re-enter the handler, but a SCRATCH among them goes to containment from the gang
level up (R296, log entry 62); otherwise handler mode ends, the store is free, E := %eexec, and the team resumes at %epc, or its frame
goes to containment at the team level. A vol or sx instruction that resumes acts on the lanes of %emask (R268). -/
def handlerEnd (s : State) (k : Nat) (t : Team) (up : Bool) : State :=
  if t.epend ≠ 0 then
    if t.epend &&& cScratch ≠ 0 then
      contain ((freeStore (freePipe s k) k).setTeam k { nestedFrame t with handler := false, e := t.eexec }) k 1
    else reenter s k t
  else
    let s1 := freeStore (freePipe s k) k
    if up then contain (s1.setTeam k { t with handler := false, e := t.eexec, clause := [] }) k 0
    else
      s1.setTeam k (regainWait { t with
        handler := false, e := t.eexec, h := epcH t.epc, i := epcI t.epc, clause := [], atResume := true, resumeLanes := lanesBack t })

/-- rte and rte.up end their clause as any word does that ends one: its sticky flags are set, its yields and sleeps act, a digest point
is recorded and its CCT count starts (R28, R34, R82, R120). -/
def returnFromHandler (s0 : State) (k : Nat) (t0 : Team) (up : Bool) : State :=
  let a := askOf t0
  let t := { setSticky t0 with asks := t0.asks.filter fun b => decide (b.handler ≠ t0.handler), cct := some (t0.h, s0.cycle), stalled := false }
  honourAsk (digestPoint (handlerEnd (s0.setTeam k t) k t up) k t) k a

end Sys2Proof.Machine
end

