-- ==== Sys2Proof/Machine/Alu.lean ====
section
/-! DEFINITION. The per-lane frame of the VR and VI forms (R128, R129, R144): sources read in every lane before D is
written, D written in the lanes that are active and pass the guard, or once when D is a scalar. -/

namespace Sys2Proof.Machine

/-- D := val in each lane of Lanes, or once with lane 0's value when D is S or KS (R111, R129). -/
def alu (g : Guard) (d : Opd) (wide : Bool) (k : Nat) (t : Team) (s : State) (val : Nat → W64) : Res :=
  if d.isSK then
    if teamRuns t g then .commit (writeD s k 0 true d val) else .commit s
  else .commit (writeD s k (lanesOf t g) wide d val)

/-- pD := val in each lane of Lanes (R122, R137). -/
def aluP (g : Guard) (d : Opd) (k : Nat) (t : Team) (s : State) (val : Nat → Bool) : Res :=
  .commit (writeP s k (lanesOf t g) d (maskOf t.width val))

/-- A source as an integer of a type (R17). -/
def intSrc (s : State) (k : Nat) (t : Team) (ty : ETy) (o : Opd) (L : Nat) : Int := intVal ty (opd s k t ty.wide o L)

/-- A source as the bits of a type. -/
def bitSrc (s : State) (k : Nat) (t : Team) (ty : ETy) (o : Opd) (L : Nat) : Nat := (narrow ty (opd s k t ty.wide o L)).toNat

/-- A source read as n32 whatever the type (R128). -/
def n32Src (s : State) (k : Nat) (t : Team) (o : Opd) (L : Nat) : Nat := (opd s k t false o L).toNat % 2 ^ 32

/-- The lowest and highest value of an integer type (R17). -/
def intLo (ty : ETy) : Int := if ETy.signed ty then -(2 ^ (ETy.width ty - 1) : Int) else 0
def intHi (ty : ETy) : Int := if ETy.signed ty then 2 ^ (ETy.width ty - 1) - 1 else 2 ^ ETy.width ty - 1

/-- Fit of R129, with the placement of R17. -/
def fit (ty : ETy) (sat : Bool) (r : Int) : W64 :=
  place ty (BitVec.ofInt 64 (if sat then (if r < intLo ty then intLo ty else if intHi ty < r then intHi ty else r) else r))

/-- A bit pattern of a BITS type as a result. -/
def fitBits (ty : ETy) (n : Nat) : W64 := place ty (BitVec.ofNat 64 n)

/-- A comparison of R137: 0 eq, 1 ne, 2 lt, 3 le, 4 gt, 5 ge. -/
def intCond (c : Nat) (a b : Int) : Bool :=
  match c with
  | 0 => decide (a = b)
  | 1 => decide (a ≠ b)
  | 2 => decide (a < b)
  | 3 => decide (a ≤ b)
  | 4 => decide (b < a)
  | _ => decide (b ≤ a)

/-- The combine of R137 and R148: 0 none, 1 and, 2 or, 3 xor. -/
def combine (m : Nat) (r c : Bool) : Bool :=
  match m with
  | 0 => r
  | 1 => r && c
  | 2 => r || c
  | _ => r ^^ c

end Sys2Proof.Machine
end

