-- ==== Sys2Proof/Machine/Float.lean ====
section
/-! DEFINITION. Floating-point formats, exact values, RoundToFormat and the NaN rule (R18, R19, R26, R27). Values are exact
dyadic numbers; a quotient or root carries a sticky bit, which says that the exact value lies strictly above m·2^e and
below (m + 1)·2^e in magnitude. -/

namespace Sys2Proof.Machine

/-- A float format (R18, R19). -/
structure Fmt where
  ebits : Nat
  mbits : Nat
  bias : Nat
  /-- e4m3: no infinity, one NaN of each sign (R19). -/
  noInf : Bool
  deriving DecidableEq, Repr

def fmtF64 : Fmt := { ebits := 11, mbits := 52, bias := 1023, noInf := false }
def fmtF32 : Fmt := { ebits := 8, mbits := 23, bias := 127, noInf := false }
def fmtF16 : Fmt := { ebits := 5, mbits := 10, bias := 15, noInf := false }
def fmtBf16 : Fmt := { ebits := 8, mbits := 7, bias := 127, noInf := false }
def fmtE4m3 : Fmt := { ebits := 4, mbits := 3, bias := 7, noInf := true }
def fmtE5m2 : Fmt := { ebits := 5, mbits := 2, bias := 15, noInf := false }

/-- The format of an element type; f16x2 elements are f16 (R18). -/
def fmtOf : ETy → Fmt
  | .f64 => fmtF64 | .f16 => fmtF16 | .f16x2 => fmtF16 | .bf16 => fmtBf16 | .e4m3 => fmtE4m3 | .e5m2 => fmtE5m2 | _ => fmtF32

def Fmt.width (f : Fmt) : Nat := 1 + f.ebits + f.mbits
/-- The largest exponent of a finite value. -/
def Fmt.emax (f : Fmt) : Int := if f.noInf then 8 else f.bias
/-- The exponent of the smallest normal value. -/
def Fmt.emin (f : Fmt) : Int := 1 - (f.bias : Int)
/-- The exponent of the smallest subnormal value. -/
def Fmt.esub (f : Fmt) : Int := f.emin - f.mbits
/-- The sign bit. -/
def Fmt.signBit (f : Fmt) (neg : Bool) : Nat := if neg then 2 ^ (f.ebits + f.mbits) else 0
/-- ±Inf, which e4m3 does not have: RoundToFormat writes a NaN of the sign instead (R26). -/
def Fmt.infBits (f : Fmt) (neg : Bool) : Nat := f.signBit neg + (if f.noInf then 0x7f else (2 ^ f.ebits - 1) * 2 ^ f.mbits)
/-- ±MaxFinite. -/
def Fmt.maxBits (f : Fmt) (neg : Bool) : Nat := f.signBit neg + (if f.noInf then 0x7e else (2 ^ f.ebits - 1) * 2 ^ f.mbits - 1)
/-- The canonical NaN (R18, R19). -/
def Fmt.nan (f : Fmt) : Nat := if f.noInf then 0x7f else (2 ^ f.ebits - 1) * 2 ^ f.mbits + 2 ^ (f.mbits - 1)

/-- The five exceptions: NV, DZ, OF, UF, NX, in the order of %fmode (R25). -/
abbrev Exc := BitVec 5
def excNV : Exc := 1
def excDZ : Exc := 2
def excOF : Exc := 4
def excUF : Exc := 8
def excNX : Exc := 16

/-- What float bits mean: a NaN, an infinity, or ±m·2^e with an optional sticky tail. -/
inductive FVal where
  | nan
  | inf (neg : Bool)
  | fin (neg : Bool) (m : Nat) (e : Int) (sticky : Bool)
  deriving DecidableEq, Repr

def fExp (f : Fmt) (x : Nat) : Nat := x / 2 ^ f.mbits % 2 ^ f.ebits
def fMant (f : Fmt) (x : Nat) : Nat := x % 2 ^ f.mbits
def fNeg (f : Fmt) (x : Nat) : Bool := x.testBit (f.ebits + f.mbits)
def isNaN (f : Fmt) (x : Nat) : Bool :=
  decide (fExp f x = 2 ^ f.ebits - 1) && (if f.noInf then decide (fMant f x = 7) else decide (fMant f x ≠ 0))
/-- A signalling NaN: quiet bit clear; e4m3 NaNs are all quiet (R18, R19). -/
def isSNaN (f : Fmt) (x : Nat) : Bool := isNaN f x && !f.noInf && !x.testBit (f.mbits - 1)
def isInf (f : Fmt) (x : Nat) : Bool := !f.noInf && decide (fExp f x = 2 ^ f.ebits - 1 ∧ fMant f x = 0)
def isZero (f : Fmt) (x : Nat) : Bool := decide (fExp f x = 0 ∧ fMant f x = 0)
def isSub (f : Fmt) (x : Nat) : Bool := decide (fExp f x = 0 ∧ fMant f x ≠ 0)

/-- The value of float bits (R18, R19). -/
def unpack (f : Fmt) (x : Nat) : FVal :=
  if isNaN f x then .nan
  else if isInf f x then .inf (fNeg f x)
  else if fExp f x = 0 then .fin (fNeg f x) (fMant f x) f.esub false
  else .fin (fNeg f x) (2 ^ f.mbits + fMant f x) (f.esub + (fExp f x - 1 : Nat)) false

/-! ## Modes -/

/-- What a float instruction takes from %fmode and M (R25, R26). rm: 0 RNE, 1 RTZ, 2 RDN, 3 RUP. -/
structure FEnv where
  rm : Nat
  ftzi : Bool
  ftzo : Bool
  nanl : Bool
  mmxl : Bool
  cvtl : Bool
  sat : Bool
  deriving DecidableEq, Repr

/-- The environment of a VR word: M[9:7] selects the rounding, M[6] is SAT (R43). -/
def fenv (t : Team) (m : BitVec 10) : FEnv :=
  { rm := if fld m 7 3 = 0 then bitsAt t.fmode.toNat 0 2 else fld m 7 3 - 1
    ftzi := t.fmode.getLsbD 3, ftzo := t.fmode.getLsbD 4, nanl := t.fmode.getLsbD 5, mmxl := t.fmode.getLsbD 6,
    cvtl := t.fmode.getLsbD 7, sat := m.getLsbD 6 }

/-- RNE with no flushing, canonical NaNs, no SAT: what .fadd, mma and slot conversion use (R29, R169, R210). -/
def plainEnv : FEnv := { rm := 0, ftzi := false, ftzo := false, nanl := false, mmxl := false, cvtl := false, sat := false }

/-! ## Rounding (R26) -/

/-- The number of bits of m. -/
def bitLen (m : Nat) : Nat := if m = 0 then 0 else Nat.log2 m + 1

/-- |x| = m·2^e, sticky, rounded to a multiple of 2^q: the multiple and whether it differs from x. -/
def roundAt (rm : Nat) (neg : Bool) (m : Nat) (e : Int) (sticky : Bool) (q : Int) : Nat × Bool :=
  if q ≤ e then (m * 2 ^ (e - q).toNat, sticky)
  else
    let d := (q - e).toNat
    if bitLen m + 1 < d then
      let inex := decide (m ≠ 0) || sticky
      (if inex && ((rm = 2 && neg) || (rm = 3 && !neg)) then 1 else 0, inex)
    else
      let n := m / 2 ^ d
      let r := m % 2 ^ d
      let half := 2 ^ (d - 1)
      let inex := decide (r ≠ 0) || sticky
      let up :=
        match rm with
        | 0 => decide (half < r) || (decide (r = half) && (sticky || decide (n % 2 = 1)))
        | 1 => false
        | 2 => neg && inex
        | _ => !neg && inex
      (if up then n + 1 else n, inex)

/-- OverflowValue of R26. -/
def overflowBits (f : Fmt) (rm : Nat) (neg : Bool) : Nat :=
  if rm = 0 ∨ (rm = 2 ∧ neg = true) ∨ (rm = 3 ∧ neg = false) then f.infBits neg else f.maxBits neg

/-- The bits of ±n·2^q, a value of the format. -/
def packFin (f : Fmt) (neg : Bool) (n : Nat) (q : Int) : Nat :=
  if n = 0 then f.signBit neg
  else
    let ex := (Nat.log2 n : Int) + q
    if ex < f.emin then f.signBit neg + n * 2 ^ (q - f.esub).toNat / 2 ^ (f.esub - q).toNat
    else
      let n' := n * 2 ^ (q - (ex - f.mbits)).toNat / 2 ^ ((ex - f.mbits) - q).toNat
      f.signBit neg + (ex - f.emin + 1).toNat * 2 ^ f.mbits + (n' - 2 ^ f.mbits)

/-- RoundToFormat of R26 for a value that is no NaN: the bits and the exceptions. -/
def roundTo (f : Fmt) (v : FEnv) : FVal → Nat × Exc
  | .nan => (f.nan, 0)
  | .inf neg =>
    if v.sat then (f.maxBits neg, 0) else if f.noInf then (f.infBits neg, excNV) else (f.infBits neg, 0)
  | .fin neg m e sticky =>
    if m = 0 ∧ sticky = false then (f.signBit neg, 0)
    else
      let ex : Int := (bitLen m : Int) - 1 + e
      let q := ex - f.mbits
      let (n, inex) := roundAt v.rm neg m e sticky q
      let ey : Int := (bitLen n : Int) - 1 + q
      if f.emax < ey ∨ (f.noInf = true ∧ ey = f.emax ∧ n = 15) then
        (if v.sat then f.maxBits neg else overflowBits f v.rm neg, excOF ||| excNX)
      else if ey < f.emin then
        if v.ftzo then (f.signBit neg, excUF ||| excNX)
        else
          let (n', inex') := roundAt v.rm neg m e sticky f.esub
          (packFin f neg n' f.esub, if inex' then excUF ||| excNX else 0)
      else (packFin f neg n q, if inex then excNX else 0)

/-! ## NaN results (R27) -/

/-- A NaN input written into a format: quiet bit set, payload cut or extended at its low end; e4m3 has none. -/
def convNaN (src dst : Fmt) (x : Nat) : Nat :=
  if dst.noInf then dst.signBit (fNeg src x) + 0x7f
  else
    let m := fMant src x ||| 2 ^ (src.mbits - 1)
    dst.signBit (fNeg src x) + (2 ^ dst.ebits - 1) * 2 ^ dst.mbits + m * 2 ^ (dst.mbits - src.mbits) / 2 ^ (src.mbits - dst.mbits)

/-- NaNResult: the canonical NaN, or with NANL the first NaN input in the order A, B, C (R27). -/
def nanResult (dst : Fmt) (v : FEnv) (ins : List (Fmt × Nat)) : Nat :=
  if v.nanl then
    match ins.find? fun p => isNaN p.1 p.2 with
    | some p => convNaN p.1 dst p.2
    | none => dst.nan
  else dst.nan

/-- Invalid from a signalling-NaN input (R27). -/
def snanExc (ins : List (Fmt × Nat)) : Exc := if ins.any fun p => isSNaN p.1 p.2 then excNV else 0

/-- The result of an operation from its exact value: rounded, or a NaN under R27. -/
def deliverF (dst : Fmt) (v : FEnv) (ins : List (Fmt × Nat)) (r : FVal × Exc) : Nat × Exc :=
  match r.1 with
  | .nan => (nanResult dst v ins, r.2 ||| snanExc ins)
  | x => let p := roundTo dst v x; (p.1, p.2 ||| r.2 ||| snanExc ins)

/-! ## Inputs (R43, R143) -/

/-- FTZI: a subnormal input is a zero of its sign. -/
def ftzIn (f : Fmt) (v : FEnv) (x : Nat) : Nat := if v.ftzi && isSub f x then f.signBit (fNeg f x) else x

/-- abs, then neg, on the sign bit. -/
def applyMods (f : Fmt) (neg abs : Bool) (x : Nat) : Nat :=
  let y := if abs then x % 2 ^ (f.ebits + f.mbits) else x
  if neg then y ^^^ 2 ^ (f.ebits + f.mbits) else y

/-! ## Exact operations -/

/-- ±m·2^e as an integer multiple of 2^q, q ≤ e. -/
def signedAt (neg : Bool) (m : Nat) (e q : Int) : Int :=
  let n : Int := (m * 2 ^ (e - q).toNat : Nat)
  if neg then -n else n

/-- The exact sum of two values. A sum that is exactly zero keeps the common sign of its terms when both are zero of one
sign; otherwise it is −0 in RDN and +0 in every other mode (IEEE 754-2019). -/
def addF (rm : Nat) (a b : FVal) : FVal × Exc :=
  match a, b with
  | .nan, _ | _, .nan => (.nan, 0)
  | .inf x, .inf y => if x = y then (.inf x, 0) else (.nan, excNV)
  | .inf x, _ => (.inf x, 0)
  | _, .inf y => (.inf y, 0)
  | .fin na ma ea _, .fin nb mb eb _ =>
    if ma = 0 ∧ mb = 0 then (.fin (if na = nb then na else decide (rm = 2)) 0 0 false, 0)
    else
      let q := if ea ≤ eb then ea else eb
      let n := signedAt na ma ea q + signedAt nb mb eb q
      (.fin (if n = 0 then decide (rm = 2) else decide (n < 0)) n.natAbs q false, 0)

/-- The exact product; 0 × ∞ is invalid. -/
def mulF (a b : FVal) : FVal × Exc :=
  match a, b with
  | .nan, _ | _, .nan => (.nan, 0)
  | .inf x, .inf y => (.inf (x ^^ y), 0)
  | .inf x, .fin y m _ _ => if m = 0 then (.nan, excNV) else (.inf (x ^^ y), 0)
  | .fin x m _ _, .inf y => if m = 0 then (.nan, excNV) else (.inf (x ^^ y), 0)
  | .fin x m e _, .fin y n g _ => (.fin (x ^^ y) (m * n) (e + g) false, 0)

/-- a × b + c exactly; 0 × ∞ is invalid even when c is a quiet NaN (R146). -/
def fmaF (rm : Nat) (a b c : FVal) : FVal × Exc :=
  let p := mulF a b
  let r := addF rm p.1 c
  (r.1, p.2 ||| r.2)

/-- Negation of a value. -/
def negF : FVal → FVal
  | .nan => .nan
  | .inf x => .inf !x
  | .fin x m e s => .fin (!x) m e s

/-- a < b for values that are no NaN. -/
def ltF (a b : FVal) : Bool :=
  match a, b with
  | .nan, _ | _, .nan => false
  | .inf x, .inf y => x && !y
  | .inf x, .fin .. => x
  | .fin .., .inf y => !y
  | .fin na ma ea _, .fin nb mb eb _ =>
    let q := if ea ≤ eb then ea else eb
    decide (signedAt na ma ea q < signedAt nb mb eb q)

/-- a = b for values that are no NaN; +0 equals −0. -/
def eqF (a b : FVal) : Bool :=
  match a, b with
  | .nan, _ | _, .nan => false
  | .inf x, .inf y => decide (x = y)
  | .inf _, .fin .. => false
  | .fin .., .inf _ => false
  | .fin na ma ea _, .fin nb mb eb _ =>
    let q := if ea ≤ eb then ea else eb
    decide (signedAt na ma ea q = signedAt nb mb eb q)

/-- minimumNumber and maximumNumber, MMXL = 0 (R147): the bits and the exceptions. -/
def minmaxNum (f : Fmt) (v : FEnv) (mx : Bool) (a b : Nat) : Nat × Exc :=
  let ex := snanExc [(f, a), (f, b)]
  if isNaN f a && isNaN f b then (nanResult f v [(f, a), (f, b)], ex)
  else if isNaN f a then (b, ex)
  else if isNaN f b then (a, ex)
  else if isZero f a && isZero f b then (if fNeg f a != mx then a else b, ex)
  else if ltF (unpack f a) (unpack f b) then (if mx then b else a, ex) else (if mx then a else b, ex)

/-- The legacy forms a < b ? a : b and a > b ? a : b (R147). -/
def minmaxLegacy (f : Fmt) (v : FEnv) (mx : Bool) (a b : Nat) : Nat × Exc :=
  let ex := snanExc [(f, a), (f, b)]
  let ua := unpack f a
  let ub := unpack f b
  if (if mx then ltF ub ua else ltF ua ub) then (a, ex)
  else if isNaN f b then (nanResult f v [(f, b)], ex)
  else (b, ex)

/-! ## Integral values -/

/-- The integer nearest ±m·2^e in a mode, and whether it differs (R152, R155). -/
def roundInt (rm : Nat) (neg : Bool) (m : Nat) (e : Int) : Int × Bool :=
  let (n, inex) := roundAt rm neg m e false 0
  (if neg then -(n : Int) else n, inex)

/-- Floor(log2 m·2^e), m > 0. -/
def floorLog2 (m : Nat) (e : Int) : Int := (Nat.log2 m : Int) + e

/-! ## Quotients and roots -/

/-- n / d to at least 66 bits, with a sticky bit: ±q·2^e. -/
def divF (neg : Bool) (m : Nat) (e : Int) (n : Nat) (g : Int) : FVal :=
  let k := 66 + bitLen n
  let x := m * 2 ^ k
  .fin neg (x / n) (e - g - k) (decide (x % n ≠ 0))

/-- The integer square root of n by bits from bit b down. -/
def isqrt (n : Nat) : Nat → Nat → Nat
  | r, 0 => r
  | r, b + 1 => let r' := r + 2 ^ b; if r' * r' ≤ n then isqrt n r' b else isqrt n r b

/-- √(m·2^e) to at least 66 bits, with a sticky bit. -/
def sqrtF (m : Nat) (e : Int) : FVal :=
  let m1 := if e % 2 = 0 then m else 2 * m
  let e1 := if e % 2 = 0 then e else e - 1
  let x := m1 * 2 ^ 134
  let r := isqrt x 0 (bitLen x / 2 + 1)
  .fin false r (e1 / 2 - 67) (decide (r * r ≠ x))

end Sys2Proof.Machine
end

