-- ==== Sys2Proof/Machine/Bounded.lean ====
section
/-! DEFINITION. The bounded-error forms of R150 and R151. The exact value is enclosed by fixed-point arithmetic of 192
fraction bits. The result is the free value of Config where that lies within the form's bound of the exact value, and the
correctly rounded value otherwise, so it is a value that the bound admits (log entry 6). -/

namespace Sys2Proof.Machine

/-- ln 2 · 2^192, rounded down. -/
def fxLn2 : Nat := 0xb17217f7d1cf79abc9e3b39803f2f6af40f343267298b62d
/-- π/2 · 2^192, rounded down. -/
def fxHalfPi : Nat := 0x1921fb54442d18469898cc51701b839a252049c1114cf98e8
/-- 2/π · 2^400, rounded down. -/
def fxTwoOverPi : Nat := 0xa2f9836e4e441529fc2757d1f534ddc0db6295993c439041fe5163abdebbc561b7246e3a424dd2e006492eea09d1921cfe1d

/-- One, in fixed point. -/
def fxOne : Nat := 2 ^ 192

/-- Σ y^i / i! from term i on, with the term given, for n more terms. -/
def fxExpSum (y : Nat) : Nat → Nat → Nat → Nat
  | 0, _, _ => 0
  | n + 1, i, term => term + fxExpSum y n (i + 1) (term * y / fxOne / (i + 1))

/-- e^y for y in [0, 1), in fixed point. -/
def fxExp (y : Nat) : Nat := fxExpSum y 60 0 fxOne

/-- Σ ± y^(2i + s) / (2i + s)! with alternating signs: sine for s = 1, cosine for s = 0. -/
def fxTrigSum (y : Nat) : Nat → Nat → Int → Int
  | 0, _, _ => 0
  | n + 1, i, term => term + fxTrigSum y n (i + 2) (-(term * y / fxOne * y / fxOne / ((i + 1) * (i + 2))))

/-- Σ z^(2i+1) / (2i + 1). -/
def fxAtanhSum (z : Nat) : Nat → Nat → Nat → Nat
  | 0, _, _ => 0
  | n + 1, i, pw => pw / i + fxAtanhSum z n (i + 2) (pw * z / fxOne * z / fxOne)

/-- ±m·2^e in fixed point, rounded down. -/
def toFx (neg : Bool) (m : Nat) (e : Int) : Int :=
  let n : Int := (m * 2 ^ (e + 192).toNat / 2 ^ (-(e + 192)).toNat : Nat)
  if neg then -n else n

/-- 2^a for a = ±m·2^e of moderate size: an approximation with a sticky tail. -/
def approxExp2 (neg : Bool) (m : Nat) (e : Int) : FVal :=
  let a := toFx neg m e
  let n := Int.fdiv a fxOne
  let r := (Int.fmod a fxOne).toNat
  .fin false (fxExp (r * fxLn2 / fxOne)) (n - 192) true

/-- log2 of m·2^e, m > 0. -/
def approxLog2 (m : Nat) (e : Int) : FVal :=
  let l := Nat.log2 m
  let x := m * 2 ^ 192 / 2 ^ l
  let z := (x - fxOne) * fxOne / (x + fxOne)
  let fr := 2 * fxAtanhSum z 64 1 z * fxOne / fxLn2
  let total : Int := ((l : Int) + e) * fxOne + fr
  .fin (decide (total < 0)) total.natAbs (-192) true

/-- sin (q = 0) or cos (q = 1) of ±m·2^e: the argument is reduced by quarter turns, exactly (R150). -/
def approxSin (q : Nat) (neg : Bool) (m : Nat) (e : Int) : FVal :=
  let t := m * fxTwoOverPi * 2 ^ (e - 208).toNat / 2 ^ (-(e - 208)).toNat
  let quad := t / fxOne + q
  let y := t % fxOne * fxHalfPi / fxOne
  let v := if quad % 2 = 0 then fxTrigSum y 40 1 y else fxTrigSum y 40 0 fxOne
  let sg := decide (quad / 2 % 2 = 1) ^^ (neg && decide (q = 0)) ^^ decide (v < 0)
  .fin sg v.natAbs (-192) true

/-- tanh of ±m·2^e, |a| < 16. -/
def approxTanh (neg : Bool) (m : Nat) (e : Int) : FVal :=
  let y := 2 * (toFx false m e).toNat
  let n := y / fxLn2
  let t := fxExp (y - n * fxLn2) * 2 ^ n
  .fin neg ((t - fxOne) * fxOne / (t + fxOne)) (-192) true

/-- |x − y| ≤ bm·2^be for finite values. A y with a sticky tail lies between its digits and the next larger ones: both ends of that
interval are within the bound of x. -/
def closeF (x y : FVal) (bm : Nat) (be : Int) : Bool :=
  match x, y with
  | .fin nx mx ex _, .fin ny my ey st =>
    let q1 := if ex ≤ ey then ex else ey
    let q := if q1 ≤ be then q1 else be
    let near := fun (m : Nat) => decide (((signedAt nx mx ex q - signedAt ny m ey q).natAbs : Int) ≤ signedAt false bm be q)
    near my && (!st || near (my + 1))
  | _, _ => false

/-- The exponent of one ulp of a format at a value. -/
def ulpExp (f : Fmt) : FVal → Int
  | .fin _ m e _ =>
    let ex := floorLog2 m e
    (if ex < f.emin then f.emin else ex) - f.mbits
  | _ => 0

/-- A bounded form's result from the exact value (enclosed by x), the free bits, the bound in ulp, and the exponent of an
absolute bound if the form has one. An exact value that the format holds is delivered exactly. -/
def bounded (f : Fmt) (v : FEnv) (x : FVal) (raw : Nat) (ulps : Nat) (absExp : Option Int) : Nat × Exc :=
  let p := roundTo f { v with rm := 0 } x
  if p.2 &&& excNX = 0 ∨ p.2 &&& excOF ≠ 0 then p
  else
    let r := raw % 2 ^ f.width
    let ur := unpack f r
    let ok := closeF ur x ulps (ulpExp f x) || (match absExp with | some b => closeF ur x 1 b | none => false)
    if !ok then p
    else if fExp f r = 0 then (if v.ftzo then (f.signBit (fNeg f r), excUF ||| excNX) else (r, excUF ||| excNX))
    else (r, excNX)

/-- The free bits of a form: a fixed function of the type, the input bits and FTZI, FTZO and SAT (R150). -/
def freeKey (ty : ETy) (v : FEnv) : Nat :=
  ty.bits.toNat + (if v.ftzi then 16 else 0) + (if v.ftzo then 32 else 0) + (if v.sat then 64 else 0)

/-- An infinity or another special result that SAT may clamp (R26). -/
def special' (f : Fmt) (v : FEnv) (x : FVal) (e : Exc) : Nat × Exc := let p := roundTo f v x; (p.1, p.2 ||| e)

/-- ±1. -/
def oneF (neg : Bool) : FVal := .fin neg 1 0 false

/-- frcp (R150, R151). -/
def rcpF (ty : ETy) (v : FEnv) (a : Nat) : Nat × Exc :=
  let f := fmtOf ty
  match unpack f a with
  | .nan => deliverF f v [(f, a)] (.nan, 0)
  | .inf n => (f.signBit n, 0)
  | .fin n m e _ =>
    if m = 0 then special' f v (.inf n) excDZ
    else if ty = .f16 then roundTo f { v with rm := 0 } (divF n 1 0 m e)
    else bounded f v (divF n 1 0 m e) (Config.rawFrcp (freeKey ty v) a) 1 none

/-- frsq (R150, R151). -/
def rsqF (ty : ETy) (v : FEnv) (a : Nat) : Nat × Exc :=
  let f := fmtOf ty
  match unpack f a with
  | .nan => deliverF f v [(f, a)] (.nan, 0)
  | .inf false => (f.signBit false, 0)
  | .inf true => deliverF f v [] (.nan, excNV)
  | .fin n m e _ =>
    if m = 0 then special' f v (.inf n) excDZ
    else if n then deliverF f v [] (.nan, excNV)
    else
      -- 1/√x = √(1/x): 1/x to 400 bits, then its root
      let d := 2 ^ 400 / m
      let g := -400 - e
      let r := match sqrtF d g with | .fin s rm re st => FVal.fin s rm re (st || decide (2 ^ 400 % m ≠ 0)) | x => x
      if ty = .f16 then roundTo f { v with rm := 0 } r
      else bounded f v r (Config.rawFrsq (freeKey ty v) a) (if ty = .f64 then 1 else 2) none

/-- fsqrt, correctly rounded (R150, R151). -/
def fsqrtF (ty : ETy) (v : FEnv) (a : Nat) : Nat × Exc :=
  let f := fmtOf ty
  match unpack f a with
  | .nan => deliverF f v [(f, a)] (.nan, 0)
  | .inf false => special' f v (.inf false) 0
  | .inf true => deliverF f v [] (.nan, excNV)
  | .fin n m e _ =>
    if m = 0 then (f.signBit n, 0) else if n then deliverF f v [] (.nan, excNV) else roundTo f v (sqrtF m e)

/-- 2^x under the fexp2 bound, for the value x of a source whose bits are a (R150, R151). -/
def exp2V (ty : ETy) (v : FEnv) (x : FVal) (a : Nat) : Nat × Exc :=
  let f := fmtOf ty
  let hi : Int := if ty = .f16 then 16 else 128
  let lo : Int := if ty = .f16 then -25 else -150
  match x with
  | .nan => deliverF f v [(f, a)] (.nan, 0)
  | .inf false => special' f v (.inf false) 0
  | .inf true => (0, 0)
  | .fin n m e _ =>
    if m = 0 then roundTo f v (oneF false)
    else if !ltF x (.fin false hi.toNat 0 false) then roundTo f { v with rm := 0 } (.fin false 1 hi false)
    else if ltF x (.fin true (-lo).toNat 0 false) then (0, excUF ||| excNX)
    else
      -- |a| < 256: integral exactly when no fraction bit is set
      let fx := toFx n m e
      if 0 ≤ e ∨ m % 2 ^ (-e).toNat = 0 then roundTo f { v with rm := 0 } (.fin false 1 (Int.fdiv fx fxOne) false)
      else
        let low := decide (ty ≠ .f16) && ltF x (.fin true 126 0 false)
        bounded f v (approxExp2 n m e) (Config.rawFexp2 (freeKey ty v) a) (if low then 0 else if ty = .f16 then 1 else 2)
          (if low then some (-149) else none)

/-- fexp2 (R150, R151). -/
def exp2F (ty : ETy) (v : FEnv) (a : Nat) : Nat × Exc := exp2V ty v (unpack (fmtOf ty) a) a

/-- flog2 (R150, R151). -/
def log2F (ty : ETy) (v : FEnv) (a : Nat) : Nat × Exc :=
  let f := fmtOf ty
  match unpack f a with
  | .nan => deliverF f v [(f, a)] (.nan, 0)
  | .inf false => special' f v (.inf false) 0
  | .inf true => deliverF f v [] (.nan, excNV)
  | .fin n m e _ =>
    if m = 0 then special' f v (.inf true) excDZ
    else if n then deliverF f v [] (.nan, excNV)
    else if m = 2 ^ Nat.log2 m then
      let l := floorLog2 m e
      roundTo f { v with rm := 0 } (.fin (decide (l < 0)) l.natAbs 0 false)
    else
      let x := FVal.fin false m e false
      let mid := !ltF x (.fin false 1 (-1) false) && !ltF (.fin false 2 0 false) x
      bounded f v (approxLog2 m e) (Config.rawFlog2 (freeKey ty v) a) (if ty = .f16 then 1 else if mid then 0 else 2)
        (if ty ≠ .f16 ∧ mid = true then some (-22) else none)

/-- fsin and fcos (R150, R151). -/
def trigF (ty : ETy) (v : FEnv) (q : Nat) (raw : Nat → Nat → Nat) (a : Nat) : Nat × Exc :=
  let f := fmtOf ty
  match unpack f a with
  | .nan => deliverF f v [(f, a)] (.nan, 0)
  | .inf _ => deliverF f v [] (.nan, excNV)
  | .fin n m e _ =>
    if m = 0 then (if q = 0 then (f.signBit n, 0) else roundTo f v (oneF false))
    else bounded f v (approxSin q n m e) (raw (freeKey ty v) a) (if ty = .f16 then 1 else 2) (some (if ty = .f16 then -11 else -24))

/-- ftanh (R150, R151): ±1 from 9.1 in f32 and from 4.5 in f16, inexact because it differs from the exact value. DEDUCED
(log entry 7). -/
def tanhF (ty : ETy) (v : FEnv) (a : Nat) : Nat × Exc :=
  let f := fmtOf ty
  match unpack f a with
  | .nan => deliverF f v [(f, a)] (.nan, 0)
  | .inf n => roundTo f v (oneF n)
  | .fin n m e _ =>
    if m = 0 then (f.signBit n, 0)
    else
      -- 9.1 = 91/10 and 4.5 = 45/10, compared exactly: 10·|a|
      let big := !ltF (.fin false (10 * m) e false) (.fin false (if ty = .f16 then 45 else 91) 0 false)
      if big then let p := roundTo f v (oneF n); (p.1, p.2 ||| excNX)
      else bounded f v (approxTanh n m e) (Config.rawFtanh (freeKey ty v) a) (if ty = .f16 then 1 else 2) none

end Sys2Proof.Machine
end

