-- ==== Sys2Proof/Machine/FloatOps.lean ====
section
/-! DEFINITION. The float and conversion forms, opcodes 0x080 to 0x09c (R143 to R159). -/

namespace Sys2Proof.Machine

/-! ## The frame: exceptions, flags and reports (R28, R143) -/

/-- The trap enables of %fmode, NV at bit 0 (R25). -/
def trapEnables (t : Team) : Exc := t.fmode.extractLsb' 8 5

/-- The lanes that a float form computes in: Lanes, or for a scalar destination one lane that stands for the team. -/
def fpLanes (t : Team) (g : Guard) (d : Opd) : List Nat :=
  let ls := maskLanes (lanesOf t g) t.width
  if d.isSK then (match ls with | L :: _ => [L] | [] => if teamRuns t g then [0] else []) else ls

/-- The exceptions of a word are recorded: its flags, and the report of its lowest trapping lane unless the clause has one
already (R28). -/
def noteFp (t : Team) (lanes : List Nat) (exc : Nat → Exc) : Team :=
  let t1 := { t with fpFlags := lanes.foldl (fun acc L => acc ||| exc L) t.fpFlags }
  match lanes.find? fun L => decide (exc L &&& trapEnables t ≠ 0) with
  | none => t1
  | some L =>
    if t.fpReport.isSome ∨ t.fpQuiet = some t.h then t1
    else { t1 with fpReport := some { word := curWord t, i := t.i, lane := L, cause := cFp (exc L &&& trapEnables t) } }

/-- A float word commits: write, flags, report. In handler mode a word with an enabled exception has no effect and its
cause is held (R299, log entry 18). -/
def fpCommit (k : Nat) (t : Team) (s : State) (lanes : List Nat) (exc : Nat → Exc) (write : State → State) : Res :=
  match if t.handler then lanes.find? fun L => decide (exc L &&& trapEnables t ≠ 0) else none with
  | some L => .trap s { bits := cFp (exc L &&& trapEnables t), addr := BitVec.ofNat 64 (t.i % 32 + L % 1024 * 2 ^ 16), mask := maskOf 1024 fun l => decide (l = L) }
  | none => .commit ((write s).modTeam k fun u => noteFp u lanes exc)

/-- The frame of R143: val gives the result bits and the exceptions of a lane. -/
def fpForm (g : Guard) (d : Opd) (wide : Bool) (ty : ETy) (k : Nat) (t : Team) (s : State) (val : Nat → Nat × Exc) : Res :=
  let lanes := fpLanes t g d
  let rs : Table (Nat × Exc) := lanes.map fun L => (L, val L)
  let res := fun L => (rs.get L (0, 0)).1
  let exc := fun L => (rs.get L (0, 0)).2
  fpCommit k t s lanes exc fun s =>
    if d.isSK then (match lanes with | L :: _ => writeD s k 0 wide d fun _ => fitBits ty (res L) | [] => s)
    else writeD s k (lanesOf t g) wide d fun L => fitBits ty (res L)

/-! ## Sources -/

/-- One float element after FTZI and the modifiers at bits hi (neg) and hi − 1 (abs) of M (R43, R143). -/
def fpElem (f : Fmt) (v : FEnv) (m : BitVec 10) (hi : Nat) (x : Nat) : Nat :=
  applyMods f (m.getLsbD hi) (m.getLsbD (hi - 1)) (ftzIn f v x)

/-- Element h of a packed pair (R18). -/
def halfOf (x h : Nat) : Nat := x / 2 ^ (16 * h) % 2 ^ 16

/-- An operation on one element, or on both elements of f16x2 independently with their exceptions merged (R143). -/
def onElems (ty : ETy) (op : (Nat → Nat) → Nat × Exc) : Nat × Exc :=
  if ty = .f16x2 then
    let lo := op fun x => halfOf x 0
    let hi := op fun x => halfOf x 1
    (lo.1 + hi.1 * 2 ^ 16, lo.2 ||| hi.2)
  else op id

/-- A form of three float sources with the R43 modifiers at 5, 3 and 1. -/
def fpForm3 (i : Instr) (f : VR) (op : Fmt → FEnv → Nat → Nat → Nat → Nat × Exc) (s : State) : Out :=
  .next (issue i s fun k t s =>
    let v := fenv t f.m
    let fm := fmtOf f.t
    fpForm f.g f.d f.t.wide f.t k t s fun L =>
      let a := bitSrc s k t f.t f.a L
      let b := bitSrc s k t f.t f.b L
      let c := bitSrc s k t f.t f.c L
      onElems f.t fun e => op fm v (fpElem fm v f.m 5 (e a)) (fpElem fm v f.m 3 (e b)) (fpElem fm v f.m 1 (e c)))

/-! ## Arithmetic (R146, R147) -/

def execFadd (f : VR) (s : State) : Out :=
  fpForm3 (.fadd f) f (fun fm v a b _ => deliverF fm v [(fm, a), (fm, b)] (addF v.rm (unpack fm a) (unpack fm b))) s
def execFsub (f : VR) (s : State) : Out :=
  fpForm3 (.fsub f) f (fun fm v a b _ => deliverF fm v [(fm, a), (fm, b)] (addF v.rm (unpack fm a) (negF (unpack fm b)))) s
def execFmul (f : VR) (s : State) : Out :=
  fpForm3 (.fmul f) f (fun fm v a b _ => deliverF fm v [(fm, a), (fm, b)] (mulF (unpack fm a) (unpack fm b))) s
/-- a × b + c of one format, fused. -/
def fmaElem (fm : Fmt) (v : FEnv) (a b c : Nat) : Nat × Exc :=
  deliverF fm v [(fm, a), (fm, b), (fm, c)] (fmaF v.rm (unpack fm a) (unpack fm b) (unpack fm c))
def execFfma (f : VR) (s : State) : Out := fpForm3 (.ffma f) f fmaElem s

/-- a × 2^n (R146). -/
def scaleF (x : FVal) (n : Int) : FVal := match x with | .fin s m e st => .fin s m (e + n) st | y => y

def execFscale (f : VR) (s : State) : Out :=
  .next (issue (.fscale f) s fun k t s =>
    let v := fenv t f.m
    let fm := fmtOf f.t
    fpForm f.g f.d f.t.wide f.t k t s fun L =>
      let a := bitSrc s k t f.t f.a L
      let n := ((opd s k t false f.b L).truncate 32).toInt
      onElems f.t fun e =>
        let x := fpElem fm v f.m 5 (e a)
        deliverF fm v [(fm, x)] (scaleF (unpack fm x) n, 0))

/-- fmin and fmax: the IEEE rule, or the legacy rule with MMXL (R147). -/
def minmax (mx : Bool) (fm : Fmt) (v : FEnv) (a b _c : Nat) : Nat × Exc :=
  if v.mmxl then minmaxLegacy fm v mx a b else minmaxNum fm v mx a b
def execFmin (f : VR) (s : State) : Out := fpForm3 (.fmin f) f (minmax false) s
def execFmax (f : VR) (s : State) : Out := fpForm3 (.fmax f) f (minmax true) s
def execFminl (f : VR) (s : State) : Out := fpForm3 (.fminl f) f (fun fm v a b _ => minmaxLegacy fm v false a b) s
def execFmaxl (f : VR) (s : State) : Out := fpForm3 (.fmaxl f) f (fun fm v a b _ => minmaxLegacy fm v true a b) s

/-! ## Comparison and classification (R148, R149) -/

/-- A condition of R148 on two sources: its truth and its exceptions. -/
def fpCond (fm : Fmt) (c a b : Nat) : Bool × Exc :=
  let un := isNaN fm a || isNaN fm b
  let x := unpack fm a
  let y := unpack fm b
  let r := match c with
    | 0 => !un && eqF x y
    | 1 => un || !eqF x y
    | 2 => !un && ltF x y
    | 3 => !un && (ltF x y || eqF x y)
    | 4 => !un && ltF y x
    | 5 => !un && (ltF y x || eqF x y)
    | 6 => un
    | _ => !un
  (r, if 2 ≤ c ∧ c ≤ 5 then (if un then excNV else 0) else snanExc [(fm, a), (fm, b)])

def execFcmp (f : VR) (s : State) : Out :=
  .next (issue (.fcmp f) s fun k t s =>
    let v := fenv t 0
    let fm := fmtOf f.t
    let lanes := maskLanes (lanesOf t f.g) t.width
    let rs : Table (Bool × Exc) := lanes.map fun L =>
      (L, fpCond fm (fld f.m 0 3) (fpElem fm v f.m 8 (bitSrc s k t f.t f.a L)) (fpElem fm v f.m 6 (bitSrc s k t f.t f.b L)))
    fpCommit k t s lanes (fun L => (rs.get L (false, 0)).2) fun s =>
      writeP s k (lanesOf t f.g) f.d (maskOf t.width fun L => combine (fld f.m 3 2) (rs.get L (false, 0)).1 ((opdP t f.c).getLsbD L)))

/-- The class bit of R149. -/
def fpClass (fm : Fmt) (x : Nat) : Nat :=
  let n := fNeg fm x
  if isNaN fm x then (if isSNaN fm x then 0 else 1)
  else if isInf fm x then (if n then 2 else 9)
  else if isZero fm x then (if n then 5 else 6)
  else if isSub fm x then (if n then 4 else 7)
  else (if n then 3 else 8)

def execFclass (f : VR) (s : State) : Out :=
  .next (issue (.fclass f) s fun k t s => alu f.g f.d false k t s fun L =>
    fitBits .n32 (2 ^ fpClass (fmtOf f.t) (bitSrc s k t f.t f.a L)))

/-! ## Bounded-error forms (R150, R151) -/

/-- A form of one source, element by element. -/
def fpForm1 (i : Instr) (f : VR) (op : FEnv → Nat → Nat × Exc) (s : State) : Out :=
  fpForm3 i f (fun _ v a _ _ => op v a) s

def execFrcp (f : VR) (s : State) : Out := fpForm1 (.frcp f) f (rcpF f.t) s
def execFrsq (f : VR) (s : State) : Out := fpForm1 (.frsq f) f (rsqF f.t) s
def execFsqrt (f : VR) (s : State) : Out := fpForm1 (.fsqrt f) f (fsqrtF f.t) s
def execFexp2 (f : VR) (s : State) : Out := fpForm1 (.fexp2 f) f (exp2F f.t) s
def execFlog2 (f : VR) (s : State) : Out := fpForm1 (.flog2 f) f (log2F f.t) s
def execFsin (f : VR) (s : State) : Out := fpForm1 (.fsin f) f (fun v a => trigF f.t v 0 Config.rawFsin a) s
def execFcos (f : VR) (s : State) : Out := fpForm1 (.fcos f) f (fun v a => trigF f.t v 1 Config.rawFcos a) s
def execFtanh (f : VR) (s : State) : Out := fpForm1 (.ftanh f) f (tanhF f.t) s

/-! ## Exponent, fraction, integral rounding (R152) -/

/-- fexpo's i32 bits and exceptions. -/
def expoF (fm : Fmt) (x : Nat) : Nat × Exc :=
  match unpack fm x with
  | .fin _ m e _ => if m = 0 then (2 ^ 31, 0) else ((BitVec.ofInt 32 (floorLog2 m e)).toNat, 0)
  | _ => (2 ^ 31 - 1, excNV)

def execFexpo (f : VR) (s : State) : Out :=
  .next (issue (.fexpo f) s fun k t s =>
    let v := fenv t f.m
    let fm := fmtOf f.t
    fpForm f.g f.d false .i32 k t s fun L => expoF fm (fpElem fm v f.m 5 (bitSrc s k t f.t f.a L)))

/-- ffract: the fraction rounded once and held below 1. -/
def fractF (fm : Fmt) (v : FEnv) (x : Nat) : Nat × Exc :=
  match unpack fm x with
  | .nan => deliverF fm v [(fm, x)] (.nan, 0)
  | .inf _ => deliverF fm v [] (.nan, excNV)
  | .fin n m e _ =>
    if m = 0 then (fm.signBit false, 0)
    else
      let fl := (roundInt 2 n m e).1
      let r := roundTo fm v (addF v.rm (.fin n m e false) (.fin (decide (0 < fl)) fl.natAbs 0 false)).1
      let one := (roundTo fm plainEnv (oneF false)).1
      (if r.1 = one then one - 1 else r.1, r.2)

def execFfract (f : VR) (s : State) : Out := fpForm3 (.ffract f) f (fun fm v a _ _ => fractF fm v a) s

/-- frnd: the integral value nearest a, of a's sign, without inexact. -/
def rndF (fm : Fmt) (v : FEnv) (x : Nat) : Nat × Exc :=
  match unpack fm x with
  | .fin n m e _ => ((roundTo fm v (.fin n (roundInt v.rm n m e).1.natAbs 0 false)).1, 0)
  | y => deliverF fm v [(fm, x)] (y, 0)

def execFrnd (f : VR) (s : State) : Out := fpForm3 (.frnd f) f (fun fm v a _ _ => rndF fm v a) s

/-! ## Dot and packed forms (R153) -/

def execFdot2 (f : VR) (s : State) : Out :=
  .next (issue (.fdot2 f) s fun k t s =>
    let v := fenv t f.m
    let fm := fmtOf f.t
    fpForm f.g f.d false .f32 k t s fun L =>
      let a := n32Src s k t f.a L
      let b := n32Src s k t f.b L
      let c := fpElem fmtF32 v f.m 1 (n32Src s k t f.c L)
      let el := fun x h m => fpElem fm v f.m m (halfOf x h)
      let a0 := el a 0 5
      let a1 := el a 1 5
      let b0 := el b 0 3
      let b1 := el b 1 3
      let p := mulF (unpack fm a0) (unpack fm b0)
      let q := mulF (unpack fm a1) (unpack fm b1)
      let u := addF v.rm p.1 q.1
      let w := addF v.rm u.1 (unpack fmtF32 c)
      deliverF fmtF32 v [(fm, a0), (fm, a1), (fm, b0), (fm, b1), (fmtF32, c)] (w.1, p.2 ||| q.2 ||| u.2 ||| w.2))

def execFpma (f : VR) (s : State) : Out := fpForm3 (.fpma f) f fmaElem s

/-! ## Conversion (R154, R155) -/

/-- CvtFloatToInt of R155: the integer and the exceptions. -/
def cvtFloatInt (fm : Fmt) (dt : ETy) (v : FEnv) (rndField : Nat) (x : Nat) : Int × Exc :=
  let legacy := v.cvtl && !v.sat
  let rm := if legacy && decide (rndField = 0) then 1 else v.rm
  let lo := intLo dt
  let hi := intHi dt
  let indef := if ETy.signed dt then lo else 0
  match unpack fm x with
  | .nan => (if legacy then indef else 0, excNV)
  | .inf n => (if legacy then indef else if n then lo else hi, excNV)
  | .fin n m e _ =>
    let r := roundInt rm n m e
    if r.1 < lo then (if legacy then indef else lo, excNV)
    else if hi < r.1 then (if legacy then indef else hi, excNV)
    else (r.1, if r.2 then excNX else 0)

def execCvt (f : VR) (s : State) : Out :=
  .next (issue (.cvt f) s fun k t s =>
    let v := fenv t f.m
    let st := ETy.ofBits (BitVec.ofNat 4 (fld f.m 0 4))
    fpForm f.g f.d f.t.wide f.t k t s fun L =>
      if st.isInt then
        let n := intSrc s k t st f.a L
        roundTo (fmtOf f.t) v (.fin (decide (n < 0)) n.natAbs 0 false)
      else
        let fm := fmtOf st
        let x := fpElem fm v f.m 5 (bitSrc s k t st f.a L)
        if f.t.isInt then
          let r := cvtFloatInt fm f.t v (fld f.m 7 3) x
          ((BitVec.ofInt 64 r.1).toNat, r.2)
        else deliverF (fmtOf f.t) v [(fm, x)] (unpack fm x, 0))

/-! ## Q16N (R22, R156, R157) -/

/-- The codebook magnitudes of R22, in 1/1024. -/
def q16Mag : Nat → Nat
  | 0 => 43 | 1 => 130 | 2 => 221 | 3 => 318 | 4 => 427 | 5 => 555 | 6 => 725 | _ => 1024

/-- The value of a Q16N code (R22). -/
def q16Val (c : Nat) : FVal :=
  if 8 ≤ c then .fin false (q16Mag (c - 8)) (-10) false else .fin true (q16Mag (7 - c)) (-10) false

/-- The index of the magnitude nearest |a/s|, a tie taking the smaller (R156). -/
def q16Index (ma : Nat) (ea : Int) (ms : Nat) (es : Int) : Nat :=
  ((List.range 7).find? fun j =>
    !ltF (.fin false ((q16Mag j + q16Mag (j + 1)) * ms) (es - 11) false) (.fin false ma ea false)).getD 7

/-- The code of a / s and the exceptions (R156). -/
def qntF (a b : Nat) : Nat × Exc :=
  match unpack fmtF32 a, unpack fmtF32 b with
  | .nan, _ | _, .nan | _, .inf _ => (8, excNV)
  | .inf n, .fin ns ms _ _ => if ms = 0 then (8, excNV) else (if n ^^ ns then 0 else 15, excNX)
  | .fin n ma ea _, .fin ns ms es _ =>
    if ms = 0 then (8, excNV)
    else
      let j := q16Index ma ea ms es
      (if n ^^ ns then 7 - j else 8 + j,
        if eqF (.fin false (q16Mag j * ms) (es - 10) false) (.fin false ma ea false) then 0 else excNX)

def execQnt (f : VR) (s : State) : Out :=
  .next (issue (.qnt f) s fun k t s =>
    let v := fenv t 0
    let kk := fld f.m 0 3
    fpForm f.g f.d false .b32 k t s fun L =>
      let r := qntF (ftzIn fmtF32 v (bitSrc s k t .f32 f.a L)) (ftzIn fmtF32 v (bitSrc s k t .f32 f.b L))
      let base := if f.c.isN then 0 else n32Src s k t f.c L
      ((base &&& (2 ^ 32 - 1 - 15 * 2 ^ (4 * kk))) ||| r.1 * 2 ^ (4 * kk), r.2))

def execDqnt (f : VR) (s : State) : Out :=
  .next (issue (.dqnt f) s fun k t s =>
    let v := fenv t f.m
    fpForm f.g f.d false f.t k t s fun L =>
      let c := n32Src s k t f.a L / 2 ^ (4 * fld f.m 0 3) % 16
      let b := ftzIn fmtF32 v (bitSrc s k t .f32 f.b L)
      deliverF (fmtOf f.t) v [(fmtF32, b)] (mulF (q16Val c) (unpack fmtF32 b)))

/-! ## Online softmax (R158) -/

/-- Exp2(x − m) for one of the two maxima; an exact difference that f32 does not hold keeps its bits for the free value
only. -/
def smxExp (v : FEnv) (ins : List (Fmt × Nat)) (x m : Nat) : Nat × Exc :=
  let ux := unpack fmtF32 x
  let um := unpack fmtF32 m
  if eqF ux um then (0x3f800000, 0)
  else
    match (addF 0 ux (negF um)).1 with
    | .nan => (nanResult fmtF32 v ins, snanExc ins)
    | d => exp2V .f32 v d (roundTo fmtF32 plainEnv d).1

/-- The four results of smx and its exceptions. -/
def smxF (v : FEnv) (a b c : Nat) : Nat × Nat × Nat × Nat × Exc :=
  let f := fmtF32
  let m := minmaxNum f v true a c
  let al := smxExp v [(f, a), (f, c)] a m.1
  let be := smxExp v [(f, a), (f, c)] c m.1
  let p := mulF (unpack f b) (unpack f al.1)
  let s := match p.1 with
    | .nan => (nanResult f v [(f, a), (f, b), (f, c)], p.2)
    | x => let r := roundTo f { v with rm := 0 } x; (r.1, r.2)
  (m.1, s.1, al.1, be.1, m.2 ||| al.2 ||| be.2 ||| s.2 ||| snanExc [(f, a), (f, b), (f, c)])

def execSmx (f : VR) (s : State) : Out :=
  .next (issue (.smx f) s fun k t s =>
    let v := fenv t 0
    let lanes := maskLanes (lanesOf t f.g) t.width
    let rs : Table (Nat × Nat × Nat × Nat × Exc) := lanes.map fun L =>
      (L, smxF v (ftzIn fmtF32 v (bitSrc s k t .f32 f.a L)) (ftzIn fmtF32 v (bitSrc s k t .f32 f.b L))
        (ftzIn fmtF32 v (bitSrc s k t .f32 f.c L)))
    let r := fun L => rs.get L (0, 0, 0, 0, 0)
    fpCommit k t s lanes (fun L => (r L).2.2.2.2) fun s =>
      let put := fun s d (g : Nat → Nat) => writeD s k (lanesOf t f.g) false (Opd.next f.d d) fun L => BitVec.ofNat 64 (g L)
      let s1 := put s 0 fun L => (r L).1
      let s2 := put s1 1 fun L => (r L).2.1
      let s3 := put s2 2 fun L => (r L).2.2.1
      put s3 3 fun L => (r L).2.2.2.1)

/-! ## Relative-position buckets (R159) -/

/-- Floor(m · ln(n/e) / ln(D/e)), at most m − 1, for D > e and n ≥ e: the largest j with (D/e)^j ≤ (n/e)^m, on integers. -/
def logBucket (m n e D : Nat) : Nat → Nat
  | 0 => 0
  | j + 1 => if D ^ (j + 1) * e ^ m ≤ n ^ m * e ^ (j + 1) then j + 1 else logBucket m n e D j

/-- The bucket of R159. -/
def relbk (bi : Bool) (a : Int) (D : Nat) : Nat :=
  let nb := if bi then 16 else 32
  let off := if bi && decide (0 < a) then 16 else 0
  let n := if bi then a.natAbs else (-a).toNat
  let e := nb / 2
  off + (if n < e then n else if D ≤ e then nb - 1 else e + logBucket (nb - e) n e D (nb - e - 1))

def execRelbk (f : VR) (s : State) : Out :=
  .next (issue (.relbk f) s fun k t s => alu f.g f.d false k t s fun L =>
    fitBits .n32 (relbk (f.m.getLsbD 0) ((opd s k t false f.a L).truncate 32).toInt (n32Src s k t f.b L)))

end Sys2Proof.Machine
end

