-- ==== Sys2Proof/Machine/CrossLane.lean ====
section
/-! DEFINITION. Cross-lane instructions, opcodes 0x140 to 0x146 but msync (R123 to R127). -/

namespace Sys2Proof.Machine

/-- The participants in ascending lane order (R123). -/
def participants (t : Team) (g : Guard) : List Nat := maskLanes (lanesOf t g) t.width

/-! ## Votes (R123) -/

/-- 0 any, 1 all, 2 uni. -/
def voteResult (mode : Nat) (bits : List Bool) : Bool :=
  match mode with
  | 0 => bits.any id
  | 1 => bits.all id
  | _ => bits.all id || !bits.any id

def execVote (f : VR) (s : State) : Out :=
  .next (issue (.vote f) s fun k t s =>
    let r := voteResult f.m.toNat ((participants t f.g).map fun L => (opdP t f.a).getLsbD L)
    aluP f.g f.d k t s fun _ => r)

/-- Lanes 64j to 64j + 63 of the participants with A set (R123). -/
def execBallot (f : VR) (s : State) : Out :=
  .next (issue (.ballot f) s fun k t s => alu f.g f.d true k t s fun _ =>
    (lanesOf t f.g &&& opdP t f.a).extractLsb' (64 * fld f.m 0 4) 64)

/-! ## Shuffle (R124) -/

/-- The largest power of two at most n, n between 1 and 1,024. -/
def floorPow2 (n : Nat) : Nat := 2 ^ Nat.log2 n

/-- The source lane of shfl: 0 idx, 1 up, 2 down, 3 xor. -/
def shflLane (mode seg b L : Nat) : Nat :=
  let k := L % seg
  let base := L - k
  match mode with
  | 0 => base + b % seg
  | 1 => if b ≤ k then L - b else L
  | 2 => if k + b < seg then L + b else L
  | _ => base + (k ^^^ b) % seg

/-- A lane or segment operand of shfl: with a 32-bit type a scalar register supplies its bits [31:0] (R17). -/
def shflIndex (ty : ETy) (v : W64) : Nat := if ty.wide then v.toNat else v.toNat % 2 ^ 32

def execShfl (f : VR) (s : State) : Out :=
  .next (issue (.shfl f) s fun k t s => alu f.g f.d f.t.wide k t s fun L =>
    let seg := if f.c.isN then t.width else floorPow2 (Nat.min (Nat.max (shflIndex f.t (opd s k t false f.c L)) 1) t.width)
    fitBits f.t (bitSrc s k t f.t f.a (shflLane (fld f.m 0 2) seg (shflIndex f.t (opd s k t false f.b L)) L)))

/-! ## Reductions and scans (R125) -/

/-- One step on bit patterns: 0 add, 1 min, 2 max, 3 and, 4 or, 5 xor. FTZI, NaN quieting and invalid apply to the two inputs of each
step, intermediate results among them. An element that no step combines, a single participant or the first lane of a scan, is
delivered as it stands, as R125's text does. DEDUCED (log entry 64): R27 and R125 do not say which of the two holds there. -/
def redOp (ty : ETy) (op : Nat) (v : FEnv) (a b : Nat) : Nat × Exc :=
  let int := fun (g : Int → Int → Int) =>
    ((fit ty false (g (intVal ty (BitVec.ofNat 64 a)) (intVal ty (BitVec.ofNat 64 b)))).toNat % 2 ^ ETy.width ty, (0 : Exc))
  match op with
  | 0 =>
    if ty = .f32 then
      let x := ftzIn fmtF32 v a
      let y := ftzIn fmtF32 v b
      deliverF fmtF32 v [(fmtF32, x), (fmtF32, y)] (addF v.rm (unpack fmtF32 x) (unpack fmtF32 y))
    else int (· + ·)
  | 1 => if ty = .f32 then minmaxNum fmtF32 v false (ftzIn fmtF32 v a) (ftzIn fmtF32 v b) else int fun x y => if x ≤ y then x else y
  | 2 => if ty = .f32 then minmaxNum fmtF32 v true (ftzIn fmtF32 v a) (ftzIn fmtF32 v b) else int fun x y => if x ≤ y then y else x
  | 3 => (a &&& b, 0)
  | 4 => (a ||| b, 0)
  | _ => (a ^^^ b, 0)

/-- The identity of an operation (R125). -/
def redIdentity (ty : ETy) (op : Nat) : Nat :=
  let w := ETy.width ty
  match op with
  | 1 => if ty = .f32 then fmtF32.infBits false else (intHi ty).toNat
  | 2 => if ty = .f32 then fmtF32.infBits true else (BitVec.ofInt 64 (intLo ty)).toNat % 2 ^ w
  | 3 => 2 ^ w - 1
  | _ => 0

/-- One level of the tree: pairs combined in lane order, an odd last element unchanged. An element is its lowest lane and
its bits; the exceptions of a step belong to the left element's lane. -/
def rdcLevel (op : Nat → Nat → Nat × Exc) : List (Nat × Nat) → List (Nat × Nat) × List (Nat × Exc)
  | a :: b :: r =>
    let x := op a.2 b.2
    let q := rdcLevel op r
    ((a.1, x.1) :: q.1, (a.1, x.2) :: q.2)
  | l => (l, [])

/-- The whole tree, level by level. -/
def rdcTree (op : Nat → Nat → Nat × Exc) : Nat → List (Nat × Nat) → List (Nat × Nat) × List (Nat × Exc)
  | 0, l => (l, [])
  | n + 1, l =>
    let q := rdcLevel op l
    let r := rdcTree op n q.1
    (r.1, q.2 ++ r.2)

/-- The exceptions of a lane in a list of steps. -/
def excOf (es : List (Nat × Exc)) (L : Nat) : Exc := es.foldl (fun acc e => if e.1 = L then acc ||| e.2 else acc) 0

/-- The environment of rdc and scan: M[6:4] is the rounding (R125). -/
def redEnv (t : Team) (m : BitVec 10) : FEnv :=
  let v := fenv t 0
  if fld m 4 3 = 0 then v else { v with rm := fld m 4 3 - 1 }

def execRdc (f : VR) (s : State) : Out :=
  .next (issue (.rdc f) s fun k t s =>
    let op := fld f.m 0 3
    let ls := participants t f.g
    let q := rdcTree (redOp f.t op (redEnv t f.m)) 10 (ls.map fun L => (L, bitSrc s k t f.t f.a L))
    let r := match q.1 with | x :: _ => x.2 | [] => redIdentity f.t op
    fpCommit k t s ls (excOf q.2) fun s =>
      if f.d.isSK then (if teamRuns t f.g then writeD s k 0 f.t.wide f.d fun _ => fitBits f.t r else s)
      else writeD s k (lanesOf t f.g) f.t.wide f.d fun _ => fitBits f.t r)

/-- The prefixes of Scan: for each lane its inclusive result, what came before it, and its exceptions. -/
def scanList (op : Nat → Nat → Nat × Exc) : Option Nat → Nat → List (Nat × Nat) → List (Nat × Nat × Nat × Exc)
  | _, _, [] => []
  | none, ident, (L, a) :: r => (L, a, ident, 0) :: scanList op (some a) ident r
  | some acc, ident, (L, a) :: r =>
    let x := op acc a
    (L, x.1, acc, x.2) :: scanList op (some x.1) ident r

def execScan (f : VR) (s : State) : Out :=
  .next (issue (.scan f) s fun k t s =>
    let op := fld f.m 0 3
    let ls := participants t f.g
    let q := scanList (redOp f.t op (redEnv t f.m)) none (redIdentity f.t op) (ls.map fun L => (L, bitSrc s k t f.t f.a L))
    let tab : Table (Nat × Nat × Exc) := q
    fpCommit k t s ls (fun L => (tab.get L (0, 0, 0)).2.2) fun s =>
      writeD s k (lanesOf t f.g) f.t.wide f.d fun L =>
        let x := tab.get L (0, 0, 0)
        fitBits f.t (if f.m.getLsbD 3 then x.2.1 else x.1))

/-! ## isect (R127) -/

def execIsect (f : VR) (s : State) : Out :=
  .next (issue (.isect f) s fun k t s =>
    let ls := participants t f.g
    let xs := ls.map fun L => bitSrc s k t f.t f.a L
    let ys : Table Nat := ls.map fun L => (L, bitSrc s k t f.t f.b L)
    let cut := Nat.min (xs.getLastD 0) ((ys.map (·.2)).getLastD 0)
    let n := (xs.filter fun x => decide (x ≤ cut)).length + (ys.filter fun y => decide (y.2 ≤ cut)).length * 2 ^ 32
    let s1 := writeD s k (lanesOf t f.g) false f.d fun L =>
      let a := bitSrc s k t f.t f.a L
      match ys.find? fun y => decide (y.2 = a) with
      | some y => BitVec.ofNat 64 (2 ^ 31 + y.1)
      | none => 0
    .commit (writeS s1 k f.c (if ls.isEmpty then 0 else BitVec.ofNat 64 n)))

end Sys2Proof.Machine
end

