-- ==== Sys2Proof/Machine/HistTables.lean ====
section
/-! DEFINITION. The tables of a history bank and how they learn (R70 to R84). -/

namespace Sys2Proof.Machine

/-- A field of a bit vector replaced. -/
def putBits {n : Nat} (x : BitVec n) (lo w v : Nat) : BitVec n :=
  BitVec.ofNat n (x.toNat - bitsAt x.toNat lo w * 2 ^ lo + v % 2 ^ w * 2 ^ lo)

/-- A signed field. -/
def signedField (x lo w : Nat) : Int :=
  let v := bitsAt x lo w
  if 2 ^ (w - 1) ≤ v then (v : Int) - 2 ^ w else v

/-! ## Entries -/

def Hist.sptEntry (h : Hist) (i : Nat) : Nat := bitsAt h.spt.toNat (96 * i) 96
/-- The reserved bits of an SPT entry, [95:87], and of a TST entry, [95:85], stay zero (R5, R75). -/
def Hist.setSpt (h : Hist) (i v : Nat) : Hist := { h with spt := putBits h.spt (96 * i) 96 (v % 2 ^ 87) }
def Hist.rstEntry (h : Hist) (i : Nat) : Nat := bitsAt h.rst.toNat (3 * i) 3
def Hist.setRst (h : Hist) (i v : Nat) : Hist := { h with rst := putBits h.rst (3 * i) 3 v }
def Hist.cctEntry (h : Hist) (i : Nat) : Nat := bitsAt h.cct.toNat (8 * i) 8
def Hist.setCct (h : Hist) (i v : Nat) : Hist := { h with cct := putBits h.cct (8 * i) 8 v }
def Hist.tstEntry (h : Hist) (i : Nat) : Nat := bitsAt h.tst.toNat (96 * i) 96
def Hist.setTst (h : Hist) (i v : Nat) : Hist := { h with tst := putBits h.tst (96 * i) 96 (v % 2 ^ 85) }
/-- Freeze bits: 0 SPT, 1 RST, 2 CCT, 3 TST (R74). -/
def Hist.frozen (h : Hist) (i : Nat) : Bool := h.freeze.getLsbD i

/-- A learning event on the active bank of a core; an event of another OID is discarded (R70). -/
def learn (s : State) (core oid : Nat) (f : Hist → Hist) : State :=
  let c := s.core core
  let b := c.activeBank
  if b.owner = some oid then s.setCore core (c.setBank c.active { b with hist := f b.hist }) else s

/-- The state of an active bank: FROZEN, COLD or LEARNING (R77, R78). -/
inductive HState where
  | frozen | cold | learning
  deriving DecidableEq, Repr

/-- An active bank's state is a function of its contents (R78). It changes nothing but how the bank shows. -/
def Hist.state (h : Hist) : HState :=
  if h.freeze = 15 then .frozen
  else if h.spt = 0 ∧ h.rst = 0 ∧ h.cct = 0 ∧ h.tst = 0 then .cold
  else .learning

/-! ## Stride prefetch table (R79) -/

/-- An SPT entry from its fields. -/
def sptMake (conf tag : Nat) (stride : Int) (last : Nat) : Nat :=
  2 ^ 86 + conf * 2 ^ 84 + tag % 2 ^ 12 * 2 ^ 72 + (Int.emod stride (2 ^ 20)).toNat * 2 ^ 52 + last % 2 ^ 52

/-- SptTrain: the bank after training and the addresses to prefetch, nearest first. -/
def sptTrain (h : Hist) (pc a : Nat) : Hist × List Nat :=
  let i := bitsAt pc 3 6
  let e := h.sptEntry i
  let fz := h.frozen 0
  if e.testBit 86 = false ∨ bitsAt e 72 12 ≠ bitsAt pc 9 12 then
    (if fz then h else h.setSpt i (sptMake 0 (bitsAt pc 9 12) 0 a), [])
  else
    let conf := bitsAt e 84 2
    let stride := signedField e 52 20
    let d : Int := (a % 2 ^ 52 : Nat) - (bitsAt e 0 52 : Nat)
    let inr := decide (-524288 ≤ d ∧ d ≤ 524287)
    let conf' := if inr && decide (d = stride) then Nat.min (conf + 1) 3 else conf - 1
    let stride' := if (inr && decide (d = stride)) || decide (0 < conf) then stride else if inr then d else 0
    let cf := if fz then conf else conf'
    let st := if fz then stride else stride'
    let ps := if cf < 2 then [] else (List.range (cf - 1)).filterMap fun k =>
      let p : Int := a + (k + 1 : Nat) * st
      if p < 0 ∨ (2 : Int) ^ 80 ≤ p then none else some p.toNat
    (if fz then h else h.setSpt i (sptMake conf' (bitsAt e 72 12) stride' a), ps)

/-! ## Reuse signature table (R80) -/

def rstUp (h : Hist) (sig : Nat) : Hist := if h.frozen 1 then h else h.setRst sig (Nat.min (h.rstEntry sig + 1) 7)
def rstDown (h : Hist) (sig : Nat) : Hist := if h.frozen 1 then h else h.setRst sig (h.rstEntry sig - 1)
/-- The RRV of a fill. -/
def fillRrv (h : Hist) (sig : Nat) : Nat := if h.rstEntry sig = 0 then 3 else 2

/-! ## Clause criticality table (R82, R83) -/

/-- CctLearn: the floor rounds toward −∞. -/
def cctLearn (h : Hist) (header : W64) (w : Nat) : Hist :=
  if h.frozen 2 then h
  else
    let i := bitsAt header.toNat 3 8
    let e := h.cctEntry i
    h.setCct i ((e : Int) + Int.fdiv ((w : Int) - e) 4).toNat

/-- The priority of a clause. -/
def cctOf (h : Hist) (header : W64) : Nat := h.cctEntry (bitsAt header.toNat 3 8)

/-- The teams whose count of R82 has reached 255 at a core cycle: the cycle at which it began, the pipe, the key, the OID and the
header, in the order in which their updates come. -/
def cctDue (s : State) (now : Nat) : List (Nat × Nat × Nat × W64) :=
  (s.teams.filterMap fun e => match e.2.cct with
    | some (h, c) => if c + 255 ≤ now then some (8 * c + keyPipe e.1, e.1, e.2.oid, h) else none
    | none => none).foldr (fun x r => (r.takeWhile fun y => decide (y.1 < x.1)) ++ x :: r.dropWhile fun y => decide (y.1 < x.1)) []

/-- Counts that have reached 255 by a core cycle and that a condition on the team's key selects stop there, and their updates are made
(R82). -/
def expireCct (s : State) (now : Nat) (p : Nat → Bool) : State :=
  ((cctDue s now).filter fun x => p x.2.1).foldl (fun st x =>
    learn (st.modTeam x.2.1 fun t => { t with cct := none }) (keyCore x.2.1) x.2.2.1 fun b => cctLearn b x.2.2.2 255) s

/-! ## Core cycles -/

/-- The pipes of a core that hold a clause whose next word has stalled (R110). -/
def stalledPipes (s : State) (core : Nat) (c : Core) : Nat :=
  (c.pipes.filter fun p => match s.team (teamKey core c.active p.2) with | some t => t.stalled || t.busyLeaf.isSome | none => false).length

/-- Core cycles pass, and what has acted on the edge that begins is given: the cycles of stalled pipes are counted (R325), and the counts
of R82 that had reached 255 on an edge before come to their end (R72). While the core clock is stopped none passes. -/
def passCycles (s : State) (n : Nat) (edge : Table Nat) : State :=
  let m := if s.stopped then 0 else n
  let s1 := { s with cycle := s.cycle + m, edge := edge, cores := s.cores.map fun (c : Nat × Core) => (c.1, { c.2 with
    counters := c.2.counters.set 1 ((c.2.counters.getD 1 0 + m * stalledPipes s c.1 c.2) % 2 ^ 48) }) }
  expireCct s1 (s1.cycle - 1) fun _ => true

/-- The word that a core's pipe sweeps goes on, on the next edge, after something that no pipe issues has acted (R72). -/
def endEdge (s : State) (core : Nat) : State := passCycles s 1 [(core + 1, s.edge.get (core + 1) 0)]

/-! ## Tile-step table (R84) -/

/-- A TST entry from its fields. -/
def tstMake (conf tag : Nat) (sx sy sz : Int) (x y z : Nat) : Nat :=
  let f := fun (v : Int) => (Int.emod v 16).toNat
  2 ^ 84 + conf * 2 ^ 82 + tag % 2 ^ 10 * 2 ^ 72 + f sz * 2 ^ 68 + f sy * 2 ^ 64 + f sx * 2 ^ 60 +
    z % 2 ^ 20 * 2 ^ 40 + y % 2 ^ 20 * 2 ^ 20 + x % 2 ^ 20

/-- TstTrain: the bank after training and the tile to walk to. -/
def tstTrain (h : Hist) (pc : Nat) (x y z : Nat) : Hist × Option (Nat × Nat × Nat) :=
  let i := bitsAt pc 3 5
  let e := h.tstEntry i
  let fz := h.frozen 3
  if e.testBit 84 = false ∨ bitsAt e 72 10 ≠ bitsAt pc 8 10 then
    (if fz then h else h.setTst i (tstMake 0 (bitsAt pc 8 10) 0 0 0 x y z), none)
  else
    let conf := bitsAt e 82 2
    let sx := signedField e 60 4
    let sy := signedField e 64 4
    let sz := signedField e 68 4
    let dx : Int := x - (bitsAt e 0 20 : Nat)
    let dy : Int := y - (bitsAt e 20 20 : Nat)
    let dz : Int := z - (bitsAt e 40 20 : Nat)
    let fits := decide (-8 ≤ dx ∧ dx ≤ 7 ∧ -8 ≤ dy ∧ dy ≤ 7 ∧ -8 ≤ dz ∧ dz ≤ 7)
    let same := fits && decide (dx = sx ∧ dy = sy ∧ dz = sz)
    let conf' := if same then Nat.min (conf + 1) 3 else conf - 1
    let keep := same || decide (0 < conf)
    let nx := if keep then sx else if fits then dx else 0
    let ny := if keep then sy else if fits then dy else 0
    let nz := if keep then sz else if fits then dz else 0
    let cf := if fz then conf else conf'
    let ux : Int := x + (if fz then sx else nx)
    let uy : Int := y + (if fz then sy else ny)
    let uz : Int := z + (if fz then sz else nz)
    let inside := decide (0 ≤ ux ∧ ux < 2 ^ 20 ∧ 0 ≤ uy ∧ uy < 2 ^ 20 ∧ 0 ≤ uz ∧ uz < 2 ^ 20)
    (if fz then h else h.setTst i (tstMake conf' (bitsAt e 72 10) nx ny nz x y z),
      if 2 ≤ cf ∧ inside = true then some (ux.toNat, uy.toNat, uz.toNat) else none)

/-! ## Images (R73 to R76) -/

/-- The image of a bank, 2,048 bytes as one little-endian number. -/
def Hist.image (h : Hist) (oid core : Nat) : Nat :=
  oid % 2 ^ 12 + core * 2 ^ 16 + 1 * 2 ^ 24 + h.freeze.toNat * 2 ^ 32 + h.status.toNat * 2 ^ 48 +
    h.spt.toNat * 2 ^ (8 * 0x040) + h.rst.toNat * 2 ^ (8 * 0x340) + h.cct.toNat * 2 ^ (8 * 0x4c0) + h.tst.toNat * 2 ^ (8 * 0x5c0)

/-- The image is valid: version 1 and every reserved byte, bit and field bit zero (R76). -/
def imageValid (img : Nat) : Bool :=
  decide (bitsAt img 24 8 = 1 ∧ bitsAt img 12 4 = 0 ∧ bitsAt img 36 12 = 0 ∧ bitsAt img 56 456 = 0 ∧
    bitsAt img (8 * 0x740) (8 * 192) = 0) &&
  ((List.range 64).all fun i => decide (bitsAt img (8 * 0x040 + 96 * i + 87) 9 = 0)) &&
  ((List.range 32).all fun i => decide (bitsAt img (8 * 0x5c0 + 96 * i + 85) 11 = 0))

/-- The bank of an image, with a given status byte. -/
def imageHist (img status : Nat) : Hist :=
  { freeze := BitVec.ofNat 4 (bitsAt img 32 4), status := BitVec.ofNat 8 status,
    spt := BitVec.ofNat 6144 (bitsAt img (8 * 0x040) 6144), rst := BitVec.ofNat 3072 (bitsAt img (8 * 0x340) 3072),
    cct := BitVec.ofNat 2048 (bitsAt img (8 * 0x4c0) 2048), tst := BitVec.ofNat 3072 (bitsAt img (8 * 0x5c0) 3072) }

/-- Installation by staging: an invalid image leaves a cleared bank with status 1 (R76). -/
def stageHist (img : Nat) : Hist :=
  if imageValid img then imageHist img (bitsAt img 48 8) else { Hist.clear with status := 1 }

end Sys2Proof.Machine
end

