-- ==== Sys2Proof/Machine/Xlat.lean ====
section
/-! DEFINITION. Segments, the page walk, the TLB, accessed and dirty bits, page reasons and the wait for the host (R239 to
R249, R319). -/

namespace Sys2Proof.Machine

/-! ## Leaves and segments -/

def pteV (e : W64) : Bool := e.getLsbD 0
def pteW (e : W64) : Bool := e.getLsbD 1
def pteX (e : W64) : Bool := e.getLsbD 2
def pteBusy (e : W64) : Bool := e.getLsbD 3
def pteTier (e : W64) : Nat := bitsAt e.toNat 4 2
def pteFT (e : W64) : Bool := e.getLsbD 6
def pteD (e : W64) : Bool := e.getLsbD 7
def pteL (e : W64) : Bool := e.getLsbD 63
/-- The segment offset that the frame names (R240). -/
def pteOff (e : W64) : Nat := bitsAt e.toNat 18 34 * 2 ^ 18

/-- A feature bit is accepted (R312). -/
def featOn (s : State) (b : Nat) : Bool := s.dev.featLo.getLsbD b

/-- The range of device physical addresses of a tier (R243). -/
def tierRange (tier : Nat) : Nat × Nat :=
  match tier with
  | 0 => (0, 2 ^ 39)
  | 1 => (2 ^ 40, 2 ^ 41)
  | _ => (2 ^ 48, 2 ^ 52)

/-- Base and bound of a partition's segment for a tier (R242, R250). -/
def segment (s : State) (p tier : Nat) : Nat × Nat :=
  let q := s.part p
  match tier with
  | 0 => (q.segHbmBase.toNat, q.segHbmBound.toNat)
  | 1 => (q.segLpBase.toNat, q.segLpBound.toNat)
  | _ => (q.segCxBase.toNat, q.segCxBound.toNat)

/-- The segment of a tier is usable: it lies inside its range, and tier 2 is accepted (R243, R312). -/
def segUsable (s : State) (p tier : Nat) : Bool :=
  let g := segment s p tier
  let r := tierRange tier
  decide (r.1 ≤ g.1 ∧ g.1 + g.2 ≤ r.2) && (decide (tier < 2) || featOn s 2)

/-- The number that stands for a peer's device physical address on a port. -/
def peerPa (port pa : Nat) : Nat := 2 ^ 60 + port * 2 ^ 65 + pa
def isPeer (pa : Nat) : Bool := decide (2 ^ 60 ≤ pa)
def peerPort (pa : Nat) : Nat := (pa - 2 ^ 60) / 2 ^ 65
def peerAddr (pa : Nat) : Nat := (pa - 2 ^ 60) % 2 ^ 65

/-- The device physical address of a segment offset, or none: reason SEGMENT (R242, R319). -/
def segPa (s : State) (p tier off : Nat) : Option Nat :=
  if tier = 2 ∧ off.testBit 51 = true then
    let port := bitsAt off 47 4
    let w := bitsAt off 0 47
    let q := (s.part p).pwin
    if featOn s 2 = true ∧ w < (q.get (2 * port + 1) 0).toNat then some (peerPa port ((q.get (2 * port) 0).toNat + w)) else none
  else
    let g := segment s p tier
    if segUsable s p tier = true ∧ off < g.2 then some (g.1 + off) else none

/-! ## The walk (R239, R241) -/

/-- Page reasons (R247). -/
def rNotMapped : Nat := 1
def rFirstTouch : Nat := 2
def rPermission : Nat := 3
def rMalformed : Nat := 4
def rSegment : Nat := 5
def rQuota : Nat := 6
def rPoolEmpty : Nat := 7
def rUncorrTable : Nat := 8
def rPagedIn : Nat := 9
def rPoolFull : Nat := 10
def rUncorrData : Nat := 11
def rBadPool : Nat := 12

/-- What a walk finds. -/
inductive XRes where
  /-- A translation: the physical address and the leaf. -/
  | ok (pa leafPa : Nat) (leaf : W64) (large : Bool)
  /-- A leaf with BUSY = 1. -/
  | busy (leafPa : Nat) (leaf : W64)
  /-- A parked leaf. -/
  | parked (leafPa : Nat) (leaf : W64)
  | fail (reason : Nat) (leaf : W64)
  deriving DecidableEq, Repr

/-- Access bits: 1 read, 2 write, 4 execute (R248). -/
def accR : Nat := 1
def accW : Nat := 2
def accX : Nat := 4

/-- A table entry has V = 1, tier 0 or 1 and every other bit but frame and SW zero (R240). -/
def tableOk (e : W64) : Bool :=
  pteV e && decide (pteTier e < 2) && decide (bitsAt e.toNat 6 12 = 0 ∧ bitsAt e.toNat 1 3 = 0 ∧ bitsAt e.toNat 52 4 = 0 ∧ bitsAt e.toNat 63 1 = 0)

/-- A leaf is malformed (R240, R241). -/
def leafBad (e : W64) (large : Bool) : Bool :=
  decide (bitsAt e.toNat 52 4 ≠ 0 ∨ bitsAt e.toNat 9 9 ≠ 0) || (pteV e && pteFT e) ||
    (large && (decide (pteTier e = 3) || pteFT e || decide (bitsAt e.toNat 18 15 ≠ 0))) ||
    (decide (pteTier e = 3) && decide (bitsAt e.toNat 51 1 = 1) && pteV e)

/-- Classification of a leaf (R241, R319). -/
def leafResult (s : State) (p va acc q : Nat) (e : W64) (large : Bool) : XRes :=
  let off := pteOff e + (if large then va % 2 ^ 33 else va % 2 ^ 18)
  if !pteV e && !pteFT e then .fail rNotMapped e
  else if leafBad e large then .fail rMalformed e
  else if pteFT e then .fail rFirstTouch e
  else if pteBusy e then .busy q e
  else if pteTier e = 3 then
    if segUsable s p 2 = true ∧ pteOff e < (segment s p 2).2 then .parked q e else .fail rSegment e
  else if (decide (acc / 2 % 2 = 1) && !pteW e) || (decide (acc / 4 % 2 = 1) && !pteX e) then .fail rPermission e
  else
    match segPa s p (pteTier e) off with
    | some pa => .ok pa q e large
    | none => .fail rSegment e

/-- The walk below a table entry at level 5 − n: n = 4 for the root. -/
def walkTable (s : State) (p va acc : Nat) : Nat → W64 → XRes
  | 0, _ => .fail rMalformed 0
  | n + 1, e =>
    if !pteV e && !pteFT e then .fail rNotMapped 0
    else if !tableOk e then .fail rMalformed 0
    else
      match segPa s p (pteTier e) (pteOff e) with
      | none => .fail rSegment 0
      | some base =>
        let q := base + 8 * bitsAt va (18 + 15 * n) 15
        if badAt s q 8 then .fail rUncorrTable 0
        else
          let x := BitVec.ofNat 64 (homeNat s q 8)
          if n = 0 then
            if pteL x then (if !pteV x && !pteFT x then .fail rNotMapped x else .fail rMalformed x)
            else leafResult s p va acc q x false
          else if n = 1 ∧ pteL x = true then leafResult s p va acc q x true
          else walkTable s p va acc n x

/-- The partition of a context. -/
def ctxPart (s : State) (oid : Nat) : Nat := match s.ctx oid with | some c => c.partition | none => 0

/-- The walk of a context's tables. -/
def walk (s : State) (oid va acc : Nat) : XRes :=
  match s.ctx oid with
  | none => .fail rNotMapped 0
  | some c => walkTable s c.partition va acc 4 (c.roots.getD (bitsAt va 78 2) 0)

/-! ## TLB (R244, R245) -/

/-- The page number of an address. -/
def vpnOf (large : Bool) (va : Nat) : Nat := if large then va / 2 ^ 33 else va / 2 ^ 18

/-- The TLB entry that covers an address. -/
def tlbFind (k : Cluster) (oid va : Nat) : Option TlbEntry :=
  k.tlb.find? fun e => decide (e.oid = oid ∧ e.vpn = vpnOf e.large va)

/-- The TLB without the entries for an address. -/
def tlbDrop (k : Cluster) (oid va : Nat) : Cluster :=
  { k with tlb := k.tlb.filter fun e => !decide (e.oid = oid ∧ e.vpn = vpnOf e.large va) }

/-- A leaf installed in the TLB: the set's fill counter chooses the way (R11, R244). -/
def tlbInstall (k : Cluster) (oid va : Nat) (leafPa : Nat) (leaf : W64) (large : Bool) : Cluster :=
  let vpn := vpnOf large va
  let set := if large then 256 else vpn % 256
  let n := k.tlbFill.get set 0
  let way := if large then n % 256 else n % 16
  let keep := k.tlb.filter fun e =>
    !decide (e.large = large ∧ (large = true ∨ e.vpn % 256 = vpn % 256) ∧ e.way = way) && !decide (e.oid = oid ∧ e.vpn = vpnOf e.large va)
  { k with tlb := { oid := oid, large := large, vpn := vpn, leafPa := leafPa, leaf := leaf, way := way } :: keep,
           tlbFill := k.tlbFill.put set (n + 1) }

/-- The physical address through a cached leaf, if its permissions admit the access. A write through an entry whose cached
D is 0 looks at the leaf at its home slice, so that a changed leaf, or one that holds an error, is walked again (R245, R256). -/
def tlbUse (s : State) (p acc va : Nat) (e : TlbEntry) : Option Nat :=
  let wr := decide (acc / 2 % 2 = 1)
  let same := decide ((homeNat s e.leafPa 8) ||| 0x180 = e.leaf.toNat ||| 0x180) && !badAt s e.leafPa 8
  if (wr && !pteW e.leaf) || (decide (acc / 4 % 2 = 1) && !pteX e.leaf) || (wr && !pteD e.leaf && !same) then none
  else segPa s p (pteTier e.leaf) (pteOff e.leaf + (if e.large then va % 2 ^ 33 else va % 2 ^ 18))

/-- A at the leaf's home slice (R245). -/
def setA (s : State) (leafPa : Nat) (leaf : W64) : State :=
  if leaf.getLsbD 8 then s else homePutNat s none leafPa 8 (leaf ||| 0x100).toNat

/-- Translation of one access of a cluster: through the TLB, or by a walk that sets A and installs the leaf. The core whose
counter 5 the walk raises is given for a team access (R325). -/
def xlat (s : State) (core : Option Nat) (cl oid va acc : Nat) : State × XRes :=
  let k := s.cluster cl
  let p := ctxPart s oid
  match (tlbFind k oid va).bind fun e => (tlbUse s p acc va e).map fun pa => (e, pa) with
  | some (e, pa) => (s, .ok pa e.leafPa e.leaf e.large)
  | none =>
    let s0 := match core with | some c => bumpCounter s c 5 1 | none => s
    let s1 := s0.setCluster cl (tlbDrop (s0.cluster cl) oid va)
    match walk s1 oid va acc with
    | .ok pa q e large =>
      let s2 := setA s1 q e
      (s2.setCluster cl (tlbInstall (s2.cluster cl) oid va q (e ||| 0x100) large), .ok pa q e large)
    | r => (s1, r)

/-- The first write through an entry sets D at the home slice, and the entry caches it. When the instruction's other lanes have taken
the entry's way, D is set at the leaf itself (R245). -/
def setD (s : State) (cl oid va : Nat) : State :=
  match tlbFind (s.cluster cl) oid va with
  | none =>
    (match walk s oid va accW with
    | .ok _ q e _ => if pteD e then s else homePutNat s none q 8 (e ||| 0x80).toNat
    | _ => s)
  | some e =>
    if pteD e.leaf || badAt s e.leafPa 8 then s
    else
      let s1 := homePutNat s none e.leafPa 8 (homeNat s e.leafPa 8 ||| 0x80)
      let k := s1.cluster cl
      s1.setCluster cl { k with tlb := k.tlb.map fun x => if x = e then { x with leaf := x.leaf ||| 0x80 } else x }

/-! ## Records and the wait for the host (R247 to R249) -/

/-- Access bits as a record has them for an access: read, write, execute. -/
def pageRecord (s : State) (p oid va reason acc core slot : Nat) (leaf : W64) (extra : Nat) : State :=
  hostRecord s p { va := va, oid := oid, kind := 1, reason := reason, acc := acc, core := core, slot := slot,
                   detail := [(32, 8, leaf.toNat), (40, 8, extra)] }

/-- A record after which a team waits, unless the cluster's filter has it; a record that is discarded has not been reported, and the
filter does not take it (R248, R249). -/
def filteredRecord (s : State) (k : Nat) (t : Team) (va reason acc : Nat) (leaf : W64) (extra : Nat) : State :=
  let cl := clusterOf (keyCore k)
  let c := s.cluster cl
  let key := (t.oid, va / 2 ^ 18, acc)
  let p := ctxPart s t.oid
  if c.filter.contains key then s
  else
    let s1 := pageRecord s p t.oid va reason acc (keyCore k) (keySlot k) leaf extra
    if (s1.part p).fbHead = (s.part p).fbHead then s1 else s1.setCluster cl { c with filter := key :: c.filter }

/-- The wait record of R249. -/
def hostWaitRecord (s : State) (oid va reason acc : Nat) : BitVec 256 :=
  waitMake [(0, va % 2 ^ 80), (10, reason), (11, acc), (12, (s.part (ctxPart s oid)).fbGen)]

/-- The team becomes WAITING for the host at its resume point (R249). -/
def hostWait (s : State) (k : Nat) (t : Team) (va reason acc : Nat) (word hdr : W64) (mask : Mask) : State :=
  freePipe (s.modTeam k fun u => { u with
    state := .waiting, waitKind := .host, wait := hostWaitRecord s t.oid va reason acc, clause := [], busyLeaf := none,
    hostWord := word, hostHdr := hdr, hostMask := mask }) k

/-- A leaf that a page-in holds: BUSY is set (R240, R246). -/
def busyOf (leaf : W64) : W64 := leaf ||| 8

/-- Failures of engines' page-ins are forgotten: the engine has met them, or what demanded them has ended (R246). -/
def dropPageFails (s : State) (p : PageFail → Bool) : State := { s with pageFails := s.pageFails.filter fun f => !p f }

/-- A page-in of a parked leaf begins with the compare-and-swap that sets BUSY; where it fails, another page-in holds the leaf (R246). -/
def wantPageIn (s : State) (cl oid leafPa : Nat) (leaf : W64) (va acc : Nat) (team : Option Nat) (mask : Mask) (code : Nat) : State :=
  let c := homeCas s leafPa leaf (busyOf leaf)
  if c.2 then
    let f := c.1.fresh
    { f.2 with pageIns := f.2.pageIns.put f.1 { cluster := cl, oid := oid, leafPa := leafPa, leaf := leaf, va := va, acc := acc,
                                                team := team, mask := mask, code := code } }
  else s

/-- The team's access waits on a leaf; its pipe stays held (R110, R241). -/
def leafWait (s : State) (k leafPa : Nat) (leaf : W64) : State := s.modTeam k fun u => { u with busyLeaf := some (leafPa, leaf) }

/-! ## The checks of R200 -/

/-- Lanes with their addresses and outcomes. -/
abbrev LaneX := List (Nat × Nat × XRes)

/-- Every lane translated before any outcome acts (R200). -/
def xlatLanes (core cl oid acc : Nat) : List (Nat × Nat) → State → State × LaneX
  | [], s => (s, [])
  | (L, va) :: r, s =>
    let a := xlat s (some core) cl oid va acc
    let b := xlatLanes core cl oid acc r a.1
    (b.1, (L, va, a.2) :: b.2)

/-- A lane's failure reason. -/
def failOf : XRes → Option (Nat × W64) | .fail r e => some (r, e) | _ => none

/-- What the checks of R200 come to: the lanes with their physical addresses, or the end of the instruction. -/
inductive Chk where
  | go (s : State) (lanes : List (Nat × Nat × Nat))
  | stop (r : Res)

/-- A failing translation acts (R200, R247): a trap, or records and a wait for the host. -/
def failXlat (s : State) (k : Nat) (t : Team) (acc : Nat) (xs : LaneX) (va reason : Nat) : Res :=
  let same := xs.filter fun x => match failOf x.2.2 with | some (r, _) => decide (r = reason) | none => false
  let mask := maskOf 1024 fun L => same.any fun x => decide (x.1 = L)
  let a := BitVec.ofNat 64 va
  if reason = rFirstTouch then .trap s { bits := cPage ||| cReason reason, addr := a, mask := mask }
  else if reason = rUncorrTable then
    .trap (pageRecord s (ctxPart s t.oid) t.oid va reason acc (keyCore k) (keySlot k) 0 0) { bits := cUncorrectable, addr := a, mask := mask }
  else
    let s1 := same.foldl (fun st x => filteredRecord st k t x.2.1 reason acc ((failOf x.2.2).map (·.2) |>.getD 0) 0) s
    .done (hostWait s1 k t va reason acc (curWord t) (curHdr t) mask)

/-- The outcomes of the translated lanes: a page-in starts for each parked page; the lowest failing lane decides; otherwise a page-in
or a BUSY leaf is awaited; otherwise every lane goes (R200). -/
def actOnXlat (s : State) (k : Nat) (t : Team) (acc : Nat) (xs : LaneX) : Chk :=
  let cl := clusterOf (keyCore k)
  let s1 := xs.foldl (fun st x => match x.2.2 with
    | .parked q e => wantPageIn st cl t.oid q e x.2.1 acc (some k) (maskOf 1024 fun L => xs.any fun y =>
        decide (y.1 = L) && (match y.2.2 with | .parked q' _ => decide (q' = q) | _ => false)) 0
    | _ => st) s
  match xs.find? fun x => (failOf x.2.2).isSome with
  | some x => .stop (failXlat s1 k t acc xs x.2.1 ((failOf x.2.2).map (·.1) |>.getD 0))
  | none =>
    match xs.findSome? fun x => match x.2.2 with | .busy q e => some (q, e) | .parked q e => some (q, busyOf e) | _ => none with
    | some (q, e) => .stop (.done (leafWait s1 k q e))
    | none =>
      .go s1 (xs.filterMap fun x => match x.2.2 with | .ok pa _ _ _ => some (x.1, x.2.1, pa) | _ => none)

/-- Alignment, then translation and permission, of every lane (R200). -/
def permLanes (s : State) (k : Nat) (t : Team) (size acc : Nat) (lanes : List (Nat × Nat)) : Chk :=
  match lanes.find? fun p => decide (p.2 % size ≠ 0) with
  | some p =>
    .stop (.trap s { bits := cMisalign, addr := BitVec.ofNat 64 p.2,
                     mask := maskOf 1024 fun L => lanes.any fun q => decide (q.1 = L ∧ q.2 % size ≠ 0) })
  | none =>
    let cl := clusterOf (keyCore k)
    let x := xlatLanes (keyCore k) cl t.oid acc lanes s
    actOnXlat x.1 k t acc x.2

/-- The checks of R200, then D for a write (R245). -/
def checkLanes (s : State) (k : Nat) (t : Team) (size acc : Nat) (lanes : List (Nat × Nat)) : Chk :=
  match permLanes s k t size acc lanes with
  | .stop r => .stop r
  | .go s1 ls => .go (if acc / 2 % 2 = 1 then ls.foldl (fun st p => setD st (clusterOf (keyCore k)) t.oid p.2.1) s1 else s1) ls

/-- A fault of an instruction that acts once for the team: its mask is that of the lanes for which it acts, E ∩ guard pass
(R298). -/
def wideRes (k : Nat) (m : Mask) : Res → Res
  | .trap s c => .trap s { c with mask := m }
  | .done s =>
    let s1 := { s with pageIns := s.pageIns.map fun (p : Nat × PageIn) => (p.1, if p.2.team = some k then { p.2 with mask := m } else p.2) }
    .done (s1.modTeam k fun u => { u with hostMask := m })
  | r => r

/-- The checks of R200 for an instruction that acts once for the team. -/
def checkWide (s : State) (k : Nat) (t : Team) (g : Guard) (size acc : Nat) (lanes : List (Nat × Nat)) : Chk :=
  match checkLanes s k t size acc lanes with
  | .stop r => .stop (wideRes k (lanesOf t g) r)
  | c => c

/-! ## Engine access (R236, R246, R247) -/

/-- A reason that a failed page-in has recorded already, as the engine that demanded it meets it, and the reason itself (R246). -/
def notedReason (r : Nat) : Nat := r + 16
def reasonOf (r : Nat) : Nat := r % 16

/-- A failed page-in of a leaf that an engine demanded for a context at a cluster (R246). -/
def failsFor (q oid cl code : Nat) (f : PageFail) : Bool := decide (f.leafPa = q ∧ f.oid = oid ∧ f.cluster = cl ∧ f.code = code)

/-- The translation of an engine of a code (R98); D is set at once for a write, as engines set it (R245). A parked leaf starts a
page-in, and the engine's own attempt after its failed one meets its reason (R246). -/
def engineXlat (s : State) (code cl oid va acc : Nat) : State × XRes :=
  let x := xlat s none cl oid va acc
  let mine := fun (q : Nat) => failsFor q oid cl code
  match x.2 with
  | .ok _ q _ _ =>
    let s1 := if x.1.pageFails.any (mine q) then dropPageFails x.1 (mine q) else x.1
    (if acc / 2 % 2 = 1 then setD s1 cl oid va else s1, x.2)
  | .parked q e =>
    match x.1.pageFails.find? (mine q) with
    | some f => (dropPageFails x.1 (mine q), .fail (notedReason f.reason) e)
    | none => (wantPageIn x.1 cl oid q e va acc none 0 code, x.2)
  | _ => x

/-- What an engine's access to a range comes to: its pieces, a wait for a page-in, or a fault at an address. -/
inductive ERes where
  | ok (pieces : List (Nat × Nat × Nat))
  | wait
  | fault (reason va : Nat) (leaf : W64)
  deriving DecidableEq, Repr

/-- A range cut at page boundaries: address and length of each piece. -/
def cutPages : Nat → Nat → Nat → List (Nat × Nat)
  | 0, _, _ => []
  | fuel + 1, va, n => if n = 0 then [] else
    let m := Nat.min n (2 ^ 18 - va % 2 ^ 18)
    (va, m) :: cutPages fuel (va + m) (n - m)

/-- Every piece of a range translated for an engine; peer windows are not reached (R319). -/
def engineRange (code cl oid acc : Nat) : List (Nat × Nat) → State → State × ERes
  | [], s => (s, .ok [])
  | (va, n) :: r, s =>
    let x := engineXlat s code cl oid va acc
    match x.2 with
    | .ok pa _ e _ =>
      if isPeer pa then (x.1, .fault rSegment va e)
      else
        let b := engineRange code cl oid acc r x.1
        match b.2 with
        | .ok ps => (b.1, .ok ((va, pa, n) :: ps))
        | y => (b.1, y)
    | .fail reason e => (x.1, .fault reason va e)
    | _ => (x.1, .wait)

/-- A range of an engine access, translated. -/
def engineSpan (s : State) (code cl oid va n acc : Nat) : State × ERes := engineRange code cl oid acc (cutPages (n / 2 ^ 18 + 2) va n) s

/-- A record of an event that an engine caused: its access bits with the engine bit, core 0xff, its code (R248). A failed page-in has
written its own. -/
def engineRecord (s : State) (p oid va reason acc code : Nat) (leaf : W64) (extra : Nat) : State :=
  if reason = reasonOf reason then pageRecord s p oid va reason (acc + 8) 0xff code leaf extra else s

/-- The physical address that stands for a descriptor that cannot be reached: a hole of R243. -/
def noDesc : Nat := 2 ^ 39

/-- The bytes of translated pieces. -/
def spanBytes (s : State) (ps : List (Nat × Nat × Nat)) : List Byte := ps.flatMap fun p => homeBytes s p.2.1 p.2.2
/-- A piece that holds an uncorrectable error. -/
def spanBad (s : State) (ps : List (Nat × Nat × Nat)) : Option Nat := (ps.find? fun p => badAt s p.2.1 p.2.2).map (·.1)

/-- Bytes written over translated pieces, with whether part was dropped at an error (R256). -/
def spanWrite (s : State) (who : Option Nat) : List (Nat × Nat × Nat) → List Byte → State × Bool
  | [], _ => (s, false)
  | p :: r, bs =>
    let w := homeWrite s who p.2.1 (bs.take p.2.2)
    let x := spanWrite w.1 who r (bs.drop p.2.2)
    (x.1, w.2 || x.2)

end Sys2Proof.Machine
end

