-- ==== Sys2Proof/Machine/Flit.lean ====
section
/-! DEFINITION. Flits: the CRC, the layout, and sending one (R315, R318, R329). -/

namespace Sys2Proof.Machine

/-- One step of CRC-64/ECMA with a byte: polynomial 0x42f0e1eba9ea3693, no reflection. -/
def crcBits : Nat → W64 → W64
  | 0, c => c
  | n + 1, c => crcBits n (if c.getLsbD 63 then (c <<< 1) ^^^ 0x42f0e1eba9ea3693#64 else c <<< 1)
def crcByte (c : W64) (b : Byte) : W64 := crcBits 8 (c ^^^ (b ++ 0#56))
def crc64 (init : W64) (bs : List Byte) : W64 := bs.foldl crcByte init

/-- The port moves requests. -/
def portUp (s : State) (p : Nat) : Bool := decide ((s.port p).state = .active ∨ (s.port p).state = .degraded)
/-- Requests to the port fail. -/
def portDead (s : State) (p : Nat) : Bool := decide ((s.port p).state = .down ∨ (s.port p).state = .fenced)

/-- A flit without its check: kind, sequence, credits, stamp, payload (R315). -/
def flitBody (kind seq credits stamp : Nat) (payload : List Byte) : List Byte :=
  leBytes 1 kind ++ leBytes 1 seq ++ leBytes 2 credits ++ leBytes 4 0 ++ leBytes 8 stamp ++ (payload ++ List.replicate 232 0).take 232

/-- The check of a flit. -/
def flitCheck (body : List Byte) : List Byte := leBytes 8 (crc64 0 body).toNat

/-- A flit sent on a port: the Lamport clock, of 64 bits, advances and stamps it, it reports the receive buffers freed, and the replay
buffer holds it until the peer has freed its own (R315, R318). -/
def sendFlit (s : State) (port kind : Nat) (payload : List Byte) : State :=
  let lclk := Nat.max ((s.dev.lclk + 1) % 2 ^ 64) s.tick
  let p := s.port port
  let credits := Nat.min p.freed 0xffff
  let body := flitBody kind p.seq credits lclk payload
  let flit := body ++ flitCheck body
  { (s.setPort port { p with seq := (p.seq + 1) % 256, freed := p.freed - credits, replay := p.replay ++ [flit] }) with
    dev := { s.dev with lclk := lclk }, outbox := s.outbox ++ [(port, flit)] }

/-- A request that the peer answers with data: one of a load or returning atomic, and every compare-and-swap, since its old value
says whether it wrote (R211). -/
def asksOld (r : PeerReq) : Bool := r.load.isSome || decide (r.kind = 2 ∧ r.data.head? = some 9)

/-- The payload of a request: a 16-byte address header, then the data (log entry 14). -/
def requestPayload (r : PeerReq) : List Byte :=
  match r.kind with
  | 0 => leBytes 8 r.pa ++ r.data.take 1 ++ List.replicate 7 0
  | 1 => leBytes 8 r.pa ++ leBytes 1 r.data.length ++ List.replicate 7 0 ++ r.data
  | _ => leBytes 8 r.pa ++ (r.data.drop 1).take 1 ++ r.data.take 1 ++ leBytes 1 (if asksOld r then 1 else 0) ++ List.replicate 5 0 ++ r.data.drop 2

end Sys2Proof.Machine
end

