-- ==== Sys2Proof/Machine/Cache.lean ====
section
/-! DEFINITION. The L1, fills, stores on their way to a home slice, loads in flight, and what the order kinds do (R79 to
R81, R179 to R186, R203 to R206, R332). A load that misses is bound when its fill installs, when a later access of its team
meets its line, or when its data returns (log entry 5). Fills that a word of a sweep waits for end the edge on which the sweep stands
(R72). -/

namespace Sys2Proof.Machine

/-! ## Lines -/

def fusedL1 (s : State) (core : Nat) : Bool := (s.cluster (clusterOf core)).fused
/-- The slice of the L1 that serves a core at an address (R179). -/
def l1Slice (s : State) (core va : Nat) : Nat := if fusedL1 s core then 4 * clusterOf core + bitsAt va 7 2 else core
def l1Set (s : State) (core va : Nat) : Nat := if fusedL1 s core then bitsAt va 9 8 else bitsAt va 7 8
/-- The cores whose L1s serve a core. -/
def l1Cores (s : State) (core : Nat) : List Nat := if fusedL1 s core then (List.range 4).map (4 * clusterOf core + ·) else [core]

/-- A line of an OID at an address in the L1 that serves a core: slice, key, line. -/
def findLine (s : State) (core oid va : Nat) : Option (Nat × Nat × Line) :=
  let sl := l1Slice s core va
  ((s.core sl).l1.find? fun e => decide (e.1 / 8 = l1Set s core va ∧ e.2.vline = va / 128 ∧ e.2.oid = oid)).map fun e => (sl, e.1, e.2)

def setLine (s : State) (sl key : Nat) (l : Line) : State :=
  let c := s.core sl
  s.setCore sl { c with l1 := c.l1.put key l }
def dropLine (s : State) (sl key : Nat) : State :=
  let c := s.core sl
  s.setCore sl { c with l1 := c.l1.erase key }

/-- The L1 that serves a core serves another one too. -/
def sameL1 (s : State) (a b : Nat) : Bool := decide (a = b) || (decide (clusterOf a = clusterOf b) && fusedL1 s a)

/-- Bytes of a line. -/
def lineBytes (l : Line) (off n : Nat) : List Byte := leBytes n (bitsAt l.data.toNat (8 * off) (8 * n))

/-- Bytes put into the 128 bytes of a line. -/
def putLine (d : BitVec 1024) (off : Nat) (bs : List Byte) : BitVec 1024 :=
  BitVec.ofNat 1024 (d.toNat - bitsAt d.toNat (8 * off) (8 * bs.length) * 2 ^ (8 * off) + leNat bs * 2 ^ (8 * off))

/-- The runs of dirty bytes from byte i on, with n bytes left: start and length. -/
def dirtyRuns (m : BitVec 128) : Nat → Nat → Option Nat → List (Nat × Nat)
  | 0, i, some st => [(st, i - st)]
  | 0, _, none => []
  | n + 1, i, st =>
    if m.getLsbD i then dirtyRuns m n (i + 1) (some (st.getD i))
    else match st with
      | some a => (a, i - a) :: dirtyRuns m n (i + 1) none
      | none => dirtyRuns m n (i + 1) none

/-- The bytes of a mask as runs: offset in the line and bytes. -/
def maskedBytes (m : BitVec 128) (d : BitVec 1024) : List (Nat × List Byte) :=
  (dirtyRuns m 128 0 none).map fun r => (r.1, leBytes r.2 (bitsAt d.toNat (8 * r.1) (8 * r.2)))

/-- The masked bytes of new data over old data. -/
def overlay (old : BitVec 1024) (m : BitVec 128) (new : BitVec 1024) : BitVec 1024 :=
  (maskedBytes m new).foldl (fun d r => putLine d r.1 r.2) old

/-- A lane's bytes added to what its instruction writes to a line; a later lane stands over an earlier one (R186). -/
def LineWrite.add (w : LineWrite) (off : Nat) (bs : List Byte) : LineWrite :=
  { w with mask := w.mask ||| BitVec.ofNat 128 ((2 ^ bs.length - 1) * 2 ^ off), data := putLine w.data off bs }

/-- A write put into a line, dirty or clean (R180, R186). -/
def lineStore (l : Line) (w : LineWrite) (dirty : Bool) (writer cycle : Nat) : Line :=
  let l1 := { l with data := overlay l.data w.mask w.data }
  if dirty then { l1 with dirty := l.dirty ||| w.mask, writer := writer, since := if l.dirty = 0 then cycle else l.since } else l1

/-- A write without the bytes that a later lane's write covers through another address of the line (R186). -/
def LineWrite.cut (w : LineWrite) (off n : Nat) : LineWrite :=
  { w with mask := w.mask &&& ~~~BitVec.ofNat 128 ((2 ^ n - 1) * 2 ^ off) }

/-- The kernel of a team, for the stores it makes (R97). -/
def kernelOf (s : State) (k : Nat) : Option Nat := (s.team k).map (·.kernel)

/-- UNCORRECTABLE is held for a team, with its record (R206, R256, R320). -/
def holdUncorr (s : State) (k va acc : Nat) (word : W64) : State :=
  match s.team k with
  | none => s
  | some t =>
    pageRecord (s.setTeam k (holdCause t cUncorrectable word (BitVec.ofNat 64 va))) (ctxPart s t.oid) t.oid va rUncorrData acc (keyCore k) (keySlot k) 0 0

/-- A team's bytes accepted at a home slice; what falls into a granule with an error is dropped and held (R181, R256). -/
def teamHomeWrite (s : State) (k va pa : Nat) (bs : List Byte) (word : W64) : State :=
  let w := homeWrite s (kernelOf s k) pa bs
  if w.2 then holdUncorr w.1 k va accW word else w.1

/-- The bytes of a request accepted at the home slice of their line. -/
def sendLine (s : State) (k : Nat) (w : LineWrite) (word : W64) : State :=
  (maskedBytes w.mask w.data).foldl (fun st r => teamHomeWrite st k (128 * w.vline + r.1) (128 * w.pline + r.1) r.2 word) s

/-- A write-back: the dirty bytes are accepted at the home slice and the mask clears (R180). -/
def writeBack (s : State) (sl key : Nat) : State :=
  match (s.core sl).l1.find key with
  | none => s
  | some l =>
    if l.dirty = 0 then s
    else
      sendLine (setLine s sl key { l with dirty := 0, leaving := false }) l.writer
        { vline := l.vline, pline := l.pline, mask := l.dirty, data := l.data } 0

/-- A line written back if dirty and invalidated; no counter changes (R80). -/
def flushLine (s : State) (sl key : Nat) : State := dropLine (writeBack s sl key) sl key

/-- Every line of an L1 that a condition selects, acted on in key order. -/
def eachLine (s : State) (sl : Nat) (p : Line → Bool) (f : State → Nat → Nat → State) : State :=
  ((s.core sl).l1.filter fun e => p e.2).foldl (fun st e => f st sl e.1) s

/-- The effects of a hit with a normal hint (R80). -/
def hitLine (s : State) (core : Nat) (sl key : Nat) (l : Line) : State :=
  learn (setLine s sl key { l with rrv := 0, reused := true }) core l.oid fun h => rstUp h l.sig

/-! ## Binding loads -/

/-- A lane of a load bound at the home slice. -/
def bindHome (s : State) (size : Nat) (x : LaneLoad) : LaneLoad :=
  { x with data := some (homeBytes s x.pa size), bad := badAt s x.pa size }

/-- A lane of a load has missed and is not bound. -/
def LaneLoad.out (x : LaneLoad) : Bool := x.data.isNone && !x.bad && !isPeer x.pa

/-- Unbound lanes of loads that a condition selects are bound with a rule. -/
def bindLoads (s : State) (p : Load → LaneLoad → Bool) (f : Nat → LaneLoad → LaneLoad) : State :=
  { s with loads := s.loads.map fun e =>
      (e.1, { e.2 with lanes := e.2.lanes.map fun x => if x.out && p e.2 x then f e.2.size x else x }) }

/-- A lane of a load waits on a fill: its physical line, through whatever address, in the L1 that serves the team, for its OID
(R179, R188). -/
def waitsOnFill (s : State) (f : Fill) (l : Load) (x : LaneLoad) : Bool :=
  sameL1 s (keyCore l.team) f.core && decide (x.pa / 128 = f.pline) && (match s.team l.team with | some t => decide (t.oid = f.oid) | none => false)

/-! ## Fills (R80, R81, R332) -/

/-- The first way of a set with no valid line, then the first with RRV 3. -/
def pickWay (l1 : Table Line) (set : Nat) : Option Nat :=
  ((List.range 8).find? fun w => (l1.find (8 * set + w)).isNone).or
    ((List.range 8).find? fun w => match l1.find (8 * set + w) with | some l => decide (l.rrv = 3) | none => true)

/-- ChooseVictim: RRVs of the set rise until a way has RRV 3; at most three rounds (R81). -/
def chooseVictim (l1 : Table Line) (set : Nat) : Nat → Table Line × Nat
  | 0 => (l1, 0)
  | n + 1 =>
    match pickWay l1 set with
    | some w => (l1, w)
    | none => chooseVictim (l1.map fun e => (e.1, if e.1 / 8 = set then { e.2 with rrv := e.2.rrv + 1 } else e.2)) set n

/-- A line chosen as a victim leaves: written back, and its signature's counter falls when it was never reused (R80). The event is that
of the fill: it is learned for the OID of the fill (R70). -/
def evict (s : State) (core sl key oid : Nat) : State :=
  match (s.core sl).l1.find key with
  | none => s
  | some l =>
    let s1 := flushLine s sl key
    if l.reused ∨ l.oid ≠ oid then s1 else learn s1 core l.oid fun h => rstDown h l.sig

/-- The number of a store instruction leaves the team when nothing of it is outstanding (R204). -/
def storeDone (s : State) (k num : Nat) : State :=
  if (s.fills.any fun f => f.2.stores.any fun x => decide (x.1 = num)) || (s.posts.any fun p => decide (p.2.num = num)) ||
     (s.peers.any fun p => p.2.team.isSome && decide (p.2.num = num)) then s
  else s.modTeam k fun t => { t with storesOut := t.storesOut.filter fun n => decide (n ≠ num) }

/-! ## Digests (R329) -/

/-- A record folded into a running digest: 8 bytes of address, the size, the bytes. -/
def recDigest (d : W64) (va : Nat) (bs : List Byte) : W64 := crc64 d (leBytes 8 va ++ [BitVec.ofNat 8 bs.length] ++ bs)

/-- What waits to be folded in is folded, in order, up to the first compare-and-swap that a peer has not answered. -/
def digestRun (k : Nat) : List DigestItem → State → State
  | [], s => s.modTeam k fun t => { t with digestQ := [] }
  | .ask req :: r, s => s.modTeam k fun t => { t with digestQ := .ask req :: r }
  | .data va bs :: r, s => digestRun k r (s.modTeam k fun t => { t with digest := recDigest t.digest va bs })
  | .point :: r, s => digestRun k r (match s.team k with | some t => digestRec s k t | none => s)

/-- What a digest-mode team has committed, in commit order and ascending lanes, extends its running digest; behind a compare-and-swap
at a peer it waits for that one's answer (R211, R329). -/
def digestItems (s : State) (k : Nat) (items : List DigestItem) : State :=
  match s.team k with
  | some t => if t.digestMode && !items.isEmpty then digestRun k (t.digestQ ++ items) s else s
  | none => s

/-- A committed store folds into the running digest of a digest-mode team, lane by lane. -/
def digest (s : State) (k : Nat) (recs : List (Nat × List Byte)) : State := digestItems s k (recs.map fun r => .data r.1 r.2)

/-- A peer has answered a compare-and-swap: with a record if it wrote. -/
def digestAnswer (s : State) (k req : Nat) (item : List DigestItem) : State :=
  match s.team k with
  | some t =>
    if t.digestQ.contains (.ask req) then digestRun k (t.digestQ.flatMap fun x => if x = .ask req then item else [x]) s else s
  | none => s

/-! ## Peers (R319, R320) -/

/-- The access bits of a request: an atomic reads and writes (R248). -/
def reqAcc (r : PeerReq) : Nat := if r.kind = 0 then accR else if r.kind = 1 then accW else accR + accW

/-- A request that will not be performed leaves; a compare-and-swap is no record of a digest then. -/
def dropPeer (s : State) (id : Nat) (r : PeerReq) : State :=
  let s1 := { s with peers := s.peers.erase id }
  match r.team with
  | some k => digestAnswer s1 k id []
  | none => s1

/-- A request fails: the lane of its load is not written, or its store is dropped and its cause held, with its record (R206, R320). -/
def failPeer (s : State) (id : Nat) : State :=
  match s.peers.find id with
  | none => s
  | some r =>
    let s1 := dropPeer s id r
    match r.team with
    | none => s1
    | some k =>
      match s1.team k with
      | none => pageRecord s1 (ctxPart s r.oid) r.oid r.va rUncorrData (reqAcc r) (keyCore k) (keySlot k) 0 0
      | some _ =>
        match r.load with
        | some (l, lane) =>
          { s1 with loads := s1.loads.modify l fun x => { x with lanes := x.lanes.map fun y => if y.lane = lane then { y with bad := true } else y } }
        | none => storeDone (holdUncorr s1 k r.va (reqAcc r) r.word) k r.num

/-- A peer has refused a team's request, with no more to come of it: its lane is not written, or its store is dropped, and PAGE is held
for the team (R247, R319). -/
def giveUpPeer (s : State) (id : Nat) : State :=
  match s.peers.find id with
  | none => s
  | some r =>
    let s1 := dropPeer s id r
    match r.team with
    | none => s1
    | some k =>
      let s2 := match r.load with
        | some (l, lane) => { s1 with loads := s1.loads.modify l fun x => { x with lanes := x.lanes.filter fun y => decide (y.lane ≠ lane) } }
        | none => storeDone s1 k r.num
      s2.modTeam k fun u => holdCause u (cPage ||| cReason rSegment) r.word (BitVec.ofNat 64 r.va)

/-- A peer refuses a team's request: SEGMENT goes to the host, and the team waits; the request is sent again when the host has served it
(R247, R249, R319). A team that ends waits for nothing more. -/
def refusePeer (s : State) (id : Nat) (r : PeerReq) : State :=
  match r.team with
  | none => s
  | some k =>
    match s.team k with
    | none => dropPeer (pageRecord s (ctxPart s r.oid) r.oid r.va rSegment (reqAcc r) (keyCore k) (keySlot k) 0 0) id r
    | some t =>
      let s1 := filteredRecord { s with peers := s.peers.put id { r with refused := true } } k t r.va rSegment (reqAcc r) 0 0
      if t.state = .exiting ∨ (s.ctx r.oid).map (·.state) = some .saving then giveUpPeer s1 id
      else if t.state = .ready ∧ t.entering = false then
        (hostWait s1 k t r.va rSegment (reqAcc r) r.word r.hdr (match r.load with | some x => maskOf 1024 fun L => decide (L = x.2) | none => 0)).modTeam k
          fun u => { u with waitKind := .peer }
      else s1

/-- A request goes on its way: sent while the port moves requests, kept while it trains, failed while it is DOWN or FENCED. -/
def sendPeer (s : State) (id : Nat) (r : PeerReq) : State :=
  let s1 := { s with peers := s.peers.put id r }
  if portUp s r.port then { sendFlit s1 r.port (r.kind + 1) (requestPayload r) with peers := s1.peers.put id { r with sent := true } }
  else if portDead s r.port then failPeer s1 id
  else s1

/-- A request to a peer. -/
def askPeer (s : State) (r : PeerReq) : State := sendPeer s.fresh.2 s.fresh.1 r

/-- A request of a team's access: an access with acquire, of a scope, holds the team's later accesses (R186, R203). -/
def teamReq (t : Team) (k kind va pa num : Nat) (data : List Byte) (load : Option (Nat × Nat)) (acq : Option Nat) : PeerReq :=
  { port := peerPort pa, kind := kind, pa := peerAddr pa, data := data, va := va, oid := t.oid, word := curWord t, hdr := curHdr t, acq := acq,
    load := load, team := some k, num := num, job := none, hold := acq.isSome, sent := false, refused := false }

/-- A post accepted at its home slice (R181, R184, R204). -/
def acceptPost (s : State) (id : Nat) : State :=
  match s.posts.find id with
  | none => s
  | some p =>
    let s1 := { s with posts := s.posts.erase id }
    storeDone (sendLine (if p.alloc then l2Touch s1 (128 * p.write.pline) else s1) p.team p.write 0) p.team p.num

/-- The posts that a condition selects are accepted, oldest first. -/
def acceptPosts (s : State) (p : Post → Bool) : State := ((s.posts.filter fun x => p x.2).map (·.1)).foldl acceptPost s

/-- The line that a fill installs. The stores that the L1's own teams have sent to it are accepted first, so that none of them
reads an older value than it has stored (R188). The reverse map drops any other copy of the physical line, and the victim leaves
(R80, R81, R179). -/
def installLine (s0 : State) (f : Fill) : State :=
  let va := 128 * f.vline
  let sl := l1Slice s0 f.core va
  let set := l1Set s0 f.core va
  let s := acceptPosts s0 fun p => sameL1 s0 (keyCore p.team) f.core && decide (p.write.pline = f.pline)
  let s1 := (l1Cores s f.core).foldl (fun st c => eachLine st c (fun l => decide (l.pline = f.pline)) flushLine) s
  let c := s1.core sl
  let v := chooseVictim c.l1 set 4
  let key := 8 * set + v.2
  let s2 := evict (s1.setCore sl { c with l1 := v.1 }) f.core sl key f.oid
  let h := (s2.core f.core).activeBank.hist
  let s3 := l2Touch s2 (128 * f.pline)
  setLine s3 sl key
    { vline := f.vline, pline := f.pline, oid := f.oid, rrv := fillRrv h f.sig, sig := f.sig, reused := false, dirty := 0, since := 0,
      leaving := false, writer := 0, data := BitVec.ofNat 1024 (homeNat s3 (128 * f.pline) 128) }

/-- A store that hits a line: another team's dirty bytes leave first, and the line is dirty with the storing team as writer
(R180, R184). -/
def storeInto (s : State) (sl key k : Nat) (l : Line) (w : LineWrite) : State :=
  let s1 := if l.dirty ≠ 0 ∧ l.writer ≠ k then writeBack s sl key else s
  setLine s1 sl key (lineStore (((s1.core sl).l1.find key).getD l) w true k s1.cycle)

/-- A joined store updates the installed line (R332). -/
def joinStore (s : State) (f : Fill) (x : Nat × Nat × LineWrite) : State :=
  match findLine s f.core f.oid (128 * f.vline) with
  | none => s
  | some (sl, key, l) => storeDone (storeInto s sl key x.2.1 l x.2.2) x.2.1 x.1

/-- A fill arrives: it installs its line and serves the accesses that wait, or, when an acquire discarded it or its line
holds an error, its accesses go to the home slice (R80, R183, R256, R332). -/
def completeFill (s : State) (id : Nat) : State :=
  match s.fills.find id with
  | none => s
  | some f =>
    let s0 := { s with fills := s.fills.erase id }
    let pa := 128 * f.pline
    if f.l2Only then l2Touch s0 pa
    else if f.discard || badAt s0 pa 128 then
      let s1 := bindLoads s0 (waitsOnFill s0 f) (bindHome s0)
      f.stores.foldl (fun st x => storeDone (sendLine st x.2.1 x.2.2 0) x.2.1 x.1) s1
    else
      let s1 := installLine s0 f
      let s2 := bindLoads s1 (waitsOnFill s1 f) fun n x =>
        match findLine s1 f.core f.oid x.va with
        | some (_, _, l) => { x with data := some (lineBytes l (x.va % 128) n) }
        | none => bindHome s1 n x
      f.stores.foldl (fun st x => joinStore st f x) s2

/-- A word of a sweep on a core waits for fills: they arrive, and the sweep goes on on the next edge (R72). -/
def fillsNow (s : State) (core : Nat) (ids : List Nat) : State := if ids.isEmpty then s else endEdge (ids.foldl completeFill s) core

/-- A fill requested (R79, R205): a demand miss raises counter 3, a prefetch counter 4. -/
def requestFill (s : State) (f : Fill) : State :=
  let (n, s1) := s.fresh
  bumpCounter { s1 with fills := s1.fills.put n f } f.core (if f.demand then 3 else 4) 1

/-- The fills in flight of the L1 that serves a core for a line of an OID (R184). -/
def fillsFor (s : State) (core oid vline : Nat) : List Nat :=
  (s.fills.filter fun f => sameL1 s core f.2.core && decide (f.2.oid = oid ∧ f.2.vline = vline) && !f.2.l2Only).map (·.1)

/-- Those that the core itself has asked for: a demand access joins one of them (R332). -/
def ownFills (s : State) (core oid vline : Nat) : List Nat :=
  (s.fills.filter fun f => decide (f.2.core = core ∧ f.2.oid = oid ∧ f.2.vline = vline) && !f.2.l2Only).map (·.1)

/-- A load with a hint has missed on a line for a core, and its data has not come: a demand miss in flight without a fill (R79). -/
def missOut (s : State) (core oid vline : Nat) : Bool :=
  s.loads.any fun l => decide (keyCore l.2.team = core) && (match s.team l.2.team with | some t => decide (t.oid = oid) | none => false) &&
    l.2.lanes.any fun x => x.out && decide (x.va / 128 = vline)

/-- The line is in the L1 that serves the core, or a demand miss or a prefetch for it is in flight (R79). -/
def linePresent (s : State) (core oid vline : Nat) : Bool :=
  (findLine s core oid (128 * vline)).isSome || !(ownFills s core oid vline).isEmpty || missOut s core oid vline

/-- Prefetches of a core in flight, of both hints (R79, R215). -/
def prefetchesOf (s : State) (core : Nat) : Nat := (s.fills.filter fun f => decide (f.2.core = core) && !f.2.demand).length

/-- A prefetch's translation, with the leaf: at the cluster TLB, or by a walk that sets no bit and installs nothing (R71, R179). -/
def prefetchXlat (s : State) (core oid va : Nat) : Option (Nat × W64) :=
  match (tlbFind (s.cluster (clusterOf core)) oid va).bind fun e => (tlbUse s (ctxPart s oid) accR va e).map fun pa => (pa, e.leaf) with
  | some x => some x
  | none => match walk s oid va accR with | .ok pa _ e _ => some (pa, e) | _ => none

/-- A prefetch of a line that is not present: dropped when 16 are in flight or when it does not translate with read
permission in tier 0 or 1 (R71, R79, R215). -/
def prefetch (s : State) (core oid vline sig : Nat) (l2 : Bool) : State :=
  if 16 ≤ prefetchesOf s core then s
  else
    match prefetchXlat s core oid (128 * vline) with
    | some (pa, e) =>
      if pteTier e < 2 then
        requestFill s { core := core, oid := oid, vline := vline, pline := pa / 128, sig := sig, demand := false, l2Only := l2,
                        discard := false, stores := [] }
      else s
    | none => s

/-- SPT training at the commit of an ld, and the prefetches it issues (R79). -/
def trainSpt (s : State) (core oid pc a : Nat) : State :=
  let b := (s.core core).activeBank
  if b.owner = some oid then
    let r := sptTrain b.hist pc a
    r.2.foldl (fun st p =>
      if p / 128 = a / 128 ∨ linePresent st core oid (p / 128) = true then st else prefetch st core oid (p / 128) (bitsAt pc 3 10) false)
      (learn s core oid fun _ => r.1)
  else s

/-! ## Order among one team's accesses -/

/-- At a miss the reverse map finds the physical line under another address: its fill is finished, and the line is written back
and dropped (R179). -/
def dropAlias (s : State) (core oid va pa : Nat) : State :=
  if (findLine s core oid va).isSome || isPeer pa then s
  else
    let s1 := fillsNow s core ((s.fills.filter fun f => sameL1 s core f.2.core && decide (f.2.pline = pa / 128) && !f.2.l2Only).map (·.1))
    (l1Cores s1 core).foldl (fun st c => eachLine st c (fun l => decide (l.pline = pa / 128)) flushLine) s1

/-- What the team has in flight on a line is finished before its next access there, so that one location keeps program
order; a fill in flight is joined (R186, R188, R332). -/
def settle (s : State) (k : Nat) (t : Team) (va pa : Nat) : State :=
  let s1 := dropAlias (fillsNow s (keyCore k) (fillsFor s (keyCore k) t.oid (va / 128))) (keyCore k) t.oid va pa
  let s2 := acceptPosts s1 fun p => decide (p.team = k ∧ p.write.pline = pa / 128)
  bindLoads s2 (fun l x => decide (l.team = k ∧ x.pa / 128 = pa / 128)) (bindHome s2)

/-- The lanes that first touch each line, in lane order: lane, address, physical address. -/
def linesOf (lanes : List (Nat × Nat × Nat)) : List (Nat × Nat × Nat) :=
  lanes.foldl (fun acc x => if isPeer x.2.2 || acc.any (fun a => decide (a.2.1 / 128 = x.2.1 / 128)) then acc else acc ++ [x]) []

def settleAll (s : State) (k : Nat) (t : Team) (lanes : List (Nat × Nat × Nat)) : State :=
  (linesOf lanes).foldl (fun st x => settle st k t x.2.1 x.2.2) s

/-- A request of the team to a peer is outstanding. -/
def peerOut (s : State) (k : Nat) : Bool := s.peers.any fun p => decide (p.2.team = some k)
/-- One whose data a load of the team waits for. -/
def peerLoadOut (s : State) (k : Nat) : Bool := s.peers.any fun p => decide (p.2.team = some k) && p.2.load.isSome
/-- One for which the team's later accesses wait (R186, R203). -/
def peerHold (s : State) (k : Nat) : Bool := s.peers.any fun p => decide (p.2.team = some k) && p.2.hold

/-- A release: earlier loads are bound, dirty lines of the team written back, earlier stores performed (R186). -/
def drain (s : State) (k : Nat) (t : Team) : State :=
  let core := keyCore k
  let fs := (s.fills.filter fun f => sameL1 s core f.2.core && decide (f.2.oid = t.oid) && !f.2.l2Only &&
    ((f.2.stores.any fun x => decide (x.2.1 = k)) || s.loads.any fun l => decide (l.2.team = k) && l.2.lanes.any fun x => x.data.isNone && waitsOnFill s f.2 l.2 x)).map (·.1)
  let s1 := fillsNow s core fs
  let s2 := acceptPosts s1 fun p => decide (p.team = k)
  let s3 := bindLoads s2 (fun l _ => decide (l.team = k)) (bindHome s2)
  (l1Cores s3 core).foldl (fun st c => eachLine st c (fun l => decide (l.dirty ≠ 0 ∧ l.writer = k)) writeBack) s3

/-- The gang has teams on more than one core. -/
def gangSpread (s : State) (t : Team) (core : Nat) : Bool :=
  match s.gang t.gang with | some g => g.teams.any fun x => decide (keyCore x ≠ core) | none => false

/-- The scope makes an acquire remove clean lines (R183). -/
def acquireWide (s : State) (k : Nat) (t : Team) (scope : Nat) : Bool :=
  decide (2 ≤ scope) || (decide (scope = 1) && !fusedL1 s (keyCore k) && gangSpread s t (keyCore k))

/-- The kind bits of a volume entry are empty or constant (R259). -/
def entryVoid (e : W64) : Bool := decide (e.toNat / 2 ^ 62 = 0 ∨ e.toNat / 2 ^ 62 = 3)

/-- The CLB entries of an OID with an empty or constant entry leave a cluster (R263). -/
def dropVoid (s : State) (cl oid : Nat) : State :=
  let c := s.cluster cl
  s.setCluster cl { c with clb := c.clb.filter fun e => !(decide (e.oid = oid) && entryVoid e.entry) }

/-- The bytes of a line at its home slice; a granule that holds an error leaves those that the L1 has (R256). -/
def homeLine (s : State) (l : Line) : BitVec 1024 :=
  (List.range 4).foldl (fun d g =>
    let pa := 128 * l.pline + 32 * g
    if badAt s pa 32 then d else putLine d (32 * g) (homeBytes s pa 32)) l.data

/-- A dirty line that an acquire keeps: its clean bytes are read again at the home slice, since they may be older than the value
acquired (R183, R190). -/
def renewLine (s : State) (sl key : Nat) : State :=
  match (s.core sl).l1.find key with
  | none => s
  | some l => if l.dirty = 0 then dropLine s sl key else setLine s sl key { l with data := overlay (homeLine s l) l.dirty l.data }

/-- An acquire on a core for an OID: its clean lines in the serving L1 are invalidated, its fills in flight are discarded on arrival,
and its CLB entries that a later allocation would change are dropped (R182, R183, R263). -/
def acquireOid (s : State) (core oid : Nat) : State :=
  let cs := l1Cores s core
  let s1 := cs.foldl (fun st c => eachLine st c (fun l => decide (l.oid = oid)) renewLine) s
  let fs := s1.fills.map fun (f : Nat × Fill) => (f.1, if cs.contains f.2.core ∧ f.2.oid = oid then { f.2 with discard := true } else f.2)
  dropVoid { s1 with fills := fs } (clusterOf core) oid

/-- A team's acquire at a scope (R183). -/
def acquire (s : State) (k : Nat) (t : Team) (scope : Nat) : State :=
  if acquireWide s k t scope then acquireOid s (keyCore k) t.oid else s

def ordAcq (o : Nat) : Bool := decide (o = 1 ∨ o = 3)
def ordRel (o : Nat) : Bool := decide (o = 2 ∨ o = 3)

/-- The team's earlier loads are bound: those that wait on fills are sent again to the home slices (R183, R190). -/
def bindTeam (s : State) (k : Nat) : State := bindLoads s (fun l _ => decide (l.team = k)) (bindHome s)

/-- A fence of an order and scope (R186, R212): it waits at issue while a peer has not answered the team. With acquire it follows
the team's earlier loads, so that none of them is bound after it (R190). -/
def fenceWith (s : State) (k : Nat) (t : Team) (order scope : Nat) (go : State → Res) : Res :=
  if (ordRel order && peerOut s k) || (ordAcq order && peerLoadOut s k) then .stall s
  else
    let s1 := if ordRel order then drain s k t else s
    go (if ordAcq order then acquire (bindTeam s1 k) k t scope else s1)

/-! ## The accesses of one instruction -/

/-- Signature PC[12:3] of a word (R80). -/
def pcSig (t : Team) : Nat := bitsAt (wordAddr t.h t.i).toNat 3 10

/-- A lane's access of a load, bound or not. -/
def laneOf (x : Nat × Nat × Nat) (data : Option (List Byte)) (bad : Bool) : LaneLoad :=
  { lane := x.1, va := x.2.1, pa := x.2.2, data := data, bad := bad }

/-- The scope of an access with acquire. -/
def acqOf (order scope : Nat) : Option Nat := if ordAcq order then some scope else none

/-- A lane of a load is asked for at its peer. -/
def askLane (s : State) (k : Nat) (t : Team) (id size : Nat) (acq : Option Nat) (x : LaneLoad) : State :=
  askPeer s (teamReq t k 0 x.va x.pa 0 [BitVec.ofNat 8 size] (some (id, x.lane)) acq)

/-- A load enters the table of loads in flight; its peer lanes are asked for. -/
def addLoad (s : State) (k : Nat) (t : Team) (dst : Opd) (size hint : Nat) (lanes : List LaneLoad) (acq : Option Nat := none) : State :=
  let (n, s1) := s.fresh
  let s2 := { s1 with loads := s1.loads.put n { team := k, word := curWord t, hdr := curHdr t, dst := dst, size := size, lanes := lanes,
                                                hint := hint, sig := pcSig t } }
  (lanes.filter fun x => isPeer x.pa && x.data.isNone).foldl (fun st x => askLane st k t n size acq x) s2

/-! ## The 64 demand misses of a core (R205) -/

/-- A lane of a load of a hint that has missed is served without a fill: its hint says so, or its line is the host's (R184, R314). -/
def noFill (hint pa : Nat) : Bool := decide (hint ≠ 0 ∨ 2 ^ 48 ≤ pa)

/-- Demand misses of a core in flight: its fills, and the lines of loads that are served without one. -/
def demandMisses (s : State) (core : Nat) : Nat :=
  (s.fills.filter fun f => f.2.demand && decide (f.2.core = core)).length +
    ((s.loads.filter fun l => decide (keyCore l.2.team = core)).map fun l =>
      (linesOf ((l.2.lanes.filter fun x => x.out && noFill l.2.hint x.pa).map fun x => (x.lane, x.va, x.pa))).length).sum

/-- The lines of lanes that miss and join no fill of the core's own (R332). -/
def missesOf (s : State) (core oid : Nat) (lines : List (Nat × Nat × Nat)) : Nat :=
  (lines.filter fun x => (findLine s core oid x.2.1).isNone && (ownFills s core oid (x.2.1 / 128)).isEmpty).length

/-- The misses of some lines find room. -/
def missRoom (s : State) (core oid : Nat) (lines : List (Nat × Nat × Nat)) : Bool :=
  decide (demandMisses s core + missesOf s core oid lines ≤ 64)

/-- Every demand miss of a core is answered while a sweep of the core stalls for it. -/
def answerMisses (s : State) (core : Nat) : State :=
  let s1 := endEdge (((s.fills.filter fun f => f.2.demand && decide (f.2.core = core)).map (·.1)).foldl completeFill s) core
  bindLoads s1 (fun l x => decide (keyCore l.team = core) && noFill l.hint x.pa) (bindHome s1)

/-- Lanes by the mask word that a sweep visits (R110). -/
def byWord (lanes : List (Nat × Nat × Nat)) : List (List (Nat × Nat × Nat)) :=
  (List.range 32).filterMap fun w =>
    let g := lanes.filter fun x => decide (x.1 / 32 = w)
    if g.isEmpty then none else some g

/-- The first word of an access that takes demand misses finds too few of them free: the instruction stalls before it has done
anything. A later word finds those free that the sweep has waited for (log entry 58). -/
def missStall (s : State) (k : Nat) (t : Team) (lanes : List (Nat × Nat × Nat)) : Bool :=
  match byWord (linesOf lanes) with
  | g :: _ => !missRoom s (keyCore k) t.oid g
  | [] => false

/-- A word of a sweep waits until its misses find room. -/
def makeRoom (s : State) (core oid : Nat) (lines : List (Nat × Nat × Nat)) : State :=
  if missRoom s core oid lines then s else answerMisses s core

/-- A load's lanes after their line has been looked up: those on a present line are bound from it. -/
def loadLanes (s : State) (k : Nat) (t : Team) (size : Nat) (lanes : List (Nat × Nat × Nat)) : List LaneLoad :=
  lanes.map fun x =>
    match if isPeer x.2.2 then none else findLine s (keyCore k) t.oid x.2.1 with
    | some (_, _, l) => laneOf x (some (lineBytes l (x.2.1 % 128) size)) false
    | none => laneOf x none false

/-- A load performed at the home slices (R186). -/
def homeLanes (s : State) (size : Nat) (lanes : List (Nat × Nat × Nat)) : List LaneLoad :=
  lanes.map fun x => if isPeer x.2.2 then laneOf x none false else bindHome s size (laneOf x none false)

/-- Lanes put among those of a load, in lane order. -/
def mergeLanes (xs ys : List LaneLoad) : List LaneLoad :=
  ys.foldl (fun acc y => (acc.takeWhile fun x => decide (x.lane < y.lane)) ++ y :: acc.dropWhile fun x => decide (x.lane < y.lane)) xs

/-- Lanes join a load in flight. -/
def joinLanes (s : State) (id : Nat) (ys : List LaneLoad) : State :=
  { s with loads := s.loads.modify id fun l => { l with lanes := mergeLanes l.lanes ys } }

/-- A line of an L1 is written back and takes the bytes of its home slice, so that no later access of the team reads an older
store than its access at the home slice (R180, R186, R188). -/
def refreshLine (s : State) (sl key : Nat) : State :=
  let s1 := writeBack s sl key
  match (s1.core sl).l1.find key with
  | some l => setLine s1 sl key { l with data := homeLine s1 l }
  | none => s1

/-- The issuing L1's copy of a line before an access at the home slice. -/
def cleanLine (s : State) (k : Nat) (t : Team) (va : Nat) : State :=
  match findLine s (keyCore k) t.oid va with
  | some (sl, key, _) => refreshLine s sl key
  | none => s

/-- Two ranges overlap. -/
def overlaps (a n b m : Nat) : Bool := decide (a < b + m ∧ b < a + n)

/-- Lines of the serving L1 that hold a physical range leave it, written back (R183). -/
def flushPhys (s : State) (core pa n : Nat) : State :=
  (l1Cores s core).foldl (fun st c => eachLine st c (fun l => overlaps (128 * l.pline) 128 pa n) flushLine) s

/-- The lines of every translated piece of a range leave the serving L1 (R183). -/
def flushPieces (s : State) (core : Nat) (ps : List (Nat × Nat × Nat)) : State := ps.foldl (fun st p => flushPhys st core p.2.1 p.2.2) s

/-- Copies in the issuing L1 of physical bytes that an access reaches at the home slice. -/
def refreshPhys (s : State) (k pa n : Nat) : State :=
  (l1Cores s (keyCore k)).foldl (fun st c => eachLine st c (fun l => overlaps (128 * l.pline) 128 pa n) refreshLine) s

/-- What a team has in flight on physical bytes is finished before it reaches them at the home slice (R188). -/
def settlePhys (s : State) (k pa n : Nat) : State :=
  let s1 := fillsNow s (keyCore k) ((s.fills.filter fun f => sameL1 s (keyCore k) f.2.core && !f.2.l2Only && overlaps (128 * f.2.pline) 128 pa n).map (·.1))
  let s2 := acceptPosts s1 fun p => decide (p.team = k) && overlaps (128 * p.write.pline) 128 pa n
  refreshPhys (bindLoads s2 (fun l x => decide (l.team = k) && overlaps x.pa l.size pa n) (bindHome s2)) k pa n

/-- How an access finds its line (R184, R332). -/
inductive Meet where
  /-- Neither present nor in flight. -/
  | miss
  /-- In flight for the core itself: the access joins. -/
  | own
  /-- In flight for another core of a fused L1: it counts as present, and the access waits as a demand miss of its own. -/
  | other
  | present
  deriving DecidableEq, Repr

/-- A demand access of a core looks for its line. -/
def meetLine (s : State) (core oid va : Nat) : Meet :=
  if (findLine s core oid va).isSome then .present
  else if !(ownFills s core oid (va / 128)).isEmpty then .own
  else if !(fillsFor s core oid (va / 128)).isEmpty then .other
  else .miss

/-- One line of a load, with its lanes: what the team has in flight there is finished; a line that is present, or that a joined fill
installs, serves them; where a joined fill installs nothing they go to the home slice; a miss with a normal hint asks for a fill (R183,
R184, R203, R256, R314, R332). -/
def loadLine (s : State) (k : Nat) (t : Team) (hint size id : Nat) (p : Nat × Nat) (lanes : List (Nat × Nat × Nat)) : State :=
  let core := keyCore k
  let m := meetLine s core t.oid p.1
  let s1 := settle s k t p.1 p.2
  match findLine s1 core t.oid p.1 with
  | some (sl, key, l) =>
    let s2 := if l.dirty ≠ 0 ∧ l.writer ≠ k then writeBack s1 sl key else s1
    let s3 := if hint = 0 then hitLine s2 core sl key (((s2.core sl).l1.find key).getD l) else s2
    joinLanes (if m = .other then bumpCounter s3 core 3 1 else s3) id (loadLanes s3 k t size lanes)
  | none =>
    if m = .own then joinLanes s1 id (homeLanes s1 size lanes)
    else
      let s2 := if noFill hint p.2 then bumpCounter (if hint = 1 then l2Touch s1 p.2 else s1) core 3 1
        else requestFill s1 { core := core, oid := t.oid, vline := p.1 / 128, pline := p.2 / 128, sig := pcSig t, demand := true, l2Only := false,
                              discard := false, stores := [] }
      joinLanes s2 id (loadLanes s2 k t size lanes)

/-- The lanes of an access on the line of an address. -/
def lanesOn (lanes : List (Nat × Nat × Nat)) (va : Nat) : List (Nat × Nat × Nat) :=
  lanes.filter fun y => !isPeer y.2.2 && decide (y.2.1 / 128 = va / 128)

/-- One word of a load's sweep: its new lines are looked up, each for all lanes of the instruction on it (R205). -/
def loadWord (s : State) (k : Nat) (t : Team) (hint size id : Nat) (lines lanes : List (Nat × Nat × Nat)) : State :=
  lines.foldl (fun st x => loadLine st k t hint size id x.2 (lanesOn lanes x.2.1)) (makeRoom s (keyCore k) t.oid lines)

/-- The fills that a load waits for. -/
def fillsOfLoad (s : State) (id : Nat) : List Nat :=
  match s.loads.find id with
  | none => []
  | some l => (s.fills.filter fun f => !f.2.l2Only && l.lanes.any fun x => x.data.isNone && waitsOnFill s f.2 l x).map (·.1)

/-- What a load waits for at home is finished: its fills arrive, and the lanes that are left are bound at the home slices. -/
def finishLoad (s : State) (id : Nat) : State :=
  let s1 := (fillsOfLoad s id).foldl completeFill s
  { s1 with loads := s1.loads.modify id fun l => { l with lanes := l.lanes.map fun x => if x.out then bindHome s1 l.size x else x } }

/-- One line of a load that performs at the home slice: what the team has in flight there is finished, a copy of the line is brought up
to the home slice, and with a normal hint it has been hit (R80, R186, R332). -/
def loadLineAcq (s : State) (k : Nat) (t : Team) (hint : Nat) (p : Nat × Nat) : State :=
  let s1 := cleanLine (settle s k t p.1 p.2) k t p.1
  match if hint = 0 then findLine s1 (keyCore k) t.oid p.1 else none with
  | some (sl, key, l) => hitLine s1 (keyCore k) sl key l
  | none => s1

/-- The loads of one instruction, in every order kind (R184, R186, R203). Lanes at a peer are asked for, and an acquire follows their
answers too (R183). An acquire at team scope is bound as it performs, so that the team's later accesses come after it. -/
def doLoad (s : State) (k : Nat) (t : Team) (order scope hint size : Nat) (dst : Opd) (lanes : List (Nat × Nat × Nat)) : State :=
  let s1 := if ordRel order then drain s k t else s
  let lines := linesOf lanes
  if ordAcq order && decide (scope ≠ 0) then
    let s2 := lines.foldl (fun st x => loadLineAcq st k t hint x.2) s1
    acquire (addLoad s2 k t dst size hint (homeLanes s2 size lanes) (some scope)) k t scope
  else
    let id := s1.nextId
    let s2 := addLoad s1 k t dst size hint ((lanes.filter fun x => isPeer x.2.2).map fun x => laneOf x none false) (acqOf order scope)
    let s3 := (byWord lines).foldl (fun st g => loadWord st k t hint size id g lanes) s2
    if ordAcq order then finishLoad (fillsNow s3 (keyCore k) (fillsOfLoad s3 id)) id else s3

/-- What the lanes write to each line: the lane that first touches it, and the request (R205). Where lanes reach one physical line
through several addresses, the highest lane's bytes stand (R186, R202). -/
def lineWrites (lanes : List (Nat × Nat × Nat)) (data : Nat → List Byte) : List ((Nat × Nat × Nat) × LineWrite) :=
  (linesOf lanes).map fun x =>
    (x, (lanes.filter fun y => !isPeer y.2.2 && decide (y.2.2 / 128 = x.2.2 / 128)).foldl (fun w y =>
        if y.2.1 / 128 = x.2.1 / 128 then w.add (y.2.1 % 128) (data y.1) else w.cut (y.2.1 % 128) (data y.1).length)
      { vline := x.2.1 / 128, pline := x.2.2 / 128, mask := 0, data := 0 })

/-- A store to a peer (R319). -/
def askStore (s : State) (k : Nat) (t : Team) (num : Nat) (acq : Option Nat) (x : Nat × Nat × Nat) (bs : List Byte) : State :=
  askPeer s (teamReq t k 1 x.2.1 x.2.2 num bs none acq)

/-- One line of a relaxed store (R180, R184, R332): num is the number of its instruction. What the team has in flight there is finished;
a line that is present, or that a joined fill installs, takes the bytes; where a joined fill installs nothing they go to the home slice;
a miss with a normal hint asks for a fill; any other is sent to the home slice. -/
def storeLine (s : State) (k : Nat) (t : Team) (hint num : Nat) (w : LineWrite) : State :=
  let core := keyCore k
  let va := 128 * w.vline
  let m := meetLine s core t.oid va
  let s1 := settle s k t va (128 * w.pline)
  match findLine s1 core t.oid va with
  | some (sl, key, l) =>
    let s2 := storeInto (if hint = 0 then hitLine s1 core sl key l else s1) sl key k l w
    if m = .other then bumpCounter s2 core 3 1 else s2
  | none =>
    if m = .own then sendLine s1 k w (curWord t)
    else if noFill hint (128 * w.pline) then
      let (n, s2) := s1.fresh
      let s3 := { s2 with posts := s2.posts.put n { team := k, num := num, alloc := decide (hint = 1), write := w } }
      if hint = 0 then bumpCounter s3 core 3 1 else s3
    else
      requestFill s1 { core := core, oid := t.oid, vline := w.vline, pline := w.pline, sig := pcSig t, demand := true, l2Only := false,
                       discard := false, stores := [(num, k, w)] }

/-- One word of a store's sweep. -/
def storeWord (s : State) (k : Nat) (t : Team) (hint num : Nat) (ws : List ((Nat × Nat × Nat) × LineWrite)) : State :=
  ws.foldl (fun st x => storeLine st k t hint num x.2) (if hint = 0 then makeRoom s (keyCore k) t.oid (ws.map (·.1)) else s)

/-- One line of a release store: a present line is updated in place and stays clean, and the store is performed at the home
slice (R80, R186). -/
def storeLineRel (s : State) (k : Nat) (t : Team) (hint : Nat) (w : LineWrite) : State :=
  let s1 := loadLineAcq s k t hint (128 * w.vline, 128 * w.pline)
  let s2 := match findLine s1 (keyCore k) t.oid (128 * w.vline) with
    | some (sl, key, l) => setLine s1 sl key (lineStore l w false k s1.cycle)
    | none => s1
  sendLine s2 k w (curWord t)

/-- The stores of one instruction, lanes ascending (R186, R203, R204, R329). An ar store is followed by an acquire: the team's
later loads come after it and read no line that is older (R191). -/
def doStore (s : State) (k : Nat) (t : Team) (order scope hint : Nat) (lanes : List (Nat × Nat × Nat)) (data : Nat → List Byte) : State :=
  let (num, sa) := s.fresh
  let s0 := sa.modTeam k fun u => { u with storesOut := u.storesOut ++ [num] }
  let s1 := if ordRel order then drain s0 k t else s0
  let ws := lineWrites lanes data
  let s2 :=
    if ordRel order then ws.foldl (fun st x => storeLineRel st k t hint x.2) s1
    else (byWord (ws.map (·.1))).foldl (fun st g => storeWord st k t hint num (ws.filter fun x => g.contains x.1)) s1
  let s3 := (lanes.filter fun x => isPeer x.2.2).foldl (fun st x => askStore st k t num (acqOf order scope) x (data x.1)) s2
  let s4 := if ordAcq order then acquire s3 k t scope else s3
  digest (storeDone s4 k num) k (lanes.map fun x => (x.2.1, data x.1))

/-! ## Data returns (R203, R206) -/

/-- The value that returned bytes give register d of a destination: 4 bytes each, or 8 for a scalar. -/
def bytesVal (bs : List Byte) (d : Nat) : W64 := BitVec.ofNat 64 (leNat (bs.drop (4 * d)))

/-- The destinations of a load written in the lanes that met no error (R202). -/
def writeLoad (s : State) (l : Load) : State :=
  let good := l.lanes.filter fun x => !x.bad
  let mask := maskOf 1024 fun L => good.any fun x => decide (x.lane = L)
  let val := fun d L => match good.find? fun x => decide (x.lane = L) with | some x => bytesVal (x.data.getD []) d | none => 0
  if l.dst.isSK then (match good with | x :: _ => writeD s l.team 0 true l.dst fun _ => bytesVal (x.data.getD []) 0 | [] => s)
  else if l.size = 16 then (List.range 4).foldl (fun st d => writeD st l.team mask false (Opd.next l.dst d) (val d)) s
  else writeD s l.team mask (decide (l.size = 8)) l.dst (val 0)

/-- The operation of a word reads and writes: the atomics (R210, R248). -/
def loadAcc (word : W64) : Nat := if opOf word = 0x185 ∨ opOf word = 0x282 then accR + accW else accR

/-- The failed lanes that stand for a request each: the first of a 128-byte line, and each lane at a peer (R205, R319). -/
def badRequests (lanes : List LaneLoad) : List LaneLoad :=
  (lanes.filter (·.bad)).foldl (fun acc x => if !isPeer x.pa && acc.any (fun a => !isPeer a.pa && decide (a.va / 128 = x.va / 128)) then acc else acc ++ [x]) []

/-- The errors of a load's lanes are kept until a reader or a clause boundary (R206), and each request's is recorded (R247, R320). -/
def poisonLoad (s : State) (l : Load) : State :=
  match l.lanes.find? fun x => x.bad, s.team l.team with
  | some x, some t =>
    let p : Poison := { regs := useCodes (uz (if l.size = 8 then 3 else if l.size = 16 then 4 else 2) l.dst), word := l.word, hdr := l.hdr,
                        addr := BitVec.ofNat 64 x.va }
    (badRequests l.lanes).foldl (fun st y =>
      pageRecord st (ctxPart s t.oid) t.oid y.va rUncorrData (loadAcc l.word) (keyCore l.team) (keySlot l.team) 0 0)
      (s.setTeam l.team { t with poison := t.poison ++ [p] })
  | _, _ => s

/-- The data of a load returns: what it still waits for is finished, its destinations are written, and it leaves the table.
Nothing happens while a peer has not answered. -/
def returnLoad (s : State) (id : Nat) : State :=
  let s2 := finishLoad s id
  match s2.loads.find id with
  | none => s2
  | some l =>
    if l.lanes.any (fun x => x.data.isNone && !x.bad) then s2
    else poisonLoad (writeLoad { s2 with loads := s2.loads.erase id } l) l

end Sys2Proof.Machine
end

