-- ==== Sys2Proof/Machine/Scratch.lean ====
section
/-! DEFINITION. Scratchpad: allocations, banks, lane switch-off, barrier objects, and the destinations of copy-ring commands
(R178, R207 to R209, R216 to R218, R225 to R230). -/

namespace Sys2Proof.Machine

/-! ## Allocations and banks (R178) -/

/-- The allocation of a team's gang in bytes. -/
def spAlloc (s : State) (t : Team) : Nat := match teamPkt s t with | some p => p.scratch | none => 0
/-- The allocation of a gang. -/
def gangAlloc (s : State) (g : Nat) : Nat :=
  match s.gang g with
  | some x => (match s.kernel x.kernel with | some kn => kn.pkt.scratch | none => 0)
  | none => 0

/-- The key of a scratchpad byte in a gang's memory. -/
def spKey (core off : Nat) : Nat := core * 2 ^ 20 + off

def spBytes (s : State) (g core off n : Nat) : List Byte := match s.gang g with | some x => x.mem.bytes (spKey core off) n | none => List.replicate n 0
def spNat (s : State) (g core off n : Nat) : Nat := leNat (spBytes s g core off n)
def spWrite (s : State) (g core off : Nat) (bs : List Byte) : State :=
  match s.gang g with
  | some x => s.setGang g { x with mem := x.mem.setBytes (spKey core off) bs }
  | none => s
def spWriteNat (s : State) (g core off n v : Nat) : State := spWrite s g core off (leBytes n v)

/-! ## Copy rings as scratchpad holds them (R225 to R227, R230) -/

/-- A ring header. -/
structure RingHdr where
  notify : Nat
  done : Nat
  tag : Nat
  size : Nat
  status : Nat
  faultIx : Nat
  rest : Nat
  deriving DecidableEq, Repr

def ringHdr (s : State) (g core h : Nat) : RingHdr :=
  { notify := spNat s g core h 4, done := spNat s g core (h + 4) 4, tag := spNat s g core (h + 8) 2, size := spNat s g core (h + 10) 1,
    status := spNat s g core (h + 11) 1, faultIx := spNat s g core (h + 12) 4, rest := spNat s g core (h + 16) 16 }

/-- The header is well formed and its ring lies in the allocation (R226). -/
def ringGood (r : RingHdr) (h alloc : Nat) : Bool :=
  decide (3 ≤ r.size ∧ r.size ≤ 8 ∧ r.rest = 0 ∧ h + 32 + 32 * 2 ^ r.size ≤ alloc)

/-- Entry i of a ring. -/
def ringRaw (s : State) (g core h size i : Nat) : List Byte := spBytes s g core (h + 32 + 32 * (i % 2 ^ size)) 32

/-- The fields of a ring entry. -/
structure RingCmd where
  op : Nat
  flags : Nat
  bar : Nat
  len : Nat
  src : Nat
  dst : Nat
  high : Nat
  deriving DecidableEq, Repr

def ringCmd (raw : List Byte) : RingCmd :=
  let n := leNat raw
  { op := bitsAt n 0 8, flags := bitsAt n 8 8, bar := bitsAt n 16 16, len := bitsAt n 32 32, src := bitsAt n 64 64, dst := bitsAt n 128 64,
    high := bitsAt n 192 64 }

/-- A fill-ring descriptor (R230). -/
structure FillRing where
  wr : Nat
  rd : Nat
  bytes : Nat
  slots : Nat
  rest : Nat
  deriving DecidableEq, Repr

def fillRing (s : State) (g core f : Nat) : FillRing :=
  { wr := spNat s g core f 4, rd := spNat s g core (f + 4) 4, bytes := spNat s g core (f + 8) 4, slots := spNat s g core (f + 12) 1,
    rest := spNat s g core (f + 13) 3 }

/-- The descriptor keeps the limits of R230 and its area lies in the allocation. -/
def fillGood (r : FillRing) (f alloc : Nat) : Bool :=
  decide (r.bytes % 16 = 0 ∧ 16 ≤ r.bytes ∧ r.bytes ≤ 65536 ∧ 1 ≤ r.slots ∧ r.slots ≤ 8 ∧ r.rest = 0 ∧ f + 16 + r.bytes * 2 ^ r.slots ≤ alloc)

/-- The offset of slot a. -/
def fillSlot (r : FillRing) (f a : Nat) : Nat := f + 16 + r.bytes * (a % 2 ^ r.slots)

/-- The scratchpad range that a ring command targets, with the slot it has taken if it fills a ring. -/
def cmdTarget (s : State) (g core : Nat) (c : RingCmd) (slot : Option Nat) : List (Nat × Nat) :=
  if c.op = 1 ∧ c.flags.testBit 1 = true then
    if c.flags.testBit 2 then (match slot with | some a => [(fillSlot (fillRing s g core (c.dst % 2 ^ 32)) (c.dst % 2 ^ 32) a, c.len)] | none => [])
    else [(c.dst % 2 ^ 32, c.len)]
  else []

/-- The index of the next entry that the engine reads of a ring: what it knows, or done for a ring it has not seen. -/
def ringNext (s : State) (g core h done : Nat) : Nat :=
  match s.rings.find? fun r => decide (r.core = core ∧ r.gang = g ∧ r.off = h) with
  | some r => r.next
  | none => done

/-- Entries that a release has published and the engine has not read: up to the count that it wrote (R226). -/
def unreadCmds (s : State) (n : Notice) : List RingCmd :=
  let r := ringHdr s n.gang n.core n.off
  let next := ringNext s n.gang n.core n.off r.done
  let cnt := (n.count + 2 ^ 32 - next % 2 ^ 32) % 2 ^ 32
  if r.tag ≠ 0xc0b7 ∨ ringGood r n.off (gangAlloc s n.gang) = false ∨ r.status ≠ 0 ∨ 256 < cnt then []
  else (List.range cnt).map fun i => ringCmd (ringRaw s n.gang n.core n.off r.size (next + i))

/-- The scratchpad ranges on a core that a published command or a halo copy of the gang targets and has not completed
(R208). -/
def spTargets (s : State) (g core : Nat) : List (Nat × Nat) :=
  (s.entries.flatMap fun e => if e.2.gang = g ∧ e.2.core = core ∧ e.2.done = false then cmdTarget s g core (ringCmd e.2.raw) e.2.slot else []) ++
  (s.notices.flatMap fun n => if n.2.gang = g ∧ n.2.core = core then (unreadCmds s n.2).flatMap fun c => cmdTarget s g core c none else []) ++
  (s.halos.flatMap fun h => if h.2.gang = g ∧ h.2.core = core then (List.range h.2.rows).map fun r => (h.2.dst + r * h.2.stride, h.2.rowBytes) else [])

/-! ## Lane switch-off (R208) -/

/-- The lane's access is outside the allocation or touches a copy target. -/
def spBad (alloc : Nat) (targets : List (Nat × Nat)) (off size : Nat) : Bool :=
  decide (alloc < off + size) || targets.any fun r => decide (off < r.1 + r.2 ∧ r.1 < off + size)

/-- SwitchOff of one lane. -/
def switchOff (t : Team) (L : Nat) : Team :=
  let m := ~~~(maskOf 1024 fun l => decide (l = L))
  { t with
    e := t.e &&& m, p := t.p.map fun q => (q.1, q.2 &&& m)
    sfwords := t.sfwords ||| BitVec.ofNat 32 (2 ^ (L / 32))
    sffirst := if t.sffirst.getLsbD 15 = false ∨ L < bitsAt t.sffirst.toNat 0 10 then BitVec.ofNat 16 (0x8000 + L) else t.sffirst
    sfcount := t.sfcount + 1 }

/-- The end of a scratchpad instruction: lanes switched off, and the team ends when none is left (R208). -/
def spEnd (s : State) (k : Nat) (off : List Nat) : Res :=
  if off.isEmpty then .commit s
  else
    match s.team k with
    | none => .commit s
    | some t =>
      let t1 := off.foldl switchOff t
      let none := !maskAny t1.e t1.width && t1.p.all fun q => decide (7 ≤ q.1) || !maskAny q.2 t1.width
      if none then .endTeam (s.setTeam k t1) else .commit (s.setTeam k t1)

/-- A release write of 4 bytes at a multiple of 32 is looked at by the copy engine (R226). -/
def spNotice (s : State) (k : Nat) (t : Team) (order size : Nat) (offs : List Nat) : State :=
  if ordRel order && decide (size = 4) then
    (offs.filter fun o => decide (o % 32 = 0)).foldl (fun st o =>
      let (n, s1) := st.fresh
      let count := spNat s1 t.gang (keyCore k) o 4
      { s1 with notices := s1.notices.put n { core := keyCore k, gang := t.gang, off := o, team := k, count := count } }) s
  else s

/-! ## Barrier objects (R216, R217) -/

/-- A barrier object. -/
structure BarObj where
  bytes : Nat
  arrivals : Nat
  reload : Nat
  flags : Nat
  deriving DecidableEq, Repr

def barObj (s : State) (g core off : Nat) : BarObj :=
  { bytes := spNat s g core off 4, arrivals := spNat s g core (off + 4) 4, reload := spNat s g core (off + 8) 4, flags := spNat s g core (off + 12) 4 }
def barPhase (b : BarObj) : Nat := b.flags % 2

/-- An update that finds a reserved flag bit set writes those bits zero and sets BAD. -/
def barClean (b : BarObj) : BarObj := if 8 ≤ b.flags then { b with flags := b.flags % 8 ||| 4 } else b

def setBarObj (s : State) (g core off : Nat) (b : BarObj) : State :=
  spWrite s g core off (leBytes 4 b.bytes ++ leBytes 4 b.arrivals ++ leBytes 4 b.reload ++ leBytes 4 b.flags)

/-- The mode byte of a barrier wait record: bit 0 parity, bit 1 DONE, bit 2 RESET, [4:3] scope (R221). -/
def waitMode (w : BitVec 256) : Nat := waitField w 4 1
def waitSetDone (w : BitVec 256) : BitVec 256 := w ||| BitVec.ofNat 256 (2 * 2 ^ 32)

/-- A team whose wait of a kind, on an object or barrier, is not DONE is marked; one that waits in the active bank becomes READY
(R113, R217, R223). The wait of a team in its handler is marked too. -/
def markDone (kind : WKind) (n : Nat) (active : Bool) (t : Team) : Team :=
  let mine := fun (w : BitVec 256) => decide (waitField w 0 4 = n) && !(waitMode w).testBit 1
  if t.waitKind = kind ∧ mine t.wait = true then
    { t with wait := waitSetDone t.wait, state := if t.state = .waiting ∧ active = true then .ready else t.state }
  else
    match t.heldWait with
    | some (h, i, k, w) => if k = kind ∧ mine w = true then { t with heldWait := some (h, i, k, waitSetDone w) } else t
    | none => t

/-- Every wait on the object that is not DONE is marked (R217). -/
def wakeBar (s : State) (g core off : Nat) : State :=
  { s with teams := s.teams.map fun e =>
      if keyCore e.1 = core ∧ e.2.gang = g then (e.1, markDone .bar off (decide (keyBank e.1 = (s.core core).active)) e.2) else e }

/-- The check after each arrival and byte reduction. -/
def barCheck (s : State) (g core off : Nat) (b : BarObj) : State :=
  if b.arrivals = 0 ∧ b.bytes = 0 then
    wakeBar (setBarObj s g core off { b with flags := b.flags ^^^ 1, arrivals := b.reload }) g core off
  else setBarObj s g core off b

/-- An arrival that carries bytes (R217, R220). -/
def barArrival (s : State) (g core off bytes : Nat) : State :=
  let b0 := barClean (barObj s g core off)
  let b := { b0 with bytes := (b0.bytes + bytes) % 2 ^ 32 }
  barCheck s g core off (if b.arrivals = 0 then { b with flags := b.flags ||| 2 } else { b with arrivals := b.arrivals - 1 })

/-- A completion that reduces pending bytes (R217, R218). -/
def barReduce (s : State) (g core off bytes : Nat) : State :=
  let b := barClean (barObj s g core off)
  barCheck s g core off { b with bytes := (b.bytes + 2 ^ 32 - bytes % 2 ^ 32) % 2 ^ 32 }

/-- The checks of R218 on a barrier offset: MISALIGN or SCRATCH at the instruction. -/
def barOffset (s : State) (t : Team) (g : Guard) (off : Nat) (go : Res) : Res :=
  if off % 16 ≠ 0 then teamTrap s t g cMisalign (BitVec.ofNat 64 off)
  else if spAlloc s t < off + 16 then teamTrap s t g cScratch (BitVec.ofNat 64 off)
  else go

end Sys2Proof.Machine
end

