-- ==== Sys2Proof/Machine/Access.lean ====
section
/-! DEFINITION. Loads, stores, atomics, fences, waiting on an address and prefetch hints, opcodes 0x180 to 0x189, msync, and
the steps that finish accesses in flight (R126, R199 to R215). -/

namespace Sys2Proof.Machine

/-! ## Addresses and data (R199, R202) -/

/-- Size in bytes of a size code. -/
def sizeOf (z : BitVec 3) : Nat := 2 ^ z.toNat

/-- The index of R199. -/
def indexOf (s : State) (k : Nat) (t : Team) (o : Opd) (L : Nat) : W64 :=
  if o.isN then 0
  else if o.isVK then ((opd s k t false o L).truncate 32).signExtend 64
  else opd s k t true o L

/-- Addr(L). -/
def memAddr (s : State) (k : Nat) (t : Team) (f : MEM) (L : Nat) : Nat :=
  let z := BitVec.ofNat 64 (sizeOf f.size)
  extVA (opd s k t true f.base L + indexOf s k t f.index L * z + f.off.signExtend 64 * z)

/-- The scratchpad offset of R207. -/
def spOffset (s : State) (k : Nat) (t : Team) (f : MEM) (L : Nat) : Nat :=
  let n := fun o => if Opd.isN o then 0 else n32Src s k t o L
  let z := sizeOf f.size
  (n f.base + n f.index * z + (f.off.signExtend 32).toNat * z) % 2 ^ 32

/-- The bytes that a lane stores. -/
def storeData (s : State) (k : Nat) (t : Team) (d : Opd) (size L : Nat) : List Byte :=
  if size = 16 then (List.range 4).flatMap fun j => leBytes 4 (n32Src s k t (Opd.next d j) L)
  else leBytes size (opd s k t (decide (size = 8)) d L).toNat

/-- Lanes with their addresses. -/
def laneAddrs (lanes : List Nat) (f : Nat → Nat) : List (Nat × Nat) := lanes.map fun L => (L, f L)

/-! ## Waiting for peers, and snares -/

/-- A memory instruction waits at issue for an access at a peer that holds it, and a release for the team's requests to peers. -/
def memGo (s : State) (k : Nat) (order : Nat) (go : Res) : Res :=
  if peerHold s k || (ordRel order && peerOut s k) then .stall s else go

/-- A data snare stops the team before anything of the access (R307). -/
def withSnare (s : State) (k : Nat) (t : Team) (kind size : Nat) (lanes : List (Nat × Nat)) (go : Res) : Res :=
  match dataSnare s k t kind size lanes with
  | some n => .done (stopTeam s k n)
  | none => go

/-! ## ld, st, ldu (R201 to R204) -/

/-- The checks of R200 for a load: a lane that hits the L1 needs no translation (R179, log entry 13). -/
def checkLoad (s : State) (k : Nat) (t : Team) (size : Nat) (lanes : List (Nat × Nat)) : Chk :=
  if lanes.any fun p => decide (p.2 % size ≠ 0) then checkLanes s k t size accR lanes
  else
    let hit := fun (p : Nat × Nat) => (findLine s (keyCore k) t.oid p.2).map fun x => (p.1, p.2, 128 * x.2.2.pline + p.2 % 128)
    match checkLanes s k t size accR (lanes.filter fun p => (hit p).isNone) with
    | .stop r => .stop r
    | .go s1 ls =>
      .go s1 (lanes.filterMap fun p => match hit p with | some x => some x | none => ls.find? fun x => decide (x.1 = p.1))

/-- A load that misses takes demand misses: it is not one that is performed at the home slices (R186, R205). -/
def takesMisses (f : MEM) : Bool := !(ordAcq f.order.toNat && decide (f.scope ≠ 0))

def execLd (f : MEM) (s : State) : Out :=
  .next (issue (.ld f) s fun k t s =>
    let size := sizeOf f.size
    let lanes := laneAddrs (maskLanes (lanesOf t f.g) t.width) (memAddr s k t f)
    memGo s k f.order.toNat <| withSnare s k t 1 size lanes <|
      match checkLoad s k t size lanes with
      | .stop r => r
      | .go s1 ls =>
        match ls with
        | [] => .commit s1
        | x :: _ =>
          if takesMisses f && missStall s1 k t ls then .stall s1 else
          let s2 := doLoad s1 k t f.order.toNat f.scope.toNat f.hint.toNat size f.d ls
          .commit (trainSpt s2 (keyCore k) t.oid (wordAddr t.h t.i).toNat x.2.1))

def execLdu (f : MEM) (s : State) : Out :=
  .next (issue (.ldu f) s (once f.g fun k t s =>
    let size := sizeOf f.size
    let L0 := (maskFirst (lanesOf t f.g) t.width).getD 0
    let lanes := [(L0, memAddr s k t f L0)]
    memGo s k f.order.toNat <| withWide s k t (lanesOf t f.g) 1 (lanes.map fun p => (p.2, size)) <|
      match checkLoad s k t size lanes with
      | .stop r => wideRes k (lanesOf t f.g) r
      | .go s1 ls =>
        if takesMisses f && missStall s1 k t ls then .stall s1 else .commit (doLoad s1 k t f.order.toNat f.scope.toNat f.hint.toNat size f.d ls)))

def execSt (f : MEM) (s : State) : Out :=
  .next (issue (.st f) s fun k t s =>
    let size := sizeOf f.size
    let lanes := laneAddrs (maskLanes (lanesOf t f.g) t.width) (memAddr s k t f)
    memGo s k f.order.toNat <| withSnare s k t 2 size lanes <|
      match checkLanes s k t size accW lanes with
      | .stop r => r
      | .go s1 ls =>
        if ls.isEmpty then .commit s1
        else if !ordRel f.order.toNat && decide (f.hint = 0) && missStall s1 k t ls then .stall s1
        else .commit (doStore s1 k t f.order.toNat f.scope.toNat f.hint.toNat ls (storeData s k t f.d size)))

/-! ## Scratchpad (R207, R208) -/

/-- MISALIGN over scratchpad offsets, before any lane is looked at alone. -/
def spAligned (s : State) (size : Nat) (lanes : List (Nat × Nat)) (go : Res) : Res :=
  match lanes.find? fun p => decide (p.2 % size ≠ 0) with
  | some p => .trap s { bits := cMisalign, addr := BitVec.ofNat 64 p.2,
                        mask := maskOf 1024 fun L => lanes.any fun q => decide (q.1 = L ∧ q.2 % size ≠ 0) }
  | none => go

/-- What an order does around a scratchpad access: a release performs the team's earlier accesses. -/
def spRelease (s : State) (k : Nat) (t : Team) (order : Nat) : State := if ordRel order then drain s k t else s
def spAcquire (s : State) (k : Nat) (t : Team) (order scope : Nat) : State := if ordAcq order then acquire s k t scope else s

/-- The lanes that perform, and the lanes that are switched off. -/
def spSplit (s : State) (k : Nat) (t : Team) (size : Nat) (lanes : List (Nat × Nat)) : List (Nat × Nat) × List Nat :=
  let alloc := spAlloc s t
  let targets := spTargets s t.gang (keyCore k)
  (lanes.filter fun p => !spBad alloc targets p.2 size, (lanes.filter fun p => spBad alloc targets p.2 size).map (·.1))

def execLdsp (f : MEM) (s : State) : Out :=
  .next (issue (.ldsp f) s fun k t s =>
    let size := sizeOf f.size
    let lanes := laneAddrs (maskLanes (lanesOf t f.g) t.width) (spOffset s k t f)
    if lanes.isEmpty then .commit s else
    memGo s k f.order.toNat <| spAligned s size lanes <|
      let sp := spSplit s k t size lanes
      let s1 := spRelease s k t f.order.toNat
      let s2 := if sp.1.isEmpty then s1 else
        addLoad s1 k t f.d size 0 (sp.1.map fun p => laneOf (p.1, p.2, 0) (some (spBytes s1 t.gang (keyCore k) p.2 size)) false)
      spEnd (spAcquire s2 k t f.order.toNat f.scope.toNat) k sp.2)

def execStsp (f : MEM) (s : State) : Out :=
  .next (issue (.stsp f) s fun k t s =>
    let size := sizeOf f.size
    let lanes := laneAddrs (maskLanes (lanesOf t f.g) t.width) (spOffset s k t f)
    if lanes.isEmpty then .commit s else
    memGo s k f.order.toNat <| spAligned s size lanes <|
      let sp := spSplit s k t size lanes
      let s1 := spRelease s k t f.order.toNat
      let s2 := sp.1.foldl (fun st p => spWrite st t.gang (keyCore k) p.2 (storeData s k t f.d size p.1)) s1
      spEnd (spNotice s2 k t f.order.toNat size (sp.1.map (·.2))) k sp.2)

/-! ## Atomics (R210, R211) -/

/-- NewValue of R210 on n-byte values. -/
def atomNew (op n old d c : Nat) : Nat :=
  let w := 8 * n
  let sg := fun (x : Nat) => if 2 ^ (w - 1) ≤ x then (x : Int) - 2 ^ w else (x : Int)
  match op with
  | 0 => (old + d) % 2 ^ w
  | 1 => if sg old ≤ sg d then old else d
  | 2 => if sg old ≤ sg d then d else old
  | 3 => Nat.min old d
  | 4 => Nat.max old d
  | 5 => old &&& d
  | 6 => old ||| d
  | 7 => old ^^^ d
  | 8 => d
  | 9 => if old = c then d else old
  | 10 => if d ≤ old then 0 else old + 1
  | 11 => if old = 0 ∨ d < old then d else old - 1
  | _ =>
    let fm := if n = 8 then fmtF64 else fmtF32
    (deliverF fm plainEnv [] (addF 0 (unpack fm old) (unpack fm d))).1

/-- The operation writes: a cas that fails does not (R211). -/
def atomWrites (op old c : Nat) : Bool := decide (op ≠ 9 ∨ old = c)

/-- The data and compare of a lane. -/
def atomData (s : State) (k : Nat) (t : Team) (f : ATM) (o : Opd) (L : Nat) : Nat :=
  (opd s k t (decide (f.size = 3)) o L).toNat % 2 ^ (8 * sizeOf f.size)

/-- One lane of an atom at its home slice: the issuing L1's copy leaves first (R181). The third component says that the lane
wrote; D is set then, since a cas that fails is no write (R211, R245). -/
def atomLane (s : State) (k : Nat) (t : Team) (op n : Nat) (x : Nat × Nat × Nat) (d c : Nat) (word : W64) : State × LaneLoad × Bool :=
  let s1 := match findLine s (keyCore k) t.oid x.2.1 with | some (sl, key, _) => flushLine s sl key | none => s
  if badAt s1 x.2.2 n then (s1, laneOf x none true, false)
  else
    let old := homeNat s1 x.2.2 n
    let wr := atomWrites op old c
    (if wr then teamHomeWrite (setD s1 (clusterOf (keyCore k)) t.oid x.2.1) k x.2.1 x.2.2 (leBytes n (atomNew op n old d c)) word else s1,
      laneOf x (some (leBytes n old)) false, wr)

/-- The lanes of an atom, ascending. At a peer every operation but a compare-and-swap is a write; see peerCas. -/
def atomLanes (k : Nat) (t : Team) (op n : Nat) (word : W64) (dc : Nat → Nat × Nat) :
    List (Nat × Nat × Nat) → State → State × List (LaneLoad × Bool)
  | [], s => (s, [])
  | x :: r, s =>
    let d := dc x.1
    let a := if isPeer x.2.2 then (if op = 9 then s else setD s (clusterOf (keyCore k)) t.oid x.2.1, laneOf x none false, decide (op ≠ 9)) else atomLane s k t op n x d.1 d.2 word
    let b := atomLanes k t op n word dc r a.1
    (b.1, (a.2.1, a.2.2) :: b.2)

/-- The payload of an atomic request to a peer: operation, size, data, compare (log entry 14). -/
def atomPayload (op n d c : Nat) : List Byte := leBytes 1 op ++ leBytes 1 n ++ leBytes 8 d ++ leBytes 8 c

/-- The peer lanes of an atom are asked for, ascending, and what the digest takes of each lane is noted: a compare-and-swap at a peer once
its answer says that it wrote (R211, R319, R329). -/
def askAtoms (k : Nat) (t : Team) (op n num : Nat) (load : Bool) (acq : Option Nat) (dc : Nat → Nat × Nat) :
    List (LaneLoad × Bool) → State → State × List DigestItem
  | [], s => (s, [])
  | y :: r, s =>
    let x := y.1
    let d := dc x.lane
    let rec' := DigestItem.data x.va (leBytes n d.1)
    if isPeer x.pa then
      let b := askAtoms k t op n num load acq dc r
        (askPeer s (teamReq t k 2 x.va x.pa num (atomPayload op n d.1 d.2) (if load then some (num, x.lane) else none) acq))
      (b.1, (if op = 9 then DigestItem.ask s.nextId else rec') :: b.2)
    else
      let b := askAtoms k t op n num load acq dc r s
      (b.1, if y.2 then rec' :: b.2 else b.2)

/-- A compare-and-swap whose request has failed at once is no record. -/
def askedOrDone (s : State) : DigestItem → Bool
  | .ask req => (s.peers.find req).isSome
  | _ => true

/-- The atom of lanes that have passed their checks: a release before it, the lanes in order, an acquire after it; the old values
return as a load, or nothing does (R186, R204, R211). -/
def doAtom (s : State) (k : Nat) (t : Team) (f : ATM) (dc : Nat → Nat × Nat) (ls : List (Nat × Nat × Nat)) : State :=
  let n := sizeOf f.size
  let op := f.aop.toNat
  let s2 := settleAll (if ordRel f.order.toNat then drain s k t else s) k t ls
  let a := atomLanes k t op n (curWord t) dc ls s2
  let s3 := if ordAcq f.order.toNat then acquire a.1 k t f.scope.toNat else a.1
  let lds := a.2.map (·.1)
  let (num, s4) := s3.fresh
  let s5 :=
    if f.noRet then
      (lds.filter (·.bad)).foldl (fun st x => holdUncorr st k x.va accW (curWord t)) (s4.modTeam k fun u => { u with storesOut := u.storesOut ++ [num] })
    else { s4 with loads := s4.loads.put num { team := k, word := curWord t, hdr := curHdr t, dst := f.d, size := n, lanes := lds, hint := 0, sig := pcSig t } }
  let q := askAtoms k t op n num (!f.noRet) (acqOf f.order.toNat f.scope.toNat) dc a.2 s5
  digestItems (if f.noRet then storeDone q.1 k num else q.1) k (q.2.filter fun x => askedOrDone q.1 x)

/-- The data and the compare value of each lane. -/
def atomOperands (s : State) (k : Nat) (t : Team) (f : ATM) (L : Nat) : Nat × Nat :=
  (atomData s k t f f.data L, if f.cmp.isN then 0 else atomData s k t f f.cmp L)

def execAtom (f : ATM) (s : State) : Out :=
  .next (issue (.atom f) s fun k t s =>
    let n := sizeOf f.size
    let lanes := laneAddrs (maskLanes (lanesOf t f.g) t.width) fun L => extVA (opd s k t true f.addr L)
    memGo s k f.order.toNat <| withSnare s k t 3 n lanes <|
      match permLanes s k t n (accR + accW) lanes with
      | .stop r => r
      | .go s1 ls => if ls.isEmpty then .commit s1 else .commit (doAtom s1 k t f (atomOperands s k t f) ls))

/-- The lanes of an atomsp at their bank, ascending: old values and the state. -/
def atomspLanes (g core op n : Nat) (dc : Nat → Nat × Nat) : List (Nat × Nat) → State → State × List LaneLoad
  | [], s => (s, [])
  | p :: r, s =>
    let old := spNat s g core p.2 n
    let d := dc p.1
    let s1 := if atomWrites op old d.2 then spWriteNat s g core p.2 n (atomNew op n old d.1 d.2) else s
    let b := atomspLanes g core op n dc r s1
    (b.1, laneOf (p.1, p.2, 0) (some (leBytes n old)) false :: b.2)

def execAtomsp (f : ATM) (s : State) : Out :=
  .next (issue (.atomsp f) s fun k t s =>
    let n := sizeOf f.size
    let lanes := laneAddrs (maskLanes (lanesOf t f.g) t.width) (n32Src s k t f.addr)
    if lanes.isEmpty then .commit s else
    memGo s k f.order.toNat <| spAligned s n lanes <|
      let sp := spSplit s k t n lanes
      let dc := atomOperands s k t f
      let a := atomspLanes t.gang (keyCore k) f.aop.toNat n dc sp.1 (spRelease s k t f.order.toNat)
      let s1 := spAcquire a.1 k t f.order.toNat f.scope.toNat
      let s2 := if f.noRet || sp.1.isEmpty then s1 else addLoad s1 k t f.d n 0 a.2
      spEnd (spNotice s2 k t f.order.toNat n (sp.1.map (·.2))) k sp.2)

/-! ## Fences, msync (R126, R212) -/

def execFence (f : MEM) (s : State) : Out :=
  .next (issue (.fence f) s (once f.g fun k t s =>
    if peerHold s k then .stall s else fenceWith s k t f.order.toNat f.scope.toNat .commit))

/-- The two lanes that a disagreement names: the lowest participant and the first lane whose mask differs, or the lowest
lane absent from its own mask, with ABSENT. -/
def msyncBad (ms : List (Nat × Nat)) : Option (Nat × Nat × Bool) :=
  match ms with
  | [] => none
  | a :: _ =>
    match ms.find? fun x => decide (x.2 ≠ a.2) with
    | some b => some (a.1, b.1, false)
    | none => (ms.find? fun x => !x.2.testBit x.1).map fun b => (a.1, b.1, true)

/-- Lanes that agree are ordered as by a team-scope acquire-release fence. -/
def execMsync (f : VR) (s : State) : Out :=
  .next (issue (.msync f) s fun k t s =>
    let ps := participants t f.g
    match msyncBad (ps.map fun L => (L, bitSrc s k t f.t f.a L)) with
    | none => if ps.isEmpty then .commit s else if peerHold s k then .stall s else fenceWith s k t 3 0 .commit
    | some (a, b, absent) =>
      .trap s { bits := cSyncMask, addr := BitVec.ofNat 64 (a + b * 2 ^ 16 + (if absent then 2 ^ 31 else 0)),
                mask := maskOf 1024 fun L => decide (L = a ∨ L = b) })

/-! ## Waiting on an address (R213, R214) -/

/-- 0 eq, 1 ne, 2 geu, 3 ges on n-byte values. -/
def waitCond (c n v b : Nat) : Bool :=
  let w := 8 * n
  let sg := fun (x : Nat) => if 2 ^ (w - 1) ≤ x then (x : Int) - 2 ^ w else (x : Int)
  match c with
  | 0 => decide (v = b)
  | 1 => decide (v ≠ b)
  | 2 => decide (b ≤ v)
  | _ => decide (sg b ≤ sg v)

/-- An instruction that had waited ends its wait as it commits. -/
def clearWait (s : State) (k : Nat) : State := s.modTeam k fun u => { u with waitKind := .none, wait := 0 }

/-- The team becomes WAITING with a record, unless it already has one, and leaves its pipe with resume point (H, i). -/
def waitWith (s : State) (k : Nat) (kind : WKind) (rec : BitVec 256) : Res :=
  .leave (s.modTeam k fun u => { u with state := .waiting, waitKind := kind, wait := rec })

/-- The deadline of a wait: the saved one when the instruction issues again, otherwise tick + C, or none (R213). A sum that no tick
reaches is none (R4, R6). -/
def waitDeadline (s : State) (k : Nat) (t : Team) (kind : WKind) (saved : Nat) (c : Opd) : Nat :=
  if t.waitKind = kind then saved else if c.isN then noDeadline else Nat.min noDeadline (s.tick + (opdS s k t c).toNat)

/-- A deadline has come. -/
def pastDeadline (s : State) (d : Nat) : Bool := decide (d ≠ noDeadline ∧ d ≤ s.tick)

def execWaitaddr (f : ATM) (s : State) : Out :=
  .next (issue (.waitaddr f) s (once f.g fun k t s =>
    let n := sizeOf f.size
    let va := extVA (opdS s k t f.addr)
    let acq := ordAcq f.order.toNat
    if peerHold s k then .stall s else withWide s k t (lanesOf t f.g) 1 [(va, n)] <|
      match checkWide s k t f.g n accR [(0, va)] with
      | .stop r => r
      | .go s1 ls =>
        match ls with
        | [] => .commit s1
        | x :: _ =>
          if isPeer x.2.2 then wideRes k (lanesOf t f.g) (failXlat s1 k t accR [(0, va, .fail rSegment 0)] va rSegment)
          else
            let s2 := cleanLine (settle s1 k t va x.2.2) k t va
            let b := (opdS s k t f.data).toNat % 2 ^ (8 * n)
            let dl := waitDeadline s k t .addr (waitField t.wait 24 8) f.cmp
            if badAt s2 x.2.2 n then .trap (pageRecord s2 (ctxPart s t.oid) t.oid va rUncorrData accR (keyCore k) (keySlot k) 0 0)
                { bits := cUncorrectable, addr := BitVec.ofNat 64 va, mask := lanesOf t f.g }
            else if waitCond f.aop.toNat n (homeNat s2 x.2.2 n) b then
              let s3 := if acq then acquire s2 k t f.scope.toNat else s2
              .commit (writeS (clearWait s3 k) k f.d 0)
            else if pastDeadline s2 dl then .commit (writeS (clearWait (if acq then acquire s2 k t f.scope.toNat else s2) k) k f.d 1)
            else
              waitWith s2 k .addr (waitMake [(0, va), (10, f.aop.toNat + 16 * f.size.toNat), (11, f.order.toNat + 8 * f.scope.toNat),
                (12, Opd.code f.d), (16, b), (24, dl)])))

/-! ## Prefetch hints (R215) -/

def execPfh (f : MEM) (s : State) : Out :=
  .next (issue (.pfh f) s fun k t s =>
    let core := keyCore k
    let vas := (maskLanes (lanesOf t f.g) t.width).map (memAddr s k t f)
    let lines := vas.foldl (fun acc a => if acc.contains (a / 128) then acc else acc ++ [a / 128]) []
    .commit (lines.foldl (fun st v =>
      match findLine st core t.oid (128 * v) with
      | some (sl, key, l) => if f.hint = 0 then hitLine st core sl key l else st
      | none => if linePresent st core t.oid v then st else prefetch st core t.oid v (pcSig t) (decide (f.hint = 1))) s))

/-! ## Steps that finish accesses (R80, R180, R182, R203) -/

/-- The data of a load returns. -/
def execLoadDataReturn (load : Nat) (s : State) : Out := .next (returnLoad s load)
/-- A fill arrives. -/
def execL1Fill (fill : Nat) (s : State) : Out := .next (completeFill s fill)
/-- A line that has been dirty for 65,536 core cycles is sent to its home slice (R182). -/
def execDirtyLineTimeout (core line : Nat) (s : State) : Out :=
  .next (match (s.core core).l1.find line with
    | some l => if l.dirty ≠ 0 ∧ l.since + 65536 ≤ s.cycle then setLine s core line { l with leaving := true } else s
    | none => s)
/-- A write-back that has been sent is accepted whole (R180). The other events of R182 write back within their own steps. -/
def execWriteBackAccepted (core line : Nat) (s : State) : Out :=
  .next (match (s.core core).l1.find line with
    | some l => if l.leaving then writeBack s core line else s
    | none => s)
/-- A store on its way is accepted. -/
def execHomeSliceAccept (post : Nat) (s : State) : Out := .next (acceptPost s post)

end Sys2Proof.Machine
end

