-- ==== Sys2Proof/Machine/Barrier.lean ====
section
/-! DEFINITION. Barrier objects and cluster barriers, opcodes 0x200 to 0x206 (R216 to R224). -/

namespace Sys2Proof.Machine

/-- A scratchpad offset in a uniform operand, 32 bits (R207, R218). -/
def offS (s : State) (k : Nat) (t : Team) (o : Opd) : Nat := (opdS s k t o).toNat % 2 ^ 32

/-- The scope code of R44 that M[1:0] names: 0 gang, 1 dev, 2 sys (R219). -/
def barScope (m : BitVec 10) : Nat := fld m 0 2 + 1

/-- A bar instruction: once for the team, its offset checked first (R218, R219). -/
def barForm (i : Instr) (f : VR) (body : Nat → Team → State → Nat → Res) (s : State) : Out :=
  .next (issue i s (once f.g fun k t s =>
    let off := offS s k t f.a
    barOffset s t f.g off (body k t s off)))

def execBarInit (f : VR) (s : State) : Out :=
  barForm (.barInit f) f (fun k t s off =>
    let b := offS s k t f.b
    .commit (setBarObj s t.gang (keyCore k) off { bytes := 0, arrivals := b, reload := b, flags := 0 })) s

def execBarExpect (f : VR) (s : State) : Out :=
  barForm (.barExpect f) f (fun k t s off =>
    let b := barClean (barObj s t.gang (keyCore k) off)
    .commit (setBarObj s t.gang (keyCore k) off { b with bytes := (b.bytes + offS s k t f.b) % 2 ^ 32 })) s

/-- A release at its scope, then the arrival (R220). -/
def execBarArrive (f : VR) (s : State) : Out :=
  barForm (.barArrive f) f (fun k t s off =>
    if peerHold s k then .stall s
    else fenceWith s k t 2 (barScope f.m) fun s1 =>
      let old := barPhase (barObj s1 t.gang (keyCore k) off)
      let n := if f.b.isN then 0 else offS s k t f.b
      .commit (writeS (barArrival s1 t.gang (keyCore k) off n) k f.d (BitVec.ofNat 64 old))) s

/-- An acquire that completes a wait with a status (R221). -/
def waitDone (s : State) (k : Nat) (t : Team) (scope : Nat) (d : Opd) (status : Nat) : Res :=
  .commit (writeS (clearWait (acquire s k t scope) k) k d (BitVec.ofNat 64 status))
/-- A wait that ends without an acquire. -/
def waitOver (s : State) (k : Nat) (d : Opd) (status : Nat) : Res := .commit (writeS (clearWait s k) k d (BitVec.ofNat 64 status))

/-- The wait record of R221. -/
def barRecord (off mode : Nat) (d : Opd) (dl : Nat) : BitVec 256 := waitMake [(0, off), (4, mode), (6, Opd.code d), (8, dl)]

/-- bar.wait (R221). A team that issues again does not read the object again, but for one that ctx.load has brought back with DONE
clear (R222). -/
def execBarWait (f : VR) (s : State) : Out :=
  barForm (.barWait f) f (fun k t s off =>
    let sc := barScope f.m
    let par := (opdS s k t f.b).toNat % 2
    let saved := decide (t.waitKind = .saved)
    let dl := waitDeadline s k t (if saved then .saved else .bar) (waitField t.wait 8 8) f.c
    if peerHold s k then .stall s
    else if (decide (t.waitKind = .bar) || saved) && (waitMode t.wait).testBit 1 then waitDone s k t sc f.d 0
    else if t.waitKind = .bar then waitOver s k f.d 1
    else if barPhase (barObj s t.gang (keyCore k) off) ≠ par then waitDone s k t sc f.d 0
    else if pastDeadline s dl then waitOver s k f.d 1
    else waitWith s k .bar (barRecord off (par + 8 * sc) f.d dl)) s

def execBarTest (f : VR) (s : State) : Out :=
  barForm (.barTest f) f (fun k t s off =>
    let par := (opdS s k t f.b).toNat % 2
    if peerHold s k then .stall s
    else if barPhase (barObj s t.gang (keyCore k) off) ≠ par then waitDone s k t (barScope f.m) f.d 1
    else waitOver s k f.d 0) s

/-- When a bar.wait's deadline passes, the team becomes READY and commits with status 1 (R221). -/
def execBarWaitTimeout (core slot : Nat) (s : State) : Out :=
  .next (let k := s.activeKey core slot
    match s.team k with
    | none => s
    | some t =>
      if t.state = .waiting ∧ t.waitKind = .bar ∧ pastDeadline s (waitField t.wait 8 8) = true
      then s.setTeam k { t with state := .ready } else s)

/-! ## Cluster barriers (R223, R224) -/

/-- The barrier n of a team's cluster when its gang holds it. -/
def hbarHeld (s : State) (k : Nat) (t : Team) (n : Nat) : Option HBar :=
  match (s.cluster (clusterOf (keyCore k))).hbars.find n with
  | some b => if b.oid = t.oid ∧ b.kernel = t.kernel ∧ b.gidx = t.gidx then some b else none
  | none => none

def setHBar (s : State) (cl n : Nat) (b : HBar) : State :=
  let c := s.cluster cl
  s.setCluster cl { c with hbars := c.hbars.put n b }
def freeHBar (s : State) (cl n : Nat) : State :=
  let c := s.cluster cl
  s.setCluster cl { c with hbars := c.hbars.erase n }

/-- A phase completes: the holder's waiting teams and halo copies on the cluster go on (R223, R235). -/
def hbarWake (s : State) (cl n : Nat) (b : HBar) : State :=
  { s with
    teams := s.teams.map fun e =>
      if clusterOf (keyCore e.1) = cl ∧ e.2.oid = b.oid ∧ e.2.kernel = b.kernel ∧ e.2.gidx = b.gidx
      then (e.1, markDone .hbar n (decide (keyBank e.1 = (s.core (keyCore e.1)).active)) e.2) else e
    halos := s.halos.map fun h =>
      if clusterOf h.2.core = cl ∧ h.2.bar = n ∧ (match s.team h.2.team with
        | some u => decide (u.oid = b.oid ∧ u.kernel = b.kernel ∧ u.gidx = b.gidx) | none => false) = true
      then (h.1, { h.2 with go := true }) else h }

/-- An arrival of j counts: whether it completed the phase, and whether it carried more than pending. -/
def hbarArrival (s : State) (cl n : Nat) (b : HBar) (j : Nat) : State × Bool × Bool :=
  if j = 0 then (s, false, false)
  else if j < b.pending then (setHBar s cl n { b with pending := b.pending - j }, false, false)
  else
    let ovf := decide (b.pending < j)
    (hbarWake (setHBar s cl n { b with pending := b.count, phase := !b.phase, ovf := b.ovf || ovf }) cl n b, true, ovf)

/-- The status of hbar: code, OVER of the own arrival, phase seen (R224). -/
def hbarStatus (code : Nat) (ovf : Bool) (phase : Bool) : Nat := code + (if ovf then 4 else 0) + (if phase then 8 else 0)

/-- A team that waited on a cluster barrier ends its wait: OK as an acquire, or RESET (R222, R224). -/
def hbarResume (s : State) (k : Nat) (t : Team) (d : Opd) : Res :=
  let m := waitMode t.wait
  if m.testBit 1 then waitDone s k t 1 d (hbarStatus 0 false (m.testBit 0)) else waitOver s k d (hbarStatus 2 false (m.testBit 0))

/-- An hbar instruction of barrier n: a wait that has ended or that ctx.load has brought back; one that is not over, to which the team
has come back from a handler; NOT_HELD; or its body. -/
def hbarForm (i : Instr) (f : VR) (body : Nat → Team → State → HBar → Nat → Nat → Res) (s : State) : Out :=
  .next (issue i s (once f.g fun k t s =>
    let n := fld f.m 0 5
    if peerHold s k then .stall s
    else if t.waitKind = .saved then hbarResume s k t f.d
    else if t.waitKind = .hbar then
      (if (waitMode t.wait).testBit 1 || (waitMode t.wait).testBit 2 then hbarResume s k t f.d else waitWith s k .hbar t.wait)
    else
      match hbarHeld s k t n with
      | none => .commit (writeS s k f.d 1)
      | some b => body k t s b (clusterOf (keyCore k)) n))

/-- The wait of hbar: its mode byte holds the phase seen. -/
def hbarWait (s : State) (k : Nat) (n : Nat) (phase : Bool) (d : Opd) : Res :=
  waitWith s k .hbar (barRecord n ((if phase then 1 else 0) + 8) d noDeadline)

def execHbarSync (f : VR) (s : State) : Out :=
  hbarForm (.hbarSync f) f (fun k t s b cl n => fenceWith s k t 2 1 fun s1 =>
    let a := hbarArrival s1 cl n b 1
    if a.2.1 then .commit (writeS (acquire a.1 k t 1) k f.d (BitVec.ofNat 64 (hbarStatus 0 a.2.2 b.phase)))
    else hbarWait a.1 k n b.phase f.d) s

def execHbarArrive (f : VR) (s : State) : Out :=
  hbarForm (.hbarArrive f) f (fun k t s b cl n =>
    let j := offS s k t f.a
    if j = 0 then .commit (writeS s k f.d (BitVec.ofNat 64 (hbarStatus 0 false b.phase)))
    else fenceWith s k t 2 1 fun s1 =>
      let a := hbarArrival s1 cl n b j
      .commit (writeS a.1 k f.d (BitVec.ofNat 64 (hbarStatus 0 a.2.2 b.phase)))) s

def execHbarWait (f : VR) (s : State) : Out :=
  hbarForm (.hbarWait f) f (fun k t s b _ n =>
    let par := decide ((opdS s k t f.a).toNat % 2 = 1)
    if b.phase ≠ par then waitDone s k t 1 f.d (hbarStatus 0 false b.phase) else hbarWait s k n b.phase f.d) s

/-- Take the barrier or set its count: BAD before HELD before BUSY (R224). -/
def execHbarCnt (f : VR) (s : State) : Out :=
  .next (issue (.hbarCnt f) s (once f.g fun k t s =>
    let n := fld f.m 0 5
    let cl := clusterOf (keyCore k)
    let a := (opdS s k t f.a).toNat
    let st := fun v s => Res.commit (writeS s k f.d (BitVec.ofNat 64 v))
    if a < 1 ∨ 65535 < a then st 3 s
    else
      match (s.cluster cl).hbars.find n with
      | none => st 0 (setHBar s cl n { oid := t.oid, kernel := t.kernel, gidx := t.gidx, count := a, pending := a, phase := false, ovf := false })
      | some b =>
        if b.oid ≠ t.oid ∨ b.kernel ≠ t.kernel ∨ b.gidx ≠ t.gidx then st 1 s
        else if b.pending ≠ b.count then st 2 s
        else st 0 (setHBar s cl n { b with count := a, pending := a, ovf := false })))

def execHbarCntFree (f : VR) (s : State) : Out :=
  .next (issue (.hbarCntFree f) s (once f.g fun k t s =>
    let n := fld f.m 0 5
    match hbarHeld s k t n with
    | some b => if b.pending = b.count then .commit (writeS (freeHBar s (clusterOf (keyCore k)) n) k f.d 0) else .commit (writeS s k f.d 3)
    | none => .commit (writeS s k f.d 3)))

end Sys2Proof.Machine
end

