-- ==== Sys2Proof/Machine/Ring.lean ====
section
/-! DEFINITION. Fill-ring, sequence and halo instructions, opcodes 0x220 to 0x223, and the copy engine's ring commands
(R225 to R235). -/

namespace Sys2Proof.Machine

/-! ## Instructions (R231 to R235) -/

/-- The checks of R231 on a fill-ring descriptor. -/
def fillCheck (s : State) (k : Nat) (t : Team) (g : Guard) (f : Nat) (go : FillRing → Res) : Res :=
  if f % 16 ≠ 0 then teamTrap s t g cMisalign (BitVec.ofNat 64 f)
  else
    let r := fillRing s t.gang (keyCore k) f
    if fillGood r f (spAlloc s t) then go r else teamTrap s t g cScratch (BitVec.ofNat 64 f)

/-- wr − rd modulo 2^32 (R232). -/
def filled (r : FillRing) : Nat := (r.wr + 2 ^ 32 - r.rd) % 2 ^ 32

def execRngAwait (f : VR) (s : State) : Out :=
  .next (issue (.rngAwait f) s (once f.g fun k t s =>
    let off := offS s k t f.a
    fillCheck s k t f.g off fun r =>
      let n := offS s k t f.b
      let dl := waitDeadline s k t .ring (waitField t.wait 16 8) f.c
      if peerHold s k then .stall s
      else if n < filled r then
        .commit (writeS (clearWait (acquire s k t 1) k) k f.d (BitVec.ofNat 64 (fillSlot r off ((r.rd + n) % 2 ^ 32))))
      else if pastDeadline s dl then .commit (writeS (clearWait s k) k f.d (BitVec.allOnes 64))
      else waitWith s k .ring (waitMake [(0, off), (4, n), (8, Opd.code f.d), (16, dl)])))

def execRngRelease (f : VR) (s : State) : Out :=
  .next (issue (.rngRelease f) s (once f.g fun k t s =>
    let off := offS s k t f.a
    fillCheck s k t f.g off fun r =>
      let b := offS s k t f.b
      if peerHold s k then .stall s
      else if 1 ≤ b ∧ b ≤ filled r then
        fenceWith s k t 2 1 fun s1 => .commit (writeS (spWriteNat s1 t.gang (keyCore k) (off + 4) 4 ((r.rd + b) % 2 ^ 32)) k f.d 0)
      else .commit (writeS s k f.d 1)))

/-- The completion word of a queue of a team's context, if the list has the queue (R88, R89); while its page is awaited, what the part
will write there. -/
def completionOf (s : State) (oid q : Nat) : Option Nat :=
  match s.ctx oid with
  | some c => (c.queues.find q).map fun x => if x.descPa = noDesc then x.completion else homeNat s (x.descPa + 8) 8
  | none => none

def execSeqwait (f : VR) (s : State) : Out :=
  .next (issue (.seqwait f) s (once f.g fun k t s =>
    let q := offS s k t f.a
    let b := (opdS s k t f.b).toNat
    let dl := waitDeadline s k t .seq (waitField t.wait 16 8) f.c
    if peerHold s k then .stall s
    else
      match completionOf s t.oid q with
      | none => .commit (writeS (clearWait s k) k f.d 2)
      | some v =>
        if b ≤ v then waitDone s k t 2 f.d 0
        else if pastDeadline s dl then waitOver s k f.d 1
        else waitWith s k .seq (waitMake [(0, q), (8, Opd.code f.d), (16, dl), (24, b)])))

/-- A halo descriptor (R235). -/
structure HaloDesc where
  team : Nat
  zero : Nat
  rows : Nat
  src : Nat
  dst : Nat
  rowBytes : Nat
  stride : Nat
  deriving DecidableEq, Repr

def haloDesc (s : State) (g core off : Nat) : HaloDesc :=
  { team := spNat s g core off 1, zero := spNat s g core (off + 1) 1, rows := spNat s g core (off + 2) 2, src := spNat s g core (off + 4) 4,
    dst := spNat s g core (off + 8) 4, rowBytes := spNat s g core (off + 12) 2, stride := spNat s g core (off + 14) 2 }

/-- The limits of R235. -/
def haloInRange (h : HaloDesc) (alloc : Nat) : Bool :=
  let span := (h.rows - 1) * (16 * h.stride) + h.rowBytes
  decide (h.zero = 0 ∧ 1 ≤ h.rows ∧ h.rows ≤ 1024 ∧ h.src % 16 = 0 ∧ h.dst % 16 = 0 ∧ h.rowBytes % 16 = 0 ∧ 16 ≤ h.rowBytes ∧
    h.rowBytes ≤ 4096 ∧ 1 ≤ h.stride ∧ h.src + span ≤ alloc ∧ h.dst + span ≤ alloc)

/-- The arrival of a halo, after its copy has been noted. -/
def haloArrive (s : State) (k : Nat) (t : Team) (f : VR) (n : Nat) (b : HBar) (h : HaloDesc) (obj : Option Nat) : Res :=
  fenceWith s k t 2 1 fun s1 =>
    let (id, s2) := s1.fresh
    let src := match s1.gang t.gang with | some g => keyCore (g.teams.getD h.team 0) | none => keyCore k
    let halo : Halo := { team := k, gang := t.gang, core := keyCore k, srcCore := src, bar := n, go := false, rows := h.rows,
                         rowBytes := h.rowBytes, stride := 16 * h.stride, src := h.src, dst := h.dst, obj := obj }
    let a := hbarArrival { s2 with halos := s2.halos.put id halo } (clusterOf (keyCore k)) n b 1
    .commit (writeS a.1 k f.d 0)

def execHalo (f : VR) (s : State) : Out :=
  .next (issue (.halo f) s (once f.g fun k t s =>
    let off := offS s k t f.a
    let n := fld f.m 0 5
    let go := barOffset s t f.g off <|
      if peerHold s k then .stall s
      else
        let h := haloDesc s t.gang (keyCore k) off
        match hbarHeld s k t n with
        | none => .commit (writeS s k f.d 1)
        | some b =>
          if special s k t 15 0 ≤ h.team then .commit (writeS s k f.d 2)
          else if !haloInRange h (spAlloc s t) then .commit (writeS s k f.d 3)
          else haloArrive s k t f n b h (if f.b.isN then none else some (offS s k t f.b))
    if f.b.isN then go else barOffset s t f.g (offS s k t f.b) go))

/-- The engine copies the rows once the phase has completed (R235). -/
def execHaloCopy (halo : Nat) (s : State) : Out :=
  .next (match s.halos.find halo with
    | none => s
    | some h =>
      if !h.go then s
      else
        let s1 := (List.range h.rows).foldl (fun st r =>
          spWrite st h.gang h.core (h.dst + r * h.stride) (spBytes s h.gang h.srcCore (h.src + r * h.stride) h.rowBytes)) s
        let s2 := { s1 with halos := s1.halos.erase halo }
        match h.obj with
        | some o => barReduce s2 h.gang h.core o (h.rows * h.rowBytes)
        | none => s2)

/-! ## Copy rings (R226 to R229) -/

/-- A ring entry keeps the rules of R227. -/
def cmdGood (s : State) (g core alloc : Nat) (c : RingCmd) : Bool :=
  match c.op with
  | 0 => decide (c.flags = 0 ∧ c.bar = 0 ∧ c.len = 0 ∧ c.src = 0 ∧ c.dst = 0 ∧ c.high = 0)
  | 1 =>
    let ss := c.flags.testBit 0
    let ds := c.flags.testBit 1
    let fl := c.flags.testBit 2
    let f := fillRing s g core c.dst
    decide (c.flags < 8 ∧ c.high = 0 ∧ c.len % 16 = 0 ∧ 16 ≤ c.len ∧ c.len ≤ 16777216 ∧ c.src % 16 = 0 ∧ c.dst % 16 = 0) &&
      (!fl || ds) && (!ss || decide (c.src < 2 ^ 32 ∧ c.src + c.len ≤ alloc)) &&
      (!ds || decide (c.dst < 2 ^ 32)) && (!(ds && !fl) || decide (c.dst + c.len ≤ alloc)) &&
      (!fl || (fillGood f c.dst alloc && decide (c.len ≤ f.bytes))) &&
      (decide (c.bar = 0xffff) || decide (16 * c.bar + 16 ≤ alloc)) &&
      !(decide (ss = ds) && !fl && overlaps c.src c.len c.dst c.len)
  | 2 => decide (c.flags = 0 ∧ c.bar = 0 ∧ c.len = 0 ∧ c.src % 4 = 0 ∧ c.dst < 2 ^ 32 ∧ c.high = 0)
  | _ => false

/-- Status and fault index of a ring header. -/
def setRingStatus (s : State) (g core h status ix : Nat) : State := spWriteNat (spWriteNat s g core (h + 11) 1 status) g core (h + 12) 4 ix

/-- What the engine knows of a ring. -/
def setRing (s : State) (r : Ring) : State :=
  if s.rings.any fun x => decide (x.core = r.core ∧ x.gang = r.gang ∧ x.off = r.off) then
    { s with rings := s.rings.map fun x => if x.core = r.core ∧ x.gang = r.gang ∧ x.off = r.off then r else x }
  else { s with rings := s.rings ++ [r] }

def ringStopped (s : State) (g core h : Nat) : Bool :=
  match s.rings.find? fun r => decide (r.core = core ∧ r.gang = g ∧ r.off = h) with | some r => r.stopped | none => false

/-- The ring stops at an entry with a status (R226, R229). -/
def stopRing (s : State) (g core h status ix : Nat) : State :=
  let s1 := setRingStatus s g core h status ix
  { s1 with rings := s1.rings.map fun r => if r.core = core ∧ r.gang = g ∧ r.off = h then { r with stopped := true } else r }

/-- Entries read from index i on, n of them; a bad one stops the ring. -/
def readEntries (nt : Notice) (size alloc : Nat) : Nat → Nat → State → State
  | 0, _, s => s
  | n + 1, i, s =>
    let raw := ringRaw s nt.gang nt.core nt.off size i
    let c := ringCmd raw
    if cmdGood s nt.gang nt.core alloc c then
      let (id, s1) := s.fresh
      let tix := match s.team nt.team with | some u => u.tix | none => 0
      let e : RingEntry := { core := nt.core, gang := nt.gang, ring := nt.off, index := i % 2 ^ 32, team := nt.team, tix := tix, raw := raw,
                             started := decide (c.op = 0), done := decide (c.op = 0), slot := none }
      readEntries nt size alloc n (i + 1)
        (setRing { s1 with entries := s1.entries.put id e } { core := nt.core, gang := nt.gang, off := nt.off, next := (i + 1) % 2 ^ 32, stopped := false })
    else stopRing s nt.gang nt.core nt.off 2 (i % 2 ^ 32)

/-- The entry lies below a ring's done count. -/
def passedBy (done : Nat) (e : RingEntry) : Bool :=
  let d := (done + 2 ^ 32 - e.index) % 2 ^ 32
  decide (d ≠ 0 ∧ d < 2 ^ 31)

/-- A slot that wr already covers. -/
def slotCovered (s : State) (e : RingEntry) : Bool :=
  match e.slot with
  | none => true
  | some a =>
    let d := ((fillRing s e.gang e.core ((ringCmd e.raw).dst)).wr + 2 ^ 32 - a) % 2 ^ 32
    decide (d ≠ 0 ∧ d < 2 ^ 31)

/-- done rises over completed entries, at most n of them (R228). -/
def raiseDone (g core h : Nat) : Nat → State → State
  | 0, s => s
  | n + 1, s =>
    let d := spNat s g core (h + 4) 4
    if s.entries.any fun e => decide (e.2.gang = g ∧ e.2.core = core ∧ e.2.ring = h ∧ e.2.index = d) && e.2.done
    then raiseDone g core h n (spWriteNat s g core (h + 4) 4 ((d + 1) % 2 ^ 32)) else s

/-- wr rises over filled slots in slot order, at most n of them (R230). -/
def raiseWr (g core f : Nat) : Nat → State → State
  | 0, s => s
  | n + 1, s =>
    let w := spNat s g core f 4
    if s.entries.any fun e => decide (e.2.gang = g ∧ e.2.core = core ∧ e.2.slot = some w ∧ (ringCmd e.2.raw).dst = f) && e.2.done
    then raiseWr g core f n (spWriteNat s g core f 4 ((w + 1) % 2 ^ 32)) else s

/-- An entry is complete: wr and done rise, and entries that nothing needs any more leave. -/
def finishEntry (s : State) (id : Nat) : State :=
  match s.entries.find id with
  | none => s
  | some e =>
    let s1 := { s with entries := s.entries.put id { e with started := true, done := true } }
    let s2 := match e.slot with | some _ => raiseWr e.gang e.core (ringCmd e.raw).dst 256 s1 | none => s1
    let s3 := raiseDone e.gang e.core e.ring 256 s2
    { s3 with entries := s3.entries.filter fun x =>
        !(decide (x.2.gang = e.gang ∧ x.2.core = e.core) && x.2.done && passedBy (spNat s3 e.gang e.core (x.2.ring + 4) 4) x.2 && slotCovered s3 x.2) }

/-- An access to the same offset that the engine has not looked at comes before a notice (R226). -/
def noticeBefore (s : State) (id : Nat) (n : Notice) : Bool :=
  s.notices.any fun m => decide (m.1 < id ∧ m.2.core = n.core ∧ m.2.gang = n.gang ∧ m.2.off = n.off)

/-- The copy engine looks at a watched offset, access by access: the entries below the count that the access wrote and that it has not
read are those of the accessing team (R226). -/
def execRingNotify (notice : Nat) (s : State) : Out :=
  .next (match s.notices.find notice with
    | none => s
    | some n =>
      if noticeBefore s notice n then s else
      let s0 := { s with notices := s.notices.erase notice }
      let h := { ringHdr s n.gang n.core n.off with notify := n.count }
      let alloc := gangAlloc s n.gang
      if h.tag ≠ 0xc0b7 then s0
      else if !ringGood h n.off alloc then stopRing s0 n.gang n.core n.off 2 0
      else if 2 ^ h.size < (h.notify + 2 ^ 32 - h.done) % 2 ^ 32 then stopRing s0 n.gang n.core n.off 1 0
      else if h.status ≠ 0 then s0
      else
        let next := ringNext s n.gang n.core n.off h.done
        let cnt := (h.notify + 2 ^ 32 - next) % 2 ^ 32
        let s1 := setRing s0 { core := n.core, gang := n.gang, off := n.off, next := next, stopped := false }
        -- completed entries (NOPs) raise done at once
        raiseDone n.gang n.core n.off 256 (readEntries n h.size alloc (if 2 ^ h.size < cnt then 0 else cnt) next s1))

/-- An entry that the engine has read is still to complete: it has started, or its ring runs (R226, R229). -/
def entryLive (s : State) (e : RingEntry) : Bool := !e.done && (e.started || !ringStopped s e.gang e.core e.ring)

/-- Entries of the same ring that come before an entry. -/
def earlierEntries (s : State) (e : RingEntry) : List RingEntry :=
  (s.entries.filter fun x => decide (x.2.gang = e.gang ∧ x.2.core = e.core ∧ x.2.ring = e.ring) &&
    (let d := (e.index + 2 ^ 32 - x.2.index) % 2 ^ 32; decide (d ≠ 0 ∧ d < 2 ^ 31))).map (·.2)

/-- The lines of what a cluster's engines have under way: COPYs and SIGNALs that have started, halo copies whose phase has completed,
copy cards that run on its copy engine, and page-ins (R10, R228, R235, R236, R246). -/
def engineOps (s : State) (cl : Nat) : List Nat :=
  let lines := fun (n : Nat) => (n + 127) / 128
  ((s.entries.filter fun e => decide (clusterOf e.2.core = cl) && e.2.started && !e.2.done).map fun e => lines (ringCmd e.2.raw).len) ++
  ((s.halos.filter fun h => decide (clusterOf h.2.core = cl) && h.2.go).map fun h => h.2.rows * lines h.2.rowBytes) ++
  (s.ctxs.flatMap fun c => (c.2.window.filter fun e => e.kernel.isNone && e.started && !e.done &&
    decide (fieldOf e.card 1 1 = 0 ∧ fieldOf e.card 4 2 = cl)).map fun e => lines (fieldOf e.card 24 8 * fieldOf e.card 32 4 - e.progress)) ++
  ((s.pageIns.filter fun p => decide (p.2.cluster = cl)).map fun _ => 2048)

/-- The lines that a cluster's engines have in flight: 4,096 at the most, whatever is under way (R10). -/
def engineLines (s : State) (cl : Nat) : Nat := Nat.min 4096 (engineOps s cl).sum

/-- One more transfer finds a line: each that is under way holds one at least (R10). -/
def engineRoom (s : State) (cl : Nat) : Bool := decide ((engineOps s cl).length < 4096)

/-- The entry may start: every earlier entry has started, no earlier SIGNAL is incomplete, the ring runs (R228), and a line is free
(R10). -/
def mayStart (s : State) (e : RingEntry) : Bool :=
  !ringStopped s e.gang e.core e.ring && engineRoom s (clusterOf e.core) &&
    (earlierEntries s e).all fun x => x.started && (decide ((ringCmd x.raw).op ≠ 2) || x.done)

/-- The OID of the gang of an entry. -/
def entryOid (s : State) (e : RingEntry) : Nat := match s.gang e.gang with | some g => g.oid | none => 0

/-- The publisher of an entry, while it lives (R226, R229). -/
def entryTeam (s : State) (e : RingEntry) : Option Team :=
  match s.team e.team with
  | some t => if t.gang = e.gang ∧ t.tix = e.tix ∧ t.state ≠ .exiting then some t else none
  | none => none

/-- The kernel of an entry's gang, for the stores that it makes (R97). -/
def entryKernel (s : State) (e : RingEntry) : Option Nat := (s.gang e.gang).map (·.kernel)

/-- The entries that a ring has published and the engine has not read are dropped (R229). -/
def dropUnread (s : State) (g core h : Nat) : State :=
  let n := (ringHdr s g core h).notify
  { s with rings := s.rings.map fun r => if r.gang = g ∧ r.core = core ∧ r.off = h then { r with next := n } else r }

/-- The entry stops its ring (R229): held for its publisher, or, when that team is exiting or gone, a record, and the ring's unread
entries are dropped. -/
def faultEntry (s : State) (id : Nat) (e : RingEntry) (reason va acc : Nat) (leaf : W64) : State :=
  let why := reasonOf reason
  let unc := decide (why = rUncorrData ∨ why = rUncorrTable)
  let s1 := stopRing { s with entries := s.entries.put id { e with started := false } } e.gang e.core e.ring 3 e.index
  let oid := entryOid s e
  let rec1 := fun (st : State) => engineRecord st (ctxPart s oid) oid va reason acc 0 leaf 0
  match entryTeam s1 e with
  | none => dropUnread (rec1 s1) e.gang e.core e.ring
  | some t =>
    let s2 := s1.setTeam e.team (holdCause t (if unc then cUncorrectable else cPage ||| cReason why) 0 (BitVec.ofNat 64 va))
    if unc then rec1 s2 else s2

/-- The bytes that a COPY reads, or why it cannot. -/
def copySource (s : State) (e : RingEntry) (c : RingCmd) (oid : Nat) : State × Option (List Byte) × ERes :=
  if c.flags.testBit 0 then (s, some (spBytes s e.gang e.core c.src c.len), .wait)
  else
    let x := engineSpan s 0 (clusterOf e.core) oid (extVA (BitVec.ofNat 64 c.src)) c.len accR
    match x.2 with
    | .ok ps =>
      match spanBad x.1 ps with
      | some va => (x.1, none, .fault rUncorrData va 0)
      | none => (x.1, some (spanBytes x.1 ps), .wait)
    | y => (x.1, none, y)

/-- The barrier of a COPY is reduced by its length (R228). -/
def reduceFor (s : State) (e : RingEntry) (c : RingCmd) : State :=
  if c.bar = 0xffff then s else barReduce s e.gang e.core (16 * c.bar) c.len

/-- A started COPY moves its bytes and completes (R228). -/
def runCopy (s : State) (id : Nat) (e : RingEntry) (oid : Nat) : State :=
  let c := ringCmd e.raw
  let src := copySource s e c oid
  match src.2.1 with
  | none => (match src.2.2 with | .fault r va leaf => faultEntry src.1 id e r va accR leaf | _ => src.1)
  | some bs =>
    if c.flags.testBit 1 then
      let off := match e.slot with | some a => fillSlot (fillRing s e.gang e.core c.dst) c.dst a | none => c.dst
      finishEntry (reduceFor (spWrite src.1 e.gang e.core off bs) e c) id
    else
      let va := extVA (BitVec.ofNat 64 c.dst)
      let x := engineSpan src.1 0 (clusterOf e.core) oid va c.len accW
      match x.2 with
      | .ok ps =>
        let w := spanWrite (flushPieces x.1 e.core ps) (entryKernel s e) ps bs
        if w.2 then faultEntry w.1 id e rUncorrData va accW 0 else finishEntry (reduceFor w.1 e c) id
      | .fault r v leaf => faultEntry x.1 id e r v accW leaf
      | .wait => x.1

/-- A COPY without a fill ring starts in order; once started, it copies and completes. -/
def execRingCopy (entry : Nat) (s : State) : Out :=
  .next (match s.entries.find entry with
    | none => s
    | some e =>
      let c := ringCmd e.raw
      if c.op ≠ 1 ∨ c.flags.testBit 2 = true ∨ e.done = true then s
      else if e.started then runCopy s entry e (entryOid s e)
      else if mayStart s e then { s with entries := s.entries.put entry { e with started := true } }
      else s)

/-- A SIGNAL stores its value once every earlier entry has completed; the issuing core's L1 lines of the word leave first (R183). -/
def execRingSignal (entry : Nat) (s : State) : Out :=
  .next (match s.entries.find entry with
    | none => s
    | some e =>
      let c := ringCmd e.raw
      if c.op ≠ 2 ∨ e.done = true ∨ mayStart s e = false ∨ ((earlierEntries s e).all fun x => x.done) = false then s
      else
        let va := extVA (BitVec.ofNat 64 c.src)
        let x := engineSpan s 0 (clusterOf e.core) (entryOid s e) va 4 accW
        match x.2 with
        | .ok ps =>
          let w := spanWrite (flushPieces x.1 e.core ps) (entryKernel s e) ps (leBytes 4 c.dst)
          if w.2 then faultEntry w.1 entry e rUncorrData va accW 0 else finishEntry w.1 entry
        | .fault r v leaf => faultEntry x.1 entry e r v accW leaf
        | .wait => x.1)

/-- The next slot index of a fill ring: wr, past the slots taken and not covered yet (R230). -/
def nextSlot (s : State) (g core f : Nat) : Nat :=
  let w := (fillRing s g core f).wr
  (w + (s.entries.filter fun x => decide (x.2.gang = g ∧ x.2.core = core ∧ (ringCmd x.2.raw).dst = f) && x.2.slot.isSome && !slotCovered s x.2).length) % 2 ^ 32

/-- A fill-ring COPY takes its slot when a − rd < M, then copies into it; wr rises in slot order (R230). -/
def execFillRingSlotFill (entry : Nat) (s : State) : Out :=
  .next (match s.entries.find entry with
    | none => s
    | some e =>
      let c := ringCmd e.raw
      if c.op ≠ 1 ∨ c.flags.testBit 2 = false ∨ e.done = true then s
      else if e.started then runCopy s entry e (entryOid s e)
      else if mayStart s e then
        let f := fillRing s e.gang e.core c.dst
        let a := e.slot.getD (nextSlot s e.gang e.core c.dst)
        if !(fillGood f c.dst (gangAlloc s e.gang) && decide (c.len ≤ f.bytes)) ||
            (c.flags.testBit 0 && overlaps c.src c.len (fillSlot f c.dst a) c.len) then stopRing s e.gang e.core e.ring 2 e.index
        else if (a + 2 ^ 32 - f.rd) % 2 ^ 32 < 2 ^ f.slots then
          { s with entries := s.entries.put entry { e with started := true, slot := some a } }
        else s
      else s)

end Sys2Proof.Machine
end

