-- ==== Sys2Proof/Machine/Slot.lean ====
section
/-! DEFINITION. Slots and the matrix array, opcodes 0x240 to 0x247, and the steps that finish their operations (R20 to R24,
R29, R160 to R176). -/

namespace Sys2Proof.Machine

/-! ## Units and states (R160 to R166) -/

/-- Units of a slot kind: A 1, B 2, accumulator 4 (R161). -/
def slotUnitsOf (kind : Nat) : Nat := 2 ^ kind
/-- Bytes of a slot kind. -/
def slotBytes (kind : Nat) : Nat := 32768 * 2 ^ kind

/-- The physical unit of a unit number: a PREEMPT context uses the half of its control bank (R160). -/
def physUnit (s : State) (k : Nat) (t : Team) (u : Nat) : Nat :=
  match s.ctx t.oid with
  | some c => if c.preempt then 32 * keyBank k + u else u
  | none => u

/-- The slot that covers a physical unit: its first unit and itself. -/
def slotCover (c : Core) (u : Nat) : Option (Nat × Slot) :=
  c.slots.find? fun e => decide (e.1 ≤ u ∧ u < e.1 + slotUnitsOf e.2.kind)

/-- The code of a slot state (R163). -/
def SState.code : SState → Nat
  | .free => 0 | .claimed => 1 | .filling => 2 | .full => 3 | .busy => 4 | .draining => 5

/-- The role of a use of a slot (R164). -/
inductive SRole where
  | reader
  /-- slot.store and slot.rd, which wait for a queued writer. -/
  | drain
  | acc (zero : Bool)
  /-- slot.wr -/
  | write
  /-- slot.load and slot.zero -/
  | fill
  | release
  deriving DecidableEq, Repr

/-- What a use of a slot comes to. -/
inductive SUse where
  | ok (sl : Slot)
  | wait
  /-- SLOT_STATE: the state found and the reason (R166). -/
  | bad (state reason : Nat)
  deriving DecidableEq, Repr

/-- The table of R164: the kind is looked at before the state (log entry 21). -/
def slotUse (c : Core) (u kind : Nat) (role : SRole) : SUse :=
  match c.slots.find u with
  | none => (match slotCover c u with | some e => .bad e.2.state.code 2 | none => .bad 0 1)
  | some sl =>
    if sl.kind ≠ kind then .bad sl.state.code 2
    else
      match sl.state with
      | .free => .bad 0 1
      | .draining => .bad 5 4
      | .claimed =>
        (match role with
        | .reader | .drain | .write | .acc false => .bad 1 3
        | _ => .ok sl)
      | .filling => if role = .release then .ok sl else .wait
      | .full => (match role with
        | .acc _ => if sl.stores ≠ 0 then .wait else .ok sl
        | _ => .ok sl)
      | .busy =>
        (match role with
        | .acc _ => if sl.stores ≠ 0 then .wait else .ok sl
        | .drain => if sl.writers ≠ 0 then .wait else .ok sl
        | .write | .fill => .wait
        | _ => .ok sl)

/-- The SLOT_STATE word of R166. -/
def slotWord (reason operand unit kind state lane : Nat) : W64 :=
  BitVec.ofNat 64 (reason + operand * 2 ^ 8 + unit % 64 * 2 ^ 11 + kind * 2 ^ 17 + state * 2 ^ 19 + lane * 2 ^ 22)

/-- A SLOT_STATE fault. -/
def slotTrap (s : State) (t : Team) (g : Guard) (w : W64) : Res := teamTrap s t g cSlotState w

def setSlot (s : State) (core u : Nat) (sl : Slot) : State :=
  let c := s.core core
  s.setCore core { c with slots := c.slots.put u sl }
def freeSlot (s : State) (core u : Nat) : State :=
  let c := s.core core
  s.setCore core { c with slots := c.slots.erase u }

/-- A pending use of a slot completes: the last one leaves a BUSY or FILLING slot in a given state and frees a DRAINING one
(R163). -/
def slotDone (s : State) (core u : Nat) (writer store : Bool) (after : SState) : State :=
  match (s.core core).slots.find u with
  | none => s
  | some sl =>
    let sl1 := { sl with users := sl.users - 1, writers := sl.writers - (if writer then 1 else 0), stores := sl.stores - (if store then 1 else 0) }
    if sl1.users ≠ 0 then setSlot s core u sl1
    else if sl1.state = .draining then freeSlot s core u
    else setSlot s core u { sl1 with state := after }

/-! ## Slot words (R167, R168, R170) -/

/-- The unit and the kind that M names. -/
def slotUnit (f : VR) : Nat := fld f.m 0 6
def slotKind (f : VR) : Nat := fld f.m 6 2

/-- A slot instruction's use of its slot: SLOT_STATE, a wait, or its body with the physical unit. -/
def withSlot (s : State) (k : Nat) (t : Team) (f : VR) (role : SRole) (go : Nat → Slot → Res) : Res :=
  let u := physUnit s k t (slotUnit f)
  match slotUse (s.core (keyCore k)) u (slotKind f) role with
  | .bad st r => slotTrap s t f.g (slotWord r 0 (slotUnit f) (slotKind f) st 0)
  | .wait => .stall s
  | .ok sl => go u sl

/-- The first slot that covers one of n units from u up. -/
def slotTaken (c : Core) (u n : Nat) : Option Slot := (List.range n).findSome? fun i => (slotCover c (u + i)).map (·.2)

def execSlotClaim (f : VR) (s : State) : Out :=
  .next (issue (.slotClaim f) s (once f.g fun k t s =>
    let u := physUnit s k t (slotUnit f)
    match slotTaken (s.core (keyCore k)) u (slotUnitsOf (slotKind f)) with
    | none =>
      .commit (writeS (setSlot s (keyCore k) u { kind := slotKind f, state := .claimed, oid := t.oid, kernel := t.kernel, users := 0, writers := 0,
                                                 stores := 0 }) k f.d 0)
    | some sl =>
      if f.d.isN then slotTrap s t f.g (slotWord 5 0 (slotUnit f) (slotKind f) sl.state.code 0)
      else .commit (writeS s k f.d 1)))

def execSlotRelease (f : VR) (s : State) : Out :=
  .next (issue (.slotRelease f) s (once f.g fun k t s =>
    withSlot s k t f .release fun u sl =>
      .commit (if sl.state = .filling ∨ sl.state = .busy then setSlot s (keyCore k) u { sl with state := .draining }
        else freeSlot s (keyCore k) u)))

/-- The offsets of R170, checked before any lane acts. -/
def slotOffsets (s : State) (f : VR) (sl : Slot) (offs : List (Nat × Nat)) (go : Res) : Res :=
  let bad := fun (o : Nat) => decide (o % 4 ≠ 0 ∨ slotBytes sl.kind ≤ o)
  match offs.find? fun p => bad p.2 with
  | some p =>
    .trap s { bits := cSlotState, addr := slotWord 7 0 (slotUnit f) (slotKind f) sl.state.code p.1,
              mask := maskOf 1024 fun L => offs.any fun q => decide (q.1 = L) && bad q.2 }
  | none => go

/-- Bytes of operand memory: byte i of a slot whose first unit is u. -/
def opByte (u i : Nat) : Nat := 32768 * u + i
def opBytes (c : Core) (u i n : Nat) : List Byte := c.opmem.bytes (opByte u i) n
def opWrite (s : State) (core u i : Nat) (bs : List Byte) : State :=
  let c := s.core core
  s.setCore core { c with opmem := c.opmem.setBytes (opByte u i) bs }

def execSlotRd (f : VR) (s : State) : Out :=
  .next (issue (.slotRd f) s fun k t s =>
    let lanes := maskLanes (lanesOf t f.g) t.width
    if lanes.isEmpty then .commit s
    else
      withSlot s k t f .drain fun u sl =>
        slotOffsets s f sl (laneAddrs lanes (n32Src s k t f.a)) <|
          let c := s.core (keyCore k)
          .commit (writeD s k (lanesOf t f.g) false f.d fun L =>
            BitVec.ofNat 64 (leNat (opBytes c u (n32Src s k t f.a L) 4))))

def execSlotWr (f : VR) (s : State) : Out :=
  .next (issue (.slotWr f) s fun k t s =>
    let lanes := maskLanes (lanesOf t f.g) t.width
    if lanes.isEmpty then .commit s
    else
      withSlot s k t f .write fun u sl =>
        let offs := laneAddrs lanes (n32Src s k t f.a)
        slotOffsets s f sl offs <|
          .commit (offs.foldl (fun st p => opWrite st (keyCore k) u p.2 (leBytes 4 (n32Src s k t f.b p.1))) s))

/-! ## Transfers (R169) -/

/-- Rows of a kind. -/
def slotRows (kind : Nat) : Nat := if kind = 1 then 256 else 128
/-- Bytes of a row in the slot. -/
def slotRow (kind : Nat) : Nat := if kind = 2 then 1024 else 256
/-- The store converts. -/
def slotConverts (ty : ETy) : Bool := decide (ty ≠ .b32 ∧ ty ≠ .f32)
/-- Bytes of a row in memory. -/
def memRow (kind : Nat) (ty : ETy) : Nat := if slotConverts ty then 256 * (ETy.width ty / 8) else slotRow kind

/-- The address of row r. -/
def rowAddr (va stride : W64) (r : Nat) : W64 := va + stride * BitVec.ofNat 64 r

/-- The pages that n bytes at an address touch, by the first address in each. -/
def rowPages (a : W64) (n : Nat) : List Nat :=
  let va := extVA a
  let last := extVA (a + BitVec.ofNat 64 (n - 1))
  if va / 2 ^ 18 = last / 2 ^ 18 then [va] else [va, last / 2 ^ 18 * 2 ^ 18]

/-- The pages of a transfer, each once, in row order. -/
def transferPages (va stride : W64) (row : Nat) (rows : Nat) : List Nat :=
  (List.range rows).foldl (fun acc r => (rowPages (rowAddr va stride r) row).foldl (fun ac a =>
    if ac.any fun b => decide (b / 2 ^ 18 = a / 2 ^ 18) then ac else ac ++ [a]) acc) []

/-- Every page of a transfer translated before it commits; a peer window is not reached (R169, R319). -/
def transferCheck (s : State) (k : Nat) (t : Team) (g : Guard) (acc : Nat) (vas : List Nat) (go : State → Table Nat → Res) : Res :=
  match checkWide s k t g 1 acc (vas.map fun a => (0, a)) with
  | .stop r => r
  | .go s1 ls =>
    match ls.find? fun x => isPeer x.2.2 with
    | some x => wideRes k (lanesOf t g) (failXlat s1 k t acc [(0, x.2.1, .fail rSegment 0)] x.2.1 rSegment)
    | none => go s1 (ls.foldl (fun tb x => tb.put (x.2.1 / 2 ^ 18) (x.2.2 - x.2.1 % 2 ^ 18)) [])

/-- The pieces of n bytes at an address through translated pages. -/
def pagePieces (pages : Table Nat) (a : W64) (n : Nat) : List (Nat × Nat × Nat) :=
  let va := extVA a
  let m := Nat.min n (2 ^ 18 - va % 2 ^ 18)
  let vb := extVA (a + BitVec.ofNat 64 m)
  (va, pages.get (va / 2 ^ 18) 0 + va % 2 ^ 18, m) ::
    (if m < n then [(vb, pages.get (vb / 2 ^ 18) 0 + vb % 2 ^ 18, n - m)] else [])

/-- The check of a barrier operand, 511 for none. -/
def barMaybe (s : State) (k : Nat) (t : Team) (g : Guard) (o : Opd) (go : Option Nat → Res) : Res :=
  if o.isN then go none else barOffset s t g (offS s k t o) (go (some (offS s k t o)))

/-- An asynchronous operation begins: its slot's state, and the team's count (R163, R176). -/
def startSlotOp (s : State) (k : Nat) (t : Team) (op : SlotOp) (sl : Slot) : State :=
  let (n, s1) := s.fresh
  let s2 := { s1 with slotOps := s1.slotOps.put n op }
  let st := if op.op = 2 then SState.busy else SState.filling
  (setSlot s2 (keyCore k) op.unit { sl with state := st, users := sl.users + 1, stores := sl.stores + (if op.op = 2 then 1 else 0) }).modTeam k
    fun u => { u with mxOut := t.mxOut + 1 }

def slotOpOf (k : Nat) (t : Team) (f : VR) (u op : Nat) (va stride : W64) (pages : Table Nat) (bar : Option Nat) : SlotOp :=
  { unit := u, kind := slotKind f, op := op, team := k, word := curWord t, va := va, stride := stride, pages := pages, ty := f.t,
    sat := f.m.getLsbD 8, bar := bar, gang := t.gang, core := keyCore k }

def execSlotZero (f : VR) (s : State) : Out :=
  .next (issue (.slotZero f) s (once f.g fun k t s =>
    withSlot s k t f .fill fun u sl =>
      barMaybe s k t f.g f.c fun bar => .commit (startSlotOp s k t (slotOpOf k t f u 1 0 0 [] bar) sl)))

/-- slot.load and slot.store: the checks of R169, the team's earlier accesses performed, then the start. -/
def slotTransfer (s : State) (k : Nat) (t : Team) (f : VR) (store : Bool) : Res :=
  let a := opdS s k t f.a
  let b := opdS s k t f.b
  let row := memRow (slotKind f) (if store then f.t else .b32)
  let rows := (List.range (slotRows (slotKind f))).map fun r => (extVA (rowAddr a b r), row)
  withWide s k t (lanesOf t f.g) (if store then 2 else 1) rows <|
  withSlot s k t f (if store then .drain else .fill) fun u sl =>
    barMaybe s k t f.g f.c fun bar =>
      if a.toNat % 16 ≠ 0 ∨ b.toNat % 16 ≠ 0 then teamTrap s t f.g cMisalign a
      else if peerHold s k then .stall s
      else
        transferCheck s k t f.g (if store then accW else accR) (transferPages a b row (slotRows (slotKind f))) fun s1 pages =>
          let s2 := drain s1 k t
          .commit (startSlotOp s2 k t (slotOpOf k t f u (if store then 2 else 0) a b pages bar) (((s2.core (keyCore k)).slots.find u).getD sl))

def execSlotLoad (f : VR) (s : State) : Out :=
  .next (issue (.slotLoad f) s (once f.g fun k t s => slotTransfer s k t f false))

def execSlotStore (f : VR) (s : State) : Out :=
  .next (issue (.slotStore f) s (once f.g fun k t s => slotTransfer s k t f true))

/-! ## Completion (R169, R174, R176) -/

/-- A matrix operation of a team completes: its count falls, its exceptions are ORed into %fmode, and those that trap are
held (R174). -/
def matrixDone (s : State) (k : Nat) (exc : Exc) (word : W64) : State :=
  s.modTeam k fun t =>
    let t1 := { t with mxOut := t.mxOut - 1, fmode := t.fmode ||| BitVec.ofNat 64 (exc.toNat * 2 ^ 13) }
    let tr := exc &&& trapEnables t1
    if tr = 0 then t1 else holdCause t1 (cFp tr) word 0

/-- The first slot operation of a core and unit that a condition selects. -/
def slotOpAt (s : State) (core unit : Nat) (p : Nat → Bool) : Option (Nat × SlotOp) :=
  s.slotOps.find? fun e => decide (e.2.core = core ∧ e.2.unit = unit) && p e.2.op

/-- The rows of a slot.load: the bytes, and the first address that holds an error. -/
def loadRows (s : State) (o : SlotOp) : List Byte × Option Nat :=
  let ps := (List.range (slotRows o.kind)).flatMap fun r => pagePieces o.pages (rowAddr o.va o.stride r) (slotRow o.kind)
  (spanBytes s ps, spanBad s ps)

/-- Operand memory after a fill: zeros, the loaded rows, or nothing when an error was met. -/
def fillSlot' (s : State) (o : SlotOp) : State :=
  if o.op = 1 then
    let c := s.core o.core
    s.setCore o.core { c with opmem := c.opmem.zero (opByte o.unit 0) (slotBytes o.kind) }
  else
    let x := loadRows s o
    match x.2 with
    | some va => holdUncorr s o.team va accR o.word
    | none => opWrite s o.core o.unit 0 x.1

/-- A fill ends: FULL, or CLAIMED after an error (R169). Operand memory stands still with the core clock (R13). -/
def execSlotFillComplete (core unit : Nat) (s : State) : Out :=
  .next (match slotOpAt s core unit fun op => decide (op < 2) with
    | none => s
    | some (id, o) =>
      if s.stopped then s else
      let failed := decide (o.op = 0) && (loadRows s o).2.isSome
      let s1 := fillSlot' { s with slotOps := s.slotOps.erase id } o
      let s2 := slotDone s1 core unit false false (if failed then .claimed else .full)
      let s3 := match o.bar with | some b => barReduce s2 o.gang o.core b (slotBytes o.kind) | none => s2
      matrixDone s3 o.team 0 o.word)

/-- An f32 element as slot.store writes it in a type: its bytes and exceptions (R169). -/
def convElem (ty : ETy) (sat : Bool) (x : Nat) : List Byte × Exc :=
  let r := deliverF (fmtOf ty) { plainEnv with sat := sat } [(fmtF32, x)] (unpack fmtF32 x, 0)
  (leBytes (ETy.width ty / 8) r.1, r.2)

/-- Row r of a slot.store as memory takes it. -/
def storeRow (s : State) (o : SlotOp) (r : Nat) : List Byte × Exc :=
  let c := s.core o.core
  if slotConverts o.ty then
    (List.range 256).foldl (fun acc j =>
      let e := convElem o.ty o.sat (leNat (opBytes c o.unit (1024 * r + 4 * j) 4))
      (acc.1 ++ e.1, acc.2 ||| e.2)) ([], 0)
  else (opBytes c o.unit (slotRow o.kind * r) (slotRow o.kind), 0)

/-- One row written at the home slices. -/
def writeRow (o : SlotOp) (s : State) (r : Nat) (bs : List Byte) : State :=
  let ps := pagePieces o.pages (rowAddr o.va o.stride r) bs.length
  (ps.foldl (fun (acc : State × List Byte) p =>
    (teamHomeWrite (flushPhys acc.1 o.core p.2.1 p.2.2) o.team p.1 p.2.1 (acc.2.take p.2.2) o.word, acc.2.drop p.2.2)) (s, bs)).1

/-- A slot.store ends: every byte is accepted, the higher row last (R169). Operand memory stands still with the core clock (R13). -/
def execSlotStoreComplete (core unit : Nat) (s : State) : Out :=
  .next (match slotOpAt s core unit fun op => decide (op = 2) with
    | none => s
    | some (id, o) =>
      if s.stopped then s else
      let s0 := { s with slotOps := s.slotOps.erase id }
      let rows := (List.range (slotRows o.kind)).map fun r => (r, storeRow s0 o r)
      let s1 := rows.foldl (fun st x => writeRow o st x.1 x.2.1) s0
      let exc := rows.foldl (fun (e : Exc) x => e ||| x.2.2) 0
      let s2 := slotDone s1 core unit false true .full
      let s3 := match o.bar with | some b => barReduce s2 o.gang o.core b (slotRows o.kind * memRow o.kind o.ty) | none => s2
      matrixDone s3 o.team exc o.word)

/-! ## mma (R171 to R176) -/

/-- The formats of a format block: 0 e4m3, 1 e5m2, 2 bf16, 3 f16, 4 Q16N. -/
def mmFp8 (c : Nat) : Bool := decide (c < 2)

/-- K extent, group and matrix cycles of a pair (R172). -/
def mmPair (a b : Nat) : Option (Nat × Nat × Nat) :=
  if mmFp8 a && mmFp8 b then some (256, 32, 64)
  else if a = b ∧ (a = 2 ∨ a = 3) then some (128, 16, 64)
  else if a = 4 ∧ b = 4 then some (512, 64, 64)
  else if (decide (a = 4) && mmFp8 b) || (mmFp8 a && decide (b = 4)) then some (256, 64, 32)
  else none

/-- Byte i of a format block. -/
def fbByte (fb : List Byte) (i : Nat) : Nat := (fb.getD i 0).toNat
/-- Its four offsets: A scales, B scales, A super-scales, B super-scales. -/
def fbOff (fb : List Byte) (i : Nat) : Nat := leNat ((fb.drop (4 + 4 * i)).take 4)
/-- The scale block length of an operand: 64 for Q16N, the length of its order bit for FP8. -/
def fbLen (fb : List Byte) (b : Bool) : Nat :=
  if fbByte fb (if b then 1 else 0) = 4 then 64 else if (fbByte fb 2).testBit (if b then 2 else 1) then 16 else 32

/-- The format block keeps R172. -/
def fbGood (fb : List Byte) : Bool :=
  let a := fbByte fb 0
  let b := fbByte fb 1
  let o := fbByte fb 2
  (mmPair a b).isSome && decide (o < 8 ∧ fbByte fb 3 = 0) && (fb.drop 20).all (fun x => decide (x = 0)) &&
    (mmFp8 a || !o.testBit 1) && (mmFp8 b || !o.testBit 2) &&
    (decide (a ≠ 2 ∧ a ≠ 3) || decide (fbOff fb 0 = 0)) && (decide (b ≠ 2 ∧ b ≠ 3) || decide (fbOff fb 1 = 0)) &&
    (decide (a = 4) || decide (fbOff fb 2 = 0)) && (decide (b = 4) || decide (fbOff fb 3 = 0))

/-- The scale regions of a format block: offset, bytes and alignment, 0 bytes for an operand without (R173). -/
def fbRegions (fb : List Byte) : List (Nat × Nat × Nat) :=
  let kk := match mmPair (fbByte fb 0) (fbByte fb 1) with | some p => p.1 | none => 0
  let n := fun (b : Bool) => (if b then 256 else 128) * (kk / fbLen fb b)
  let sc := fun (b : Bool) => if fbByte fb (if b then 1 else 0) = 2 ∨ fbByte fb (if b then 1 else 0) = 3 then 0 else n b
  let ss := fun (b : Bool) => if fbByte fb (if b then 1 else 0) = 4 then 4 * ((n b + 255) / 256) else 0
  [(fbOff fb 0, sc false, 32), (fbOff fb 1, sc true, 32), (fbOff fb 2, ss false, 4), (fbOff fb 3, ss true, 4)]

/-- MISALIGN before SCRATCH over the scale regions (R171, R173). -/
def scaleCheck (s : State) (t : Team) (g : Guard) (fb : List Byte) (go : Res) : Res :=
  match (fbRegions fb).find? fun r => decide (r.2.1 ≠ 0 ∧ r.1 % r.2.2 ≠ 0) with
  | some r => teamTrap s t g cMisalign (BitVec.ofNat 64 r.1)
  | none =>
    match (fbRegions fb).find? fun r => decide (r.2.1 ≠ 0 ∧ spAlloc s t < r.1 + r.2.1) with
    | some r => teamTrap s t g cScratch (BitVec.ofNat 64 r.1)
    | none => go

/-- The format block in four S registers, byte 0 the low byte of the first (R171). -/
def fbRead (s : State) (k : Nat) (t : Team) (o : Opd) : List Byte := (List.range 4).flatMap fun j => leBytes 8 (opdS s k t (Opd.next o j)).toNat

/-- A BUSY slot gains a user; an accumulator a writer. -/
def mmUse (s : State) (core u : Nat) (writer : Bool) : State :=
  match (s.core core).slots.find u with
  | none => s
  | some sl => setSlot s core u { sl with state := .busy, users := sl.users + 1, writers := sl.writers + (if writer then 1 else 0) }

/-- The entry that an mma puts into the matrix queue, with the snapshot of its scales (R173, R174). The window number is that
of 8 matrix cycles, 16 core cycles (R175). -/
def mmEntry (s : State) (k : Nat) (t : Team) (f : MX) (fb : List Byte) (bar : Option Nat) : MmaEntry :=
  let rg := fbRegions fb
  let snap := fun i => match rg[i]? with | some r => spBytes s t.gang (keyCore k) r.1 r.2.1 | none => []
  { team := k, gang := t.gang, word := curWord t, acc := physUnit s k t f.acc.toNat, ua := physUnit s k t f.ua.toNat,
    ub := physUnit s k t f.ub.toNat, fb := fb, zero := f.flags.getLsbD 0, noFuse := f.flags.getLsbD 1, bar := bar,
    scaleA := snap 0, scaleB := snap 1, superA := snap 2, superB := snap 3, window := s.cycle / 16 }

def execMma (f : MX) (s : State) : Out :=
  .next (issue (.mma f) s (once f.g fun k t s =>
    let core := keyCore k
    let c := s.core core
    let uses := [(1, f.acc.toNat, 2, SRole.acc (f.flags.getLsbD 0)), (2, f.ua.toNat, 0, SRole.reader), (3, f.ub.toNat, 1, SRole.reader)].map fun x =>
      (x, slotUse c (physUnit s k t x.2.1) x.2.2.1 x.2.2.2)
    match uses.findSome? fun x => match x.2 with | .bad st r => some (x.1, st, r) | _ => none with
    | some (x, st, r) => slotTrap s t f.g (slotWord r x.1 x.2.1 x.2.2.1 st 0)
    | none =>
      let fb := fbRead s k t f.fb
      if !fbGood fb then slotTrap s t f.g (slotWord 6 4 0 0 0 0)
      else
        scaleCheck s t f.g fb <| barMaybe s k t f.g f.bar fun bar =>
          if (uses.any fun x => decide (x.2 = .wait)) || decide (8 ≤ c.mq.length) then .stall s
          else
            let e := mmEntry s k t f fb bar
            let s1 := mmUse (mmUse (mmUse s core e.acc true) core e.ua false) core e.ub false
            let c1 := s1.core core
            .commit ((s1.setCore core { c1 with mq := c1.mq ++ [e] }).modTeam k fun u => { u with mxOut := u.mxOut + 1 })))

/-! ## Elements and their scales (R20 to R24) -/

/-- An FP8 value times its UE4M3 scale, exactly (R20, R21). -/
def scaledFp8 (fm : Fmt) (x sc : Nat) : FVal × Exc :=
  let v := unpack fm x
  let sx := if isSNaN fm x then excNV else 0
  if 0x80 ≤ sc ∨ sc = 0x7f then (.nan, sx ||| excNV)
  else
    match v with
    | .fin .. => ((mulF v (unpack fmtE4m3 sc)).1, sx)
    | _ => if sc = 0 then (.nan, sx ||| excNV) else (v, sx)

/-- A Q16N element (R24). The spec gives a zero element no sign; the model gives it the sign of the product, which decides the sign of
a zero sum under R29 (DESIGN CHOICE, log entry 63). -/
def scaledQ16 (code q f32 : Nat) : FVal × Exc :=
  match unpack fmtF32 f32 with
  | .nan => (.nan, if isSNaN fmtF32 f32 then excNV else 0)
  | .inf n => if q = 0 then (.nan, excNV) else (.inf (n ^^ decide (code < 8)), 0)
  | v => ((mulF (mulF (q16Val code) (.fin false q 0 false)).1 v).1, 0)

/-- Element k of a line (row of A, column of B): its value and exceptions, from its format, its code, its block number and the
scales. A NaN of bf16 or f16 raises nothing (R29). -/
def scaledElem (fmt code blk : Nat) (sc ss : List Byte) : FVal × Exc :=
  match fmt with
  | 0 => scaledFp8 fmtE4m3 code (sc.getD blk 0).toNat
  | 1 => scaledFp8 fmtE5m2 code (sc.getD blk 0).toNat
  | 2 => (unpack fmtBf16 code, 0)
  | 3 => (unpack fmtF16 code, 0)
  | _ => scaledQ16 code (sc.getD blk 0).toNat (leNat ((ss.drop (4 * (blk / 256))).take 4))

/-- The code of the element at half-byte position p of a slot: 1 half-byte for Q16N, 2 for FP8, 4 for 16-bit formats (R162). -/
def elemCode (fmt : Nat) (bs : List Byte) (p : Nat) : Nat :=
  let b := (bs.getD (p / 2) 0).toNat
  if fmt = 4 then bitsAt b (4 * (p % 2)) 4 else if fmt < 2 then b else b + 256 * (bs.getD (p / 2 + 1) 0).toNat

/-- Half-bytes of an element. -/
def elemNibs (fmt : Nat) : Nat := if fmt = 4 then 1 else if fmt < 2 then 2 else 4

/-- Row i of A: its K elements. -/
def rowA (e : MmaEntry) (kk : Nat) (bs : List Byte) (i : Nat) : List (FVal × Exc) :=
  let fmt := fbByte e.fb 0
  let line := (bs.drop (256 * i)).take 256
  let L := fbLen e.fb false
  (List.range kk).map fun j => scaledElem fmt (elemCode fmt line (elemNibs fmt * j)) (i * (kk / L) + j / L) e.scaleA e.superA

/-- Column j of B, K-major or N-major. -/
def colB (e : MmaEntry) (kk : Nat) (bs : List Byte) (j : Nat) : List (FVal × Exc) :=
  let fmt := fbByte e.fb 1
  let L := fbLen e.fb true
  let nmaj := (fbByte e.fb 2).testBit 0
  (List.range kk).map fun x =>
    scaledElem fmt (elemCode fmt bs (if nmaj then elemNibs fmt * (256 * x + j) else 512 * j + elemNibs fmt * x)) (j * (kk / L) + x / L)
      e.scaleB e.superB

/-! ## The accumulation of R29 -/

/-- The exact sum of a group's products, and its exceptions: invalid for 0 × ∞ and for infinities of both signs. A sum of
−0 only is −0. -/
def groupSum (ps : List (FVal × FVal)) : FVal × Exc :=
  let prods := ps.map fun p => mulF p.1 p.2
  let infs := fun (n : Bool) => prods.any fun p => decide (p.1 = .inf n)
  let exc := prods.foldl (fun (e : Exc) p => e ||| p.2) 0
  (prods.foldl (fun v p => (addF 0 v p.1).1) (.fin true 0 0 false), if infs true && infs false then exc ||| excNV else exc)

/-- Groups in ascending order, one rounding each. -/
def accGroups (G : Nat) : Nat → List (FVal × FVal) → Nat → Nat × Exc
  | 0, _, acc => (acc, 0)
  | n + 1, ps, acc =>
    let g := groupSum (ps.take G)
    let a := addF 0 (unpack fmtF32 acc) g.1
    let r := roundTo fmtF32 plainEnv a.1
    let rest := accGroups G n (ps.drop G) r.1
    (rest.1, r.2 ||| a.2 ||| g.2 ||| rest.2)

/-- One output element. -/
def accElem (kk G : Nat) (a b : List (FVal × Exc)) (acc : Nat) : Nat × Exc :=
  accGroups G (kk / G) ((a.map (·.1)).zip (b.map (·.1))) acc

/-- MmaPass of one entry: the accumulator written, its exceptions. -/
def mmaPass (s : State) (core : Nat) (e : MmaEntry) : State × Exc :=
  let c := s.core core
  match mmPair (fbByte e.fb 0) (fbByte e.fb 1) with
  | none => (s, 0)
  | some (kk, G, _) =>
    let ba := opBytes c e.ua 0 32768
    let bb := opBytes c e.ub 0 65536
    let cols := (List.range 256).map fun j => (j, colB e kk bb j)
    let scExc := cols.foldl (fun (x : Exc) col => col.2.foldl (fun y v => y ||| v.2) x) 0
    (List.range 128).foldl (fun (st : State × Exc) i =>
      let a := rowA e kk ba i
      let old := opBytes c e.acc (1024 * i) 1024
      let outs := cols.map fun col => accElem kk G a col.2 (if e.zero then 0 else leNat ((old.drop (4 * col.1)).take 4))
      (opWrite st.1 core e.acc (1024 * i) (outs.flatMap fun o => leBytes 4 o.1),
        outs.foldl (fun (x : Exc) o => x ||| o.2) (a.foldl (fun y v => y ||| v.2) st.2))) (s, scExc)

/-! ## Passes (R174, R175) -/

/-- Y may be fused with X, with the entries that stand between them. -/
def mayFuse (x : MmaEntry) (between : List MmaEntry) (y : MmaEntry) : Bool :=
  decide (y.window ≤ x.window ∧ y.team ≠ x.team ∧ y.gang = x.gang ∧ y.ub = x.ub ∧ fbByte y.fb 1 = fbByte x.fb 1 ∧ fbOff y.fb 1 = fbOff x.fb 1 ∧
    fbOff y.fb 3 = fbOff x.fb 3 ∧ (fbByte y.fb 2 &&& 5) = (fbByte x.fb 2 &&& 5)) &&
  !x.noFuse && !y.noFuse && between.all fun z => decide (z.team ≠ y.team ∧ z.acc ≠ y.acc)

/-- The earliest entry that may be fused with X, and the queue without it. -/
def fuseWith (x : MmaEntry) : List MmaEntry → List MmaEntry → Option (MmaEntry × List MmaEntry)
  | _, [] => none
  | seen, y :: r => if mayFuse x seen y then some (y, seen ++ r) else fuseWith x (seen ++ [y]) r

/-- The array, when idle, takes the queue head and an entry that it may fuse with it (R175). While the core clock is stopped the matrix
clock is, too (R13). -/
def execMatrixPassStart (s : State) : Out :=
  .next (let c := s.core s.sel.core
    if s.stopped then s else
    match c.pass, c.mq with
    | [], x :: r =>
      (match fuseWith x [] r with
      | some (y, r') => s.setCore s.sel.core { c with pass := [x, y], mq := r' }
      | none => s.setCore s.sel.core { c with pass := [x], mq := r })
    | _, _ => s)

/-- The matrix cycles of an entry (R172). -/
def mmCycles (e : MmaEntry) : Nat := match mmPair (fbByte e.fb 0) (fbByte e.fb 1) with | some p => p.2.2 | none => 0

/-- One entry of a pass completes: the accumulator, its slots, the barrier's arrival, the team (R174, R176). -/
def finishMma (core : Nat) (s : State) (e : MmaEntry) : State :=
  let p := mmaPass s core e
  let s1 := slotDone (slotDone (slotDone p.1 core e.acc true false .full) core e.ua false false .full) core e.ub false false .full
  let s2 := match e.bar with | some b => barArrival s1 e.gang core b 0 | none => s1
  matrixDone (bumpCounter s2 core 2 (mmCycles e)) e.team p.2 e.word

/-- The pass of the array completes. -/
def execMatrixPassComplete (s : State) : Out :=
  .next (let core := s.sel.core
    let c := s.core core
    if s.stopped then s else c.pass.foldl (finishMma core) (s.setCore core { c with pass := [] }))

end Sys2Proof.Machine
end

