-- ==== Sys2Proof/Machine/Page.lean ====
section
/-! DEFINITION. Page pools, page-in, pg.map and pg.inv, and what the host does to translations (R241, R246, R249, R251 to
R254). -/

namespace Sys2Proof.Machine

/-- A team that waits in a way, in a slot: that of the active bank first, then that of the shadow bank. -/
def waitingKey (s : State) (core slot : Nat) (p : Team → Bool) : Option Nat :=
  let c := s.core core
  ([teamKey core c.active slot, teamKey core c.shadow slot]).find? fun k => match s.team k with | some t => p t | none => false

/-! ## Pools (R251, R265, R278) -/

/-- Whom a record of a pool operation names (R248). -/
structure Who where
  oid : Nat
  va : Nat
  acc : Nat
  core : Nat
  slot : Nat
  deriving DecidableEq, Repr

/-- A team, for the records of its allocations and frees. -/
def teamWho (t : Team) (k : Nat) : Who := { oid := t.oid, va := 0, acc := 0, core := keyCore k, slot := keySlot k }

/-- A record of a pool operation: POOL_FULL or BAD_POOL with the frame or block. -/
def poolRecord (s : State) (p : Nat) (w : Who) (reason x : Nat) : State := pageRecord s p w.oid w.va reason w.acc w.core w.slot 0 x

/-- The physical address of a pool descriptor from its tier-0 segment offset. -/
def poolPa (s : State) (p off : Nat) : Option Nat := segPa s p 0 off

/-- The descriptor offset of a page pool: 0 HBM, 1 LPDDR-6. -/
def pagePool (s : State) (p tier : Nat) : Nat := if tier = 1 then (s.part p).poolLp.toNat else (s.part p).poolHbm.toNat

def poolCount (s : State) (p off : Nat) : Nat := match poolPa s p off with | some pa => homeNat s pa 8 | none => 0

/-- The fields of a pool's descriptor, its first granule, hold an uncorrectable error (R256). -/
def poolBad (s : State) (p off : Nat) : Bool := match poolPa s p off with | some pa => badAt s pa 32 | none => false

/-- PoolPop: the last entry of the array; none when the pool is empty or the entry cannot be reached. What the descriptor's zero bytes
hold is not looked at (log entry 66). Where the descriptor or the entry holds an uncorrectable error, nothing is popped and the error is
recorded (R256, log entry 75). -/
def poolPop (s : State) (p off : Nat) (w : Who) : State × Option Nat :=
  match poolPa s p off with
  | none => (s, none)
  | some pa =>
    if badAt s pa 32 then (poolRecord s p w rUncorrData 0, none)
    else
      let n := homeNat s pa 8
      if n = 0 then (s, none)
      else
        match segPa s p 0 (homeNat s (pa + 8) 8 + 8 * (n - 1)) with
        | none => (s, none)
        | some q => if badAt s q 8 then (poolRecord s p w rUncorrData 0, none) else (homePutNat s none pa 8 (n - 1), some (homeNat s q 8))

/-- PoolPush: a push at capacity stores nothing and writes a POOL_FULL record; one that meets an uncorrectable error stores nothing and
records that (R256, log entry 75). -/
def poolPush (s : State) (p off : Nat) (w : Who) (x : Nat) : State :=
  match poolPa s p off with
  | none => poolRecord s p w rPoolFull x
  | some pa =>
    if badAt s pa 32 then poolRecord s p w rUncorrData x
    else
      let n := homeNat s pa 8
      match if homeNat s (pa + 16) 8 ≤ n then none else segPa s p 0 (homeNat s (pa + 8) 8 + 8 * n) with
      | none => poolRecord s p w rPoolFull x
      | some q => if badAt s q 8 then poolRecord s p w rUncorrData x else homePutNat (homePutNat s none q 8 x) none pa 8 (n + 1)

/-- A frame keeps the rule of R251 for its tier. -/
def frameGood (s : State) (p tier f : Nat) : Bool := decide (f % 2 ^ 18 = 0) && (segPa s p tier f).isSome

/-- What an allocation comes to. -/
inductive Got (α : Type) where
  | ok (x : α)
  | quota
  | empty
  | bad

/-- Frames pushed back, in the order they were popped. -/
def pushBack (s : State) (p : Nat) (w : Who) (fs : List (Nat × Nat)) : State :=
  fs.foldl (fun st f => poolPush st p (pagePool st p f.1) w f.2) s

/-- Frames popped one at a time, one for each tier listed. -/
def popFrames (p : Nat) (w : Who) : List Nat → List (Nat × Nat) → State → State × Got (List (Nat × Nat))
  | [], got, s => (s, .ok got)
  | tier :: r, got, s =>
    let x := poolPop s p (pagePool s p tier) w
    match x.2 with
    | none => (pushBack x.1 p w got, .empty)
    | some f =>
      if frameGood x.1 p tier f then popFrames p w r (got ++ [(tier, f)]) x.1
      else (pushBack (poolRecord x.1 p w rBadPool f) p w got, .bad)

/-- USED raised or lowered by a number of frames (R252). -/
def chargeUsed (s : State) (p n : Nat) : State := let q := s.part p; s.setPart p { q with used := q.used + n }
def refundUsed (s : State) (p n : Nat) : State := let q := s.part p; s.setPart p { q with used := q.used - n }

/-- Frames for the tiers listed: quota first, then the pools' counts, then the pops; each frame zeroed and charged
(R251, R252). A pool whose descriptor holds an uncorrectable error gives none (log entry 75). -/
def allocFrames (s : State) (p : Nat) (w : Who) (tiers : List Nat) : State × Got (List Nat) :=
  let q := s.part p
  if q.quota.toNat < q.used + tiers.length then (s, .quota)
  else if tiers.any fun i => poolBad s p (pagePool s p i) then (poolRecord s p w rUncorrData 0, .empty)
  else if poolCount s p (pagePool s p 0) < tiers.count 0 ∨ poolCount s p (pagePool s p 1) < tiers.count 1 then (s, .empty)
  else
    let x := popFrames p w tiers [] s
    match x.2 with
    | .ok fs =>
      let s1 := fs.foldl (fun st f => match segPa st p f.1 f.2 with | some pa => homeZero st pa (2 ^ 18) | none => st) x.1
      (chargeUsed s1 p tiers.length, .ok (fs.map (·.2)))
    | .quota => (x.1, .quota)
    | .empty => (x.1, .empty)
    | .bad => (x.1, .bad)

/-! ## Words that the part reaches by virtual address (R348) -/

/-- An address that a record holds. -/
def xva (n : Nat) : Nat := extVA (BitVec.ofNat 64 n)

/-- The physical address of a word: through the pages that were translated, or by a walk. -/
def stPa (s : State) (oid : Nat) (pg : Table Nat) (va : Nat) : Option Nat :=
  match pg.find (va / 2 ^ 18) with
  | some b => some (b + va % 2 ^ 18)
  | none => match walk s oid va accR with | .ok pa _ _ _ => if isPeer pa then none else some pa | _ => none

/-- D of the leaf of an address before its page is written (R245). -/
def touchD (s : State) (cl oid va : Nat) : State :=
  match tlbFind (s.cluster cl) oid va with
  | some _ => setD s cl oid va
  | none => match walk s oid va accW with | .ok _ q e _ => if pteD e then s else homePutNat s none q 8 (homeNat s q 8 ||| 0x80) | _ => s

/-- Bytes written by the part for a team at their home slices. -/
def stWrite (s : State) (k : Nat) (t : Team) (pg : Table Nat) (va : Nat) (bs : List Byte) : State :=
  (cutPages (bs.length / 2 ^ 18 + 2) va bs.length).foldl (fun st c =>
    match stPa st t.oid pg c.1 with
    | some pa =>
      let s1 := settlePhys (touchD st (clusterOf (keyCore k)) t.oid c.1) k pa c.2
      refreshPhys (homePut s1 (some t.kernel) pa ((bs.drop (c.1 - va)).take c.2)) k pa c.2
    | none => st) s

/-- A little-endian number written by the part. -/
def stPut (s : State) (k : Nat) (t : Team) (pg : Table Nat) (va n v : Nat) : State := stWrite s k t pg va (leBytes n v)

/-- The EDIT that a team holds for an edit that goes no further is cleared (R282). -/
def freeEdit (s : State) (k : Nat) (t : Team) : State :=
  match t.holdsEdit with
  | none => s
  | some va => (stPut s k t [] (va + 21) 1 0).modTeam k fun u => { u with holdsEdit := none }

/-- Physical bytes that an access reaches at the home slice: what the team has in flight there is finished, and the copies in the issuing
L1 are written back and invalidated (R181, R211). -/
def leavePhys (s : State) (k pa n : Nat) : State := flushPhys (settlePhys s k pa n) (keyCore k) pa n

/-- A compare-and-swap of the part for a team, as an atomic of its own is. -/
def casEntry (s : State) (k pa : Nat) (old new : W64) : State × Bool := homeCas (leavePhys s k pa 8) pa old new

/-! ## Page-in (R246) -/

/-- The bytes listed in a range of physical memory. -/
def listedIn (s : State) (pa n : Nat) : List (Nat × Byte) :=
  let a := if 2 ^ 48 ≤ pa then hostAddr s pa else pa
  ((if 2 ^ 48 ≤ pa then s.hostMem else s.mem).filter fun c => decide (a ≤ c.1 ∧ c.1 < a + n)).map fun c => (c.1 - a, c.2)

/-- n bytes copied between ranges that do not overlap. -/
def copyRange (s : State) (src dst n : Nat) : State :=
  (listedIn s src n).foldl (fun st c => rawWrite st (dst + c.1) [c.2]) (homeZero s dst n)

/-- Accesses that wait on a leaf walk again (R241, R246). -/
def wakeLeaf (s : State) (leafPa : Nat) : State :=
  { s with teams := s.teams.map fun e =>
      (e.1, match e.2.busyLeaf with | some b => if b.1 = leafPa then { e.2 with busyLeaf := none } else e.2 | none => e.2) }

/-- Whom the record of a page-in names: the team whose access started it, or the engine (R248). -/
def pageWho (x : PageIn) : Who :=
  match x.team with
  | some k => { oid := x.oid, va := x.va, acc := x.acc, core := keyCore k, slot := keySlot k }
  | none => { oid := x.oid, va := x.va, acc := x.acc + 8, core := 0xff, slot := x.code }

/-- What a failed page-in leaves: a filtered record for the demanding team, which waits for the host where it still waits on the leaf,
and clears an EDIT that it holds (R282); for an engine a record that is not filtered, and the reason, which it meets at its next attempt
(R246 to R249). -/
def pageInFail (s : State) (x : PageIn) (reason extra : Nat) : State :=
  let p := ctxPart s x.oid
  let w := pageWho x
  match x.team with
  | none =>
    let s1 := dropPageFails (pageRecord s p x.oid x.va reason w.acc w.core w.slot x.leaf extra) (failsFor x.leafPa x.oid x.cluster x.code)
    { s1 with pageFails := { leafPa := x.leafPa, oid := x.oid, cluster := x.cluster, code := x.code, reason := reason } :: s1.pageFails }
  | some k =>
    match s.team k with
    | none => pageRecord s p x.oid x.va reason w.acc w.core w.slot x.leaf extra
    | some t =>
      let s1 := filteredRecord s k { t with oid := x.oid } x.va reason x.acc x.leaf extra
      if t.busyLeaf.map (·.1) ≠ some x.leafPa then s1
      else
        let fetch := decide (x.acc = accX)
        hostWait (freeEdit s1 k t) k t x.va reason x.acc (if fetch then 0 else curWord t) (if fetch then 0 else curHdr t) (if fetch then t.e else x.mask)

/-- The leaf that a page-in installs. -/
def pagedLeaf (e : W64) (f : Nat) : W64 :=
  BitVec.ofNat 64 (e.toNat - bitsAt e.toNat 18 34 * 2 ^ 18 - bitsAt e.toNat 4 2 * 2 ^ 4 + f) ||| 0x100

/-- PageIn of R246 from the quota check on, for a leaf on which BUSY is set: the parked offset, the quota, the pool, the frame, the
copy, and the compare-and-swap that installs the leaf. Where another party has written the leaf meanwhile, the frame goes back and
nothing else happens. The second component is the reason of a failure and what its record holds in bytes 40 to 47. -/
def pageInTry (s : State) (x : PageIn) : State × Option (Nat × Nat) :=
  let p := ctxPart s x.oid
  let q := s.part p
  match segPa s p 2 (pteOff x.leaf) with
  | none => (s, some (rSegment, 0))
  | some src =>
    if q.quota.toNat < q.used + 1 then (s, some (rQuota, 0))
    else
      let a := poolPop s p q.poolHbm.toNat (pageWho x)
      match a.2 with
      | none => (a.1, some (rPoolEmpty, 0))
      | some f =>
        match if frameGood a.1 p 0 f then segPa a.1 p 0 f else none with
        | none => (a.1, some (rBadPool, f))
        | some dst =>
          let back := fun (st : State) => poolPush st p q.poolHbm.toNat (pageWho x) f
          if badAt a.1 src (2 ^ 18) then (back a.1, some (rUncorrData, 0))
          else
            let c := homeCas (copyRange a.1 src dst (2 ^ 18)) x.leafPa (busyOf x.leaf) (pagedLeaf x.leaf f)
            if c.2 then
              let w := pageWho x
              (pageRecord (chargeUsed c.1 p 1) p x.oid x.va rPagedIn w.acc w.core w.slot x.leaf (pteOff x.leaf), none)
            else (back c.1, none)

/-- A page-in of a parked leaf, with what its failure does: BUSY goes by compare-and-swap, and the reason is recorded. -/
def pageInRun (s : State) (x : PageIn) : State :=
  let r := pageInTry s x
  match r.2 with
  | none => r.1
  | some (reason, extra) => pageInFail (homeCas r.1 x.leafPa (busyOf x.leaf) x.leaf).1 x reason extra

/-- The cluster's copy engine runs a page-in; accesses that waited walk again. -/
def pageInEnd (page : Nat) (s : State) : State :=
  match s.pageIns.find page with
  | none => s
  | some x => wakeLeaf (pageInRun { s with pageIns := s.pageIns.erase page } x) x.leafPa

/-- A leaf in a line has changed: the accesses that wait on it walk again (R241). -/
def leafChange (line : Nat) (s : State) : State :=
  { s with teams := s.teams.map fun e =>
    (e.1, match e.2.busyLeaf with
      | some b => if b.1 / 128 = line ∧ homeNat s b.1 8 ≠ b.2.toNat then { e.2 with busyLeaf := none } else e.2
      | none => e.2) }

/-- A walk for an access of a cluster: it installs what it finds, or starts a page-in (R241). -/
def execTlbWalk (cluster oid : Nat) (va : BitVec 80) (access : Nat) (s : State) : Out :=
  .next (if (s.ctx oid).isNone then s
    else
      let x := xlat s none cluster oid va.toNat access
      match x.2 with
      | .parked q e => wantPageIn x.1 cluster oid q e va.toNat access none 0 0
      | _ => x.1)

/-! ## The host's fault buffer control (R249) -/

/-- A wait ends in a fault: the frame is delivered, or its cause is held in handler mode and the handler goes on (R298,
R299). A fetch has no word to go past. -/
def deliverWait (s : State) (k : Nat) (t : Team) (f : Frame) : State :=
  if t.handler then
    let t1 := if t.epend = 0 then { t with lInst := f.inst, lHdr := f.hdr, lAddr := f.addr, lMask := f.mask } else t
    s.setTeam k { t1 with
      epend := t1.epend ||| f.cause, state := .ready, waitKind := .none, wait := 0, work := none, i := if f.hdr = 0 then t.i else t.i + 1 }
  else deliver (s.setTeam k { holdReport (setSticky t) with state := .ready, work := none }) k f

/-- A waiting team takes its fault as a trap; a fetch's resumes at the start of its clause (R32). -/
def hostFails (s : State) (k : Nat) (t : Team) : State :=
  let reason := waitField t.wait 10 1
  deliverWait s k t
    { h := t.h, i := if waitField t.wait 11 1 = accX then 0 else t.i, inst := t.hostWord, hdr := t.hostHdr, cause := (if reason = rQuota then cQuota else cPage) ||| cReason reason,
      addr := BitVec.ofNat 64 (waitField t.wait 0 10), mask := t.hostMask }

/-- A team waits for the host, in one of two ways, under a generation below n. -/
def hostWaits (s : State) (part n : Nat) (kind : WKind) (t : Team) : Bool :=
  decide (t.waitKind = kind ∧ t.state = .waiting ∧ ctxPart s t.oid = part ∧ waitField t.wait 12 4 < n)

/-- Teams that wait for the host go on. -/
def hostWakes (s : State) (p : Team → Bool) : State :=
  { s with teams := s.teams.map fun (e : Nat × Team) => (e.1, if p e.2 then { e.2 with state := .ready, waitKind := .none, wait := 0 } else e.2) }

/-- The requests of a partition's teams that a peer has refused (R319). -/
def refusedPeers (s : State) (part : Nat) : Table PeerReq := s.peers.filter fun r => r.2.refused && r.2.team.isSome && decide (ctxPart s r.2.oid = part)

/-- FAIL: every team of the OID that waits under an older generation takes its fault as a trap. For a request that a peer refused, PAGE is
held for the team, which goes on. -/
def fbFail (s : State) (part oid : Nat) : State :=
  let n := (s.part part).fbGen + 1
  let s1 := hostWakes s fun t => decide (t.oid = oid) && hostWaits s part n .peer t
  let s2 := ((refusedPeers s part).filter fun r => decide (r.2.oid = oid)).foldl (fun st r => giveUpPeer st r.1) s1
  (s2.teams.filter fun e => decide (e.2.oid = oid) && hostWaits s2 part n .host e.2).foldl (fun st e => hostFails st e.1 e.2) s2

def execFbCtlFail (part : Nat) (oid : BitVec 12) (s : State) : Out := .next (fbFail s part oid.toNat)

/-- What a lane's load finds in answer to its request. -/
def loadAnswer (s : State) (l lane : Nat) (bs : List Byte) (bad : Bool) : State :=
  { s with loads := s.loads.modify l fun x =>
      { x with lanes := x.lanes.map fun y => if y.lane = lane then { y with data := if bad then none else some bs, bad := bad } else y } }

/-- A request of a team whose address no peer has any more is performed at the home slice: an atomic as its operation says. -/
def homeRequest (s : State) (id k : Nat) (t : Team) (r : PeerReq) (pa : Nat) : State :=
  let s1 := { s with peers := s.peers.erase id }
  let b := fun i n => leNat ((r.data.drop i).take n)
  let n := b (if r.kind = 2 then 1 else 0) 1
  let x := atomLane s1 k t (b 0 1) n (0, r.va, pa) (b 2 8) (b 10 8) r.word
  let s2 :=
    if r.kind = 0 then s1
    else if r.kind = 1 then teamHomeWrite s1 k r.va pa r.data r.word
    else digestAnswer (if x.2.1.bad && r.load.isNone then holdUncorr x.1 k r.va (reqAcc r) r.word else x.1) k id (if x.2.2 then [.data r.va (leBytes n (b 2 8))] else [])
  let s3 := match r.load with
    | some (l, lane) => loadAnswer s2 l lane (if r.kind = 0 then homeBytes s1 pa n else x.2.1.data.getD []) (badAt s1 pa n)
    | none => storeDone s2 k r.num
  match r.acq with
  | some scope => acquire s3 k t scope
  | none => s3

/-- The digest waits for a request under its new number. -/
def reask (s : State) (k old new : Nat) : State :=
  s.modTeam k fun t => { t with digestQ := t.digestQ.map fun d => if d = .ask old then .ask new else d }

/-- A refused request is made again, once more translated, and comes after those made since (R249, R255). -/
def retryPeer (s : State) (id : Nat) (r : PeerReq) : State :=
  match r.team with
  | none => s
  | some k =>
    match s.team k with
    | none => dropPeer s id r
    | some t =>
      let r1 := { r with refused := false, sent := false }
      let x := xlat s (some (keyCore k)) (clusterOf (keyCore k)) r.oid r.va (reqAcc r)
      match x.2 with
      | .ok pa _ _ _ =>
        if isPeer pa then
          let f := x.1.fresh
          sendPeer (reask { f.2 with peers := f.2.peers.erase id } k id f.1) f.1 { r1 with port := peerPort pa, pa := peerAddr pa }
        else homeRequest x.1 id k t r1 pa
      | _ => refusePeer x.1 id r1

/-- FLUSH: FB_GEN rises, the filters are cleared, every team that waits under an older generation issues again, and refused requests are
made again. -/
def fbFlush (s : State) (part : Nat) : State :=
  let q := s.part part
  let n := (q.fbGen + 1) % 2 ^ 32
  let s1 := s.setPart part { q with fbGen := n }
  let s2 := hostWakes { s1 with clusters := s1.clusters.map fun (c : Nat × Cluster) => (c.1, { c.2 with filter := [] }) }
    fun t => hostWaits s part n .host t || hostWaits s part n .peer t
  (refusedPeers s2 part).foldl (fun st r => retryPeer st r.1 r.2) s2

def execFbCtlFlush (part : Nat) (s : State) : Out := .next (fbFlush s part)

/-! ## pg.map (R253) -/

/-- Where a walk to a level-4 leaf ends. -/
inductive MapAt where
  | bad
  | uncorr
  /-- A level-4 entry, a level-3 entry with L = 1, or a missing table entry. -/
  | entry (level pa : Nat) (e : W64)
  deriving DecidableEq, Repr

def mapWalk (s : State) (p va : Nat) : Nat → W64 → MapAt
  | 0, _ => .bad
  | n + 1, e =>
    if !tableOk e then .bad
    else
      match segPa s p (pteTier e) (pteOff e) with
      | none => .bad
      | some base =>
        let q := base + 8 * bitsAt va (18 + 15 * n) 15
        if badAt s q 8 then .uncorr
        else
          let x := BitVec.ofNat 64 (homeNat s q 8)
          if n = 0 ∨ (n = 1 ∧ pteL x = true) ∨ (!pteV x && !pteFT x) = true then .entry (4 - n) q x
          else mapWalk s p va n x

/-- The root entry of a context for an address. -/
def rootOf (s : State) (oid va : Nat) : W64 := match s.ctx oid with | some c => c.roots.getD (bitsAt va 78 2) 0 | none => 0

/-- A table entry or a leaf written at its home slice, for a team of a core or an engine: the core's L1 has no copy of it (R181). -/
def entryPut (s : State) (core : Option Nat) (q v : Nat) : State :=
  homePutNat (match core with | some c => flushPhys s c q 8 | none => s) none q 8 v

/-- Missing tables installed, top down, and the leaf below them: V = 1 tier-0 entries (R253). -/
def installTables (core : Option Nat) (p va : Nat) (leaf : Nat → W64) : List Nat → Nat → Nat → State → State
  | [], _, q, s => entryPut s core q (leaf (homeNat s q 8)).toNat
  | f :: r, level, q, s =>
    let s1 := entryPut s core q (1 + f)
    match segPa s1 p 0 f with
    | some base => installTables core p va leaf r (level + 1) (base + 8 * bitsAt va (18 + 15 * (3 - level)) 15) s1
    | none => s1

/-- PgMap: the state and the status, or none for an uncorrectable error met by the walk. -/
def pgMapRun (s : State) (w : Who) (va : Nat) (wr x : Bool) (tier : Nat) : State × Option Nat :=
  let p := ctxPart s w.oid
  match mapWalk s p va 4 (rootOf s w.oid va) with
  | .bad => (s, some 5)
  | .uncorr => (s, none)
  | .entry level q e =>
    let bad := (pteV e || pteFT e) && leafBad e true
    if level = 3 ∧ pteL e = true then (s, some (if bad then 5 else 4))
    else if level = 4 ∧ pteV e = true then (s, some 1)
    else if level < 4 ∧ e ≠ 0 then (s, some 5)
    else
      let a := allocFrames s p w (List.replicate (4 - level) 0 ++ [tier])
      match a.2 with
      | .quota => (a.1, some 2)
      | .empty => (a.1, some 3)
      | .bad => (a.1, some 6)
      | .ok fs =>
        let f := fs.getD (4 - level) 0
        let leaf := fun old => BitVec.ofNat 64 (1 + (if wr then 2 else 0) + (if x then 4 else 0) + tier * 2 ^ 4 + f + bitsAt old 56 7 * 2 ^ 56)
        (installTables (some w.core) p va leaf (fs.take (4 - level)) level q a.1, some 0)

/-- ILLEGAL_OP after the decode checks: the frame is that of a decode fault (R298, R337). -/
def lateIllegal (s : State) (t : Team) : Res := .trap s { bits := cIllegalOp, addr := wordAddr t.h t.i, mask := t.e }

/-- The context of a team has SCHED (R61). -/
def teamSched (s : State) (t : Team) : Bool := match s.ctx t.oid with | some c => c.sched | none => false

def execPgMap (f : SYS) (s : State) : Out :=
  .next (issue (.pgMap f) s (once f.g fun k t s =>
    if !(t.handler || teamSched s t) then lateIllegal s t
    else if peerHold s k then .stall s
    else fenceWith s k t 2 2 fun s1 =>
      let va := extVA (opdS s k t f.a)
      let r := pgMapRun s1 { teamWho t k with va := va } va (f.lo.getLsbD 0) (f.lo.getLsbD 1) (if f.lo.getLsbD 2 then 1 else 0)
      match r.2 with
      | none => teamTrap (pageRecord r.1 (ctxPart s t.oid) t.oid va rUncorrTable accR (keyCore k) (keySlot k) 0 0) t f.g cUncorrectable (BitVec.ofNat 64 va)
      | some 2 => if f.d.isN then teamTrap r.1 t f.g (cQuota ||| cReason rQuota) (BitVec.ofNat 64 va) else .commit (writeS r.1 k f.d 2)
      | some 3 => if f.d.isN then teamTrap r.1 t f.g (cPage ||| cReason rPoolEmpty) (BitVec.ofNat 64 va) else .commit (writeS r.1 k f.d 3)
      | some n => .commit (writeS r.1 k f.d (BitVec.ofNat 64 n))))

/-! ## pg.inv (R254) -/

/-- The addresses of a range at which the walk to the leaf meets an uncorrectable error (R256). -/
def leafErrs (s : State) (oid : Nat) (vas : List Nat) : List Nat :=
  vas.filter fun va => decide (mapWalk s (ctxPart s oid) va 4 (rootOf s oid va) = .uncorr)

/-- The leaves of a range cleared under FREE for a team of a core, or for an engine: the frames that go back, by tier. -/
def freeLeaves (s : State) (core : Option Nat) (oid : Nat) : List Nat → State × List (Nat × Nat)
  | [] => (s, [])
  | va :: r =>
    let here := match mapWalk s (ctxPart s oid) va 4 (rootOf s oid va) with
      | .entry 4 q e =>
        if pteV e && decide (pteTier e < 2) && !pteBusy e then
          (entryPut s core q (0x40 + bitsAt e.toNat 56 7 * 2 ^ 56), [(pteTier e, pteOff e)])
        else (s, [])
      | _ => (s, [])
    let b := freeLeaves here.1 core oid r
    (b.1, here.2 ++ b.2)

/-- Accesses in flight of an OID in a range perform (R254). -/
def performRange (s : State) (oid lo n : Nat) : State :=
  let s1 := ((s.fills.filter fun f => decide (f.2.oid = oid) && overlaps (128 * f.2.vline) 128 lo n).map (·.1)).foldl completeFill s
  let mine := fun (k : Nat) => match s1.team k with | some t => decide (t.oid = oid) | none => false
  let s2 := acceptPosts s1 fun p => mine p.team && overlaps (128 * p.write.vline) 128 lo n
  bindLoads s2 (fun l x => mine l.team && overlaps x.va l.size lo n) (bindHome s2)

/-- TLB entries of an OID that overlap a range are invalidated, and the L1 lines of the OID in it written back and
invalidated, in every cluster (R254). -/
def shootRange (s : State) (oid lo n : Nat) : State :=
  let drop := fun (e : TlbEntry) =>
    let sz := if e.large then 2 ^ 33 else 2 ^ 18
    decide (e.oid = oid) && overlaps (e.vpn * sz) sz lo n
  let s1 := { s with clusters := s.clusters.map fun (c : Nat × Cluster) => (c.1, { c.2 with tlb := c.2.tlb.filter fun e => !drop e }) }
  (s1.cores.map (·.1)).foldl (fun st c => eachLine st c (fun l => decide (l.oid = oid) && overlaps (128 * l.vline) 128 lo n) flushLine) s1

/-- The range of a pg.inv: its first byte and its length. -/
def invRange (va count : Nat) (large : Bool) : Nat × Nat := if large then (va / 2 ^ 33 * 2 ^ 33, count * 2 ^ 33) else (va / 2 ^ 18 * 2 ^ 18, count * 2 ^ 18)

def execPgInv (f : SYS) (s : State) : Out :=
  .next (issue (.pgInv f) s (once f.g fun k t s =>
    let free := f.lo.getLsbD 0
    let large := f.lo.getLsbD 1
    let va := extVA (opdS s k t f.a)
    let n := (opdS s k t (Opd.next f.a 1)).toNat
    if free && !(t.handler || teamSched s t) then lateIllegal s t
    else if n < 1 ∨ 65536 < n then .commit (writeS s k f.d 1)
    else if peerHold s k then .stall s
    else fenceWith s k t 2 2 fun s1 =>
      let r := invRange va n large
      let pages := (List.range n).map fun i => r.1 + i * 2 ^ 18
      match if free then (leafErrs s1 t.oid pages).head? else none with
      | some x => teamTrap (pageRecord s1 (ctxPart s t.oid) t.oid x rUncorrTable accR (keyCore k) (keySlot k) 0 0) t f.g cUncorrectable (BitVec.ofNat 64 x)
      | none =>
      let a := if free then freeLeaves s1 (some (keyCore k)) t.oid pages else (s1, [])
      let s2 := shootRange a.1 t.oid r.1 r.2
      let w : Work := { pushes := a.2.map fun x => (pagePool s2 (ctxPart s t.oid) x.1, x.2), frames := a.2.length,
                        version := none, fault := none, fmt := none }
      waitWith (s2.modTeam k fun u => { u with work := some w, hostWord := curWord t }) k .pgInv (waitMake [(0, va), (10, n)])))

/-- What an instruction waited for has ended: a waiting team takes its result and is READY past its word; an exiting team only
drains. -/
def goOn (s : State) (k : Nat) (d : Opd) (v : W64) : State :=
  match s.team k with
  | none => s
  | some t =>
    let s1 := s.setTeam k { t with waitKind := .none, wait := 0, work := none, edit := none }
    if t.state = .waiting then (writeS s1 k d v).modTeam k fun u => { advance u with state := .ready } else s1

/-- A team waits in a way that ends by itself, or drains from it. -/
def waitsFor (kind : WKind) (t : Team) : Bool :=
  decide (t.waitKind = kind) && (decide (t.state = .waiting) || (decide (t.state = .exiting) && (t.work.isSome || t.edit.isSome)))

/-- Frames and blocks go back to their pools, and USED falls (R254, R267). -/
def doPushes (s : State) (p : Nat) (who : Who) (w : Work) : State :=
  refundUsed (w.pushes.foldl (fun st x => poolPush st p x.1 who x.2) s) p w.frames

/-- A slot transfer, a stitch edit, a vol instruction or a request to a peer of an OID that has translated through a range is in flight
(R254). A request that a peer has refused is translated again when it is made again. -/
def rangeBusy (s : State) (oid lo n : Nat) : Bool :=
  let hit := fun (ps : Table Nat) => ps.any fun p => overlaps (2 ^ 18 * p.1) (2 ^ 18) lo n
  (s.slotOps.any fun o => (match s.team o.2.team with | some t => decide (t.oid = oid) | none => false) && hit o.2.pages) ||
    (s.teams.any fun e => decide (e.2.oid = oid) && (match e.2.edit with | some x => hit x.pages | none => false)) ||
    (s.teams.any fun e => decide (e.2.oid = oid ∧ e.2.waitKind = .cymbal ∧ lo ≤ waitField e.2.wait 0 10 ∧ waitField e.2.wait 0 10 < lo + n) && e.2.work.isSome) ||
    s.peers.any fun r => !r.2.refused && decide (lo ≤ r.2.va ∧ r.2.va < lo + n) &&
      (match r.2.team.bind s.team with | some t => decide (t.oid = oid) | none => false)

/-! ## The part's own translations (R88, R89, R247) -/

/-- A translation for the part's own reads and writes of a context's structures: an engine's, of code 0, through cluster 0's TLB. An
uncorrectable error that the walk meets is recorded (R247). -/
def partXlat (s : State) (oid va acc : Nat) : State × XRes :=
  let x := engineXlat s 0 0 oid va acc
  match x.2 with
  | .fail reason e => (if reasonOf reason = rUncorrTable then engineRecord x.1 (ctxPart s oid) oid va reason acc 0 e 0 else x.1, x.2)
  | _ => x

/-- What reaching a place in a context's memory comes to. -/
inductive PAt where
  /-- Its physical address, in tier 0, 1 or 2. -/
  | at (pa : Nat)
  /-- A leaf is BUSY, or a page-in is under way (R241, R246). -/
  | wait
  | fail
  deriving DecidableEq, Repr

/-- Where the part reaches an address of a context. -/
def partPa (s : State) (oid va acc : Nat) : State × PAt :=
  let x := partXlat s oid va acc
  match x.2 with
  | .ok pa _ _ _ => (x.1, if isPeer pa then .fail else .at pa)
  | .fail _ _ => (x.1, .fail)
  | _ => (x.1, .wait)

/-- A queue of the list that the part cannot use: its descriptor is never reached (R88). -/
def descDead : Nat := 0xff

/-- The part walks to a queue's descriptor again after an invalidation; where a leaf on the way is BUSY or parked it comes back to it
(R89, R245, R246, R255). -/
def reachDesc (s : State) (oid qn : Nat) : State :=
  match (s.ctx oid).bind fun c => c.queues.find qn with
  | none => s
  | some q =>
    if q.descPa ≠ noDesc ∨ q.descBad = descDead then s
    else
      let x := partPa s oid q.desc (accR + accW)
      match x.2, x.1.ctx oid with
      | .at pa, some c => x.1.setCtx oid { c with queues := c.queues.modify qn fun y => { y with descPa := pa } }
      | _, _ => x.1

/-- The part gives up its translations of the queue descriptors of an OID in a range, and walks to them again (R255). -/
def walkDescs (s : State) (oid lo n : Nat) : State :=
  match s.ctx oid with
  | none => s
  | some c =>
    let hit := c.queues.filter fun (q : Nat × Queue) => decide (lo ≤ q.2.desc ∧ q.2.desc < lo + n ∧ q.2.descPa ≠ noDesc)
    let s1 := s.setCtx oid { c with queues := c.queues.map fun (q : Nat × Queue) =>
      if lo ≤ q.2.desc ∧ q.2.desc < lo + n then (q.1, { q.2 with descPa := noDesc }) else q }
    hit.foldl (fun st q => reachDesc st oid q.1) s1

/-- Every cluster has acknowledged a pg.inv: what translated through the range has performed, the frames go back, and the
team is released. -/
def execPgInvAckComplete (core slot : Nat) (s : State) : Out :=
  .next (match waitingKey s core slot (waitsFor .pgInv) with
    | none => s
    | some k =>
      match s.team k with
      | none => s
      | some t =>
        match parse t.hostWord with
        | .pgInv f =>
          let r := invRange (waitField t.wait 0 10) (waitField t.wait 10 4) (f.lo.getLsbD 1)
          if rangeBusy s t.oid r.1 r.2 then s else
          let s1 := walkDescs (shootRange (performRange s t.oid r.1 r.2) t.oid r.1 r.2) t.oid r.1 r.2
          let s2 := match t.work with | some w => doPushes s1 (ctxPart s t.oid) (teamWho t k) w | none => s1
          goOn s2 k f.d 0
        | _ => s)

/-- A host invalidation, when GO is set: the effect of pg.inv without FREE for the OID named; GO then reads 0 (R254). -/
def execInvCtlGo (part : Nat) (s : State) : Out :=
  .next (let q := s.part part
    if !q.invCtl.getLsbD 63 then s
    else
      let oid := bitsAt q.invCtl.toNat 0 12
      let va := q.invVa.toNat + bitsAt q.invVah.toNat 0 16 * 2 ^ 64
      let r := invRange va (bitsAt q.invCtl.toNat 32 16 + 1) (q.invCtl.getLsbD 16)
      if rangeBusy s oid r.1 r.2 then s else
      let s1 := walkDescs (shootRange (performRange s oid r.1 r.2) oid r.1 r.2) oid r.1 r.2
      let q1 := s1.part part
      s1.setPart part { q1 with invCtl := q1.invCtl &&& BitVec.ofNat 64 (2 ^ 63 - 1) })

end Sys2Proof.Machine
end

