-- ==== Sys2Proof/Machine/Volume.lean ====
section
/-! DEFINITION. Volumes: descriptors, the tree, tiles, the CLB, allocation, the cymbal, opcodes 0x280 to 0x288 (R257 to R274,
R84, R333). -/

namespace Sys2Proof.Machine

/-! ## Descriptors (R258) -/

/-- The fields of a descriptor's 128 bytes. -/
def volDesc (s : State) (p va pa : Nat) : VDesc :=
  let f := fun (o n : Nat) => homeNat s (pa + o) n
  { va := va, pa := pa, root := BitVec.ofNat 64 (f 0 8), bg := f 8 8, e := 2 ^ bitsAt (f 16 1) 0 2, fmt := f 17 1,
    bounds := [f 24 4, f 28 4, f 32 4], pool := f 40 8, bound := (segment s p 0).2, part := p }

/-! ## The tree (R257, R259) -/

/-- A tile coordinate. -/
abbrev Tile := Nat × Nat × Nat

/-- A tile coordinate as one number. -/
def tileKey (t : Tile) : Nat := t.1 + t.2.1 * 2 ^ 20 + t.2.2 * 2 ^ 40
def keyTile (n : Nat) : Tile := (bitsAt n 0 20, bitsAt n 20 20, bitsAt n 40 20)

/-- The entry index of a tile in a node of level k. -/
def nodeIndex (t : Tile) (k : Nat) : Nat :=
  bitsAt t.1 (5 * k - 5) 5 + 32 * bitsAt t.2.1 (5 * k - 5) 5 + 1024 * bitsAt t.2.2 (5 * k - 5) 5

def veKind (e : W64) : Nat := e.toNat / 2 ^ 62
def veChild (e : W64) : Nat := bitsAt e.toNat 18 34 * 2 ^ 18
def veTile (e : W64) : Nat := bitsAt e.toNat 6 46 * 2 ^ 6
def veFmt (e : W64) : Nat := bitsAt e.toNat 0 2
def veBusy (e : W64) : Bool := e.getLsbD 61
def childEntry (f : Nat) : W64 := BitVec.ofNat 64 (2 ^ 62 + f)
def leafEntry (blk fmt : Nat) : W64 := BitVec.ofNat 64 (2 ^ 63 + blk + fmt)

/-- The entry is malformed at a level, 5 for the root entry. -/
def veBad (e : W64) (level bound : Nat) : Bool :=
  let n := e.toNat
  match veKind e with
  | 0 => decide (n ≠ 0)
  | 1 => decide (bitsAt n 52 10 ≠ 0 ∨ bitsAt n 0 18 ≠ 0 ∨ level = 1 ∨ bound ≤ veChild e)
  | 2 => decide (bitsAt n 52 9 ≠ 0 ∨ bitsAt n 2 4 ≠ 0 ∨ veFmt e = 3 ∨ level ≠ 1 ∨ bound ≤ veTile e)
  | _ => false

/-- The descriptor keeps R258: its root entry has the layout of an empty, child or constant entry. Where the root's child lies is
looked at by the walk, whose failure names level 5 (R259, R268, R271). -/
def volDescOk (s : State) (d : VDesc) : Bool :=
  let f := fun (o n : Nat) => homeNat s (d.pa + o) n
  decide (f 16 1 < 4 ∧ d.fmt < 3 ∧ f 18 2 = 0 ∧ f 36 4 = 0 ∧ f 48 80 = 0 ∧ d.bg < 2 ^ (8 * d.e) ∧ d.pool % 64 = 0) &&
    !veBad d.root 5 (2 ^ 64) && d.bounds.all fun b => decide (1 ≤ b ∧ b ≤ 2 ^ 23)

/-- What a walk of the tree comes to. -/
inductive VWalk where
  /-- The deciding entry, with its level and its physical address. -/
  | found (level pa : Nat) (e : W64)
  | bad (level : Nat)
  | uncorr
  | busy (pa : Nat) (e : W64)
  deriving DecidableEq, Repr

/-- A walk for a team comes after the team's own stores to the entry that it reads (R186, R263). -/
def walkSettle (s : State) (who : Option Nat) (pa : Nat) : State := match who with | some k => settlePhys s k pa 8 | none => s

/-- The walk from an entry of a level down, for a team or for a pre-walk. -/
def volWalk (who : Option Nat) (d : VDesc) (t : Tile) : Nat → Nat → W64 → State → State × VWalk
  | 0, _, _, s => (s, .bad 0)
  | k + 1, pa, e, s =>
    if veBad e (k + 1) d.bound then (s, .bad (k + 1))
    else
      match veKind e with
      | 1 =>
        (match segPa s d.part 0 (veChild e) with
        | none => (s, .bad (k + 1))
        | some base =>
          let q := base + 8 * nodeIndex t k
          let s1 := walkSettle s who q
          if badAt s1 q 8 then (s1, .uncorr) else volWalk who d t k q (BitVec.ofNat 64 (homeNat s1 q 8)) s1)
      | 2 => (s, if veBusy e then .busy pa e else .found (k + 1) pa e)
      | _ => (s, .found (k + 1) pa e)

/-- The walk from the root entry. -/
def volRoot (s : State) (who : Option Nat) (d : VDesc) (t : Tile) : State × VWalk :=
  let s1 := walkSettle s who d.pa
  volWalk who d t 5 d.pa (BitVec.ofNat 64 (homeNat s1 d.pa 8)) s1

/-! ## The CLB (R263) -/

/-- A deciding entry installed in a cluster's CLB: in place of the tile's former entry, or in the way that the set's fill counter
chooses. -/
def clbInstall (s : State) (cl oid handle : Nat) (t : Tile) (level pa : Nat) (e : W64) : State :=
  let c := s.cluster cl
  let mine := fun (x : ClbEntry) => decide (x.oid = oid ∧ x.handle = handle ∧ x.tile = tileKey t)
  if c.clb.any mine then
    s.setCluster cl { c with clb := c.clb.map fun x => if mine x then { x with entry := e, level := level, pa := pa } else x }
  else
    let set := (t.1 ^^^ t.2.1 ^^^ t.2.2) % 64
    let n := c.clbFill.get set 0
    let keep := c.clb.filter fun x => !decide (x.set = set ∧ x.way = n % 8)
    s.setCluster cl { c with
      clb := { oid := oid, handle := handle, tile := tileKey t, entry := e, level := level, pa := pa, set := set, way := n % 8 } :: keep
      clbFill := c.clbFill.put set (n + 1) }

/-- A team's walk of a tile with dev-scope acquire, installed in its cluster's CLB. -/
def volWalkIn (s : State) (k : Nat) (t : Team) (d : VDesc) (tile : Tile) : State × VWalk :=
  let w := volRoot s (some k) d tile
  let s1 := acquire w.1 k t 2
  (match w.2 with | .found level pa e => clbInstall s1 (clusterOf (keyCore k)) t.oid d.va tile level pa e | _ => s1, w.2)

/-- The deciding entry of a tile: from the CLB, or by a walk. -/
def volFind (s : State) (k : Nat) (t : Team) (d : VDesc) (tile : Tile) : State × VWalk :=
  match (s.cluster (clusterOf (keyCore k))).clb.find? fun x => decide (x.oid = t.oid ∧ x.handle = d.va ∧ x.tile = tileKey tile) with
  | some x => (s, .found x.level x.pa x.entry)
  | none => volWalkIn s k t d tile

/-- The CLB entries of some tiles of a volume leave every cluster: the cymbal (R267). -/
def clbShoot (s : State) (oid handle : Nat) (keys : List Nat) : State :=
  let walks := s.walks.filter fun w => !decide (w.2.oid = oid ∧ w.2.handle = handle)
  { s with
    clusters := s.clusters.map fun (c : Nat × Cluster) =>
      (c.1, { c.2 with clb := c.2.clb.filter fun x => !(decide (x.oid = oid ∧ x.handle = handle) && keys.contains x.tile) })
    walks := walks }

/-! ## Tiles (R260, R261) -/

def rawByte (raw : List Byte) (i : Nat) : Nat := (raw.getD i 0).toNat
def rawNat (raw : List Byte) (i n : Nat) : Nat := leNat ((raw.drop i).take n)

/-- The runs of a RUNS tile from record byte i and position pos on: position and length of each, and whether no escape is
cut. -/
def runsFrom (raw : List Byte) (B : Nat) : Nat → Nat → Nat → List (Nat × Nat) × Bool
  | 0, _, _ => ([], true)
  | fuel + 1, i, pos =>
    if B ≤ i then ([], true)
    else
      let r := rawByte raw (8 + i)
      let len := r % 16 + 1
      if r / 16 = 15 then
        if B ≤ i + 2 then ([], false)
        else
          let p := pos + rawNat raw (9 + i) 2
          let x := runsFrom raw B fuel (i + 3) (p + len)
          ((p, len) :: x.1, x.2)
      else
        let p := pos + r / 16
        let x := runsFrom raw B fuel (i + 1) (p + len)
        ((p, len) :: x.1, x.2)

def runsOf (raw : List Byte) : List (Nat × Nat) × Bool := let B := rawNat raw 0 2; runsFrom raw B (B + 1) 0 0
/-- The first value of a RUNS tile. -/
def runsStart (raw : List Byte) : Nat := 8 + 8 * ((rawNat raw 0 2 + 7) / 8)

/-- The bits of a BITMAP's map below n. -/
def bitmapBelow (raw : List Byte) (n : Nat) : Nat := let m := rawNat raw 0 64; ((List.range n).filter fun i => m.testBit i).length

/-- The check of R261: 0 passes, 1 BITMAP, 2 RUNS. -/
def tileCheck (raw : List Byte) (fmt e : Nat) : Nat :=
  if fmt = 1 then
    let L := rawNat raw 64 2
    if bitmapBelow raw 512 = L ∧ 72 + e * L ≤ 512 * e ∧ rawNat raw 66 6 = 0 then 0 else 1
  else if fmt = 2 then
    let x := runsOf raw
    let st := runsStart raw
    let B := rawNat raw 0 2
    let V := rawNat raw 2 2
    if x.2 = true ∧ (x.1.map (·.2)).sum = V ∧ (x.1.all fun r => decide (r.1 + r.2 ≤ 512)) = true ∧ st + e * V ≤ 512 * e ∧ rawNat raw 4 4 = 0 ∧
        rawNat raw (8 + B) (st - (8 + B)) = 0 then 0 else 2
  else 0

/-- RunsFind: the byte offset of the value of element n. -/
def runsFind (st e n : Nat) : List (Nat × Nat) → Nat → Option Nat
  | [], _ => none
  | r :: rs, v => if r.1 ≤ n ∧ n < r.1 + r.2 then some (st + e * (v + n - r.1)) else runsFind st e n rs (v + r.2)

/-- The byte offset of element n in a tile; none when it is not stored (R260). -/
def elemAt (raw : List Byte) (fmt e n : Nat) : Option Nat :=
  match fmt with
  | 0 => some (e * n)
  | 1 => if (rawNat raw 0 64).testBit n then some (72 + e * bitmapBelow raw n) else none
  | _ => runsFind (runsStart raw) e n (runsOf raw).1 0

/-- The value of element n of a tile. -/
def elemVal (raw : List Byte) (fmt e bg n : Nat) : Nat := match elemAt raw fmt e n with | some o => rawNat raw o e | none => bg

/-- The element value of a constant entry (R259). -/
def constVal (en : W64) (e : Nat) : Nat :=
  let v := en.toNat % 2 ^ 62
  (if v.testBit 61 then v + (2 ^ 64 - 2 ^ 62) else v) % 2 ^ (8 * e)

/-! ## The checks of R268 -/

/-- The word of R268 in %eaddr. -/
def volWord (lane level reason : Nat) : W64 := BitVec.ofNat 64 (lane * 2 ^ 22 + level * 2 ^ 19 + reason)

/-- A fault of steps 2 and 3, for every lane. -/
def volTrap (s : State) (m : Mask) (bits addr : W64) : Res := .trap s { bits := bits, addr := addr, mask := m }

/-- What a reach with access bits is to a data snare: a read, a write or both. A record of more than a word that is reached for both
is read; its words that are written are reached each on its own. -/
def reachKind (acc n : Nat) : Nat := if acc = 3 ∧ 8 < n then 1 else acc % 4

/-- The lowest data snare that one of several words of an instruction matches: address, bytes and access bits of each. -/
def wordsSnare (s : State) (k : Nat) (t : Team) (m : Mask) (ws : List (Nat × Nat × Nat)) : Option Nat :=
  (ws.filterMap fun w => wideSnare s k t m (reachKind w.2.2 w.2.1) [(w.1, w.2.1)]).min?

/-- A record that the part reaches by a virtual address for a team: data snares, alignment, translation, no peer window, no error
(R268, R291, R307, R348). D is not set. -/
def reachVa (s : State) (k : Nat) (t : Team) (m : Mask) (align n acc va : Nat) (go : State → Nat → Res) : Res :=
  withWide s k t m (reachKind acc n) [(va, n)] <|
  if va % align ≠ 0 then volTrap s m cMisalign (BitVec.ofNat 64 va)
  else
    let x := xlatLanes (keyCore k) (clusterOf (keyCore k)) t.oid acc [(0, va)] s
    match actOnXlat x.1 k t acc x.2 with
    | .stop r => wideRes k m r
    | .go s1 ls =>
      match ls with
      | [] => .commit s1
      | l :: _ =>
        if isPeer l.2.2 then wideRes k m (failXlat s1 k t acc [(0, va, .fail rSegment 0)] va rSegment)
        else
          let s2 := settlePhys s1 k l.2.2 n
          if badAt s2 l.2.2 n then
            volTrap (pageRecord s2 (ctxPart s t.oid) t.oid va rUncorrData acc (keyCore k) (keySlot k) 0 0) m cUncorrectable (BitVec.ofNat 64 va)
          else go s2 l.2.2

/-- What a lane names: nothing outside the volume; otherwise its tile and the index in it. -/
structure VLane where
  lane : Nat
  inside : Option (Tile × Nat)
  deriving DecidableEq, Repr

/-- The coordinate triple of a lane (R269). -/
def volCoord (s : State) (k : Nat) (t : Team) (a : Opd) (L : Nat) : Nat × Nat × Nat :=
  (n32Src s k t a L, n32Src s k t (Opd.next a 1) L, n32Src s k t (Opd.next a 2) L)

def volLane (s : State) (k : Nat) (t : Team) (d : VDesc) (a : Opd) (L : Nat) : VLane :=
  let c := volCoord s k t a L
  { lane := L, inside := if c.1 < d.bounds.getD 0 0 ∧ c.2.1 < d.bounds.getD 1 0 ∧ c.2.2 < d.bounds.getD 2 0
      then some ((c.1 / 8, c.2.1 / 8, c.2.2 / 8), c.1 % 8 + 8 * (c.2.1 % 8) + 64 * (c.2.2 % 8)) else none }

/-- A walked tile: its deciding entry, the bytes of a leaf, and the failure of its check. -/
structure VTile where
  tile : Tile
  walk : VWalk
  raw : List Byte
  why : Nat
  uncorr : Bool
  deriving DecidableEq, Repr

/-- The bytes of a leaf's tile. -/
def tileRaw (s : State) (d : VDesc) (e : W64) : List Byte :=
  match segPa s d.part 0 (veTile e) with | some pa => homeBytes s pa (512 * d.e) | none => []

/-- A walked tile with what its leaf names. -/
def tileOf (s : State) (k : Nat) (d : VDesc) (tile : Tile) (w : VWalk) : State × VTile :=
  match w with
  | .found _ _ e =>
    if veKind e = 2 then
      match segPa s d.part 0 (veTile e) with
      | none => (s, { tile := tile, walk := .bad 1, raw := [], why := 0, uncorr := false })
      | some pa =>
        let s1 := settlePhys s k pa (512 * d.e)
        let raw := homeBytes s1 pa (512 * d.e)
        (s1, { tile := tile, walk := w, raw := raw, why := tileCheck raw (veFmt e) d.e, uncorr := (decide (veFmt e ≠ 0) && badAt s1 pa (512 * d.e)) })
    else (s, { tile := tile, walk := w, raw := [], why := 0, uncorr := false })
  | _ => (s, { tile := tile, walk := w, raw := [], why := 0, uncorr := decide (w = .uncorr) })

def volTile (s : State) (k : Nat) (t : Team) (d : VDesc) (tile : Tile) : State × VTile :=
  let w := volFind s k t d tile
  tileOf w.1 k d tile w.2

/-- A tile whose entry the instruction is to replace by compare-and-swap: where the entry at hand is stale, the swap fails and the tile
is walked again; in a granule with an error it cannot be read (R256, R264). -/
def freshTile (s : State) (k : Nat) (t : Team) (d : VDesc) (cas : W64 → Bool) (v : VTile) : State × VTile :=
  match v.walk with
  | .found _ pa e =>
    if !cas e then (s, v)
    else
      let s1 := settlePhys s k pa 8
      if badAt s1 pa 8 then (s1, { v with walk := .uncorr, uncorr := true })
      else if homeNat s1 pa 8 = e.toNat then (s1, v)
      else
        let w := volWalkIn s1 k t d v.tile
        tileOf w.1 k d v.tile w.2
  | _ => (s, v)

def freshTiles (k : Nat) (t : Team) (d : VDesc) (cas : W64 → Bool) : List VTile → State → State × List VTile
  | [], s => (s, [])
  | v :: r, s =>
    let a := freshTile s k t d cas v
    let b := freshTiles k t d cas r a.1
    (b.1, a.2 :: b.2)

/-- The distinct tiles of the lanes, in the order of the lowest lane that names each. -/
def tilesOf (ls : List VLane) : List Tile :=
  ls.foldl (fun acc l => match l.inside with | some x => if acc.contains x.1 then acc else acc ++ [x.1] | none => acc) []

def volTiles (k : Nat) (t : Team) (d : VDesc) : List Tile → State → State × List VTile
  | [], s => (s, [])
  | x :: r, s =>
    let a := volTile s k t d x
    let b := volTiles k t d r a.1
    (b.1, a.2 :: b.2)

def findTile (ts : List VTile) (x : Tile) : Option VTile := ts.find? fun v => decide (v.tile = x)

/-- Which of a tile's failures matter to a form: malformed entries, failing tiles, and errors in the tile's bytes, whole or in
the element of a DENSE tile (R268, R271). -/
structure VNeed where
  nodes : Bool
  tiles : Bool
  reads : Bool
  elem : Bool
  whole : Bool
  deriving DecidableEq, Repr

/-- An error in the bytes of a DENSE tile that a lane reads. -/
def denseBad (s : State) (d : VDesc) (need : VNeed) (v : VTile) (n : Nat) : Bool :=
  match v.walk with
  | .found _ _ e =>
    if veKind e = 2 ∧ veFmt e = 0 then
      let pa := (segPa s d.part 0 (veTile e)).getD 0
      (need.whole && badAt s pa (512 * d.e)) || (need.elem && badAt s (pa + d.e * n) d.e)
    else false
  | _ => false

/-- Why a lane's tile fails step 4: level and reason, reason 0 for an uncorrectable error. -/
def tileFault (s : State) (d : VDesc) (need : VNeed) (v : VTile) (n : Nat) : Option (Nat × Nat) :=
  match v.walk with
  | .bad level => if need.nodes then some (level, 3) else none
  | .uncorr => some (0, 0)
  | _ =>
    if (need.reads && v.uncorr) || denseBad s d need v n then some (0, 0)
    else if need.tiles && decide (v.why ≠ 0) then some (0, v.why) else none

/-- The lanes that fail step 4, in order: lane, level and reason. -/
def step4Lanes (s : State) (d : VDesc) (need : VNeed) (ls : List VLane) (tile : Tile → Option VTile) : List (Nat × Nat × Nat) :=
  ls.filterMap fun l => (l.inside.bind fun x => (tile x.1).bind fun v => tileFault s d need v x.2).map fun f => (l.lane, f)

/-- The fault of step 4: the lowest failing lane decides. -/
def step4Cause (fs : List (Nat × Nat × Nat)) (x : Nat × Nat × Nat) : Cause :=
  let unc := decide (x.2.2 = 0)
  { bits := if unc then cUncorrectable else cTileFormat, addr := if unc then 0 else volWord x.1 x.2.1 x.2.2,
    mask := maskOf 1024 fun L => fs.any fun y => decide (y.1 = L) && (decide (y.2.2 = 0) == unc) }

/-- An uncorrectable error is recorded (R256). -/
def step4Record (s : State) (k : Nat) (t : Team) (x : Nat × Nat × Nat) : State :=
  if x.2.2 = 0 then pageRecord s (ctxPart s t.oid) t.oid 0 rUncorrData accR (keyCore k) (keySlot k) 0 0 else s

/-- A BUSY leaf among tiles. -/
def busyTile (ts : List VTile) : Option (Nat × W64) := ts.findSome? fun v => match v.walk with | .busy pa e => some (pa, e) | _ => none

/-- Step 4 over the lanes: the lowest failing lane decides; a BUSY leaf is awaited; otherwise the body runs. -/
def volStep4 (s : State) (k : Nat) (t : Team) (d : VDesc) (ls : List VLane) (ts : List VTile) (need : VNeed) (go : Res) : Res :=
  let fs := step4Lanes s d need ls (findTile ts)
  match fs with
  | x :: _ => .trap (step4Record s k t x) (step4Cause fs x)
  | [] =>
    match busyTile ts with
    | some (pa, e) => .done (leafWait s k pa e)
    | none => go

/-- The lowest lane of a mask, for the word of R268. -/
def lowLane (m : Mask) : Nat := (maskFirst m 1024).getD 0

/-- Steps 2 to 4 of R268, for element sizes that a form allows and entries that it replaces; a tile that is walked again is checked
as the first one was (R261). -/
def volFront (s : State) (k : Nat) (t : Team) (f : VR) (acc : Nat) (size : Nat → Bool) (need : VNeed) (cas : VDesc → W64 → Bool)
    (go : State → VDesc → List VLane → List VTile → Res) : Res :=
  let m := resumedLanes t f.g
  let lanes := maskLanes m t.width
  if lanes.isEmpty then .commit s
  else
    memGo s k 0 <| reachVa s k t m 128 128 acc (extVA (opdS s k t f.b)) fun s1 pa =>
      let d := volDesc s1 (ctxPart s t.oid) (extVA (opdS s k t f.b)) pa
      if !volDescOk s1 d then volTrap s1 m cTileFormat (volWord (lowLane m) 5 4)
      else if !size d.e then volTrap s1 m cTileFormat (volWord (lowLane m) 5 5)
      else
        let ls := lanes.map (volLane s k t d f.a)
        let x := volTiles k t d (tilesOf ls) s1
        volStep4 x.1 k t d ls x.2 need <|
          let y := freshTiles k t d (cas d) x.2 x.1
          volStep4 y.1 k t d ls y.2 need (go y.1 d ls y.2)

/-- Element sizes that a type suits (R269). -/
def volSize (ty : ETy) (e : Nat) : Bool := if ty = .n64 then decide (e = 8) else decide (e ≤ 4)

/-! ## Training (R84) -/

/-- A tile coordinate inside a volume: one of its elements is. -/
def tileInside (d : VDesc) (n : Tile) : Bool := decide (8 * n.1 < d.bounds.getD 0 0 ∧ 8 * n.2.1 < d.bounds.getD 1 0 ∧ 8 * n.2.2 < d.bounds.getD 2 0)

/-- The TST learns the tile of the lowest lane in Lanes, once at commit; a pre-walk of a tile inside the volume follows. A coordinate of
2 ^ 23 or more, which lies outside every volume, is taken modulo 2 ^ 23: the spec does not say what its tile is (DESIGN CHOICE, log
entry 61). -/
def trainTst (s : State) (k : Nat) (t : Team) (f : VR) (d : VDesc) : State :=
  match maskFirst (lanesOf t f.g) t.width with
  | none => s
  | some L =>
    let core := keyCore k
    let b := (s.core core).activeBank
    if b.owner ≠ some t.oid then s
    else
      let c := volCoord s k t f.a L
      let tile := fun (n : Nat) => n / 8 % 2 ^ 20
      let r := tstTrain b.hist (wordAddr t.h t.i).toNat (tile c.1) (tile c.2.1) (tile c.2.2)
      let s1 := learn s core t.oid fun _ => r.1
      match r.2.filter (tileInside d) with
      | none => s1
      | some n =>
        let (id, s2) := s1.fresh
        { s2 with walks := s2.walks.put id { cluster := clusterOf core, oid := t.oid, handle := extVA (opdS s k t f.b), tile := tileKey n } }

/-- A pre-walk fills the CLB as a walk does; it sets no bit, never faults and never allocates. -/
def execClusterClbPreWalk (id : Nat) (s : State) : Out :=
  .next (match s.walks.find id with
    | none => s
    | some w =>
      let s1 := { s with walks := s.walks.erase id }
      match walk s1 w.oid w.handle accR with
      | .ok pa _ _ _ =>
        let d := volDesc s1 (ctxPart s1 w.oid) w.handle pa
        if isPeer pa || decide (w.handle % 128 ≠ 0) || badAt s1 pa 128 || !volDescOk s1 d then s1
        else
          (match (volRoot s1 none d (keyTile w.tile)).2 with
          | .found level q e => clbInstall s1 w.cluster w.oid w.handle (keyTile w.tile) level q e
          | _ => s1)
      | _ => s1)

/-! ## vol.ld, vol.probe (R262, R271) -/

/-- The value that a lane reads (R262). -/
def volRead (d : VDesc) (ts : List VTile) (l : VLane) : Nat :=
  match l.inside with
  | none => d.bg
  | some (tile, n) =>
    match findTile ts tile with
    | none => d.bg
    | some v =>
      match v.walk with
      | .found _ _ e =>
        if veKind e = 0 then d.bg else if veKind e = 3 then constVal e d.e else elemVal v.raw (veFmt e) d.e d.bg n
      | _ => d.bg

/-- A lane of a load that is bound to a number. -/
def boundLane (L n v : Nat) : LaneLoad := { lane := L, va := 0, pa := 0, data := some (leBytes n v), bad := false }

def execVolLd (f : VR) (s : State) : Out :=
  .next (issue (.volLd f) s fun k t s =>
    volFront s k t f accR (volSize f.t) { nodes := true, tiles := true, reads := true, elem := true, whole := false } (fun _ _ => false)
      fun s1 d ls ts =>
        let n := if f.t = .n64 then 8 else 4
        .commit (trainTst (addLoad s1 k t f.d n 0 (ls.map fun l => boundLane l.lane n (volRead d ts l))) k t f d))

/-- The status of vol.probe for a lane (R271). -/
def probeStatus (ts : List VTile) (l : VLane) : Nat :=
  match l.inside with
  | none => 3
  | some (tile, _) =>
    match findTile ts tile with
    | none => 3
    | some v =>
      match v.walk with
      | .found level _ e =>
        if veKind e = 2 then
          let stored := if veFmt e = 0 then 512 else if veFmt e = 1 then rawNat v.raw 64 2 else rawNat v.raw 2 2
          2 + veFmt e * 4 + level * 16 + stored % 1024 * 2 ^ 7 + (if v.why ≠ 0 then 2 ^ 17 else 0)
        else (if veKind e = 3 then 1 else 0) + level * 16
      | .bad level => 2 ^ 18 + level * 16
      | _ => 0

def execVolProbe (f : VR) (s : State) : Out :=
  .next (issue (.volProbe f) s fun k t s =>
    volFront s k t f accR (fun _ => true) { nodes := false, tiles := false, reads := true, elem := false, whole := false } (fun _ _ => false)
      fun s1 d ls ts => .commit (trainTst (addLoad s1 k t f.d 4 0 (ls.map fun l => boundLane l.lane 4 (probeStatus ts l))) k t f d))

/-! ## Making tiles writable (R264 to R266) -/

/-- A failed allocation: QUOTA or VOL_ALLOC, level, reason. -/
structure VFail where
  quota : Bool
  level : Nat
  reason : Nat
  deriving DecidableEq, Repr

/-- What becomes of a tile: the leaf to write through, a failure, or a walk that ends otherwise. -/
inductive VMade where
  | leaf (pa : Nat) (e : W64)
  | fail (f : VFail)
  | other (v : VTile)
  deriving DecidableEq, Repr

/-- The state of an instruction's allocations: blocks to push, tiles changed. -/
structure VWork where
  s : State
  old : List Nat
  changed : List Nat

/-- A block from the tile pool, or why there is none (R265). -/
def tileBlock (s : State) (d : VDesc) (w : Who) : State × (Nat ⊕ VFail) :=
  match poolPa s d.part d.pool with
  | none => (s, .inr { quota := false, level := 0, reason := 1 })
  | some q =>
    if badAt s q 32 = false ∧ homeNat s (q + 24) 4 ≠ 512 * d.e then (s, .inr { quota := false, level := 0, reason := 3 })
    else
      let x := poolPop s d.part d.pool w
      match x.2 with
      | none => (x.1, .inr { quota := false, level := 0, reason := 1 })
      | some b =>
        if b % 64 ≠ 0 ∨ (segPa x.1 d.part 0 b).isNone then (poolRecord x.1 d.part w rBadPool b, .inr { quota := false, level := 0, reason := 3 })
        else (x.1, .inl b)

/-- The physical address of a segment offset that has been checked. -/
def segHome (s : State) (d : VDesc) (off : Nat) : Nat := (segPa s d.part 0 off).getD 0

/-- A value repeated as n elements of e bytes. -/
def repeatVal (e n v : Nat) : List Byte := (List.replicate n (leBytes e v)).flatten

/-- D of the descriptor's page is set before the root entry or the version is written (R245). -/
def touchDesc (s : State) (cl oid : Nat) (d : VDesc) (level : Nat) : State := if level = 5 then setD s cl oid d.va else s

/-- What a new node repeats: zero, or the constant (R264). -/
def writeNode (s : State) (pa : Nat) (e : W64) : State :=
  if veKind e = 3 then homePut s none pa (repeatVal 8 32768 e.toNat) else homeZero s pa (2 ^ 18)

/-- A new tile: a DENSE one of the background or the constant, or for vol.alloc an empty one in the default format. -/
def writeTile (s : State) (d : VDesc) (pa fmt : Nat) (e : W64) : State :=
  if fmt ≠ 0 then homeZero s pa (512 * d.e)
  else homePut s none pa (repeatVal d.e 512 (if veKind e = 3 then constVal e d.e else d.bg))

/-- What a form of step 5 asks of a tile: vol.alloc leaves every leaf as it is; the failures that matter; the lanes. -/
structure VForm where
  alloc : Bool
  need : VNeed
  ls : List VLane

/-- A tile that has been walked again passes step 4 for each of its lanes (R261, R268). -/
def tilePasses (s : State) (d : VDesc) (F : VForm) (v : VTile) : Bool :=
  (step4Lanes s d F.need F.ls fun x => if x = v.tile then some v else none).isEmpty && (busyTile [v]).isNone

/-- One tile made writable, from its deciding entry; each step is a compare-and-swap, a dev-scope release, after whose loss the tree is
walked again, and what is found is checked as in step 4. -/
def makeWritable (k : Nat) (t : Team) (d : VDesc) (tile : Tile) (F : VForm) : Nat → Nat → Nat → W64 → VWork → VWork × VMade
  | 0, level, _, _, w => (w, .other { tile := tile, walk := .bad level, raw := [], why := 0, uncorr := false })
  | fuel + 1, level, pa, e, w =>
    let cl := clusterOf (keyCore k)
    let who := teamWho t k
    let again := fun (s : State) =>
      let v := volRoot s (some k) d tile
      let y := tileOf v.1 k d tile v.2
      match if tilePasses y.1 d F y.2 then y.2.walk else .uncorr with
      | .found l q x => makeWritable k t d tile F fuel l q x { w with s := y.1 }
      | _ => ({ w with s := y.1 }, .other y.2)
    if veKind e = 2 ∧ (F.alloc = true ∨ veFmt e = 0) then (w, .leaf pa e)
    else if veKind e = 2 then
      -- expansion (R266)
      let b := tileBlock w.s d who
      match b.2 with
      | .inr f => ({ w with s := b.1 }, .fail f)
      | .inl blk =>
        let raw := tileRaw b.1 d e
        let s1 := homePut b.1 none (segHome b.1 d blk) ((List.range 512).flatMap fun n => leBytes d.e (elemVal raw (veFmt e) d.e d.bg n))
        let c := casEntry (drain s1 k t) k pa e (leafEntry blk 0)
        if c.2 then
          ({ s := clbInstall (clbShoot c.1 t.oid d.va [tileKey tile]) cl t.oid d.va tile 1 pa (leafEntry blk 0), old := w.old ++ [veTile e],
             changed := w.changed ++ [tileKey tile] }, .leaf pa (leafEntry blk 0))
        else again (poolPush c.1 d.part d.pool who blk)
    else if 1 < level then
      let a := allocFrames w.s d.part who [0]
      match a.2 with
      | .ok (fr :: _) =>
        let s1 := touchDesc (writeNode a.1 (segHome a.1 d fr) e) cl t.oid d level
        let c := casEntry (drain s1 k t) k pa e (childEntry fr)
        if c.2 then
          let q := segHome c.1 d fr + 8 * nodeIndex tile (level - 1)
          let x := BitVec.ofNat 64 (homeNat c.1 q 8)
          makeWritable k t d tile F fuel (level - 1) q x { w with s := clbInstall c.1 cl t.oid d.va tile (level - 1) q x }
        else again (refundUsed (poolPush c.1 d.part (pagePool c.1 d.part 0) who fr) d.part 1)
      | .quota => ({ w with s := a.1 }, .fail { quota := true, level := level - 1, reason := 0 })
      | .bad => ({ w with s := a.1 }, .fail { quota := false, level := level - 1, reason := 3 })
      | _ => ({ w with s := a.1 }, .fail { quota := false, level := level - 1, reason := 2 })
    else
      let b := tileBlock w.s d who
      match b.2 with
      | .inr f => ({ w with s := b.1 }, .fail f)
      | .inl blk =>
        let fmt := if F.alloc && decide (veKind e = 0) then d.fmt else 0
        let c := casEntry (drain (writeTile b.1 d (segHome b.1 d blk) fmt e) k t) k pa e (leafEntry blk fmt)
        if c.2 then ({ w with s := clbInstall c.1 cl t.oid d.va tile 1 pa (leafEntry blk fmt) }, .leaf pa (leafEntry blk fmt))
        else again (poolPush c.1 d.part d.pool who blk)

/-- Every distinct tile made writable, in order. Below an empty or constant entry the tree is walked at the home slices, since an
earlier tile of the instruction may have changed it; what is found is checked as in step 4. -/
def makeTiles (k : Nat) (t : Team) (d : VDesc) (F : VForm) : List VTile → VWork → VWork × List (Tile × VMade)
  | [], w => (w, [])
  | v :: r, w =>
    let a := match v.walk with
      | .found level pa e =>
        if veKind e = 2 then makeWritable k t d v.tile F 16 level pa e w
        else
          let r := volWalkIn w.s k t d v.tile
          let y := tileOf r.1 k d v.tile r.2
          (match if tilePasses y.1 d F y.2 then y.2.walk else .uncorr with
          | .found l q x => makeWritable k t d v.tile F 16 l q x { w with s := y.1 }
          | _ => ({ w with s := y.1 }, VMade.other y.2))
      | _ => (w, VMade.other v)
    let b := makeTiles k t d F r a.1
    (b.1, (v.tile, a.2) :: b.2)

/-! ## The cymbal (R267, R268) -/

/-- Blocks that wait for a cymbal, and what follows it. -/
def volWorkOf (d : VDesc) (old : List Nat) (version : Option Nat) (fault : Option Frame) : Work :=
  { pushes := old.map fun b => (d.pool, b), frames := 0, version := version, fault := fault, fmt := none }

/-- The team waits for its cymbal with the handle in its wait record: past its word, which has committed, or at its word. -/
def cymbalWait (s : State) (k : Nat) (d : VDesc) (atWord : Bool) (w : Work) : Res :=
  let s1 := s.modTeam k fun u => { u with state := .waiting, waitKind := .cymbal, wait := waitMake [(0, d.va)], work := some w }
  if atWord then .leave s1 else .park s1

/-- The fault of step 5: QUOTA if any lane failed on quota, VOL_ALLOC otherwise; the word names the lowest failing lane and the level of
its allocation. -/
def step5Fault (fails : List (Nat × VFail)) : Option Cause :=
  let q := fails.any fun x => x.2.quota
  fails.head?.map fun x =>
    { bits := if q then cQuota ||| cReason rQuota else cVolAlloc, addr := volWord x.1 x.2.level (if q then 0 else x.2.reason),
      mask := maskOf 1024 fun L => fails.any fun y => decide (y.1 = L) }

/-- The end of step 5: the instruction commits and trains, or its fault is raised; with a cymbal the team waits first. -/
def volEnd (s : State) (k : Nat) (t : Team) (d : VDesc) (old : List Nat) (version : Option Nat) (c : Option Cause) (train : State → State) : Res :=
  if old.isEmpty then
    match c with
    | some c => .trap s c
    | none => .commit (train s)
  else
    cymbalWait (if c.isNone then train s else s) k d c.isSome (volWorkOf d old version (c.map fun c =>
      { h := t.h, i := t.i, inst := curWord t, hdr := curHdr t, cause := c.bits, addr := c.addr, mask := c.mask }))

/-- A BUSY leaf met in step 5 is awaited; with a cymbal under way, once that has completed and its blocks have been pushed: the team
issues its word again then (R266, R267). -/
def volBusy (s : State) (k : Nat) (d : VDesc) (old : List Nat) (pa : Nat) (e : W64) : Res :=
  if old.isEmpty then .done (leafWait s k pa e) else cymbalWait s k d true (volWorkOf d old none none)

/-! ## vol.st, vol.atom, vol.alloc (R264, R270, R272) -/

/-- The failures of the lanes. -/
def laneFails (ls : List VLane) (made : List (Tile × VMade)) : List (Nat × VFail) :=
  ls.filterMap fun l => (l.inside.bind fun x => made.find? fun m => decide (m.1 = x.1)).bind fun m =>
    match m.2 with | .fail f => some (l.lane, f) | _ => none

/-- The physical address of a lane's element in a DENSE tile. -/
def laneElem (s : State) (d : VDesc) (made : List (Tile × VMade)) (l : VLane) : Option Nat :=
  l.inside.bind fun x => (made.find? fun m => decide (m.1 = x.1)).bind fun m =>
    match m.2 with | .leaf _ e => (segPa s d.part 0 (veTile e)).map fun pa => pa + d.e * x.2 | _ => none

/-- The tiles that met something else when they were walked again. -/
def otherTiles (made : List (Tile × VMade)) : List VTile := made.filterMap fun m => match m.2 with | .other v => some v | _ => none

/-- The lanes that fail step 4 at such a tile (log entry 28). -/
def laneOthers (s : State) (d : VDesc) (F : VForm) (made : List (Tile × VMade)) : List (Nat × Nat × Nat) :=
  step4Lanes s d F.need F.ls (findTile (otherTiles made))

/-- What vol.st, vol.atom and vol.alloc ask of a tile. -/
def writeNeed (elem : Bool) : VNeed := { nodes := true, tiles := true, reads := true, elem := elem, whole := false }

/-- vol.st, vol.atom and vol.alloc: their tiles made writable, then their lanes. A lane whose tile fails when it is walked again fails as
in step 4, and no lane performs; a BUSY leaf is awaited. -/
def volWrite (s : State) (k : Nat) (t : Team) (f : VR) (size : Nat → Bool) (alloc elem : Bool) (train : VDesc → State → State)
    (perform : State → VDesc → List VLane → List (Tile × VMade) → State) : Res :=
  volFront s k t f (accR + accW) size (writeNeed elem)
    (fun _ e => decide (veKind e ≠ 2) || (!alloc && decide (veFmt e ≠ 0))) fun s1 d ls ts =>
      let F : VForm := { alloc := alloc, need := writeNeed elem, ls := ls }
      let w := makeTiles k t d F ts { s := s1, old := [], changed := [] }
      let fs := laneOthers w.1.s d F w.2
      match fs, busyTile (otherTiles w.2) with
      | x :: _, _ => volEnd (step4Record w.1.s k t x) k t d w.1.old none (some (step4Cause fs x)) fun st => st
      | [], some (pa, e) => volBusy w.1.s k d w.1.old pa e
      | [], none => volEnd (perform w.1.s d ls w.2) k t d w.1.old none (step5Fault (laneFails ls w.2)) (train d)

/-- The data of a lane (R269). -/
def volData (s : State) (k : Nat) (t : Team) (f : VR) (L : Nat) : Nat :=
  if f.t = .n64 then (opd s k t true f.c L).toNat else n32Src s k t f.c L

def execVolSt (f : VR) (s : State) : Out :=
  .next (issue (.volSt f) s fun k t s =>
    volWrite s k t f (volSize f.t) false false (fun d st => trainTst st k t f d) fun s1 d ls made =>
      ls.foldl (fun st l => match laneElem s1 d made l with
        | some pa => teamHomeWrite (leavePhys st k pa d.e) k d.va pa (leBytes d.e (volData s k t f l.lane)) (curWord t)
        | none => st) s1)

/-- The lanes of a vol.atom, ascending: the old values (R211). -/
def volAtomLanes (k : Nat) (t : Team) (op : Nat) (d : VDesc) (data : Nat → Nat) (made : List (Tile × VMade)) :
    List VLane → State → State × List (Nat × Nat)
  | [], s => (s, [])
  | l :: r, s =>
    let a := match laneElem s d made l with
      | some pa =>
        let s1 := leavePhys s k pa d.e
        let old := homeNat s1 pa d.e
        (teamHomeWrite s1 k d.va pa (leBytes d.e (atomNew op d.e old (data l.lane % 2 ^ (8 * d.e)) 0)) (curWord t), [(l.lane, old)])
      | none => (s, if l.inside.isNone then [(l.lane, d.bg)] else [])
    let b := volAtomLanes k t op d data made r a.1
    (b.1, a.2 ++ b.2)

def execVolAtom (f : VR) (s : State) : Out :=
  .next (issue (.volAtom f) s fun k t s =>
    let n := if f.t = .n64 then 8 else 4
    volWrite s k t f (fun e => decide (e = n)) false true (fun d st => trainTst st k t f d) fun s1 d ls made =>
      let a := volAtomLanes k t (fld f.m 0 4) d (volData s k t f) made ls s1
      if f.d.isN || a.2.isEmpty then a.1 else addLoad a.1 k t f.d n 0 (a.2.map fun x => boundLane x.1 n x.2))

def execVolAlloc (f : VR) (s : State) : Out :=
  .next (issue (.volAlloc f) s fun k t s =>
    volWrite s k t f (fun _ => true) true false (fun _ st => st) fun s1 _ _ _ => s1)

/-! ## vol.free, vol.fmt (R266, R272) -/

/-- The leaf of a walked tile. -/
def tileLeaf (v : VTile) : Option (Nat × W64) :=
  match v.walk with
  | .found _ pa e => if veKind e = 2 then some (pa, e) else none
  | _ => none

/-- The version field of a volume (R267). -/
def versionPa (d : VDesc) : Nat := d.pa + 20

/-- The leaves of the tiles replaced by empty entries, in order, each where it still stands (R272). -/
def freeTiles (k : Nat) (ts : List VTile) (w : VWork) : VWork :=
  ts.foldl (fun (w : VWork) v => match tileLeaf v with
    | some (pa, e) =>
      let c := casEntry w.s k pa e 0
      if c.2 then { s := c.1, old := w.old ++ [veTile e], changed := w.changed ++ [tileKey v.tile] } else w
    | none => w) w

def execVolFree (f : VR) (s : State) : Out :=
  .next (issue (.volFree f) s fun k t s =>
    volFront s k t f (accR + accW) (fun _ => true) { nodes := true, tiles := false, reads := false, elem := false, whole := false }
      (fun _ e => decide (veKind e = 2)) fun s1 d _ ts =>
        let w := freeTiles k ts { s := s1, old := [], changed := [] }
        let cl := clusterOf (keyCore k)
        let s2 := clbShoot w.s t.oid d.va w.changed
        volEnd (if w.old.isEmpty then s2 else setD s2 cl t.oid d.va) k t d w.old (some (versionPa d)) none fun st => st)

/-- The runs of the elements that differ from the background, split at 16. -/
def runSplit (vals : List Nat) (bg : Nat) : Nat → Nat → Option (Nat × Nat) → List (Nat × Nat)
  | 0, _, cur => cur.toList
  | fuel + 1, i, cur =>
    if vals.getD i bg = bg then cur.toList ++ runSplit vals bg fuel (i + 1) none
    else
      match cur with
      | none => runSplit vals bg fuel (i + 1) (some (i, 1))
      | some (p, n) => if n = 16 then (p, n) :: runSplit vals bg fuel (i + 1) (some (i, 1)) else runSplit vals bg fuel (i + 1) (some (p, n + 1))

/-- The record bytes of runs, from a position on. -/
def runBytes : Nat → List (Nat × Nat) → List Byte
  | _, [] => []
  | pos, (p, n) :: r =>
    let g := p - pos
    (if 14 < g then leBytes 1 (15 * 16 + n - 1) ++ leBytes 2 g else leBytes 1 (g * 16 + n - 1)) ++ runBytes (p + n) r

/-- A tile's 512 values in a format, or none when they take more than the block (R260, R272). -/
def packTile (fmt e bg : Nat) (vals : List Nat) : Option (List Byte) :=
  let stored := vals.filter fun v => decide (v ≠ bg)
  let data := stored.flatMap (leBytes e)
  let body := match fmt with
    | 0 => vals.flatMap (leBytes e)
    | 1 => leBytes 64 (packBits (fun i => decide (vals.getD i bg ≠ bg)) 512) ++ leBytes 2 stored.length ++ List.replicate 6 0 ++ data
    | _ =>
      let rec_ := runBytes 0 (runSplit vals bg 512 0 none)
      leBytes 2 rec_.length ++ leBytes 2 stored.length ++ List.replicate 4 0 ++ rec_ ++ List.replicate ((8 - rec_.length % 8) % 8) 0 ++ data
  if 512 * e < body.length then none else some (body ++ List.replicate (512 * e - body.length) 0)

/-- A leaf that vol.fmt holds (R259, R266). -/
def busyLeafOf (e : W64) : W64 := e ||| BitVec.ofNat 64 (2 ^ 61)

/-- BUSY set by compare-and-swap on the leaves that vol.fmt converts: those of another format. -/
def fmtHold (k fmt : Nat) : List VTile → State → State × List FmtItem
  | [], s => (s, [])
  | v :: r, s =>
    match tileLeaf v with
    | some (pa, e) =>
      let c := if veFmt e = fmt then (s, false) else casEntry s k pa e (busyLeafOf e)
      let b := fmtHold k fmt r c.1
      (b.1, if c.2 then { tile := tileKey v.tile, pa := pa, leaf := e } :: b.2 else b.2)
    | none => fmtHold k fmt r s

/-- What the conversion of a tile comes to: a status of R272, with the block to push, or a failure of the tile's bytes, with the reason of
R268, 0 for an uncorrectable error. -/
inductive FmtEnd where
  | status (n : Nat) (old : Option Nat)
  | broken (reason : Nat)
  deriving DecidableEq, Repr

/-- One tile converted after the cymbal: it is read, written in a new block, and its leaf is replaced; otherwise the leaf stays, without
BUSY (R266, R272). A tile that its block's bytes no longer make is not changed (R261). -/
def fmtItem (k : Nat) (t : Team) (w : FmtWork) (x : FmtItem) (s : State) : State × FmtEnd :=
  let d := w.desc
  let home := segHome s d (veTile x.leaf)
  let s1 := settlePhys s k home (512 * d.e)
  let raw := homeBytes s1 home (512 * d.e)
  let keep := fun (st : State) => (casEntry st k x.pa (busyLeafOf x.leaf) x.leaf).1
  if badAt s1 home (512 * d.e) then (pageRecord (keep s1) d.part t.oid 0 rUncorrData accR (keyCore k) (keySlot k) 0 0, .broken 0)
  else if tileCheck raw (veFmt x.leaf) d.e ≠ 0 then (keep s1, .broken (tileCheck raw (veFmt x.leaf) d.e))
  else
    match packTile w.fmt d.e d.bg ((List.range 512).map (elemVal raw (veFmt x.leaf) d.e d.bg)) with
    | none => (keep s1, .status 2 none)
    | some bs =>
      let b := tileBlock s1 d (teamWho t k)
      match b.2 with
      | .inr _ => (keep b.1, .status 3 none)
      | .inl blk =>
        let c := casEntry (homePut b.1 none (segHome b.1 d blk) bs) k x.pa (busyLeafOf x.leaf) (leafEntry blk w.fmt)
        if c.2 then (clbInstall c.1 (clusterOf (keyCore k)) t.oid d.va (keyTile x.tile) 1 x.pa (leafEntry blk w.fmt), .status 0 (some (veTile x.leaf)))
        else (poolPush c.1 d.part d.pool (teamWho t k) blk, .status 1 none)

/-- Every tile converted, in order; the accesses that wait on its leaf walk again. -/
def fmtItems (k : Nat) (t : Team) (w : FmtWork) : List FmtItem → State → State × List (Nat × FmtEnd)
  | [], s => (s, [])
  | x :: r, s =>
    let a := fmtItem k t w x s
    let b := fmtItems k t w r (wakeLeaf a.1 x.pa)
    (b.1, (x.tile, a.2) :: b.2)

/-- The end of a lane's tile; a tile that was not converted is unchanged. -/
def fmtLane (ends : List (Nat × FmtEnd)) (tile : Option Nat) : FmtEnd :=
  match tile.bind fun n => ends.find? fun x => decide (x.1 = n) with | some x => x.2 | none => .status 1 none

/-- The lanes' statuses. -/
def fmtStatus (w : FmtWork) (ends : List (Nat × FmtEnd)) (L : Nat) : Nat :=
  match w.lanes.find? fun l => decide (l.1 = L) with
  | some l => (match fmtLane ends l.2 with | .status n _ => n | .broken _ => 0)
  | none => 0

/-- The lanes whose tile was not broken, and the fault of the others: the lowest decides, as in step 4. -/
def fmtGood (w : FmtWork) (ends : List (Nat × FmtEnd)) : Mask :=
  maskOf 1024 fun L => w.lanes.any fun l => decide (l.1 = L) && (match fmtLane ends l.2 with | .status _ _ => true | _ => false)
def fmtFault (t : Team) (w : FmtWork) (ends : List (Nat × FmtEnd)) : Option Frame :=
  let bad := w.lanes.filterMap fun l => match fmtLane ends l.2 with | .broken n => some (l.1, n) | _ => none
  bad.head?.map fun x =>
    { h := t.h, i := t.i, inst := t.hostWord, hdr := t.hostHdr, cause := if x.2 = 0 then cUncorrectable else cTileFormat,
      addr := if x.2 = 0 then 0 else volWord x.1 0 x.2, mask := maskOf 1024 fun L => bad.any fun y => decide (y.1 = L) && (decide (y.2 = 0) == decide (x.2 = 0)) }

/-- The version field rises by one, at its home slice (R267). -/
def raiseVersion (s : State) (k pa : Nat) : State :=
  let s1 := leavePhys s k pa 4
  homePutNat s1 none pa 4 ((homeNat s1 pa 4 + 1) % 2 ^ 32)

/-- vol.fmt goes on after its cymbal: the conversions, the pushes and the version; a waiting team takes its statuses, or a fault. -/
def fmtFinish (s : State) (k : Nat) (t : Team) (w : FmtWork) : State :=
  let r := fmtItems k t w w.items s
  let old := r.2.filterMap fun x => match x.2 with | .status _ o => o | _ => none
  let s1 := old.foldl (fun st b => poolPush st w.desc.part w.desc.pool (teamWho t k) b) r.1
  let s2 := if old.isEmpty then s1 else raiseVersion (setD s1 (clusterOf (keyCore k)) t.oid w.desc.va) k (versionPa w.desc)
  let s3 := s2.modTeam k fun u => { u with work := none, waitKind := .none, wait := 0 }
  if t.state ≠ .waiting then s3
  else
    let s4 := writeD s3 k (fmtGood w r.2) false w.dst fun L => BitVec.ofNat 64 (fmtStatus w r.2 L)
    match fmtFault t w r.2, s4.team k with
    | some f, some u => deliverWait s4 k u f
    | _, _ => s4.modTeam k fun u => { advance u with state := .ready }

/-- All 16 clusters have acknowledged: vol.fmt converts its tiles; otherwise blocks are pushed, the version rises, and the team goes on or
takes its fault (R266 to R268). -/
def execCymbalComplete (core slot : Nat) (s : State) : Out :=
  .next (match waitingKey s core slot (waitsFor .cymbal) with
    | none => s
    | some k =>
      match s.team k with
      | none => s
      | some t =>
        match t.work with
        | none => s
        | some w =>
          match w.fmt with
          | some x => fmtFinish s k t x
          | none =>
            let s1 := doPushes s (ctxPart s t.oid) (teamWho t k) w
            let s2 := match w.version with | some pa => raiseVersion s1 k pa | none => s1
            match if t.state = .waiting then w.fault else none with
            | some fr => deliverWait s2 k t fr
            | none => s2.modTeam k fun u => { u with
                work := none, state := if u.state = .waiting then .ready else u.state, waitKind := .none, wait := 0 })

/-- vol.fmt holds the leaves that it converts and sends its cymbal; without one, every lane's status is 1 (R266, R272). -/
def execVolFmt (f : VR) (s : State) : Out :=
  .next (issue (.volFmt f) s fun k t s =>
    let target := fun (d : VDesc) => if fld f.m 0 2 = 3 then d.fmt else fld f.m 0 2
    volFront s k t f (accR + accW) (fun _ => true) { nodes := true, tiles := true, reads := true, elem := false, whole := true }
      (fun d e => decide (veKind e = 2 ∧ veFmt e ≠ target d)) fun s1 d ls ts =>
        let r := fmtHold k (target d) ts s1
        if r.2.isEmpty then .commit (writeD r.1 k (resumedLanes t f.g) false f.d fun _ => 1)
        else
          let w : FmtWork := { desc := d, fmt := target d, items := r.2, dst := f.d, lanes := ls.map fun l => (l.lane, l.inside.map fun x => tileKey x.1) }
          let s2 := clbShoot r.1 t.oid d.va (r.2.map (·.tile))
          waitWith (s2.modTeam k fun u => { u with
            work := some { pushes := [], frames := 0, version := none, fault := none, fmt := some w }, hostWord := curWord t, hostHdr := curHdr t })
            k .cymbal (waitMake [(0, d.va)]))

/-! ## vol.sync, vol.inv (R273) -/

/-- Every earlier vol instruction of the team has performed when the next one issues, so the fence is what is left. -/
def execVolSync (f : VR) (s : State) : Out :=
  .next (issue (.volSync f) s (once f.g fun k t s =>
    if peerHold s k then .stall s else fenceWith s k t (fld f.m 0 2) (fld f.m 2 3) .commit))

def execVolInv (f : VR) (s : State) : Out :=
  .next (issue (.volInv f) s (once f.g fun k t s =>
    let cl := clusterOf (keyCore k)
    let c := s.cluster cl
    let h := extVA (opdS s k t f.b)
    .commit (s.setCluster cl { c with clb := c.clb.filter fun x => !decide (x.oid = t.oid ∧ x.handle = h) })))

end Sys2Proof.Machine
end

