-- ==== Sys2Proof/Machine/Stitch.lean ====
section
/-! DEFINITION. Stitched tensors: lists, versions, tokens, edits, traversal, opcodes 0x2c0 to 0x2ca, and the copy engine's part in
them (R275 to R292, R334 to R336, R348). -/

namespace Sys2Proof.Machine

/-! ## Words that the part reaches by virtual address (R348) -/

/-- The failure word of R291. -/
def stTrap (s : State) (m : Mask) (lane reason : Nat) : Res :=
  .trap s { bits := cStitch, addr := BitVec.ofNat 64 (lane * 2 ^ 22 + reason), mask := m }

/-- Pieces of pages translated one after the other for a team; what is found is kept by page number. -/
def reachSeq (k : Nat) (t : Team) (m : Mask) : List (Nat × Nat × Nat) → State → Table Nat → (State → Table Nat → Res) → Res
  | [], s, pg, go => go s pg
  | (va, n, acc) :: r, s, pg, go =>
    reachVa s k t m 1 n acc va fun s1 pa => reachSeq k t m r s1 (pg.put (va / 2 ^ 18) (pa - va % 2 ^ 18)) go

/-- Words as the pieces of their pages: address, bytes and access bits of each. -/
def pageWords (ws : List (Nat × Nat × Nat)) : List (Nat × Nat × Nat) :=
  ws.flatMap fun w => (cutPages (w.2.1 / 2 ^ 18 + 2) w.1 w.2.1).map fun c => (c.1, c.2, w.2.2)

/-- Words translated for a team. -/
def reachAll (s : State) (k : Nat) (t : Team) (m : Mask) (ws : List (Nat × Nat × Nat)) (pg : Table Nat) (go : State → Table Nat → Res) : Res :=
  reachSeq k t m (pageWords ws) s pg go

/-- A little-endian number at an address; 0 where nothing is mapped. -/
def stNat (s : State) (oid : Nat) (pg : Table Nat) (va n : Nat) : Nat := match stPa s oid pg va with | some pa => homeNat s pa n | none => 0

/-- Bytes at an address. -/
def stBytes (s : State) (oid : Nat) (pg : Table Nat) (va n : Nat) : List Byte :=
  (cutPages (n / 2 ^ 18 + 2) va n).flatMap fun c => match stPa s oid pg c.1 with | some pa => homeBytes s pa c.2 | none => List.replicate c.2 0

/-! ## List headers and version records (R275, R276) -/

/-- A list header; `size` is the element size in bytes. -/
structure SHdr where
  va : Nat
  current : Nat
  total : Nat
  count : Nat
  max : Nat
  size : Nat
  edit : Bool
  pins : Nat
  serial : Nat
  vpool : Nat
  ppool : Nat
  good : Bool
  deriving DecidableEq, Repr

def stHdr (s : State) (va pa : Nat) : SHdr :=
  let f := fun (o n : Nat) => homeNat s (pa + o) n
  { va := va, current := f 0 8, total := f 8 8, count := f 16 2, max := f 18 2, size := 2 ^ bitsAt (f 20 1) 0 2, edit := (f 21 1).testBit 0,
    pins := f 24 4, serial := f 28 4, vpool := f 32 8, ppool := f 40 8,
    good := decide (f 16 2 ≤ 4096 ∧ 1 ≤ f 18 2 ∧ f 18 2 ≤ 4096 ∧ f 20 1 < 4 ∧ f 21 1 < 2 ∧ f 22 2 = 0 ∧ f 48 80 = 0) }

/-- The header that a handle names (R291). -/
def hdrFront (s : State) (k : Nat) (t : Team) (m : Mask) (lane acc va : Nat) (go : State → SHdr → Res) : Res :=
  reachVa s k t m 128 128 acc va fun s1 pa =>
    let h := stHdr s1 va pa
    if h.good then go s1 h else stTrap s1 m lane 4

/-- A version as a token names it: its record, and the header that the record's handle names. -/
structure SVer where
  va : Nat
  total : Nat
  count : Nat
  pins : Nat
  hdr : SHdr
  deriving DecidableEq, Repr

/-- The record that a token names, and its header: STALE and HANDLE (R280, R291). The pins are those that count. The zero bytes of a
version record and of a piece record are not looked at (log entry 66). -/
def tokenRec (s : State) (k : Nat) (t : Team) (m : Mask) (lane : Nat) (tok : W64) (go : State → SVer → Res) : Res :=
  let va := extVA (tok &&& ~~~ 0xfff#64)
  reachVa s k t m 4096 64 accR va fun s1 pa =>
    let f := fun (o n : Nat) => homeNat s1 (pa + o) n
    if (f 28 1 = 1 ∨ f 28 1 = 2) ∧ f 18 2 % 4096 = t.oid ∧ f 20 4 % 4096 = tok.toNat % 4096 then
      hdrFront s1 k t m lane accR (xva (f 0 8)) fun s2 h =>
        go s2 { va := va, total := f 8 8, count := f 16 2, pins := if f 28 1 = 1 then h.pins else f 24 4, hdr := h }
    else stTrap s1 m lane 1

/-- A valid token (R280). -/
def tokenFront (s : State) (k : Nat) (t : Team) (m : Mask) (lane : Nat) (tok : W64) (go : State → SVer → Res) : Res :=
  tokenRec s k t m lane tok fun s1 v => if v.pins = 0 then stTrap s1 m lane 2 else go s1 v

/-- The references of a version with n of them: piece record and start. -/
def verRefs (s : State) (oid : Nat) (pg : Table Nat) (va n : Nat) : List (Nat × Nat) :=
  (List.range n).map fun i => (stNat s oid pg (va + 64 + 16 * i) 8, stNat s oid pg (va + 72 + 16 * i) 8)

/-- The reference array of a version reached and read. -/
def refsFront (s : State) (k : Nat) (t : Team) (m : Mask) (va n : Nat) (go : State → Table Nat → List (Nat × Nat) → Res) : Res :=
  reachAll s k t m [(va + 64, 16 * n, accR)] [] fun s1 pg => go s1 pg (verRefs s1 t.oid pg va n)

/-- The length of piece i. -/
def refLen (refs : List (Nat × Nat)) (total i : Nat) : Nat :=
  (if i + 1 < refs.length then (refs.getD (i + 1) (0, 0)).2 else total) - (refs.getD i (0, 0)).2

/-- The piece in which an index lies, and its offset there. -/
def locate (refs : List (Nat × Nat)) (total x : Nat) : Option (Nat × Nat) :=
  ((List.range refs.length).find? fun i =>
    let st := (refs.getD i (0, 0)).2
    decide (st ≤ x ∧ x < st + refLen refs total i)).map fun i => (i, x - (refs.getD i (0, 0)).2)

/-! ## Piece records and count words (R277) -/

/-- A field of a piece record: base 0, capacity 8, used 12, tier 16, flags 17, count address 24. -/
def pieceNat (s : State) (oid : Nat) (pg : Table Nat) (prec off n : Nat) : Nat := stNat s oid pg (xva prec + off) n
/-- The address of a piece's count word. -/
def countVa (s : State) (oid : Nat) (pg : Table Nat) (prec : Nat) : Nat := xva (pieceNat s oid pg prec 24 8)
def holders (s : State) (oid : Nat) (pg : Table Nat) (prec : Nat) : Nat := stNat s oid pg (countVa s oid pg prec) 4

/-- A half of a count word changed by an atomic: 0 holders, 4 retained. -/
def bumpCount (s : State) (k : Nat) (t : Team) (pg : Table Nat) (prec half d : Nat) : State :=
  let a := countVa s t.oid pg prec
  stPut s k t pg (a + half) 4 ((stNat s t.oid pg (a + half) 4 + d) % 2 ^ 32)

/-- One subtracted from a half. -/
def dropCount (s : State) (k : Nat) (t : Team) (pg : Table Nat) (prec half : Nat) : State := bumpCount s k t pg prec half (2 ^ 32 - 1)

/-- Both halves are 0 (R282). -/
def pieceDead (s : State) (oid : Nat) (pg : Table Nat) (prec : Nat) : Bool := decide (stNat s oid pg (countVa s oid pg prec) 8 = 0)

/-- A count lowered for each reference in order; the pieces that die. -/
def lowerCounts (k : Nat) (t : Team) (pg : Table Nat) (half : Nat) : List Nat → State → State × List Nat
  | [], s => (s, [])
  | p :: r, s =>
    let s1 := dropCount s k t pg p half
    let b := lowerCounts k t pg half r s1
    (b.1, if pieceDead s1 t.oid pg p then p :: b.2 else b.2)

/-- Deaths wait for the copy engine of the issuing cluster (R283). -/
def queueDeaths (s : State) (k : Nat) (t : Team) (h : SHdr) (dead : List Nat) : State :=
  { s with deaths := s.deaths ++ dead.map fun p =>
      { cluster := clusterOf (keyCore k), oid := t.oid, prec := p, pool := h.ppool, esize := h.size } }

/-- The references of a list that another does not match, reference by reference (R282). -/
def refDiff : List Nat → List Nat → List Nat
  | a, [] => a
  | a, p :: r => refDiff (a.erase p) r

/-! ## Stitch pools (R278) -/

/-- The word at which a pool pushes, once its descriptor is reached. -/
def poolTop (s : State) (oid : Nat) (pg : Table Nat) (pool : Nat) : List (Nat × Nat × Nat) :=
  let n := stNat s oid pg (xva pool) 8
  if n < stNat s oid pg (xva pool + 16) 8 then [(xva (stNat s oid pg (xva pool + 8) 8 + 8 * n), 8, accR + accW)] else []

/-- The words at which a pool pops and pushes. -/
def poolEnds (s : State) (oid : Nat) (pg : Table Nat) (pool : Nat) : List (Nat × Nat × Nat) :=
  let n := stNat s oid pg (xva pool) 8
  (if n = 0 then [] else [(xva (stNat s oid pg (xva pool + 8) 8 + 8 * (n - 1)), 8, accR + accW)]) ++ poolTop s oid pg pool

/-- What a pop would give. -/
inductive Peek where
  | empty
  | bad (x : Nat)
  | got (x : Nat)
  deriving DecidableEq, Repr

def peekPool (s : State) (oid : Nat) (pg : Table Nat) (pool bytes align : Nat) : Peek :=
  let n := stNat s oid pg (xva pool) 8
  if n = 0 ∨ stNat s oid pg (xva pool + 24) 4 ≠ bytes then .empty
  else
    let x := stNat s oid pg (xva (stNat s oid pg (xva pool + 8) 8 + 8 * (n - 1))) 8
    if x % align ≠ 0 then .bad x else .got x

/-- The last block leaves the pool. -/
def takeBlock (s : State) (k : Nat) (t : Team) (pg : Table Nat) (pool : Nat) : State :=
  stPut s k t pg (xva pool) 8 (stNat s t.oid pg (xva pool) 8 - 1)

/-- A push; at capacity it stores nothing and writes a POOL_FULL record. -/
def stPush (s : State) (k : Nat) (t : Team) (pg : Table Nat) (pool x : Nat) : State :=
  let n := stNat s t.oid pg (xva pool) 8
  if stNat s t.oid pg (xva pool + 16) 8 ≤ n then poolRecord s (ctxPart s t.oid) (teamWho t k) rPoolFull x
  else stPut (stPut s k t pg (xva (stNat s t.oid pg (xva pool + 8) 8 + 8 * n)) 8 x) k t pg (xva pool) 8 (n + 1)

/-- A pop for an edit, looked at before it is made: the state changes only when it gives a block that breaks R278, which is
dropped. -/
def popFront (s : State) (k : Nat) (t : Team) (m : Mask) (pg : Table Nat) (pool bytes align : Nat) (go : Nat → Res) : Res :=
  match peekPool s t.oid pg pool bytes align with
  | .got x => go x
  | .empty => stTrap s m 0 5
  | .bad x => stTrap (poolRecord (takeBlock s k t pg pool) (ctxPart s t.oid) (teamWho t k) rBadPool x) m 0 5

/-- The bytes of a version block (R276). -/
def blockBytes (max : Nat) : Nat := 64 * (1 + (max + 3) / 4)

/-! ## What an instruction reaches, for its snares (R307)

A data snare comes before every other check of an instruction, and what a stitch instruction reaches is found in memory. So that much is
looked up first, without checks, as it stands once the team's earlier stores are performed. A handle or a token that names no valid list
or version, and a lane whose index is out of the version, reach nothing further (log entry 68). -/

/-- The list that a handle names, if it is valid. -/
def peekHdr (s : State) (oid va : Nat) : Option SHdr :=
  match if va % 128 = 0 then stPa s oid [] va else none with
  | some pa => let h := stHdr s va pa; if h.good then some h else none
  | none => none

/-- The version that a token names. -/
def peekVer (s : State) (oid : Nat) (tok : W64) : Option SVer :=
  let va := extVA (tok &&& ~~~ 0xfff#64)
  match if tok = 0 then none else stPa s oid [] va with
  | some pa =>
    let f := fun (o n : Nat) => homeNat s (pa + o) n
    if (f 28 1 = 1 ∨ f 28 1 = 2) ∧ f 18 2 % 4096 = oid ∧ f 20 4 % 4096 = tok.toNat % 4096 then
      (peekHdr s oid (xva (f 0 8))).map fun h =>
        { va := va, total := f 8 8, count := f 16 2, pins := if f 28 1 = 1 then h.pins else f 24 4, hdr := h }
    else none
  | none => none

/-- The records of a version: its own, its list's header, its references. -/
def verWords (v : SVer) (refs : Bool) : List (Nat × Nat × Nat) :=
  (v.va, 64, accR) :: (v.hdr.va, 128, accR) :: (if refs then [(v.va + 64, 16 * v.count, accR)] else [])

/-- The lowest of two snares. -/
def lowSnare : Option Nat → Option Nat → Option Nat
  | some a, some b => some (Nat.min a b)
  | a, b => a.or b

/-- A data snare stops the team before anything of the instruction (R307). -/
def stopOr (s : State) (k : Nat) (n : Option Nat) (go : Res) : Res :=
  match n with
  | some j => .done (stopTeam s k j)
  | none => go

/-! ## sx.pin, sx.unpin (R281) -/

def execSxPin (f : VR) (s : State) : Out :=
  .next (issue (.sxPin f) s (onceLeft f.g fun k t s =>
    let m := resumedLanes t f.g
    let va := extVA (opdS s k t f.b)
    let pins := match peekHdr (drain s k t) t.oid va with | some h => decide (h.current ≠ 0) | none => false
    if peerHold s k then .stall s
    else
      stopOr s k (wordsSnare s k t m ((va, 128, accR) :: if pins then [(va + 24, 8, accR + accW)] else [])) <|
      hdrFront s k t m 0 accR va fun s1 h =>
        let done := fun (st : State) (tok : Nat) => Res.commit (writeS (acquire st k t 2) k f.d (BitVec.ofNat 64 tok))
        if h.current = 0 then done s1 0
        else if h.pins = 2 ^ 32 - 1 then stTrap s1 m 0 8
        else reachAll s1 k t m [(va, 128, accR + accW), (va + 24, 8, accR + accW)] [] fun s2 pg =>
          done (stPut s2 k t pg (va + 24) 4 (h.pins + 1)) (h.current / 4096 * 4096 + h.serial % 4096)))

/-- The team waits for the edit of a list (R281, R282). -/
def editWait (s : State) (k hva : Nat) : Res := waitWith s k .edit (waitMake [(0, hva)])

/-- Retirement of a version that was RETIRING: retained counts, FREE, push (R279). -/
def retire (s : State) (k : Nat) (t : Team) (pg : Table Nat) (v : SVer) (refs : List (Nat × Nat)) : State :=
  let a := lowerCounts k t pg 4 (refs.map (·.1)) s
  let s1 := stPut a.1 k t pg (v.va + 28) 1 0
  queueDeaths (stPush s1 k t pg v.hdr.vpool (v.va % 2 ^ 64)) k t v.hdr a.2

/-- The records of an unpin: the word of the pins, the version, the pool descriptor that a retirement would reach, and the piece records. -/
def unpinRecords (v : SVer) (pins : Nat × Nat × Nat) (refs : List (Nat × Nat)) : List (Nat × Nat × Nat) :=
  pins :: (v.va, 64, accR) :: (xva v.hdr.vpool, 64, accR) :: (xva v.hdr.vpool, 8, accR + accW) :: refs.map fun r => (xva r.1, 64, accR)
/-- The words that they lead to: the pool's array entry, and the count words. -/
def unpinCounts (s : State) (oid : Nat) (pg : Table Nat) (v : SVer) (refs : List (Nat × Nat)) : List (Nat × Nat × Nat) :=
  poolTop s oid pg v.hdr.vpool ++ refs.map fun r => (countVa s oid pg r.1, 8, accR + accW)

/-- The pins that an unpin of a version lowers: those of the header while it is current, else its own. -/
def unpinPins (v : SVer) : Nat × Nat × Nat := (if xva v.hdr.current = v.va then v.hdr.va + 24 else v.va + 24, 8, accR + accW)

/-- The words that an unpin reaches. -/
def unpinWords (s : State) (oid : Nat) (tok : W64) : List (Nat × Nat × Nat) :=
  match peekVer s oid tok with
  | none => []
  | some v =>
    verWords v (!v.hdr.edit) ++
      if v.hdr.edit then [] else let refs := verRefs s oid [] v.va v.count; unpinRecords v (unpinPins v) refs ++ unpinCounts s oid [] v refs

/-- What sx.unpin translates before it lowers any pins (R348). -/
def unpinReach (s : State) (k : Nat) (t : Team) (m : Mask) (v : SVer) (pins : Nat × Nat × Nat) (go : State → Table Nat → List (Nat × Nat) → Res) : Res :=
  refsFront s k t m v.va v.count fun s1 pg1 refs =>
    reachAll s1 k t m (unpinRecords v pins refs) pg1 fun s2 pg2 =>
      reachAll s2 k t m (unpinCounts s2 t.oid pg2 v refs) pg2 fun s3 pg3 => go s3 pg3 refs

/-- The pins of the version lowered: at the header while it is current, else at its record; the last pin of a superseded version
retires it (R279, R281). -/
def unpinNow (s : State) (k : Nat) (t : Team) (m : Mask) (v : SVer) : Res :=
  if xva v.hdr.current = v.va then
    unpinReach s k t m v (unpinPins v) fun s1 pg _ => .commit (clearWait (stPut s1 k t pg (v.hdr.va + 24) 4 (v.hdr.pins - 1)) k)
  else
    unpinReach s k t m v (unpinPins v) fun s1 pg refs =>
      let low := stPut s1 k t pg (v.va + 24) 4 (v.pins - 1)
      .commit (clearWait (if v.pins = 1 then retire low k t pg v refs else low) k)

def execSxUnpin (f : VR) (s : State) : Out :=
  .next (issue (.sxUnpin f) s (onceLeft f.g fun k t s =>
    let m := resumedLanes t f.g
    let tok := opdS s k t f.b
    if peerHold s k then .stall s
    else
      fenceWith s k t 2 2 fun s0 =>
        if tok = 0 then .commit s0
        else
          stopOr s k (wordsSnare s0 k t m (unpinWords s0 t.oid tok)) <|
          tokenRec s0 k t m 0 tok fun s1 v =>
            if v.hdr.edit then editWait s1 k v.hdr.va
            else if v.pins = 0 then stTrap s1 m 0 2
            else unpinNow s1 k t m v))

/-! ## sx.ld, sx.st, sx.where, sx.len (R290) -/

/-- The index of a lane. -/
def sxIndex (s : State) (k : Nat) (t : Team) (f : VR) (L : Nat) : Nat :=
  ((if f.c.isN then 0 else (opdS s k t f.c).toNat) + n32Src s k t f.a L) % 2 ^ 64

/-- An element that a lane names: lane, piece record, piece index, offset. -/
abbrev SxLane := Nat × Nat × Nat × Nat

/-- The lanes of a per-lane form whose index is in the version. -/
def sxHits (s : State) (k : Nat) (t : Team) (f : VR) (refs : List (Nat × Nat)) (total : Nat) (lanes : List Nat) : List SxLane :=
  lanes.filterMap fun L => (locate refs total (sxIndex s k t f L)).map fun p => (L, (refs.getD p.1 (0, 0)).1, p.1, p.2)

/-- The piece records that lanes name, each once. -/
def hitRecs (hs : List SxLane) : List Nat := hs.foldl (fun acc h => if acc.contains h.2.1 then acc else acc ++ [h.2.1]) []

/-- The piece records that the lanes of a form name. -/
def sxRecs (s : State) (k : Nat) (t : Team) (f : VR) (v : SVer) (lanes : List Nat) : List (Nat × Nat × Nat) :=
  (hitRecs (sxHits s k t f (verRefs s t.oid [] v.va v.count) v.total lanes)).map fun p => (xva p, 64, accR)

/-- The elements of lanes: address of each. -/
def sxElems (s : State) (oid : Nat) (pg : Table Nat) (v : SVer) (hs : List SxLane) : List (Nat × Nat) :=
  hs.map fun h => (h.1, xva (pieceNat s oid pg h.2.1 0 8 + v.hdr.size * h.2.2.2))

/-- The data snare that an element access or sx.where matches. -/
def sxSnare (s : State) (k : Nat) (t : Team) (f : VR) (m : Mask) (kind : Nat) (lanes : List Nat) : Option Nat :=
  match peekVer s t.oid (opdS s k t f.b) with
  | none => none
  | some v =>
    lowSnare (wordsSnare s k t m (verWords v true ++ sxRecs s k t f v lanes))
      (if kind = 0 then none
      else dataSnare s k t kind v.hdr.size (sxElems s t.oid [] v (sxHits s k t f (verRefs s t.oid [] v.va v.count) v.total lanes)))

/-- sx.ld and sx.st up to their access: the checks of R291, then translation of the elements (R200). -/
def sxAccess (s : State) (k : Nat) (t : Team) (f : VR) (acc : Nat) (go : State → Nat → List (Nat × Nat × Nat) → Res) : Res :=
  let m := resumedLanes t f.g
  let lanes := maskLanes m t.width
  let tok := opdS s k t f.b
  let low := lowLane m
  if lanes.isEmpty then .commit s
  else
    memGo s k 0 <|
      let range := fun (st : State) (total : Nat) =>
        let bad := lanes.filter fun L => decide (total ≤ sxIndex st k t f L)
        stTrap st (maskOf 1024 fun L => bad.contains L) (bad.headD 0) 3
      if tok = 0 then range s 0
      else
        stopOr s k (sxSnare (drain s k t) k t f m (if acc = accR then 1 else 2) lanes) <|
        tokenFront s k t m low tok fun s1 v =>
          if decide (f.t = .n64) ≠ decide (v.hdr.size = 8) then stTrap s1 m low 4
          else if lanes.any fun L => decide (v.total ≤ sxIndex s1 k t f L) then range s1 v.total
          else
            refsFront s1 k t m v.va v.count fun s2 pg refs =>
              let hs := sxHits s2 k t f refs v.total lanes
              reachAll s2 k t m ((hitRecs hs).map fun p => (xva p, 64, accR)) pg fun s3 pg3 =>
                let addrs := sxElems s3 t.oid pg3 v hs
                withSnare s3 k t (if acc = accR then 1 else 2) v.hdr.size addrs <|
                  match checkLanes s3 k t v.hdr.size acc addrs with
                  | .stop r => r
                  | .go s4 ls =>
                    match ls.filter fun x => isPeer x.2.2 with
                    | x :: r => failXlat s4 k t acc ((x :: r).map fun y => (y.1, y.2.1, .fail rSegment 0)) x.2.1 rSegment
                    | [] => go (settleAll s4 k t ls) v.hdr.size ls

/-- The issuing L1's copy of an element's line leaves (R290). -/
def sxFlush (s : State) (k : Nat) (t : Team) (va : Nat) : State :=
  match findLine s (keyCore k) t.oid va with | some (sl, key, _) => flushLine s sl key | none => s

def execSxLd (f : VR) (s : State) : Out :=
  .next (issue (.sxLd f) s fun k t s =>
    sxAccess s k t f accR fun s1 e ls =>
      let n := if f.t = .n64 then 8 else 4
      let s2 := ls.foldl (fun st x => sxFlush st k t x.2.1) s1
      .commit (addLoad s2 k t f.d n 0 (ls.map fun x =>
        if badAt s2 x.2.2 e then laneOf x none true else laneOf x (some (leBytes n (homeNat s2 x.2.2 e))) false)))

def execSxSt (f : VR) (s : State) : Out :=
  .next (issue (.sxSt f) s fun k t s =>
    let data := fun (e L : Nat) => leBytes e (opd s k t (decide (f.t = .n64)) f.d L).toNat
    sxAccess s k t f accW fun s1 e ls =>
      let s2 := ls.foldl (fun st x => teamHomeWrite (sxFlush st k t x.2.1) k x.2.1 x.2.2 (data e x.1) (curWord t)) s1
      .commit (digest s2 k (ls.map fun x => (x.2.1, data e x.1))))

def execSxWhere (f : VR) (s : State) : Out :=
  .next (issue (.sxWhere f) s fun k t s =>
    let m := resumedLanes t f.g
    let lanes := maskLanes m t.width
    let tok := opdS s k t f.b
    let ones := BitVec.allOnes 64
    if lanes.isEmpty then .commit s
    else
      memGo s k 0 <|
        if tok = 0 then .commit (writeD (writeD s k m false f.d fun _ => ones) k m false (Opd.next f.d 1) fun _ => ones)
        else
          stopOr s k (sxSnare (drain s k t) k t f m 0 lanes) <|
          tokenFront s k t m (lowLane m) tok fun s1 v =>
            refsFront s1 k t m v.va v.count fun s2 pg refs =>
              let hs := sxHits s2 k t f refs v.total lanes
              reachAll s2 k t m ((hitRecs hs).map fun p => (xva p, 64, accR)) pg fun s3 pg3 =>
                let off := fun L => match hs.find? fun h => decide (h.1 = L) with | some h => BitVec.ofNat 64 h.2.2.2 | none => ones
                let whr := fun L => match hs.find? fun h => decide (h.1 = L) with
                  | some h => BitVec.ofNat 64 (h.2.2.1 % 2 ^ 13 + pieceNat s3 t.oid pg3 h.2.1 16 1 % 4 * 2 ^ 16)
                  | none => ones
                .commit (writeD (writeD s3 k m false f.d off) k m false (Opd.next f.d 1) whr))

def execSxLen (f : VR) (s : State) : Out :=
  .next (issue (.sxLen f) s (onceLeft f.g fun k t s =>
    let m := resumedLanes t f.g
    let mode := fld f.m 0 2
    let tok := opdS s k t f.b
    let a := if f.a.isN then 0 else offS s k t f.a
    if peerHold s k then .stall s
    else if tok = 0 then .commit (writeS s k f.d (if mode < 2 then 0 else BitVec.allOnes 64))
    else
      stopOr s k (match peekVer (drain s k t) t.oid tok with
        | some v => wordsSnare s k t m (verWords v (decide (2 ≤ mode ∧ a < v.count)))
        | none => none) <|
      tokenFront s k t m 0 tok fun s1 v =>
        if mode = 0 then .commit (writeS s1 k f.d (BitVec.ofNat 64 v.total))
        else if mode = 1 then .commit (writeS s1 k f.d (BitVec.ofNat 64 v.count))
        else if v.count ≤ a then .commit (writeS s1 k f.d (BitVec.allOnes 64))
        else
          refsFront s1 k t m v.va v.count fun s2 _ refs =>
            .commit (writeS s2 k f.d (BitVec.ofNat 64 (if mode = 2 then (refs.getD a (0, 0)).2 else refLen refs v.total a)))))

/-! ## Edits (R282, R284 to R286) -/

/-- The records of an edit: header, old version, pools. -/
def editRecords (h : SHdr) (pools : List Nat) : List (Nat × Nat × Nat) :=
  let rw := accR + accW
  let hdr := (h.va, 128, rw) :: ((List.range 4).map fun i => (h.va + 8 * i, 8, rw))
  let cur := if h.current = 0 then [] else [(xva h.current, 64, rw), (xva h.current + 24, 8, rw)]
  hdr ++ cur ++ pools.flatMap fun p => [(xva p, 64, rw), (xva p, 8, rw)]
/-- The piece records of its references, and the ends of its pools. -/
def editPieces (s : State) (oid : Nat) (pg : Table Nat) (pieces pools : List Nat) : List (Nat × Nat × Nat) :=
  (pieces.map fun p => (xva p, 64, accR)) ++ pools.flatMap (poolEnds s oid pg)
/-- The count words of the pieces. -/
def editCounts (s : State) (oid : Nat) (pg : Table Nat) (pieces : List Nat) : List (Nat × Nat × Nat) :=
  pieces.map fun p => (countVa s oid pg p, 8, accR + accW)

/-- The words that an edit of a list reaches (R282 step 1, R348). -/
def editReach (s : State) (k : Nat) (t : Team) (m : Mask) (h : SHdr) (pieces pools : List Nat) (pg : Table Nat) (go : State → Table Nat → Res) : Res :=
  reachAll s k t m (editRecords h pools) pg fun s1 pg1 =>
    reachAll s1 k t m (editPieces s1 t.oid pg1 pieces pools) pg1 fun s2 pg2 => reachAll s2 k t m (editCounts s2 t.oid pg2 pieces) pg2 go

/-- The references of a list's current version reached and read. -/
def currentRefs (s : State) (k : Nat) (t : Team) (m : Mask) (h : SHdr) (go : State → Table Nat → List (Nat × Nat) → Res) : Res :=
  if h.current = 0 then go s [] [] else refsFront s k t m (xva h.current) h.count go

/-- The references of a list's current version, and their words, as they stand. -/
def curRefs (s : State) (oid : Nat) (h : SHdr) : List (Nat × Nat) := if h.current = 0 then [] else verRefs s oid [] (xva h.current) h.count
def curWords (h : SHdr) : List (Nat × Nat × Nat) := if h.current = 0 then [] else [(xva h.current + 64, 16 * h.count, accR)]

/-- The words of the version block that an edit would pop. -/
def blockWords (s : State) (oid : Nat) (pg : Table Nat) (h : SHdr) : List (Nat × Nat × Nat) :=
  match peekPool s oid pg h.vpool (blockBytes h.max) 4096 with | .got b => [(xva b, blockBytes h.max, accW)] | _ => []

/-- The words that an edit of a list reaches, as memory stands. -/
def editWords (s : State) (oid : Nat) (h : SHdr) (pieces pools : List Nat) (block : Bool) : List (Nat × Nat × Nat) :=
  editRecords h pools ++ editPieces s oid [] pieces pools ++ editCounts s oid [] pieces ++ if block then blockWords s oid [] h else []

/-- An edit begins: EDIT is set and the team waits until it is published. -/
def startEdit (s : State) (k : Nat) (t : Team) (x : Edit) : Res :=
  editWait ((stPut s k t x.pages (x.header + 21) 1 1).modTeam k fun u => { u with edit := some x, holdsEdit := none }) k x.header

/-- Another edit of the list is under way (R282). -/
def editTaken (t : Team) (h : SHdr) : Bool := h.edit && decide (t.holdsEdit ≠ some h.va)

/-- An edit that waits for a page in step 1 has set EDIT at its issue; one that fails or ends without a new version clears it (R282). -/
def holdEdit (k : Nat) (t : Team) (h : SHdr) : Res → Res
  | .done s =>
    match s.team k, walk s t.oid h.va accW with
    | some u, .ok _ _ _ _ =>
      if u.state = .ready ∧ u.busyLeaf.isSome = true ∧ editTaken t h = false
      then .done ((stPut s k t [] (h.va + 21) 1 1).modTeam k fun w => { w with holdsEdit := some h.va })
      else .done (freeEdit s k t)
    | _, _ => .done (freeEdit s k t)
  | .commit s => .commit (freeEdit s k t)
  | .trap s c => .trap (freeEdit s k t) c
  | r => r

/-- The version block of a new version popped, and its words reached; none for a version without references. -/
def blockFront (s : State) (k : Nat) (t : Team) (m : Mask) (h : SHdr) (refs : List (Nat × Nat)) (pg : Table Nat) (go : State → Table Nat → Nat → Res) : Res :=
  if refs.isEmpty then go s pg 0
  else
    popFront s k t m pg h.vpool (blockBytes h.max) 4096 fun b =>
      reachAll s k t m [(xva b, blockBytes h.max, accW)] pg fun s1 pg1 => go s1 pg1 b

/-- The block leaves its pool. -/
def takeVersion (s : State) (k : Nat) (t : Team) (h : SHdr) (b : Nat) (pg : Table Nat) : State :=
  if b = 0 then s else takeBlock s k t pg h.vpool

/-- A status: code, and the serial after the instruction (R285, R286). -/
def editStatus (code serial : Nat) : W64 := BitVec.ofNat 64 (code + serial % 2 ^ 32 * 2 ^ 32)

/-- An edit that publishes a version made from references that exist. -/
def plainEdit (s : State) (k : Nat) (t : Team) (m : Mask) (h : SHdr) (old new : List (Nat × Nat)) (total : Nat) (d : Opd) (pg : Table Nat) : Res :=
  editReach s k t m h ((old ++ new).map (·.1)) [h.vpool] pg fun s1 pg1 =>
    blockFront s1 k t m h new pg1 fun s2 pg2 b =>
      startEdit (takeVersion s2 k t h b pg2) k t
        { header := h.va, block := b, refs := new, total := total % 2 ^ 64, result := editStatus 0 (h.serial + 1), dst := d, path := 0, tail := 0,
          piece := 0, count := 0, tailLen := 0, pages := pg2 }

/-- The words that an edit reaches: its header, and what follows from it. -/
def handleWords (s : State) (oid va : Nat) (words : SHdr → List (Nat × Nat × Nat)) : List (Nat × Nat × Nat) :=
  (va, 128, accR) :: match peekHdr s oid va with | some h => words h | none => []

/-- An edit's snares and checks up to its list's header; it waits while another edit of the list is under way, and it is a release. -/
def editForm (i : Instr) (f : VR) (handle : State → Nat → Team → Nat) (words : State → Nat → Team → SHdr → List (Nat × Nat × Nat))
    (body : Nat → Team → Mask → State → SHdr → Res) (s : State) : Out :=
  .next (issue i s (onceLeft f.g fun k t s =>
    let m := resumedLanes t f.g
    if peerHold s k then .stall s
    else fenceWith s k t 2 2 fun s0 => stopOr s k (wordsSnare s0 k t m (handleWords s0 t.oid (handle s0 k t) (words s0 k t))) <| hdrFront s0 k t m 0 accR (handle s0 k t) fun s1 h => holdEdit k t h (body k t m s1 h)))

/-- A scalar of the group that A names. -/
def groupS (s : State) (k : Nat) (t : Team) (f : VR) (d : Nat) : Nat := (opdS s k t (Opd.next f.a d)).toNat

/-- An edit that ends with a status and changes nothing. -/
def editOver (s : State) (k : Nat) (d : Opd) (code serial : Nat) : Res := .commit (writeS (clearWait s k) k d (editStatus code serial))

/-- Starts recomputed in order over pieces and their lengths. -/
def restart : Nat → List (Nat × Nat) → List (Nat × Nat)
  | _, [] => []
  | st, (p, n) :: r => (p, st) :: restart (st + n) r

/-- The pieces of a version with their lengths. -/
def withLens (refs : List (Nat × Nat)) (total : Nat) : List (Nat × Nat) :=
  (List.range refs.length).map fun i => ((refs.getD i (0, 0)).1, refLen refs total i)

/-- The status with which a splice ends without a new version: code 0 to 3 of R285; none when it goes on. -/
def spliceEnds (s : State) (k : Nat) (t : Team) (f : VR) (h : SHdr) (pieces size : Nat) : Option Nat :=
  let w := groupS s k t f 1
  let p := bitsAt w 0 16
  let r := bitsAt w 16 16
  let j := bitsAt w 32 16
  let n := bitsAt w 48 16
  let want := groupS s k t f 3
  if want ≠ 2 ^ 64 - 1 ∧ want ≠ h.serial then some 1
  else if h.count < p ∨ h.count < p + r ∨ (0 < n ∧ (pieces < j + n ∨ size ≠ h.size)) then some 2
  else if h.max < h.count - r + n then some 3
  else if r = 0 ∧ n = 0 then some 0
  else none

/-- The pieces of the new version of a splice, with their lengths. -/
def spliceNew (s : State) (k : Nat) (t : Team) (f : VR) (h : SHdr) (old src : List (Nat × Nat)) (srcTotal : Nat) : List (Nat × Nat) :=
  let w := groupS s k t f 1
  let ls := withLens old h.total
  ls.take (bitsAt w 0 16) ++ ((withLens src srcTotal).drop (bitsAt w 32 16)).take (bitsAt w 48 16) ++ ls.drop (bitsAt w 0 16 + bitsAt w 16 16)

/-- The splice itself, once its source is known: the source's references and total, and its element size (R285). -/
def spliceBody (s : State) (k : Nat) (t : Team) (m : Mask) (f : VR) (h : SHdr) (src : List (Nat × Nat)) (srcTotal size : Nat) : Res :=
  if editTaken t h then editWait s k h.va
  else
    match spliceEnds s k t f h src.length size with
    | some code => editOver s k f.d code h.serial
    | none =>
    currentRefs s k t m h fun s1 pg old =>
      let new := spliceNew s k t f h old src srcTotal
      plainEdit s1 k t m h old (restart 0 new) ((new.map (·.2)).sum) f.d pg

/-- The record of a token translates (R291, step 2). -/
def tokenReach (s : State) (k : Nat) (t : Team) (m : Mask) (tok : W64) (go : State → Res) : Res :=
  if tok = 0 then go s else reachVa s k t m 4096 64 accR (extVA (tok &&& ~~~ 0xfff#64)) fun s1 _ => go s1

/-- The words that a splice reaches beyond its header. -/
def spliceWords (s : State) (k : Nat) (t : Team) (f : VR) (tok : W64) (h : SHdr) : List (Nat × Nat × Nat) :=
  let v := peekVer s t.oid tok
  let src := match v with | some x => verRefs s t.oid [] x.va x.count | none => []
  (match v with | some x => verWords x true | none => []) ++
    if editTaken t h || (decide (tok ≠ 0) && v.isNone) || (spliceEnds s k t f h src.length (match v with | some x => x.hdr.size | none => h.size)).isSome then []
    else
      let old := curRefs s t.oid h
      let new := spliceNew s k t f h old src (match v with | some x => x.total | none => 0)
      curWords h ++ editWords s t.oid h ((old ++ new).map (·.1)) [h.vpool] (!new.isEmpty)

def execSxSplice (f : VR) (s : State) : Out :=
  .next (issue (.sxSplice f) s (onceLeft f.g fun k t s =>
    let m := resumedLanes t f.g
    let va := xva (groupS s k t f 0)
    let tok := if bitsAt (groupS s k t f 1) 48 16 = 0 then 0 else BitVec.ofNat 64 (groupS s k t f 2)
    if peerHold s k then .stall s
    else fenceWith s k t 2 2 fun s0 => stopOr s k (wordsSnare s0 k t m (handleWords s0 t.oid va (spliceWords s0 k t f tok))) <|
      reachVa s0 k t m 128 128 accR va fun sa _ => tokenReach sa k t m tok fun sb =>
      hdrFront sb k t m 0 accR va fun s1 h => holdEdit k t h (
        if tok = 0 then spliceBody s1 k t m f h [] 0 h.size
        else
          tokenFront s1 k t m 0 tok fun s2 v =>
            refsFront s2 k t m v.va v.count fun s3 _ src => spliceBody s3 k t m f h src v.total v.hdr.size)))

def execSxTrunc (f : VR) (s : State) : Out :=
  editForm (.sxTrunc f) f (fun s k t => xva (groupS s k t f 0)) (fun s k t h =>
    if editTaken t h || decide (h.total ≤ groupS s k t f 1) then []
    else
      let old := curRefs s t.oid h
      curWords h ++ editWords s t.oid h (old.map (·.1)) [h.vpool] (decide (groupS s k t f 1 ≠ 0))) (fun k t m s h =>
    let n := groupS s k t f 1
    if editTaken t h then editWait s k h.va
    else if h.total < n then editOver s k f.d 2 h.serial
    else if n = h.total then editOver s k f.d 0 h.serial
    else currentRefs s k t m h fun s1 pg old => plainEdit s1 k t m h old (old.filter fun r => decide (r.2 < n)) n f.d pg) s

/-- A holders count would pass its limit (R286). -/
def forkOverflow (s : State) (oid : Nat) (pg : Table Nat) (ps : List Nat) : Bool :=
  ps.any fun p => decide (2 ^ 32 - 1 < holders s oid pg p + ps.count p)

/-- The status with which a fork ends without a new version, its counts apart; none when it goes on. -/
def forkEnds (src h : SHdr) : Option Nat :=
  if h.current ≠ 0 then some 1 else if src.current = 0 then some 0 else if src.size ≠ h.size ∨ h.max < src.count then some 2 else none

/-- The words that a fork reaches. -/
def forkWords (s : State) (t : Team) (va vb : Nat) : List (Nat × Nat × Nat) :=
  (va, 128, accR) :: (vb, 128, accR) ::
    match peekHdr s t.oid va, peekHdr s t.oid vb with
    | some src, some h =>
      if editTaken t h || (forkEnds src h).isSome then []
      else
        let ps := (curRefs s t.oid src).map (·.1)
        curWords src ++ if forkOverflow s t.oid [] ps then editWords s t.oid h ps [] false else editWords s t.oid h ps [h.vpool] (!ps.isEmpty)
    | _, _ => []

def execSxFork (f : VR) (s : State) : Out :=
  .next (issue (.sxFork f) s (onceLeft f.g fun k t s =>
    let m := resumedLanes t f.g
    let va := xva (groupS s k t f 0)
    let vb := xva (groupS s k t f 1)
    if peerHold s k then .stall s
    else fenceWith s k t 2 2 fun s0 => stopOr s k (wordsSnare s0 k t m (forkWords s0 t va vb)) <|
      if va % 128 = 0 ∧ vb % 128 ≠ 0 then volTrap s m cMisalign (BitVec.ofNat 64 vb) else reachVa s0 k t m 128 128 accR va fun sa pa => reachVa sa k t m 128 128 accR vb fun s1 pb =>
      let src := stHdr s1 va pa
      let h := stHdr s1 vb pb
      holdEdit k t h <|
      if !(src.good && h.good) then stTrap s1 m 0 4
      else if editTaken t h then editWait s1 k h.va
      else
        match forkEnds src h with
        | some code => editOver s1 k f.d code h.serial
        | none =>
        currentRefs s1 k t m src fun s2 pg refs =>
          editReach s2 k t m h (refs.map (·.1)) [] pg fun s3 pg3 =>
            if forkOverflow s3 t.oid pg3 (refs.map (·.1)) then editOver s3 k f.d 3 h.serial
            else plainEdit s3 k t m h [] refs src.total f.d pg3))

/-! ## sx.append (R284) -/

/-- What MapPages finds at a page: mapped already, to map at a leaf, or a leaf that ends the append. -/
inductive MapLeaf where
  | there
  | free (pa : Nat) (e : W64)
  | no
  | uncorr
  deriving DecidableEq, Repr

def mapLeaf (s : State) (oid va : Nat) : MapLeaf :=
  match mapWalk s (ctxPart s oid) va 4 (rootOf s oid va) with
  | .uncorr => .uncorr
  | .bad => .no
  | .entry level q e =>
    if level < 3 ∨ leafBad e (decide (level = 3)) = true then .no
    else if pteV e then .there
    else if level = 4 ∧ pteFT e = true then .free q e
    else .no

/-- The addresses of the pages of n bytes from a base. -/
def pageVas (base n : Nat) : List Nat := (cutPages (n / 2 ^ 18 + 2) base n).map (·.1)

/-- The leaves that MapPages writes: W = 1, X = 0, tier 0 (R253). -/
def mapFree (s : State) (core : Option Nat) (p : Nat) : List (Nat × Nat × W64) → List Nat → Table Nat → State × Table Nat
  | (va, q, e) :: r, f :: fs, pg =>
    let s1 := entryPut s core q (3 + f + bitsAt e.toNat 56 7 * 2 ^ 56)
    mapFree s1 core p r fs (match segPa s1 p 0 f with | some pa => pg.put (va / 2 ^ 18) pa | none => pg)
  | _, _, pg => (s, pg)

/-- MapPages(q): the append goes on with the pages mapped, or fails (R284). The parts of q that a copy writes and that are
mapped already are translated first, with the elements that it reads. -/
def mapPages (s : State) (k : Nat) (t : Team) (m : Mask) (base bytes : Nat) (copy : List (Nat × Nat × Nat)) (pg : Table Nat)
    (go : State → Table Nat → Res) : Res :=
  let vas := pageVas base bytes
  let ls := vas.map fun va => (va, mapLeaf s t.oid va)
  if ls.any fun l => decide (l.2 = .uncorr) then
    .trap (pageRecord s (ctxPart s t.oid) t.oid base rUncorrTable accR (keyCore k) (keySlot k) 0 0)
      { bits := cUncorrectable, addr := BitVec.ofNat 64 base, mask := m }
  else
    let free := ls.filterMap fun l => match l.2 with | .free q e => some (l.1, q, e) | _ => none
    let q := s.part (ctxPart s t.oid)
    if ls.any fun l => decide (l.2 = .no) then stTrap s m 0 5
    else if q.quota.toNat < q.used + free.length then .trap s { bits := cQuota ||| cReason rQuota, addr := 0, mask := m }
    else
      reachAll s k t m (copy.filter fun c => !free.any fun x => decide (x.1 / 2 ^ 18 = c.1 / 2 ^ 18)) pg fun s1 pg1 =>
        let a := allocFrames s1 (ctxPart s1 t.oid) (teamWho t k) (List.replicate free.length 0)
        match a.2 with
        | .ok fs => let r := mapFree a.1 (some (keyCore k)) (ctxPart a.1 t.oid) free fs pg1; go r.1 r.2
        | .quota => .trap a.1 { bits := cQuota ||| cReason rQuota, addr := 0, mask := m }
        | _ => stTrap a.1 m 0 7

/-- A range as the pieces of its pages, with access bits. -/
def rangeWords (va n acc : Nat) : List (Nat × Nat × Nat) := (cutPages (n / 2 ^ 18 + 2) va n).map fun c => (c.1, c.2, acc)

/-- Fits(p) for a tail of which the version uses lt elements (R284). -/
def fits (s : State) (oid : Nat) (pg : Table Nat) (p lt n : Nat) : Bool :=
  decide (lt = pieceNat s oid pg p 12 4 ∧ n ≤ pieceNat s oid pg p 8 4 - pieceNat s oid pg p 12 4)

/-- The part of an append that pops a piece record: COPY or NEW. -/
def appendPiece (s : State) (k : Nat) (t : Team) (m : Mask) (f : VR) (h : SHdr) (old : List (Nat × Nat)) (n b lt : Nat) (tail : Option Nat)
    (pg : Table Nat) : Res :=
  reachAll s k t m ((xva h.ppool, 64, accR + accW) :: (xva h.ppool, 8, accR + accW) ::
      (tail.map fun p => (xva p + 8, 8, accR + accW)).toList) pg fun s1 pg1 =>
    reachAll s1 k t m (poolEnds s1 t.oid pg1 h.ppool) pg1 fun s2 pg2 =>
      popFront s2 k t m pg2 h.ppool 64 64 fun q =>
        reachAll s2 k t m [(xva q, 64, accR), (xva q + 8, 8, accR + accW)] pg2 fun s3 pg3 =>
          reachAll s3 k t m [(countVa s3 t.oid pg3 q, 8, accR + accW)] pg3 fun s4 pg4 =>
            let cap := pieceNat s4 t.oid pg4 q 8 4
            let base := xva (pieceNat s4 t.oid pg4 q 0 8)
            let copy := tail.isSome && decide (lt + n ≤ cap)
            if !copy && decide (cap < n) then stTrap s4 m 0 3
            else if !copy && decide (old.length = h.max) then stTrap s4 m 0 6
            else
              let words := match if copy then tail else none with
                | some p => rangeWords (xva (pieceNat s4 t.oid pg4 p 0 8)) (h.size * lt) accR ++ rangeWords base (h.size * lt) accW
                | none => []
              mapPages s4 k t m base (h.size * cap) words pg4 fun s5 pg5 =>
                let s6 := takeBlock (takeVersion s5 k t h b pg5) k t pg5 h.ppool
                startEdit s6 k t
                  { header := h.va, block := b,
                    refs := if copy then old.dropLast ++ [(q, (old.getLastD (0, 0)).2)] else old ++ [(q, h.total)],
                    total := (h.total + n) % 2 ^ 64, result := BitVec.ofNat 64 h.total, dst := f.d, path := if copy then 2 else 3,
                    tail := tail.getD 0, piece := q, count := n, tailLen := lt, pages := pg5 }

/-- The words that an append reaches: those of the edit, then those of its tail or of the piece record that it would pop. -/
def appendWords (s : State) (k : Nat) (t : Team) (f : VR) (h : SHdr) : List (Nat × Nat × Nat) :=
  let n := groupS s k t f 1
  if editTaken t h || decide (n < 1 ∨ 2 ^ 32 - 1 < n) then []
  else
    let old := curRefs s t.oid h
    let tail := old.getLast?.map (·.1)
    let lt := match old.getLast? with | some r => h.total - r.2 | none => 0
    let own := (tail.map fun p => (xva p + 8, 8, accR + accW)).toList
    curWords h ++ editWords s t.oid h (old.map (·.1)) [h.vpool] true ++ own ++
      if tail.any fun p => decide (holders s t.oid [] p = 1) && fits s t.oid [] p lt n then []
      else
        (xva h.ppool, 64, accR + accW) :: (xva h.ppool, 8, accR + accW) :: poolEnds s t.oid [] h.ppool ++
          match peekPool s t.oid [] h.ppool 64 64 with
          | .got q =>
            (xva q, 64, accR) :: (xva q + 8, 8, accR + accW) :: (countVa s t.oid [] q, 8, accR + accW) ::
              match if lt + n ≤ pieceNat s t.oid [] q 8 4 then tail else none with
              | some p => rangeWords (xva (pieceNat s t.oid [] p 0 8)) (h.size * lt) accR ++ rangeWords (xva (pieceNat s t.oid [] q 0 8)) (h.size * lt) accW
              | none => []
          | _ => []

def execSxAppend (f : VR) (s : State) : Out :=
  editForm (.sxAppend f) f (fun s k t => xva (groupS s k t f 0)) (fun s k t h => appendWords s k t f h) (fun k t m s h =>
    let n := groupS s k t f 1
    if editTaken t h then editWait s k h.va
    else if n < 1 ∨ 2 ^ 32 - 1 < n then stTrap s m 0 3
    else
      currentRefs s k t m h fun s1 pg old =>
        let tail := old.getLast?.map (·.1)
        let lt := match old.getLast? with | some r => h.total - r.2 | none => 0
        editReach s1 k t m h (old.map (·.1)) [h.vpool] pg fun s2 pg2 =>
          blockFront s2 k t m h [(0, 0)] pg2 fun s3 pg3 b =>
            match tail with
            | some p =>
              if holders s3 t.oid pg3 p = 1 ∧ fits s3 t.oid pg3 p lt n = true then
                reachAll s3 k t m [(xva p + 8, 8, accR + accW)] pg3 fun s4 pg4 =>
                  startEdit (takeVersion s4 k t h b pg4) k t
                    { header := h.va, block := b, refs := old, total := (h.total + n) % 2 ^ 64, result := BitVec.ofNat 64 h.total, dst := f.d,
                      path := 1, tail := p, piece := 0, count := n, tailLen := lt, pages := pg4 }
              else appendPiece s3 k t m f h old n b lt tail pg3
            | none => appendPiece s3 k t m f h old n b lt none pg3) s

/-! ## Publication (R282, R335) -/

/-- CondDecrement and the pieces of an append: the edit as it goes on, and whether the tail's count has been lowered (R284). -/
def publishPiece (s : State) (k : Nat) (t : Team) (h : SHdr) (old : List (Nat × Nat)) (x : Edit) : State × Edit × Bool :=
  let pg := x.pages
  let inPlace := fun (st : State) => stPut st k t pg (xva x.tail + 12) 4 ((pieceNat st t.oid pg x.tail 12 4 + x.count) % 2 ^ 32)
  let fresh := fun (st : State) (used : Nat) =>
    stPut (stPut st k t pg (xva x.piece + 12) 4 (used % 2 ^ 32)) k t pg (countVa st t.oid pg x.piece) 8 1
  match x.path with
  | 1 => (inPlace s, x, false)
  | 2 =>
    let n := holders s t.oid pg x.tail
    if n = 1 ∧ fits s t.oid pg x.tail x.tailLen x.count = true then
      (inPlace (stPush s k t pg h.ppool x.piece), { x with path := 1, refs := old }, false)
    else
      let s1 := if 1 < n then dropCount s k t pg x.tail 0 else s
      let bs := stBytes s1 t.oid pg (xva (pieceNat s1 t.oid pg x.tail 0 8)) (h.size * x.tailLen)
      (fresh (stWrite s1 k t pg (xva (pieceNat s1 t.oid pg x.piece 0 8)) bs) (x.tailLen + x.count), x, decide (1 < n))
  | 3 => (fresh s x.count, x, false)
  | _ => (s, x, false)

/-- The bytes of a version record, over its whole block (R276). -/
def versionBytes (oid : Nat) (h : SHdr) (x : Edit) : List Byte :=
  layout 64 [(0, 8, h.va), (8, 8, x.total), (16, 2, x.refs.length), (18, 2, oid), (20, 4, h.serial + 1), (28, 1, 1)] ++
    (x.refs.flatMap fun r => leBytes 8 r.1 ++ leBytes 8 r.2) ++ List.replicate (blockBytes h.max - 64 - 16 * x.refs.length) 0

/-- Steps 2 to 5 of R282. -/
def publish (s : State) (k : Nat) (t : Team) (x0 : Edit) : State :=
  let pg := x0.pages
  let h := match stPa s t.oid pg x0.header with | some pa => stHdr s x0.header pa | none => stHdr s x0.header 0
  let old := if h.current = 0 then [] else verRefs s t.oid pg (xva h.current) h.count
  let (s1, x, skip) := publishPiece s k t h old x0
  let oldPs := old.map (·.1)
  let newPs := x.refs.map (·.1)
  -- step 2
  let s2 := if x.refs.isEmpty then s1 else stWrite s1 k t pg (xva x.block) (versionBytes t.oid h x)
  let gain := (refDiff newPs oldPs).filter fun p => !(decide (2 ≤ x.path) && decide (p = x.piece))
  let s3 := gain.foldl (fun st p => bumpCount st k t pg p 0 1) s2
  -- step 3
  let s4 := if h.current = 0 then s3
    else stPut (stPut s3 k t pg (xva h.current + 24) 4 h.pins) k t pg (xva h.current + 28) 1 (if h.pins = 0 then 0 else 2)
  let s5 := stWrite s4 k t pg h.va (layout 18 [(0, 8, x.block), (8, 8, x.total), (16, 2, x.refs.length)])
  let s6 := stWrite s5 k t pg (h.va + 24) (layout 8 [(4, 4, h.serial + 1)])
  -- step 4
  let s7 := if h.pins = 0 then s6 else oldPs.foldl (fun st p => bumpCount st k t pg p 4 1) s6
  -- step 5
  let loss := refDiff oldPs newPs
  let a := lowerCounts k t pg 0 (if skip then loss.erase x.tail else loss) s7
  let s8 := if h.current = 0 ∨ h.pins ≠ 0 then a.1 else stPush a.1 k t pg h.vpool h.current
  queueDeaths (stPut s8 k t pg (h.va + 21) 1 0) k t h a.2

/-- The list of a waiting team has no edit under way, or cannot be read. -/
def editFree (s : State) (t : Team) : Bool :=
  match stPa s t.oid [] (waitField t.wait 0 10) with | some pa => decide (homeNat s (pa + 21) 1 % 2 = 0) | none => true

/-- An edit publishes its version and commits; a team that waits for another's edit issues again once EDIT is 0. -/
def execStitchEditPublish (core slot : Nat) (s : State) : Out :=
  .next (match waitingKey s core slot (waitsFor .edit) with
    | none => s
    | some k =>
      match s.team k with
      | none => s
      | some t =>
        match t.edit with
        | some x => goOn (publish s k t x) k x.dst x.result
        | none => if editFree s t then s.setTeam k { t with state := .ready } else s)

/-! ## sx.next and the stitch page-ins (R287, R288, R334) -/

/-- No leaf of a range is parked or BUSY, and no large leaf, valid or not, has tier 3 (R287). -/
def resident (s : State) (oid base n : Nat) : Bool :=
  (pageVas base n).all fun va =>
    match mapWalk s (ctxPart s oid) va 4 (rootOf s oid va) with
    | .entry 4 _ e => !(pteV e && (decide (pteTier e = 3) || pteBusy e))
    | .entry 3 _ e => !((pteV e || pteFT e) && pteL e && decide (pteTier e = 3))
    | _ => true

/-- The fields of a cursor that the part writes. -/
def setCursor (s : State) (g core c scan issued : Nat) : State := spWriteNat (spWriteNat s g core (c + 8) 2 scan) g core (c + 10) 2 issued

/-- sx.next returns a result; a piece is an acquire (R334). -/
def nextDone (s : State) (k : Nat) (t : Team) (d : Opd) (status piece : Nat) : Res :=
  .commit (writeS (clearWait (if status = 0 then acquire s k t 2 else s) k) k d (BitVec.ofNat 64 (piece + status * 2 ^ 62)))

/-- What a call of sx.next knows of its cursor and version. -/
structure NextArgs where
  cursor : Nat
  taken : Nat
  total : Nat
  size : Nat
  nb : Bool
  dst : Opd

/-- The scan of R287: pieces that are not resident are queued, in order, once the scan has ended. -/
def nextScan (k : Nat) (t : Team) (m : Mask) (a : NextArgs) (refs : List (Nat × Nat)) :
    Nat → Nat → Nat → List SxPage → State → Table Nat → Res
  | 0, _, _, _, s, _ => .commit s
  | fuel + 1, scan, issued, queued, s, pg =>
    let core := keyCore k
    let note := fun (st : State) (sc : Nat) => { setCursor st t.gang core a.cursor sc issued with sxPages := st.sxPages ++ queued }
    if scan < refs.length ∧ (issued + 2 ^ 16 - a.taken) % 2 ^ 16 < 64 then
      let p := (refs.getD scan (0, 0)).1
      reachAll s k t m [(xva p, 64, accR)] pg fun s1 pg1 =>
        let base := xva (pieceNat s1 t.oid pg1 p 0 8)
        let n := a.size * refLen refs a.total scan
        if resident s1 t.oid base n then nextDone (note s1 (scan + 1)) k t a.dst 0 scan
        else
          nextScan k t m a refs fuel (scan + 1) ((issued + 1) % 2 ^ 16)
            (queued ++ [{ cluster := clusterOf core, oid := t.oid, team := k, gang := t.gang, core := core, cursor := a.cursor, piece := scan,
                          prec := xva p, base := base, len := n }]) s1 pg1
    else
      let s1 := note s scan
      if refs.length ≤ scan ∧ issued = a.taken then nextDone s1 k t a.dst 2 0
      else if a.nb then nextDone s1 k t a.dst 1 0
      else waitWith s1 k .next (waitMake [(0, a.cursor), (6, Opd.code a.dst)])

/-- The version of a token that has been validated: its record and header reached, with no more checks (R287). -/
def tokenAgain (s : State) (k : Nat) (t : Team) (m : Mask) (tok : W64) (go : State → SVer → Res) : Res :=
  let va := extVA (tok &&& ~~~ 0xfff#64)
  reachVa s k t m 4096 64 accR va fun s1 pa =>
    let f := fun (o n : Nat) => homeNat s1 (pa + o) n
    reachVa s1 k t m 128 128 accR (xva (f 0 8)) fun s2 pb =>
      let h := stHdr s2 (xva (f 0 8)) pb
      go s2 { va := va, total := f 8 8, count := f 16 2, pins := if f 28 1 = 1 then h.pins else f 24 4, hdr := h }

/-- The team has been woken in its sx.next of a cursor, whose token was validated before it waited (R287). -/
def nextWoken (t : Team) (c : Nat) : Bool := decide (t.waitKind = .next ∧ waitField t.wait 0 4 = c)

/-- sx.next. The reserved bytes 16 to 63 of a cursor are not looked at (log entry 66). -/
def execSxNext (f : VR) (s : State) : Out :=
  .next (issue (.sxNext f) s (onceLeft f.g fun k t s =>
    let m := resumedLanes t f.g
    let core := keyCore k
    let c := offS s k t f.a
    let rd := fun (o n : Nat) => spNat s t.gang core (c + o) n
    if c % 64 ≠ 0 then teamTrap s t f.g cMisalign (BitVec.ofNat 64 c)
    else if spAlloc s t < c + 192 then teamTrap s t f.g cScratch (BitVec.ofNat 64 c)
    else if peerHold s k then .stall s
    else
      let tok := BitVec.ofNat 64 (rd 0 8)
      let taken := rd 14 2
      let scan := fun (st : State) (pg : Table Nat) (total size : Nat) (refs : List (Nat × Nat)) =>
        if taken ≠ rd 12 2 then
          let e := rd (64 + 2 * (taken % 64)) 2
          nextDone (spWriteNat st t.gang core (c + 14) 2 ((taken + 1) % 2 ^ 16)) k t f.d (if e.testBit 15 then 3 else 0) (e % 2 ^ 13)
        else
          nextScan k t m { cursor := c, taken := taken, total := total, size := size, nb := f.m.getLsbD 0, dst := f.d } refs
            (refs.length + 2) (rd 8 2) (rd 10 2) [] st pg
      if tok = 0 then scan s [] 0 1 []
      else
        stopOr s k (match peekVer (drain s k t) t.oid tok with | some v => wordsSnare s k t m (verWords v true) | none => none) <|
        (if nextWoken t c then tokenAgain s k t m tok else tokenFront s k t m 0 tok) fun s1 v => refsFront s1 k t m v.va v.count fun s2 pg refs => scan s2 pg v.total v.hdr.size refs))

/-- The code under which the FIFO's page-ins are told from the copy engine's other ones; its byte is the engine's (R248). -/
def stitchCode : Nat := 2 ^ 8

/-- What the engine's work on a piece comes to: it waits for a leaf, ends, or fails after its record. -/
inductive SxEnd where
  | wait
  | done
  | failed
  deriving DecidableEq, Repr

/-- The pages of a queued piece, ascending: PageIn runs on each parked leaf, BUSY leaves are awaited, and a page-in that has failed, a
parked leaf out of the tier-2 segment, a MALFORMED leaf or an uncorrectable error fails the piece (R241, R288). -/
def sxPagesIn (x : SxPage) : List Nat → State → State × SxEnd
  | [], s => (s, .done)
  | va :: r, s =>
    let p := ctxPart s x.oid
    let fail := fun (reason : Nat) (e : W64) => (engineRecord s p x.oid va reason 0 0 e 0, SxEnd.failed)
    match mapWalk s p va 4 (rootOf s x.oid va) with
    | .uncorr => fail rUncorrTable 0
    | .bad => fail rMalformed 0
    | .entry level q e =>
      if level < 3 then sxPagesIn x r s
      else
        match if level = 4 ∧ pteL e = true ∧ (pteV e || pteFT e) = true then .fail rMalformed e else leafResult s p va 0 q e (decide (level = 3)) with
        | .busy _ _ => (s, .wait)
        | .parked _ _ =>
          let mine := failsFor q x.oid x.cluster stitchCode
          if s.pageFails.any mine then (dropPageFails s mine, .failed)
          else (wantPageIn s x.cluster x.oid q e va 0 none 0 stitchCode, .wait)
        | .fail reason _ => if reason = rMalformed ∨ (reason = rSegment ∧ pteTier e = 3) then fail reason e else sxPagesIn x r s
        | .ok _ _ _ _ => sxPagesIn x r s

/-- A word that an engine reaches for a context. Its page is paged in first; a word that does not translate is recorded and
skipped (R348). -/
inductive EWord where
  | at (pa : Nat)
  | wait
  | skip
  deriving DecidableEq, Repr

def engineWord (s : State) (cl oid va acc : Nat) : State × EWord :=
  let x := engineXlat s 0 cl oid va acc
  let skip := fun (reason : Nat) (e : W64) => (engineRecord x.1 (ctxPart s oid) oid va reason acc 0 e 0, EWord.skip)
  match x.2 with
  | .ok pa _ e _ => if isPeer pa then skip rSegment e else (x.1, .at pa)
  | .fail reason e => skip reason e
  | _ => (x.1, .wait)

/-- The engine's store at a word. -/
def engineStore (s : State) (w : EWord) (off n v : Nat) : State := match w with | .at pa => homePutNat s none (pa + off) n v | _ => s

/-- An arrival entry and `arrived`, one release at the bank; teams that wait on the cursor issue again. -/
def arrive (s : State) (x : SxPage) (failed : Bool) : State :=
  let n := spNat s x.gang x.core (x.cursor + 12) 2
  let s1 := spWriteNat s x.gang x.core (x.cursor + 64 + 2 * (n % 64)) 2 (x.piece + if failed then 2 ^ 15 else 0)
  let s2 := spWriteNat s1 x.gang x.core (x.cursor + 12) 2 ((n + 1) % 2 ^ 16)
  { s2 with teams := s2.teams.map fun e =>
      if e.2.gang = x.gang ∧ keyCore e.1 = x.core ∧ e.2.waitKind = .next ∧ e.2.state = .waiting ∧ waitField e.2.wait 0 4 = x.cursor
      then (e.1, { e.2 with state := .ready }) else e }

/-- The copy engine of the cluster at State.sel runs the head of its FIFO of stitch page-ins. -/
def execStitchPageIn (s : State) : Out :=
  .next (match s.sxPages.find? fun x => decide (x.cluster = clusterOf s.sel.core) with
    | none => s
    | some x =>
      let a := sxPagesIn x (pageVas x.base x.len) s
      let pop := fun (st : State) => { st with sxPages := st.sxPages.erase x }
      match a.2 with
      | .wait => a.1
      | .failed => arrive (pop a.1) x true
      | .done =>
        let w := engineWord a.1 x.cluster x.oid (x.prec + 16) accW
        if w.2 = .wait then w.1 else arrive (pop (engineStore w.1 w.2 0 1 0)) x false)

/-! ## Deaths (R283, R336) -/

/-- A word that holds an uncorrectable error is recorded and skipped (R256). -/
def goodWord (s : State) (oid va n : Nat) (w : EWord) : State × EWord :=
  match w with
  | .at pa => if badAt s pa n then (engineRecord s (ctxPart s oid) oid va rUncorrData accR 0 0 0, .skip) else (s, w)
  | _ => (s, w)

/-- The words of the piece pool that a death pushes to: descriptor, then the next array entry. -/
def deathPush (s : State) (x : Death) : State × EWord × EWord :=
  let d0 := engineWord s x.cluster x.oid (xva x.pool) (accR + accW)
  let d := goodWord d0.1 x.oid (xva x.pool) 32 d0.2
  match d.2 with
  | .at pa =>
    if homeNat d.1 (pa + 16) 8 ≤ homeNat d.1 pa 8 then (d.1, d.2, .skip)
    else
      let va := xva (homeNat d.1 (pa + 8) 8 + 8 * homeNat d.1 pa 8)
      let q := engineWord d.1 x.cluster x.oid va accW
      let y := goodWord q.1 x.oid va 8 q.2
      (y.1, d.2, y.2)
  | w => (d.1, w, .skip)

/-- The record pushed to the piece pool, the count last. -/
def deathPushed (s : State) (x : Death) (d q : EWord) : State :=
  match d, q with
  | .at pa, .at qa => homePutNat (homePutNat s none qa 8 x.prec) none pa 8 (homeNat s pa 8 + 1)
  | .at pa, .skip =>
    if homeNat s (pa + 16) 8 ≤ homeNat s pa 8 then
      pageRecord s (ctxPart s x.oid) x.oid (xva x.prec) rPoolFull 8 0xff 0 0 x.prec
    else s
  | _, _ => s

/-- The pages of [base, base + e·capacity): the first, and their bytes (R254, R283). -/
def deathRange (b n : Nat) : Nat × Nat := (b / 2 ^ 18 * 2 ^ 18, (pageVas b n).length * 2 ^ 18)

/-- The copy engine of the cluster at State.sel processes a dead piece: the invalidation of its pages and their frames, used := 0, push.
A leaf that an uncorrectable error hides keeps what it holds, with a record (R247, R256). -/
def execPieceDeath (s : State) : Out :=
  .next (match s.deaths.find? fun x => decide (x.cluster = clusterOf s.sel.core) with
    | none => s
    | some x =>
      let pop := fun (st : State) => { st with deaths := st.deaths.erase x }
      let p := ctxPart s x.oid
      let w0 := engineWord s x.cluster x.oid (xva x.prec) accR
      let rec0 := goodWord w0.1 x.oid (xva x.prec) 64 w0.2
      match rec0.2 with
      | .wait => rec0.1
      | .skip => pop rec0.1
      | .at pa =>
        if homeNat rec0.1 (pa + 17) 1 % 2 = 0 then pop rec0.1
        else
          let b := xva (homeNat rec0.1 pa 8)
          let n := x.esize * homeNat rec0.1 (pa + 8) 4
          let r := deathRange b n
          let used := engineWord rec0.1 x.cluster x.oid (xva x.prec) (accR + accW)
          let pushed := if used.2 = .wait ∨ rangeBusy s x.oid r.1 r.2 = true then (used.1, .wait, .wait) else deathPush used.1 x
          if pushed.2.1 = .wait ∨ pushed.2.2 = .wait then pushed.1
          else
            let vas := pageVas b n
            let s0 := (leafErrs pushed.1 x.oid vas).foldl (fun st va => engineRecord st p x.oid va rUncorrTable accR 0 0 0) pushed.1
            let fr := freeLeaves s0 none x.oid vas
            let s1 := shootRange (performRange (shootRange fr.1 x.oid r.1 r.2) x.oid r.1 r.2) x.oid r.1 r.2
            let who : Who := { oid := x.oid, va := 0, acc := 8, core := 0xff, slot := 0 }
            let s2 := doPushes s1 p who { pushes := fr.2.map fun y => (pagePool s1 p y.1, y.2), frames := fr.2.length, version := none, fault := none, fmt := none }
            pop (deathPushed (engineStore s2 used.2 12 4 0) x pushed.2.1 pushed.2.2))

end Sys2Proof.Machine
end

