-- ==== Sys2Proof/Machine/History.lean ====
section
/-! DEFINITION. The history-bank instructions, opcodes 0x300 to 0x306 (R85 to R87). -/

namespace Sys2Proof.Machine

/-- The bank on which a team's hb instruction acts: that of its core's active control bank. -/
def teamHist (s : State) (k : Nat) : Hist := (s.core (keyCore k)).activeBank.hist

def modHist (s : State) (k : Nat) (f : Hist → Hist) : State :=
  let c := s.core (keyCore k)
  s.setCore (keyCore k) (c.setBank c.active { c.activeBank with hist := f c.activeBank.hist })

/-- The image of the bank as the part writes it (R76). -/
def histImage (core : Nat) (b : Bank) : Nat := b.hist.image (b.owner.getD 0) core

/-- The entries of a table. -/
def hbEntries (tbl : Nat) : Nat :=
  match tbl with | 0 => 64 | 1 => 1024 | 2 => 256 | 3 => 32 | _ => 8

/-- Entry n of a table, or eight bytes of the header. -/
def hbEntry (s : State) (k tbl n : Nat) : Nat :=
  let h := teamHist s k
  match tbl with
  | 0 => h.sptEntry n
  | 1 => h.rstEntry n
  | 2 => h.cctEntry n
  | 3 => h.tstEntry n
  | _ => bitsAt (histImage (keyCore k) (s.core (keyCore k)).activeBank) (64 * n) 64

/-- An entry written, from a pair. -/
def hbPut (h : Hist) (tbl n v : Nat) : Hist :=
  match tbl with
  | 0 => h.setSpt n v
  | 1 => h.setRst n v
  | 2 => h.setCct n v
  | 3 => h.setTst n v
  | _ => h

/-- A pair of scalar registers written. -/
def writePair (s : State) (k : Nat) (d : Opd) (v : Nat) : State :=
  writeS (writeS s k d (BitVec.ofNat 64 (v % 2 ^ 64))) k (Opd.next d 1) (BitVec.ofNat 64 (v / 2 ^ 64))

def execHbRd (f : SYS) (s : State) : Out :=
  .next (issue (.hbRd f) s (once f.g fun k t s =>
    let n := (opdS s k t f.a).toNat
    let tbl := f.hi.toNat
    .commit (writePair s k f.d (if hbEntries tbl ≤ n then 2 ^ 128 - 1 else hbEntry s k tbl n))))

def execHbWr (f : SYS) (s : State) : Out :=
  .next (issue (.hbWr f) s (once f.g fun k t s =>
    let n := (opdS s k t f.a).toNat
    let tbl := f.hi.toNat
    let v := (opdS s k t f.d).toNat + (opdS s k t (Opd.next f.d 1)).toNat * 2 ^ 64
    .commit (if hbEntries tbl ≤ n then s else modHist s k fun h => hbPut h tbl n v)))

def execHbClr (f : SYS) (s : State) : Out :=
  .next (issue (.hbClr f) s (once f.g fun k _ s =>
    .commit (modHist s k fun h =>
      { freeze := if f.lo.getLsbD 4 then 0 else h.freeze, status := if f.lo.getLsbD 4 then 0 else h.status,
        spt := if f.lo.getLsbD 0 then 0 else h.spt, rst := if f.lo.getLsbD 1 then 0 else h.rst,
        cct := if f.lo.getLsbD 2 then 0 else h.cct, tst := if f.lo.getLsbD 3 then 0 else h.tst })))

def execHbFrz (f : SYS) (s : State) : Out :=
  .next (issue (.hbFrz f) s (once f.g fun k _ s => .commit (modHist s k fun h => { h with freeze := h.freeze ||| f.lo.extractLsb' 0 4 })))

def execHbThw (f : SYS) (s : State) : Out :=
  .next (issue (.hbThw f) s (once f.g fun k _ s => .commit (modHist s k fun h => { h with freeze := h.freeze &&& ~~~ f.lo.extractLsb' 0 4 })))

/-- The 2,048 bytes of an image translated for a team: alignment, pages, errors (R87). -/
def hbFront (s : State) (k : Nat) (t : Team) (g : Guard) (acc : Nat) (a : W64) (go : State → List (Nat × Nat × Nat) → Res) : Res :=
  withWide s k t (lanesOf t g) acc [(extVA a, 2048)] <|
  if a.toNat % 64 ≠ 0 then teamTrap s t g cMisalign a
  else if peerHold s k then .stall s
  else
    transferCheck s k t g acc (rowPages a 2048) fun s1 pages =>
      let ps := pagePieces pages a 2048
      let s2 := ps.foldl (fun st p => settlePhys st k p.2.1 p.2.2) s1
      match spanBad s2 ps with
      | some va =>
        teamTrap (pageRecord s2 (ctxPart s t.oid) t.oid va rUncorrData acc (keyCore k) (keySlot k) 0 0) t g cUncorrectable (BitVec.ofNat 64 va)
      | none => go s2 ps

def execHbLd (f : SYS) (s : State) : Out :=
  .next (issue (.hbLd f) s (once f.g fun k t s =>
    hbFront s k t f.g accR (opdS s k t f.a) fun s1 ps =>
      let img := leNat (spanBytes s1 ps)
      if imageValid img then .commit (writeS (modHist s1 k fun _ => imageHist img 0) k f.d 0) else .commit (writeS s1 k f.d 1)))

/-- The words of an image as stores on their way: virtual and physical address of each eight bytes. -/
def imageWords (ps : List (Nat × Nat × Nat)) : List (Nat × Nat) :=
  ps.flatMap fun p => (List.range (p.2.2 / 8)).map fun i => (p.1 + 8 * i, p.2.1 + 8 * i)

/-- Stores of eight bytes each that one store instruction sends, in order. -/
def postWords (s : State) (k num : Nat) : List (Nat × Nat) → Nat → State
  | [], _ => s
  | w :: r, v =>
    let (n, s1) := s.fresh
    let lw : LineWrite := { vline := w.1 / 128, pline := w.2 / 128, mask := 0, data := 0 }
    postWords { s1 with posts := s1.posts.put n { team := k, num := num, alloc := false, write := lw.add (w.1 % 128) (leBytes 8 v) } } k num r
      (v / 2 ^ 64)

def execHbSt (f : SYS) (s : State) : Out :=
  .next (issue (.hbSt f) s (once f.g fun k t s =>
    hbFront s k t f.g accW (opdS s k t f.a) fun s1 ps =>
      let s2 := ps.foldl (fun st p => setD (refreshPhys st k p.2.1 p.2.2) (clusterOf (keyCore k)) t.oid p.1) s1
      let img := histImage (keyCore k) (s2.core (keyCore k)).activeBank
      let (num, s3) := s2.fresh
      let s4 := s3.modTeam k fun u => { u with storesOut := u.storesOut ++ [num] }
      .commit (writeS (postWords s4 k num (imageWords ps) img) k f.d 0)))

end Sys2Proof.Machine
end

