-- ==== Sys2Proof/Machine/System.lean ====
section
/-! DEFINITION. Traps, handler mode, system registers, the host ring and the snares' report, opcodes 0x320 to 0x325 (R293 to R307). -/

namespace Sys2Proof.Machine

/-! ## trap (R303, R304) -/

def execTrapUser (f : SYS) (s : State) : Out :=
  .next (issue (.trapUser f) s (once f.g fun _ t s =>
    .trap s { bits := cUser, addr := f.lo.zeroExtend 64, mask := lanesOf t f.g, past := true }))

/-- S of the host ring whose header lies at a physical address. The header's reserved bytes 17 to 63 are not looked at (log entry 66). -/
def ringSize (s : State) (pa : Nat) : Nat := homeNat s (pa + 16) 1
/-- The ring has a legal size and room for an entry. -/
def ringRoom (s : State) (pa : Nat) : Bool :=
  let sz := ringSize s pa
  decide (4 ≤ sz ∧ sz ≤ 16 ∧ (homeNat s pa 8 + 2 ^ 64 - homeNat s (pa + 8) 8) % 2 ^ 64 < 2 ^ sz)
/-- The virtual address of the entry that the head names. -/
def ringEntryVa (s : State) (ringVa pa : Nat) : Nat := ringVa + 64 + 64 * (homeNat s pa 8 % 2 ^ ringSize s pa)

/-- The entry that a system call writes: the code, who calls, the resume point, and s0 to s5. -/
def callBytes (k : Nat) (t : Team) (code i : Nat) : List Byte :=
  layout 64 ([(0, 2, code), (2, 2, t.oid), (4, 1, keyCore k), (5, 1, keySlot k), (8, 8, (packEpc t.h i).toNat)] ++
    (List.range 6).map fun j => (16 + 8 * j, 8, (t.sreg j).toNat))

/-- The entry is written, then the head rises: sys-scope stores and a release. -/
def postCall (s : State) (k : Nat) (t : Team) (code i entryVa hdrPa entryPa : Nat) : State :=
  let s1 := homePut s (some t.kernel) entryPa (callBytes k t code i)
  let s2 := homePutNat s1 (some t.kernel) hdrPa 8 ((homeNat s1 hdrPa 8 + 1) % 2 ^ 64)
  { s2 with msix := s2.msix ++ [(ctxPart s t.oid, 1)] }.modTeam k fun u =>
    { u with callEntry := entryVa, wait := waitMake [(0, entryVa), (16, t.hostWord.toNat)] }

/-- A range of the host ring reached for a system call: where an address does not translate, whatever the reason, the trap raises PAGE
(R303). -/
def ringReach (s : State) (k : Nat) (t : Team) (m : Mask) (va n acc : Nat) (pg : Table Nat) (go : State → Table Nat → Res) : Res :=
  match (cutPages (n / 2 ^ 18 + 2) va n).findSome? fun c =>
      let x := xlat s (some (keyCore k)) (clusterOf (keyCore k)) t.oid c.1 acc
      match x.2 with
      | .fail r _ => if r = rUncorrTable then none else some (x.1, c.1, r)
      | .ok pa _ _ _ => if isPeer pa then some (x.1, c.1, rSegment) else none
      | _ => none with
  | some (s1, a, r) => .trap s1 { bits := cPage ||| cReason r, addr := BitVec.ofNat 64 a, mask := m }
  | none => reachAll s k t m [(va, n, acc)] pg go

/-- A call below 0x8000: the team is PARKED past its word; its record is posted when the ring has room. -/
def execTrapSystemCall (f : SYS) (s : State) : Out :=
  .next (issue (.trapSystemCall f) s (once f.g fun k t s =>
    let m := lanesOf t f.g
    let ring := xva (match s.ctx t.oid with | some c => c.hostRing | none => 0)
    if peerHold s k then .stall s
    else
      fenceWith s k t 2 3 fun s0 =>
        ringReach s0 k t m ring 64 (accR + accW) [] fun s1 pg =>
          let pa := (stPa s1 t.oid pg ring).getD 0
          let parked := fun (st : State) => st.modTeam k fun u => { u with state := .parked, waitKind := .call, hostWord := curWord t, hostHdr := curHdr t, hostMask := m, callEntry := 0, wait := waitMake [(16, (curWord t).toNat)] }
          if ringRoom s1 pa then
            let e := ringEntryVa s1 ring pa
            ringReach s1 k t m e 64 accW pg fun s2 pg2 =>
              let s3 := touchD (touchD s2 (clusterOf (keyCore k)) t.oid ring) (clusterOf (keyCore k)) t.oid e
              .park (postCall (parked s3) k { t with hostWord := curWord t } f.lo.toNat (t.i + 1) e pa ((stPa s3 t.oid pg2 e).getD 0))
          else .park (parked s1)))

/-- A word of the host ring reached for a team that is parked in its system call: a parked leaf is paged in, and a peer's window is no
ring. -/
def callXlat (s : State) (k : Nat) (t : Team) (va acc : Nat) : State × XRes :=
  let cl := clusterOf (keyCore k)
  let x := xlat s (some (keyCore k)) cl t.oid va acc
  match x.2 with
  | .ok pa _ e _ => if isPeer pa then (x.1, .fail rSegment e) else x
  | .parked q e => (wantPageIn x.1 cl t.oid q e va acc (some k) 0 0, x.2)
  | _ => x

/-- The trap of a parked call fails: its frame is that of its word, which the resume point has passed (R303). -/
def callFails (s : State) (k : Nat) (t : Team) (va reason : Nat) : State :=
  let bad := decide (reason = rUncorrTable ∨ reason = rUncorrData)
  let s1 := if bad then pageRecord s (ctxPart s t.oid) t.oid va reason (accR + accW) (keyCore k) (keySlot k) 0 0 else s
  deliverWait s1 k { t with i := t.i - 1, waitKind := .none, wait := 0 }
    { h := t.h, i := t.i - 1, inst := t.hostWord, hdr := t.hostHdr, cause := if bad then cUncorrectable else cPage ||| cReason reason,
      addr := BitVec.ofNat 64 va, mask := t.hostMask }

/-- A call that found its ring full is posted once there is room; an address that no longer translates raises PAGE then (R303). -/
def callPost (s : State) (k : Nat) (t : Team) (ring : Nat) : State :=
  let h := callXlat s k t ring (accR + accW)
  match h.2 with
  | .fail r _ => callFails h.1 k t ring r
  | .ok pa _ _ _ =>
    if badAt h.1 pa 64 then callFails h.1 k t ring rUncorrData
    else if ringRoom h.1 pa then
      let e := ringEntryVa h.1 ring pa
      let x := callXlat h.1 k t e accW
      match x.2 with
      | .fail r _ => callFails x.1 k t e r
      | .ok q _ _ _ =>
        let cl := clusterOf (keyCore k)
        postCall (touchD (touchD x.1 cl t.oid ring) cl t.oid e) k t (bitsAt t.hostWord.toNat 0 16) t.i e pa q
      | _ => x.1
    else h.1
  | _ => h.1

/-- A team that is parked in a system call: its record is posted once the ring has room; a reply gives D its value and the
team is READY. -/
def execSystemCallReply (core slot : Nat) (s : State) : Out :=
  .next (match waitingKey s core slot fun t => decide (t.waitKind = .call ∧ t.state = .parked) with
    | none => s
    | some k =>
      match s.team k with
      | none => s
      | some t =>
        let ring := xva (match s.ctx t.oid with | some c => c.hostRing | none => 0)
        if t.callEntry = 0 then callPost s k t ring
        else
          match stPa s t.oid [] t.callEntry with
          | none => s
          | some q =>
            if homeNat s (q + 6) 2 = 1 then
              match parse t.hostWord with
              | .trapSystemCall f =>
                let s1 := acquire (settlePhys s k q 64) k t 3
                (writeS s1 k f.d (BitVec.ofNat 64 (homeNat s1 (q + 16) 8))).modTeam k fun u =>
                  { u with state := .ready, waitKind := .none, wait := 0, callEntry := 0 }
              | _ => s
            else s)

/-! ## Handler mode (R297, R300, R301) -/

/-- A latched team takes its pipe's handler store. -/
def execHandlerEntry (core slot : Nat) (s : State) : Out := .next (tryEnter s (s.activeKey core slot))

def execRte (f : SYS) (s : State) : Out :=
  .next (issue (.rte f) s fun k t s => if t.handler then .done (returnFromHandler s k t false) else lateIllegal s t)

def execRteUp (f : SYS) (s : State) : Out :=
  .next (issue (.rteUp f) s fun k t s => if t.handler then .done (returnFromHandler s k t true) else lateIllegal s t)

/-- ILLEGAL_OPERAND of a user register that a scalar names (R301): its frame is that of a decode fault. -/
def lateOperand (s : State) (t : Team) : Res := .trap s { bits := cIllegalOperand, addr := wordAddr t.h t.i, mask := t.e }

/-- The number of the user register. -/
def namedCode (s : State) (k : Nat) (t : Team) (f : SYS) : Nat := if f.a.isN then f.hi.toNat else (opdS s k t f.a).toNat

/-- The number suits D and the declared counts. -/
def namedFits (s : State) (t : Team) (f : SYS) (n : Nat) (wr : Bool) : Bool :=
  let vr := match teamPkt s t with | some p => p.vregs | none => 256
  let sr := match teamPkt s t with | some p => p.sregs | none => 64
  match f.d with
  | .kv _ => decide (n < vr ∨ (320 ≤ n ∧ n ≤ (if wr then 326 else 327)))
  | .ks _ => decide (256 ≤ n ∧ n < 256 + sr)
  | _ => false

def execFrd (f : SYS) (s : State) : Out :=
  .next (issue (.frd f) s fun k t s =>
    let n := namedCode s k t f
    if !t.handler then lateIllegal s t
    else if !namedFits s t f n false then lateOperand s t
    else if 256 ≤ n ∧ n < 320 then .commit (if teamRuns t f.g then writeS s k f.d (t.sreg (n - 256)) else s)
    else if n < 256 then .commit (writeD s k (lanesOf t f.g) false f.d fun L => (laneV (t.vreg n) L).zeroExtend 64)
    else .commit (writeD s k (lanesOf t f.g) false f.d fun L => if (t.preg (n - 320)).getLsbD L then 1 else 0))

def execFwr (f : SYS) (s : State) : Out :=
  .next (issue (.fwr f) s fun k t s =>
    let n := namedCode s k t f
    let lanes := lanesOf t f.g
    if !t.handler then lateIllegal s t
    else if !namedFits s t f n true then lateOperand s t
    else if 256 ≤ n ∧ n < 320 then .commit (if teamRuns t f.g then s.setTeam k (t.setS (n - 256) (opdS s k t f.d)) else s)
    else if n < 256 then .commit (writeD s k lanes false (Opd.ofCode n) fun L => opd s k t false f.d L)
    else .commit (writeP s k lanes (Opd.ofCode n) (maskOf t.width fun L => (opd s k t false f.d L).getLsbD 0)))

/-! ## System registers (R295, R302) -/

/-- Who may access a register: 0 any team, 1 a team in handler mode, 2 a team of a context with SCHED. -/
def sysWho (n : Nat) : Nat := if n = 0 ∨ n = 9 then 0 else if n ≤ 8 then 1 else 2
/-- The register is read-only. -/
def sysRO (n : Nat) : Bool := decide ((2 ≤ n ∧ n ≤ 6) ∨ n = 8)
def sysAllowed (s : State) (t : Team) (n : Nat) : Bool :=
  match sysWho n with | 0 => true | 1 => t.handler | _ => teamSched s t

/-- The value of a 64-bit register. -/
def sysValue (s : State) (k : Nat) (t : Team) (n : Nat) : W64 :=
  match n with
  | 0 => t.fmode
  | 1 => t.epc
  | 2 => t.einst
  | 3 => t.ehdr
  | 4 => t.ecause
  | 5 => t.eaddr
  | 8 => t.epend
  | 9 => hentry s t
  | n => (s.core (keyCore k)).snares.get n 0

/-- The masks of %emask and %eexec. -/
def sysMask (t : Team) (n : Nat) : Mask := if n = 6 then t.emask else t.eexec

/-- A mask written to a predicate, all its bits. -/
def writeMask (s : State) (k : Nat) (o : Opd) (v : Mask) : State :=
  match o with
  | .p n => if n.val = 7 then s else s.modTeam k fun u => u.setP n.val v
  | _ => s

def execSysrd (f : SYS) (s : State) : Out :=
  .next (issue (.sysrd f) s (once f.g fun k t s =>
    let n := f.hi.toNat
    if !sysAllowed s t n then lateIllegal s t
    else if sysRegMask n then .commit (writeMask s k f.d (sysMask t n))
    else .commit (writeS s k f.d (sysValue s k t n))))

/-- A snare register of a core written; [43:32] of a control reads zero (R307). -/
def setSnare (s : State) (core n : Nat) (v : W64) : State :=
  let c := s.core core
  s.setCore core { c with snares := c.snares.put n (if 0x30 ≤ n then v &&& ~~~ BitVec.ofNat 64 (0xfff * 2 ^ 32) else v) }

def snHit (s : State) (core : Nat) : W64 := (s.core core).snares.get 0x3f 0
def setSnHit (s : State) (core : Nat) (v : W64) (key : Option Nat) : State :=
  let c := s.core core
  s.setCore core { c with snares := if v = 0 then c.snares.erase 0x3f else c.snares.put 0x3f v, hitKey := key }

/-- A write to %snhit: it acts on the team that the register reports, also after a swap (R307). -/
def writeSnHit (s : State) (core : Nat) (resume clear : Bool) : State :=
  let v := snHit s core
  if !v.getLsbD 63 || !(resume || clear) then s
  else
    let s1 := setSnHit s core 0 none
    match (s.core core).hitKey with
    | none => s1
    | some k => s1.modTeam k fun t =>
        if !t.held then t
        else if resume then { t with held := false, state := .ready, passSnare := some t.heldSnare } else { t with held := false }

/-- A writable 64-bit register written. -/
def sysWrite (s : State) (k : Nat) (t : Team) (n : Nat) (v : W64) : State :=
  match n with
  | 0 => s.modTeam k fun u => { u with fmode := v &&& 0x3fffb#64 }
  | 1 => s.modTeam k fun u => { u with epc := v }
  | 9 => match s.kernel t.kernel with | some kn => s.setKernel t.kernel { kn with hentry := v } | none => s
  | 0x3f => writeSnHit s (keyCore k) (v.getLsbD 62) (v.getLsbD 61)
  | n => setSnare s (keyCore k) n v

def execSyswr (f : SYS) (s : State) : Out :=
  .next (issue (.syswr f) s (once f.g fun k t s =>
    let n := f.hi.toNat
    if sysRO n || !sysAllowed s t n then lateIllegal s t
    else if sysRegMask n then .commit (s.modTeam k fun u => { u with eexec := opdP t f.a })
    else .commit (sysWrite s k t n (opdS s k t f.a))))

/-! ## Snare reports (R307), at the core of State.sel -/

/-- While VALID is 0, %snhit takes the hit of the lowest slot of the active bank that holds one. -/
def execSnhitReport (s : State) : Out :=
  .next (let core := s.sel.core
    if (snHit s core).getLsbD 63 then s
    else
      match (List.range 64).find? fun i => match s.team (s.activeKey core i) with | some t => t.held | none => false with
      | none => s
      | some i =>
        match s.team (s.activeKey core i) with
        | some t => setSnHit s core (BitVec.ofNat 64 (2 ^ 63 + i * 2 ^ 8 + t.heldSnare % 16)) (some (s.activeKey core i))
        | none => s)

def execSnhitResume (s : State) : Out := .next (writeSnHit s s.sel.core true false)
def execSnhitClear (s : State) : Out := .next (writeSnHit s s.sel.core false true)

end Sys2Proof.Machine
end

