-- ==== Sys2Proof/Machine/Queue.lean ====
section
/-! DEFINITION. Queues: reading them at READY, publication, commands, dependences, the task-scheduler window, completion and
queue faults (R88 to R98). -/

namespace Sys2Proof.Machine

/-! ## Reads for a context -/

/-- What a read of a command's bytes comes to. -/
inductive CRead where
  | got (bs : List Byte)
  /-- A leaf is BUSY, or a page-in is under way. -/
  | wait
  | page
  | uncorr

/-- Bytes read page by page; an uncorrectable error in them is recorded (R256). -/
def partReadAll (oid : Nat) : List (Nat × Nat) → State → State × CRead
  | [], s => (s, .got [])
  | (va, n) :: r, s =>
    let x := partXlat s oid va accR
    match x.2 with
    | .ok pa _ _ _ =>
      if isPeer pa then (x.1, .page)
      else if badAt x.1 pa n then (engineRecord x.1 (ctxPart s oid) oid va rUncorrData accR 0 0 0, .uncorr)
      else
        let b := partReadAll oid r x.1
        match b.2 with
        | .got bs => (b.1, .got (homeBytes x.1 pa n ++ bs))
        | y => (b.1, y)
    | .busy .. => (x.1, .wait)
    | .parked .. => (x.1, .wait)
    | .fail reason _ => (x.1, if reasonOf reason = rUncorrTable ∨ reasonOf reason = rUncorrData then .uncorr else .page)

def partRead (s : State) (oid va n : Nat) : State × CRead := partReadAll oid (cutPages (n / 2 ^ 18 + 2) va n) s

/-- n bytes as a walk for a read finds them, with no effect on the part: a look ahead. -/
def peekBytes (s : State) (oid va n : Nat) : PAt × List Byte :=
  match walk s oid va accR with
  | .ok pa _ _ _ => if isPeer pa || badAt s pa n then (.fail, []) else (.at pa, homeBytes s pa n)
  | .fail _ _ => (.fail, [])
  | _ => (.wait, [])

/-! ## The queues of a context -/

def QState.code : QState → Nat
  | .disabled => 0 | .idle => 1 | .running => 2 | .waiting => 3 | .faulted => 4 | .suspended => 5

def State.queue (s : State) (oid q : Nat) : Option Queue := (s.ctx oid).bind fun c => c.queues.find q
def modQueue (s : State) (oid q : Nat) (f : Queue → Queue) : State :=
  match s.ctx oid with
  | some c => s.setCtx oid { c with queues := c.queues.modify q f }
  | none => s

/-- A store of the part into a descriptor; one that is dropped at an uncorrectable error is recorded (R256). -/
def descStore (s : State) (oid : Nat) (x : Queue) (w : Nat × Nat × Nat) : State :=
  let r := homeWrite s none (x.descPa + w.1) (leBytes w.2.1 w.2.2)
  if r.2 then engineRecord r.1 (ctxPart s oid) oid (x.desc + w.1) rUncorrData accW 0 0 0 else r.1

/-- The fields of a queue's descriptor that are still to be written are written, in order, once it can be reached; they are lost where it
no longer translates (R89, R241, R246). -/
def payOwed (s : State) (oid q : Nat) : State :=
  let s1 := reachDesc s oid q
  match s1.queue oid q with
  | none => s1
  | some x =>
    if x.descPa ≠ noDesc then x.owed.foldl (fun st w => descStore st oid x w) (modQueue s1 oid q fun y => { y with owed := [] })
    else
      match (if x.descBad = descDead then PAt.fail else (partPa s1 oid x.desc (accR + accW)).2) with
      | .wait => s1
      | _ => modQueue s1 oid q fun y => { y with owed := [] }

/-- A field of a descriptor written by the part, after those it still owes: sys-scope releases (R89). -/
def putDesc (s : State) (oid q off n v : Nat) : State := payOwed (modQueue s oid q fun y => { y with owed := y.owed ++ [(off, n, v)] }) oid q

/-- The descriptor fields that the part owes a context's queues are written where they can be. -/
def payQueues (s : State) (oid : Nat) : State :=
  match s.ctx oid with
  | none => s
  | some c => (c.queues.filter fun q => !q.2.owed.isEmpty || decide (q.2.descPa = noDesc)).foldl (fun st q => payOwed st oid q.1) s

def setQState (s : State) (oid q : Nat) (st : QState) : State :=
  match s.queue oid q with
  | none => s
  | some x => if x.state = st then s else putDesc (modQueue s oid q fun y => { y with state := st }) oid q 25 1 st.code

/-- The read position and read count of a queue. -/
def setReadPos (s : State) (oid q pos count : Nat) : State :=
  putDesc (putDesc (modQueue s oid q fun y => { y with readPos := pos, readCount := count }) oid q 40 8 pos) oid q 48 8 count

/-- A context runs its queues in these states (R94). -/
def ctxRuns (c : Ctx) : Bool := decide (c.state = .ready ∨ c.state = .staged ∨ c.state = .active)

/-- A queue fault at an entry: the descriptor, the state, the record with the access and the engine that caused it, and the MSI-X message
(R95, R248, R314). -/
def faultQueueBy (s : State) (oid q code entry acc eng : Nat) : State :=
  let s1 := modQueue s oid q fun y => { y with fault := code, faultEntry := entry }
  let s2 := setQState (putDesc (putDesc s1 oid q 26 1 code) oid q 32 8 entry) oid q .faulted
  let p := ctxPart s oid
  let s3 := hostRecord s2 p { oid := oid, kind := 2, acc := acc, slot := eng, detail := [(32, 1, code), (40, 8, entry), (48, 2, q)] }
  { s3 with msix := s3.msix ++ [(p, 2)] }

/-- A fault of a queue's commands: a read of an entry caused it, or no access did. -/
def faultQueue (s : State) (oid q code entry : Nat) : State := faultQueueBy s oid q code entry (if code = 5 ∨ code = 6 then accR + 8 else 0) 0

/-! ## Reading the list at READY (R88, R308) -/

/-- A field of 8 bytes that only the part writes, as it reads it at READY: where it no longer holds what the part left there,
software has written it and its value is undefined (R89): a free value for each read (log entry 12). -/
def partField (bs : List Byte) (off va ord : Nat) (old : Option Queue) (left : Queue → Nat) : Nat :=
  let v := fieldOf bs off 8
  match old with
  | some o => if o.desc = va ∧ o.descPa ≠ noDesc ∧ v ≠ left o then Config.queueField ord off % 2 ^ 64 else v
  | none => v

/-- A queue of a descriptor as the part reads it, with tail values that the state already knows of. -/
def queueOf (pa va : Nat) (bs : List Byte) (old : Option Queue) (ord : Nat) : Queue :=
  let count := partField bs 48 va ord old Queue.readCount
  let tail := fieldOf bs 0 8
  let seen := match old with | some o => o.seen ++ o.pubs | none => []
  { desc := va, descPa := pa, prio := fieldOf bs 24 1 % 8, state := .disabled, fault := 0, faultEntry := 0, tail := tail,
    readPos := if count = 0 then fieldOf bs 16 8 else partField bs 40 va ord old Queue.readPos, readCount := count,
    completion := partField bs 8 va ord old Queue.completion, enabled := false,
    waits := (match old with | some o => o.waits | none => []),
    descBad := if bitsAt (fieldOf bs 24 1) 3 4 ≠ 0 ∨ fieldOf bs 27 5 ≠ 0 then 2 else if fieldOf bs 16 8 % 64 ≠ 0 then 3 else 0,
    added := (match old with | some o => o.added | none => []), pubs := [], seen := if seen.any fun x => decide (tail ≤ x.1) then seen else seen ++ [(tail, none, ord)],
    ended := (match old with | some o => o.ended | none => []), issued := (match old with | some o => o.issued | none => []), owed := [] }

/-- A queue of the list that the part cannot use. -/
def deadQueue (va : Nat) : Queue :=
  { desc := va, descPa := noDesc, prio := 0, state := .disabled, fault := 0, faultEntry := 0, tail := 0, readPos := 0, readCount := 0,
    completion := 0, enabled := false, pubs := [], seen := [], ended := [], issued := [], waits := [], descBad := descDead, added := [], owed := [] }

/-- The partition's quota of enabled queues admits one more (R308). -/
def quotaRoom (s : State) (p : Nat) : Bool := decide ((s.part p).qused < bitsAt (s.part p).queues.toNat 0 13)
def useQuota (s : State) (p : Nat) : State := let q := s.part p; s.setPart p { q with qused := q.qused + 1 }

/-- A queue that the quota admits becomes IDLE, with its read position written, or faults at its descriptor: a reserved bit of it or of
the list, or a misaligned first entry (R88, R89, R95). -/
def admitQueue (s : State) (oid q : Nat) : State :=
  match s.queue oid q with
  | none => s
  | some x =>
    let s1 := useQuota (modQueue s oid q fun y => { y with enabled := true }) (ctxPart s oid)
    if x.descBad ≠ 0 then faultQueue s1 oid q x.descBad x.readPos
    else setQState (setReadPos s1 oid q x.readPos x.readCount) oid q .idle

/-- A listed queue at READY: DISABLED, refused by the quota, or admitted. The part's fault fields are cleared. -/
def startQueue (s : State) (oid q ctl : Nat) : State :=
  let s0 := putDesc (putDesc s oid q 26 1 0) oid q 32 8 0
  if ctl < 128 then setQState (putDesc s0 oid q 25 1 0) oid q .disabled
  else if quotaRoom s (ctxPart s oid) then admitQueue s0 oid q
  else faultQueue s0 oid q 8 ((s.queue oid q).map (·.readPos) |>.getD 0)

/-- The descriptors of a list, reached one after the other: each one's address, or none where it cannot be used; false while one of them
waits for a page. -/
def descsAt (oid : Nat) : List Nat → State → State × Option (List (Nat × Option Nat))
  | [], s => (s, some [])
  | va :: r, s =>
    let x := if va % 64 ≠ 0 then (s, .fail) else partPa s oid va (accR + accW)
    let b := descsAt oid r x.1
    match x.2, b.2 with
    | .wait, _ => (b.1, none)
    | _, none => (b.1, none)
    | .at pa, some l => (b.1, some ((va, some pa) :: l))
    | .fail, some l => (b.1, some ((va, none) :: l))

/-- One descriptor of the list; a reserved byte of the list itself counts as the queue's (R88). -/
def readQueue (s : State) (oid i va : Nat) (pa : Option Nat) (listBad : Bool) (old : Option Queue) : State :=
  let put := fun (st : State) (x : Queue) => match st.ctx oid with
    | some c => st.setCtx oid { c with queues := c.queues.put i x }
    | none => st
  match pa with
  | none => put s (deadQueue va)
  | some pa =>
    let bs := homeBytes s pa 64
    let f := s.fresh
    let q := queueOf pa va bs old f.1
    let s1 := put f.2 { q with descBad := if listBad then 2 else q.descBad }
    if badAt s1 pa 64 then faultQueue (engineRecord s1 (ctxPart s oid) oid va rUncorrData accR 0 0 0) oid i 6 0
    else startQueue s1 oid i (fieldOf bs 24 1)

/-- What the part knows of a listed descriptor's queue, under whatever number it was listed before (R88). -/
def oldQueue (c : Ctx) (i va : Nat) : Option Queue :=
  match c.queues.find i with
  | some o => if o.desc = va then some o else (c.queues.find? fun q => decide (q.2.desc = va)).map (·.2)
  | none => (c.queues.find? fun q => decide (q.2.desc = va)).map (·.2)

/-- The number of a queue in a new list: none that a list can hold where its descriptor is no longer listed. -/
def newNumber (c : Ctx) (vas : List Nat) (i : Nat) : Nat :=
  match c.queues.find i with
  | none => i
  | some o =>
    if vas[i]? = some o.desc then i
    else match (List.range vas.length).find? fun j => decide (vas[j]? = some o.desc) with | some j => j | none => 2 ^ 16 + i

/-- The commands of a context go with their queues to the numbers of a new list (R88). -/
def renumber (s : State) (oid : Nat) (f : Nat → Nat) : State :=
  let s1 := { s with kernels := s.kernels.map fun (k : Nat × Kernel) => if k.2.oid = oid then (k.1, { k.2 with queue := f k.2.queue }) else k }
  match s1.ctx oid with
  | some c => s1.setCtx oid { c with window := c.window.map fun e => { e with queue := f e.queue } }
  | none => s1

/-- The list is still to be read, or has been. -/
def setListDue (s : State) (oid : Nat) (due : Bool) : State := match s.ctx oid with | some c => s.setCtx oid { c with listDue := due } | none => s

/-- The part reads the queue list and every listed descriptor (R88). A list that cannot be read lists no queue; while a leaf of them is
BUSY or a page-in is under way, nothing has been read and the part tries again (R241). -/
def readQueues (s : State) (oid : Nat) : State :=
  match s.ctx oid with
  | none => s
  | some c =>
    let va := xva c.queueList
    let none_ := fun (st : State) => match st.ctx oid with | some x => st.setCtx oid { x with queues := [], listDue := false } | none => st
    let hd := partRead s oid va 64
    match hd.2 with
    | .wait => setListDue hd.1 oid true
    | .got bs =>
      let n := Nat.min (fieldOf bs 0 2) 256
      let ls := partRead hd.1 oid (va + 64) (8 * n)
      (match ls.2 with
      | .wait => setListDue ls.1 oid true
      | .got ds =>
        let d := descsAt oid ((List.range n).map fun i => xva (fieldOf ds (8 * i) 8)) ls.1
        (match d.2 with
        | none => setListDue d.1 oid true
        | some l =>
          (List.range n).foldl (fun st i =>
            let x := l.getD i (0, none)
            readQueue st oid i x.1 x.2 (decide (fieldOf bs 2 62 ≠ 0)) (oldQueue c i x.1)) (renumber (none_ d.1) oid (newNumber c (l.map (·.1)))))
      | _ => none_ ls.1)
    | _ => none_ hd.1

/-! ## The head of a queue (R90, R91) -/

inductive Head where
  /-- No wholly published command. -/
  | empty
  | wait
  | cmd (bs : List Byte)
  | fault (code : Nat)

/-- The command at the read position. Its kind byte is the first of its bytes. -/
def headOf (s : State) (oid : Nat) (q : Queue) : State × Head :=
  if q.tail ≤ q.readCount then (s, .empty)
  else
    let va := xva q.readPos
    let a := partRead s oid va 64
    match a.2 with
    | .wait => (a.1, .wait)
    | .page => (a.1, .fault 5)
    | .uncorr => (a.1, .fault 6)
    | .got bs =>
      let kind := fieldOf bs 0 1
      if kind = 0 ∨ kind = 3 ∨ kind = 0xe then (a.1, .cmd bs)
      else if kind = 1 ∨ kind = 2 then
        if q.tail < q.readCount + 2 then (a.1, .empty)
        else
          let b := partRead a.1 oid va 128
          match b.2 with
          | .wait => (b.1, .wait)
          | .page => (b.1, .fault 5)
          | .uncorr => (b.1, .fault 6)
          | .got cs => (b.1, .cmd cs)
      else (a.1, .fault 1)

/-! ## Starting a command (R93, R96, R97, R98) -/

/-- The sequence numbers of a queue's commands that have been read and have not started; a launch starts with its first placed gang, a
WAIT when its dependences are met (R93, R94). -/
def unstarted (s : State) (oid qn : Nat) : List Nat :=
  (s.kernels.filterMap fun k => if k.2.oid = oid ∧ k.2.queue = qn ∧ (k.2.state = .read ∨ k.2.state = .admitted) then some k.2.seq else none) ++
  (match s.ctx oid with | some c => c.window.filterMap fun e => if e.queue = qn ∧ e.started = false then some e.seq else none | none => []) ++
  (match s.queue oid qn with | some q => q.waits.map (·.1) | none => [])

/-- A dependence: sequence number and queue number. -/
def depMet (s : State) (oid seq q : Nat) : Bool :=
  decide (q = 0xffff) || (match s.queue oid q with | some x => decide (seq ≤ x.completion) | none => false)

/-- A dependence names a queue at or above the list's count. -/
def depBad (s : State) (oid : Nat) (d : Nat × Nat) : Bool := decide (d.2 ≠ 0xffff) && (s.queue oid d.2).isNone

/-- The grid of a kernel has ended: it is RETIRED, or only the completion word has yet to cover its sequence number (R91, R99). -/
def gridOver (s : State) (k : Kernel) : Bool :=
  decide (k.state = .retired) || (match s.queue k.oid k.queue with | some q => q.ended.contains k.seq | none => false)

/-- The grid of a parent has ended. -/
def gridEnded (s : State) : Option Nat → Bool
  | none => true
  | some k => match s.kernel k with | some x => gridOver s x | none => true

/-- A region of a packet or card at an offset: base, length, intent. -/
def regionAt (bs : List Byte) (i : Nat) : Nat × Nat × Nat := (fieldOf bs i 8, fieldOf bs (i + 8) 6, fieldOf bs (i + 14) 1)
/-- The regions that a card uses. -/
def cardRegions (bs : List Byte) : List (Nat × Nat × Nat) := (List.range (fieldOf bs 3 1)).map fun i => regionAt bs (64 + 16 * i)
/-- The regions of a launch packet. -/
def packetRegions (bs : List Byte) : List (Nat × Nat × Nat) := [regionAt bs 96, regionAt bs 112]

/-- Two regions have a footprint edge: a byte in common, and a write intent. A region of length 0 overlaps nothing (R98). -/
def edge (a b : Nat × Nat × Nat) : Bool :=
  decide (0 < a.2.1 ∧ 0 < b.2.1) && overlaps a.1 a.2.1 b.1 b.2.1 && (decide (2 ≤ a.2.2) || decide (2 ≤ b.2.2))
def anyEdge (xs ys : List (Nat × Nat × Nat)) : Bool := xs.any fun a => ys.any fun b => edge a b

/-- One command was posted before another: an earlier tail advance, and below one tail advance an earlier entry (R93). -/
def postedBefore (o n order seq : Nat) : Bool := decide (o < order ∨ (o = order ∧ n < seq))

/-- The tail value that published the entries below n: its publisher and its order (R92, R97). -/
def publisher (q : Queue) (n : Nat) : Option Nat × Nat :=
  match q.seen.find? fun x => decide (n ≤ x.1) with | some x => x.2 | none => (none, 0)

/-- The published commands of a queue from a position on that the part has not read and that were posted before some order have no edge
with these regions; a page that is awaited, an entry that cannot be read and one of an unlisted kind hide what they and the entries behind
them hold (R95, R98, R194). -/
def aheadClear (s : State) (oid : Nat) (q : Queue) (order : Nat) (regions : List (Nat × Nat × Nat)) : Nat → Nat → Nat → Bool
  | 0, _, _ => true
  | fuel + 1, pos, count =>
    if q.tail ≤ count ∨ order ≤ (publisher q (count + 1)).2 then true
    else
      let a := peekBytes s oid (xva pos) 64
      match a.1 with
      | .fail => false
      | .wait => false
      | .at _ =>
        let kind := fieldOf a.2 0 1
        if kind = 0xe then aheadClear s oid q order regions fuel (fieldOf a.2 8 8) (count + 1)
        else if kind = 0 ∨ kind = 3 then aheadClear s oid q order regions fuel (pos + 64) (count + 1)
        else if kind ≠ 1 ∧ kind ≠ 2 then false
        else if q.tail < count + 2 ∨ order ≤ (publisher q (count + 2)).2 then true
        else
          let b := peekBytes s oid (xva (pos + 64)) 64
          match b.1 with
          | .fail => false
          | .wait => false
          | .at _ =>
            let bs := a.2 ++ b.2
            !anyEdge (if kind = 1 then packetRegions bs else cardRegions bs) regions && aheadClear s oid q order regions fuel (pos + 128) (count + 2)

/-- No command posted before this one and not yet complete has an edge with its regions: those in the window, those read, and those
published and not read yet (R98, R100, R194). -/
def edgesClear (s : State) (oid : Nat) (c : Ctx) (order seq : Nat) (regions : List (Nat × Nat × Nat)) : Bool :=
  (c.window.all fun e => e.done || !postedBefore e.order e.seq order seq || !anyEdge e.regions regions) &&
  (s.kernels.all fun k => decide (k.2.oid ≠ oid ∨ k.2.state ≠ .read) || !postedBefore k.2.order k.2.seq order seq || !anyEdge k.2.pkt.regions regions) &&
  (!(regions.any fun r => decide (0 < r.2.1)) ||
    c.queues.all fun q => decide (q.2.state = .disabled) || ((q.2.pubs.all fun p => decide (order ≤ p.2.2)) && aheadClear s oid q.2 order regions (q.2.tail - q.2.readCount) q.2.readPos q.2.readCount))

/-- The window has a free entry, and no earlier command that shares an edge is incomplete. -/
def windowRoom (s : State) (oid : Nat) (c : Ctx) (order seq : Nat) (regions : List (Nat × Nat × Nat)) : Bool :=
  decide ((c.window.filter fun e => e.started).length < 256) && edgesClear s oid c order seq regions

/-- CONC = 0: every earlier command of the queue has completed. CONC = 1: every earlier one has started (R93). -/
def concMet (s : State) (oid qn : Nat) (q : Queue) (conc : Bool) (seq : Nat) : Bool :=
  if conc then (unstarted s oid qn).all fun n => decide (seq ≤ n) else q.issued.all fun n => decide (seq ≤ n) || q.ended.contains n

/-- A command that has been read may start. A fault of its queue stops reading, not the commands read before it (R95). -/
def mayBegin (s : State) (oid qn seq order : Nat) (conc : Bool) (regions : List (Nat × Nat × Nat)) : Bool :=
  match s.ctx oid with
  | none => false
  | some c =>
    match c.queues.find qn with
    | none => false
    | some q => ctxRuns c && decide (q.state ≠ .disabled ∧ q.state ≠ .suspended) && concMet s oid qn q conc seq && windowRoom s oid c order seq regions

/-- The dependence and the parent of a launch let it start (R96, R97). A dependence on a queue that does not exist goes to the packet
check. -/
def launchDeps (s : State) (k : Kernel) : Bool :=
  (depMet s k.oid k.pkt.depSeq k.pkt.depQueue || depBad s k.oid (k.pkt.depSeq, k.pkt.depQueue)) && gridEnded s k.parent

/-- The start conditions of R100 on a kernel in READ. -/
def kernelReady (s : State) (k : Kernel) : Bool :=
  decide (k.state = .read) && mayBegin s k.oid k.queue k.seq k.order k.pkt.conc k.pkt.regions && launchDeps s k

/-- The start conditions of a job. -/
def jobReady (s : State) (oid : Nat) (e : Entry) : Bool :=
  !e.started && mayBegin s oid e.queue e.seq e.order (((e.card.getD 2 0).getLsbD 0)) e.regions

def queuePrio (s : State) (oid qn : Nat) : Nat := match s.queue oid qn with | some q => q.prio | none => 0

/-- Some other command that is ready to start comes first: a higher priority, then an earlier posting (R93). -/
def outranked (s : State) (prio order seq : Nat) : Bool :=
  let before := fun (p o n : Nat) => decide (prio < p) || (decide (p = prio) && postedBefore o n order seq)
  (s.kernels.any fun k => before (queuePrio s k.2.oid k.2.queue) k.2.order k.2.seq && kernelReady s k.2) ||
  (s.ctxs.any fun c => c.2.window.any fun e => before (queuePrio s c.1 e.queue) e.order e.seq && jobReady s c.1 e)

/-! ## Completion (R91) -/

/-- The kernel of a queue's command is RETIRED once the completion word covers its sequence number (R99). -/
def retireKernel (s : State) (oid qn seq : Nat) : State :=
  { s with kernels := s.kernels.map fun (k : Nat × Kernel) => if k.2.oid = oid ∧ k.2.queue = qn ∧ k.2.seq = seq then (k.1, { k.2 with state := .retired }) else k }

/-- The completion word rises over completed commands, in order, n at most: over those below the read position, so never past a command
that faulted and is to be read again (R91, R95). -/
def raiseCompletion (oid qn : Nat) : Nat → State → State
  | 0, s => s
  | n + 1, s =>
    match s.queue oid qn with
    | none => s
    | some q =>
      match q.issued with
      | [] => s
      | x :: r =>
        if q.ended.contains x ∧ x ≤ q.readCount then
          raiseCompletion oid qn n (putDesc (modQueue (retireKernel s oid qn x) oid qn fun y => { y with issued := r, ended := y.ended.filter (· ≠ x), completion := x }) oid qn 8 8 x)
        else s

/-- The first command that has been read and has not started, if there is one, is held by more than the CONC rule: a dependence, a
parent, the footprint window or placement room (R94). -/
def headBlocked (s : State) (oid qn : Nat) : Option Bool :=
  match unstarted s oid qn, s.ctx oid with
  | n :: r, some c =>
    let seq := r.foldl Nat.min n
    some (match s.kernels.find? fun k => decide (k.2.oid = oid ∧ k.2.queue = qn ∧ k.2.seq = seq ∧ (k.2.state = .read ∨ k.2.state = .admitted)) with
    | some k => decide (k.2.state = .admitted) || !launchDeps s k.2 || !windowRoom s oid c k.2.order seq k.2.pkt.regions
    | none =>
      match c.window.find? fun e => decide (e.queue = qn ∧ e.seq = seq ∧ e.started = false) with
      | some e => !windowRoom s oid c e.order seq e.regions
      | none => true)
  | _, _ => none

/-- The state that a queue's entries give it: IDLE, RUNNING, WAITING, or FAULTED at a command that cannot be read (R94, R95). -/
def queueStep (s : State) (oid qn : Nat) : State :=
  match s.queue oid qn with
  | none => s
  | some q =>
    if q.state = .disabled ∨ q.state = .faulted ∨ q.state = .suspended then s
    else
      match headBlocked s oid qn with
      | some true => setQState s oid qn .waiting
      | some false => setQState s oid qn .running
      | none =>
        let h := headOf s oid q
        match h.2 with
        | .empty => setQState h.1 oid qn .idle
        | .wait => setQState h.1 oid qn .running
        | .cmd _ => setQState h.1 oid qn .running
        | .fault code => faultQueue h.1 oid qn code q.readPos

/-- The completion word of a queue rises as far as it may. -/
def completeAll (s : State) (oid qn : Nat) : State := raiseCompletion oid qn ((s.queue oid qn).map (·.issued.length) |>.getD 0) s

/-- The queues of a context that wait look at their heads again: what they wait for may have come (R94). -/
def stepWaiting (s : State) (oid : Nat) : State :=
  match s.ctx oid with
  | none => s
  | some c => if ctxRuns c then (c.queues.filter fun q => decide (q.2.state = .waiting)).foldl (fun st q => queueStep st oid q.1) s else s

/-- A command ends: it leaves the window, the completion word rises as far as it may, and queues that waited for it go on. -/
def commandDone (s : State) (oid qn seq : Nat) : State :=
  let s1 := modQueue s oid qn fun y => { y with ended := y.ended ++ [seq] }
  let s2 := match s1.ctx oid with
    | some c => s1.setCtx oid { c with window := c.window.filter fun e => !decide (e.queue = qn ∧ e.seq = seq) }
    | none => s1
  stepWaiting (queueStep (completeAll s2 oid qn) oid qn) oid

/-- A sequence number joins those of the commands read, in order. -/
def issueSeq (q : Queue) (n : Nat) : Queue :=
  if q.issued.contains n then q else { q with issued := (q.issued.filter fun x => decide (x < n)) ++ n :: q.issued.filter fun x => decide (n < x) }

/-- A command of n entries is read: the read position moves past it, and its sequence number is issued. -/
def takeCommand (s : State) (oid qn : Nat) (q : Queue) (n next : Nat) : State :=
  modQueue (setReadPos s oid qn next (q.readCount + n)) oid qn fun y => issueSeq y (q.readCount + n)

/-- A command is known to the part: it has started, waits to start, or has ended. Behind a command that faulted and is read again, such
commands are not read a second time (R92, R95). -/
def knownCommand (s : State) (oid qn : Nat) (c : Ctx) (q : Queue) (seq : Nat) : Bool :=
  q.ended.contains seq || (q.waits.any fun w => decide (w.1 = seq)) || (c.window.any fun e => decide (e.queue = qn ∧ e.seq = seq)) ||
    s.kernels.any fun k => decide (k.2.oid = oid ∧ k.2.queue = qn ∧ k.2.seq = seq ∧ k.2.state ≠ .retired)

/-- The commands of a queue from a sequence number on that have not started are as if they had not been read; the read position goes
back to the command that faulted (R95). -/
def unread (s : State) (oid qn seq addr : Nat) : State :=
  let s1 := { s with kernels := s.kernels.filter fun (k : Nat × Kernel) => !decide (k.2.oid = oid ∧ k.2.queue = qn ∧ k.2.state = KState.read ∧ seq ≤ k.2.seq) }
  match s1.ctx oid with
  | none => s1
  | some c =>
    let window := c.window.filter fun (e : Entry) => !decide (e.queue = qn ∧ seq ≤ e.seq ∧ e.started = false)
    let s2 := modQueue (s1.setCtx oid { c with window := window }) oid qn fun q =>
      { q with waits := q.waits.filter fun w => decide (w.1 < seq),
               issued := q.issued.filter fun n => decide (n < seq) || q.ended.contains n || window.any fun e => decide (e.queue = qn ∧ e.seq = n) }
    setReadPos s2 oid qn addr (seq - 2)

/-- A queue's event on a head command of a kind. -/
def onHead (s0 : State) (oid qn kind : Nat) (f : State → Queue → List Byte → State) : State :=
  let s := payQueues s0 oid
  match s.ctx oid with
  | none => s
  | some c =>
    match c.queues.find qn with
    | none => s
    | some q =>
      if !ctxRuns c || c.listDue || decide (q.state = .disabled ∨ q.state = .faulted ∨ q.state = .suspended) then s
      else
        let h := headOf s oid q
        match h.2 with
        | .empty => queueStep h.1 oid qn
        | .wait => h.1
        | .fault code => faultQueue h.1 oid qn code q.readPos
        | .cmd bs =>
          let n := if fieldOf bs 0 1 = 1 ∨ fieldOf bs 0 1 = 2 then 2 else 1
          if fieldOf bs 0 1 ≠ kind then h.1
          else if knownCommand h.1 oid qn c q (q.readCount + n) then
            queueStep (completeAll (setReadPos h.1 oid qn (if kind = 0xe then fieldOf bs 8 8 else q.readPos + 64 * n) (q.readCount + n)) oid qn) oid qn
          else f h.1 q bs

/-! ## NOP, LINK, WAIT (R90, R96) -/

def execNopCommand (oid queue : Nat) (s : State) : Out :=
  .next (onHead s oid queue 0 fun s q bs =>
    if fieldOf bs 1 63 ≠ 0 then faultQueue s oid queue 2 q.readPos
    else commandDone (takeCommand s oid queue q 1 (q.readPos + 64)) oid queue (q.readCount + 1))

def execLinkCommand (oid queue : Nat) (s : State) : Out :=
  .next (onHead s oid queue 0xe fun s q bs =>
    if fieldOf bs 1 7 ≠ 0 ∨ fieldOf bs 16 48 ≠ 0 then faultQueue s oid queue 2 q.readPos
    else if fieldOf bs 8 8 % 64 ≠ 0 then faultQueue s oid queue 3 q.readPos
    else commandDone (takeCommand s oid queue q 1 (fieldOf bs 8 8)) oid queue (q.readCount + 1))

/-- The dependence at an offset: sequence and queue. -/
def depAt (bs : List Byte) (i : Nat) : Nat × Nat := (fieldOf bs i 8, fieldOf bs (i + 8) 2)
/-- Its reserved bytes are not zero, or an empty one has a sequence number. -/
def depReserved (bs : List Byte) (i : Nat) : Bool :=
  decide (fieldOf bs (i + 10) 6 ≠ 0 ∨ (fieldOf bs (i + 8) 2 = 0xffff ∧ fieldOf bs i 8 ≠ 0))

/-- The first WAIT of a running queue that has been read and whose dependences are met. -/
def waitMet (s : State) (oid qn : Nat) : Option Nat :=
  match s.ctx oid with
  | none => none
  | some c =>
    match c.queues.find qn with
    | none => none
    | some q =>
      if !ctxRuns c || decide (q.state = .disabled ∨ q.state = .suspended) then none
      else (q.waits.find? fun w => w.2.all fun d => depMet s oid d.1 d.2).map (·.1)

/-- A WAIT that has been read completes when its dependences are met; otherwise the next WAIT is read, and kept with its dependences
(R92, R96). -/
def execWaitCommand (oid queue : Nat) (s : State) : Out :=
  .next (match waitMet s oid queue with
    | some n => commandDone (modQueue s oid queue fun q => { q with waits := q.waits.filter fun w => decide (w.1 ≠ n) }) oid queue n
    | none => onHead s oid queue 3 fun s q bs =>
      let at_ := [8, 24, 40]
      let ds := at_.map (depAt bs)
      if fieldOf bs 1 7 ≠ 0 ∨ fieldOf bs 56 8 ≠ 0 ∨ (at_.any (depReserved bs)) = true then faultQueue s oid queue 2 q.readPos
      else if ds.any (depBad s oid) then faultQueue s oid queue 7 q.readPos
      else
        let s1 := takeCommand s oid queue q 1 (q.readPos + 64)
        if ds.all fun d => depMet s oid d.1 d.2 then commandDone s1 oid queue (q.readCount + 1)
        else queueStep (modQueue s1 oid queue fun y => { y with waits := y.waits ++ [(q.readCount + 1, ds)] }) oid queue)

/-! ## Launch packets (R97) -/

/-- A region outside its limits. One of intent 0 with a base or a length is outside them: the spec does not say whether it is RESERVED
instead (log entry 71). -/
def regionBad (r : Nat × Nat × Nat) : Bool := decide (2 ^ 64 < r.1 + r.2.1 ∨ 3 < r.2.2 ∨ (r.2.2 = 0 ∧ (r.1 ≠ 0 ∨ r.2.1 ≠ 0)))

def packetOf (bs : List Byte) : Packet :=
  let b := fieldOf bs
  { conc := decide (b 1 1 % 2 = 1), digest := (b 1 1).testBit 1, fuse := (b 1 1).testBit 2,
    polTeam := bitsAt (b 2 1) 0 2, polGang := bitsAt (b 2 1) 2 2, polKernel := bitsAt (b 2 1) 4 2,
    teams := b 3 1, width := b 4 2, vregs := b 6 2, entry := BitVec.ofNat 64 (b 8 8),
    nx := b 16 4 + 1, ny := b 20 2 + 1, nz := b 22 2 + 1, scratch := b 24 4, sregs := b 28 1, stages := b 29 1, stageMap := b 32 6,
    fmode := b 40 2, args := BitVec.ofNat 64 (b 48 8), digestRec := b 56 8, depSeq := b 64 8, depQueue := b 72 2,
    regions := packetRegions bs }

/-- The stage of a team in the stage map. -/
def stageOf (p : Packet) (t : Nat) : Nat := bitsAt p.stageMap (3 * t) 3

/-- A reserved field of a packet is not zero. -/
def packetReserved (bs : List Byte) (p : Packet) : Bool :=
  let b := fieldOf bs
  decide (8 ≤ b 1 1 ∨ 64 ≤ b 2 1 ∨ b 30 2 ≠ 0 ∨ b 38 2 ≠ 0 ∨ b 42 6 ≠ 0 ∨ b 80 16 ≠ 0 ∨ bitsAt p.fmode 13 3 ≠ 0 ∨ bitsAt p.fmode 2 1 ≠ 0 ∨
    b 111 1 ≠ 0 ∨ b 127 1 ≠ 0 ∨ p.stageMap / 2 ^ (3 * p.teams) ≠ 0) ||
  (!p.digest && decide (p.digestRec ≠ 0)) || depReserved bs 64

/-- A field of a packet outside its limits. -/
def packetLimit (p : Packet) : Bool :=
  let inside :=
    decide (1 ≤ p.teams ∧ p.teams ≤ 16 ∧ (p.width = 32 ∨ p.width = 64 ∨ p.width = 128 ∨ p.width = 256 ∨ p.width = 512 ∨ p.width = 1024) ∧
      1 ≤ p.vregs ∧ p.vregs ≤ 256 ∧ p.entry.toNat % 8 = 0 ∧ p.nx ≤ 2 ^ 31 ∧ p.scratch % 64 = 0 ∧ p.scratch ≤ 786432 ∧ 1 ≤ p.sregs ∧
      p.sregs ≤ 64 ∧ 1 ≤ p.stages ∧ p.stages ≤ 8 ∧ p.digestRec % 64 = 0)
  !inside || ((List.range p.teams).any fun t => decide (p.stages ≤ stageOf p t)) || p.regions.any regionBad

/-- The first code that applies in the order of R95, or 0. -/
def packetCode (s : State) (oid : Nat) (bs : List Byte) (p : Packet) : Nat :=
  if packetReserved bs p then 2 else if packetLimit p then 3 else if depBad s oid (p.depSeq, p.depQueue) then 7 else 0

/-- A LAUNCH is read: its kernel is in READ. -/
def execLaunchCommand (oid queue : Nat) (s : State) : Out :=
  .next (onHead s oid queue 1 fun s q bs =>
    let p := packetOf bs
    let seq := q.readCount + 2
    let by_ := publisher q seq
    let f := s.fresh
    let k : Kernel := { oid := oid, queue := queue, seq := seq, state := .read, pkt := p, hentry := 0, parent := by_.1, nextGang := 0,
                        lastCluster := none, digest := 0, serial := false, order := by_.2, addr := q.readPos, bad := packetCode s oid bs p }
    queueStep ((takeCommand f.2 oid queue q 2 (q.readPos + 128)).setKernel f.1 k) oid queue)

/-! ## Job cards (R98, R236, R237, R321, R322) -/

/-- The parameters of a card keep the limits of its engine. A target of an engine 2 card that is not zero is outside them: the spec does
not say whether it is RESERVED instead (log entry 70). -/
def paramsGood (s : State) (bs : List Byte) : Bool :=
  let b := fieldOf bs
  match b 1 1 with
  | 0 =>
    decide (b 4 2 < 16 ∧ b 8 8 % 16 = 0 ∧ b 16 8 % 16 = 0 ∧ b 24 8 % 16 = 0 ∧ 16 ≤ b 24 8 ∧ b 24 8 ≤ 2 ^ 40 ∧ 1 ≤ b 32 4 ∧ b 36 4 = 0 ∧
      b 40 8 % 16 = 0 ∧ b 48 8 % 16 = 0 ∧ b 56 8 = 0)
  | 1 =>
    decide (b 4 2 < 4 ∧ b 8 1 ≤ 2 ∧ (b 9 1 = 2 ∨ b 9 1 = 3) ∧ b 12 4 % 4 = 0 ∧ 4 ≤ b 12 4 ∧ b 12 4 ≤ 65536 ∧ b 16 8 % 2 ^ b 9 1 = 0 ∧
      1 ≤ b 24 8 ∧ b 24 8 ≤ 2 ^ 32 ∧ b 32 8 % 4 = 0 ∧ b 40 8 % 4 = 0 ∧ b 12 4 ≤ b 40 8 ∧ b 48 8 % 4 = 0)
  | 2 =>
    decide (b 4 2 = 0 ∧ b 8 1 ≤ 3 ∧ b 9 1 < 16 ∧ b 10 6 = 0 ∧ b 40 8 % 4 = 0 ∧ b 52 12 = 0) &&
      (if b 8 1 = 3 then featOn s 7 && decide (b 16 8 % 64 = 0 ∧ b 32 8 % 64 = 0)
        else decide (b 16 8 % 16 = 0 ∧ b 24 8 % 16 = 0 ∧ b 32 8 % 16 = 0 ∧ 16 ≤ b 32 8 ∧ b 32 8 ≤ 2 ^ 40))
  | _ => false

/-- The fault code of a card, or 0. A non-zero value in the bytes that R237 has zero is RESERVED; R236 and R321 make it BAD_LIMIT. -/
def cardCode (s : State) (bs : List Byte) : Nat :=
  let n := fieldOf bs 3 1
  let used := fun (i : Nat) => decide (i < n)
  if 2 ≤ fieldOf bs 2 1 ∨ fieldOf bs 6 2 ≠ 0 ∨ (fieldOf bs 1 1 = 1 ∧ fieldOf bs 10 2 ≠ 0) ∨ ((List.range 4).any fun i =>
      if used i then decide (fieldOf bs (79 + 16 * i) 1 ≠ 0) else decide (fieldOf bs (64 + 16 * i) 16 ≠ 0)) = true then 2
  else if 4 < n ∨ paramsGood s bs = false ∨ ((List.range 4).any fun i => used i && (regionBad (regionAt bs (64 + 16 * i)) ||
      decide ((regionAt bs (64 + 16 * i)).2.2 = 0))) = true then 3
  else 0

/-- The job of a queue that starts next: the first that has been read and has not started, when it is ready and nothing outranks it. -/
def nextJob (s : State) (oid qn : Nat) : Option (Ctx × Entry) :=
  match s.ctx oid with
  | none => none
  | some c =>
    match c.window.find? fun e => decide (e.queue = qn) && !e.started with
    | none => none
    | some e => if jobReady s oid e && !outranked s (queuePrio s oid qn) e.order e.seq then some (c, e) else none

/-- A job that has been read and may start takes its entry of the window (R98). -/
def startJob (s : State) (oid qn : Nat) : State :=
  queueStep (match nextJob s oid qn with
    | some x => s.setCtx oid { x.1 with window := x.1.window.map fun y => if y = x.2 then { x.2 with started := true } else y }
    | none => s) oid qn

/-- A JOB that has been read starts when its queue, the window and its edges let it; otherwise the next JOB is read and enters the
window. -/
def execJobCommand (oid queue : Nat) (s : State) : Out :=
  .next (if (nextJob s oid queue).isSome then startJob s oid queue
    else onHead s oid queue 2 fun s q bs =>
      let code := cardCode s bs
      if code ≠ 0 then faultQueue s oid queue code q.readPos
      else
        let seq := q.readCount + 2
        let acked := match q.added.find? fun a => decide (a.1 = seq ∧ a.2.1 = bs) with | some a => a.2.2 | none => 0
        let e : Entry := { queue := queue, seq := seq, addr := q.readPos, kernel := none, card := bs, regions := cardRegions bs,
                           order := (publisher q seq).2, started := false, done := false, progress := acked, sentAt := none }
        let s1 := takeCommand s oid queue q 2 (q.readPos + 128)
        match s1.ctx oid with
        | some c => startJob (s1.setCtx oid { c with window := c.window ++ [e] }) oid queue
        | none => s1)

/-! ## Resuming a queue (R95) -/

/-- A tail value at or above the current one resumes a FAULTED queue: after QUOTA only if the quota now admits it; a fault of the
descriptor itself, which the part does not read again before the next ctx.load, is met again (R88, R95). -/
def resumeQueue (s : State) (oid qn : Nat) (q : Queue) : State :=
  let clear := fun (st : State) => putDesc (putDesc (modQueue st oid qn fun y => { y with fault := 0, faultEntry := 0 }) oid qn 26 1 0) oid qn 32 8 0
  if !q.enabled && !quotaRoom s (ctxPart s oid) then faultQueue s oid qn 8 q.readPos
  else if q.descBad ≠ 0 then (if q.enabled then faultQueue s oid qn q.descBad q.readPos else admitQueue s oid qn)
  else queueStep (setQState (if q.enabled then clear s else admitQueue (clear s) oid qn) oid qn .running) oid qn

end Sys2Proof.Machine
end

