-- ==== Sys2Proof/Machine/Context.lean ====
section
/-! DEFINITION. Contexts: records, the save area, staging, swaps, spills, save and load, opcodes 0x328 to 0x32a (R58 to R69,
R306). -/

namespace Sys2Proof.Machine

/-! ## The save area (R60) -/

def areaBytes : Nat := 0x8940000
def areaHist (c : Nat) : Nat := 0x1000 + 0x800 * c
def areaRecord (c slot : Nat) : Nat := 0x21000 + 0x100 * (64 * c + slot)
def areaCursor (j : Nat) : Nat := 0x121000 + 0x40 * j
def areaWindow (c : Nat) : Nat := 0x140000 + 0x220000 * c

/-- What a write to the save area comes to: it is done, a leaf of it is awaited (R241), or it has met a translation fault or an
uncorrectable error (R62). -/
inductive Put where
  | done
  | wait
  | fail
  deriving DecidableEq, Repr

/-- Bytes stored to pieces of a context's memory in tier 0 or 1. -/
def areaStores (oid : Nat) : List (Nat × Nat) → List Byte → State → State × Put
  | [], _, s => (s, .done)
  | (va, n) :: r, bs, s =>
    let x := partPa s oid va accW
    match x.2 with
    | .wait => (x.1, .wait)
    | .fail => (x.1, .fail)
    | .at pa =>
      if 2 ^ 48 ≤ pa then (x.1, .fail)
      else
        let w := homeWrite x.1 none pa (bs.take n)
        if w.2 then (engineRecord w.1 (ctxPart s oid) oid va rUncorrData accW 0 0 0, .fail) else areaStores oid r (bs.drop n) w.1

/-- Bytes written at an offset of a context's save area. -/
def areaWrite (s : State) (oid off : Nat) (bs : List Byte) : State × Put :=
  match s.ctx oid with
  | none => (s, .fail)
  | some c => areaStores oid (cutPages (bs.length / 2 ^ 18 + 2) (xva c.saveArea + off) bs.length) bs s

/-- Several writes, in order, up to the first that is not done. -/
def areaWrites (oid : Nat) : List (Nat × List Byte) → State → State × Put
  | [], s => (s, .done)
  | w :: r, s =>
    let a := areaWrite s oid w.1 w.2
    if a.2 = .done then areaWrites oid r a.1 else a

/-- Bytes read from a context's save area. -/
def areaRead (s : State) (oid off n : Nat) : State × Option (List Byte) :=
  match s.ctx oid with
  | none => (s, none)
  | some c =>
    let x := partRead s oid (xva c.saveArea + off) n
    match x.2 with
    | .got bs => (x.1, some bs)
    | _ => (x.1, none)

/-! ## States (R62) -/

def CState.code : CState → Nat
  | .saved => 0 | .ready => 1 | .staged => 2 | .active => 3 | .saving => 4 | .failed => 5

/-- The state word of a context's record is written, or is due while a leaf on the way is BUSY or parked (R62, R241, R246). -/
def writeWord (s : State) (oid : Nat) : State :=
  match s.ctx oid with
  | none => s
  | some c =>
    let a := areaWrite s oid 4 (leBytes 4 c.state.code)
    match a.1.ctx oid with
    | some d => a.1.setCtx oid { d with wordDue := decide (a.2 = .wait) }
    | none => a.1

/-- A state word that is due is written. -/
def payWord (s : State) (oid : Nat) : State := match s.ctx oid with | some c => if c.wordDue then writeWord s oid else s | none => s

/-- A context's state, with the record's state word. -/
def setCtxState (s : State) (oid : Nat) (st : CState) : State :=
  match s.ctx oid with
  | none => s
  | some c => if c.state = st then s else writeWord (s.setCtx oid { c with state := st }) oid

/-- The OID is live (R58). -/
def ctxLive (s : State) (oid : Nat) : Bool := match s.ctx oid with | some c => decide (c.state ≠ .saved) | none => false

/-- The shadow bank of a core holds a context, staged whole. -/
def stagedOn (s : State) (oid core : Nat) : Bool :=
  let c := s.core core
  let b := c.bank c.shadow
  decide (b.owner = some oid) && !b.staging && !b.spilling

def activeOn (s : State) (oid core : Nat) : Bool := decide ((s.core core).activeBank.owner = some oid)

/-- READY, STAGED or ACTIVE by the banks that the context is in. -/
def settleCtx (s : State) (oid : Nat) : State :=
  match s.ctx oid with
  | none => s
  | some c =>
    if ctxRuns c then
      setCtxState s oid (if (List.range 64).any (activeOn s oid) then .active else if (List.range 64).any (stagedOn s oid) then .staged else .ready)
    else s

def settleOpt (s : State) (o : Option Nat) : State := match o with | some oid => settleCtx s oid | none => s

/-! ## Control records and register windows (R60, R114) -/

def TState.code : TState → Nat
  | .free => 0 | .ready => 1 | .waiting => 2 | .sleeping => 3 | .parked => 4 | .stopped => 5 | .exiting => 6
def TState.ofCode (n : Nat) : TState :=
  match n with | 1 => .ready | 2 => .waiting | 3 => .sleeping | 4 => .parked | 5 => .stopped | 6 => .exiting | _ => .free

/-- What a team cut by a swap leaves in its control record: the flags and the yield of the clause that was cut, and as held causes its FP
report and the errors of its loads in flight (R63, R347). That the flags are set and the report held at the spill, inside or just after
a clause, is the model's reading (DEDUCED, log entry 59): R28 gives them at the end of the clause. -/
def cutTeam (t : Team) : Team :=
  let u := holdPoison (holdReport (setSticky t))
  { u with yielded := u.yielded || u.asks.any (·.yield), cct := none, clause := [] }

/-- The control record of a slot. -/
def recordOf (slot : Nat) (t : Team) : List Byte :=
  layout 256 [(0, 128, t.e.toNat), (128, 8, (packEpc t.h t.i).toNat), (136, 8, t.fmode.toNat), (144, 1, t.state.code), (145, 1, slot), (146, 1, t.stage),
    (147, 1, t.passOver + if t.yielded then 128 else 0), (148, 2, t.width), (150, 1, t.tix),
    (151, 1, (if t.handler then 1 else 0) + (if t.digestMode then 2 else 0) + 4 * t.policy), (152, 8, t.gidx), (160, 8, t.age),
    (168, 8, if t.state = .sleeping then t.wake else 0), (176, 8, t.digest.toNat), (184, 8, t.pending.toNat), (192, 4, t.sfwords.toNat),
    (196, 2, t.sffirst.toNat), (198, 2, t.sfcount), (200, 32, t.wait.toNat), (232, 1, (if t.held then 128 else 0) + t.heldSnare % 16),
    (240, 8, t.heldWord.toNat), (248, 8, t.heldAddr.toNat)]

/-- A team from its control record after ctx.load: a WAITING team, or one whose wait has ended and that has not issued since, issues its
instruction again with its wait record (R222); a PARKED one waits for its deadline, or for the reply that its record names. Reserved
bits of %fmode read zero (R25). Non-zero bytes 233 to 239 are ignored, since no rule says what they do: the model's choice (DESIGN CHOICE,
log entry 66). -/
def recordTeam (t : Team) (bs : List Byte) : Team :=
  let f := fieldOf bs
  let st := TState.ofCode (f 144 1)
  let wait := BitVec.ofNat 256 (f 200 32)
  let call := decide (st = .parked ∧ wait ≠ 0)
  let again := decide (st = .waiting ∨ (st = .ready ∧ wait ≠ 0))
  { t with
    e := BitVec.ofNat 1024 (f 0 128), h := epcH (BitVec.ofNat 64 (f 128 8)), i := epcI (BitVec.ofNat 64 (f 128 8)), fmode := BitVec.ofNat 64 (f 136 8) &&& 0x3fffb,
    state := if st = .waiting then .ready else st, stage := bitsAt (f 146 1) 0 3, passOver := bitsAt (f 147 1) 0 7, yielded := (f 147 1).testBit 7,
    width := f 148 2, tix := f 150 1, handler := false, digestMode := (f 151 1).testBit 1, policy := bitsAt (f 151 1) 2 2, gidx := f 152 8,
    age := f 160 8, wake := f 168 8, digest := BitVec.ofNat 64 (f 176 8), pending := BitVec.ofNat 64 (f 184 8), sfwords := BitVec.ofNat 32 (f 192 4),
    sffirst := BitVec.ofNat 16 (f 196 2), sfcount := f 198 2, wait := wait,
    waitKind := if again then .saved else if call then .call else if st = .parked then .deadline else .none,
    callEntry := if call then waitField wait 0 10 else 0, hostWord := if call then BitVec.ofNat 64 (waitField wait 16 8) else 0,
    atResume := true, held := (f 232 1).testBit 7, heldSnare := bitsAt (f 232 1) 0 4, heldWord := BitVec.ofNat 64 (f 240 8), heldAddr := BitVec.ofNat 64 (f 248 8) }

/-- A team whose registers the context's half still holds, from its control record (R69): its frame and handler store are in the core, and
the state, the wait, the digest and the held causes that have changed since the spill are the later ones. -/
def heldTeam (t : Team) (bs : List Byte) : Team :=
  let r := recordTeam t bs
  { r with
    handler := t.handler, state := t.state, waitKind := t.waitKind, wait := t.wait, callEntry := t.callEntry, hostWord := t.hostWord,
    digest := t.digest, digestQ := t.digestQ,
    pending := r.pending ||| t.pending, heldWord := if t.pending = 0 then r.heldWord else t.heldWord,
    heldAddr := if t.pending = 0 then r.heldAddr else t.heldAddr }

/-- The vector registers that a team declares. -/
def teamVregs (s : State) (t : Team) : Nat := match s.kernel t.kernel with | some k => k.pkt.vregs | none => 256

/-- The bytes of vector registers that a team needs (R64). -/
def vbytes (vregs width : Nat) : Nat := vregs * 4 * width

/-- The slots of a bank that hold a team, with the place of each team's vector registers in the register file: one after the
other in slot order from the bottom of the context's half (log entry 10). -/
def vplaces (s : State) (core bank : Nat) (whole : Bool) : List (Nat × Nat × Team) :=
  ((List.range 64).foldl (fun (acc : Nat × List (Nat × Nat × Team)) i =>
    match s.team (teamKey core bank i) with
    | some t => (acc.1 + vbytes (teamVregs s t) t.width, acc.2 ++ [(i, acc.1, t)])
    | none => acc) ((if whole then 0 else bank * 2 ^ 20), [])).2

/-- The register window of a bank's teams on a core, as writes to the save area. -/
def windowWrites (s : State) (core bank : Nat) (whole : Bool) : List (Nat × List Byte) :=
  let w := areaWindow core
  (vplaces s core bank whole).flatMap fun x =>
    ((List.range (teamVregs s x.2.2)).map fun r => (w + x.2.1 + r * 4 * x.2.2.width, leBytes (4 * x.2.2.width) (x.2.2.vreg r).toNat)) ++
    [(w + 0x200000 + 0x200 * x.1, (List.range 64).flatMap fun j => leBytes 8 (x.2.2.sreg j).toNat),
     (w + 0x208000 + 0x380 * x.1, (List.range 7).flatMap fun j => leBytes 128 (x.2.2.preg j).toNat)]

/-- The registers of a loaded team, read from its window. -/
def loadWindow (s : State) (oid core slot place : Nat) (t : Team) : State × Option Team :=
  let w := areaWindow core
  let n := teamVregs s t
  let v := areaRead s oid (w + place) (vbytes n t.width)
  let sr := areaRead v.1 oid (w + 0x200000 + 0x200 * slot) 512
  let pr := areaRead sr.1 oid (w + 0x208000 + 0x380 * slot) 896
  match v.2, sr.2, pr.2 with
  | some vb, some sb, some pb =>
    let t1 := (List.range n).foldl (fun (u : Team) r => u.setV r (BitVec.ofNat 32768 (fieldOf vb (4 * t.width * r) (4 * t.width)))) t
    let t2 := (List.range 64).foldl (fun (u : Team) r => u.setS r (BitVec.ofNat 64 (fieldOf sb (8 * r) 8))) t1
    (pr.1, some ((List.range 7).foldl (fun (u : Team) r => u.setP r (BitVec.ofNat 1024 (fieldOf pb (128 * r) 128))) t2))
  | _, _, _ => (pr.1, none)

/-- The gang of a saved team: one of the context with its index, and a team of that team index on that core and slot that has not left it. -/
def gangOf (s : State) (oid core slot gidx tix : Nat) : Option (Nat × Gang) :=
  s.gangs.find? fun g => decide (g.2.oid = oid ∧ g.2.g = gidx) && !g.2.gone.contains tix &&
    (match g.2.teams[tix]? with | some k => decide (keyCore k = core ∧ keySlot k = slot) | none => false)

/-- The gang's key of a team changed. -/
def rekey (s : State) (gid tix k : Nat) : State := { s with gangs := s.gangs.modify gid fun g => { g with teams := g.teams.set tix k } }

/-- The control records and registers of a core's slots from slot 64 − n on loaded into a bank; none when one cannot be
read. -/
def loadSlots (oid core bank : Nat) : Nat → Nat → State → State × Bool
  | 0, _, s => (s, true)
  | n + 1, place, s =>
    let slot := 63 - n
    let r := areaRead s oid (areaRecord core slot) 256
    match r.2 with
    | none => (r.1, false)
    | some bs =>
      if TState.ofCode (fieldOf bs 144 1) = .free then loadSlots oid core bank n place r.1
      else
        let t0 := recordTeam { Team.blank (fieldOf bs 148 2) with oid := oid } bs
        let k := teamKey core bank slot
        let g := gangOf r.1 oid core slot t0.gidx t0.tix
        let dead : Bool := match g with | some x => x.2.killed || (match r.1.kernel x.2.kernel with | some kn => decide (kn.state = .killed) | none => true) | none => false
        let t1 := match g with | some x => { t0 with gang := x.1, kernel := x.2.kernel, state := if dead then .exiting else t0.state } | none => t0
        let w := loadWindow r.1 oid core slot place t1
        match w.2 with
        | none => (w.1, false)
        | some t2 =>
          let s1 := w.1.setTeam k t2
          let s2 := match g with | some x => rekey s1 x.1 t2.tix k | none => s1
          loadSlots oid core bank n (place + vbytes (teamVregs s2 t2) t2.width) s2

/-- The control records of the teams that a held half still has, from slot 64 − n on, read into the bank (R69); false while one cannot be
read. -/
def loadHeld (oid core bank : Nat) : Nat → State → State × Bool
  | 0, s => (s, true)
  | n + 1, s =>
    match s.team (teamKey core bank (63 - n)) with
    | none => loadHeld oid core bank n s
    | some t =>
      let r := areaRead s oid (areaRecord core (63 - n)) 256
      match r.2 with
      | none => (r.1, false)
      | some bs =>
        loadHeld oid core bank n (if TState.ofCode (fieldOf bs 144 1) = .free then r.1 else r.1.setTeam (teamKey core bank (63 - n)) (heldTeam t bs))

/-! ## Halves and banks (R64) -/

/-- The halves that a context takes with a bank of a core. -/
def halvesOf (c : Ctx) (core bank : Nat) : List Nat := if c.preempt then [2 * core + bank] else [2 * core, 2 * core + 1]

/-- Some context holds a half. -/
def halfHeld (s : State) (h : Nat) : Bool := s.ctxs.any fun c => c.2.halves.contains h

def setBankOf (s : State) (core b : Nat) (f : Bank → Bank) : State := let c := s.core core; s.setCore core (c.setBank b (f (c.bank b)))

def addHalves (s : State) (oid : Nat) (hs : List Nat) : State :=
  match s.ctx oid with
  | some c => s.setCtx oid { c with halves := c.halves ++ hs.filter fun h => !c.halves.contains h }
  | none => s
def dropHalves (s : State) (oid : Nat) (hs : List Nat) : State :=
  match s.ctx oid with
  | some c => s.setCtx oid { c with halves := c.halves.filter fun h => !hs.contains h }
  | none => s

/-- The teams of a bank leave State.teams. -/
def eraseBank (s : State) (core bank : Nat) : State :=
  { s with teams := s.teams.filter fun e => !decide (keyCore e.1 = core ∧ keyBank e.1 = bank) }

/-! ## ctx.swap (R69) -/

/-- Codes of R68. -/
def stOk : Nat := 0
def stBadState : Nat := 1
def stNotStaged : Nat := 2
def stBusy : Nat := 3
def stBadRecord : Nat := 4
def stOidLive : Nat := 5
def stDenied : Nat := 6
def stResidency : Nat := 7

/-- The active context of a core lets itself be swapped out, or the core is idle. -/
def outgoingOk (s : State) (core : Nat) : Bool :=
  match (s.core core).activeBank.owner with
  | none => true
  | some o => match s.ctx o with | some c => c.preempt | none => true

/-- The check of op 0 on one core: 0 or a code. Three points are the model's choice (DESIGN CHOICE, log entry 60): a core with a swap in
progress answers BUSY; a context with PREEMPT = 0 needs both halves of the core free, since it may occupy both (R64); and a context
with PREEMPT = 1 that still holds the other half of the core may take this one too, since R69 lets it pass. -/
def stageCheck (s : State) (oid core : Nat) : Nat :=
  match s.ctx oid with
  | none => stBadState
  | some c =>
    let k := s.core core
    let b := k.bank k.shadow
    if !ctxRuns c then stBadState
    else if b.owner.isSome || b.spilling || k.swap.isSome then stBusy
    else if c.halves.contains (2 * core + k.shadow) && c.preempt then 0
    else if ((halvesOf c core k.shadow).all fun h => !halfHeld s h) && (c.preempt || k.activeBank.owner.isNone) then 0
    else stResidency

/-- The check of op 1. A swap in progress on the core answers BUSY: the model's choice (DESIGN CHOICE, log entry 60). -/
def swapCheck (s : State) (oid core : Nat) : Nat :=
  if !stagedOn s oid core then stNotStaged
  else if (s.core core).swap.isSome then stBusy
  else if outgoingOk s core then 0 else stResidency

def chainCheck (s : State) (oid core : Nat) : Nat :=
  let n := stageCheck s oid core
  if n ≠ 0 then n else if outgoingOk s core then 0 else stResidency

/-- The check of op 3. A swap in progress on the core answers NOT_STAGED, since the shadow bank is about to leave: the model's choice
(DESIGN CHOICE, log entry 60). -/
def dropCheck (s : State) (oid core : Nat) : Nat := if stagedOn s oid core && (s.core core).swap.isNone then 0 else stNotStaged

/-- A staging starts on a core. With PREEMPT = 1 the half of the bank's number is taken besides one that the context still holds there
(log entry 60). -/
def startStage (s : State) (oid : Nat) (chain : Bool) (core : Nat) : State :=
  match s.ctx oid with
  | none => s
  | some c =>
    let b := (s.core core).shadow
    let held := c.preempt && c.halves.contains (2 * core + b)
    let s1 := setBankOf s core b fun _ => { Bank.empty with owner := some oid, staging := true, loadedHalf := !held, chain := chain }
    if held then s1 else addHalves s1 oid (halvesOf c core b)

/-- A swap request reaches a core: nothing of the outgoing context issues from here on. -/
def requestSwap (s : State) (core : Nat) (incoming : Option Nat) : State :=
  let c := s.core core
  s.setCore core { c with swap := some { start := s.cycle, begun := false, incoming := incoming } }

/-- The shadow bank of a core is freed without a spill; a half that its staging loaded is freed too. -/
def dropBank (s : State) (oid core : Nat) : State :=
  let k := s.core core
  let b := k.bank k.shadow
  match s.ctx oid with
  | none => s
  | some c =>
    let s1 := setBankOf s core k.shadow fun _ => Bank.empty
    if b.loadedHalf then eraseBank (dropHalves s1 oid (halvesOf c core k.shadow)) core k.shadow else s1

/-- The logical cores of a mask. -/
def maskCores (m : W64) : List Nat := (List.range 64).filter fun i => m.getLsbD i

/-- The status word of a failing core. -/
def ctxStatus (code core : Nat) : W64 := BitVec.ofNat 64 (code + core * 2 ^ 8)

/-- The issuer may act on a partition's contexts (R59). -/
def partAllowed (mine p : Nat) : Bool := decide (mine = 0 ∨ mine = p)

/-- A form of ctx.swap: SCHED, the OID, every core checked, then every core acted on. -/
def swapForm (i : Instr) (f : SYS) (check : State → Nat → Nat → Nat) (act : State → Nat → Nat → State) (s : State) : Out :=
  .next (issue i s (once f.g fun k t s =>
    let m := opdS s k t f.a
    let ow := opdS s k t (Opd.next f.a 1)
    let oid := ow.toNat
    if !teamSched s t || decide (2 ^ 12 ≤ oid) then lateIllegal s t
    else
      let cores := maskCores m
      if cores.isEmpty then .commit (writeS s k f.d 0)
      else if ctxLive s oid && !partAllowed (teamPart s t) (ctxPart s oid) then .commit (writeS s k f.d (ctxStatus stDenied 0))
      else
        match cores.find? fun c => decide (check s oid c ≠ 0) with
        | some c => .commit (writeS s k f.d (ctxStatus (check s oid c) c))
        | none => .commit (writeS (cores.foldl (fun st c => act st oid c) s) k f.d 0)))

def execCtxSwapStage (f : SYS) (s : State) : Out := swapForm (.ctxSwapStage f) f stageCheck (fun st oid c => startStage st oid false c) s
def execCtxSwap (f : SYS) (s : State) : Out := swapForm (.ctxSwap f) f swapCheck (fun st oid c => requestSwap st c (some oid)) s
def execCtxSwapChain (f : SYS) (s : State) : Out := swapForm (.ctxSwapChain f) f chainCheck (fun st oid c => startStage st oid true c) s
def execCtxSwapDrop (f : SYS) (s : State) : Out :=
  swapForm (.ctxSwapDrop f) f dropCheck (fun st oid c => settleCtx (dropBank st oid c) oid) s

/-! ## Staging (R69, R76) -/

/-- A staging load ends on the core of State.sel: the history bank's image and the control records, and when the half was free the
register window (R69). A load that does not translate is still under way. A chain over several cores requests the swap of each core when
its own staging has ended; R69 does not say whether the cores wait for each other (DESIGN CHOICE, log entry 69). -/
def execStagingComplete (s : State) : Out :=
  .next (let core := s.sel.core
    let k := s.core core
    let bn := k.shadow
    let b := k.bank bn
    match b.owner with
    | none => s
    | some oid =>
      if !b.staging then s
      else
        let img := areaRead s oid (areaHist core) 2048
        match img.2 with
        | none => img.1
        | some bs =>
          let whole := match s.ctx oid with | some c => !c.preempt | none => false
          let ls := if b.loadedHalf then loadSlots oid core bn 64 (if whole then 0 else bn * 2 ^ 20) img.1 else loadHeld oid core bn 64 img.1
          if !ls.2 then s
          else
            let s1 := setBankOf ls.1 core bn fun x => { x with hist := stageHist (leNat bs), staging := false }
            let s2 := settleCtx s1 oid
            if b.chain then requestSwap s2 core (some oid) else s2)

/-! ## Swaps (R63, R65) -/

/-- A team of the active bank is in handler mode or holds a latched frame (R306). -/
def handlersOn (s : State) (core bank : Nat) : Bool :=
  s.teams.any fun e => decide (keyCore e.1 = core ∧ keyBank e.1 = bank) && (e.2.handler || e.2.entering)

/-- A core whose bank other than the active one has a team of a SAVING context in handler mode, or with a latched frame: the bank it stood
in when the context was swapped out. Such a team has to be issued before the context is saved (R306). -/
def strayHandler (s : State) (core : Nat) : Option Nat :=
  let b := (s.core core).shadow
  (s.teams.find? fun e => decide (keyCore e.1 = core ∧ keyBank e.1 = b) && (e.2.handler || e.2.entering) &&
    (match s.ctx e.2.oid with | some c => decide (c.state = .saving) | none => false)).map fun e => e.2.oid

/-- The active context of a core is to leave it by ctx.save, and may. -/
def saveSwap (s : State) (core : Nat) : Option Swap :=
  let k := s.core core
  let sh := k.bank k.shadow
  match k.activeBank.owner with
  | none => none
  | some o =>
    match s.ctx o with
    | some c =>
      if c.state = .saving ∧ k.swap.isNone = true ∧ handlersOn s core k.active = false ∧ sh.spilling = false ∧ sh.staging = false
      then some { start := s.cycle, begun := false, incoming := sh.owner } else none
    | none => none

/-- Cycle 0 on one core: the pipes are free, and each team's resume point is fixed. -/
def beginSwap (s : State) (core : Nat) (w : Swap) : State :=
  let k := s.core core
  let s1 := s.setCore core { k with swap := some { w with start := s.cycle, begun := true }, pipes := [] }
  { s1 with teams := s1.teams.map fun (e : Nat × Team) => (e.1, if keyCore e.1 = core ∧ keyBank e.1 = k.active then { e.2 with clause := [] } else e.2) }

/-- Cycle 0 on the cores of a mask that a request has reached. ctx.save requests the swap of its context, and first the return of one that
was swapped out with a team in handler mode (R306). -/
def execSwapRequest (cores : BitVec 64) (s : State) : Out :=
  .next ((maskCores cores).foldl (fun st c =>
    match (st.core c).swap with
    | some w => if w.begun then st else beginSwap st c w
    | none =>
      match saveSwap st c with
      | some w => beginSwap st c w
      | none =>
        let k := st.core c
        match strayHandler st c with
        | some o => if (k.bank k.shadow).owner.isNone ∧ (k.bank k.shadow).spilling = false ∧ outgoingOk st c = true then startStage st o true c else st
        | none => st) s)

/-- An incoming team becomes eligible, at its resume point: one that waited issues its instruction again, and one whose barrier is not
complete waits on (R113, R222). -/
def incomingTeam (t0 : Team) : Team :=
  let t := { t0 with atResume := true }
  match t.state, t.waitKind with
  | .waiting, .bar => if (waitMode t.wait).testBit 1 then { t with state := .ready } else t
  | .waiting, .hbar => if (waitMode t.wait).testBit 1 || (waitMode t.wait).testBit 2 then { t with state := .ready } else t
  | .waiting, .addr => { t with state := .ready }
  | .waiting, .ring => { t with state := .ready }
  | .waiting, .seq => { t with state := .ready }
  | .waiting, .next => { t with state := .ready }
  | _, _ => t

/-- The root entries are read again from the record (R239). -/
def rereadRoots (s : State) (oid : Nat) : State :=
  let r := areaRead s oid 8 32
  match r.2, r.1.ctx oid with
  | some bs, some c => r.1.setCtx oid { c with roots := (List.range 4).map fun i => BitVec.ofNat 64 (fieldOf bs (8 * i) 8) }
  | _, _ => r.1

/-- A context has come back to a core that it was pre-empted from: the distributor has nothing to bring back there (R106). -/
def cameBack (s : State) (core oid : Nat) : State := let c := s.core core; s.setCore core { c with ousted := c.ousted.filter fun o => decide (o ≠ oid) }

/-- A context that is swapped in again with one half holds no longer the other one of that core: what stands there is given up (R64). -/
def endHold (s : State) (oid core bank : Nat) : State :=
  match s.ctx oid with
  | none => s
  | some c =>
    if !c.preempt || !c.halves.contains (2 * core + bank) then s
    else
      let mine : Nat → Bool := fun k => decide (keyCore k = core ∧ keyBank k = bank)
      { eraseBank (dropHalves s oid [2 * core + bank]) core bank with
        peers := s.peers.filter fun r => match r.2.team with | some k => !mine k | none => true
        loads := s.loads.filter fun l => !mine l.2.team }

/-- A context is on its way onto some core, at the distributor's request, software's or BOOT's: a chained staging, or a swap (R63, R69). -/
def requestOut (s : State) (oid : Nat) : Bool :=
  s.cores.any fun c => let b := c.2.bank c.2.shadow
    (b.chain && decide (b.owner = some oid)) || (match c.2.swap with | some w => decide (w.incoming = some oid) | none => false)

/-- The status of BOOT is written and its GO cleared (R313). -/
def bootDone (s : State) (p st : Nat) : State := s.setPart p { s.part p with bootGo := false, bootStatus := st, bootOid := none }

/-- BOOT ends OK once its context has been staged and swapped in wherever it was to be (R313). -/
def settleBoot (s : State) : State :=
  s.parts.foldl (fun st p => match p.2.bootOid with | some o => if requestOut st o then st else bootDone st p.1 0 | none => st) s

/-- Cycle 128 on a core: the banks exchange roles, every L1 line takes RRV 3, the incoming teams become eligible, and the
outgoing bank is to be spilled. A context that was loaded acts as after a dev-scope acquire (R182). -/
def exchange (s : State) (core : Nat) (w : Swap) : State :=
  let k := s.core core
  let old := k.active
  let new := k.shadow
  let out := (k.bank old).owner
  let loaded := (k.bank new).loadedHalf
  let k1 := { k with active := new, swap := none, idleTurn := false, pipes := [], l1 := k.l1.map fun (e : Nat × Line) => (e.1, { e.2 with rrv := 3, reused := false }) }
  let s1 := s.setCore core k1
  let s2 := setBankOf s1 core old fun b => { b with spilling := b.owner.isSome, loadedHalf := false, chain := false }
  let s3 := setBankOf s2 core new fun b => { b with loadedHalf := false, chain := false }
  let s4 := { s3 with teams := s3.teams.map fun (e : Nat × Team) =>
    (e.1, if keyCore e.1 = core then (if keyBank e.1 = new then incomingTeam e.2 else { e.2 with cct := none }) else e.2) }
  let s5 := match w.incoming with
    | some o =>
      let r := rereadRoots (if out = some o then s4 else endHold (cameBack s4 core o) o core old) o
      if loaded then acquireOid r core o else r
    | none => s4
  settleBoot (settleOpt (settleOpt s5 w.incoming) out)

/-- Cycle 128 of the swap on the core of State.sel. -/
def execSwapExchange (s : State) : Out :=
  .next (let core := s.sel.core
    match (s.core core).swap with
    | some w => if w.begun && decide (w.start + 128 ≤ s.cycle) then exchange s core w else s
    | none => s)

/-! ## Spills (R66) -/

/-- A request of a team that a peer has refused waits for the host, however long that takes (R249): the load it belongs to and its store
number. -/
def refusedOf (s : State) (k : Nat) : List PeerReq := (s.peers.filter fun r => decide (r.2.team = some k) && r.2.refused).map (·.2)

/-- A load of a team is in flight: none of its lanes waits for a refused request, or another one has no data yet. -/
def loadBusy (s : State) (k : Nat) (l : Nat × Load) : Bool :=
  let waits : LaneLoad → Bool := fun y => (refusedOf s k).any fun r => decide (r.load = some (l.1, y.lane))
  decide (l.2.team = k) && (!l.2.lanes.any waits || l.2.lanes.any fun y => y.data.isNone && !y.bad && !waits y)

/-- A team has operations in flight: an access that waits for the host is none (R66, R249). An exiting team still has its exit to be
performed, and leaves no control record (R65). -/
def teamBusy (s : State) (k : Nat) (t : Team) : Bool :=
  let w := refusedOf s k
  decide (t.mxOut ≠ 0) || (t.storesOut.any fun n => !(w.any fun r => decide (r.num = n) && r.load.isNone)) || t.work.isSome || t.edit.isSome ||
    s.loads.any (loadBusy s k) || (s.peers.any fun r => decide (r.2.team = some k) && !r.2.refused)

def bankBusy (s : State) (core bank : Nat) : Bool :=
  s.teams.any fun e => decide (keyCore e.1 = core ∧ keyBank e.1 = bank) && (teamBusy s e.1 e.2 || decide (e.2.state = .exiting))

/-- The control records of a bank, all 64 slots in order. -/
def recordWrites (s : State) (core bank : Nat) : List (Nat × List Byte) :=
  (List.range 64).map fun i =>
    (areaRecord core i, match s.team (teamKey core bank i) with | some t => recordOf i t | none => layout 256 [(145, 1, i)])

/-- The teams of a bank as their records have them. An edit that still waits for a page gives its list back, and begins again when its
instruction issues again (R282). -/
def cutBank (s : State) (core bank : Nat) : State :=
  let s1 := (s.teams.filter fun e => decide (keyCore e.1 = core ∧ keyBank e.1 = bank)).foldl (fun st e => freeEdit st e.1 e.2) s
  { s1 with teams := s1.teams.map fun (e : Nat × Team) => (e.1, if keyCore e.1 = core ∧ keyBank e.1 = bank then cutTeam e.2 else e.2) }

/-- The save sequence rises by one. -/
def raiseSeq (s : State) (oid : Nat) : State × Put :=
  match s.ctx oid with
  | none => (s, .fail)
  | some c => areaWrite (s.setCtx oid { c with saveSeq := (c.saveSeq + 1) % 2 ^ 64 }) oid 56 (leBytes 8 (c.saveSeq + 1))

/-- A spill of the shadow bank of a core: the image, the control records, the sequence. -/
def spill (s : State) (core oid : Nat) : State × Put :=
  let k := s.core core
  let s1 := cutBank s core k.shadow
  let a := areaWrites oid ((areaHist core, leBytes 2048 (histImage core (k.bank k.shadow))) :: recordWrites s1 core k.shadow) s1
  if a.2 = .done then raiseSeq a.1 oid else a

/-- The shadow bank of a core that is to be spilled, and nothing of its teams is in flight. -/
def spillable (s : State) (core : Nat) : Option Nat :=
  let k := s.core core
  let b := k.bank k.shadow
  match b.owner with
  | some o => if b.spilling && !bankBusy s core k.shadow && decide ((s.ctx o).map (·.state) ≠ some .failed) then some o else none
  | none => none

def execSpillComplete (s : State) : Out :=
  .next (let core := s.sel.core
    match spillable s core with
    | none => s
    | some o =>
      let a := spill s core o
      match a.2 with
      | .done => settleCtx (setBankOf a.1 core (s.core core).shadow fun _ => Bank.empty) o
      | .wait => a.1
      | .fail => s)

/-- Every queue of a context stops being read, with its read position and read count written, and every enabled one is SUSPENDED (R94). A
FAULTED queue becomes SUSPENDED too, and its fault is cleared when ctx.load reads the queue again: R94's table lists no way to stay FAULTED outside READY,
STAGED and ACTIVE (DEDUCED, log entry 33). -/
def suspendQueues (s : State) (oid : Nat) : State :=
  match s.ctx oid with
  | none => s
  | some c => c.queues.foldl (fun st q =>
      let r := setReadPos st oid q.1 q.2.readPos q.2.readCount
      if q.2.state = .disabled then r else setQState r oid q.1 .suspended) s

/-- A context becomes FAILED, with its record for the host (R62, R248). -/
def failCtx (s : State) (oid : Nat) : State :=
  let s1 := setCtxState (suspendQueues s oid) oid .failed
  match s1.ctx oid with
  | none => s1
  | some c => hostRecord s1 c.partition { oid := oid, kind := 6, detail := [(32, 8, c.saveArea)] }

/-- A spill that meets a fault: what it has written stands. -/
def execSpillError (s : State) : Out :=
  .next (let core := s.sel.core
    match spillable s core with
    | none => s
    | some o =>
      let a := spill s core o
      if a.2 = .fail then failCtx (setBankOf a.1 core (s.core core).shadow fun _ => Bank.empty) o else s)

/-! ## Releasing an OID (R58, R62, R182) -/

/-- A kernel, gang or team that State names belongs to a context. -/
def gangOid (s : State) (g : Nat) : Nat := match s.gang g with | some x => x.oid | none => 4096
def teamOid (s : State) (k : Nat) : Nat := match s.team k with | some t => t.oid | none => 4096

/-- The L1 lines of an OID written back and dropped in every core. -/
def flushOid (s : State) (oid : Nat) : State :=
  (s.cores.map (·.1)).foldl (fun st c => eachLine st c (fun l => decide (l.oid = oid)) flushLine) s

/-- Nothing of a released context stays on the part but its gangs and kernels. -/
def forgetCtx (s : State) (oid : Nat) : State :=
  match s.ctx oid with
  | none => s
  | some c =>
    let s1 := { s with
      clusters := s.clusters.map fun (x : Nat × Cluster) => (x.1, { x.2 with
        tlb := x.2.tlb.filter fun e => decide (e.oid ≠ oid), clb := x.2.clb.filter fun e => decide (e.oid ≠ oid),
        hbars := x.2.hbars.filter fun b => decide (b.2.oid ≠ oid), filter := x.2.filter.filter fun e => decide (e.1 ≠ oid) })
      cores := s.cores.map fun (x : Nat × Core) => (x.1, { x.2 with
        slots := x.2.slots.filter fun b => decide (b.2.oid ≠ oid)
        pipes := if x.2.activeBank.owner = some oid then [] else x.2.pipes
        swap := if x.2.activeBank.owner = some oid then none else x.2.swap
        hitKey := match x.2.hitKey with | some k => if teamOid s k = oid then none else some k | none => none
        ousted := x.2.ousted.filter fun o => decide (o ≠ oid)
        bank0 := if x.2.bank0.owner = some oid then Bank.empty else x.2.bank0
        bank1 := if x.2.bank1.owner = some oid then Bank.empty else x.2.bank1 })
      teams := s.teams.filter fun e => decide (e.2.oid ≠ oid)
      rings := s.rings.filter fun r => decide (gangOid s r.gang ≠ oid)
      notices := s.notices.filter fun r => decide (gangOid s r.2.gang ≠ oid)
      entries := s.entries.filter fun r => decide (gangOid s r.2.gang ≠ oid)
      halos := s.halos.filter fun r => decide (gangOid s r.2.gang ≠ oid)
      loads := s.loads.filter fun l => decide (teamOid s l.2.team ≠ oid)
      posts := s.posts.filter fun l => decide (teamOid s l.2.team ≠ oid)
      slotOps := s.slotOps.filter fun l => decide (teamOid s l.2.team ≠ oid)
      fills := s.fills.filter fun f => decide (f.2.oid ≠ oid)
      walks := s.walks.filter fun f => decide (f.2.oid ≠ oid)
      pageIns := s.pageIns.filter fun f => decide (f.2.oid ≠ oid)
      pageFails := s.pageFails.filter fun f => decide (f.oid ≠ oid)
      peers := s.peers.filter fun r => decide (r.2.oid ≠ oid)
      sxPages := s.sxPages.filter fun f => decide (f.oid ≠ oid)
      deaths := s.deaths.filter fun f => decide (f.oid ≠ oid) }
    let q := s1.part c.partition
    let n := (c.queues.filter fun x => x.2.enabled).length
    let s2 := s1.setPart c.partition { q with qused := q.qused - n }
    s2.setCtx oid { c with halves := [], listDue := false, releasing := false, queues := c.queues.map fun (x : Nat × Queue) => (x.1, { x.2 with enabled := false }) }

/-! ## ctx.save (R68, R238) -/

/-- Work of a context that ctx.save waits for: of its teams, of the engines, and fields of its queue descriptors that are still to be
written. -/
def ctxBusy (s : State) (oid : Nat) : Bool :=
  (s.teams.any fun e => decide (e.2.oid = oid) && teamBusy s e.1 e.2) ||
  (s.slotOps.any fun o => decide (teamOid s o.2.team = oid)) ||
  (s.cores.any fun c => c.2.mq.any (fun e => decide (teamOid s e.team = oid)) || c.2.pass.any fun e => decide (teamOid s e.team = oid)) ||
  (s.entries.any fun e => decide (gangOid s e.2.gang = oid) && entryLive s e.2) || (s.pageIns.any fun x => decide (x.2.oid = oid)) ||
  (s.halos.any fun h => decide (gangOid s h.2.gang = oid) && h.2.go) ||
  (s.sxPages.any fun x => decide (x.oid = oid)) || (s.deaths.any fun x => decide (x.oid = oid)) ||
  (s.peers.any fun r => match r.2.job with | some j => decide (j.1 = oid) | none => false) ||
  (match s.ctx oid with | some c => c.queues.any fun q => !q.2.owed.isEmpty | none => false)

/-- No bank of any core holds the context. -/
def offBanks (s : State) (oid : Nat) : Bool :=
  s.cores.all fun c => decide (c.2.bank0.owner ≠ some oid ∧ c.2.bank1.owner ≠ some oid)

/-- The bytes of an engine cursor: LCLK of a collective card is that at which its engine stopped (R238, R321). -/
def cursorBytes (c : Ctx) (e : Entry) : List Byte :=
  layout 64 ([(0, 8, e.seq), (8, 2, e.queue), (10, 1, (e.card.getD 1 0).toNat), (11, 1, 1), (16, 8, e.addr), (24, 8, e.progress)] ++
    (if (e.card.getD 1 0).toNat = 2 then [(32, 8, c.stopClock)] else []))

/-- An entry put into a list in posting order. -/
def postInsert (x : Entry) : List Entry → List Entry
  | [] => [x]
  | y :: r => if postedBefore x.order x.seq y.order y.seq then x :: y :: r else y :: postInsert x r

/-- The started jobs of a context, in posting order. -/
def startedJobs (c : Ctx) : List Entry := (c.window.filter fun e => e.started && e.kernel.isNone).foldl (fun l x => postInsert x l) []

/-- The cursors, unused ones zero. -/
def cursorWrites (c : Ctx) : List (Nat × List Byte) :=
  (List.range 256).map fun j =>
    (areaCursor j, match (startedJobs c)[j]? with | some e => cursorBytes c e | none => List.replicate 64 0)

/-- The held halves of a context: core and bank, each once. -/
def heldBanks (c : Ctx) : List (Nat × Nat) := if c.preempt then c.halves.map fun h => (h / 2, h % 2) else c.halves.filterMap fun h => if h % 2 = 0 then some (h / 2, 0) else none

/-- The banks in which a context without PREEMPT has its teams. -/
def windowBanks (s : State) (c : Ctx) : List (Nat × Nat) :=
  (heldBanks c).flatMap fun x =>
    if c.preempt then [x] else if (s.teams.any fun e => decide (keyCore e.1 = x.1 ∧ keyBank e.1 = 1)) && !(s.teams.any fun e => decide (keyCore e.1 = x.1 ∧ keyBank e.1 = 0)) then [(x.1, 1)] else [x]

/-- Everything that ctx.save writes after the spills. -/
def saveWrites (s : State) (c : Ctx) : List (Nat × List Byte) :=
  ((windowBanks s c).flatMap fun x => recordWrites s x.1 x.2 ++ windowWrites s x.1 x.2 (!c.preempt)) ++ cursorWrites c

/-- A team that waits on a cluster barrier which ctx.save releases: its wait is RESET unless it is DONE (R222). -/
def resetWait (oid : Nat) (t : Team) : Team :=
  if t.oid = oid ∧ t.waitKind = .hbar ∧ (waitMode t.wait).testBit 1 = false then { t with wait := t.wait ||| BitVec.ofNat 256 (4 * 2 ^ 32) } else t

/-- No team of a context is in handler mode or has a latched frame (R306). -/
def framesDone (s : State) (oid : Nat) : Bool := s.teams.all fun e => decide (e.2.oid ≠ oid) || !(e.2.handler || e.2.entering)

/-- The save work of a context has drained: its lines are written back, its register windows and cursors written, and its OID is
released once its state word is written. A FAILED context that ctx.save releases writes nothing. -/
def execCtxSaveComplete (oid : Nat) (s0 : State) : Out :=
  .next (let s := payWord (payQueues s0 oid) oid
    match s.ctx oid with
    | none => s
    | some c =>
      if ctxBusy s oid || c.wordDue then s
      else if c.releasing then forgetCtx (s.setCtx oid { c with state := .saved }) oid
      else if c.state ≠ .saving ∨ offBanks s oid = false ∨ framesDone s oid = false then s
      else
        let s1 := flushOid { s with teams := s.teams.map fun e => (e.1, resetWait oid e.2) } oid
        let a := areaWrites oid (saveWrites s1 c) s1
        match a.2 with
        | .done =>
          let w := areaWrite a.1 oid 4 (leBytes 4 CState.saved.code)
          match w.2, w.1.ctx oid with
          | .done, some d => forgetCtx (w.1.setCtx oid { d with state := .saved }) oid
          | .fail, _ => failCtx w.1 oid
          | _, _ => w.1
        | .wait => a.1
        | .fail => failCtx a.1 oid)

/-- The teams of a context wait for no refused request any longer: PAGE is held for each, and they go on when the context is loaded again. -/
def dropRefused (s : State) (oid : Nat) : State :=
  let s1 := hostWakes s fun t => decide (t.oid = oid ∧ t.waitKind = .peer ∧ t.state = .waiting)
  (s1.peers.filter fun r => decide (r.2.oid = oid) && r.2.refused).foldl (fun st r => giveUpPeer st r.1) s1

/-- ctx.save is accepted: the context is SAVING, its queues and engines stop, its staged banks are dropped, and a request that a peer has
refused, which no control record can hold, is given up (R249, log entry 43). -/
def startSave (s0 : State) (oid : Nat) : State :=
  let s := match s0.ctx oid with | some c => dropRefused (s0.setCtx oid { c with stopClock := s0.dev.lclk }) oid | none => s0
  let s1 := setCtxState (suspendQueues s oid) oid .saving
  settleBoot ((List.range 64).foldl (fun st c =>
    let k := st.core c
    let b := k.bank k.shadow
    if b.owner = some oid ∧ b.spilling = false ∧ k.swap.isNone = true then dropBank st oid c else st) s1)

/-- ctx.save (R68). A live OID is accepted: a context that is SAVING already goes on, and the release of a FAILED one waits for what it has
in flight and writes nothing. -/
def execCtxSave (f : SYS) (s : State) : Out :=
  .next (issue (.ctxSave f) s (once f.g fun k t s =>
    let oid := (opdS s k t f.a).toNat
    if !teamSched s t || decide (2 ^ 12 ≤ oid) then lateIllegal s t
    else
      match s.ctx oid with
      | none => .commit (writeS s k f.d (ctxStatus stBadState 0))
      | some c =>
        if c.state = .saved then .commit (writeS s k f.d (ctxStatus stBadState 0))
        else if !partAllowed (teamPart s t) c.partition then .commit (writeS s k f.d (ctxStatus stDenied 0))
        else if c.state = .saving then .commit (writeS s k f.d 0)
        else if c.state = .failed then .commit ((writeS s k f.d 0).setCtx oid { c with releasing := true })
        else .commit (startSave (writeS s k f.d 0) oid)))

/-! ## ctx.load (R68) -/

/-- The record's fields keep the rules of R61, with state 0 and every reserved byte zero. -/
def recordValid (bs : List Byte) : Bool :=
  let f := fieldOf bs
  decide (f 0 2 < 4096 ∧ f 2 1 ≤ 24 ∧ f 3 1 < 16 ∧ f 4 4 = 0 ∧ f 64 4032 = 0)

/-- The save area is mapped writable in tier 0 or 1 by the record's own root entries (R60). -/
def areaMapped (s : State) (bs : List Byte) (area : Nat) : Bool :=
  (List.range (areaBytes / 2 ^ 18)).all fun i =>
    let va := area + i * 2 ^ 18
    match walkTable s (fieldOf bs 2 1) va accW 4 (BitVec.ofNat 64 (fieldOf bs (8 + 8 * bitsAt va 78 2) 8)) with
    | .ok pa _ e _ => decide (pteTier e < 2) && !isPeer pa
    | _ => false

/-- The status of loading a record that has been read, for an issuer that may act on some partitions. -/
def loadStatus (s : State) (area : W64) (rcd : Option (List Byte)) (allowed : Nat → Bool) : Nat :=
  match rcd with
  | none => stBadRecord
  | some bs =>
    if area.toNat % 2 ^ 18 ≠ 0 ∨ recordValid bs = false ∨ areaMapped s bs (extVA area) = false then stBadRecord
    else if ctxLive s (fieldOf bs 0 2) then stOidLive
    else if !allowed (fieldOf bs 2 1) then stDenied
    else 0

/-- What a former life of an OID with another save area has left behind goes. -/
def dropOld (s : State) (oid : Nat) : State :=
  { s with
    kernels := s.kernels.filter fun k => decide (k.2.oid ≠ oid), gangs := s.gangs.filter fun g => decide (g.2.oid ≠ oid)
    ctxs := s.ctxs.erase oid }

/-- The jobs of the cursors from number 256 − n on, in sequence order: cards that the part still knows, or cards that it reads; none while
a card is awaited (R238). The cursors' reserved bytes are ignored: the model's choice (DESIGN CHOICE, log entry 66). -/
def cursorJobs (oid : Nat) (bs : List Byte) (old : List Entry) : Nat → List Entry → State → State × Option (List Entry)
  | 0, acc, s => (s, some acc)
  | n + 1, acc, s =>
    let f := fun (o m : Nat) => fieldOf bs (64 * (255 - n) + o) m
    if f 11 1 ≠ 1 then cursorJobs oid bs old n acc s
    else
      match old.find? fun e => decide (e.queue = f 8 2 ∧ e.seq = f 0 8) with
      | some e => cursorJobs oid bs old n (acc ++ [{ e with progress := f 24 8 }]) s
      | none =>
        let c := partRead s oid (xva (f 16 8)) 128
        let id := c.1.fresh
        match c.2 with
        | .wait => (c.1, none)
        | .got card =>
          cursorJobs oid bs old n (acc ++ [{ queue := f 8 2, seq := f 0 8, addr := f 16 8, kernel := none, card := card, regions := cardRegions card,
                                             order := id.1, started := true, done := false, progress := f 24 8, sentAt := none }]) id.2
        | _ => cursorJobs oid bs old n acc c.1

/-- The jobs of the stopped cursors. -/
def readCursors (s : State) (oid : Nat) (old : List Entry) : State × Option (List Entry) :=
  let cs := areaRead s oid (areaCursor 0) 16384
  match cs.2 with
  | none => (cs.1, some [])
  | some bs => cursorJobs oid bs old 256 [] cs.1

/-- A queue knows the sequence numbers of its stopped jobs. -/
def issueJobs (s : State) (oid : Nat) (es : List Entry) : State :=
  es.foldl (fun st e => modQueue st oid e.queue fun q => issueSeq q e.seq) s

def setWindow (s : State) (oid : Nat) (w : List Entry) : State := match s.ctx oid with | some c => s.setCtx oid { c with window := w } | none => s

/-- The queue list is read, the stopped jobs enter the window, and the queues take the states that their entries give them; or the part
waits for a page of them, and nothing has been read yet (R62, R88, R238). -/
def bringQueues (s : State) (oid : Nat) : State :=
  let win := match s.ctx oid with | some c => c.window | none => []
  let js := readCursors s oid (win.filter fun e => e.kernel.isNone)
  match js.2 with
  | none => setListDue js.1 oid true
  | some es =>
    let s1 := readQueues (setWindow js.1 oid ((win.filter fun e => e.kernel.isSome || !e.started) ++ es)) oid
    match s1.ctx oid with
    | none => s1
    | some c =>
      if c.listDue then setWindow s1 oid win
      else c.queues.foldl (fun st q => queueStep st oid q.1) (issueJobs s1 oid (c.window.filter fun e => e.kernel.isNone && e.started))

/-- The OID becomes live and READY: its queues are read, and its stopped jobs enter the window (R62, R88, R238). -/
def loadCtx (s : State) (area : Nat) (bs : List Byte) : State :=
  let f := fieldOf bs
  let oid := f 0 2
  let same := match s.ctx oid with | some c => decide (c.saveArea = area) | none => false
  let s0 := if same then s else dropOld s oid
  let win := match s0.ctx oid with | some c => c.window | none => []
  let c : Ctx := { partition := f 2 1, preempt := (f 3 1).testBit 0, sched := (f 3 1).testBit 1, policy := bitsAt (f 3 1) 2 2, state := .saved,
                   roots := (List.range 4).map fun i => BitVec.ofNat 64 (f (8 + 8 * i) 8), queueList := f 40 8, hostRing := f 48 8, saveArea := area,
                   saveSeq := f 56 8, queues := (match s0.ctx oid with | some c => c.queues | none => []), window := win, halves := [],
                   listDue := false, wordDue := false, stopClock := 0, releasing := false }
  bringQueues (setCtxState (s0.setCtx oid c) oid .ready) oid

/-- ctx.load (R68). The 4 KiB record is read through the tables of the issuing team's context, whose address A is; R68 does not say by
whose tables (DEDUCED, log entry 32). -/
def execCtxLoad (f : SYS) (s : State) : Out :=
  .next (issue (.ctxLoad f) s (once f.g fun k t s =>
    let a := opdS s k t f.a
    if !teamSched s t then lateIllegal s t
    else if peerHold s k then .stall s
    else
      let r := partRead s t.oid (extVA a) 4096
      if (match r.2 with | .wait => true | _ => false) then .stall r.1 else
      let rcd := match r.2 with | .got bs => some bs | _ => none
      let st := loadStatus r.1 a rcd (partAllowed (teamPart s t))
      if st ≠ 0 then .commit (writeS r.1 k f.d (BitVec.ofNat 64 st))
      else .commit (loadCtx (writeS r.1 k f.d 0) a.toNat (rcd.getD []))))

/-! ## What waits for a page (R62, R88, R89, R246) -/

/-- What a context still has to write or to read goes on: fields of queue descriptors, its state word, its queue list. -/
def retryCtx (s : State) (oid : Nat) : State :=
  let s1 := payWord (payQueues s oid) oid
  match s1.ctx oid with
  | some c => if ctxRuns c && c.listDue then bringQueues s1 oid else s1
  | none => s1

def retryAll (s : State) : State := s.ctxs.foldl (fun st c => retryCtx st c.1) s

/-- A page-in ends, and what waited for its page goes on (R246). -/
def execPageIn (page : Nat) (s : State) : Out := .next (retryAll (pageInEnd page s))

/-- A leaf in a line has changed: what waits on it walks again (R241). -/
def execBusyLeafChange (line : Nat) (s : State) : Out := .next (retryAll (leafChange line s))

/-! ## The tail (R91, R92, R95) -/

/-- The part observes the next tail store of a queue at its home slice; a list that is still to be read is read first. -/
def execTailAdvanceObserved (oid queue : Nat) (s : State) : Out :=
  .next (match s.ctx oid with
    | none => s
    | some c =>
      if ctxRuns c && c.listDue then bringQueues s oid
      else
      match c.queues.find queue with
      | none => s
      | some q =>
        if !ctxRuns c || decide (q.state = .disabled ∨ q.state = .suspended) then s
        else
          match q.pubs with
          | [] => queueStep s oid queue
          | v :: r =>
            let s1 := modQueue s oid queue fun y => { y with pubs := r }
            if v.1 < q.tail then (if q.state = .faulted then s1 else faultQueue s1 oid queue 4 q.readPos)
            else
              let s2 := modQueue s1 oid queue fun y => { y with tail := v.1, seen := if q.tail < v.1 then y.seen ++ [v] else y.seen }
              if q.state = .faulted then resumeQueue s2 oid queue { q with tail := v.1 } else queueStep s2 oid queue)

end Sys2Proof.Machine
end

