-- ==== Sys2Proof/Machine/Control.lean ====
section
/-! DEFINITION. Control, mask and predicate instructions, opcodes 0x100 to 0x114 (R45, R117 to R122). -/

namespace Sys2Proof.Machine

/-! ## Transfers (R45, R117, R118) -/

/-- H + 8·disp (R45). -/
def braTarget (t : Team) (f : BR) : W64 := t.h + 8 * f.disp.signExtend 64

/-- The condition of R45 over the active lanes: 0 always, 1 any, 2 all, 3 none, 4 notall. -/
def brTaken (t : Team) (f : BR) : Bool :=
  let e := t.e &&& lowMask t.width
  let p := t.preg f.pred.toNat
  match f.cond.toNat with
  | 0 => true
  | 1 => decide (e &&& p ≠ 0)
  | 2 => decide (e &&& ~~~p = 0)
  | 3 => decide (e &&& p = 0)
  | _ => decide (e &&& ~~~p ≠ 0)

/-- An indirect transfer: a target that is no multiple of 8 raises MISALIGN at the jump. The target is joined to the clause's
H[79:64]; a target of the other sign is then no valid header address, and its fetch raises ILLEGAL_CLAUSE (R118, R294, log entry 56). -/
def jumpTo (s : State) (k : Nat) (t : Team) (target : W64) : Res :=
  if target.toNat % 8 ≠ 0 then .trap s { bits := cMisalign, addr := target, mask := t.e }
  else .jump (s.modTeam k fun u => { u with farH := decide (target.msb ≠ t.h.msb) }) target

def execBra (f : BR) (s : State) : Out := .next (issue (.bra f) s fun _ t s => .jump s (braTarget t f))
def execBrc (f : BR) (s : State) : Out :=
  .next (issue (.brc f) s fun _ t s => if brTaken t f then .jump s (braTarget t f) else .commit s)
def execCall (f : BR) (s : State) : Out :=
  .next (issue (.call f) s fun k t s => .jump (s.setTeam k (t.setS 63 (nextHeader t))) (braTarget t f))
def execRet (f : VR) (s : State) : Out := .next (issue (.ret f) s fun k t s => jumpTo s k t (t.sreg 63))
def execJmpi (f : VR) (s : State) : Out := .next (issue (.jmpi f) s fun k t s => jumpTo s k t (opdS s k t f.a))

/-! ## Exit, nop, yield, sleep (R119, R120) -/

def execExit (f : VR) (s : State) : Out :=
  .next (issue (.exit f) s fun k t s =>
    let t1 := dropLanes t (lanesOf t f.g)
    if noLanes t1 then .endTeam (s.setTeam k t1) else .commit (s.setTeam k t1))
def execExitTeam (f : VR) (s : State) : Out := .next (issue (.exitTeam f) s fun _ _ s => .endTeam s)
def execNop (f : VR) (s : State) : Out := .next (issue (.nop f) s fun _ _ s => .commit s)
/-- Acts at the end of the clause (R120); see completeClause. -/
def execYield (f : VR) (s : State) : Out :=
  .next (issue (.yield f) s fun k t s => .commit (s.setTeam k (putAsk t { askOf t with yield := true })))
/-- Acts at the end of the clause; IMM32 = 0 does nothing (R120). -/
def execSleep (f : VI) (s : State) : Out :=
  .next (issue (.sleep f) s fun k t s =>
    if f.imm = 0 then .commit s else .commit (s.setTeam k (putAsk t { askOf t with sleep := f.imm.toNat })))

/-! ## Masks (R121) -/

/-- E becomes a mask, bits at or above the width ignored. -/
def setE (i : Instr) (op : Team → Mask) (s : State) : Out :=
  .next (issue i s fun k t s => .commit (s.setTeam k { t with e := op t &&& lowMask t.width }))

def execMpush (f : VR) (s : State) : Out :=
  .next (issue (.mpush f) s fun k t s => .commit (writeP s k (lowMask t.width) f.d t.e))
def execMpop (f : VR) (s : State) : Out := setE (.mpop f) (fun t => opdP t f.a) s
def execMand (f : VR) (s : State) : Out := setE (.mand f) (fun t => t.e &&& opdP t f.a) s
def execMandn (f : VR) (s : State) : Out := setE (.mandn f) (fun t => t.e &&& ~~~opdP t f.a) s
def execMelse (f : VR) (s : State) : Out := setE (.melse f) (fun t => opdP t f.a &&& ~~~t.e) s

/-! ## Predicates (R122) -/

/-- pmov's source in a lane: the bit of a predicate, bit L mod 64 of a scalar, [31:0] ≠ 0 of a vector or special. -/
def pmovBit (s : State) (k : Nat) (t : Team) (o : Opd) (L : Nat) : Bool :=
  match o with
  | .p n => (t.preg n.val).getLsbD L
  | .s n => (t.sreg n.val).getLsbD (L % 64)
  | o => decide ((opd s k t false o L).toNat % 2 ^ 32 ≠ 0)

def execPmov (f : VR) (s : State) : Out := .next (issue (.pmov f) s fun k t s => aluP f.g f.d k t s (pmovBit s k t f.a))

/-- A logical operation on predicates. -/
def predForm (i : Instr) (f : VR) (op : Mask → Mask → Mask) (s : State) : Out :=
  .next (issue i s fun k t s => .commit (writeP s k (lanesOf t f.g) f.d (op (opdP t f.a) (opdP t f.b))))

def execPand (f : VR) (s : State) : Out := predForm (.pand f) f (fun a b => a &&& b) s
def execPor (f : VR) (s : State) : Out := predForm (.por f) f (fun a b => a ||| b) s
def execPxor (f : VR) (s : State) : Out := predForm (.pxor f) f (fun a b => a ^^^ b) s
def execPnot (f : VR) (s : State) : Out := predForm (.pnot f) f (fun a _ => ~~~a) s

def execPcnt (f : VR) (s : State) : Out :=
  .next (issue (.pcnt f) s fun k t s => alu f.g f.d false k t s fun _ =>
    BitVec.ofNat 64 (maskLanes (lanesOf t f.g &&& opdP t f.a) t.width).length)
def execPfirst (f : VR) (s : State) : Out :=
  .next (issue (.pfirst f) s fun k t s => alu f.g f.d false k t s fun _ =>
    BitVec.ofNat 64 ((maskFirst (lanesOf t f.g &&& opdP t f.a) t.width).getD 0xffffffff))

end Sys2Proof.Machine
end

