-- ==== Sys2Proof/Machine/Kernel.lean ====
section
/-! DEFINITION. Kernels: admission, placement, the end of a team and of a kernel, pre-emption by the distributor, digest-mode
launches (R99 to R107, R165, R178, R209). -/

namespace Sys2Proof.Machine

/-! ## Admission (R100) -/

/-- The cores allotted to a partition. -/
def allotted (s : State) (p core : Nat) : Bool := (s.part p).cores.getLsbD core

/-- A control bank of the core holds a context of the partition. -/
def bankOf (s : State) (p core : Nat) : Bool :=
  [(s.core core).bank0, (s.core core).bank1].any fun b => match b.owner with | some o => decide (ctxPart s o = p) | none => false

/-- The core is the partition's: allotted to it, or removed from it and not left yet (R309). -/
def inPartition (s : State) (p core : Nat) : Bool := allotted s p core || bankOf s p core

/-- Vector-register bytes and scratchpad bytes that a context may hold on one core (R64). -/
def vectorCap (c : Ctx) : Nat := if c.preempt then 2 ^ 20 else 2 ^ 21
def scratchCap (c : Ctx) : Nat := if c.preempt then 393216 else 786432

/-- The teams of one gang that one cluster can hold for a partition, n at most on each core. -/
def slotRoom (s : State) (p n : Nat) : Nat :=
  ((List.range 16).map fun cl => n * ((List.range 4).filter fun i => allotted s p (4 * cl + i)).length).foldl Nat.max 0

/-- The teams of a packet that one core can hold: its 64 slots, and its vector registers. -/
def coreTeams (c : Ctx) (p : Packet) : Nat := Nat.min 64 (vectorCap c / vbytes p.vregs p.width)

/-- The context check of R100, that one gang can never be resident, and the features of R312. -/
def contextBad (s : State) (c : Ctx) (p : Packet) : Bool :=
  decide (vectorCap c < vbytes p.vregs p.width ∨ scratchCap c < p.scratch ∨ slotRoom s c.partition (coreTeams c p) < p.teams) ||
    (p.digest && !featOn s 4) || (p.fuse && !featOn s 5)

/-- The code with which a packet is rejected, or 0; none while the digest record's page is awaited (R95, R97, R100, R107). -/
def admitCode (s : State) (k : Kernel) : State × Option Nat :=
  match s.ctx k.oid with
  | none => (s, some 0)
  | some c =>
    if k.bad = 2 ∨ k.bad = 3 then (s, some k.bad)
    else if contextBad s c k.pkt then (s, some 3)
    else
      let r := if k.pkt.digest then partPa s k.oid (xva k.pkt.digestRec) (accR + accW) else (s, .at 0)
      match r.2 with
      | .at _ => (r.1, some k.bad)
      | .wait => (r.1, none)
      | .fail => (r.1, some 3)

/-- A rejected launch: the kernel is discarded, and the queue stands at its command again (R95, R99). -/
def rejectKernel (s : State) (kid : Nat) (k : Kernel) (code : Nat) : State :=
  faultQueue (unread { s with kernels := s.kernels.erase kid } k.oid k.queue k.seq k.addr) k.oid k.queue code k.addr

/-- An admitted kernel takes its entry of the context's window. -/
def admitKernel (s : State) (kernel : Nat) (k : Kernel) : State :=
  let s1 := s.setKernel kernel { k with state := .admitted, hentry := 0 }
  match s1.ctx k.oid with
  | none => s1
  | some c =>
    let e : Entry := { queue := k.queue, seq := k.seq, addr := k.addr, kernel := some kernel, card := [], regions := k.pkt.regions,
                       order := k.order, started := true, done := false, progress := 0, sentAt := none }
    s1.setCtx k.oid { c with window := c.window ++ [e] }

/-- The distributor admits a kernel whose conditions hold, or faults its queue. A queue whose kernel waits for room is WAITING (R94). -/
def execKernelAdmission (kernel : Nat) (s : State) : Out :=
  .next (match s.kernel kernel with
    | none => s
    | some k =>
      if !kernelReady s k || outranked s (queuePrio s k.oid k.queue) k.order k.seq then s
      else
        let a := admitCode s k
        match a.2 with
        | none => a.1
        | some 0 => queueStep (admitKernel a.1 kernel k) k.oid k.queue
        | some code => rejectKernel a.1 kernel k code)

/-! ## Fit (R101, R102) -/

/-- Vector-register bytes that a bank's teams hold. -/
def vectorUsed (s : State) (core bank : Nat) : Nat :=
  s.teams.foldl (fun n e => if keyCore e.1 = core ∧ keyBank e.1 = bank then n + vbytes (teamVregs s e.2) e.2.width else n) 0

/-- The gangs with a team on a core's bank. -/
def gangsOn (s : State) (core bank : Nat) : List Nat :=
  (s.teams.filter fun e => decide (keyCore e.1 = core ∧ keyBank e.1 = bank)).foldl (fun l e => if l.contains e.2.gang then l else e.2.gang :: l) []

def scratchUsed (s : State) (core bank : Nat) : Nat := ((gangsOn s core bank).map (gangAlloc s)).foldl (· + ·) 0

/-- A core for a team, given the cores and slots that earlier teams of the gang have. -/
def fitCore (s : State) (c : Ctx) (oid : Nat) (p : Packet) (got : List (Nat × Nat)) (core : Nat) : Option Nat :=
  let k := s.core core
  let n := (got.filter fun x => decide (x.1 = core)).length
  let need := vbytes p.vregs p.width
  let scratch := scratchUsed s core k.active + p.scratch
  if allotted s c.partition core && decide (k.activeBank.owner = some oid) && k.swap.isNone &&
      decide (vectorUsed s core k.active + n * need + need ≤ vectorCap c ∧ scratch ≤ scratchCap c)
  then (List.range 64).find? fun i => (s.team (teamKey core k.active i)).isNone && !got.contains (core, i)
  else none

/-- Cores and slots for n more teams of a gang on a cluster, lowest first. -/
def fitTeams (s : State) (c : Ctx) (oid : Nat) (p : Packet) (cl : Nat) : Nat → List (Nat × Nat) → Option (List (Nat × Nat))
  | 0, got => some got
  | n + 1, got =>
    match (List.range 4).findSome? fun i => (fitCore s c oid p got (4 * cl + i)).map fun sl => (4 * cl + i, sl) with
    | some x => fitTeams s c oid p cl n (got ++ [x])
    | none => none

/-- A cluster holds no resident team. A team of a context that is swapped out is not resident there, though its half is held; R102 does not
say so (DESIGN CHOICE, log entry 73). -/
def clusterEmpty (s : State) (cl : Nat) : Bool :=
  !s.teams.any fun e => decide (clusterOf (keyCore e.1) = cl ∧ keyBank e.1 = (s.core (keyCore e.1)).active)

/-- The next gang of a kernel fits on a cluster. -/
def fitCluster (s : State) (c : Ctx) (k : Kernel) (cl : Nat) : Option (List (Nat × Nat)) :=
  if (s.cluster cl).fused = k.pkt.fuse ∨ clusterEmpty s cl = true then fitTeams s c k.oid k.pkt cl k.pkt.teams [] else none

/-- The clusters in the order of the search. -/
def clusterOrder (k : Kernel) : List Nat :=
  let st := match k.lastCluster with | some n => n + 1 | none => 0
  (List.range 16).map fun i => (st + i) % 16

/-- Where the next gang of a kernel fits. -/
def fitKernel (s : State) (k : Kernel) : Option (Nat × List (Nat × Nat)) :=
  match s.ctx k.oid with
  | none => none
  | some c => if c.state = .active then (clusterOrder k).findSome? fun cl => (fitCluster s c k cl).map fun x => (cl, x) else none

/-! ## Placement (R101 to R103) -/

def gangTotal (k : Kernel) : Nat := k.pkt.nx * k.pkt.ny * k.pkt.nz

/-- A kernel has a gang to place; in a serialised run the previous one has ended (R107). -/
def wantsGang (s : State) (kid : Nat) (k : Kernel) : Bool :=
  decide ((k.state = .admitted ∨ k.state = .running ∨ k.state = .draining) ∧ k.nextGang < gangTotal k) &&
    (!k.serial || !s.gangs.any fun g => decide (g.2.kernel = kid))

/-- One kernel comes before another: a higher queue priority, then an earlier posting. -/
def rankBefore (s : State) (a b : Nat × Kernel) : Bool :=
  let pa := queuePrio s a.2.oid a.2.queue
  let pb := queuePrio s b.2.oid b.2.queue
  decide (pb < pa ∨ (pa = pb ∧ a.2.order ≤ b.2.order))

/-- A kernel put into a list in rank order. -/
def rankInsert (s : State) (x : Nat × Kernel) : List (Nat × Kernel) → List (Nat × Kernel)
  | [] => [x]
  | y :: r => if rankBefore s y x then y :: rankInsert s x r else x :: y :: r

/-- The kernels with a gang to place, first in rank first. -/
def placeOrder (s : State) : List (Nat × Kernel) := (s.kernels.filter fun k => wantsGang s k.1 k.2).foldl (fun l x => rankInsert s x l) []

/-- The L1s of a cluster change their mode: every line is written back and dropped (R102). -/
def setFused (s : State) (cl : Nat) (fused : Bool) : State :=
  let c := s.cluster cl
  if c.fused = fused then s
  else
    let s1 := (List.range 4).foldl (fun st i => eachLine st (4 * cl + i) (fun _ => true) flushLine) s
    s1.setCluster cl { s1.cluster cl with fused := fused }

/-- A placed team (R103). -/
def newTeam (k : Kernel) (kid gid tix age : Nat) : Team :=
  { Team.blank k.pkt.width with
    oid := k.oid, kernel := kid, gang := gid, stage := stageOf k.pkt tix, tix := tix, digestMode := k.pkt.digest, policy := k.pkt.polTeam,
    gidx := k.nextGang, age := age, h := k.pkt.entry, fmode := BitVec.ofNat 64 (k.pkt.fmode % 2 ^ 13), s := if k.pkt.args = 0 then [] else [(0, k.pkt.args)] }

/-- The teams of a gang take their slots. -/
def placeTeams (k : Kernel) (kid gid : Nat) : List (Nat × Nat) → Nat → State → State
  | [], _, s => s
  | x :: r, tix, s =>
    let c := s.core x.1
    let s1 := s.setTeam (teamKey x.1 c.active x.2) (newTeam k kid gid tix c.nextAge)
    placeTeams k kid gid r (tix + 1) (s1.setCore x.1 { c with nextAge := c.nextAge + 1 })

/-- The next gang of a kernel is placed whole. -/
def placeGang (s : State) (kid : Nat) (k : Kernel) (cl : Nat) (places : List (Nat × Nat)) : State :=
  let s0 := setFused s cl k.pkt.fuse
  let f := s0.fresh
  let keys := places.map fun x => teamKey x.1 (f.2.core x.1).active x.2
  let g : Gang := { kernel := kid, g := k.nextGang, oid := k.oid, cluster := cl, size := k.pkt.scratch, teams := keys, gone := [], killed := false,
                    mem := [] }
  let s1 := placeTeams k kid f.1 places 0 (f.2.setGang f.1 g)
  let s2 := s1.setKernel kid { k with nextGang := k.nextGang + 1, lastCluster := some cl, state := if k.nextGang + 1 < gangTotal k then .running else .draining }
  queueStep s2 k.oid k.queue

/-- The distributor places the next gang that fits. -/
def execGangPlacement (s : State) : Out :=
  .next (match (placeOrder s).findSome? fun k => (fitKernel s k.2).map fun x => (k, x) with
    | some x => placeGang s x.1.1 x.1.2 x.2.1 x.2.2
    | none => s)

/-! ## The end of a team (R105, R209) -/

/-- The team's work has completed: loads, stores, atomics, matrix operations, slot transfers, copy-ring commands, halo copies and
queued stitch page-ins. -/
def exitDrained (s : State) (k : Nat) (t : Team) : Bool :=
  !teamBusy s k t && (s.slotOps.all fun o => decide (o.2.team ≠ k)) &&
  (s.entries.all fun e => decide (e.2.team ≠ k) || !entryLive s e.2) &&
  (s.notices.all fun n => decide (n.2.team ≠ k)) && (s.halos.all fun h => decide (h.2.team ≠ k)) && (s.sxPages.all fun x => decide (x.team ≠ k)) &&
  !(peerOut s k) && t.digestQ.isEmpty

/-- Rotation of a 64-bit word to the left. -/
def rotl64 (x : W64) (n : Nat) : W64 := x.rotateLeft n

/-- A digest-mode team's digest enters the kernel's (R107). -/
def foldDigest (s : State) (t : Team) : State :=
  match s.kernel t.kernel with
  | some kn => if t.digestMode then s.setKernel t.kernel { kn with digest := kn.digest ^^^ rotl64 t.digest ((t.gidx * kn.pkt.teams + t.tix) % 64) } else s
  | none => s

/-- A halo copy still reads the allocation of a gang on a core (R235). -/
def haloReads (s : State) (gang core : Nat) : Bool := s.halos.any fun h => decide (h.2.gang = gang ∧ h.2.srcCore = core)

/-- A team has left its gang. What the last one on a core, on a cluster, or anywhere leaves behind goes (R105, R178, R223); a team in the
save area has not left. Bytes that a halo copy is still to read stay (R235). -/
def leaveGang (s0 : State) (core : Nat) (t : Team) : State :=
  let s := { s0 with gangs := s0.gangs.modify t.gang fun g => { g with gone := t.tix :: g.gone } }
  let mine := match s.gang t.gang with | some g => gangLeft g | none => []
  let s1 :=
    if mine.any fun k => decide (keyCore k = core) then s
    else
      { s with
        gangs := if haloReads s t.gang core then s.gangs
          else s.gangs.modify t.gang fun g => { g with mem := g.mem.filter fun c => decide (c.1 / 2 ^ 20 ≠ core) }
        rings := s.rings.filter fun r => !decide (r.gang = t.gang ∧ r.core = core)
        entries := s.entries.filter fun r => !decide (r.2.gang = t.gang ∧ r.2.core = core) }
  let s2 :=
    if mine.any fun k => decide (clusterOf (keyCore k) = clusterOf core) then s1
    else
      { s1 with clusters := s1.clusters.modify (clusterOf core) fun c =>
          { c with hbars := c.hbars.filter fun b => !decide (b.2.oid = t.oid ∧ b.2.kernel = t.kernel ∧ b.2.gidx = t.gidx) } }
  if mine.isEmpty then { s2 with gangs := s2.gangs.erase t.gang } else s2

/-- The record of SCRATCH and the containment that it consults from the gang level up (R209, R305). -/
def scratchExit (s : State) (k : Nat) (t : Team) (level : Nat × Nat) : State :=
  let s1 := hostRecord s (ctxPart s t.oid)
    { oid := t.oid, kind := 5, core := keyCore k, slot := keySlot k,
      detail := [(32, 8, t.gidx), (40, 1, t.tix), (44, 4, t.sfwords.toNat), (48, 2, t.sffirst.toNat), (50, 2, t.sfcount)] }
  match level with
  | (_, 0) => s1
  | (_, 1) => s1
  | (1, _) => killGang s1 t.gang
  | (2, _) => killKernel s1 t.kernel
  | (_, _) => killCtx s1 t.oid

/-- An exiting team whose work has completed: its lines are written back, its slot is FREE, and what it was the last to use is
released. -/
def execExitPerformed (core slot : Nat) (s : State) : Out :=
  .next (match waitingKey s core slot fun t => decide (t.state = .exiting) with
    | none => s
    | some k =>
      match s.team k with
      | none => s
      | some t =>
        if !exitDrained s k t then s
        else
          let level := absorbing (policiesFrom s t 1)
          let s1 := (l1Cores s core).foldl (fun st c => eachLine st c (fun l => decide (l.dirty ≠ 0 ∧ l.writer = k)) writeBack) (freeEdit s k t)
          let s2 := foldDigest s1 t
          let s3 := { s2 with teams := s2.teams.erase k }
          let s4 := leaveGang s3 core t
          let s5 := if clusterEmpty s4 (clusterOf core) then setFused s4 (clusterOf core) false else s4
          if t.sfcount = 0 then s5 else scratchExit s5 k t level)

/-! ## The end of a kernel (R105, R107, R165) -/

/-- The slots that a kernel claimed: FULL and CLAIMED ones are FREE, FILLING and BUSY ones DRAINING (R165). -/
def releaseSlots (s : State) (kid : Nat) : State :=
  { s with cores := s.cores.map fun (c : Nat × Core) => (c.1, { c.2 with
      slots := c.2.slots.filterMap fun x =>
        if x.2.kernel ≠ kid then some x
        else match x.2.state with
          | .filling => some (x.1, { x.2 with state := .draining })
          | .busy => some (x.1, { x.2 with state := .draining })
          | .draining => some x
          | _ => none }) }

/-- The kernel's command is complete; the kernel is RETIRED when the completion word covers it (R91, R99). -/
def endKernel (s : State) (kid : Nat) (k : Kernel) : State := commandDone (releaseSlots s kid) k.oid k.queue k.seq

/-- What the digest record of a kernel at its retirement leads to. -/
inductive DigestEnd where
  /-- The completion word may be written. -/
  | over
  /-- The grid runs again, serialised. -/
  | again (k : Kernel)
  /-- The record's page is awaited. -/
  | wait

/-- A digest-mode kernel at its retirement: the record's result, or its serial field; a result that is not the reference runs the
grid again, one gang at a time (R107). A record that can no longer be reached is passed over (log entry 39). The model's choices: bytes 25
to 63 of the record are ignored (DESIGN CHOICE, log entry 66), and the search for the serialised run's first gang begins at cluster 0, as
that of a kernel's first gang does (R101; DEDUCED, log entry 72). -/
def digestRecord (s : State) (k : Kernel) : State × DigestEnd :=
  let r := partPa s k.oid (xva k.pkt.digestRec) (accR + accW)
  match r.2 with
  | .fail => (r.1, .over)
  | .wait => (r.1, .wait)
  | .at pa =>
    if badAt r.1 pa 32 then (engineRecord r.1 (ctxPart s k.oid) k.oid (xva k.pkt.digestRec) rUncorrData (accR + accW) 0 0 0, .over) else
    let flags := homeNat r.1 (pa + 24) 1
    if k.serial then (homePutNat (homePutNat r.1 none (pa + 16) 8 k.digest.toNat) none (pa + 24) 1 (flags ||| 4), .over)
    else
      let s1 := homePutNat r.1 none (pa + 8) 8 k.digest.toNat
      if flags.testBit 0 = true ∧ homeNat s1 pa 8 ≠ k.digest.toNat ∧ k.state ≠ .killed then
        let s2 := homePutNat s1 none (pa + 24) 1 (flags ||| 2)
        (hostRecord s2 (ctxPart s k.oid) { oid := k.oid, kind := 4, detail := [(32, 8, k.seq), (40, 8, k.pkt.digestRec)] },
          .again { k with nextGang := 0, serial := true, lastCluster := none, digest := 0, state := .running })
      else (homePutNat s1 none (pa + 16) 8 0, .over)

/-- Every gang of a kernel has been placed and has ended, or containment has removed it. -/
def kernelEnded (s : State) (kid : Nat) (k : Kernel) : Bool :=
  ((decide (k.state = .draining) && decide (gangTotal k ≤ k.nextGang)) || decide (k.state = .killed)) &&
    !(s.teams.any fun e => decide (e.2.kernel = kid)) && !(s.gangs.any fun g => decide (g.2.kernel = kid)) && !gridOver s k

def execKernelRetirement (kernel : Nat) (s : State) : Out :=
  .next (match s.kernel kernel with
    | none => s
    | some k =>
      if !kernelEnded s kernel k then s
      else if k.pkt.digest then
        let d := digestRecord s k
        match d.2 with
        | .again k1 => d.1.setKernel kernel k1
        | .wait => d.1
        | .over => endKernel d.1 kernel k
      else endKernel s kernel k)

/-! ## Pre-emption by the distributor (R106) -/

/-- The highest priority among the kernels with a team on a core's active bank, plus one; 0 without a team. -/
def corePrio (s : State) (core : Nat) : Nat :=
  s.teams.foldl (fun n e => if keyCore e.1 = core ∧ keyBank e.1 = (s.core core).active then
    (match s.kernel e.2.kernel with | some k => Nat.max n (queuePrio s k.oid k.queue + 1) | none => n) else n) 0

/-- The highest priority among a context's kernels that have not retired, plus one. -/
def ctxPrio (s : State) (oid : Nat) : Nat :=
  s.kernels.foldl (fun n k => if k.2.oid = oid ∧ gridOver s k.2 = false ∧ k.2.state ≠ .read then Nat.max n (queuePrio s oid k.2.queue + 1) else n) 0

/-- The four cores of a cluster. -/
def clusterCores (cl : Nat) : List Nat := (List.range 4).map (4 * cl + ·)

/-- A cluster on which a kernel's context may take the place of others. -/
def preemptible (s : State) (k : Kernel) (cl : Nat) : Bool :=
  (clusterCores cl).all fun c =>
    let x := s.core c
    match x.activeBank.owner with
    | none => false
    | some o =>
      decide (o ≠ k.oid) && (match s.ctx o with | some y => y.preempt | none => false) &&
        decide (corePrio s c ≤ queuePrio s k.oid k.queue) && decide (chainCheck s k.oid c = 0)

/-- The cores of a cluster from which the distributor has swapped a context out and to which it has not come back. -/
def oustedCores (s : State) (cl o : Nat) : List Nat :=
  (clusterCores cl).filter fun c => (s.core c).ousted.contains o && decide ((s.core c).activeBank.owner ≠ some o)

/-- A context that the distributor has swapped out of cores of a cluster may come back: they hold no team of a higher priority, and the
context that runs there has no such gang to place. -/
def mayReturn (s : State) (cl : Nat) : Option Nat :=
  ((clusterCores cl).flatMap fun c => (s.core c).ousted).find? fun o =>
    let cs := oustedCores s cl o
    !cs.isEmpty && cs.all (fun c => decide (corePrio s c ≤ ctxPrio s o ∧ chainCheck s o c = 0)) &&
      !(s.kernels.any fun k => wantsGang s k.1 k.2 && decide (ctxPrio s o < queuePrio s k.2.oid k.2.queue + 1) &&
        cs.any fun c => decide ((s.core c).activeBank.owner = some k.2.oid))

def setOusted (s : State) (cs : List Nat) (f : Core → List Nat) : State :=
  cs.foldl (fun st c => let x := st.core c; st.setCore c { x with ousted := f x }) s

/-- The cores of a cluster are taken for a context: what ran there is to come back, most recent first. -/
def takeCluster (s : State) (oid cl : Nat) : State :=
  (clusterCores cl).foldl (fun st c => startStage st oid true c)
    (setOusted s (clusterCores cl) fun x => (x.activeBank.owner.toList ++ x.ousted.filter fun o => decide (some o ≠ x.activeBank.owner)).filter fun o => decide (o ≠ oid))

/-- A context comes back to the cores from which it was taken. -/
def returnCores (s : State) (o : Nat) (cs : List Nat) : State :=
  cs.foldl (fun st c => startStage st o true c) (setOusted s cs fun x => x.ousted.filter fun y => decide (y ≠ o))

/-- The distributor swaps an ousted context back in where it may, or takes a cluster for the first kernel whose gang fits
nowhere and whose context it is not bringing in already. -/
def execDistributorPreemption (s : State) : Out :=
  .next (match (List.range 16).findSome? fun cl => (mayReturn s cl).map fun o => (cl, o) with
    | some x => returnCores s x.2 (oustedCores s x.1 x.2)
    | none =>
      match (placeOrder s).findSome? fun k =>
          if (fitKernel s k.2).isSome || requestOut s k.2.oid then none else ((List.range 16).find? (preemptible s k.2)).map fun cl => (k.2, cl) with
      | some x => takeCluster s x.1.oid x.2
      | none => s)

end Sys2Proof.Machine
end

