-- ==== Sys2Proof/Machine/Jobs.lean ====
section
/-! DEFINITION. Job cards of the copy engine and of the gather-and-deduplicate engine (R236 to R238). A job is named by its
context and its place in the task-scheduler window: 1,024 · OID + place. -/

namespace Sys2Proof.Machine

/-- The job of a number, started, of a context that runs, with its engine. -/
def jobAt (s : State) (job engine : Nat) : Option (Nat × Entry) :=
  match s.ctx (job / 1024) with
  | none => none
  | some c =>
    match c.window[job % 1024]? with
    | some e => if ctxRuns c && e.started && !e.done && e.kernel.isNone && decide ((e.card.getD 1 0).toNat = engine) then some (job / 1024, e) else none
    | none => none

/-- A job of the window changed. -/
def setJob (s : State) (oid : Nat) (old new : Entry) : State :=
  match s.ctx oid with
  | some c => s.setCtx oid { c with window := c.window.map fun x => if x = old then new else x }
  | none => s

/-- A job stops at a fault: the record of the engine and the queue fault, which name the access and the engine (R248). The command is read again, and starts again whole, when its
queue is resumed (R95, R229); a PUT_ADD goes on from the bytes acked (R321). -/
def jobFault (s : State) (oid : Nat) (e : Entry) (engine reason va acc : Nat) (leaf : W64) : State :=
  let why := reasonOf reason
  let s1 := engineRecord s (ctxPart s oid) oid va reason acc engine leaf 0
  let op := (e.card.getD 8 0).toNat
  let s0 := if engine = 2 ∧ (op = 1 ∨ op = 2) then
      modQueue s1 oid e.queue fun q => { q with added := (e.seq, e.card, e.progress) :: q.added.filter fun a => decide (a.1 ≠ e.seq) }
    else s1
  let s2 := unread (setJob s0 oid e { e with started := false, progress := 0, sentAt := none }) oid e.queue e.seq e.addr
  faultQueueBy s2 oid e.queue (if why = rUncorrData ∨ why = rUncorrTable then 6 else 5) e.addr (acc + 8) engine

/-- A job moves on, and completes at its total. -/
def jobAdvance (s : State) (oid : Nat) (e : Entry) (progress total : Nat) : State :=
  if total ≤ progress then commandDone s oid e.queue e.seq else setJob s oid e { e with progress := progress }

/-- Bytes written over translated pieces, with the address of the first piece of which part was dropped at an error (R256). -/
def jobWrite (s : State) : List (Nat × Nat × Nat) → List Byte → State × Option Nat
  | [], _ => (s, none)
  | p :: r, bs =>
    let w := homeWrite s none p.2.1 (bs.take p.2.2)
    let x := jobWrite w.1 r (bs.drop p.2.2)
    (x.1, if w.2 then some p.1 else x.2)

/-- Ranges translated one after the other for an engine of a cluster: all of them, or the first that waits or fails. -/
def spanAll (code cl oid acc : Nat) : List (Nat × Nat) → State → State × (List (Nat × List (Nat × Nat × Nat)) ⊕ ERes)
  | [], s => (s, .inl [])
  | (va, n) :: r, s =>
    let x := engineSpan s code cl oid (xva (va % 2 ^ 64)) n acc
    match x.2 with
    | .ok ps =>
      match if acc % 2 = 1 then spanBad x.1 ps else none with
      | some v => (x.1, .inr (.fault rUncorrData v 0))
      | none =>
        let b := spanAll code cl oid acc r x.1
        match b.2 with
        | .inl l => (b.1, .inl ((va, ps) :: l))
        | .inr y => (b.1, .inr y)
    | y => (x.1, .inr y)

/-! ## Copy jobs (R236, R238) -/

/-- The parts of rows between two places of the row-major order: row, first byte, bytes. -/
def rowParts (row : Nat) : Nat → Nat → Nat → List (Nat × Nat × Nat)
  | 0, _, _ => []
  | fuel + 1, pos, stop =>
    if stop ≤ pos then []
    else
      let n := Nat.min (row - pos % row) (stop - pos)
      (pos / row, pos % row, n) :: rowParts row fuel (pos + n) stop

/-- The next bytes of a copy job, up to a 128-byte boundary of its row-major order. -/
def execCopyJob (job : Nat) (s : State) : Out :=
  .next (match jobAt s job 0 with
    | none => s
    | some (oid, e) =>
      let b := fieldOf e.card
      let row := b 24 8
      let total := row * b 32 4
      let stop := Nat.min total (128 * (e.progress / 128 + 1))
      let parts := rowParts row 128 e.progress stop
      let span := fun (acc base stride : Nat) (st : State) => spanAll 0 (b 4 2) oid acc (parts.map fun p => (base + p.1 * stride + p.2.1, p.2.2)) st
      let fail := fun (st : State) (y : ERes) (acc : Nat) => match y with | .fault reason va leaf => jobFault st oid e 0 reason va acc leaf | _ => st
      let src := span accR (b 8 8) (b 40 8) s
      match src.2 with
      | .inr y => fail src.1 y accR
      | .inl ps =>
        let dst := span accW (b 16 8) (b 48 8) src.1
        match dst.2 with
        | .inr y => fail dst.1 y accW
        | .inl qs =>
          let w := jobWrite dst.1 (qs.flatMap (·.2)) (ps.flatMap fun x => spanBytes dst.1 x.2)
          match w.2 with
          | some va => jobFault w.1 oid e 0 rUncorrData va accW 0
          | none => jobAdvance w.1 oid e stop total)

/-! ## Gather and deduplicate (R237) -/

/-- The distinct members of a list, in the order of their first place. -/
def distinct (l : List Nat) : List Nat := l.foldl (fun acc x => if acc.contains x then acc else acc ++ [x]) []

/-- The pieces of a range among those translated. -/
def piecesOf (l : List (Nat × List (Nat × Nat × Nat))) (va : Nat) : List (Nat × Nat × Nat) := match l.find? fun x => decide (x.1 = va) with | some x => x.2 | none => []

/-- 4-byte elements added to a row, one by one. -/
def addElems (float : Bool) (row src : List Byte) : List Byte :=
  (List.range (row.length / 4)).flatMap fun i =>
    leBytes 4 (atomNew (if float then 12 else 0) 4 (leNat ((row.drop (4 * i)).take 4)) (leNat ((src.drop (4 * i)).take 4)) 0)

/-- One more write of a window: the address of a drop that came before stays. -/
def windowWriteRow (x : State × Option Nat) (ps : List (Nat × Nat × Nat)) (bs : List Byte) : State × Option Nat :=
  let w := jobWrite x.1 ps bs
  (w.1, x.2.or w.2)

/-- A window of a GATHER: each distinct index's row goes to every position that holds it; the address of the first drop (R256). -/
def gatherWindow (bytes rows : Nat) (trow drow : Nat → Nat) (ts ds : List (Nat × List (Nat × Nat × Nat))) (pos : List (Nat × Nat)) (s : State) : State × Option Nat :=
  (distinct (pos.map (·.2))).foldl (fun st i =>
    let bs := if i < rows then spanBytes st.1 (piecesOf ts (trow i)) else List.replicate bytes 0
    (pos.filter fun p => decide (p.2 = i)).foldl (fun st2 p => windowWriteRow st2 (piecesOf ds (drow p.1)) bs) st) (s, none)

/-- A window of a SCATTER_ADD: each distinct index's positions are added to its row, which is written once; the address of the first
drop (R256). -/
def scatterWindow (float : Bool) (rows : Nat) (trow drow : Nat → Nat) (ts ds : List (Nat × List (Nat × Nat × Nat))) (pos : List (Nat × Nat)) (s : State) : State × Option Nat :=
  (distinct (pos.map (·.2))).foldl (fun st i =>
    if rows ≤ i then st
    else
      let ps := piecesOf ts (trow i)
      let v := (pos.filter fun p => decide (p.2 = i)).foldl (fun v p => addElems float v (spanBytes st.1 (piecesOf ds (drow p.1)))) (spanBytes st.1 ps)
      windowWriteRow st ps v) (s, none)

/-- The next window of 1,024 positions of a gather job. The engine is its die's; which cluster's TLB and copy engine serve it the spec does
not say, and the model takes those of the die's first cluster, 4 × die (DESIGN CHOICE, log entry 67). -/
def execGatherJob (job : Nat) (s : State) : Out :=
  .next (match jobAt s job 1 with
    | none => s
    | some (oid, e) =>
      let b := fieldOf e.card
      let cl := 4 * b 4 2
      let isz := 2 ^ b 9 1
      let bytes := b 12 4
      let total := b 24 8
      let rows := b 56 8
      let n := Nat.min 1024 (total - e.progress)
      let gather := decide (b 8 1 = 0)
      let stop := fun (st : State) (y : ERes) (acc : Nat) => match y with | .fault reason va leaf => jobFault st oid e 1 reason va acc leaf | _ => st
      let ix := spanAll 1 cl oid accR [(b 16 8 + isz * e.progress, isz * n)] s
      match ix.2 with
      | .inr y => stop ix.1 y accR
      | .inl l =>
        let raw := l.flatMap fun x => spanBytes ix.1 x.2
        let pos := (List.range n).map fun i => (e.progress + i, leNat ((raw.drop (isz * i)).take isz))
        let trow := fun (i : Nat) => (b 32 8 + i * b 40 8) % 2 ^ 64
        let drow := fun (p : Nat) => (b 48 8 + p * bytes) % 2 ^ 64
        let live := (distinct (pos.map (·.2))).filter fun i => decide (i < rows)
        let tr := spanAll 1 cl oid (if gather then accR else accR + accW) (live.map fun i => (trow i, bytes)) ix.1
        match tr.2 with
        | .inr y => stop tr.1 y (if gather then accR else accR + accW)
        | .inl ts =>
          let need := pos.filter fun p => gather || decide (p.2 < rows)
          let dr := spanAll 1 cl oid (if gather then accW else accR) (need.map fun p => (drow p.1, bytes)) tr.1
          match dr.2 with
          | .inr y => stop dr.1 y (if gather then accW else accR)
          | .inl ds =>
            let w := if gather then gatherWindow bytes rows trow drow ts ds pos dr.1
              else scatterWindow (decide (b 8 1 = 1)) rows trow drow ts ds pos dr.1
            match w.2 with
            | some va => jobFault w.1 oid e 1 rUncorrData va accW 0
            | none => jobAdvance w.1 oid e (e.progress + n) total)

end Sys2Proof.Machine
end

