-- ==== Sys2Proof/Machine/Sched.lean ====
section
/-! DEFINITION. Arbitration and clause fetch, the ends of waits, time slices, and words whose opcode no instruction has (R30 to
R35, R49, R51, R82, R83, R113 to R116, R120, R213, R310, R347). -/

namespace Sys2Proof.Machine

/-! ## Eligible teams (R33, R113, R115) -/

/-- The header of a team's next clause, as a fetch would find it; none when it does not translate. -/
def peekHeader (s : State) (t : Team) : Option W64 :=
  if !headerOk t.h || t.farH then none else
  match walk s t.oid (extVA t.h) accX with
  | .ok pa _ _ _ => if isPeer pa then none else some (BitVec.ofNat 64 (homeNat s pa 8))
  | _ => none

/-- Outstanding loads of a team: instructions whose data has not returned (R203). -/
def loadsOut (s : State) (k : Nat) : Nat := (s.loads.filter fun l => decide (l.2.team = k)).length

/-- One wait field: 15 is no condition. -/
def waitHolds (field n : Nat) : Bool := decide (field = 15 ∨ n ≤ field)

/-- The three waits of a header. -/
def waitsHold (s : State) (k : Nat) (t : Team) (hdr : W64) : Bool :=
  waitHolds (hdrLdw hdr) (loadsOut s k) && waitHolds (hdrStw hdr) t.storesOut.length && waitHolds (hdrMxw hdr) t.mxOut

/-- The team may win its pipe. A header that a fetch cannot take has no waits: its fetch faults. -/
def eligible (s : State) (k : Nat) (t : Team) : Bool :=
  decide (t.state = .ready) && !t.entering && t.clause.isEmpty && t.busyLeaf.isNone && !halted s k t &&
    (match peekHeader s t with | some h => waitsHold s k t h | none => true)

/-- The core lets a team of its active bank issue: it holds a context, whose teams those are, and the turn is not one of idling (R310). -/
def coreServes (s : State) (core : Nat) : Bool := (s.core core).activeBank.owner.isSome && !(s.core core).idleTurn

/-- The eligible teams of a pipe, by slot; a core has the pipes 0 to 7 (R9). -/
def contenders (s : State) (core pipe : Nat) : List (Nat × Team) :=
  if 64 ≤ core ∨ 8 ≤ pipe ∨ coreServes s core = false then []
  else (List.range 8).filterMap fun i =>
    let k := s.activeKey core (8 * i + pipe)
    match s.team k with | some t => if eligible s k t then some (k, t) else none | none => none

/-- The first team beats the second (R115). -/
def beats (h : Hist) (a b : Team) : Bool :=
  let ga := decide (a.passOver = 64)
  let gb := decide (b.passOver = 64)
  if ga ≠ gb then ga
  else if ga then decide (a.age < b.age)
  else if a.yielded ≠ b.yielded then !a.yielded
  else if cctOf h a.h ≠ cctOf h b.h then decide (cctOf h b.h < cctOf h a.h)
  else decide (a.age < b.age)

/-- The winner of a list. -/
def winnerOf (h : Hist) : List (Nat × Team) → Option (Nat × Team)
  | [] => none
  | x :: r => match winnerOf h r with | some y => if beats h y.2 x.2 then some y else some x | none => some x

/-- Every eligible team that loses adds one to its pass-over count; the winner's count and yielded bit become 0. -/
def countLosses (s : State) (win : Nat) (cs : List (Nat × Team)) : State :=
  cs.foldl (fun st x => st.modTeam x.1 fun t =>
    if x.1 = win then { t with passOver := 0, yielded := false } else { t with passOver := Nat.min (t.passOver + 1) 64 }) s

/-! ## What a team takes before it issues (R28, R206, R298, R347) -/

/-- The team is at a point at which held causes are delivered: before the first word of a clause, or where it resumes after its
handler, its swap or its load (R63, R347). -/
def heldPoint (t : Team) : Bool := !t.handler && decide (t.pending ≠ 0) && (decide (t.i = 0) || t.atResume)

/-- What a team takes once its clause has been fetched and before its word issues, if anything: the FP report of the clause that it
has completed, then its held causes. At a clause boundary the errors of its loads' data are among them (R206, R298, R347). -/
def beforeIssue (s : State) (k : Nat) (t : Team) (hdr : W64) : Option State :=
  match if t.i = 0 ∧ t.handler = false then t.fpReport else none with
  | some r =>
    some (deliver (s.setTeam k { t with fpReport := none }) k
      { h := t.h, i := 0, inst := r.word, hdr := hdr, cause := r.cause, addr := BitVec.ofNat 64 (r.i % 32 + r.lane % 1024 * 2 ^ 16),
        mask := maskOf 1024 fun L => decide (L = r.lane) })
  | none =>
    let u := if t.i = 0 then holdPoison t else t
    if heldPoint u then some (deliverHeld (s.setTeam k u) k hdr) else none

/-- The CCT learns the wait since the team's last clause completed (R82). -/
def learnCct (s : State) (k : Nat) (t : Team) : State :=
  match t.cct with
  | none => s
  | some (h, c) => learn (s.setTeam k { t with cct := none }) (keyCore k) t.oid fun b => cctLearn b h (Nat.min 255 (s.cycle - c))

/-- The winner takes the pipe, or parks at a yield point once the deadline has expired (R34, R116). -/
def takePipe (s : State) (k : Nat) (t : Team) : State :=
  let core := keyCore k
  let point := match peekHeader s t with | some h => hdrOk h && hdrYield h | none => false
  if point && deadlinePast s core && decide (t.i = 0) then
    bumpCounter (s.setTeam k { t with state := .parked, waitKind := .deadline, wait := 0 }) core 7 1
  else
    let s1 := learnCct s k t
    let c := s1.core core
    s1.setCore core { c with pipes := c.pipes.put (keyPipe k) (keySlot k) }

/-- A free pipe picks a team. -/
def arbitrate (s : State) (core pipe : Nat) : State :=
  let c := s.core core
  if (c.pipes.find pipe).isSome || c.swap.isSome then s
  else
    let cs := contenders s core pipe
    match winnerOf c.activeBank.hist cs with
    | none => s
    | some w =>
      let s1 := countLosses s w.1 cs
      match s1.team w.1 with
      | none => s1
      | some t => takePipe s1 w.1 t

def execClauseArbitration (s : State) : Out := .next (arbitrate s s.sel.core s.sel.pipe)

/-- Once the deadline of the core has expired, the pipe's next arbitration parks a winner at a yield point. -/
def execCooperativeDeadlineExpiry (s : State) : Out :=
  .next (if deadlinePast s s.sel.core then arbitrate s s.sel.core s.sel.pipe else s)

/-! ## Clause fetch (R32, R247, R294) -/

/-- A clause fault at the resume point (H, 0): an FP report of the clause that it stops is held (R28); that of the clause before
it is still to be delivered. -/
def clauseFault (s : State) (k : Nat) (t : Team) (bits addr word : W64) : State :=
  let s1 := freePipe s k
  if t.handler then
    s1.setTeam k { holdAt t { h := t.h, i := 0, inst := word, hdr := word, cause := bits, addr := addr, mask := t.e } with clause := [], i := 0 }
  else
    deliver (s1.setTeam k { (if t.i = 0 then setSticky t else holdReport (setSticky t)) with i := 0 }) k
      { h := t.h, i := 0, inst := word, hdr := word, cause := bits, addr := addr, mask := t.e }

/-- A fetch that does not translate, by reason (R247). -/
def fetchFail (s : State) (k : Nat) (t : Team) (va reason : Nat) (leaf : W64) : State :=
  let a := BitVec.ofNat 64 va
  if reason = rFirstTouch then clauseFault s k t (cPage ||| cReason reason) a 0
  else if reason = rUncorrTable ∨ reason = rUncorrData then
    clauseFault (pageRecord s (ctxPart s t.oid) t.oid va reason accX (keyCore k) (keySlot k) 0 0) k t cUncorrectable a 0
  else hostWait (filteredRecord s k t va reason accX leaf 0) k t va reason accX 0 0 t.e

/-- What the translation of one page of a clause comes to. -/
inductive FRes where
  | got (s : State) (pa : Nat)
  | stop (s : State)

def fetchPage (s : State) (k : Nat) (t : Team) (va : Nat) : FRes :=
  let cl := clusterOf (keyCore k)
  let x := xlat s (some (keyCore k)) cl t.oid va accX
  match x.2 with
  | .ok pa _ e _ => if isPeer pa then .stop (fetchFail x.1 k t va rSegment e) else .got x.1 pa
  | .busy q e => .stop (leafWait x.1 k q e)
  | .parked q e => .stop (leafWait (wantPageIn x.1 cl t.oid q e va accX (some k) t.e 0) k q (busyOf e))
  | .fail reason e => .stop (fetchFail x.1 k t va reason e)

/-- The checks of a fetched clause's header and of the resume point. A resume point past the last word ends the clause (R294). A
header whose waits do not hold yet leaves the pipe to others: an arbitration that could not read it has not evaluated them (R33).
Otherwise what the team has to take first is delivered, or the clause is its own. -/
def takeClause (s : State) (k : Nat) (t : Team) (hdr : W64) (words : List W64) : State :=
  let n := hdrCount hdr
  if !hdrOk hdr || decide (n < t.i) then clauseFault s k t cIllegalClause t.h hdr
  else if !waitsHold s k t hdr then freePipe s k
  else if t.i = n then completeClause (s.setTeam k { t with clause := hdr :: words }) k (t.h + 8 + 8 * BitVec.ofNat 64 n)
  else
    match beforeIssue s k t hdr with
    | some s1 => s1
    | none => s.setTeam k { (if t.i = 0 then holdPoison t else t) with clause := hdr :: words }

/-- n words of memory. -/
def wordsAt (s : State) (pa n : Nat) : List W64 := (List.range n).map fun i => BitVec.ofNat 64 (homeNat s (pa + 8 * i) 8)

/-- The offset of the lowest of n bytes from a physical address that lies in a granule with an error (R256). -/
def firstBad (s : State) (pa n : Nat) : Option Nat :=
  (s.bad.filter fun g => decide (32 * g < pa + n ∧ pa < 32 * g + 32)).foldl (fun m g =>
    let o := 32 * g - pa
    match m with | some x => some (Nat.min x o) | none => some o) none

/-- The whole clause is fetched: the page of its header, then the page of its last word. A header that fails its checks still
names the clause's words, when its count is 1 to 24, and a word that cannot be fetched is met first. An address that is no valid
header fetches nothing, and %einst and %ehdr are zero (R32, R294, log entry 57). -/
def fetchClause (s : State) (k : Nat) (t : Team) : State :=
  let va := extVA t.h
  if !headerOk t.h || t.farH then clauseFault s k t cIllegalClause t.h 0
  else
    match fetchPage s k t va with
    | .stop s1 => s1
    | .got s1 pa =>
      if badAt s1 pa 8 then fetchFail s1 k t va rUncorrData 0
      else
        let hdr := BitVec.ofNat 64 (homeNat s1 pa 8)
        let n := if hdrCount hdr ≤ 24 then hdrCount hdr else 0
        let here := Nat.min n ((2 ^ 18 - va % 2 ^ 18) / 8 - 1)
        let next := va + 8 + 8 * here
        match firstBad s1 (pa + 8) (8 * here) with
        | some o => fetchFail s1 k t (va + 8 + o) rUncorrData 0
        | none =>
          if here = n then takeClause s1 k t hdr (wordsAt s1 (pa + 8) n)
          else
            match fetchPage s1 k t next with
            | .stop s2 => s2
            | .got s2 pb =>
              match firstBad s2 pb (8 * (n - here)) with
              | some o => fetchFail s2 k t (next + o) rUncorrData 0
              | none => takeClause s2 k t hdr (wordsAt s2 (pa + 8) here ++ wordsAt s2 pb (n - here))

/-- The team that holds the pipe at State.sel fetches its clause. -/
def execClauseFetch (s : State) : Out :=
  .next (match s.selKey with
    | none => s
    | some k =>
      match s.team k with
      | none => s
      | some t => if t.clause.isEmpty && decide (t.state = .ready) && t.busyLeaf.isNone && !t.entering && !halted s k t then fetchClause s k t else s)

/-! ## The ends of waits (R120, R213) -/

def execSleepWake (core slot : Nat) (s : State) : Out :=
  .next (let k := s.activeKey core slot
    match s.team k with
    | none => s
    | some t => if t.state = .sleeping ∧ t.wake ≤ s.tick then s.setTeam k { t with state := .ready, wake := 0 } else s)

/-- The condition or the deadline of a wait has come. -/
def waitOver? (s : State) (k : Nat) (t : Team) : Bool :=
  let w := t.wait
  match t.waitKind with
  | .addr =>
    let n := 2 ^ (waitField w 10 1 / 16)
    pastDeadline s (waitField w 24 8) || (match walk s t.oid (waitField w 0 10) accR with
      | .ok pa _ _ _ => waitCond (waitField w 10 1 % 16) n (homeNat s pa n) (waitField w 16 8)
      | _ => false)
  | .ring =>
    let r := fillRing s t.gang (keyCore k) (waitField w 0 4)
    pastDeadline s (waitField w 16 8) || decide (waitField w 4 4 < filled r) || !fillGood r (waitField w 0 4) (spAlloc s t)
  | .seq =>
    pastDeadline s (waitField w 16 8) || (match completionOf s t.oid (waitField w 0 4) with
      | some v => decide (waitField w 24 8 ≤ v)
      | none => true)
  | _ => false

def execWaitWake (core slot : Nat) (s : State) : Out :=
  .next (let k := s.activeKey core slot
    match s.team k with
    | none => s
    | some t => if t.state = .waiting ∧ waitOver? s k t = true then s.setTeam k { t with state := .ready } else s)

/-! ## Words without an instruction (R49, R51) -/

/-- Decode check 1 fails at the team that holds the pipe at State.sel. -/
def illegalWord (s : State) : State :=
  match s.selKey with
  | none => s
  | some k =>
    match s.team k with
    | none => s
    | some t => if canIssue t && !halted s k t then decodeFault s k t cIllegalOp else s

/-- The word stands in the team's clause, from which the frame takes it. -/
def execTranslationRangeWord (_word : BitVec 64) (s : State) : Out := .next (illegalWord s)
def execUnassignedOpcodeWord (_word : BitVec 64) (s : State) : Out := .next (illegalWord s)

/-! ## Time slices (R310) -/

/-- The partitions that share a core by time, ascending. -/
def sliceParts (s : State) (core : Nat) : List Nat :=
  (List.range 25).filter fun p => inPartition s p core && decide (bitsAt (s.part p).slice.toNat 0 32 ≠ 0)

/-- The partition whose turn comes after one. -/
def nextPart (ps : List Nat) (cur : Option Nat) : Option Nat :=
  match cur with
  | none => ps.head?
  | some p => (ps.find? fun q => decide (p < q)).or ps.head?

/-- The running turn of a core may end: its deadline has expired, no team of its active context is READY, or the core has stayed idle for the
turn, and that context lets itself be swapped out. -/
def turnOver (s : State) (core : Nat) : Bool :=
  let c := s.core core
  match c.slicePart with
  | none => true
  | some _ =>
    deadlinePast s core && outgoingOk s core &&
      (c.idleTurn || !s.teams.any fun e => decide (keyCore e.1 = core ∧ keyBank e.1 = c.active ∧ e.2.state = .ready))

/-- A core that no time-sliced partition has is no longer timed: the deadline is unarmed, and since an unarmed deadline never expires the
teams that it parked are READY (R116, R309; DEDUCED, log entry 42). -/
def disarm (s : State) (core : Nat) : State :=
  let c := s.core core
  if c.slicePart.isNone then s
  else
    let s1 := s.setCore core { c with slicePart := none, deadline := none, idleTurn := false }
    { s1 with teams := s1.teams.map fun (e : Nat × Team) =>
        (e.1, if keyCore e.1 = core ∧ e.2.state = .parked ∧ e.2.waitKind = .deadline then { e.2 with state := .ready, waitKind := .none } else e.2) }

/-- A partition's turn begins: the deadline is armed and the teams that it parked are READY. -/
def beginTurn (s : State) (core p : Nat) : State :=
  let c := s.core core
  let s1 := s.setCore core { c with slicePart := some p, deadline := some (s.tick + bitsAt (s.part p).slice.toNat 0 32), idleTurn := false }
  { s1 with teams := s1.teams.map fun (e : Nat × Team) =>
      (e.1, if keyCore e.1 = core ∧ e.2.state = .parked ∧ e.2.waitKind = .deadline ∧ ctxPart s e.2.oid = p
        then { e.2 with state := .ready, waitKind := .none } else e.2) }

/-- The core stays idle for the turn: its active context is none of the partition's, and none is staged. -/
def idleFor (s : State) (core : Nat) : State := let c := s.core core; s.setCore core { c with idleTurn := true }

/-- The core of State.sel goes on to the next partition: a swap to the context that it has staged, or to none; while another partition's
context is staged there, none is swapped in and the core stays idle. A core whose context has PREEMPT = 0 is never swapped: it leaves by
ctx.save, and only its own partition's turn begins there (R64). -/
def execTimeSliceTurnEnd (s : State) : Out :=
  .next (let core := s.sel.core
    let c := s.core core
    let sh := c.bank c.shadow
    match nextPart (sliceParts s core) c.slicePart with
    | none => disarm s core
    | some p =>
      if !turnOver s core || c.swap.isSome || sh.spilling || sh.staging then s
      else
        let s1 := beginTurn s core p
        let mine : Option Nat → Bool := fun o => match o with | some x => decide (ctxPart s x = p) | none => false
        if mine c.activeBank.owner && !outgoingOk s core then s1
        else if !outgoingOk s core then s
        else if mine sh.owner then requestSwap s1 core sh.owner
        else if mine c.activeBank.owner || c.activeBank.owner.isNone then s1
        else if sh.owner.isNone then requestSwap s1 core none
        else idleFor s1 core)

end Sys2Proof.Machine
end

