-- ==== Sys2Proof/Machine/Link.lean ====
section
/-! DEFINITION. GZL ports, flits received, peers, collective cards and replica exchanges (R315 to R322, R331). -/

namespace Sys2Proof.Machine

/-! ## Port states (R316) -/

/-- A request of a card fails, and with it the card (R321). -/
def failJob (s : State) (id : Nat) (j : Nat × Nat × Nat) (reason : Nat) : State :=
  let s1 := { s with peers := s.peers.erase id }
  match (s1.ctx j.1).bind fun c => c.window.find? fun e => decide (e.queue = j.2.1 ∧ e.seq = j.2.2) with
  | some e => jobFault s1 j.1 e 2 reason 0 accW 0
  | none => s1

/-- A request fails, a card's or a team's (R320, R321). -/
def failRequest (s : State) (id : Nat) (r : PeerReq) : State := match r.job with | some j => failJob s id j rUncorrData | none => failPeer s id

/-- A peer refuses a request: a card's fails, and a team's waits for the host (R247, R319, R321). -/
def refuseRequest (s : State) (id : Nat) (r : PeerReq) : State := match r.job with | some j => failJob s id j rSegment | none => refusePeer s id r

/-- The requests of a port fail: those that were sent, or all of them; one that the peer has refused is with the host. -/
def failPort (s : State) (port : Nat) (all : Bool) : State :=
  (s.peers.filter fun r => decide (r.2.port = port) && !r.2.refused && (all || r.2.sent)).foldl (fun st r => failRequest st r.1 r.2) s

/-- Requests that waited are sent. -/
def sendWaiting (s : State) (port : Nat) : State :=
  (s.peers.filter fun r => decide (r.2.port = port) && !r.2.sent && !r.2.refused).foldl (fun st r =>
    { sendFlit st port (r.2.kind + 1) (requestPayload r.2) with peers := st.peers.put r.1 { r.2 with sent := true } }) s

/-- A port has left ACTIVE or DEGRADED: a card that has sent its digest on it, and whose partner's flit has not come, has waited in vain
(R322). -/
def leaveReplicas (s : State) (port : Nat) : State :=
  let come : Nat → Bool := fun step => (s.port port).replicas.any fun r => decide (r.1 = step)
  let leave : Entry → Entry := fun e =>
    if e.kernel.isNone ∧ fieldOf e.card 1 1 = 2 ∧ fieldOf e.card 8 2 = 3 + 256 * port ∧ come (fieldOf e.card 24 8) = false
    then { e with sentAt := e.sentAt.map fun x => { x with left := true } } else e
  { s with ctxs := s.ctxs.map fun (c : Nat × Ctx) => (c.1, { c.2 with window := c.2.window.map leave }) }

/-- A port's state changes: PORT_STAT and MSI-X vector 3. Requests that were outstanding fail when it leaves ACTIVE or DEGRADED,
and waiting ones too when it is DOWN or FENCED (R316, R320). Training begins the order of flits anew. -/
def setPState (s : State) (port : Nat) (st : PState) (lanes : Nat) : State :=
  let p := s.port port
  if p.state = st then s
  else
    let p1 := { p with state := st, lanes := lanes }
    let p2 := if st = .training
      then { p1 with trainStart := s.tick, replay := [], replayed := none, consecutive := 0, expect := none, early := [], freed := 0 } else p1
    let s0 := { s.setPort port p2 with msix := s.msix ++ [(0, 3)] }
    let s1 := if portUp s port && decide (st ≠ .active ∧ st ≠ .degraded) then leaveReplicas s0 port else s0
    match st with
    | .active => sendWaiting s1 port
    | .degraded => sendWaiting s1 port
    | .training => failPort s1 port false
    | _ => failPort s1 port true

def modPort (s : State) (port : Nat) (f : Port → Port) : State := s.setPort port (f (s.port port))

/-- GZL is accepted: the part runs, and runs it (R311, R312). -/
def gzlOn (s : State) : Bool := s.dev.run && featOn s 3

def portEnable (s : State) (port : Nat) : State :=
  let s1 := modPort s port fun p => { p with enable := true }
  if gzlOn s && decide ((s.port port).state = .down) then setPState s1 port .training 0 else s1
def portDisable (s : State) (port : Nat) : State := setPState (modPort s port fun p => { p with enable := false }) port .down 0
def portRetrain (s : State) (port : Nat) : State := if portUp s port then setPState s port .training 0 else s
def portFence (s : State) (port : Nat) : State :=
  let s1 := modPort s port fun p => { p with fence := true }
  if portUp s port then setPState s1 port .fenced (s.port port).lanes else s1
/-- The replica fence: the port is FENCED, whatever state it was in (R316, R331). -/
def replicaFence (s : State) (port : Nat) : State := setPState (modPort s port fun p => { p with fence := true }) port .fenced (s.port port).lanes
def portUnfence (s : State) (port : Nat) : State :=
  let s1 := modPort s port fun p => { p with fence := false }
  if (s.port port).state = .fenced then setPState s1 port .training 0 else s1

def execPortEnable (port : Nat) (s : State) : Out := .next (portEnable s port)
def execPortDisable (port : Nat) (s : State) : Out := .next (portDisable s port)
def execPortRetrain (port : Nat) (s : State) : Out := .next (portRetrain s port)
def execPortFence (port : Nat) (s : State) : Out := .next (portFence s port)
def execPortUnfence (port : Nat) (s : State) : Out := .next (portUnfence s port)

def execPortTrainingComplete (port lanes : Nat) (s : State) : Out :=
  .next (if (s.port port).state ≠ .training then s
    else if 4 ≤ lanes then setPState s port .active 4
    else if 2 ≤ lanes then setPState s port .degraded 2
    else s)

def execPortTrainingTimeout (port : Nat) (s : State) : Out :=
  .next (if (s.port port).state = .training ∧ (s.port port).trainStart + 10 ^ 8 ≤ s.tick then setPState s port .down 0 else s)

def execLaneLost (port : Nat) (s : State) : Out := .next (if (s.port port).state = .active then setPState s port .training 0 else s)
def execLossOfSignal (port : Nat) (s : State) : Out := .next (setPState s port .down 0)

/-! ## Replays (R315, R316) -/

/-- The sequence of a flit. -/
def flitSeq (flit : List Byte) : Nat := fieldOf flit 1 1

/-- Flits pass on the port: all kinds, or only those of a replica exchange and the nacks that replay them (R316). -/
def portPasses (s : State) (port : Nat) : Bool := portUp s port || decide ((s.port port).state = .fenced)

/-- A flit of the replay buffer is sent again as it was; the eighth consecutive replay of one flit fences the port. -/
def replayFlit (s : State) (port : Nat) (which : List Byte → Bool) : State :=
  let p := s.port port
  match if portPasses s port then p.replay.find? which else none with
  | none => s
  | some f =>
    let n := if p.replayed = some (flitSeq f) then p.consecutive + 1 else 1
    let s1 := { s.setPort port { p with replays := (p.replays + 1) % 2 ^ 32, replayed := some (flitSeq f), consecutive := n } with
      outbox := s.outbox ++ [(port, f)] }
    if 8 ≤ n then portFence s1 port else s1

/-- The oldest flit of the replay buffer is the one that a nack of the link answers. -/
def execNackReplay (port : Nat) (s : State) : Out := .next (replayFlit s port fun _ => true)

/-- The peer has freed receive buffers: the oldest flits leave the replay buffer (R315). -/
def takeCredits (n : Nat) (p : Port) : Port :=
  let rest := p.replay.drop n
  let again := rest.any fun f => decide (p.replayed = some (flitSeq f))
  { p with replay := rest, replayed := if again then p.replayed else none, consecutive := if again then p.consecutive else 0 }

/-! ## Flits received (R315, R318, R319) -/

/-- A device physical range that an inbound request may reach: inside INWIN and inside one tier. -/
def inboundOk (s : State) (port pa n : Nat) : Bool :=
  let p := s.port port
  decide (p.inBase.toNat ≤ pa ∧ pa + n ≤ p.inBase.toNat + p.inBound.toNat) &&
    [0, 1, 2].any fun t => let r := tierRange t; decide (r.1 ≤ pa ∧ pa + n ≤ r.2)

/-- A peer's read. -/
def inboundRead (s : State) (port : Nat) (f : Nat → Nat → Nat) : State :=
  let pa := f 16 8
  let n := f 24 1
  if !inboundOk s port pa n then sendFlit s port 6 [1]
  else if badAt s pa n then sendFlit s port 6 [2]
  else sendFlit s port 4 (homeBytes s pa n)

/-- A peer's write. -/
def inboundWrite (s : State) (port : Nat) (f : Nat → Nat → Nat) : State :=
  let pa := f 16 8
  let n := Nat.min (f 24 1) 128
  if !inboundOk s port pa n then sendFlit s port 6 [1]
  else
    let w := homeWrite s none pa (leBytes n (f 32 n))
    sendFlit w.1 port (if w.2 then 6 else 5) (if w.2 then [2] else [])

/-- A peer's atomic, performed at the home slice (R210). -/
def inboundAtomic (s : State) (port : Nat) (f : Nat → Nat → Nat) : State :=
  let pa := f 16 8
  let n := f 24 1
  let op := f 25 1
  if !inboundOk s port pa n then sendFlit s port 6 [1]
  else if badAt s pa n then sendFlit s port 6 [2]
  else
    let old := homeNat s pa n
    let d := f 32 8 % 2 ^ (8 * n)
    let c := f 40 8 % 2 ^ (8 * n)
    let s1 := if atomWrites op old c then homePutNat s none pa n (atomNew op n old d c) else s
    if f 26 1 = 1 then sendFlit s1 port 4 (leBytes n old) else sendFlit s1 port 5 []

/-- The oldest request that a port has sent and that a condition selects. -/
def oldestPeer (s : State) (port : Nat) (p : PeerReq → Bool) : Option (Nat × PeerReq) :=
  s.peers.find? fun r => decide (r.2.port = port) && r.2.sent && !r.2.refused && p r.2

/-- A compare-and-swap at a peer has answered with the old value: only one that succeeded was a write, which sets D and enters the digest
in its place of the commit order (R211, R245, R329). -/
def peerCas (s : State) (id : Nat) (r : PeerReq) (bs : List Byte) : State :=
  let n := leNat ((r.data.drop 1).take 1)
  match if r.kind = 2 ∧ r.data.head? = some 9 then r.team else none with
  | some k =>
    if bs.take n = (r.data.drop 10).take n then digestAnswer (setD s (clusterOf (keyCore k)) r.oid r.va) k id [.data r.va ((r.data.drop 2).take n)]
    else digestAnswer s k id []
  | none => s

/-- A request has been performed at its peer: an access with acquire acquires after it (R183, R186, R203). -/
def peerAcquire (s : State) (r : PeerReq) : State :=
  match r.team, r.acq with
  | some k, some scope => (match s.team k with | some t => acquire s k t scope | none => s)
  | _, _ => s

/-- The data of a read or an atomic that asks for the old value: its lane is bound. -/
def peerData (s : State) (port : Nat) (bs : List Byte) : State :=
  match oldestPeer s port asksOld with
  | none => s
  | some (id, r) =>
    let s1 := peerCas { s with peers := s.peers.erase id } id r bs
    let s2 := match r.load, r.team with
      | some (l, lane), _ =>
        { s1 with loads := s1.loads.modify l fun x => { x with lanes := x.lanes.map fun y =>
            if y.lane = lane then { y with data := some (bs.take x.size) } else y } }
      | none, some k => storeDone s1 k r.num
      | none, none => s1
    peerAcquire s2 r

/-- Bytes of a collective card have been acked. -/
def jobAcked (s : State) (oid queue seq n : Nat) : State :=
  match s.ctx oid with
  | none => s
  | some c => s.setCtx oid { c with window := c.window.map fun e => if e.queue = queue ∧ e.seq = seq then { e with progress := e.progress + n } else e }

/-- A store or an atomic without return has been accepted by the peer. -/
def peerAck (s : State) (port : Nat) : State :=
  match oldestPeer s port fun r => !asksOld r with
  | none => s
  | some (id, r) =>
    let s1 := { s with peers := s.peers.erase id }
    let s2 := match r.job, r.team with
      | some (o, q, n), _ => jobAcked s1 o q n (if r.kind = 1 then r.data.length else 4)
      | none, some k => storeDone s1 k r.num
      | none, none => s1
    peerAcquire s2 r

/-- A nack: the link's own (0) makes the flit of a sequence be sent again; 1 refuses the oldest request, which lies outside the peer's
INWIN, and 2 fails it at an uncorrectable error (log entry 14). -/
def peerNack (s : State) (port code seq : Nat) : State :=
  if code = 0 then replayFlit s port fun f => decide (flitSeq f = seq)
  else
    match oldestPeer s port fun _ => true with
    | none => s
    | some (id, r) => if code = 1 then refuseRequest s id r else failRequest s id r

/-- What a good flit does, by kind. -/
def deliverFlit (s : State) (port kind : Nat) (f : Nat → Nat → Nat) : State :=
  match kind with
  | 1 => inboundRead s port f
  | 2 => inboundWrite s port f
  | 3 => inboundAtomic s port f
  | 4 => peerData s port (leBytes 232 (f 16 232))
  | 5 => peerAck s port
  | 6 => peerNack s port (f 16 1) (f 17 1)
  | 7 => modPort s port fun p => { p with replicas := p.replicas ++ [(f 16 8, f 24 8, f 8 8, s.tick)] }
  | _ => s

/-- The flit whose turn it is in the order of sending is delivered, and its buffer is freed. While the port is FENCED only replica flits
have an effect, and nacks of the link, which replay them (R315, R316). -/
def takeFlit (s : State) (port : Nat) (flit : List Byte) : State :=
  let kind := fieldOf flit 0 1
  let s1 := modPort s port fun p => { p with expect := some ((flitSeq flit + 1) % 256), freed := p.freed + 1 }
  if portUp s port || decide (kind = 7 ∨ (kind = 6 ∧ fieldOf flit 16 1 = 0)) then deliverFlit s1 port kind (fieldOf flit) else s1

/-- The flits held out of order whose turn has come are delivered. -/
def takeEarly (port : Nat) : Nat → State → State
  | 0, s => s
  | n + 1, s =>
    match (s.port port).early.find? fun f => decide (some (flitSeq f) = (s.port port).expect) with
    | some f => takeEarly port n (takeFlit (modPort s port fun p => { p with early := p.early.erase f }) port f)
    | none => s

/-- A nack of the link names the flit that is awaited (log entry 14). -/
def askAgain (s : State) (port : Nat) : State := match (s.port port).expect with | some n => sendFlit s port 6 [0, BitVec.ofNat 8 n] | none => s

/-- A good flit: its credits are taken, then it is delivered in its turn. One that comes before an awaited one is held; one that has been
delivered already is dropped. Either way the awaited one is asked for again (R315). -/
def orderFlit (s0 : State) (port : Nat) (flit : List Byte) : State :=
  let s := modPort s0 port (takeCredits (fieldOf flit 2 2))
  let p := s.port port
  match p.expect with
  | none => takeFlit s port flit
  | some e =>
    if flitSeq flit = e then
      let s1 := takeEarly port p.early.length (takeFlit s port flit)
      if (s1.port port).early.isEmpty then s1 else askAgain s1 port
    else if (flitSeq flit + 256 - e) % 256 < 128 then
      (if p.early.contains flit then s else modPort s port fun q => { q with early := q.early ++ [flit] })
    else askAgain s port

/-- A flit fails its check: a nack names the one that is awaited, or after training the one that has come. -/
def badFlit (s : State) (port : Nat) (flit : List Byte) : State :=
  askAgain (modPort s port fun p => { p with expect := p.expect.or (some (flitSeq flit)) }) port

/-- A flit arrives. A good one advances the Lamport clock, of 64 bits, also while the port trains; only while the port is ACTIVE, DEGRADED
or FENCED is it delivered (R315, R316, R318). Non-zero bytes 4 to 7 are ignored, since no rule says what they do: the model's choice (DESIGN
CHOICE, log entry 66). -/
def execFlitReceive (port : Nat) (flit : List (BitVec 8)) (s : State) : Out :=
  .next (if (s.port port).state = .down then s
    else if flit.length ≠ 256 ∨ flit.drop 248 ≠ flitCheck (flit.take 248) then (if portPasses s port then badFlit s port flit else s)
    else
      let s1 := { s with dev := { s.dev with lclk := Nat.max s.dev.lclk ((fieldOf flit 8 8 + 1) % 2 ^ 64) } }
      if portPasses s port then orderFlit s1 port flit else s1)

/-! ## Collective cards (R321) -/

/-- The device physical address of a peer behind an offset in a port's window, for n bytes. -/
def windowPa (s : State) (p port w n : Nat) : Option Nat :=
  let q := (s.part p).pwin
  if featOn s 2 = true ∧ w + n ≤ (q.get (2 * port + 1) 0).toNat then some ((q.get (2 * port) 0).toNat + w) else none

/-- The card has a request outstanding. -/
def jobWaits (s : State) (oid : Nat) (e : Entry) : Bool := s.peers.any fun r => decide (r.2.job = some (oid, e.queue, e.seq))

/-- A request of a card. -/
def jobRequest (oid : Nat) (e : Entry) (port kind pa : Nat) (data : List Byte) : PeerReq :=
  { port := port, kind := kind, pa := pa, data := data, va := 0, oid := oid, word := 0, hdr := 0, acq := none, load := none, team := none,
    num := 0, job := some (oid, e.queue, e.seq), hold := false, sent := false, refused := false }

/-- The next bytes or element of a card, then its signal word, one request at a time; after the last ack it completes. -/
def execCollectivePut (job : Nat) (s : State) : Out :=
  .next (match jobAt s job 2 with
    | none => s
    | some (oid, e) =>
      let b := fieldOf e.card
      let op := b 8 1
      let port := b 9 1
      let total := b 32 8
      let p := ctxPart s oid
      if op = 3 ∨ jobWaits s oid e = true then s
      else if portDead s port then jobFault s oid e 2 rUncorrData 0 accW 0
      else if !portUp s port then s
      else if e.progress < total then
        let n := if op = 0 then Nat.min 128 (total - e.progress) else 4
        let x := engineSpan s 2 0 oid (xva ((b 16 8 + e.progress) % 2 ^ 64)) n accR
        match x.2 with
        | .wait => x.1
        | .fault reason va leaf => jobFault x.1 oid e 2 reason va accR leaf
        | .ok ps =>
          match spanBad x.1 ps with
          | some va => jobFault x.1 oid e 2 rUncorrData va accR 0
          | none =>
            let bs := spanBytes x.1 ps
            match windowPa s p port (b 24 8 + e.progress) n with
            | none => jobFault x.1 oid e 2 rSegment 0 accW 0
            | some pa =>
              if op = 0 then askPeer x.1 (jobRequest oid e port 1 pa bs)
              else askPeer x.1 (jobRequest oid e port 2 pa (atomPayload (if op = 1 then 12 else 0) 4 (leNat bs) 0))
      else if b 40 8 = 0 ∨ total < e.progress then commandDone s oid e.queue e.seq
      else
        match windowPa s p port (b 40 8) 4 with
        | none => jobFault s oid e 2 rSegment 0 accW 0
        | some pa => askPeer s (jobRequest oid e port 1 pa (leBytes 4 (b 48 4))))

/-! ## Replica exchange (R322, R331) -/

/-- What a REPLICA card reads of its digest record: the digest that it sends, and SERIAL; or why it does not. -/
def replicaDigest (s : State) (oid : Nat) (e : Entry) : State × ((Nat × Bool) ⊕ ERes) :=
  let va := xva (fieldOf e.card 16 8)
  let r := engineSpan s 2 0 oid va 64 accR
  match r.2 with
  | .ok ps =>
    match spanBad r.1 ps with
    | some v => (r.1, .inr (.fault rUncorrData v 0))
    | none =>
      let bs := spanBytes r.1 ps
      let serial := (fieldOf bs 24 1).testBit 2
      (r.1, .inl (if serial then fieldOf bs 16 8 else fieldOf bs 8 8, serial))
  | y => (r.1, .inr y)

/-- The replica record is written, the partner's flit is taken, and the card completes; while the record's page is awaited, nothing of
this happens. A serial exchange that disagrees or times out fences the port and writes its record. -/
def replicaEnd (s : State) (oid : Nat) (e : Entry) (own : Nat) (serial : Bool) (partner : Option (Nat × Nat × Nat)) : State :=
  let b := fieldOf e.card
  let agree := match partner with | some x => decide (x.1 = own) | none => false
  let bs := layout 64 [(0, 8, b 24 8), (8, 8, own), (16, 8, (partner.map (·.1)).getD 0), (24, 8, (partner.map (·.2.1)).getD 0),
    (32, 1, (if agree then 1 else 0) + if partner.isNone then 2 else 0)]
  let w := engineSpan s 2 0 oid (xva (b 32 8)) 64 accW
  match w.2 with
  | .wait => w.1
  | .fault reason va leaf => jobFault w.1 oid e 2 reason va accW leaf
  | .ok ps =>
    let x := jobWrite w.1 ps bs
    match x.2 with
    | some va => jobFault x.1 oid e 2 rUncorrData va accW 0
    | none =>
      let s1 := modPort x.1 (b 9 1) fun p => { p with replicas := match partner with
        | some y => p.replicas.erase (b 24 8, y)
        | none => p.replicas }
      let s2 := if serial && !agree then
          hostRecord (replicaFence s1 (b 9 1)) (ctxPart s oid) { oid := oid, kind := 4, detail := [(32, 8, e.seq), (40, 8, b 16 8)] }
        else s1
      commandDone s2 oid e.queue e.seq

/-- The card's exchange, or its end without an answer. -/
def replicaRun (s : State) (oid : Nat) (e : Entry) (timeout : Bool) : State :=
  let b := fieldOf e.card
  let port := b 9 1
  match e.sentAt with
  | some x =>
    let answer := (s.port port).replicas.find? fun r => decide (r.1 = b 24 8 ∧ r.2.2.2 ≤ x.tick + 10 ^ 9)
    if x.left then replicaEnd s oid e x.own x.serial none
    else
      match answer with
      | some r => if timeout then s else replicaEnd s oid e x.own x.serial (some r.2)
      | none => if timeout = true ∧ x.tick + 10 ^ 9 ≤ s.tick then replicaEnd s oid e x.own x.serial none else s
  | none =>
    if timeout ∨ (s.port port).state = .training then s
    else
      let d := replicaDigest s oid e
      match d.2 with
      | .inr (.fault reason va leaf) => jobFault d.1 oid e 2 reason va accR leaf
      | .inr _ => d.1
      | .inl (own, serial) =>
        if (s.port port).state = .down then replicaEnd d.1 oid e own serial none
        else setJob (sendFlit d.1 port 7 (leBytes 8 (b 24 8) ++ leBytes 8 own)) oid e
          { e with sentAt := some { tick := s.tick, own := own, serial := serial, left := false } }

def replicaJob (s : State) (job : Nat) (timeout : Bool) : State :=
  match jobAt s job 2 with
  | none => s
  | some (oid, e) => if fieldOf e.card 8 1 = 3 then replicaRun s oid e timeout else s

def execReplicaExchange (job : Nat) (s : State) : Out := .next (replicaJob s job false)
def execReplicaTimeout (job : Nat) (s : State) : Out := .next (replicaJob s job true)

end Sys2Proof.Machine
end

