-- ==== Sys2Proof/Machine/Observe.lean ====
section
/-! DEFINITION. The carillon, the gong, clock changes, and the instructions of observation, opcodes 0x32b to 0x32d (R13, R323 to
R330). -/

namespace Sys2Proof.Machine

/-! ## The carillon (R324 to R327) -/

/-- The interval exponent k. -/
def carK (v : W64) : Nat := bitsAt v.toNat 1 5

/-- Every core's next sweep is absolute. -/
def allAbs (s : State) : State := { s with cores := (List.range 64).foldl (fun t c => t.put c { t.get c Core.reset with absNext := true }) s.cores }

/-- CAR_CTL written: EN with k or CAR_SIZE outside its range drops the write. -/
def carCtl (s : State) (v : W64) : State :=
  let sz := bitsAt s.dev.carSize.toNat 0 5
  if v.getLsbD 0 && decide (carK v < 10 ∨ 24 < carK v ∨ sz < 8 ∨ 24 < sz) then s
  else
    let s1 := { s with dev := { s.dev with carCtl := v &&& 0x3f#64 } }
    if v.getLsbD 0 && !carOn s then allAbs s1 else s1

def execCarCtlWrite (value : BitVec 64) (s : State) : Out := .next (carCtl s value)

/-- The counters as they stand in a record. -/
def counterFields (cs : List Nat) : List (Nat × Nat × Nat) := (List.range 8).map fun j => (16 + 6 * j, 6, cs.getD j 0)

/-- A core's sweep record: absolute, or the counters since its previous sweep. -/
def sweepCore (s : State) (core : Nat) : State :=
  let c := s.core core
  let vals := if c.absNext then c.counters else (List.range 8).map fun j => (c.counters.getD j 0 + 2 ^ 48 - c.lastSweep.getD j 0) % 2 ^ 48
  let s1 := s.setCore core { c with lastSweep := c.counters, absNext := false }
  carRecord s1 (if c.absNext then 1 else 2) core (counterFields vals)

/-- The tick is a multiple of 2^k and the cores have not been swept on it. -/
def sweepDue (s : State) : Bool := carOn s && decide (s.tick % 2 ^ carK s.dev.carCtl = 0) && decide (s.dev.sweptAt ≠ some s.tick)

/-- Every core is swept, in ascending order. -/
def sweepAll (s : State) : State := (List.range 64).foldl sweepCore { s with dev := { s.dev with sweptAt := some s.tick } }

/-- On a tick that is a multiple of 2^k every core is swept, once. -/
def execCarillonSweep (s : State) : Out := .next (if sweepDue s then sweepAll s else s)

/-- The sweep of this tick has been written: a MARKER would have come before it, so that the clock does not change any more on the
tick (R327). -/
def sweptNow (s : State) : Bool := carOn s && decide (s.dev.sweptAt = some s.tick)

/-- A MARKER for every core; the core's next sweep is absolute. -/
def markers (s : State) (new old cause : Nat) : State :=
  let s1 := if carOn s then (List.range 64).foldl (fun st c => carRecord st 3 c [(10, 2, new), (12, 2, old), (14, 1, cause)]) s else s
  allAbs s1

/-- The core and matrix clocks change on one edge; a rate outside 0.7 to 1.6 GHz is no point of the range (R13). -/
def execDvfsChange (mhz : Nat) (s : State) : Out :=
  .next (if 700 ≤ mhz ∧ mhz ≤ 1600 ∧ s.stopped = false ∧ sweptNow s = false then { markers s mhz s.mhz 1 with mhz := mhz } else s)
def execClockStop (s : State) : Out := .next (if s.stopped || sweptNow s then s else { markers s 0 s.mhz 2 with stopped := true })
def execClockRestart (s : State) : Out := .next (if s.stopped && !sweptNow s then { markers s s.mhz 0 3 with stopped := false } else s)

/-! ## The gong (R328) -/

/-- A FIRE write; it is dropped while the previous gong's records are not written. -/
def fireGong (s : State) : State :=
  if s.dev.gongFired then s else { s with dev := { s.dev with gongFired := true, gongAt := s.tick + 1 } }

/-- The code of a port's state (R316). -/
def PState.code : PState → Nat
  | .down => 0 | .training => 1 | .active => 2 | .degraded => 3 | .fenced => 4

/-- PORT_STAT (R317). -/
def portStat (q : Port) : Nat := q.state.code + q.lanes % 8 * 8 + q.replays % 2 ^ 32 * 2 ^ 32

/-- On the tick after FIRE every block latches its snapshot registers, each copy engine its lines in flight, and GONG_TICK takes the tick. -/
def latchGong (s : State) : State :=
  if s.dev.gongFired ∧ s.tick = s.dev.gongAt then
    { s with dev := { s.dev with
        gongTick := s.tick
        snapCounters := (List.range 64).map fun c => (c, (s.core c).counters)
        snapLines := (List.range 16).map fun cl => (cl, engineLines s cl)
        snapPorts := (List.range 16).map fun p => (p, portStat (s.port p)) } }
  else s

/-- The records of a gong whose snapshot is latched, after the sweep records of its tick. -/
def gongRecords (s : State) : State :=
  let s0 := if sweepDue s then sweepAll s else s
  let s1 := if carOn s0 then (List.range 64).foldl (fun st c => carRecord st 5 c (counterFields (st.dev.snapCounters.get c []))) s0 else s0
  { s1 with dev := { s1.dev with gongFired := false } }

/-- A FIRE write, dropped while the previous gong's records are being written; they are written once its tick has come. -/
def execGong (s : State) : Out :=
  .next (if !s.dev.gongFired then fireGong s else if s.tick < s.dev.gongAt then s else gongRecords s)

/-! ## The passing of time (R4, R13, R325, R328) -/

/-- Time passes; the core clock counts while it runs (R327). -/
def passTime (s : State) (ticks cycles : Nat) : State :=
  passCycles { s with tick := s.tick + ticks } cycles (if cycles = 0 then s.edge else [])

/-- The ticks that pass at once: time does not run over the next sweep tick of the carillon nor over the tick of a gong. -/
def ticksTo (s : State) (ticks : Nat) : Nat :=
  let a := if carOn s then Nat.min ticks (2 ^ carK s.dev.carCtl - s.tick % 2 ^ carK s.dev.carCtl) else ticks
  if s.dev.gongFired ∧ s.tick < s.dev.gongAt then Nat.min a (s.dev.gongAt - s.tick) else a

/-- What the carillon and the gong owe on this tick is written before time leaves it. -/
def settleTick (s : State) : State :=
  if s.dev.gongFired ∧ s.dev.gongAt ≤ s.tick then gongRecords s else if sweepDue s then sweepAll s else s

/-- Time goes on. -/
def advanceTime (s : State) (ticks cycles : Nat) : State :=
  if ticks = 0 then passTime s 0 cycles
  else
    let s1 := settleTick s
    latchGong (passTime s1 (ticksTo s1 ticks) cycles)

/-! ## clk, dgst, halt (R330) -/

def execClk (f : SYS) (s : State) : Out :=
  .next (issue (.clk f) s (once f.g fun k _ s => .commit (writeS s k f.d (BitVec.ofNat 64 s.tick))))
def execClkLamport (f : SYS) (s : State) : Out :=
  .next (issue (.clkLamport f) s (once f.g fun k _ s => .commit (writeS s k f.d (BitVec.ofNat 64 s.dev.lclk))))
/-- The running digest holds all that the team has committed (R329): the word waits for the answers of peers' compare-and-swaps. -/
def execDgst (f : SYS) (s : State) : Out :=
  .next (issue (.dgst f) s (once f.g fun k t s =>
    if t.digestQ.isEmpty then .commit (writeS s k f.d (if t.digestMode then t.digest else 0)) else .stall s))

/-- The team is STOPPED past the halt with a hit of snare field 0xf. -/
def execHalt (f : SYS) (s : State) : Out :=
  .next (issue (.halt f) s fun k t s => .done (stopHeld (s.setTeam k (advance t)) k 0xf))

end Sys2Proof.Machine
end

