-- ==== Sys2Proof/Machine/HostPart.lean ====
section
/-! DEFINITION. The host's side: reset and bring-up, register writes, the first context of a partition, and CXL.mem (R8, R250,
R308 to R314, R317, R319, R324). -/

namespace Sys2Proof.Machine

/-! ## Cores and slices (R309, R312) -/

/-- ERR: a PF write to the partition block was dropped. -/
def dropWrite (s : State) (p : Nat) : State := s.setPart p { s.part p with err := true }

/-- Sharing is legal: no core that is partition p's under a set of cores and a slice is another partition's, unless both are
time-sliced. A core removed from a partition is its until no bank of the core holds a context of it. -/
def shareOk (s : State) (p : Nat) (cores slice : W64) : Bool :=
  (List.range 25).all fun q =>
    decide (q = p) || (List.range 64).all (fun c => !((cores.getLsbD c || bankOf s p c) && inPartition s q c)) ||
      (decide (slice ≠ 0) && decide ((s.part q).slice ≠ 0))

/-- There are partitions 0 to 24 only. -/
def coresWrite (s : State) (p : Nat) (v : W64) : State :=
  if 24 < p then s
  else if shareOk s p v (s.part p).slice then s.setPart p { s.part p with cores := v } else dropWrite s p

/-- The turns of a partition that is no longer time-sliced end where they run. -/
def endSlices (s : State) (p : Nat) : State :=
  (s.cores.map (·.1)).foldl (fun st c => if (st.core c).slicePart = some p then disarm st c else st) s

/-- SLICE: values other than 0 need TSLICE, and the field is 32 bits wide. The value 0 takes effect at once (R309). -/
def sliceWrite (s : State) (p : Nat) (v : W64) : State :=
  if 24 < p then s
  else if 2 ^ 32 ≤ v.toNat ∨ (v ≠ 0 ∧ featOn s 6 = false) ∨ shareOk s p (s.part p).cores v = false then dropWrite s p
  else
    let s1 := s.setPart p { s.part p with slice := v }
    if v = 0 then endSlices s1 p else s1

def execCoresWrite (part : Nat) (value : BitVec 64) (s : State) : Out := .next (coresWrite s part value)
def execSliceWrite (part : Nat) (value : BitVec 64) (s : State) : Out := .next (sliceWrite s part value)

/-! ## The first context of a partition (R313) -/

/-- The partition is ENABLED: the device runs and CORES is not zero (R308). -/
def partEnabled (s : State) (p : Nat) : Bool := s.dev.run && decide ((s.part p).cores ≠ 0)

/-- The record at BOOT_REC, if it lies in a tier and can be read; an uncorrectable error in it has its record (R256). -/
def bootRecord (s : State) (p : Nat) : State × Option (List Byte) :=
  let pa := (s.part p).bootRec.toNat
  if pa % 2 ^ 12 = 0 ∧ [0, 1, 2].any (fun t => decide ((tierRange t).1 ≤ pa ∧ pa + 4096 ≤ (tierRange t).2)) = true then
    if badAt s pa 4096 then (engineRecord s p 0 (xva (s.part p).bootVa.toNat) rUncorrData accR 0 0 0, none) else (s, some (homeBytes s pa 4096))
  else (s, none)

/-- Both banks of a core are idle. -/
def banksIdle (s : State) (core : Nat) : Bool :=
  let c := s.core core
  c.bank0.owner.isNone && c.bank1.owner.isNone && c.swap.isNone && !c.bank0.spilling && !c.bank1.spilling

/-- The record is checked as ctx.load checks it; on OK the context is staged, and swapped in when staged, on every allotted core
whose banks are idle and where no other context holds a half that it needs (R64). The status is written after that; while
such a start is under way GO starts no other one (R313). -/
def bootGo (s0 : State) (p : Nat) : State :=
  if (s0.part p).bootOid.isSome then s0
  else if !partEnabled s0 p then bootDone s0 p stDenied
  else
    let rcd := bootRecord s0 p
    let s := rcd.1
    let st := loadStatus s (s.part p).bootVa rcd.2 (partAllowed p)
    if st ≠ 0 then bootDone s p st
    else
      let oid := fieldOf (rcd.2.getD []) 0 2
      let s1 := loadCtx s (s.part p).bootVa.toNat (rcd.2.getD [])
      let cores := (List.range 64).filter fun c => allotted s1 p c && banksIdle s1 c && decide (stageCheck s1 oid c = 0)
      let s2 := settleCtx (cores.foldl (startStage · oid true ·) s1) oid
      settleBoot (s2.setPart p { s2.part p with bootOid := some oid })

def execBootCtlGo (part : Nat) (s : State) : Out := .next (bootGo s part)

/-! ## Start-up (R8, R311) -/

/-- Reset: every register takes its reset value and the fuse remap table is loaded; memory keeps its bytes, and what has been sent
stays sent (log entry 8). -/
def execReset (s : State) : Out :=
  .next { State.reset with
    mem := s.mem, hostMem := s.hostMem, bad := s.bad, turns := s.turns, sel := s.sel, outbox := s.outbox, msix := s.msix }

/-- The part checks DRV_FEAT: a bit that DEV_FEAT lacks, or no BASE, sets NEG_FAIL and clears GO; otherwise the part runs, and the
ports that wait for GZL train. -/
def checkFeatures (s : State) : State :=
  let d := s.dev
  if d.run then s
  else if d.featLo &&& ~~~0xff#64 ≠ 0 ∨ d.featHi ≠ 0 ∨ d.featLo.getLsbD 0 = false then { s with dev := { d with go := false, negFail := true } }
  else
    (List.range 16).foldl (fun st k => if (st.port k).enable then portEnable st k else st)
      { s with dev := { d with go := true, run := true, negFail := false } }

/-- GO is set; the check follows READY. -/
def devGo (s : State) : State :=
  let s1 := { s with dev := { s.dev with go := true } }
  if s.dev.ready then checkFeatures s1 else s1

def execMemoryAndLinkTrainingDone (s : State) : Out :=
  .next (let s1 := { s with dev := { s.dev with ready := true } }
    if s.dev.go then checkFeatures s1 else s1)

def execDevCtlGo (s : State) : Out := .next (devGo s)

/-! ## Register writes (R308) -/

/-- A write of the physical function that the register takes, or that breaks a limit of the partition block and is dropped. -/
def pfPart (s : State) (p : Nat) (ok : Bool) (q : Part) : State := if ok then s.setPart p q else dropWrite s p

/-- A write that the register takes, or whose value breaks the alignment of its row and is dropped. -/
def alignedPart (s : State) (p : Nat) (v : W64) (bits : Nat) (q : Part) : State := if v.toNat % 2 ^ bits = 0 then s.setPart p q else s

/-- The partition block (R308). Registers marked PF are read-only to the partition. A value of HBM_CH or QUEUES with a bit above the
register's field breaks its limit: the write is dropped and sets ERR (DESIGN CHOICE, log entry 46). -/
def blockWrite (s : State) (pf : Bool) (p off : Nat) (v : W64) : State :=
  let q := s.part p
  match off, pf with
  | 0x00, true => coresWrite s p v
  | 0x08, true => pfPart s p (decide (1 ≤ v.toNat ∧ v.toNat ≤ 64)) { q with hbmCh := v }
  | 0x10, true => pfPart s p (decide (v.toNat ≤ 4096)) { q with queues := v }
  | 0x20, true => sliceWrite s p v
  | 0x28, true => pfPart s p (decide (v.toNat % 2 ^ 12 = 0)) { q with bootRec := v }
  | 0x28, false => alignedPart s p v 12 { q with bootRec := v }
  | 0x30, _ => s.setPart p { q with bootVa := v }
  | 0x38, _ =>
    let s1 := s.setPart p { q with bootGo := q.bootGo || v.getLsbD 0, bootStatus := bitsAt v.toNat 8 8 }
    if v.getLsbD 0 then bootGo s1 p else s1
  | 0x48, _ => if v.getLsbD 0 then s.setPart p { q with err := false } else s
  | _, _ => s

/-- FB_CTL: FAIL acts before FLUSH (R249). -/
def fbCtl (s : State) (p : Nat) (v : W64) : State :=
  let s1 := if v.getLsbD 1 then fbFail s p (bitsAt v.toNat 16 12) else s
  if v.getLsbD 0 then fbFlush s1 p else s1

/-- The fields of INV_CTL. -/
def invMask : W64 := 0x8000ffff00010fff#64

/-- The page register block (R250), by its offset. GO of INV_CTL stays set until the part clears it. -/
def pageWrite (s : State) (pf : Bool) (p off : Nat) (v : W64) : State :=
  let q := s.part p
  match off, pf with
  | 0x00, true => alignedPart s p v 18 { q with segHbmBase := v }
  | 0x08, true => alignedPart s p v 18 { q with segHbmBound := v }
  | 0x10, true => alignedPart s p v 18 { q with segLpBase := v }
  | 0x18, true => alignedPart s p v 18 { q with segLpBound := v }
  | 0x20, true => alignedPart s p v 18 { q with segCxBase := v }
  | 0x28, true => alignedPart s p v 18 { q with segCxBound := v }
  | 0x30, true => alignedPart s p v 6 { q with poolHbm := v }
  | 0x38, true => alignedPart s p v 6 { q with poolLp := v }
  | 0x40, true => s.setPart p { q with quota := v }
  | 0x50, _ => alignedPart s p v 12 { q with fbBase := v }
  | 0x58, _ => s.setPart p { q with fbSize := v &&& 0x1f#64 }
  | 0x68, _ => s.setPart p { q with fbTail := v }
  | 0x78, _ => if v.getLsbD 0 then s.setPart p { q with fbOver := false } else s
  | 0x80, _ => fbCtl s p v
  | 0x88, _ => s.setPart p { q with invVa := v }
  | 0x90, _ => s.setPart p { q with invVah := v &&& 0xffff#64 }
  | 0x98, _ => s.setPart p { q with invCtl := (v &&& invMask) ||| (q.invCtl &&& 0x8000000000000000#64) }
  | _, _ => s

/-- The link block (R319): PWIN_BASE_k and PWIN_BOUND_k. -/
def pwinWrite (s : State) (pf : Bool) (p off : Nat) (v : W64) : State :=
  let q := s.part p
  if pf = false ∨ 0x100 ≤ off ∨ off % 8 ≠ 0 then s
  else
    let n := off / 8
    alignedPart s p v (if n % 2 = 0 then 18 else 0) { q with pwin := q.pwin.put n v }

/-- A partition window. -/
def windowWrite (s : State) (pf : Bool) (p off : Nat) (v : W64) : State :=
  if off < 0x1000 then blockWrite s pf p off v
  else if off < 0x2000 then pageWrite s pf p (off - 0x1000) v
  else if off < 0x3000 then pwinWrite s pf p (off - 0x2000) v
  else s

/-- The start-up registers (R311). -/
def startWrite (s : State) (off : Nat) (v : W64) : State :=
  match off with
  | 0x10 => if s.dev.run then s else { s with dev := { s.dev with featLo := v } }
  | 0x18 => if s.dev.run then s else { s with dev := { s.dev with featHi := v } }
  | 0x20 => if v.getLsbD 0 then devGo s else { s with dev := { s.dev with go := false } }
  | 0x30 => if v.toNat % 2 ^ 18 = 0 then { s with dev := { s.dev with t2Base := v } } else s
  | _ => s

/-- The carillon block (R324). -/
def carWrite (s : State) (off : Nat) (v : W64) : State :=
  match off with
  | 0x00 => carCtl s v
  | 0x08 => if v.toNat % 2 ^ 12 = 0 then { s with dev := { s.dev with carBase := v } } else s
  | 0x10 => { s with dev := { s.dev with carSize := v &&& 0x1f#64 } }
  | 0x20 => { s with dev := { s.dev with carTail := v } }
  | 0x28 => if v.getLsbD 0 then { s with dev := { s.dev with carOver := false } } else s
  | 0x30 => if v.getLsbD 0 then fireGong s else s
  | _ => s

/-- PORT_CTL: ENABLE, then RETRAIN, FENCE and UNFENCE (R316, R317). FENCE takes the value written, also where the port is disabled. -/
def portCtl (s : State) (k : Nat) (v : W64) : State :=
  if !v.getLsbD 0 then modPort (portDisable s k) k fun p => { p with fence := v.getLsbD 2 }
  else
    let s1 := portEnable s k
    let s2 := if v.getLsbD 1 then portRetrain s1 k else s1
    let s3 := if v.getLsbD 2 then portFence s2 k else modPort s2 k fun p => { p with fence := false }
    if v.getLsbD 3 then portUnfence s3 k else s3

/-- A port's registers (R317). -/
def portWrite (s : State) (k off : Nat) (v : W64) : State :=
  match off with
  | 0x00 => portCtl s k v
  | 0x10 => modPort s k fun p => { p with inBase := v }
  | 0x18 => modPort s k fun p => { p with inBound := v }
  | _ => s

/-- A write of the physical function at an offset of its BAR0; an offset that the map does not assign is ignored. -/
def pfWrite (s : State) (off : Nat) (v : W64) : State :=
  if off < 0x1000 then startWrite s off v
  else if off < 0x2000 then carWrite s (off - 0x1000) v
  else if 0x100000 ≤ off ∧ off < 0x101000 then portWrite s ((off - 0x100000) / 0x100) (off % 0x100) v
  else if 0x400000 ≤ off ∧ off < 0x400000 + 25 * 0x10000 then windowWrite s true ((off - 0x400000) / 0x10000) (off % 0x10000) v
  else s

/-- A register write of the physical function (0) or of a virtual function, which reaches its own window. -/
def registerWrite (s : State) (fn off : Nat) (v : W64) : State :=
  if fn = 0 then pfWrite s off v else if fn ≤ 24 ∧ off < 0x10000 then windowWrite s false fn off v else s

def execRegisterWrite (fn : Nat) (offset : Nat) (value : BitVec 64) (s : State) : Out := .next (registerWrite s fn offset value)

/-! ## Register reads (R250, R308, R311, R317, R319, R324) -/

def flagBit (b : Bool) (i : Nat) : Nat := if b then 2 ^ i else 0

/-- The partition block. -/
def blockRead (s : State) (p off : Nat) : W64 :=
  let q := s.part p
  match off with
  | 0x00 => q.cores
  | 0x08 => q.hbmCh
  | 0x10 => q.queues
  | 0x18 => BitVec.ofNat 64 q.qused
  | 0x20 => q.slice
  | 0x28 => q.bootRec
  | 0x30 => q.bootVa
  | 0x38 => BitVec.ofNat 64 (flagBit q.bootGo 0 + q.bootStatus % 256 * 256)
  | 0x40 => BitVec.ofNat 64 (flagBit (partEnabled s p) 0)
  | 0x48 => BitVec.ofNat 64 (flagBit q.err 0)
  | _ => 0

/-- The page register block; FB_CTL is write-only and reads as zero. -/
def pageRead (s : State) (p off : Nat) : W64 :=
  let q := s.part p
  match off with
  | 0x00 => q.segHbmBase
  | 0x08 => q.segHbmBound
  | 0x10 => q.segLpBase
  | 0x18 => q.segLpBound
  | 0x20 => q.segCxBase
  | 0x28 => q.segCxBound
  | 0x30 => q.poolHbm
  | 0x38 => q.poolLp
  | 0x40 => q.quota
  | 0x48 => BitVec.ofNat 64 q.used
  | 0x50 => q.fbBase
  | 0x58 => q.fbSize
  | 0x60 => BitVec.ofNat 64 q.fbHead
  | 0x68 => q.fbTail
  | 0x70 => BitVec.ofNat 64 q.fbGen
  | 0x78 => BitVec.ofNat 64 (flagBit q.fbOver 0)
  | 0x88 => q.invVa
  | 0x90 => q.invVah
  | 0x98 => q.invCtl
  | _ => 0

/-- A partition window, for either function: the rest of it reads as zero. -/
def windowRead (s : State) (p off : Nat) : W64 :=
  if off < 0x1000 then blockRead s p off
  else if off < 0x2000 then pageRead s p (off - 0x1000)
  else if off < 0x2100 ∧ off % 8 = 0 then (s.part p).pwin.get ((off - 0x2000) / 8) 0
  else 0

/-- The start-up registers. -/
def startRead (s : State) (off : Nat) : W64 :=
  match off with
  | 0x00 => 0xff
  | 0x10 => s.dev.featLo
  | 0x18 => s.dev.featHi
  | 0x20 => BitVec.ofNat 64 (flagBit s.dev.go 0)
  | 0x28 => BitVec.ofNat 64 (flagBit s.dev.ready 0 + flagBit s.dev.run 1 + flagBit s.dev.negFail 2)
  | 0x30 => s.dev.t2Base
  | _ => 0

/-- The carillon block; GONG is write-only and reads as zero. -/
def carRead (s : State) (off : Nat) : W64 :=
  match off with
  | 0x00 => s.dev.carCtl
  | 0x08 => s.dev.carBase
  | 0x10 => s.dev.carSize
  | 0x18 => BitVec.ofNat 64 s.dev.carHead
  | 0x20 => s.dev.carTail
  | 0x28 => BitVec.ofNat 64 (flagBit s.dev.carOver 0)
  | 0x38 => BitVec.ofNat 64 s.dev.gongTick
  | _ => 0

/-- A port's registers; RETRAIN and UNFENCE read as zero, since the part has cleared them. -/
def portRead (s : State) (k off : Nat) : W64 :=
  let q := s.port k
  match off with
  | 0x00 => BitVec.ofNat 64 (flagBit q.enable 0 + flagBit q.fence 2)
  | 0x08 => BitVec.ofNat 64 (portStat q)
  | 0x10 => q.inBase
  | 0x18 => q.inBound
  | 0x20 => BitVec.ofNat 64 s.dev.lclk
  | _ => 0

/-- What a read of a function's BAR0 gives the host: the physical function's map, or a virtual function's own window; an offset that
the map does not assign reads as zero. A read changes no state. -/
def registerRead (s : State) (fn off : Nat) : W64 :=
  if fn ≠ 0 then (if fn ≤ 24 ∧ off < 0x10000 then windowRead s fn off else 0)
  else if off < 0x1000 then startRead s off
  else if off < 0x2000 then carRead s (off - 0x1000)
  else if 0x100000 ≤ off ∧ off < 0x101000 then portRead s ((off - 0x100000) / 0x100) (off % 0x100)
  else if 0x400000 ≤ off ∧ off < 0x400000 + 25 * 0x10000 then windowRead s ((off - 0x400000) / 0x10000) (off % 0x10000)
  else 0

/-! ## CXL.mem (R314) -/

/-- HDM decoder 0 or 1 holds the range; both are disabled unless CXLMEM is accepted (R312). -/
def decoderHolds (s : State) (pa n : Nat) : Bool :=
  s.dev.run && featOn s 1 && (decide (pa + n ≤ 2 ^ 39) || decide (2 ^ 40 ≤ pa ∧ pa + n ≤ 2 ^ 41))

/-- A host access at the home slices. A read changes nothing that the state holds: the host takes its bytes. -/
def execHostCxlMemAccess (write : Bool) (pa : Nat) (bytes : List (BitVec 8)) (s : State) : Out :=
  if decoderHolds s pa bytes.length then .next (if write then homePut s none pa bytes else s) else .fault .noHostDecoder

end Sys2Proof.Machine
end

