-- ==== Sys2Proof/Machine/Integer.lean ====
section
/-! DEFINITION. The integer, logic and address forms, opcodes 0x000 to 0x02a (R128 to R142). -/

namespace Sys2Proof.Machine

/-! ## Shared shapes -/

/-- A form of exact integer operation on a, b, c, fitted once (R129, R132). -/
def intForm (i : Instr) (f : VR) (sat : Bool) (op : Int → Int → Int → Int) (s : State) : Out :=
  .next (issue i s fun k t s => alu f.g f.d f.t.wide k t s fun L =>
    fit f.t sat (op (intSrc s k t f.t f.a L) (intSrc s k t f.t f.b L) (intSrc s k t f.t f.c L)))

/-- A form on bit patterns of a BITS type: w, a, b as bits and b, c as n32 (R134 to R136). -/
def bitForm (i : Instr) (f : VR) (ty : ETy) (op : Nat → Nat → Nat → Nat → Nat → Nat) (s : State) : Out :=
  .next (issue i s fun k t s => alu f.g f.d ty.wide k t s fun L =>
    fitBits ty (op (ETy.width f.t) (bitSrc s k t f.t f.a L) (bitSrc s k t f.t f.b L) (n32Src s k t f.b L) (n32Src s k t f.c L)))

/-- The SAT bit of an integer form (R132). -/
def satBit (f : VR) : Bool := f.m.getLsbD 0

/-- A carry form: D and the predicate C of each lane from a, b and the carry in (R133). -/
def carryForm (i : Instr) (f : VR) (op : Int → Int → Int → Int) (out : ETy → Int → Bool) (s : State) : Out :=
  .next (issue i s fun k t s =>
    let r := fun L => op (intSrc s k t f.t f.a L) (intSrc s k t f.t f.b L) (if (opdP t f.c).getLsbD L then 1 else 0)
    let s1 := writeP s k (lanesOf t f.g) f.c (maskOf t.width fun L => out f.t (r L))
    .commit (writeD s1 k (lanesOf t f.g) f.t.wide f.d fun L => fit f.t false (r L)))

/-! ## Arithmetic (R132, R133) -/

def execAdd (f : VR) (s : State) : Out := intForm (.add f) f (satBit f) (fun a b _ => a + b) s
def execSub (f : VR) (s : State) : Out := intForm (.sub f) f (satBit f) (fun a b _ => a - b) s
def execNeg (f : VR) (s : State) : Out := intForm (.neg f) f (satBit f) (fun a _ _ => -a) s
def execAbs (f : VR) (s : State) : Out := intForm (.abs f) f (satBit f) (fun a _ _ => if a < 0 then -a else a) s
def execMin (f : VR) (s : State) : Out := intForm (.min f) f false (fun a b _ => if a ≤ b then a else b) s
def execMax (f : VR) (s : State) : Out := intForm (.max f) f false (fun a b _ => if a ≤ b then b else a) s
/-- Min(Max(a, b), c), so c whenever b > c (R132). -/
def execClamp (f : VR) (s : State) : Out :=
  intForm (.clamp f) f false (fun a b c => let m := if a ≤ b then b else a; if m ≤ c then m else c) s
def execMul (f : VR) (s : State) : Out := intForm (.mul f) f (satBit f) (fun a b _ => a * b) s
/-- Floor(a·b / 2^w) (R132). -/
def execMulhi (f : VR) (s : State) : Out := intForm (.mulhi f) f false (fun a b _ => Int.fdiv (a * b) (2 ^ ETy.width f.t)) s
def execMad (f : VR) (s : State) : Out := intForm (.mad f) f (satBit f) (fun a b c => a * b + c) s
def execSad (f : VR) (s : State) : Out := intForm (.sad f) f (satBit f) (fun a b c => (if a < b then b - a else a - b) + c) s

/-- The 64-bit type of a type's signedness (R132). -/
def widen (t : ETy) : ETy := if ETy.signed t then .i64 else .n64

/-- A and B are 32-bit, C and D 64-bit of the same signedness (R132). -/
def execMadw (f : VR) (s : State) : Out :=
  .next (issue (.madw f) s fun k t s => alu f.g f.d true k t s fun L =>
    fit (widen f.t) (satBit f) (intSrc s k t f.t f.a L * intSrc s k t f.t f.b L + intSrc s k t (widen f.t) f.c L))

/-- The carry out of addc: the sum is at or above 2^w (R133). -/
def execAddc (f : VR) (s : State) : Out :=
  carryForm (.addc f) f (fun a b c => a + b + c) (fun ty r => decide ((2 : Int) ^ ETy.width ty ≤ r)) s
/-- The borrow out of subb: the difference is negative (R133). -/
def execSubb (f : VR) (s : State) : Out := carryForm (.subb f) f (fun a b c => a - b - c) (fun _ r => decide (r < 0)) s

/-! ## Logic and shifts (R134, R135) -/

def execAnd (f : VR) (s : State) : Out := bitForm (.and f) f f.t (fun _ a b _ _ => a &&& b) s
def execOr (f : VR) (s : State) : Out := bitForm (.or f) f f.t (fun _ a b _ _ => a ||| b) s
def execXor (f : VR) (s : State) : Out := bitForm (.xor f) f f.t (fun _ a b _ _ => a ^^^ b) s
def execAndn (f : VR) (s : State) : Out := bitForm (.andn f) f f.t (fun w a b _ _ => a &&& (2 ^ w - 1 - b)) s
def execNot (f : VR) (s : State) : Out := bitForm (.not f) f f.t (fun w a _ _ _ => 2 ^ w - 1 - a) s

/-- The shift amount: n, or n mod w with WRAP (R135). -/
def shiftAmt (f : VR) (w n : Nat) : Nat := if f.m.getLsbD 0 then n % w else n

def execShl (f : VR) (s : State) : Out :=
  bitForm (.shl f) f f.t (fun w a _ n _ => let k := shiftAmt f w n; if w ≤ k then 0 else a * 2 ^ k % 2 ^ w) s
def execShr (f : VR) (s : State) : Out :=
  bitForm (.shr f) f f.t (fun w a _ n _ => let k := shiftAmt f w n; if w ≤ k then 0 else a / 2 ^ k) s

/-- Arithmetic shift right of a w-bit pattern by k below w: the vacated bits are copies of the sign (R135). -/
def sarBits (w a k : Nat) : Nat := if 2 ^ (w - 1) ≤ a then 2 ^ w - 1 - (2 ^ w - 1 - a) / 2 ^ k else a / 2 ^ k

def execSar (f : VR) (s : State) : Out :=
  bitForm (.sar f) f f.t (fun w a _ n _ =>
    let k := shiftAmt f w n
    if w ≤ k then (if 2 ^ (w - 1) ≤ a then 2 ^ w - 1 else 0) else sarBits w a k) s

/-- Rotation of w bits left by j below w (R135). -/
def rotl (w a j : Nat) : Nat := (a * 2 ^ j % 2 ^ w) ||| (a / 2 ^ (w - j))

def execRot (f : VR) (s : State) : Out :=
  bitForm (.rot f) f f.t (fun w a _ n _ => if f.m.getLsbD 1 then rotl w a ((w - n % w) % w) else rotl w a (n % w)) s

/-- x is a above b; the amount stops at w (R135). -/
def execFunnel (f : VR) (s : State) : Out :=
  bitForm (.funnel f) f f.t (fun w a b _ n =>
    let x := a * 2 ^ w + b
    let k := shiftAmt f w n
    let j := if w ≤ k then w else k
    if f.m.getLsbD 1 then x * 2 ^ j / 2 ^ w % 2 ^ w else x / 2 ^ j % 2 ^ w) s

/-! ## Bit fields, counts, permutes (R136) -/

/-- Bfx of R136: bits above w read 0 for n types and the sign for i types. -/
def bfx (ty : ETy) (a : Int) (b c : Nat) : Int :=
  let w := ETy.width ty
  let p := if b ≤ w then b else w
  let n := if c ≤ w then c else w
  let q := Int.fmod (Int.fdiv a (2 ^ p)) (2 ^ n)
  if ETy.signed ty && decide (0 < n) && decide ((2 : Int) ^ (n - 1) ≤ q) then q - 2 ^ n else q

def execBfx (f : VR) (s : State) : Out :=
  .next (issue (.bfx f) s fun k t s => alu f.g f.d f.t.wide k t s fun L =>
    fit f.t false (bfx f.t (intSrc s k t f.t f.a L) (n32Src s k t f.b L) (n32Src s k t f.c L)))

/-- Bfi of R136: field bits at or above w are dropped. -/
def bfi (w a b c : Nat) : Nat :=
  let p := c % 256
  let n := c / 256 % 256
  let m := (2 ^ n - 1) * 2 ^ p % 2 ^ w
  (a &&& (2 ^ w - 1 - m)) ||| (b * 2 ^ p &&& m)

def execBfi (f : VR) (s : State) : Out := bitForm (.bfi f) f f.t (fun w a b _ c => bfi w a b c) s

/-- The number of 1 bits among the low n. -/
def popCount (a : Nat) : Nat → Nat
  | 0 => 0
  | n + 1 => (if a.testBit n then 1 else 0) + popCount a n
/-- Leading zeros of the low n bits. -/
def leadZeros (a : Nat) : Nat → Nat
  | 0 => 0
  | n + 1 => if a.testBit n then 0 else 1 + leadZeros a n
/-- Trailing zeros of n bits, from bit i up. -/
def trailZeros (a i : Nat) : Nat → Nat
  | 0 => 0
  | n + 1 => if a.testBit i then 0 else 1 + trailZeros a (i + 1) n
/-- Bit i of the low n bits goes to bit n − 1 − i. -/
def bitRev (a : Nat) : Nat → Nat
  | 0 => 0
  | n + 1 => (if a.testBit n then 1 else 0) + 2 * bitRev a n

def execPopc (f : VR) (s : State) : Out := bitForm (.popc f) f .n32 (fun w a _ _ _ => popCount a w) s
def execClz (f : VR) (s : State) : Out := bitForm (.clz f) f .n32 (fun w a _ _ _ => leadZeros a w) s
def execCtz (f : VR) (s : State) : Out := bitForm (.ctz f) f .n32 (fun w a _ _ _ => trailZeros a 0 w) s
def execBrev (f : VR) (s : State) : Out := bitForm (.brev f) f f.t (fun w a _ _ _ => bitRev a w) s

/-- Byte k of Perm (R136). -/
def permByte (x c k : Nat) : Nat := if c.testBit (4 * k + 3) then 0 else x / 2 ^ (8 * (c / 2 ^ (4 * k) % 8)) % 256

def execPerm (f : VR) (s : State) : Out :=
  bitForm (.perm f) f .b32 (fun _ a b _ c =>
    let x := b * 2 ^ 32 + a
    permByte x c 0 + permByte x c 1 * 2 ^ 8 + permByte x c 2 * 2 ^ 16 + permByte x c 3 * 2 ^ 24) s

/-! ## Selection, comparison, moves (R137, R138) -/

def execSel (f : VR) (s : State) : Out :=
  .next (issue (.sel f) s fun k t s => alu f.g f.d f.t.wide k t s fun L =>
    fitBits f.t (bitSrc s k t f.t (if (opdP t f.c).getLsbD L then f.a else f.b) L))

def execCmp (f : VR) (s : State) : Out :=
  .next (issue (.cmp f) s fun k t s => aluP f.g f.d k t s fun L =>
    combine (fld f.m 3 2) (intCond (fld f.m 0 3) (intSrc s k t f.t f.a L) (intSrc s k t f.t f.b L)) ((opdP t f.c).getLsbD L))

def execMov (f : VR) (s : State) : Out := bitForm (.mov f) f f.t (fun _ a _ _ _ => a) s

/-- A V destination takes IMM32, an S destination IMM32 sign-extended (R138). -/
def execMovi (f : VI) (s : State) : Out :=
  .next (issue (.movi f) s fun k t s => alu f.g f.d false k t s fun _ => f.imm.signExtend 64)

/-- D := IMM32·2^32 + A[31:0] (R138). -/
def execMoviHi (f : VI) (s : State) : Out :=
  .next (issue (.moviHi f) s fun k t s => alu f.g f.d true k t s fun _ => f.imm ++ (opdS s k t f.a).truncate 32)

/-! ## Addresses, extension, dot products (R139, R140) -/

/-- (a + Ext(b)·2^sh) mod 2^64 (R139). -/
def execLea (f : VR) (s : State) : Out :=
  .next (issue (.lea f) s fun k t s => alu f.g f.d true k t s fun L =>
    let b := (opd s k t false f.b L).truncate 32
    let x : W64 := if f.m.getLsbD 3 then b.signExtend 64 else b.zeroExtend 64
    opd s k t true f.a L + x <<< fld f.m 0 3)

/-- The low n bits of a, sign-extended to w (R139). -/
def sxtBits (w a n : Nat) : Nat :=
  let x := a % 2 ^ n
  if 2 ^ (n - 1) ≤ x then x + (2 ^ w - 2 ^ n) else x

def execSxt (f : VR) (s : State) : Out := bitForm (.sxt f) f f.t (fun w a _ _ _ => sxtBits w a (fld f.m 0 7)) s
def execZxt (f : VR) (s : State) : Out := bitForm (.zxt f) f f.t (fun _ a _ _ _ => a % 2 ^ fld f.m 0 7) s

/-- Byte k of a word, signed or not (R140). -/
def byteVal (sg : Bool) (a k : Nat) : Int :=
  let b := a / 2 ^ (8 * k) % 256
  if sg && decide (128 ≤ b) then (b : Int) - 256 else b

def execDp4 (f : VR) (s : State) : Out :=
  .next (issue (.dp4 f) s fun k t s => alu f.g f.d false k t s fun L =>
    let a := n32Src s k t f.a L
    let b := n32Src s k t f.b L
    let p := fun j => byteVal (f.m.getLsbD 0) a j * byteVal (f.m.getLsbD 1) b j
    fit f.t (f.m.getLsbD 2) (intSrc s k t f.t f.c L + p 0 + p 1 + p 2 + p 3))

/-! ## Immediate forms (R141, R142) -/

/-- A V destination works on 32 bits with IMM32 as it stands, an S destination on 64 bits with IMM32 sign-extended
(R141). -/
def immForm (i : Instr) (f : VI) (op : W64 → W64 → W64) (s : State) : Out :=
  .next (issue i s fun k t s => alu f.g f.d false k t s fun L => op (opd s k t false f.a L) (f.imm.signExtend 64))

def execAddi (f : VI) (s : State) : Out := immForm (.addi f) f (fun a b => a + b) s
def execAndi (f : VI) (s : State) : Out := immForm (.andi f) f (fun a b => a &&& b) s
def execOri (f : VI) (s : State) : Out := immForm (.ori f) f (fun a b => a ||| b) s

/-- The type at which cmpi compares: 64 bits for a scalar source, 32 otherwise (R142). -/
def cmpiType (f : VI) : ETy :=
  match f.a.isSK, f.imm.getLsbD 28 with
  | true, true => .i64
  | true, false => .n64
  | false, true => .i32
  | false, false => .n32

/-- The immediate of cmpi: [27:0], sign-extended for .s and zero-extended for .u (R142). -/
def cmpiImm (f : VI) : Int :=
  if f.imm.getLsbD 28 then ((f.imm.truncate 28).toInt) else ((f.imm.truncate 28).toNat : Int)

def execCmpi (f : VI) (s : State) : Out :=
  .next (issue (.cmpi f) s fun k t s => aluP f.g f.d k t s fun L =>
    intCond (fld f.imm 29 3) (intSrc s k t (cmpiType f) f.a L) (cmpiImm f))

end Sys2Proof.Machine
end

