-- ==== Sys2Proof/Machine/Dispatch.lean ====
section
/-! DEFINITION. One arm per instruction and event: each is one call of its meaning. -/

namespace Sys2Proof.Machine

def exec (i : Instr) (s : State) : Host.Outcome State Fault Refusal :=
  match i with
  | .bootCtlGo part => Sys2Proof.Machine.execBootCtlGo part s
  | .coresWrite part value => Sys2Proof.Machine.execCoresWrite part value s
  | .sliceWrite part value => Sys2Proof.Machine.execSliceWrite part value s
  | .registerWrite fn offset value => Sys2Proof.Machine.execRegisterWrite fn offset value s
  | .fbCtlFlush part => Sys2Proof.Machine.execFbCtlFlush part s
  | .fbCtlFail part oid => Sys2Proof.Machine.execFbCtlFail part oid s
  | .invCtlGo part => Sys2Proof.Machine.execInvCtlGo part s
  | .portEnable port => Sys2Proof.Machine.execPortEnable port s
  | .portDisable port => Sys2Proof.Machine.execPortDisable port s
  | .portRetrain port => Sys2Proof.Machine.execPortRetrain port s
  | .portFence port => Sys2Proof.Machine.execPortFence port s
  | .portUnfence port => Sys2Proof.Machine.execPortUnfence port s
  | .portTrainingComplete port lanes => Sys2Proof.Machine.execPortTrainingComplete port lanes s
  | .portTrainingTimeout port => Sys2Proof.Machine.execPortTrainingTimeout port s
  | .laneLost port => Sys2Proof.Machine.execLaneLost port s
  | .lossOfSignal port => Sys2Proof.Machine.execLossOfSignal port s
  | .flitReceive port flit => Sys2Proof.Machine.execFlitReceive port flit s
  | .nackReplay port => Sys2Proof.Machine.execNackReplay port s
  | .carCtlWrite value => Sys2Proof.Machine.execCarCtlWrite value s
  | .dvfsChange mhz => Sys2Proof.Machine.execDvfsChange mhz s
  | .hostCxlMemAccess write pa bytes => Sys2Proof.Machine.execHostCxlMemAccess write pa bytes s
  | .handlerEntry core slot => Sys2Proof.Machine.execHandlerEntry core slot s
  | .sleepWake core slot => Sys2Proof.Machine.execSleepWake core slot s
  | .waitWake core slot => Sys2Proof.Machine.execWaitWake core slot s
  | .barWaitTimeout core slot => Sys2Proof.Machine.execBarWaitTimeout core slot s
  | .swapRequest cores => Sys2Proof.Machine.execSwapRequest cores s
  | .ctxSaveComplete oid => Sys2Proof.Machine.execCtxSaveComplete oid s
  | .tailAdvanceObserved oid queue => Sys2Proof.Machine.execTailAdvanceObserved oid queue s
  | .nopCommand oid queue => Sys2Proof.Machine.execNopCommand oid queue s
  | .linkCommand oid queue => Sys2Proof.Machine.execLinkCommand oid queue s
  | .launchCommand oid queue => Sys2Proof.Machine.execLaunchCommand oid queue s
  | .jobCommand oid queue => Sys2Proof.Machine.execJobCommand oid queue s
  | .waitCommand oid queue => Sys2Proof.Machine.execWaitCommand oid queue s
  | .kernelAdmission kernel => Sys2Proof.Machine.execKernelAdmission kernel s
  | .exitPerformed core slot => Sys2Proof.Machine.execExitPerformed core slot s
  | .kernelRetirement kernel => Sys2Proof.Machine.execKernelRetirement kernel s
  | .loadDataReturn load => Sys2Proof.Machine.execLoadDataReturn load s
  | .l1Fill fill => Sys2Proof.Machine.execL1Fill fill s
  | .dirtyLineTimeout core line => Sys2Proof.Machine.execDirtyLineTimeout core line s
  | .writeBackAccepted core line => Sys2Proof.Machine.execWriteBackAccepted core line s
  | .homeSliceAccept post => Sys2Proof.Machine.execHomeSliceAccept post s
  | .tlbWalk cluster oid va access => Sys2Proof.Machine.execTlbWalk cluster oid va access s
  | .pageIn page => Sys2Proof.Machine.execPageIn page s
  | .busyLeafChange line => Sys2Proof.Machine.execBusyLeafChange line s
  | .pgInvAckComplete core slot => Sys2Proof.Machine.execPgInvAckComplete core slot s
  | .slotFillComplete core unit => Sys2Proof.Machine.execSlotFillComplete core unit s
  | .slotStoreComplete core unit => Sys2Proof.Machine.execSlotStoreComplete core unit s
  | .ringNotify notice => Sys2Proof.Machine.execRingNotify notice s
  | .ringCopy entry => Sys2Proof.Machine.execRingCopy entry s
  | .ringSignal entry => Sys2Proof.Machine.execRingSignal entry s
  | .fillRingSlotFill entry => Sys2Proof.Machine.execFillRingSlotFill entry s
  | .haloCopy halo => Sys2Proof.Machine.execHaloCopy halo s
  | .copyJob job => Sys2Proof.Machine.execCopyJob job s
  | .gatherJob job => Sys2Proof.Machine.execGatherJob job s
  | .collectivePut job => Sys2Proof.Machine.execCollectivePut job s
  | .replicaExchange job => Sys2Proof.Machine.execReplicaExchange job s
  | .clusterClbPreWalk walk => Sys2Proof.Machine.execClusterClbPreWalk walk s
  | .cymbalComplete core slot => Sys2Proof.Machine.execCymbalComplete core slot s
  | .stitchEditPublish core slot => Sys2Proof.Machine.execStitchEditPublish core slot s
  | .systemCallReply core slot => Sys2Proof.Machine.execSystemCallReply core slot s
  | .translationRangeWord word => Sys2Proof.Machine.execTranslationRangeWord word s
  | .add f => Sys2Proof.Machine.execAdd f s
  | .addc f => Sys2Proof.Machine.execAddc f s
  | .sub f => Sys2Proof.Machine.execSub f s
  | .subb f => Sys2Proof.Machine.execSubb f s
  | .neg f => Sys2Proof.Machine.execNeg f s
  | .abs f => Sys2Proof.Machine.execAbs f s
  | .min f => Sys2Proof.Machine.execMin f s
  | .max f => Sys2Proof.Machine.execMax f s
  | .clamp f => Sys2Proof.Machine.execClamp f s
  | .mul f => Sys2Proof.Machine.execMul f s
  | .mulhi f => Sys2Proof.Machine.execMulhi f s
  | .mad f => Sys2Proof.Machine.execMad f s
  | .madw f => Sys2Proof.Machine.execMadw f s
  | .sad f => Sys2Proof.Machine.execSad f s
  | .and f => Sys2Proof.Machine.execAnd f s
  | .or f => Sys2Proof.Machine.execOr f s
  | .xor f => Sys2Proof.Machine.execXor f s
  | .andn f => Sys2Proof.Machine.execAndn f s
  | .not f => Sys2Proof.Machine.execNot f s
  | .shl f => Sys2Proof.Machine.execShl f s
  | .shr f => Sys2Proof.Machine.execShr f s
  | .sar f => Sys2Proof.Machine.execSar f s
  | .rot f => Sys2Proof.Machine.execRot f s
  | .funnel f => Sys2Proof.Machine.execFunnel f s
  | .bfx f => Sys2Proof.Machine.execBfx f s
  | .bfi f => Sys2Proof.Machine.execBfi f s
  | .popc f => Sys2Proof.Machine.execPopc f s
  | .clz f => Sys2Proof.Machine.execClz f s
  | .ctz f => Sys2Proof.Machine.execCtz f s
  | .brev f => Sys2Proof.Machine.execBrev f s
  | .perm f => Sys2Proof.Machine.execPerm f s
  | .sel f => Sys2Proof.Machine.execSel f s
  | .cmp f => Sys2Proof.Machine.execCmp f s
  | .mov f => Sys2Proof.Machine.execMov f s
  | .movi f => Sys2Proof.Machine.execMovi f s
  | .moviHi f => Sys2Proof.Machine.execMoviHi f s
  | .lea f => Sys2Proof.Machine.execLea f s
  | .sxt f => Sys2Proof.Machine.execSxt f s
  | .zxt f => Sys2Proof.Machine.execZxt f s
  | .dp4 f => Sys2Proof.Machine.execDp4 f s
  | .addi f => Sys2Proof.Machine.execAddi f s
  | .andi f => Sys2Proof.Machine.execAndi f s
  | .ori f => Sys2Proof.Machine.execOri f s
  | .cmpi f => Sys2Proof.Machine.execCmpi f s
  | .fadd f => Sys2Proof.Machine.execFadd f s
  | .fsub f => Sys2Proof.Machine.execFsub f s
  | .fmul f => Sys2Proof.Machine.execFmul f s
  | .ffma f => Sys2Proof.Machine.execFfma f s
  | .fmin f => Sys2Proof.Machine.execFmin f s
  | .fmax f => Sys2Proof.Machine.execFmax f s
  | .fminl f => Sys2Proof.Machine.execFminl f s
  | .fmaxl f => Sys2Proof.Machine.execFmaxl f s
  | .fcmp f => Sys2Proof.Machine.execFcmp f s
  | .fclass f => Sys2Proof.Machine.execFclass f s
  | .frcp f => Sys2Proof.Machine.execFrcp f s
  | .frsq f => Sys2Proof.Machine.execFrsq f s
  | .fsqrt f => Sys2Proof.Machine.execFsqrt f s
  | .fexp2 f => Sys2Proof.Machine.execFexp2 f s
  | .flog2 f => Sys2Proof.Machine.execFlog2 f s
  | .fsin f => Sys2Proof.Machine.execFsin f s
  | .fcos f => Sys2Proof.Machine.execFcos f s
  | .ftanh f => Sys2Proof.Machine.execFtanh f s
  | .fscale f => Sys2Proof.Machine.execFscale f s
  | .fexpo f => Sys2Proof.Machine.execFexpo f s
  | .ffract f => Sys2Proof.Machine.execFfract f s
  | .frnd f => Sys2Proof.Machine.execFrnd f s
  | .fdot2 f => Sys2Proof.Machine.execFdot2 f s
  | .fpma f => Sys2Proof.Machine.execFpma f s
  | .cvt f => Sys2Proof.Machine.execCvt f s
  | .qnt f => Sys2Proof.Machine.execQnt f s
  | .dqnt f => Sys2Proof.Machine.execDqnt f s
  | .smx f => Sys2Proof.Machine.execSmx f s
  | .relbk f => Sys2Proof.Machine.execRelbk f s
  | .nop f => Sys2Proof.Machine.execNop f s
  | .bra f => Sys2Proof.Machine.execBra f s
  | .brc f => Sys2Proof.Machine.execBrc f s
  | .call f => Sys2Proof.Machine.execCall f s
  | .ret f => Sys2Proof.Machine.execRet f s
  | .jmpi f => Sys2Proof.Machine.execJmpi f s
  | .exit f => Sys2Proof.Machine.execExit f s
  | .exitTeam f => Sys2Proof.Machine.execExitTeam f s
  | .mpush f => Sys2Proof.Machine.execMpush f s
  | .mpop f => Sys2Proof.Machine.execMpop f s
  | .mand f => Sys2Proof.Machine.execMand f s
  | .mandn f => Sys2Proof.Machine.execMandn f s
  | .melse f => Sys2Proof.Machine.execMelse f s
  | .yield f => Sys2Proof.Machine.execYield f s
  | .sleep f => Sys2Proof.Machine.execSleep f s
  | .pmov f => Sys2Proof.Machine.execPmov f s
  | .pand f => Sys2Proof.Machine.execPand f s
  | .por f => Sys2Proof.Machine.execPor f s
  | .pxor f => Sys2Proof.Machine.execPxor f s
  | .pnot f => Sys2Proof.Machine.execPnot f s
  | .pcnt f => Sys2Proof.Machine.execPcnt f s
  | .pfirst f => Sys2Proof.Machine.execPfirst f s
  | .vote f => Sys2Proof.Machine.execVote f s
  | .ballot f => Sys2Proof.Machine.execBallot f s
  | .shfl f => Sys2Proof.Machine.execShfl f s
  | .rdc f => Sys2Proof.Machine.execRdc f s
  | .scan f => Sys2Proof.Machine.execScan f s
  | .msync f => Sys2Proof.Machine.execMsync f s
  | .isect f => Sys2Proof.Machine.execIsect f s
  | .ld f => Sys2Proof.Machine.execLd f s
  | .st f => Sys2Proof.Machine.execSt f s
  | .ldu f => Sys2Proof.Machine.execLdu f s
  | .ldsp f => Sys2Proof.Machine.execLdsp f s
  | .stsp f => Sys2Proof.Machine.execStsp f s
  | .atom f => Sys2Proof.Machine.execAtom f s
  | .atomsp f => Sys2Proof.Machine.execAtomsp f s
  | .fence f => Sys2Proof.Machine.execFence f s
  | .waitaddr f => Sys2Proof.Machine.execWaitaddr f s
  | .pfh f => Sys2Proof.Machine.execPfh f s
  | .barInit f => Sys2Proof.Machine.execBarInit f s
  | .barExpect f => Sys2Proof.Machine.execBarExpect f s
  | .barArrive f => Sys2Proof.Machine.execBarArrive f s
  | .barWait f => Sys2Proof.Machine.execBarWait f s
  | .barTest f => Sys2Proof.Machine.execBarTest f s
  | .hbarSync f => Sys2Proof.Machine.execHbarSync f s
  | .hbarArrive f => Sys2Proof.Machine.execHbarArrive f s
  | .hbarWait f => Sys2Proof.Machine.execHbarWait f s
  | .hbarCnt f => Sys2Proof.Machine.execHbarCnt f s
  | .hbarCntFree f => Sys2Proof.Machine.execHbarCntFree f s
  | .rngAwait f => Sys2Proof.Machine.execRngAwait f s
  | .rngRelease f => Sys2Proof.Machine.execRngRelease f s
  | .seqwait f => Sys2Proof.Machine.execSeqwait f s
  | .halo f => Sys2Proof.Machine.execHalo f s
  | .slotClaim f => Sys2Proof.Machine.execSlotClaim f s
  | .slotRelease f => Sys2Proof.Machine.execSlotRelease f s
  | .slotLoad f => Sys2Proof.Machine.execSlotLoad f s
  | .slotStore f => Sys2Proof.Machine.execSlotStore f s
  | .slotZero f => Sys2Proof.Machine.execSlotZero f s
  | .slotRd f => Sys2Proof.Machine.execSlotRd f s
  | .slotWr f => Sys2Proof.Machine.execSlotWr f s
  | .mma f => Sys2Proof.Machine.execMma f s
  | .volLd f => Sys2Proof.Machine.execVolLd f s
  | .volSt f => Sys2Proof.Machine.execVolSt f s
  | .volAtom f => Sys2Proof.Machine.execVolAtom f s
  | .volProbe f => Sys2Proof.Machine.execVolProbe f s
  | .volAlloc f => Sys2Proof.Machine.execVolAlloc f s
  | .volFree f => Sys2Proof.Machine.execVolFree f s
  | .volFmt f => Sys2Proof.Machine.execVolFmt f s
  | .volSync f => Sys2Proof.Machine.execVolSync f s
  | .volInv f => Sys2Proof.Machine.execVolInv f s
  | .sxPin f => Sys2Proof.Machine.execSxPin f s
  | .sxUnpin f => Sys2Proof.Machine.execSxUnpin f s
  | .sxLd f => Sys2Proof.Machine.execSxLd f s
  | .sxSt f => Sys2Proof.Machine.execSxSt f s
  | .sxNext f => Sys2Proof.Machine.execSxNext f s
  | .sxLen f => Sys2Proof.Machine.execSxLen f s
  | .sxWhere f => Sys2Proof.Machine.execSxWhere f s
  | .sxSplice f => Sys2Proof.Machine.execSxSplice f s
  | .sxAppend f => Sys2Proof.Machine.execSxAppend f s
  | .sxFork f => Sys2Proof.Machine.execSxFork f s
  | .sxTrunc f => Sys2Proof.Machine.execSxTrunc f s
  | .hbRd f => Sys2Proof.Machine.execHbRd f s
  | .hbWr f => Sys2Proof.Machine.execHbWr f s
  | .hbClr f => Sys2Proof.Machine.execHbClr f s
  | .hbFrz f => Sys2Proof.Machine.execHbFrz f s
  | .hbThw f => Sys2Proof.Machine.execHbThw f s
  | .hbLd f => Sys2Proof.Machine.execHbLd f s
  | .hbSt f => Sys2Proof.Machine.execHbSt f s
  | .trapUser f => Sys2Proof.Machine.execTrapUser f s
  | .trapSystemCall f => Sys2Proof.Machine.execTrapSystemCall f s
  | .rte f => Sys2Proof.Machine.execRte f s
  | .rteUp f => Sys2Proof.Machine.execRteUp f s
  | .frd f => Sys2Proof.Machine.execFrd f s
  | .fwr f => Sys2Proof.Machine.execFwr f s
  | .sysrd f => Sys2Proof.Machine.execSysrd f s
  | .syswr f => Sys2Proof.Machine.execSyswr f s
  | .pgMap f => Sys2Proof.Machine.execPgMap f s
  | .pgInv f => Sys2Proof.Machine.execPgInv f s
  | .ctxSwapStage f => Sys2Proof.Machine.execCtxSwapStage f s
  | .ctxSwap f => Sys2Proof.Machine.execCtxSwap f s
  | .ctxSwapChain f => Sys2Proof.Machine.execCtxSwapChain f s
  | .ctxSwapDrop f => Sys2Proof.Machine.execCtxSwapDrop f s
  | .ctxSave f => Sys2Proof.Machine.execCtxSave f s
  | .ctxLoad f => Sys2Proof.Machine.execCtxLoad f s
  | .clk f => Sys2Proof.Machine.execClk f s
  | .clkLamport f => Sys2Proof.Machine.execClkLamport f s
  | .dgst f => Sys2Proof.Machine.execDgst f s
  | .halt f => Sys2Proof.Machine.execHalt f s
  | .replicaTimeout job => Sys2Proof.Machine.execReplicaTimeout job s
  | .unassignedOpcodeWord word => Sys2Proof.Machine.execUnassignedOpcodeWord word s
  | .reset => Sys2Proof.Machine.execReset s
  | .memoryAndLinkTrainingDone => Sys2Proof.Machine.execMemoryAndLinkTrainingDone s
  | .devCtlGo => Sys2Proof.Machine.execDevCtlGo s
  | .gong => Sys2Proof.Machine.execGong s
  | .carillonSweep => Sys2Proof.Machine.execCarillonSweep s
  | .clockStop => Sys2Proof.Machine.execClockStop s
  | .clockRestart => Sys2Proof.Machine.execClockRestart s
  | .clauseArbitration => Sys2Proof.Machine.execClauseArbitration s
  | .clauseFetch => Sys2Proof.Machine.execClauseFetch s
  | .snhitReport => Sys2Proof.Machine.execSnhitReport s
  | .snhitResume => Sys2Proof.Machine.execSnhitResume s
  | .snhitClear => Sys2Proof.Machine.execSnhitClear s
  | .cooperativeDeadlineExpiry => Sys2Proof.Machine.execCooperativeDeadlineExpiry s
  | .timeSliceTurnEnd => Sys2Proof.Machine.execTimeSliceTurnEnd s
  | .swapExchange => Sys2Proof.Machine.execSwapExchange s
  | .spillComplete => Sys2Proof.Machine.execSpillComplete s
  | .spillError => Sys2Proof.Machine.execSpillError s
  | .stagingComplete => Sys2Proof.Machine.execStagingComplete s
  | .gangPlacement => Sys2Proof.Machine.execGangPlacement s
  | .distributorPreemption => Sys2Proof.Machine.execDistributorPreemption s
  | .matrixPassStart => Sys2Proof.Machine.execMatrixPassStart s
  | .matrixPassComplete => Sys2Proof.Machine.execMatrixPassComplete s
  | .stitchPageIn => Sys2Proof.Machine.execStitchPageIn s
  | .pieceDeath => Sys2Proof.Machine.execPieceDeath s

end Sys2Proof.Machine
end

