-- ==== Sys2Proof/Machine/Turns.lean ====
section
/-! DEFINITION. The schedule: which agent moves next, and the passing of time (log entry 1). -/

namespace Sys2Proof.Machine

/-- What the part does when the schedule is empty. -/
def defaultTurn (s : State) : Turn := .issue s.sel.core s.sel.pipe

/-- The turn that the next step takes. -/
def nextTurn (s : State) : Turn := match s.turns with | t :: _ => t | [] => defaultTurn s

/-- The schedule without its first turn. -/
def dropTurn (s : State) : State := { s with turns := s.turns.tail }

/-- The state in which the turn of a core and pipe acts. -/
def takeTurn (s : State) (core pipe : Nat) : State := { s with turns := s.turns.tail, sel := { core := core, pipe := pipe } }

/-- What a pipe does at State.sel: the word of the team that holds it, a clause fetch when that team has no clause, an
arbitration when no team holds it (R32, R115). -/
def issueInstr (s : State) : Instr :=
  match s.selKey with
  | none => .clauseArbitration
  | some k =>
    match s.team k with
    | none => .clauseArbitration
    | some t => if t.clause.isEmpty then .clauseFetch else parse (curWord t)

/-! ## The order of a core-clock edge (R72, R216) -/

/-- The place of a pipe's turn among those of its core on one edge: hb instructions first, then the others, each in ascending pipe
order. -/
def edgePlace (i : Instr) (pipe : Nat) : Nat := if 0x300 ≤ i.op ∧ i.op ≤ 0x306 then pipe + 1 else pipe + 9

/-- The turn may still act on the current edge: nothing that comes after it there has acted. An arbitration or a fetch may follow
what its own pipe has done on the edge; a word takes an edge of its own (R110). -/
def sameEdge (s : State) (core pipe : Nat) (i : Instr) : Bool :=
  let last := s.edge.get (core + 1) 0
  let place := edgePlace i pipe
  decide (s.edge.get 0 0 = 0) && (decide (last < place) || (decide (last = place) && (decide (i = .clauseArbitration) || decide (i = .clauseFetch))))

/-- A pipe's turn acts on the current edge, or on the next one. Counts of R82 that reach 255 on the edge are events of their pipes: they
come after the hb instructions, in ascending pipe order (R72). -/
def onEdge (s : State) (core pipe : Nat) (i : Instr) : State :=
  let s1 := if sameEdge s core pipe i then s else passTime s 0 1
  let s2 := if edgePlace i pipe < 9 then s1 else expireCct s1 s1.cycle fun k => decide (keyCore k = core ∧ keyPipe k ≤ pipe)
  { s2 with edge := s2.edge.put (core + 1) (edgePlace i pipe) }

/-- Something that no pipe issues acts on the current edge: what a pipe does after it comes on a later one. -/
def afterPipes (s : State) : State :=
  let s1 := expireCct s s.cycle fun _ => true
  { s1 with edge := s1.edge.put 0 1 }

/-- An uncorrectable error strikes a granule (R256). -/
def strikeGranule (s : State) (g : Nat) : State := { s with bad := if s.bad.contains g then s.bad else g :: s.bad }

/-- A class that admits an opcode, if there is one (R35). -/
def classFor (op : Nat) : Nat := ((List.range 6).find? fun c => classAdmits c op).getD 0

/-- A clause header of a class with one word and no waits (R31). -/
def headerFor (cls : Nat) : W64 := BitVec.ofNat 64 (0xa * 2 ^ 60 + cls * 2 ^ 57 + 1 * 2 ^ 52)

/-- A team of width 32 in slot 0 of core 0 that has fetched a clause of the one word w. -/
def placeWord (s : State) (w : Nat) : State :=
  let wd := BitVec.ofNat 64 w
  let k := s.activeKey 0 0
  let c := s.core 0
  { (s.setCore 0 { c with pipes := c.pipes.put 0 0 }) with
    teams := s.teams.put k { Team.blank 32 with clause := [headerFor (classFor (opOf wd)), wd] }
    turns := [.issue 0 0] }

end Sys2Proof.Machine
end

