-- ==== Sys2Proof/Machine/Step.lean ====
section
/-! DEFINITION. One step of the part: the next turn of the schedule, or what the part does by itself when the schedule is
empty (log entry 1). -/

namespace Sys2Proof.Machine

/-- One step. -/
def step (s : State) : Host.Outcome State Fault Refusal :=
  match nextTurn s with
  | .issue core pipe =>
    let i := issueInstr (takeTurn s core pipe)
    exec i (onEdge (takeTurn s core pipe) core pipe i)
  | .event core pipe i => exec i (afterPipes (takeTurn s core pipe))
  | .advance ticks cycles => .next (advanceTime (dropTurn s) ticks cycles)
  | .strike granule => .next (strikeGranule (dropTurn s) granule)

/-- The instruction whose bits are w stands as the only word of the clause that the team in slot 0 of core 0 has fetched,
and the next turn issues it: the one clause that step runs next. Log entry 4 says how a program comes to run on the part
itself. -/
def State.withFetchWord (s : State) (_nbits w : Nat) : State := placeWord s w

end Sys2Proof.Machine
end

