-- ==== Sys2Proof/Safety.lean ====
section
/-! DEFINITION. What a safe step and a safe run are, and the terms in which statements speak of a step: when a word issues,
what a word leaves, how a team goes on. -/

namespace Sys2Proof.Machine

/-! ## Runs -/

/-- The next state of a step, if it has one. -/
def stepNext (s : State) : Option State := match step s with | .next t => some t | _ => none

/-- n steps, each with a next state. -/
def runs : Nat → State → Option State
  | 0, s => some s
  | n + 1, s => match stepNext s with | some t => runs n t | none => none

/-- The machine goes on for n steps. -/
def safe (n : Nat) (s : State) : Prop := ∃ t, runs n s = some t

/-! ## When a word issues -/

/-- The word i issues at State.sel for the team t in slot k: the team holds the pipe with its clause fetched, every decode
check of R48 passes, no PC snare hits, no load in flight holds a register of the word, and no register that it reads is
poisoned. -/
structure Issues (i : Instr) (s : State) (k : Nat) (t : Team) : Prop where
  pipe : s.selKey = some k
  team : (s.team k).map (claimWait i) = some t
  ready : canIssue t = true
  going : halted s k t = false
  check2 : classAdmits (hdrClass (curHdr t)) i.op = true
  check3 : (i.check3 && dyn3 t i) = true
  check4 : (i.check4 && dyn4 s t i) = true
  noSnare : pcSnare s k t i = none
  free : ((allCodes s k t i).any fun c => (pendingCodes s k).contains c) = false
  sound : ∀ p ∈ t.poison, (readCodes s k t i).any p.regs.contains = false

/-! ## Where a word leaves its team -/

/-- The word is the last of its clause. -/
def lastWord (t : Team) : Bool := !decide (t.i + 1 < hdrCount (curHdr t))

/-- The state after a word whose own effect gives s1 has committed: its issue cycles are counted, and the team goes to the
next word or, at the end of the clause, to the next header (R30, R325). -/
def committed (s1 : State) (k : Nat) (t : Team) : State := commitWord (bumpCounter s1 (keyCore k) 0 (issueCycles t)) k

/-- The state after a word whose own effect gives s1 has committed and transferred to a header (R117). -/
def transferred (s1 : State) (k : Nat) (t : Team) (target : W64) : State :=
  completeClause (bumpCounter s1 (keyCore k) 0 (issueCycles t)) k target

/-- The state after a word has raised a precise fault in a state s1. -/
def faulted (s1 : State) (k : Nat) (t : Team) (c : Cause) : State := raise (bumpCounter s1 (keyCore k) 0 (issueCycles t)) k c

/-- The word completes, and its own effect is to make s into s1. -/
def Completes (i : Instr) (s : State) (k : Nat) (t : Team) (s1 : State) : Prop := exec i s = .next (committed s1 k t)

/-- The word raises a precise fault, with the changes that stand in s1. -/
def Traps (i : Instr) (s : State) (k : Nat) (t : Team) (s1 : State) (c : Cause) : Prop := exec i s = .next (faulted s1 k t c)

/-- The word waits at issue and holds the pipe: its team is marked as stalled, so that the core cycles that pass are counted, and nothing
else changes (R110, R325). -/
def Stalls (i : Instr) (s : State) (k : Nat) : Prop := exec i s = .next (stallAt s k)

/-- The state after a word that makes its team wait, with resume point (H, i): its pipe is free (R113). -/
def waited (s1 : State) (k : Nat) (t : Team) : State :=
  freePipe ((bumpCounter s1 (keyCore k) 0 (issueCycles t)).modTeam k fun u => { u with clause := [] }) k

/-- The word leaves its team waiting in a way, with a wait record. -/
def Waits (i : Instr) (s : State) (k : Nat) (t : Team) (s1 : State) (kind : WKind) (rec : BitVec 256) : Prop :=
  exec i s = .next (waited (s1.modTeam k fun u => { u with state := .waiting, waitKind := kind, wait := rec }) k t)

/-- The state after a word that commits as the last thing its team does before it waits past it (R303). -/
def parkedPast (s1 : State) (k : Nat) (t : Team) : State :=
  freePipe ((bumpCounter s1 (keyCore k) 0 (issueCycles t)).modTeam k fun u => { advance u with clause := [] }) k

/-- The lanes left to a word that acts once for its team and resumes (R305): it is unguarded, or one of them is still active and passes. -/
def someLeft (t : Team) (g : Guard) : Prop := g = .always ∨ maskAny (resumedLanes t g) t.width = true

/-- A word that acts once for its team (R111): with a guard that no active lane passes it does nothing, and a wait of its own that was under
way is over; otherwise it acts. -/
def Once (i : Instr) (g : Guard) (s : State) (k : Nat) (t : Team) (acts : Prop) : Prop :=
  (teamRuns t g = false → Completes i s k t (endWait s k)) ∧ (teamRuns t g = true → acts)

/-- The clause that ends with this word writes a digest record (R329). -/
def writesDigest (s : State) (t : Team) : Bool := lastWord t && hdrDigest (curHdr t) && t.digestMode && carOn s

/-! ## What a state holds -/

/-- The value of a V, KV, S or KS register of the team in slot k, in a lane (R39): 32 bits of a vector register, or its
pair when wide; 64 bits of a scalar register. -/
def reg (s : State) (k : Nat) (wide : Bool) (o : Opd) (L : Nat) : W64 :=
  match s.team k with | some t => opd s k t wide o L | none => 0

/-- A predicate of the team in slot k. -/
def predOf (s : State) (k n : Nat) : Mask := match s.team k with | some t => t.preg n | none => 0

/-- A register, not a special. -/
def isReg (o : Opd) : Bool := o.isVK || o.isSK

/-- The registers of a destination: D, and the register after it when a vector pair takes 64 bits (R17, R40). -/
def destOf (wide : Bool) (d : Opd) : List Opd := if wide && d.isVK then [d, Opd.next d 1] else [d]

/-- A team without its registers, its predicates and E, and without what every committed word moves: its place, its clause's requests, its
float flags and report, and the digest points that wait. -/
def Team.rest (t : Team) : Team :=
  { t with
    e := 0, v := [], s := [], p := [], h := 0, i := 0, clause := [], passSnare := none, resumeLanes := none, atResume := false, stalled := false,
    farH := false, fpQuiet := none, cct := none, digestQ := [],
    yielded := false, asks := [], wake := 0, state := .ready, waitKind := .none, fmode := 0, fpFlags := 0, fpReport := none }

/-- A core without its pipes, its counters and its handler stores. -/
def Core.rest (c : Core) : Core := { c with pipes := [], counters := [], kv := [], ks := [] }

/-- A state without its teams and cores. -/
def State.rest (s : State) : State := { s with teams := [], cores := [] }

/-- What a word that works on registers only leaves as it was: every other team, the special and exception registers of its
own team, every other core, its own core but for the pipe, the issue counters and the handler store, and, unless the clause
ends with a digest record, every byte of memory and everything else in the part. -/
structure UntouchedIf (s s' : State) (k : Nat) (t : Team) (digest : Bool) : Prop where
  others : ∀ k', k' ≠ k → s'.team k' = s.team k'
  own : ∃ t', s'.team k = some t' ∧ t'.rest = t.rest ∧ (digest = false → t'.digestQ = t.digestQ)
  otherCores : digest = false → ∀ c, c ≠ keyCore k → s'.core c = s.core c
  ownCore : digest = false → (s'.core (keyCore k)).rest = (s.core (keyCore k)).rest
  otherStores : digest = false → ∀ k' n, (keyCore k' ≠ keyCore k ∨ storeKey k' ≠ storeKey k) →
    (n < 16 → kvReg s' k' n = kvReg s k' n) ∧ (n < 8 → ksReg s' k' n = ksReg s k' n)
  part : digest = false → s'.rest = s.rest

/-- What a committed word that works on registers only leaves as it was. -/
abbrev Untouched (s s' : State) (k : Nat) (t : Team) : Prop := UntouchedIf s s' k t (writesDigest s t)

/-- Where the team stands after a committed word (R30, R33): at the next word of the clause, or with the pipe given up at
the next header, which it fetches next. -/
structure Onward (s' : State) (k : Nat) (t : Team) : Prop where
  next : lastWord t = false → ∃ t', s'.team k = some t' ∧ t'.h = t.h ∧ t'.i = t.i + 1 ∧ t'.clause = t.clause ∧ t'.state = t.state
  last : lastWord t = true → ∃ t', s'.team k = some t' ∧ t'.h = nextHeader t ∧ t'.i = 0 ∧ t'.clause = []

/-- The clause of a team: what decides where a committed word leaves it. -/
structure SameClause (t t1 : Team) : Prop where
  h : t1.h = t.h
  i : t1.i = t.i
  clause : t1.clause = t.clause
  state : t1.state = t.state
  digestMode : t1.digestMode = t.digestMode

/-- The predicates of a team, all as they were. -/
def samePreds (s s' : State) (k : Nat) : Prop := ∀ n, n < 8 → predOf s' k n = predOf s k n

/-- E as it was. -/
def sameE (s' : State) (k : Nat) (t : Team) : Prop := ∃ t', s'.team k = some t' ∧ t'.e = t.e

/-- What a word does to the float state of its team (R28): the exceptions fl of its lanes are added to those of the clause,
which set the sticky flags when the clause ends, and r is the report of the clause. -/
def floatState (s' : State) (k : Nat) (t : Team) (fl : BitVec 5) (r : Option FpReport) : Prop :=
  ∃ t', s'.team k = some t' ∧ t'.fpReport = r ∧
    (lastWord t = false → t'.fpFlags = t.fpFlags ||| fl ∧ t'.fmode = t.fmode) ∧
    (lastWord t = true → t'.fpFlags = 0 ∧ t'.fmode = t.fmode ||| BitVec.ofNat 64 ((t.fpFlags ||| fl).toNat * 2 ^ 13))

/-- A word that raises no float exception. -/
def noFloat (s' : State) (k : Nat) (t : Team) : Prop := floatState s' k t 0 t.fpReport

/-- A word has written D and nothing else (R17, R40, R111, R129): in each lane of Lanes a vector D holds the lane's value,
in the other lanes what it held; a scalar D holds lane 0's value when the word runs, a discarding D nothing; every other
register, every predicate and E are as they were. -/
structure WroteD (s s' : State) (k : Nat) (t : Team) (g : Guard) (d : Opd) (wide : Bool) (val : Nat → W64) : Prop where
  lanes : d.isVK = true → ∀ L, L < t.width → L < 1024 →
    reg s' k wide d L = if (lanesOf t g).getLsbD L then (if wide then val L else (val L).truncate 32 |>.zeroExtend 64) else reg s k wide d L
  scalar : d.isSK = true → reg s' k true d 0 = if teamRuns t g then val 0 else reg s k true d 0
  others : ∀ o L, isReg o = true → o ∉ destOf wide d → L < t.width → L < 1024 → reg s' k false o L = reg s k false o L
  preds : samePreds s s' k
  e : sameE s' k t

/-- A word whose own effect is to write D completes: exec answers a next state in which D holds the values and all else
stands as the frame says. -/
def WritesD (i : Instr) (s : State) (k : Nat) (t : Team) (g : Guard) (d : Opd) (wide : Bool) (val : Nat → W64) : Prop :=
  ∃ s', exec i s = .next s' ∧ WroteD s s' k t g d wide val ∧ noFloat s' k t ∧ Untouched s s' k t ∧ Onward s' k t

/-- A word has written a predicate in the lanes of Lanes and nothing else (R122, R137). -/
structure WroteP (s s' : State) (k : Nat) (t : Team) (lanes : Mask) (d : Opd) (val : Nat → Bool) : Prop where
  lanes : ∀ n L, d = .p n → n.val < 7 → L < t.width → L < 1024 →
    (predOf s' k n.val).getLsbD L = if lanes.getLsbD L then val L else (predOf s k n.val).getLsbD L
  otherPreds : ∀ m, m < 8 → (∀ n, d = .p n → n.val ≠ m) → predOf s' k m = predOf s k m
  regs : ∀ o L wide, isReg o = true → L < t.width → L < 1024 → reg s' k wide o L = reg s k wide o L
  e : sameE s' k t

/-- A word whose own effect is to write a predicate completes. -/
def WritesP (i : Instr) (s : State) (k : Nat) (t : Team) (lanes : Mask) (d : Opd) (val : Nat → Bool) : Prop :=
  ∃ s', exec i s = .next s' ∧ WroteP s s' k t lanes d val ∧ noFloat s' k t ∧ Untouched s s' k t ∧ Onward s' k t

/-- Every register as it was. -/
def sameRegs (s s' : State) (k : Nat) (t : Team) : Prop :=
  ∀ o L wide, isReg o = true → L < t.width → L < 1024 → reg s' k wide o L = reg s k wide o L

/-- A word whose own effect is to set E completes: E is the new mask, every register and predicate is as it was. -/
def SetsE (i : Instr) (s : State) (k : Nat) (t : Team) (e : Mask) : Prop :=
  ∃ s', exec i s = .next s' ∧ (∃ t', s'.team k = some t' ∧ t'.e = e) ∧ sameRegs s s' k t ∧ samePreds s s' k ∧ noFloat s' k t ∧
    Untouched s s' k t ∧ Onward s' k t

/-- The clause of a team writes a digest record when it ends (R329). -/
def clauseDigest (s : State) (t : Team) : Bool := hdrDigest (curHdr t) && t.digestMode && carOn s

/-- The team stands at a header, with its clause ended: the next thing it does is to fetch there; the float exceptions of
the clause have set the sticky flags (R28, R117). -/
def landed (s' : State) (k : Nat) (t : Team) (target : W64) : Prop :=
  ∃ t', s'.team k = some t' ∧ t'.h = target ∧ t'.i = 0 ∧ t'.clause = [] ∧ t'.fpFlags = 0 ∧ t'.fpReport = t.fpReport ∧
    t'.fmode = t.fmode ||| BitVec.ofNat 64 (t.fpFlags.toNat * 2 ^ 13)

/-- A word whose own effect is to transfer completes: the team stands at the target; E, the predicates and every register but
those of links are as they were. -/
def Jumps (i : Instr) (s : State) (k : Nat) (t : Team) (target : W64) (links : List (Opd × W64)) : Prop :=
  ∃ s', exec i s = .next s' ∧ landed s' k t target ∧ (∀ p ∈ links, reg s' k true p.1 0 = p.2) ∧
    (∀ o L wide, isReg o = true → (∀ p ∈ links, o ≠ p.1) → L < t.width → L < 1024 → reg s' k wide o L = reg s k wide o L) ∧
    samePreds s s' k ∧ sameE s' k t ∧ UntouchedIf s s' k t (clauseDigest s t)

/-- A word with no effect of its own completes. -/
def Passes (i : Instr) (s : State) (k : Nat) (t : Team) : Prop :=
  ∃ s', exec i s = .next s' ∧ sameRegs s s' k t ∧ samePreds s s' k ∧ sameE s' k t ∧ noFloat s' k t ∧ Untouched s s' k t ∧ Onward s' k t

/-- The team has ended (R113, R119): it is EXITING and issues nothing more. -/
def ended (s' : State) (k : Nat) : Prop :=
  ∃ t', s'.team k = some t' ∧ t'.state = .exiting ∧ t'.clause = [] ∧ t'.handler = false ∧ t'.pending = 0 ∧ t'.fpReport = none

/-! ## Families of forms -/

/-- A VR form whose own effect is to write D: exec answers a next state with D = val in every lane of Lanes, for every
word, state, slot and team of which the word issues. -/
def Computes (i : VR → Instr) (wide : VR → Bool) (val : VR → Nat → Team → State → Nat → W64) : Prop :=
  ∀ (f : VR) (s : State) (k : Nat) (t : Team), Issues (i f) s k t → WritesD (i f) s k t f.g f.d (wide f) (val f k t s)

/-- A form whose Op is an exact integer function of its sources, fitted once (R129, R132). -/
def ComputesInt (i : VR → Instr) (sat : VR → Bool) (op : VR → Int → Int → Int → Int) : Prop :=
  Computes i (fun f => f.t.wide) fun f k t s L =>
    fit f.t (sat f) (op f (intSrc s k t f.t f.a L) (intSrc s k t f.t f.b L) (intSrc s k t f.t f.c L))

/-- A form whose Op is a function of the width w, of a and b as w-bit patterns, and of b and c read as n32 (R134 to R136);
the result has type ty. -/
def ComputesBits (i : VR → Instr) (ty : VR → ETy) (op : VR → Nat → Nat → Nat → Nat → Nat → Nat) : Prop :=
  Computes i (fun f => (ty f).wide) fun f k t s L =>
    fitBits (ty f) (op f (ETy.width f.t) (bitSrc s k t f.t f.a L) (bitSrc s k t f.t f.b L) (n32Src s k t f.b L) (n32Src s k t f.c L))

/-- A VI form whose own effect is to write D. -/
def ComputesImm (i : VI → Instr) (wide : Bool) (val : VI → Nat → Team → State → Nat → W64) : Prop :=
  ∀ (f : VI) (s : State) (k : Nat) (t : Team), Issues (i f) s k t → WritesD (i f) s k t f.g f.d wide (val f k t s)

/-- A form whose own effect is to write the predicate D in the lanes of Lanes. -/
def ComputesPred (i : VR → Instr) (val : VR → Nat → Team → State → Nat → Bool) : Prop :=
  ∀ (f : VR) (s : State) (k : Nat) (t : Team), Issues (i f) s k t → WritesP (i f) s k t (lanesOf t f.g) f.d (val f k t s)

/-- No lane of a float word raises an exception whose trap is enabled, or the team is outside handler mode: the word commits
(R28, R299). -/
def fpCommits (t : Team) (lanes : List Nat) (exc : Nat → Exc) : Prop :=
  t.handler = false ∨ ∀ L ∈ lanes, exc L &&& trapEnables t = 0

/-- The exceptions of a word's lanes together. -/
def fpAll (lanes : List Nat) (exc : Nat → Exc) : Exc := lanes.foldl (fun acc L => acc ||| exc L) 0

/-- A float form whose own effect is to write D with the bits that val gives, each lane with its exceptions; a scalar D
takes the value of the one lane that stands for the team (R28, R111, R143). -/
def ComputesFloat (i : VR → Instr) (wide : VR → Bool) (ty : VR → ETy) (val : VR → Nat → Team → State → Nat → Nat × Exc) : Prop :=
  ∀ (f : VR) (s : State) (k : Nat) (t : Team), Issues (i f) s k t →
    let lanes := fpLanes t f.g f.d
    let exc := fun L => (val f k t s L).2
    let at' := fun L => if f.d.isSK then lanes.headD 0 else L
    fpCommits t lanes exc →
    ∃ s', exec (i f) s = .next s' ∧
      WroteD s s' k t f.g f.d (wide f) (fun L => fitBits (ty f) (val f k t s (at' L)).1) ∧
      floatState s' k t (fpAll lanes exc) (noteFp t lanes exc).fpReport ∧ Untouched s s' k t ∧ Onward s' k t

/-- The value of a float form in a lane: op on the sources after FTZI and the modifiers, or on both elements of f16x2 with
their exceptions merged (R43, R143). -/
def perElement (op : Fmt → FEnv → Nat → Nat → Nat → Nat × Exc) (f : VR) (k : Nat) (t : Team) (s : State) (L : Nat) : Nat × Exc :=
  let v := fenv t f.m
  let fm := fmtOf f.t
  onElems f.t fun e => op fm v (fpElem fm v f.m 5 (e (bitSrc s k t f.t f.a L))) (fpElem fm v f.m 3 (e (bitSrc s k t f.t f.b L)))
    (fpElem fm v f.m 1 (e (bitSrc s k t f.t f.c L)))

/-- A float form of R143 whose result and exceptions are op's, in its own type. -/
def ComputesElements (i : VR → Instr) (op : VR → Fmt → FEnv → Nat → Nat → Nat → Nat × Exc) : Prop :=
  ComputesFloat i (fun f => f.t.wide) (fun f => f.t) fun f k t s L => perElement (op f) f k t s L

/-- A w-bit pattern read as two's complement. -/
def signedBits (w a : Nat) : Int := if 2 ^ (w - 1) ≤ a then (a : Int) - 2 ^ w else a

/-! ## Records and volumes that a word reaches -/

/-- A team's word reaches n bytes at a virtual address as a record (R268, R291, R348): aligned, translated to this part, with
no uncorrectable error; what the team has in flight there is finished in s1. -/
structure Reaches (s : State) (k : Nat) (t : Team) (align n acc va : Nat) (s1 : State) (pa : Nat) : Prop where
  aligned : va % align = 0
  mapped : ∃ s0 L v, (let x := xlatLanes (keyCore k) (clusterOf (keyCore k)) t.oid acc [(0, va)] s
    actOnXlat x.1 k t acc x.2) = .go s0 [(L, v, pa)] ∧ s1 = settlePhys s0 k pa n
  here : isPeer pa = false
  sound : badAt s1 pa n = false

/-- Step 4 of R268 passes for walked tiles: no lane's tile fails, and none has a BUSY leaf. -/
structure StepFour (s : State) (d : VDesc) (need : VNeed) (ls : List VLane) (ts : List VTile) : Prop where
  sound : ∀ l ∈ ls, ∀ x, l.inside = some x → ∀ v, findTile ts x.1 = some v → tileFault s d need v x.2 = none
  settled : ∀ v ∈ ts, ∀ pa e, v.walk ≠ .busy pa e

/-- The descriptor of a vol word is at hand: some lane acts, no peer window is waited for, no data snare hits, and the 128 bytes are reached
at pa. -/
structure DescGoes (s : State) (k : Nat) (t : Team) (f : VR) (acc : Nat) (s1 : State) (pa : Nat) : Prop where
  lanes : maskLanes (resumedLanes t f.g) t.width ≠ []
  free : peerHold s k = false
  noSnare : wideSnare s k t (resumedLanes t f.g) (reachKind acc 128) [(extVA (opdS s k t f.b), 128)] = none
  reach : Reaches s k t 128 128 acc (extVA (opdS s k t f.b)) s1 pa

/-- Steps 2 to 4 of R268 pass for a vol word: the descriptor is at hand and valid, the element size suits, and no lane's tile fails, nor
when an entry that the form replaces (cas) proves stale and its tile is walked again; s2 is the state with the tiles' deciding entries
in the CLB. -/
def VolGoes (s : State) (k : Nat) (t : Team) (f : VR) (acc : Nat) (size : Nat → Bool) (need : VNeed) (cas : VDesc → W64 → Bool) (s2 : State)
    (d : VDesc) (ls : List VLane) (ts : List VTile) : Prop :=
  ∃ s1 pa sa ta, DescGoes s k t f acc s1 pa ∧ d = volDesc s1 (ctxPart s t.oid) (extVA (opdS s k t f.b)) pa ∧ volDescOk s1 d = true ∧ size d.e = true ∧
    ls = (maskLanes (resumedLanes t f.g) t.width).map (volLane s k t d f.a) ∧ volTiles k t d (tilesOf ls) s1 = (sa, ta) ∧ StepFour sa d need ls ta ∧
    freshTiles k t d (cas d) ta sa = (s2, ts) ∧ StepFour s2 d need ls ts

/-- No line, fill, post or load is in flight or cached, and no granule holds an error: the home slices are all there is. -/
structure AtHome (s : State) : Prop where
  lines : ∀ c, (s.core c).l1 = []
  fills : s.fills = []
  posts : s.posts = []
  loads : s.loads = []
  bad : s.bad = []

/-- An image or a transfer of n bytes at an address is reached (R87, R169): no data snare, aligned, its pages translated to this part with the
permission that it needs, and no uncorrectable error; ps are its pieces, and what the team has in flight there is finished in s2. -/
structure ImageGoes (s : State) (k : Nat) (t : Team) (g : Guard) (acc : Nat) (a : W64) (s2 : State) (ps : List (Nat × Nat × Nat)) : Prop where
  noSnare : wideSnare s k t (lanesOf t g) acc [(extVA a, 2048)] = none
  aligned : a.toNat % 64 = 0
  free : peerHold s k = false
  reach : ∃ s1 ls, checkWide s k t g 1 acc ((rowPages a 2048).map fun v => (0, v)) = .go s1 ls ∧ (∀ x ∈ ls, isPeer x.2.2 = false) ∧
    ps = pagePieces (ls.foldl (fun tb x => tb.put (x.2.1 / 2 ^ 18) (x.2.2 - x.2.1 % 2 ^ 18)) []) a 2048 ∧
    s2 = ps.foldl (fun st p => settlePhys st k p.2.1 p.2.2) s1
  sound : spanBad s2 ps = none

/-- Every page of n bytes at an address translates to this part for a team (R303). -/
def PagesTranslate (s : State) (k : Nat) (t : Team) (acc va n : Nat) : Prop :=
  ∀ c ∈ cutPages (n / 2 ^ 18 + 2) va n, ∃ pa q e l, (xlat s (some (keyCore k)) (clusterOf (keyCore k)) t.oid c.1 acc).2 = .ok pa q e l ∧ isPeer pa = false

/-! ## Stitched tensors that a word reaches -/

/-- A record that a team's word reaches, with no data snare on it (R291, R307). -/
structure Reached (s : State) (k : Nat) (t : Team) (m : Mask) (align n acc va : Nat) (s1 : State) (pa : Nat) : Prop where
  noSnare : wideSnare s k t m (reachKind acc n) [(va, n)] = none
  reach : Reaches s k t align n acc va s1 pa

/-- Pieces of pages reached one after the other; pg1 has their pages. -/
def ReachedSeq (k : Nat) (t : Team) (m : Mask) : List (Nat × Nat × Nat) → State → Table Nat → State → Table Nat → Prop
  | [], s, pg, s1, pg1 => s1 = s ∧ pg1 = pg
  | (va, n, acc) :: r, s, pg, s1, pg1 =>
    ∃ sa pa, Reached s k t m 1 n acc va sa pa ∧ ReachedSeq k t m r sa (pg.put (va / 2 ^ 18) (pa - va % 2 ^ 18)) s1 pg1

/-- The words of records that a stitch word reaches (R348): the state with their pages translated, and the pages. -/
abbrev ReachesAll (s : State) (k : Nat) (t : Team) (m : Mask) (ws : List (Nat × Nat × Nat)) (pg : Table Nat) (s1 : State) (pg1 : Table Nat) : Prop :=
  ReachedSeq k t m (pageWords ws) s pg s1 pg1

/-- The list header at a handle is reached and sound (R275, R291). -/
def HeaderGoes (s : State) (k : Nat) (t : Team) (m : Mask) (va : Nat) (s1 : State) (h : SHdr) : Prop :=
  ∃ pa, Reached s k t m 128 128 accR va s1 pa ∧ h = stHdr s1 va pa ∧ h.good = true

/-- The record that a token names is reached and is the token's, and so is its list's header; v is the version (R280, R291). -/
def TokenNames (s : State) (k : Nat) (t : Team) (m : Mask) (tok : W64) (s1 : State) (v : SVer) : Prop :=
  let va := extVA (tok &&& ~~~ 0xfff#64)
  ∃ sa pa h, Reached s k t m 4096 64 accR va sa pa ∧
    (let f := fun (o n : Nat) => homeNat sa (pa + o) n
    (f 28 1 = 1 ∨ f 28 1 = 2) ∧ f 18 2 % 4096 = t.oid ∧ f 20 4 % 4096 = tok.toNat % 4096 ∧ HeaderGoes sa k t m (xva (f 0 8)) s1 h ∧
      v = { va := va, total := f 8 8, count := f 16 2, pins := if f 28 1 = 1 then h.pins else f 24 4, hdr := h })

/-- The record of a token that has been validated before, and its list's header, are reached (R287). -/
def TokenAgain (s : State) (k : Nat) (t : Team) (m : Mask) (tok : W64) (s1 : State) (v : SVer) : Prop :=
  let va := extVA (tok &&& ~~~ 0xfff#64)
  ∃ sa pa pb, Reached s k t m 4096 64 accR va sa pa ∧
    (let f := fun (o n : Nat) => homeNat sa (pa + o) n
    Reached sa k t m 128 128 accR (xva (f 0 8)) s1 pb ∧
      let h := stHdr s1 (xva (f 0 8)) pb
      v = { va := va, total := f 8 8, count := f 16 2, pins := if f 28 1 = 1 then h.pins else f 24 4, hdr := h })

/-- The token is valid: its version is pinned too (R280). -/
def TokenGoes (s : State) (k : Nat) (t : Team) (m : Mask) (tok : W64) (s1 : State) (v : SVer) : Prop := TokenNames s k t m tok s1 v ∧ v.pins ≠ 0

/-- The reference array of a version is reached and read. -/
def RefsGo (s : State) (k : Nat) (t : Team) (m : Mask) (va n : Nat) (s1 : State) (pg : Table Nat) (refs : List (Nat × Nat)) : Prop :=
  ReachesAll s k t m [(va + 64, 16 * n, accR)] [] s1 pg ∧ refs = verRefs s1 t.oid pg va n

/-- The references of a list's current version, none for an empty list. -/
def CurrentGoes (s : State) (k : Nat) (t : Team) (m : Mask) (h : SHdr) (s1 : State) (pg : Table Nat) (refs : List (Nat × Nat)) : Prop :=
  if h.current = 0 then s1 = s ∧ pg = [] ∧ refs = [] else RefsGo s k t m (xva h.current) h.count s1 pg refs

/-- The words of step 1 of an edit are reached (R282, R348). -/
def EditGoes (s : State) (k : Nat) (t : Team) (m : Mask) (h : SHdr) (pieces pools : List Nat) (pg : Table Nat) (s1 : State) (pg1 : Table Nat) : Prop :=
  ∃ sa pa sb pb, ReachesAll s k t m (editRecords h pools) pg sa pa ∧ ReachesAll sa k t m (editPieces sa t.oid pa pieces pools) pa sb pb ∧
    ReachesAll sb k t m (editCounts sb t.oid pb pieces) pb s1 pg1

/-- The list's pool holds a block for a version with references, and its words are reached; an empty version takes none (R278, R282). -/
def BlockGoes (s : State) (k : Nat) (t : Team) (m : Mask) (h : SHdr) (refs : List (Nat × Nat)) (pg : Table Nat) (s1 : State) (pg1 : Table Nat) (b : Nat) : Prop :=
  if refs = [] then s1 = s ∧ pg1 = pg ∧ b = 0
  else peekPool s t.oid pg h.vpool (blockBytes h.max) 4096 = .got b ∧ ReachesAll s k t m [(xva b, blockBytes h.max, accW)] pg s1 pg1

/-- The words of an unpin are reached (R281, R348). -/
def UnpinGoes (s : State) (k : Nat) (t : Team) (m : Mask) (v : SVer) (pins : Nat × Nat × Nat) (s1 : State) (pg1 : Table Nat) (refs : List (Nat × Nat)) : Prop :=
  ∃ sa pa sb pb, RefsGo s k t m v.va v.count sa pa refs ∧ ReachesAll sa k t m (unpinRecords v pins refs) pa sb pb ∧
    ReachesAll sb k t m (unpinCounts sb t.oid pb v refs) pb s1 pg1

/-- sx.ld or sx.st comes to its elements (R290, R291): some lane acts, no data snare is found on what it reaches, the token is valid, the type suits, every index is in the version, its
references and piece records are reached, and no data snare hits; the lanes have the addresses xs. -/
def ElementsGo (s : State) (k : Nat) (t : Team) (f : VR) (acc : Nat) (s1 : State) (e : Nat) (xs : List (Nat × Nat)) : Prop :=
  let m := resumedLanes t f.g
  let lanes := maskLanes m t.width
  ∃ sa v sb pb refs pc, lanes ≠ [] ∧ opdS s k t f.b ≠ 0 ∧ sxSnare (drain s k t) k t f m (if acc = accR then 1 else 2) lanes = none ∧ TokenGoes s k t m (opdS s k t f.b) sa v ∧ decide (f.t = .n64) = decide (v.hdr.size = 8) ∧
    (∀ L ∈ lanes, sxIndex sa k t f L < v.total) ∧ RefsGo sa k t m v.va v.count sb pb refs ∧
    (let hs := sxHits sb k t f refs v.total lanes
    ReachesAll sb k t m ((hitRecs hs).map fun p => (xva p, 64, accR)) pb s1 pc ∧ e = v.hdr.size ∧
      xs = hs.map fun h => (h.1, xva (pieceNat s1 t.oid pc h.2.1 0 8 + e * h.2.2.2))) ∧
    dataSnare s1 k t (if acc = accR then 1 else 2) e xs = none

/-- A team's access to an address finds its page in the cluster's TLB, with the permission that it needs and, for a write, with D set, and
reaches this part's memory at pa (R200, R244, R245). -/
def Mapped (s : State) (k : Nat) (t : Team) (acc va pa : Nat) : Prop :=
  isPeer pa = false ∧ ∃ e, tlbFind (s.cluster (clusterOf (keyCore k))) t.oid va = some e ∧ tlbUse s (ctxPart s t.oid) acc va e = some pa ∧
    (acc / 2 % 2 = 1 → pteD e.leaf = true)

/-- A team's load of an address reaches its byte at pa: in a line of the L1 that serves it, or through the TLB (R179, R203). -/
def Loadable (s : State) (k : Nat) (t : Team) (va pa : Nat) : Prop :=
  match findLine s (keyCore k) t.oid va with
  | some x => pa = 128 * x.2.2.pline + va % 128
  | none => Mapped s k t accR va pa

/-- A context's save area is at hand: cluster 0's TLB has every page of it, writable with D set, in tier 0 or 1 of this part, and nothing holds
an uncorrectable error (R60, R244, R245). -/
structure AreaGoes (s : State) (oid : Nat) : Prop where
  sound : s.bad = []
  mapped : ∃ c, s.ctx oid = some c ∧ ∀ off, off < areaBytes → ∃ e pa, tlbFind (s.cluster 0) oid (xva c.saveArea + off) = some e ∧
    tlbUse s c.partition accW (xva c.saveArea + off) e = some pa ∧ pteD e.leaf = true ∧ pa < 2 ^ 48

/-! ## An invariant of the machine -/

/-- Every memory of the machine is in its canonical form: device memory, host memory, the operand memories and the
scratchpads. -/
structure MemoriesCanonical (s : State) : Prop where
  mem : s.mem.wf = true
  hostMem : s.hostMem.wf = true
  opmem : ∀ c ∈ s.cores, c.2.opmem.wf = true
  scratch : ∀ g ∈ s.gangs, g.2.mem.wf = true

end Sys2Proof.Machine
end

