-- ==== Sys2Proof/Certificates/Slice0/Obligations.lean ====
section
/-! DEFINITION. The statements for the provers. -/

open Sys2Proof Sys2Proof.Machine

/-- Twelve words that the spec writes out field by field (a load, an add, a carry add, a high immediate, a compare, a branch, an exit.team, an atomsp, an mma, a fence, a volume load, an rte) decode to the instructions that it writes beside them. -/
def Obligations.DecodesTheSpecsWords : Prop :=
  decodeTableWord 64 0x6038090200802004 = some (.ld { g := .always, d := .v 4, base := .s 2, index := .v 1, scope := 0, order := 0, hint := 0, size := 2, off := 4 }) ∧
  decodeTableWord 64 0x00380a04037fc400 = some (.add { g := .always, d := .v 5, a := .v 4, b := .v 6, c := .none, t := .i32, m := 0 }) ∧
  decodeTableWord 64 0x0078080001504800 = some (.addc { g := .always, d := .v 4, a := .v 0, b := .v 2, c := .p 1, t := .n32, m := 0 }) ∧
  decodeTableWord 64 0x08ba090400000001 = some (.moviHi { g := .always, d := .s 4, a := .s 4, imm := 1 }) ∧
  decodeTableWord 64 0x0aba84075ffffffb = some (.cmpi { g := .always, d := .p 2, a := .v 7, imm := 0x5ffffffb }) ∧
  decodeTableWord 64 0x407bfffffa1c0000 = some (.bra { g := .always, disp := 0x3fffffa, cond := 0, pred := 7, rsv := 0 }) ∧
  decodeTableWord 64 0x41bbffffffffc001 = some (.exitTeam { g := .always, d := .none, a := .none, b := .none, c := .none, t := .b32, m := 1 }) ∧
  decodeTableWord 64 0x61b80601027fc004 = some (.atomsp { g := .always, d := .v 3, addr := .v 1, data := .v 4, cmp := .none, scope := 0, order := 0, aop := 0, size := 2, noRet := false }) ∧
  decodeTableWord 64 0x91f84002827fc001 = some (.mma { g := .always, acc := 4, ua := 0, ub := 2, fb := .s 4, bar := .none, flags := 1 }) ∧
  decodeTableWord 64 0x61fbffffffb60000 = some (.fence { g := .always, d := .none, base := .none, index := .none, scope := 3, order := 3, hint := 0, size := 0, off := 0 }) ∧
  decodeTableWord 64 0xa0381004817fc000 = some (.volLd { g := .always, d := .v 8, a := .v 4, b := .s 2, c := .none, t := .b32, m := 0 }) ∧
  decodeTableWord 64 0xc87bffff00000000 = some (.rte { g := .always, d := .none, a := .none, hi := 0, lo := 0 })

/-- For every instruction of every family that is well formed and has a word, with every operand at every value: decode of its word is the instruction. For every one of the 2^64 words: the word of what it parses to is that word, so no bit of any encoding is dropped. Two well-formed instructions with one word are equal. -/
def Obligations.DecodeAndEncodeAgree : Prop :=
  (∀ (i : Instr) (w : W64), i.wellFormed = true → encode i = some w → decode w = .ok i) ∧
  (∀ w : W64, encode (parse w) = some w) ∧
  (∀ (i j : Instr) (w : W64), i.wellFormed = true → j.wellFormed = true → encode i = some w → encode j = some w → i = j)

/-- For every word: decode answers ILLEGAL_OP exactly when check 3 fails on its instruction, ILLEGAL_OPERAND exactly when check 3 passes and check 4 fails, and an instruction otherwise, which is then well formed and has that word; an unassigned opcode is the instruction that raises ILLEGAL_OP at check 1. -/
def Obligations.DecodeRefusesByCheck : Prop :=
  ∀ w : W64,
    (decode w = .error .illegalOp ↔ (parse w).check3 = false) ∧
    (decode w = .error .illegalOperand ↔ (parse w).check3 = true ∧ (parse w).check4 = false) ∧
    (∀ i, decode w = .ok i ↔ i = parse w ∧ i.wellFormed = true) ∧
    (0x380 ≤ opOf w → parse w = .translationRangeWord w) ∧
    (opOf w < 0x380 → opAssigned (opOf w) = false → parse w = .unassignedOpcodeWord w)

/-- Whenever the team that holds the pipe is ready to issue a word whose OP is 0x380 to 0x3ff (or an unassigned code of another range), outside handler mode, with a handler and its store free: whatever the guard, the clause class and the other bits of the word are, exec answers a next state in which the team is in its handler: %ecause is ILLEGAL_OP alone, %einst is the whole word, %ehdr its header, %epc the word's own place, %eaddr its address, %emask and %eexec the mask E; its registers and predicates are unchanged. In handler mode the bit is held in %epend instead and the handler goes on. No opcode of 0x380 to 0x3ff is assigned. -/
def Obligations.WordsOutsideTheMapTrap : Prop :=
  (∀ op, 0x380 ≤ op → op < 0x400 → opAssigned op = false) ∧
  ∀ (i : Instr) (s : State) (k : Nat) (t : Team),
    ((∃ w, i = .translationRangeWord w) ∨ (∃ w, i = .unassignedOpcodeWord w)) →
    s.selKey = some k → s.team k = some t → canIssue t = true → halted s k t = false →
    (t.handler = false → hentry s t ≠ 0 → storeFree s k = true → olderEntering s k t = false →
      ∃ s' t', exec i s = .next s' ∧ s'.team k = some t' ∧ t'.handler = true ∧ t'.h = hentry s t ∧ t'.i = 0 ∧ t'.clause = [] ∧
        t'.ecause = 1 ∧ t'.einst = curWord t ∧ t'.ehdr = curHdr t ∧ t'.epc = packEpc t.h t.i ∧ t'.eaddr = wordAddr t.h t.i ∧
        t'.emask = t.e ∧ t'.eexec = t.e ∧ t'.epend = 0 ∧ t'.v = t.v ∧ t'.s = t.s ∧ t'.p = t.p ∧ (∀ k', k' ≠ k → s'.team k' = s.team k') ∧ s'.rest = s.rest) ∧
    (t.handler = true → ∃ s' t', exec i s = .next s' ∧ s'.team k = some t' ∧ t'.epend = t.epend ||| 1 ∧
      (t.epend = 0 → t'.lInst = curWord t ∧ t'.lHdr = curHdr t ∧ t'.lAddr = wordAddr t.h t.i ∧ t'.lMask = t.e) ∧
      t'.ecause = t.ecause ∧ t'.einst = t.einst ∧ t'.v = t.v ∧ t'.s = t.s ∧ t'.p = t.p ∧ t'.e = t.e)

/-- When the next turn is that of a core and pipe, a team holds that pipe with its clause fetched, and the word it issues next decodes to a well-formed instruction i, step is exec of i in the state in which the turn has been taken (the schedule without its first turn, State.sel at the core and pipe) and the pipe has its place on the core-clock edge: on this edge, unless something that comes after it there has acted, otherwise on the next one. A turn of an event runs that event there. A turn of time, with the carillon off and no gong fired, raises the tick and, while the core clock runs, the core cycle, and ends the edge. The schedule is the model's own (log entry 1). -/
def Obligations.StepRunsTheDecodedInstruction : Prop :=
  ∀ s : State,
    (∀ (core pipe k : Nat) (t : Team) (i : Instr), nextTurn s = .issue core pipe → (takeTurn s core pipe).selKey = some k → s.team k = some t →
      t.clause ≠ [] → decode (curWord t) = .ok i →
      let s1 := onEdge (takeTurn s core pipe) core pipe i
      step s = exec i s1 ∧ s1.sel = { core := core, pipe := pipe } ∧ s1.turns = s.turns.tail ∧ s1.edge.get (core + 1) 0 = edgePlace i pipe ∧
        s1.cycle = (if sameEdge (takeTurn s core pipe) core pipe i || s.stopped then s.cycle else s.cycle + 1) ∧ s1.tick = s.tick ∧ s1.mem = s.mem ∧
        ∀ k', (s1.team k').map (fun u => { u with cct := none }) = (s.team k').map fun u => { u with cct := none }) ∧
    (∀ (core pipe : Nat) (i : Instr), nextTurn s = .event core pipe i → step s = exec i (afterPipes (takeTurn s core pipe))) ∧
    (∀ ticks cycles, nextTurn s = .advance ticks cycles → carOn s = false → s.dev.gongFired = false →
      ∃ s1, step s = .next s1 ∧ s1.tick = s.tick + ticks ∧ s1.turns = s.turns.tail ∧ s1.cycle = (if s.stopped then s.cycle else s.cycle + cycles) ∧
        s1.edge = (if cycles = 0 then s.edge else []) ∧ s1.mem = s.mem ∧ s1.loads = s.loads)

/-- For every state s1 with a team in slot k whose clause is that of t: the committed state differs from s1 only in that team's place (the next word, or the next header with the pipe given up), what its yields and sleeps ask for, its float flags at the end of the clause, the core's counters and, when the clause ends with a digest point, its carillon record; every register, predicate and E are as in s1. -/
def Obligations.CommitMovesOn : Prop :=
  ∀ (s1 : State) (k : Nat) (t t1 : Team), s1.team k = some t1 → SameClause t t1 →
    let s' := committed s1 k t
    UntouchedIf s1 s' k t1 (writesDigest s1 t) ∧ Onward s' k t ∧ samePreds s1 s' k ∧ sameE s' k t1 ∧
    (∀ o L wide, isReg o = true → reg s' k wide o L = reg s1 k wide o L) ∧
    (lastWord t = false → ∃ t', s'.team k = some t' ∧ t'.fpFlags = t1.fpFlags ∧ t'.fmode = t1.fmode) ∧
    (lastWord t = true → ∃ t', s'.team k = some t' ∧ t'.fpFlags = 0 ∧ t'.fmode = t1.fmode ||| BitVec.ofNat 64 (t1.fpFlags.toNat * 2 ^ 13))

/-- For every state, team, mask, destination and values: writing D changes a vector D in the lanes of the mask (both registers of a pair when wide), a scalar D once, and nothing for %zero or 511; every other register, every predicate, E, every other team, core and byte of memory is as before. Writing a predicate changes it in the lanes of the mask only, and p7 never. -/
def Obligations.ResultsGoToTheirDestination : Prop :=
  ∀ (s : State) (k : Nat) (t : Team), s.team k = some t → ∀ (lanes : Mask) (wide : Bool) (d : Opd) (val : Nat → W64),
    (wide = true → ∀ n, d = .kv n → n.val + 1 < 16) →
    let s' := writeD s k lanes wide d val
    (d.isVK = true → ∀ L, L < t.width → L < 1024 →
      reg s' k wide d L = if lanes.getLsbD L then (if wide then val L else (val L).truncate 32 |>.zeroExtend 64) else reg s k wide d L) ∧
    (d.isSK = true → reg s' k true d 0 = val 0) ∧
    (d.isVK = false → d.isSK = false → s' = s) ∧
    (∀ o L, isReg o = true → o ∉ destOf wide d → L < t.width → L < 1024 → reg s' k false o L = reg s k false o L) ∧
    samePreds s s' k ∧ sameE s' k t ∧ UntouchedIf s s' k t false ∧
    (∀ r : Mask, let s2 := writeP s k lanes d r
      (∀ n L, d = .p n → n.val < 7 → L < 1024 → (predOf s2 k n.val).getLsbD L = if lanes.getLsbD L then r.getLsbD L else (predOf s k n.val).getLsbD L) ∧
      (∀ m, m < 8 → (∀ n, d = .p n → n.val ≠ m) → predOf s2 k m = predOf s k m) ∧
      (∀ o L w, isReg o = true → reg s2 k w o L = reg s k w o L) ∧ sameE s2 k t ∧ UntouchedIf s s2 k t false)

/-- For every instruction that has a word, at the pipe of a team that is ready to issue it: a class that does not admit it raises ILLEGAL_CLAUSE; otherwise a failing check 3 raises ILLEGAL_OP; otherwise a failing check 4 raises ILLEGAL_OPERAND; each with the word's address and the mask E, whatever the guard. A word that passes stops at a matching PC snare; otherwise it stalls, which marks its team so that the core cycles are counted, while a load in flight holds a register of it; otherwise the oldest error of a load's data that keeps a register it reads from being loaded raises UNCORRECTABLE with the address of the error and the word and header of the load. A team that is not ready, or whose core is halted, issues nothing; but the exit of a kernel's last team goes before a swap whose request reaches its core on that edge. -/
def Obligations.ChecksComeInOrder : Prop :=
  ∀ (i : Instr) (s : State) (k : Nat) (t0 : Team), i.op < 1024 → opAssigned i.op = true → s.selKey = some k → s.team k = some t0 →
    let t := claimWait i t0
    let fault := fun bits => exec i s = .next (raise s k { bits := bits, addr := wordAddr t.h t.i, mask := t.e })
    let admitted := classAdmits (hdrClass (curHdr t)) i.op = true
    let passes := admitted ∧ (i.check3 && dyn3 t i) = true ∧ (i.check4 && dyn4 s t i) = true
    let held := ((allCodes s k t i).any fun c => (pendingCodes s k).contains c) = true
    let goes := halted s k t = false ∨ exitsFirst i s k t = true
    ((canIssue t = false ∨ ¬goes) → exec i s = .next s) ∧
    (canIssue t = true → goes →
      (¬admitted → fault cIllegalClause) ∧
      (admitted → (i.check3 && dyn3 t i) = false → fault cIllegalOp) ∧
      (admitted → (i.check3 && dyn3 t i) = true → (i.check4 && dyn4 s t i) = false → fault cIllegalOperand) ∧
      (passes → ∀ n, pcSnare s k t i = some n → exec i s = .next (stopTeam s k n)) ∧
      (passes → pcSnare s k t i = none → held → Stalls i s k) ∧
      (passes → pcSnare s k t i = none → ¬held → ∀ p, (t.poison.find? fun p => (readCodes s k t i).any p.regs.contains) = some p →
        exec i s = .next (raise (s.setTeam k { t with poison := t.poison.erase p }) k
          { bits := cUncorrectable, addr := p.addr, mask := t.e, origin := some (p.word, p.hdr) })))

/-- For add, sub, neg, abs, min, max, clamp, mul, mulhi, mad, madw and sad: whenever the word issues, exec answers a next state in which D holds, in every active lane that passes the guard (or once, for a scalar D), the exact Op of R132 on the sources read before the write, fitted once to the type; the other lanes, every other register, every predicate, E, every special and exception register, every other team and core and all of memory are unchanged, and the team goes on at the next word or header. -/
def Obligations.IntegerArithmetic : Prop :=
  ComputesInt .add satBit (fun _ a b _ => a + b) ∧
  ComputesInt .sub satBit (fun _ a b _ => a - b) ∧
  ComputesInt .neg satBit (fun _ a _ _ => -a) ∧
  ComputesInt .abs satBit (fun _ a _ _ => (a.natAbs : Int)) ∧
  ComputesInt .min (fun _ => false) (fun _ a b _ => min a b) ∧
  ComputesInt .max (fun _ => false) (fun _ a b _ => max a b) ∧
  ComputesInt .clamp (fun _ => false) (fun _ a b c => min (max a b) c) ∧
  ComputesInt .mul satBit (fun _ a b _ => a * b) ∧
  ComputesInt .mulhi (fun _ => false) (fun f a b _ => Int.fdiv (a * b) (2 ^ ETy.width f.t)) ∧
  ComputesInt .mad satBit (fun _ a b c => a * b + c) ∧
  ComputesInt .sad satBit (fun _ a b c => ((a - b).natAbs : Int) + c) ∧
  Computes .madw (fun _ => true) (fun f k t s L =>
    fit (widen f.t) (satBit f) (intSrc s k t f.t f.a L * intSrc s k t f.t f.b L + intSrc s k t (widen f.t) f.c L))

/-- For every integer type: without SAT the value of a fitted result, read back with the type, is the one value of the type that is congruent to the exact result modulo 2^w; with SAT it is the exact result clamped to the type's lowest and highest value. The result stands in 64 bits sign-extended for a signed type and zero-extended for an unsigned one. -/
def Obligations.FitWrapsOrClamps : Prop :=
  ∀ (ty : ETy) (r : Int), ty.isInt = true →
    intLo ty ≤ intVal ty (fit ty false r) ∧ intVal ty (fit ty false r) ≤ intHi ty ∧
    (intVal ty (fit ty false r) - r) % 2 ^ ETy.width ty = 0 ∧
    intVal ty (fit ty true r) = max (intLo ty) (min r (intHi ty)) ∧
    (ETy.signed ty = true → (fit ty false r).toInt = intVal ty (fit ty false r)) ∧
    (ETy.signed ty = false → ((fit ty false r).toNat : Int) = intVal ty (fit ty false r))

/-- For addc and subb: whenever the word issues, exec answers a next state in which each lane of Lanes has in D the value r mod 2^w and in the predicate C whether r passes 2^w (addc) or is negative (subb), with r = a + b + ci or a - b - ci and ci the old C of the lane; other lanes of C, the other predicates and all else are unchanged. The decode checks accept exactly T = n32 or n64 with M = 0 under a legal guard, a V or KV destination, and p0 to p6 as C. -/
def Obligations.CarryChains : Prop :=
  ∀ (f : VR) (s : State) (k : Nat) (t : Team),
    let ci := fun L => if (opdP t f.c).getLsbD L then (1 : Int) else 0
    let sum := fun L => intSrc s k t f.t f.a L + intSrc s k t f.t f.b L + ci L
    let dif := fun L => intSrc s k t f.t f.a L - intSrc s k t f.t f.b L - ci L
    let done := fun (i : Instr) (r : Nat → Int) (out : Nat → Bool) =>
      ∃ s', exec i s = .next s' ∧ Untouched s s' k t ∧ Onward s' k t ∧ sameE s' k t ∧
        (∀ L, L < t.width → L < 1024 → reg s' k f.t.wide f.d L =
          if (lanesOf t f.g).getLsbD L then BitVec.ofInt 64 (r L % 2 ^ ETy.width f.t) else reg s k f.t.wide f.d L) ∧
        (∀ o L, isReg o = true → o ∉ destOf f.t.wide f.d → L < t.width → L < 1024 → reg s' k false o L = reg s k false o L) ∧
        (∀ n L, f.c = .p n → L < t.width → L < 1024 → (predOf s' k n.val).getLsbD L =
          if (lanesOf t f.g).getLsbD L then out L else (predOf s k n.val).getLsbD L) ∧
        (∀ m, m < 8 → (∀ n, f.c = .p n → n.val ≠ m) → predOf s' k m = predOf s k m)
    (Issues (.addc f) s k t → done (.addc f) sum fun L => decide ((2 : Int) ^ ETy.width f.t ≤ sum L)) ∧
    (Issues (.subb f) s k t → done (.subb f) dif fun L => decide (dif L < 0)) ∧
    ((Instr.addc f).check3 = true ↔ f.g ≠ .illegal ∧ (f.t = .n32 ∨ f.t = .n64) ∧ f.m = 0) ∧
    ((Instr.subb f).check3 = true ↔ f.g ≠ .illegal ∧ (f.t = .n32 ∨ f.t = .n64) ∧ f.m = 0) ∧
    ((Instr.addc f).kinds = true ↔ f.d.isVK = true ∧ f.a.isVSX = true ∧ f.b.isVSX = true ∧ ∃ n : Fin 8, f.c = .p n ∧ n.val < 7) ∧
    ((Instr.subb f).kinds = true ↔ f.d.isVK = true ∧ f.a.isVSX = true ∧ f.b.isVSX = true ∧ ∃ n : Fin 8, f.c = .p n ∧ n.val < 7)

/-- For and, or, xor, andn, not, shl, shr, sar, rot and funnel: whenever the word issues, exec answers a next state in which D holds the Op of R134 or R135 on w-bit patterns, with the amount an n32 value taken modulo w under WRAP; all else is unchanged. -/
def Obligations.LogicAndShifts : Prop :=
  ComputesBits .and (fun f => f.t) (fun _ _ a b _ _ => a &&& b) ∧
  ComputesBits .or (fun f => f.t) (fun _ _ a b _ _ => a ||| b) ∧
  ComputesBits .xor (fun f => f.t) (fun _ _ a b _ _ => a ^^^ b) ∧
  ComputesBits .andn (fun f => f.t) (fun _ w a b _ _ => a &&& (2 ^ w - 1 - b)) ∧
  ComputesBits .not (fun f => f.t) (fun _ w a _ _ _ => 2 ^ w - 1 - a) ∧
  ComputesBits .shl (fun f => f.t) (fun f w a _ n _ => let k := shiftAmt f w n; if w ≤ k then 0 else a * 2 ^ k % 2 ^ w) ∧
  ComputesBits .shr (fun f => f.t) (fun f w a _ n _ => let k := shiftAmt f w n; if w ≤ k then 0 else a / 2 ^ k) ∧
  ComputesBits .sar (fun f => f.t) (fun f w a _ n _ =>
    let k := shiftAmt f w n
    if w ≤ k then (if signedBits w a < 0 then 2 ^ w - 1 else 0) else (Int.fdiv (signedBits w a) (2 ^ k) % 2 ^ w).toNat) ∧
  ComputesBits .rot (fun f => f.t) (fun f w a _ n _ =>
    let j := if f.m.getLsbD 1 then (w - n % w) % w else n % w
    (a * 2 ^ j % 2 ^ w) ||| (a / 2 ^ (w - j))) ∧
  ComputesBits .funnel (fun f => f.t) (fun f w a b _ n =>
    let x := a * 2 ^ w + b
    let j := min (shiftAmt f w n) w
    if f.m.getLsbD 1 then x * 2 ^ j / 2 ^ w % 2 ^ w else x / 2 ^ j % 2 ^ w)

/-- For bfx, bfi, popc, clz, ctz, brev and perm: whenever the word issues, exec answers a next state in which D holds the result of R136; popc, clz and ctz write an n32 count. dp4 gives D c plus the four products of the bytes of a and b, each byte signed or unsigned by .sa and .sb, fitted once with SAT. All else is unchanged. -/
def Obligations.BitFieldsCountsPermutes : Prop :=
  ComputesBits .bfi (fun f => f.t) (fun _ w a b _ c =>
    let p := c % 256
    let n := c / 256 % 256
    let m := (2 ^ n - 1) * 2 ^ p % 2 ^ w
    (a &&& (2 ^ w - 1 - m)) ||| (b * 2 ^ p &&& m)) ∧
  Computes .bfx (fun f => f.t.wide) (fun f k t s L =>
    let w := ETy.width f.t
    let p := min (n32Src s k t f.b L) w
    let n := min (n32Src s k t f.c L) w
    let q := Int.fmod (Int.fdiv (intSrc s k t f.t f.a L) (2 ^ p)) (2 ^ n)
    fit f.t false (if ETy.signed f.t = true ∧ 0 < n ∧ (2 : Int) ^ (n - 1) ≤ q then q - 2 ^ n else q)) ∧
  ComputesBits .popc (fun _ => .n32) (fun _ w a _ _ _ => ((List.range w).filter fun i => a.testBit i).length) ∧
  ComputesBits .clz (fun _ => .n32) (fun _ w a _ _ _ => ((List.range w).find? fun i => a.testBit (w - 1 - i)).getD w) ∧
  ComputesBits .ctz (fun _ => .n32) (fun _ w a _ _ _ => ((List.range w).find? fun i => a.testBit i).getD w) ∧
  ComputesBits .brev (fun f => f.t) (fun _ w a _ _ _ => packBits (fun i => a.testBit (w - 1 - i)) w) ∧
  ComputesBits .perm (fun _ => .b32) (fun _ _ a b _ c =>
    let byte := fun k => if c.testBit (4 * k + 3) then 0 else (b * 2 ^ 32 + a) / 2 ^ (8 * (c / 2 ^ (4 * k) % 8)) % 256
    byte 0 + byte 1 * 2 ^ 8 + byte 2 * 2 ^ 16 + byte 3 * 2 ^ 24) ∧
  (Computes .dp4 (fun _ => false) (fun f k t s L =>
    let byte := fun (sg : Bool) (x j : Nat) => if sg then signedBits 8 (x / 2 ^ (8 * j) % 256) else ((x / 2 ^ (8 * j) % 256 : Nat) : Int)
    let a := n32Src s k t f.a L
    let b := n32Src s k t f.b L
    let p := fun j => byte (f.m.getLsbD 0) a j * byte (f.m.getLsbD 1) b j
    fit f.t (f.m.getLsbD 2) (intSrc s k t f.t f.c L + p 0 + p 1 + p 2 + p 3)))

/-- For sel, cmp, mov, movi, movi.hi, lea, sxt, zxt, addi, andi, ori and cmpi: whenever the word issues, exec answers a next state in which D (a register or, for cmp and cmpi, a predicate in the lanes of Lanes) holds the result of R137 to R139, R141 and R142; all else is unchanged. -/
def Obligations.SelectCompareMove : Prop :=
  Computes .sel (fun f => f.t.wide) (fun f k t s L =>
    fitBits f.t (bitSrc s k t f.t (if (opdP t f.c).getLsbD L then f.a else f.b) L)) ∧
  ComputesPred .cmp (fun f k t s L =>
    combine (fld f.m 3 2) (intCond (fld f.m 0 3) (intSrc s k t f.t f.a L) (intSrc s k t f.t f.b L)) ((opdP t f.c).getLsbD L)) ∧
  ComputesBits .mov (fun f => f.t) (fun _ _ a _ _ _ => a) ∧
  ComputesImm .movi false (fun f _ _ _ _ => f.imm.signExtend 64) ∧
  ComputesImm .moviHi true (fun f k t s _ => f.imm ++ (opdS s k t f.a).truncate 32) ∧
  Computes .lea (fun _ => true) (fun f k t s L =>
    let b := (opd s k t false f.b L).truncate 32
    opd s k t true f.a L + (if f.m.getLsbD 3 then b.signExtend 64 else b.zeroExtend 64) * BitVec.ofNat 64 (2 ^ fld f.m 0 3)) ∧
  ComputesBits .sxt (fun f => f.t) (fun f w a _ _ _ => (signedBits (fld f.m 0 7) (a % 2 ^ fld f.m 0 7) % 2 ^ w).toNat) ∧
  ComputesBits .zxt (fun f => f.t) (fun f _ a _ _ _ => a % 2 ^ fld f.m 0 7) ∧
  ComputesImm .addi false (fun f k t s L => opd s k t false f.a L + f.imm.signExtend 64) ∧
  ComputesImm .andi false (fun f k t s L => opd s k t false f.a L &&& f.imm.signExtend 64) ∧
  ComputesImm .ori false (fun f k t s L => opd s k t false f.a L ||| f.imm.signExtend 64) ∧
  (∀ (f : VI) (s : State) (k : Nat) (t : Team), Issues (.cmpi f) s k t →
    WritesP (.cmpi f) s k t (lanesOf t f.g) f.d fun L =>
      intCond (fld f.imm 29 3) (intSrc s k t (cmpiType f) f.a L) (cmpiImm f))

/-- For fadd, fsub, fmul, ffma, fpma, fscale and fdot2: whenever the word issues and, in handler mode, no lane raises an exception whose trap is enabled, exec answers a next state in which D holds the result in every lane of Lanes (or once), the lanes' exceptions are added to the flags of the clause (set in %fmode when the clause ends), the earliest trapping instruction of the clause is noted with its lowest trapping lane, and all other registers, predicates, special and exception registers, teams, cores and memory are unchanged. The result is the exact value (the fused value for ffma and fpma; for fdot2 the exact sum of both products and c in f32; for fscale a times 2^b) rounded once, or the NaN result of R27. -/
def Obligations.FloatArithmetic : Prop :=
  ComputesElements .fadd (fun _ fm v a b _ => deliverF fm v [(fm, a), (fm, b)] (addF v.rm (unpack fm a) (unpack fm b))) ∧
  ComputesElements .fsub (fun _ fm v a b _ => deliverF fm v [(fm, a), (fm, b)] (addF v.rm (unpack fm a) (negF (unpack fm b)))) ∧
  ComputesElements .fmul (fun _ fm v a b _ => deliverF fm v [(fm, a), (fm, b)] (mulF (unpack fm a) (unpack fm b))) ∧
  ComputesElements .ffma (fun _ fm v a b c =>
    deliverF fm v [(fm, a), (fm, b), (fm, c)] (fmaF v.rm (unpack fm a) (unpack fm b) (unpack fm c))) ∧
  ComputesElements .fpma (fun _ fm v a b c =>
    deliverF fm v [(fm, a), (fm, b), (fm, c)] (fmaF v.rm (unpack fm a) (unpack fm b) (unpack fm c))) ∧
  ComputesFloat .fscale (fun f => f.t.wide) (fun f => f.t) (fun f k t s L =>
    let v := fenv t f.m
    let fm := fmtOf f.t
    let n := ((opd s k t false f.b L).truncate 32).toInt
    onElems f.t fun e =>
      let x := fpElem fm v f.m 5 (e (bitSrc s k t f.t f.a L))
      deliverF fm v [(fm, x)] (scaleF (unpack fm x) n, 0)) ∧
  ComputesFloat .fdot2 (fun _ => false) (fun _ => .f32) (fun f k t s L =>
    let v := fenv t f.m
    let fm := fmtOf f.t
    let el := fun x h m => fpElem fm v f.m m (halfOf x h)
    let a0 := el (n32Src s k t f.a L) 0 5
    let a1 := el (n32Src s k t f.a L) 1 5
    let b0 := el (n32Src s k t f.b L) 0 3
    let b1 := el (n32Src s k t f.b L) 1 3
    let c := fpElem fmtF32 v f.m 1 (n32Src s k t f.c L)
    let p := mulF (unpack fm a0) (unpack fm b0)
    let q := mulF (unpack fm a1) (unpack fm b1)
    let u := addF v.rm p.1 q.1
    let w := addF v.rm u.1 (unpack fmtF32 c)
    deliverF fmtF32 v [(fm, a0), (fm, a1), (fm, b0), (fm, b1), (fmtF32, c)] (w.1, p.2 ||| q.2 ||| u.2 ||| w.2))

/-- For every magnitude m and every power 2^d by which it is rounded (q - e = d > 0): the rounded multiple is one of the two neighbours, inexact is reported exactly when m is no multiple of 2^d, an exact value is kept, RNE is within half a unit and takes the even neighbour on a tie, RTZ never grows the magnitude, and RDN and RUP move it by the sign. -/
def Obligations.RoundingIsNearestOrDirected : Prop :=
  ∀ (rm : Nat) (neg : Bool) (m : Nat) (e q : Int), rm < 4 → e < q →
    let d := (q - e).toNat
    let r := roundAt rm neg m e false q
    (r.2 = decide (m % 2 ^ d ≠ 0)) ∧ (r.2 = false → r.1 * 2 ^ d = m) ∧ (r.1 = m / 2 ^ d ∨ r.1 = m / 2 ^ d + 1) ∧
    (rm = 0 → 2 * ((r.1 * 2 ^ d : Nat) - (m : Int)).natAbs ≤ 2 ^ d ∧
      (2 * ((r.1 * 2 ^ d : Nat) - (m : Int)).natAbs = 2 ^ d → r.1 % 2 = 0)) ∧
    (rm = 1 → r.1 * 2 ^ d ≤ m) ∧
    (rm = 2 → if neg then m ≤ r.1 * 2 ^ d else r.1 * 2 ^ d ≤ m) ∧
    (rm = 3 → if neg then r.1 * 2 ^ d ≤ m else m ≤ r.1 * 2 ^ d)

/-- For the six float formats, every rounding mode and every bit pattern of the format that is no NaN: without SAT and FTZO, rounding the value of the bits to the format gives the same bits and raises nothing. -/
def Obligations.ExactValuesRoundToThemselves : Prop :=
  ∀ (f : Fmt) (v : FEnv) (x : Nat), f ∈ [fmtF64, fmtF32, fmtF16, fmtBf16, fmtE4m3, fmtE5m2] → x < 2 ^ f.width →
    isNaN f x = false → v.sat = false → v.ftzo = false → roundTo f v (unpack f x) = (x, 0)

/-- For fmin, fmax, fminl, fmaxl, fcmp and fclass: whenever the word issues and, in handler mode, no lane raises an exception whose trap is enabled, exec answers a next state in which D holds the result in every lane of Lanes (or once), the lanes' exceptions are added to the flags of the clause (set in %fmode when the clause ends), the earliest trapping instruction of the clause is noted with its lowest trapping lane, and all other registers, predicates, special and exception registers, teams, cores and memory are unchanged. fmin and fmax deliver an operand by minimumNumber or maximumNumber, or by the legacy rule under MMXL; fminl and fmaxl always by the legacy rule; fcmp writes its predicate in the lanes of Lanes, with invalid as R148 says; fclass writes one class bit and raises nothing. -/
def Obligations.FloatMinMaxCompareClass : Prop :=
  ComputesElements .fmin (fun _ fm v a b _ => if v.mmxl then minmaxLegacy fm v false a b else minmaxNum fm v false a b) ∧
  ComputesElements .fmax (fun _ fm v a b _ => if v.mmxl then minmaxLegacy fm v true a b else minmaxNum fm v true a b) ∧
  ComputesElements .fminl (fun _ fm v a b _ => minmaxLegacy fm v false a b) ∧
  ComputesElements .fmaxl (fun _ fm v a b _ => minmaxLegacy fm v true a b) ∧
  Computes .fclass (fun _ => false) (fun f k t s L => fitBits .n32 (2 ^ fpClass (fmtOf f.t) (bitSrc s k t f.t f.a L))) ∧
  (∀ (f : VR) (s : State) (k : Nat) (t : Team), Issues (.fcmp f) s k t →
    let v := fenv t 0
    let fm := fmtOf f.t
    let lanes := maskLanes (lanesOf t f.g) t.width
    let r := fun L => fpCond fm (fld f.m 0 3) (fpElem fm v f.m 8 (bitSrc s k t f.t f.a L)) (fpElem fm v f.m 6 (bitSrc s k t f.t f.b L))
    let exc := fun L => (r L).2
    fpCommits t lanes exc →
    ∃ s', exec (.fcmp f) s = .next s' ∧
      WroteP s s' k t (lanesOf t f.g) f.d (fun L => combine (fld f.m 3 2) (r L).1 ((opdP t f.c).getLsbD L)) ∧
      floatState s' k t (fpAll lanes exc) (noteFp t lanes exc).fpReport ∧ Untouched s s' k t ∧ Onward s' k t)

/-- For frcp, frsq, fsqrt, fexp2, flog2, fsin, fcos and ftanh: whenever the word issues and, in handler mode, no lane raises an exception whose trap is enabled, exec answers a next state in which D holds the result in every lane of Lanes (or once), the lanes' exceptions are added to the flags of the clause (set in %fmode when the clause ends), the earliest trapping instruction of the clause is noted with its lowest trapping lane, and all other registers, predicates, special and exception registers, teams, cores and memory are unchanged. fsqrt is the exact root rounded once. For the seven others the result is the special result of R151 where one applies, and otherwise the free value of the model's configuration for the input bits and modes if it lies within the bound of R150 of the exact value, else the correctly rounded value: the statement holds for every value of that free constant (log entry 6, the model's choice of form). -/
def Obligations.FloatApproximationsAndRoots : Prop :=
  ComputesElements .frcp (fun f _ v a _ _ => rcpF f.t v a) ∧
  ComputesElements .frsq (fun f _ v a _ _ => rsqF f.t v a) ∧
  ComputesElements .fsqrt (fun f _ v a _ _ => fsqrtF f.t v a) ∧
  ComputesElements .fexp2 (fun f _ v a _ _ => exp2F f.t v a) ∧
  ComputesElements .flog2 (fun f _ v a _ _ => log2F f.t v a) ∧
  ComputesElements .fsin (fun f _ v a _ _ => trigF f.t v 0 Config.rawFsin a) ∧
  ComputesElements .fcos (fun f _ v a _ _ => trigF f.t v 1 Config.rawFcos a) ∧
  ComputesElements .ftanh (fun f _ v a _ _ => tanhF f.t v a)

/-- Whatever the free bits are: the result of a bounded form is the exact value rounded to nearest, or (except a subnormal result under FTZO, which is a zero of its sign) bits of the format whose value lies within the given number of ulps, or within the absolute bound, of the enclosed exact value; and an inexact result always raises inexact. That an ulp is the spacing of the format at the exact result's exponent is the model's reading (log entry 19, DEDUCED: R150 does not say whose ulp); the free bits are those of log entry 6. -/
def Obligations.BoundedResultsAreClose : Prop :=
  ∀ (f : Fmt) (v : FEnv) (x : FVal) (raw ulps : Nat) (absExp : Option Int),
    let near := roundTo f { v with rm := 0 } x
    let r := bounded f v x raw ulps absExp
    r = near ∨
      (∃ y, y < 2 ^ f.width ∧ (closeF (unpack f y) x ulps (ulpExp f x) = true ∨ ∃ b, absExp = some b ∧ closeF (unpack f y) x 1 b = true) ∧
        r.2 &&& excNX ≠ 0 ∧ (r.1 = y ∨ (v.ftzo = true ∧ fExp f y = 0 ∧ r.1 = f.signBit (fNeg f y))))

/-- For fexpo, ffract, frnd and cvt: whenever the word issues and, in handler mode, no lane raises an exception whose trap is enabled, exec answers a next state in which D holds the result in every lane of Lanes (or once), the lanes' exceptions are added to the flags of the clause (set in %fmode when the clause ends), the earliest trapping instruction of the clause is noted with its lowest trapping lane, and all other registers, predicates, special and exception registers, teams, cores and memory are unchanged. fexpo writes Floor(log2|a|) as i32; ffract the fraction held below 1; frnd the integral value of a's sign without inexact; cvt rounds an integer or a float to a float type, or a float to an integer type by CvtFloatToInt. -/
def Obligations.FloatRoundAndConvert : Prop :=
  ComputesFloat .fexpo (fun _ => false) (fun _ => .i32) (fun f k t s L =>
    expoF (fmtOf f.t) (fpElem (fmtOf f.t) (fenv t f.m) f.m 5 (bitSrc s k t f.t f.a L))) ∧
  ComputesElements .ffract (fun _ fm v a _ _ => fractF fm v a) ∧
  ComputesElements .frnd (fun _ fm v a _ _ => rndF fm v a) ∧
  ComputesFloat .cvt (fun f => f.t.wide) (fun f => f.t) (fun f k t s L =>
    let v := fenv t f.m
    let st := ETy.ofBits (BitVec.ofNat 4 (fld f.m 0 4))
    let x := fpElem (fmtOf st) v f.m 5 (bitSrc s k t st f.a L)
    let n := intSrc s k t st f.a L
    if st.isInt then roundTo (fmtOf f.t) v (.fin (decide (n < 0)) n.natAbs 0 false)
    else if f.t.isInt then
      ((BitVec.ofInt 64 (cvtFloatInt (fmtOf st) f.t v (fld f.m 7 3) x).1).toNat, (cvtFloatInt (fmtOf st) f.t v (fld f.m 7 3) x).2)
    else deliverF (fmtOf f.t) v [(fmtOf st, x)] (unpack (fmtOf st) x, 0))

/-- For qnt, dqnt, smx and relbk: whenever the word issues and, in handler mode, no lane raises an exception whose trap is enabled, exec answers a next state in which D holds the result in every lane of Lanes (or once), the lanes' exceptions are added to the flags of the clause (set in %fmode when the clause ends), the earliest trapping instruction of the clause is noted with its lowest trapping lane, and all other registers, predicates, special and exception registers, teams, cores and memory are unchanged. qnt puts the code of a / b at its nibble of the base word; dqnt multiplies the codebook value by b; smx writes the four registers from D up; relbk writes the bucket and raises nothing. -/
def Obligations.QuantiseSoftmaxBuckets : Prop :=
  ComputesFloat .qnt (fun _ => false) (fun _ => .b32) (fun f k t s L =>
    let v := fenv t 0
    let kk := fld f.m 0 3
    let r := qntF (ftzIn fmtF32 v (bitSrc s k t .f32 f.a L)) (ftzIn fmtF32 v (bitSrc s k t .f32 f.b L))
    let base := if f.c.isN then 0 else n32Src s k t f.c L
    ((base &&& (2 ^ 32 - 1 - 15 * 2 ^ (4 * kk))) ||| r.1 * 2 ^ (4 * kk), r.2)) ∧
  ComputesFloat .dqnt (fun _ => false) (fun f => f.t) (fun f k t s L =>
    let v := fenv t f.m
    let b := ftzIn fmtF32 v (bitSrc s k t .f32 f.b L)
    deliverF (fmtOf f.t) v [(fmtF32, b)] (mulF (q16Val (n32Src s k t f.a L / 2 ^ (4 * fld f.m 0 3) % 16)) (unpack fmtF32 b))) ∧
  Computes .relbk (fun _ => false) (fun f k t s L =>
    fitBits .n32 (relbk (f.m.getLsbD 0) ((opd s k t false f.a L).truncate 32).toInt (n32Src s k t f.b L))) ∧
  (∀ (f : VR) (s : State) (k : Nat) (t : Team), Issues (.smx f) s k t →
    let v := fenv t 0
    let lanes := maskLanes (lanesOf t f.g) t.width
    let r := fun L => smxF v (ftzIn fmtF32 v (bitSrc s k t .f32 f.a L)) (ftzIn fmtF32 v (bitSrc s k t .f32 f.b L))
      (ftzIn fmtF32 v (bitSrc s k t .f32 f.c L))
    let exc := fun L => (r L).2.2.2.2
    let part := fun (j L : Nat) => [(r L).1, (r L).2.1, (r L).2.2.1, (r L).2.2.2.1].getD j 0
    fpCommits t lanes exc →
    ∃ s', exec (.smx f) s = .next s' ∧
      (∀ j L, j < 4 → L < t.width → L < 1024 → reg s' k false (Opd.next f.d j) L =
        if (lanesOf t f.g).getLsbD L then BitVec.ofNat 64 (part j L % 2 ^ 32) else reg s k false (Opd.next f.d j) L) ∧
      (∀ o L, isReg o = true → (∀ j, j < 4 → o ≠ Opd.next f.d j) → L < t.width → L < 1024 → reg s' k false o L = reg s k false o L) ∧
      samePreds s s' k ∧ sameE s' k t ∧ floatState s' k t (fpAll lanes exc) (noteFp t lanes exc).fpReport ∧ Untouched s s' k t ∧ Onward s' k t)

/-- Whenever bra, brc, call, ret or jmpi issues, exec answers a next state: bra and call go to H + 8·disp, brc goes there when its condition over the active lanes holds and otherwise commits with no other effect, ret goes to s63 and jmpi to its scalar when that is a multiple of 8 and otherwise the precise fault MISALIGN is raised at the jump, with the target as the address and E as the mask; call writes the address of the next header to s63. The team stands at the target with its clause ended and its float exceptions in the sticky flags; E, predicates, all other registers, special and exception registers, teams, cores and memory are unchanged. -/
def Obligations.TransfersAndCalls : Prop :=
  ∀ (s : State) (k : Nat) (t : Team),
    let disp := fun (f : BR) => t.h + 8 * f.disp.signExtend 64
    let active := t.e &&& lowMask t.width
    let taken := fun (f : BR) => match f.cond.toNat with
      | 0 => true
      | 1 => decide (active &&& t.preg f.pred.toNat ≠ 0)
      | 2 => decide (active &&& ~~~t.preg f.pred.toNat = 0)
      | 3 => decide (active &&& t.preg f.pred.toNat = 0)
      | _ => decide (active &&& ~~~t.preg f.pred.toNat ≠ 0)
    (∀ f : BR, Issues (.bra f) s k t → Jumps (.bra f) s k t (disp f) []) ∧
    (∀ f : BR, Issues (.brc f) s k t → if taken f then Jumps (.brc f) s k t (disp f) [] else Passes (.brc f) s k t) ∧
    (∀ f : BR, Issues (.call f) s k t → Jumps (.call f) s k t (disp f) [(.s 63, t.h + 8 + 8 * BitVec.ofNat 64 (hdrCount (curHdr t)))]) ∧
    (∀ f : VR, Issues (.ret f) s k t → (t.sreg 63).toNat % 8 = 0 → Jumps (.ret f) s k t (t.sreg 63) []) ∧
    (∀ f : VR, Issues (.jmpi f) s k t → (opdS s k t f.a).toNat % 8 = 0 → Jumps (.jmpi f) s k t (opdS s k t f.a) []) ∧
    (∀ f : VR, Issues (.ret f) s k t → (t.sreg 63).toNat % 8 ≠ 0 →
      exec (.ret f) s = .next (faulted s k t { bits := cMisalign, addr := t.sreg 63, mask := t.e })) ∧
    (∀ f : VR, Issues (.jmpi f) s k t → (opdS s k t f.a).toNat % 8 ≠ 0 →
      exec (.jmpi f) s = .next (faulted s k t { bits := cMisalign, addr := opdS s k t f.a, mask := t.e }))

/-- Whenever mpush, mpop, mand, mandn, melse, pmov, pand, por, pxor, pnot, pcnt or pfirst issues, exec answers a next state: the mask forms set E (bits at or above the width ignored) or write E to a predicate, the predicate forms write D in the lanes of Lanes, pcnt and pfirst write the count and the lowest lane (all ones in 32 bits when there is none) of the active lanes that pass the guard and have A set; all else is unchanged. -/
def Obligations.MasksAndPredicates : Prop :=
  ∀ (f : VR) (s : State) (k : Nat) (t : Team),
    (Issues (.mpush f) s k t → WritesP (.mpush f) s k t (lowMask t.width) f.d fun L => t.e.getLsbD L) ∧
    (Issues (.mpop f) s k t → SetsE (.mpop f) s k t (opdP t f.a &&& lowMask t.width)) ∧
    (Issues (.mand f) s k t → SetsE (.mand f) s k t (t.e &&& opdP t f.a &&& lowMask t.width)) ∧
    (Issues (.mandn f) s k t → SetsE (.mandn f) s k t (t.e &&& ~~~opdP t f.a &&& lowMask t.width)) ∧
    (Issues (.melse f) s k t → SetsE (.melse f) s k t (opdP t f.a &&& ~~~t.e &&& lowMask t.width)) ∧
    (Issues (.pmov f) s k t → WritesP (.pmov f) s k t (lanesOf t f.g) f.d fun L =>
      match f.a with
      | .p n => (t.preg n.val).getLsbD L
      | .s n => (t.sreg n.val).getLsbD (L % 64)
      | o => decide ((opd s k t false o L).toNat % 2 ^ 32 ≠ 0)) ∧
    (Issues (.pand f) s k t → WritesP (.pand f) s k t (lanesOf t f.g) f.d fun L => (opdP t f.a).getLsbD L && (opdP t f.b).getLsbD L) ∧
    (Issues (.por f) s k t → WritesP (.por f) s k t (lanesOf t f.g) f.d fun L => (opdP t f.a).getLsbD L || (opdP t f.b).getLsbD L) ∧
    (Issues (.pxor f) s k t → WritesP (.pxor f) s k t (lanesOf t f.g) f.d fun L => (opdP t f.a).getLsbD L ^^ (opdP t f.b).getLsbD L) ∧
    (Issues (.pnot f) s k t → WritesP (.pnot f) s k t (lanesOf t f.g) f.d fun L => !(opdP t f.a).getLsbD L) ∧
    (Issues (.pcnt f) s k t → WritesD (.pcnt f) s k t f.g f.d false fun _ =>
      BitVec.ofNat 64 ((List.range t.width).filter fun L => (lanesOf t f.g).getLsbD L && (opdP t f.a).getLsbD L).length) ∧
    (Issues (.pfirst f) s k t → WritesD (.pfirst f) s k t f.g f.d false fun _ =>
      BitVec.ofNat 64 (((List.range t.width).find? fun L => (lanesOf t f.g).getLsbD L && (opdP t f.a).getLsbD L).getD 0xffffffff))

/-- Whenever exit issues, exec answers a next state: the lanes of Lanes leave E and p0 to p6; if a lane stays active or a predicate keeps one, the team goes on with every register unchanged, otherwise the team is EXITING and issues nothing more. exit.team ends the team. -/
def Obligations.ExitRemovesLanesOrEndsTeam : Prop :=
  ∀ (f : VR) (s : State) (k : Nat) (t : Team),
    let x := lanesOf t f.g
    let left := dropLanes t x
    (Issues (.exit f) s k t →
      if noLanes left then ∃ s', exec (.exit f) s = .next s' ∧ ended s' k ∧ ∀ k', k' ≠ k → s'.team k' = s.team k'
      else ∃ s', exec (.exit f) s = .next s' ∧ (∃ t', s'.team k = some t' ∧ t'.e = t.e &&& ~~~x) ∧
        (∀ n, n < 7 → predOf s' k n = predOf s k n &&& ~~~x) ∧ sameRegs s s' k t ∧ noFloat s' k t ∧ Untouched s s' k t ∧ Onward s' k t) ∧
    (Issues (.exitTeam f) s k t → ∃ s', exec (.exitTeam f) s = .next s' ∧ ended s' k ∧ ∀ k', k' ≠ k → s'.team k' = s.team k')

/-- Whenever nop, yield or sleep issues, exec answers a next state with every register, predicate, E and memory unchanged. yield and a sleep of n > 0 ticks are kept until the clause ends; when the word is the last of its clause, a yield sets the yielded bit and parks the team if the cooperative deadline has passed, and a sleep makes the team SLEEPING until the tick at which it acts plus n. sleep with IMM32 = 0 does nothing. That a team is SLEEPING when yield and sleep were both asked, even past the deadline, and that a later sleep replaces an earlier one of its clause, is the model's reading (log entry 17, DEDUCED: R120 is silent). -/
def Obligations.NopYieldSleep : Prop :=
  ∀ (s : State) (k : Nat) (t : Team),
    (∀ f : VR, Issues (.nop f) s k t → Passes (.nop f) s k t) ∧
    (∀ f : VI, Issues (.sleep f) s k t → f.imm = 0 → Passes (.sleep f) s k t) ∧
    (∀ f : VR, Issues (.yield f) s k t →
      ∃ s' t', exec (.yield f) s = .next s' ∧ s'.team k = some t' ∧ sameRegs s s' k t ∧ samePreds s s' k ∧ sameE s' k t ∧
        Untouched s s' k t ∧ Onward s' k t ∧
        (lastWord t = false → (askOf t').yield = true ∧ (askOf t').sleep = (askOf t).sleep) ∧
        (lastWord t = true → t'.yielded = true ∧
          t'.state = if (askOf t).sleep ≠ 0 then .sleeping else if deadlinePast s (keyCore k) then .parked else t.state)) ∧
    (∀ f : VI, Issues (.sleep f) s k t → f.imm ≠ 0 →
      ∃ s' t', exec (.sleep f) s = .next s' ∧ s'.team k = some t' ∧ sameRegs s s' k t ∧ samePreds s s' k ∧ sameE s' k t ∧
        Untouched s s' k t ∧ Onward s' k t ∧
        (lastWord t = false → (askOf t').sleep = f.imm.toNat ∧ (askOf t').yield = (askOf t).yield) ∧
        (lastWord t = true → t'.state = .sleeping ∧ t'.wake = s.tick + f.imm.toNat))

/-- Whenever vote, ballot or shfl issues, exec answers a next state: vote writes one bit (any, all or uniform over the participants) to the predicate in the lanes of Lanes, ballot writes 64 bits of the participants with A set, shfl writes to each lane the value of A in its source lane within the segment, a scalar B or C supplying its low 32 bits with a 32-bit type; all else is unchanged. -/
def Obligations.VotesBallotsShuffles : Prop :=
  ∀ (f : VR) (s : State) (k : Nat) (t : Team),
    let bits := (participants t f.g).map fun L => (opdP t f.a).getLsbD L
    (Issues (.vote f) s k t → WritesP (.vote f) s k t (lanesOf t f.g) f.d fun _ =>
      if f.m = 0 then bits.any id else if f.m = 1 then bits.all id else (bits.all id || !bits.any id)) ∧
    (Issues (.ballot f) s k t → WritesD (.ballot f) s k t f.g f.d true fun _ =>
      (lanesOf t f.g &&& opdP t f.a).extractLsb' (64 * fld f.m 0 4) 64) ∧
    (Issues (.shfl f) s k t → WritesD (.shfl f) s k t f.g f.d f.t.wide fun L =>
      let index := fun (o : Opd) => let x := (opd s k t false o L).toNat; if f.t.wide then x else x % 2 ^ 32
      let c := index f.c
      let seg := if f.c.isN then t.width else 2 ^ Nat.log2 (min (max c 1) t.width)
      let b := index f.b
      let j := L % seg
      let src := match fld f.m 0 2 with
        | 0 => (L - j) + b % seg
        | 1 => if b ≤ j then L - b else L
        | 2 => if j + b < seg then L + b else L
        | _ => (L - j) + (j ^^^ b) % seg
      fitBits f.t (bitSrc s k t f.t f.a src))

/-- Whenever rdc or scan issues and no enabled float trap is raised in handler mode, exec answers a next state in which D holds the tree reduction of the participants' values (the identity when there is none) or each lane's inclusive or exclusive prefix, with the exceptions of the float steps recorded; a float element that no step combines is delivered as it stands (log entry 64, the model's reading). Whenever isect issues, D holds in each lane 2^31 plus the first lane whose B equals its A, or 0, and the scalar C the counts of both sides up to the smaller last value. All else is unchanged. -/
def Obligations.ReductionsScansIntersections : Prop :=
  ∀ (f : VR) (s : State) (k : Nat) (t : Team),
    let op := fld f.m 0 3
    let ls := participants t f.g
    let vals := ls.map fun L => (L, bitSrc s k t f.t f.a L)
    let step := redOp f.t op (redEnv t f.m)
    let tree := rdcTree step 10 vals
    let total := match tree.1 with | x :: _ => x.2 | [] => redIdentity f.t op
    let tab : Table (Nat × Nat × Exc) := scanList step none (redIdentity f.t op) vals
    (Issues (.rdc f) s k t → fpCommits t ls (excOf tree.2) →
      ∃ s', exec (.rdc f) s = .next s' ∧ WroteD s s' k t f.g f.d f.t.wide (fun _ => fitBits f.t total) ∧
        floatState s' k t (fpAll ls (excOf tree.2)) (noteFp t ls (excOf tree.2)).fpReport ∧ Untouched s s' k t ∧ Onward s' k t) ∧
    (Issues (.scan f) s k t → fpCommits t ls (fun L => (tab.get L (0, 0, 0)).2.2) →
      ∃ s', exec (.scan f) s = .next s' ∧
        WroteD s s' k t f.g f.d f.t.wide (fun L => fitBits f.t (if f.m.getLsbD 3 then (tab.get L (0, 0, 0)).2.1 else (tab.get L (0, 0, 0)).1)) ∧
        floatState s' k t (fpAll ls fun L => (tab.get L (0, 0, 0)).2.2) (noteFp t ls fun L => (tab.get L (0, 0, 0)).2.2).fpReport ∧
        Untouched s s' k t ∧ Onward s' k t) ∧
    (Issues (.isect f) s k t →
      let xs := ls.map fun L => bitSrc s k t f.t f.a L
      let ys := ls.map fun L => (L, bitSrc s k t f.t f.b L)
      let cut := min (xs.getLastD 0) ((ys.map (·.2)).getLastD 0)
      let count := (xs.filter fun x => decide (x ≤ cut)).length + (ys.filter fun y => decide (y.2 ≤ cut)).length * 2 ^ 32
      ∃ s', exec (.isect f) s = .next s' ∧
        (∀ L, L < t.width → L < 1024 → reg s' k false f.d L =
          if (lanesOf t f.g).getLsbD L then
            (match ys.find? fun y => decide (y.2 = bitSrc s k t f.t f.a L) with | some y => BitVec.ofNat 64 (2 ^ 31 + y.1) | none => 0)
          else reg s k false f.d L) ∧
        reg s' k true f.c 0 = (if ls.isEmpty then 0 else BitVec.ofNat 64 count) ∧
        (∀ o L, isReg o = true → o ≠ f.d → o ≠ f.c → L < t.width → L < 1024 → reg s' k false o L = reg s k false o L) ∧
        samePreds s s' k ∧ sameE s' k t ∧ noFloat s' k t ∧ Untouched s s' k t ∧ Onward s' k t)

/-- For every state and range below 2^48, or of the tier-2 window, that holds no uncorrectable error: after bytes are stored there, the range reads as those bytes and every byte outside it as before, the low byte of a number at the lowest address; the store changes nothing else but the publications that queues observe. A compare-and-swap of eight bytes stores the new value exactly when the old one is there. -/
def Obligations.HomeSlicesHoldWhatWasStored : Prop :=
  ∀ (s : State) (who : Option Nat) (pa : Nat) (bs : List Byte), badAt s pa bs.length = false →
    (pa + bs.length ≤ 2 ^ 48 ∨ (2 ^ 48 ≤ pa)) →
    let s' := homePut s who pa bs
    homeBytes s' pa bs.length = bs ∧
    (∀ a, (a < 2 ^ 48 ↔ pa < 2 ^ 48) → (a < pa ∨ pa + bs.length ≤ a) → homeByte s' a = homeByte s a) ∧
    (∀ a, (a < 2 ^ 48 ↔ 2 ^ 48 ≤ pa) → homeByte s' a = homeByte s a) ∧
    (∀ k, s'.team k = s.team k) ∧ s'.cores = s.cores ∧ s'.clusters = s.clusters ∧ s'.bad = s.bad ∧ s'.gangs = s.gangs ∧
    (∀ n v, n = bs.length → homeNat (homePutNat s who pa n v) pa n = v % 2 ^ (8 * n)) ∧
    (∀ old new : W64, bs.length = 8 → (homeCas s pa old new).2 = decide (homeNat s pa 8 = old.toNat) ∧
      ((homeCas s pa old new).2 = true → homeNat (homeCas s pa old new).1 pa 8 = new.toNat) ∧
      ((homeCas s pa old new).2 = false → (homeCas s pa old new).1 = s))

/-- Whenever ld or ldu issues, no acquire at a peer holds the team and no data snare matches: with no lane ld does nothing. When every lane is aligned and reaches its byte, in a line of the L1 or through the TLB with read permission, and at most 32 of the core's 64 demand misses are in flight, exec answers the committed state in which the load of those lanes is in flight, in program order with the team's earlier accesses (an earlier release performed and a later acquire done as the order says), and ld has trained the stride table. The same whenever the checks of R200 pass, by a walk too: then the word commits, or stalls while its first word finds too few demand misses free (log entry 58 says which words stall, the model's choice). That a lane that hits a line of the L1 goes with no translation and no permission check is the model's reading (log entry 13, DEDUCED). ldu takes the lowest active lane that passes the guard. -/
def Obligations.LoadsGo : Prop :=
  ∀ (f : MEM) (s : State) (k : Nat) (t : Team),
    let size := Machine.sizeOf f.size
    let go := peerHold s k = false ∧ (ordRel f.order.toNat && peerOut s k) = false
    let loaded := fun (st : State) (ls : List (Nat × Nat × Nat)) => doLoad st k t f.order.toNat f.scope.toNat f.hint.toNat size f.d ls
    let full := fun (st : State) (ls : List (Nat × Nat × Nat)) => takesMisses f && missStall st k t ls
    (Issues (.ld f) s k t → go →
      let lanes := laneAddrs (maskLanes (lanesOf t f.g) t.width) (memAddr s k t f)
      dataSnare s k t 1 size lanes = none →
      let after := fun (st : State) (x : Nat × Nat × Nat) => trainSpt st (keyCore k) t.oid (wordAddr t.h t.i).toNat x.2.1
      (lanes = [] → Completes (.ld f) s k t s) ∧
      (∀ (pa : Nat → Nat) x r, (∀ p ∈ lanes, p.2 % size = 0 ∧ Loadable s k t p.2 (pa p.1)) → demandMisses s (keyCore k) ≤ 32 →
        lanes.map (fun p => (p.1, p.2, pa p.1)) = x :: r → Completes (.ld f) s k t (after (loaded s (x :: r)) x)) ∧
      (∀ s1 x r, checkLoad s k t size lanes = .go s1 (x :: r) →
        (full s1 (x :: r) = true → exec (.ld f) s = .next (stallAt s1 k)) ∧
        (full s1 (x :: r) = false → Completes (.ld f) s k t (after (loaded s1 (x :: r)) x)))) ∧
    (Issues (.ldu f) s k t → Once (.ldu f) f.g s k t (go →
      let L := (maskFirst (lanesOf t f.g) t.width).getD 0
      let va := memAddr s k t f L
      wideSnare s k t (lanesOf t f.g) 1 [(va, size)] = none →
      (∀ pa, va % size = 0 → Loadable s k t va pa → demandMisses s (keyCore k) ≤ 32 → Completes (.ldu f) s k t (loaded s [(L, va, pa)])) ∧
      (∀ s1 ls, checkLoad s k t size [(L, va)] = .go s1 ls →
        (full s1 ls = true → exec (.ldu f) s = .next (stallAt s1 k)) ∧
        (full s1 ls = false → Completes (.ldu f) s k t (loaded s1 ls)))))

/-- For every load in flight of a team whose lanes are all bound and met no error, with no fill to finish: exec of loadDataReturn answers a next state without that load in which a vector D holds each lane's bytes (four registers for 16 bytes, a pair for 8, zero-extended below 4) and a scalar D the bytes of the first lane; every other register, every predicate, E and every byte of memory are as before. With no load of that number nothing happens. -/
def Obligations.LoadedDataReachesRegisters : Prop :=
  ∀ (s : State) (id : Nat),
    (s.loads.find id = none → exec (.loadDataReturn id) s = .next s) ∧
    (∀ (l : Load) (t : Team), s.loads.find id = some l → s.team l.team = some t →
      (∀ x ∈ l.lanes, x.bad = false ∧ ∃ bs, x.data = some bs ∧ bs.length = l.size) → l.size ∈ [1, 2, 4, 8, 16] →
      (l.size = 8 → ∀ n, l.dst = .kv n → n.val + 1 < 16) → (l.size = 16 → ∀ n : Fin 256, l.dst = .v n → n.val + 3 < 256) →
      (l.size = 16 → ∀ n : Fin 16, l.dst = .kv n → n.val + 3 < 16) →
      let k := l.team
      let regs := if l.size = 16 then (List.range 4).map (Opd.next l.dst) else destOf (decide (l.size = 8)) l.dst
      ∃ s', exec (.loadDataReturn id) s = .next s' ∧ s'.loads.find id = none ∧ s'.mem = s.mem ∧ s'.hostMem = s.hostMem ∧
        (∀ x ∈ l.lanes, (∀ y ∈ l.lanes, y.lane = x.lane → y = x) → x.lane < t.width → x.lane < 1024 → l.dst.isVK = true →
          (l.size < 8 → reg s' k false l.dst x.lane = BitVec.ofNat 64 (leNat (x.data.getD []))) ∧
          (l.size = 8 → reg s' k true l.dst x.lane = BitVec.ofNat 64 (leNat (x.data.getD []))) ∧
          (l.size = 16 → ∀ j, j < 4 → reg s' k false (Opd.next l.dst j) x.lane = BitVec.ofNat 64 (leNat ((x.data.getD []).drop (4 * j)) % 2 ^ 32))) ∧
        (l.dst.isVK = true → ∀ L, L < t.width → L < 1024 → (∀ x ∈ l.lanes, x.lane ≠ L) → ∀ o ∈ regs, reg s' k false o L = reg s k false o L) ∧
        (∀ x r, l.lanes = x :: r → l.dst.isSK = true → reg s' k true l.dst 0 = BitVec.ofNat 64 (leNat (x.data.getD []))) ∧
        (∀ o L, isReg o = true → o ∉ regs → L < t.width → L < 1024 → reg s' k false o L = reg s k false o L) ∧ samePreds s s' k ∧ sameE s' k t)

/-- Whenever st or atom issues, no acquire at a peer holds the team and no data snare matches: with no lane nothing happens. When every lane is aligned and its page is in the TLB with the permission it needs and with D set, and, for st, at most 32 of the core's 64 demand misses are in flight, exec answers the committed state in which the stores of those lanes are on their way to their home slices (in the L1, in a fill that they join, or as posts) or performed there for a release, or the atomics have been performed at their home slices with their old values as a load. The same whenever the checks of R200 pass, by a walk too: then the word commits, or a store with a normal hint stalls while its first word finds too few demand misses free (log entry 58). -/
def Obligations.StoresAndAtomicsGo : Prop :=
  ∀ (s : State) (k : Nat) (t : Team),
    (∀ f : MEM, Issues (.st f) s k t → peerHold s k = false → (ordRel f.order.toNat && peerOut s k) = false →
      let lanes := laneAddrs (maskLanes (lanesOf t f.g) t.width) (memAddr s k t f)
      let size := Machine.sizeOf f.size
      let stored := fun (st : State) (ls : List (Nat × Nat × Nat)) => doStore st k t f.order.toNat f.scope.toNat f.hint.toNat ls (storeData s k t f.d size)
      let full := fun (st : State) (ls : List (Nat × Nat × Nat)) => !ordRel f.order.toNat && decide (f.hint = 0) && missStall st k t ls
      dataSnare s k t 2 size lanes = none →
      (lanes = [] → Completes (.st f) s k t s) ∧
      (∀ pa : Nat → Nat, lanes ≠ [] → (∀ p ∈ lanes, p.2 % size = 0 ∧ Mapped s k t accW p.2 (pa p.1)) → demandMisses s (keyCore k) ≤ 32 →
        Completes (.st f) s k t (stored s (lanes.map fun p => (p.1, p.2, pa p.1)))) ∧
      (∀ s1 ls, ls ≠ [] → checkLanes s k t size accW lanes = .go s1 ls →
        (full s1 ls = true → exec (.st f) s = .next (stallAt s1 k)) ∧
        (full s1 ls = false → Completes (.st f) s k t (stored s1 ls)))) ∧
    (∀ f : ATM, Issues (.atom f) s k t → peerHold s k = false → (ordRel f.order.toNat && peerOut s k) = false →
      let lanes := laneAddrs (maskLanes (lanesOf t f.g) t.width) fun L => extVA (opd s k t true f.addr L)
      let size := Machine.sizeOf f.size
      let done := fun (st : State) (ls : List (Nat × Nat × Nat)) => doAtom st k t f (atomOperands s k t f) ls
      dataSnare s k t 3 size lanes = none →
      (lanes = [] → Completes (.atom f) s k t s) ∧
      (∀ pa : Nat → Nat, lanes ≠ [] → (∀ p ∈ lanes, p.2 % size = 0 ∧ Mapped s k t (accR + accW) p.2 (pa p.1)) →
        Completes (.atom f) s k t (done s (lanes.map fun p => (p.1, p.2, pa p.1)))) ∧
      (∀ s1 ls, ls ≠ [] → permLanes s k t size (accR + accW) lanes = .go s1 ls → Completes (.atom f) s k t (done s1 ls)))

/-- Whenever ld, st or atom issues with no hold and no snare: if some lane's address is no multiple of the size, exec answers the state in which MISALIGN is raised with the lowest such lane's address and the mask of every such lane, and no byte, register or line has changed. Otherwise, when the checks stop, for any of the three, what they come to is all that happens: a precise fault, or the team WAITING for the host with its pipe free, or waiting on a leaf at its pipe; nothing else stops them. For ld the checks are those of the lanes that no line of the L1 serves (log entry 13, DEDUCED). -/
def Obligations.AccessChecksComeFirst : Prop :=
  ∀ (s : State) (k : Nat) (t : Team),
    let mis := fun (i : Instr) (size : Nat) (lanes : List (Nat × Nat)) => ∀ p, (lanes.find? fun p => decide (p.2 % size ≠ 0)) = some p →
      Traps i s k t s { bits := cMisalign, addr := BitVec.ofNat 64 p.2, mask := maskOf 1024 fun L => lanes.any fun q => decide (q.1 = L ∧ q.2 % size ≠ 0) }
    let stops := fun (i : Instr) (c : Chk) => ∀ r, c = .stop r →
      (∃ s1 x, r = .trap s1 x ∧ Traps i s k t s1 x) ∨
      (∃ s1 u, r = .done s1 ∧ exec i s = .next (bumpCounter s1 (keyCore k) 0 (issueCycles t)) ∧ s1.team k = some u ∧
        ((u.state = .waiting ∧ u.waitKind = .host ∧ u.clause = [] ∧ u.hostWord = curWord t) ∨ u.busyLeaf ≠ none))
    (∀ f : MEM, peerHold s k = false → (ordRel f.order.toNat && peerOut s k) = false →
      let size := Machine.sizeOf f.size
      let lanes := laneAddrs (maskLanes (lanesOf t f.g) t.width) (memAddr s k t f)
      (Issues (.ld f) s k t → dataSnare s k t 1 size lanes = none → mis (.ld f) size lanes ∧ stops (.ld f) (checkLoad s k t size lanes)) ∧
      (Issues (.st f) s k t → dataSnare s k t 2 size lanes = none → mis (.st f) size lanes ∧ stops (.st f) (checkLanes s k t size accW lanes))) ∧
    (∀ f : ATM, Issues (.atom f) s k t → peerHold s k = false → (ordRel f.order.toNat && peerOut s k) = false →
      let size := Machine.sizeOf f.size
      let lanes := laneAddrs (maskLanes (lanesOf t f.g) t.width) fun L => extVA (opd s k t true f.addr L)
      dataSnare s k t 3 size lanes = none → mis (.atom f) size lanes ∧ stops (.atom f) (permLanes s k t size (accR + accW) lanes))

/-- For every lane of an atomic whose line is not in the issuing L1, whose bytes hold no error and whose page already has its dirty bit cached: the lane's data are the old bytes; the home bytes hold NewValue of R210 (unless a compare-and-swap found another value, which writes nothing); every other byte is as before. The sum wraps at the size, min and max are signed for codes 1 and 2 and unsigned for 3 and 4, inc wraps to 0 past the operand and dec to the operand below 1. -/
def Obligations.AtomicsReadModifyWrite : Prop :=
  (∀ (s : State) (k : Nat) (t : Team) (op n lane va pa d c : Nat) (word : W64), (n = 4 ∨ n = 8) → pa + n ≤ 2 ^ 48 → badAt s pa n = false →
    findLine s (keyCore k) t.oid va = none → (∃ e, tlbFind (s.cluster (clusterOf (keyCore k))) t.oid va = some e ∧ pteD e.leaf = true) →
    let r := atomLane s k t op n (lane, va, pa) d c word
    let old := homeNat s pa n
    r.2.1.data = some (homeBytes s pa n) ∧ r.2.1.bad = false ∧ r.2.2 = decide (op ≠ 9 ∨ old = c) ∧
    (op ≠ 9 ∨ old = c → homeNat r.1 pa n = atomNew op n old d c % 2 ^ (8 * n)) ∧
    (op = 9 → old ≠ c → r.1 = s) ∧ (∀ a, a < pa ∨ pa + n ≤ a → homeByte r.1 a = homeByte s a)) ∧
  (∀ n old d c : Nat, (n = 4 ∨ n = 8) → old < 2 ^ (8 * n) → d < 2 ^ (8 * n) →
    let sg := signedBits (8 * n)
    atomNew 0 n old d c = (old + d) % 2 ^ (8 * n) ∧ sg (atomNew 1 n old d c) = min (sg old) (sg d) ∧ sg (atomNew 2 n old d c) = max (sg old) (sg d) ∧
    atomNew 3 n old d c = min old d ∧ atomNew 4 n old d c = max old d ∧ atomNew 5 n old d c = old &&& d ∧ atomNew 6 n old d c = old ||| d ∧
    atomNew 7 n old d c = old ^^^ d ∧ atomNew 8 n old d c = d ∧ (old = c → atomNew 9 n old d c = d) ∧
    atomNew 10 n old d c = (if d ≤ old then 0 else old + 1) ∧ atomNew 11 n old d c = (if old = 0 ∨ d < old then d else old - 1))

/-- Whenever ldsp, stsp or atomsp issues relaxed, no acquire at a peer holds the team, and every lane is aligned, inside the allocation and off every copy target: exec answers the committed state. ldsp puts a load of the lanes' bytes in flight; stsp has written each lane's bytes at its offset, lanes ascending; atomsp has performed each lane at its offset and returns the old values. Every register, E and every byte of memory and of other gangs is unchanged, and so is every byte of the gang outside the lanes' ranges. -/
def Obligations.ScratchpadAccesses : Prop :=
  ∀ (s : State) (k : Nat) (t : Team), peerHold s k = false →
    let inside := fun (size : Nat) (lanes : List (Nat × Nat)) => ∀ p ∈ lanes, p.2 % size = 0 ∧ spBad (spAlloc s t) (spTargets s t.gang (keyCore k)) p.2 size = false
    let frame := fun (s' : State) (size : Nat) (lanes : List (Nat × Nat)) =>
      s'.mem = s.mem ∧ s'.hostMem = s.hostMem ∧ s'.teams = s.teams ∧ s'.cores = s.cores ∧ (∀ g, g ≠ t.gang → s'.gang g = s.gang g) ∧
      ∀ core off, off < 2 ^ 20 → (∀ p ∈ lanes, core = keyCore k → off < p.2 ∨ p.2 + size ≤ off) → spBytes s' t.gang core off 1 = spBytes s t.gang core off 1
    (∀ f : MEM, f.order = 0 → spAlloc s t ≤ 2 ^ 20 →
      let size := Machine.sizeOf f.size
      let lanes := laneAddrs (maskLanes (lanesOf t f.g) t.width) (spOffset s k t f)
      inside size lanes →
      (Issues (.ldsp f) s k t → Completes (.ldsp f) s k t (if lanes = [] then s else
        addLoad s k t f.d size 0 (lanes.map fun p => laneOf (p.1, p.2, 0) (some (spBytes s t.gang (keyCore k) p.2 size)) false))) ∧
      (Issues (.stsp f) s k t → ∃ s1, Completes (.stsp f) s k t s1 ∧ frame s1 size lanes ∧
        (∀ p ∈ lanes, (∀ q ∈ lanes, q.1 ≠ p.1 → q.2 ≠ p.2) → (∃ g, s.gang t.gang = some g) →
          spBytes s1 t.gang (keyCore k) p.2 size = storeData s k t f.d size p.1))) ∧
    (∀ f : ATM, f.order = 0 → spAlloc s t ≤ 2 ^ 20 → Issues (.atomsp f) s k t →
      let n := Machine.sizeOf f.size
      let lanes := laneAddrs (maskLanes (lanesOf t f.g) t.width) (n32Src s k t f.addr)
      inside n lanes → (∃ g, s.gang t.gang = some g) →
      let a := atomspLanes t.gang (keyCore k) f.aop.toNat n (atomOperands s k t f) lanes s
      Completes (.atomsp f) s k t (if f.noRet || lanes.isEmpty then a.1 else addLoad a.1 k t f.d n 0 a.2) ∧ frame a.1 n lanes ∧
      ∀ L off, lanes = [(L, off)] → let old := spNat s t.gang (keyCore k) off n
        let x := atomOperands s k t f L
        (∀ y ∈ a.2, y.data = some (leBytes n old)) ∧
        spNat a.1 t.gang (keyCore k) off n = if f.aop = 9 ∧ old ≠ x.2 then old else atomNew f.aop.toNat n old x.1 x.2 % 2 ^ (8 * n))

/-- Whenever ldsp, stsp or atomsp issues relaxed and aligned, with no hold, and every lane is outside its allocation or touches the target of a copy: no byte changes; those lanes leave E and every predicate, sfcount rises by their number and sfwords names their words; the team goes on when a lane stays active or a predicate keeps one, and otherwise it ends. -/
def Obligations.OutsideLanesSwitchOff : Prop :=
  ∀ (s : State) (k : Nat) (t t0 : Team), peerHold s k = false → s.team k = some t0 →
    let act := fun (i : Instr) (size : Nat) (lanes : List (Nat × Nat)) => Issues i s k t → lanes ≠ [] →
      (∀ p ∈ lanes, p.2 % size = 0 ∧ spBad (spAlloc s t) (spTargets s t.gang (keyCore k)) p.2 size = true) →
      let t1 := (lanes.map (·.1)).foldl switchOff t0
      (∀ L, L < 1024 → t1.e.getLsbD L = (t0.e.getLsbD L && !lanes.any fun p => decide (p.1 = L))) ∧ t1.sfcount = t0.sfcount + lanes.length ∧
      (∀ p ∈ lanes, p.1 < 1024 → t1.sfwords.getLsbD (p.1 / 32) = true) ∧
      if noLanes t1 then ∃ s', exec i s = .next s' ∧ ended s' k ∧ s'.mem = s.mem ∧ s'.gangs = s.gangs ∧ ∀ k', k' ≠ k → s'.team k' = s.team k'
      else Completes i s k t (s.setTeam k t1)
    (∀ f : MEM, f.order = 0 → let lanes := laneAddrs (maskLanes (lanesOf t f.g) t.width) (spOffset s k t f)
      act (.ldsp f) (Machine.sizeOf f.size) lanes ∧ act (.stsp f) (Machine.sizeOf f.size) lanes) ∧
    (∀ f : ATM, f.order = 0 → act (.atomsp f) (Machine.sizeOf f.size) (laneAddrs (maskLanes (lanesOf t f.g) t.width) (n32Src s k t f.addr)))

/-- Whenever fence issues: a guard that no active lane passes makes it do nothing; a peer that holds the team makes it stall; so does a release while the team has a request at a peer, and an acquire while a load of the team has; otherwise exec answers the committed state in which a release has performed every earlier access of the team (rel, ar) and, for acq and ar, the team's earlier loads are bound and an acquire at the scope has been done, and nothing else. Check 3 accepts exactly a legal guard, a legal scope and order pair with order acq, rel or ar, and hint, size and offset 0; the kinds accept exactly D, base and index 511. The word of fence.ar.sys is the spec's. -/
def Obligations.FenceHasItsOrdersEffects : Prop :=
  ∀ (f : MEM) (s : State) (k : Nat) (t : Team),
    (Issues (.fence f) s k t → Once (.fence f) f.g s k t (
      let hold := peerHold s k || (ordRel f.order.toNat && peerOut s k) || (ordAcq f.order.toNat && peerLoadOut s k)
      let s1 := if f.order = 2 ∨ f.order = 3 then drain s k t else s
      (hold = true → Stalls (.fence f) s k) ∧
      (hold = false → Completes (.fence f) s k t (if f.order = 1 ∨ f.order = 3 then acquire (bindTeam s1 k) k t f.scope.toNat else s1)))) ∧
    ((Instr.fence f).check3 = true ↔ f.g ≠ .illegal ∧ soOk f.scope f.order = true ∧ f.order ≠ 0 ∧ f.hint = 0 ∧ f.size = 0 ∧ f.off = 0) ∧
    ((Instr.fence f).kinds = true ↔ f.d = .none ∧ f.base = .none ∧ f.index = .none) ∧
    encode (.fence { g := .always, d := .none, base := .none, index := .none, scope := 3, order := 3, hint := 0, size := 0, off := 0 }) =
      some 0x61fbffffffb60000#64

/-- Whenever waitaddr issues, unguarded or passed, with no hold and no snare, aligned and translated (its page in the TLB, or by a walk) to bytes of this part without an error: exec answers a committed state with D = 0 when the condition holds, with D = 1 when it does not and the deadline has passed (an acquire as the order says in both), and otherwise the team is WAITING with the record of R214 and leaves its pipe. pfh commits with its lines requested, served or dropped, and no register, predicate or byte changes. msync with agreeing membership masks orders its lanes by a team-scope fence and commits; a disagreement raises SYNC_MASK naming the two lanes. -/
def Obligations.WaitaddrHintsAndMsync : Prop :=
  ∀ (s : State) (k : Nat) (t : Team),
    (∀ f : ATM, Issues (.waitaddr f) s k t → Once (.waitaddr f) f.g s k t (
      let n := Machine.sizeOf f.size
      let va := extVA (opdS s k t f.addr)
      peerHold s k = false → wideSnare s k t (lanesOf t f.g) 1 [(va, n)] = none →
      ∀ s1 pa, (va % n = 0 ∧ Mapped s k t accR va pa ∧ s1 = s) ∨ (checkWide s k t f.g n accR [(0, va)] = .go s1 [(0, va, pa)] ∧ isPeer pa = false) →
      let acq := fun (st : State) => if ordAcq f.order.toNat then acquire st k t f.scope.toNat else st
      let s2 := cleanLine (settle s1 k t va pa) k t va
      let b := (opdS s k t f.data).toNat % 2 ^ (8 * n)
      let dl := waitDeadline s k t .addr (waitField t.wait 24 8) f.cmp
      badAt s2 pa n = false →
      let met := waitCond f.aop.toNat n (homeNat s2 pa n) b
      (met = true → Completes (.waitaddr f) s k t (writeS (clearWait (acq s2) k) k f.d 0)) ∧
      (met = false → pastDeadline s2 dl = true → Completes (.waitaddr f) s k t (writeS (clearWait (acq s2) k) k f.d 1)) ∧
      (met = false → pastDeadline s2 dl = false → Waits (.waitaddr f) s k t s2 .addr
        (waitMake [(0, va), (10, f.aop.toNat + 16 * f.size.toNat), (11, f.order.toNat + 8 * f.scope.toNat), (12, Opd.code f.d), (16, b), (24, dl)])))) ∧
    (∀ f : MEM, Issues (.pfh f) s k t → ∃ s1, Completes (.pfh f) s k t s1 ∧ s1.teams = s.teams ∧ s1.mem = s.mem ∧ s1.hostMem = s.hostMem ∧ s1.gangs = s.gangs) ∧
    (∀ f : VR, Issues (.msync f) s k t →
      let ps := participants t f.g
      let ms := ps.map fun L => (L, bitSrc s k t f.t f.a L)
      (msyncBad ms = none → ps = [] → Completes (.msync f) s k t s) ∧
      (msyncBad ms = none → ps ≠ [] → peerHold s k = false → peerOut s k = false → Completes (.msync f) s k t (acquire (bindTeam (drain s k t) k) k t 0)) ∧
      (∀ a b absent, msyncBad ms = some (a, b, absent) → Traps (.msync f) s k t s
        { bits := cSyncMask, addr := BitVec.ofNat 64 (a + b * 2 ^ 16 + (if absent then 2 ^ 31 else 0)), mask := maskOf 1024 fun L => decide (L = a ∨ L = b) }))

/-- A line that has been dirty for 65,536 cycles is sent to its home slice; one that has not been dirty that long stays. A write-back that has been sent, once accepted, puts each dirty byte at its home slice, leaves every other byte as it was and the line clean. An accepted store puts the bytes that it writes at their home slice, leaves every other byte and is gone. A fill that nothing discards and no store joined installs its line with the bytes of its home slices, clean, with a re-reference value of 2 or 3; a discarded fill and one for the L2 only install no line. No such step changes a register. Lines hold no uncorrectable error and tier 0 or 1 addresses here. -/
def Obligations.CachesMoveBytesHome : Prop :=
  ∀ s : State, s.bad = [] →
    let arrives := fun (s' : State) (pline : Nat) (mask : BitVec 128) (data : BitVec 1024) =>
      (∀ j, j < 128 → homeByte s' (128 * pline + j) = if mask.getLsbD j then BitVec.ofNat 8 (data.toNat / 2 ^ (8 * j)) else homeByte s (128 * pline + j)) ∧
        ∀ a, a / 128 ≠ pline → homeByte s' a = homeByte s a
    (∀ core key l, (s.core core).l1.find key = some l →
      (l.leaving = true → l.dirty ≠ 0 → 128 * l.pline + 128 ≤ 2 ^ 48 → ∃ s', exec (.writeBackAccepted core key) s = .next s' ∧ arrives s' l.pline l.dirty l.data ∧
        (s'.core core).l1.find key = some { l with dirty := 0, leaving := false } ∧ s'.teams = s.teams) ∧
      (l.leaving = false → exec (.writeBackAccepted core key) s = .next s) ∧
      (l.dirty ≠ 0 → l.since + 65536 ≤ s.cycle → ∃ s', exec (.dirtyLineTimeout core key) s = .next s' ∧ (s'.core core).l1.find key = some { l with leaving := true } ∧
        s'.mem = s.mem ∧ s'.teams = s.teams) ∧
      (s.cycle < l.since + 65536 → exec (.dirtyLineTimeout core key) s = .next s)) ∧
    (∀ id p, s.posts.find id = some p → 128 * p.write.pline + 128 ≤ 2 ^ 48 → ∃ s', exec (.homeSliceAccept id) s = .next s' ∧
      arrives s' p.write.pline p.write.mask p.write.data ∧ s'.posts.find id = none ∧ s'.cores = s.cores) ∧
    (∀ id f, s.fills.find id = some f → s.posts = [] → f.l2Only = false → f.discard = false → f.stores = [] → findLine s f.core f.oid (128 * f.vline) = none →
      ∃ s' sl key l, exec (.l1Fill id) s = .next s' ∧ findLine s' f.core f.oid (128 * f.vline) = some (sl, key, l) ∧ l.pline = f.pline ∧ l.dirty = 0 ∧
        l.data = BitVec.ofNat 1024 (homeNat s' (128 * f.pline) 128) ∧ (l.rrv = 2 ∨ l.rrv = 3) ∧ s'.teams = s.teams ∧ s'.fills.find id = none) ∧
    (∀ id f, s.fills.find id = some f → f.l2Only = true ∨ (f.discard = true ∧ f.stores = []) →
      ∃ s', exec (.l1Fill id) s = .next s' ∧ s'.cores = s.cores ∧ s'.mem = s.mem ∧ s'.teams = s.teams ∧ s'.fills.find id = none)

/-- Whenever bar.init, bar.expect, bar.arrive, bar.wait or bar.test issues, unguarded or passed: an offset that is no multiple of 16 raises MISALIGN and one whose object passes the allocation raises SCRATCH, with the offset as the address and nothing changed. Otherwise bar.init sets the object to (0, b, b, 0) and bar.expect adds b to the pending bytes modulo 2^32 (reserved flag bits it finds are written zero and set BAD). With no acquire at a peer, bar.arrive (no request to a peer out) releases, makes the arrival with its bytes and writes the phase seen; bar.test writes 1 as an acquire when the phase differs from bit 0 of b, else 0; a new bar.wait commits with 0 as an acquire when it differs, with 1 when the timeout is over, and otherwise waits with the record of R221. A bar.wait that issues again commits with 0 as an acquire when DONE is set and with 1 past its deadline; one that ctx.load has brought back with DONE clear reads the object again, with its saved deadline. A deadline that passes makes the waiting team READY. -/
def Obligations.BarrierInstructions : Prop :=
  (∀ (f : VR) (s : State) (k : Nat) (t : Team),
    let off := offS s k t f.a
    let b := offS s k t f.b
    let par := (opdS s k t f.b).toNat % 2
    let sc := fld f.m 0 2 + 1
    let core := keyCore k
    let ob := barObj s t.gang core off
    let form := fun (i : Instr) (acts : Prop) => Issues i s k t → Once i f.g s k t (
      (off % 16 ≠ 0 → Traps i s k t s { bits := cMisalign, addr := BitVec.ofNat 64 off, mask := lanesOf t f.g }) ∧
      (off % 16 = 0 → spAlloc s t < off + 16 → Traps i s k t s { bits := cScratch, addr := BitVec.ofNat 64 off, mask := lanesOf t f.g }) ∧
      (off % 16 = 0 → off + 16 ≤ spAlloc s t → acts))
    let fl := if 8 ≤ ob.flags then ob.flags % 8 ||| 4 else ob.flags
    let over' := fun (s1 : State) (v : Nat) => writeS (clearWait s1 k) k f.d (BitVec.ofNat 64 v)
    form (.barInit f) (Completes (.barInit f) s k t (setBarObj s t.gang core off { bytes := 0, arrivals := b, reload := b, flags := 0 })) ∧
    form (.barExpect f) (Completes (.barExpect f) s k t (setBarObj s t.gang core off { ob with bytes := (ob.bytes + b) % 2 ^ 32, flags := fl })) ∧
    form (.barArrive f) (peerHold s k = false → peerOut s k = false →
      let s1 := drain s k t
      Completes (.barArrive f) s k t (writeS (barArrival s1 t.gang core off (if f.b.isN then 0 else b)) k f.d
        (BitVec.ofNat 64 ((barObj s1 t.gang core off).flags % 2)))) ∧
    form (.barTest f) (peerHold s k = false →
      (ob.flags % 2 ≠ par → Completes (.barTest f) s k t (over' (acquire s k t sc) 1)) ∧
      (ob.flags % 2 = par → Completes (.barTest f) s k t (over' s 0))) ∧
    form (.barWait f) (peerHold s k = false →
      (t.waitKind ≠ .bar → (t.waitKind = .saved → (waitMode t.wait).testBit 1 = false) →
        let dl := if t.waitKind = .saved then waitField t.wait 8 8 else if f.c.isN then noDeadline else min noDeadline (s.tick + (opdS s k t f.c).toNat)
        (ob.flags % 2 ≠ par → Completes (.barWait f) s k t (over' (acquire s k t sc) 0)) ∧
        (ob.flags % 2 = par → dl ≠ noDeadline → dl ≤ s.tick → Completes (.barWait f) s k t (over' s 1)) ∧
        (ob.flags % 2 = par → dl = noDeadline ∨ s.tick < dl →
          Waits (.barWait f) s k t s .bar (waitMake [(0, off), (4, par + 8 * sc), (6, Opd.code f.d), (8, dl)]))) ∧
      (t.waitKind = .bar ∨ t.waitKind = .saved → (waitMode t.wait).testBit 1 = true → Completes (.barWait f) s k t (over' (acquire s k t sc) 0)) ∧
      (t.waitKind = .bar →
        let dl := waitField t.wait 8 8
        ((waitMode t.wait).testBit 1 = true → Completes (.barWait f) s k t (over' (acquire s k t sc) 0)) ∧
        ((waitMode t.wait).testBit 1 = false → dl ≠ noDeadline → dl ≤ s.tick → Completes (.barWait f) s k t (over' s 1))))) ∧
  (∀ (s : State) (core slot : Nat) (t : Team), s.team (s.activeKey core slot) = some t → t.state = .waiting → t.waitKind = .bar →
    (waitField t.wait 8 8 ≠ noDeadline → waitField t.wait 8 8 ≤ s.tick →
      exec (.barWaitTimeout core slot) s = .next (s.setTeam (s.activeKey core slot) { t with state := .ready })) ∧
    (s.tick < waitField t.wait 8 8 → exec (.barWaitTimeout core slot) s = .next s))

/-- For every state with the gang, and every object at an aligned offset of a 2^20-byte bank: what is written to the object is read back, and every byte outside it is as before. An arrival adds its bytes modulo 2^32 and takes one arrival, or sets OVER when there is none; a byte reduction takes its bytes. When pending arrivals and bytes are then 0 the phase bit flips, arrivals take the reload value and every wait of the gang on the core that is on the object without DONE takes DONE, the one that a team in its handler comes back to as well; a waiting team of the active bank becomes READY; otherwise no team changes. Flag bits above 2 are written zero and set BAD. -/
def Obligations.BarrierPhases : Prop :=
  ∀ (s : State) (g core off : Nat) (x : Gang), s.gang g = some x → off % 16 = 0 → off + 16 ≤ 2 ^ 20 →
    let ob := barObj s g core off
    let fits := fun (b : BarObj) => b.bytes < 2 ^ 32 ∧ b.arrivals < 2 ^ 32 ∧ b.reload < 2 ^ 32 ∧ b.flags < 2 ^ 32
    let others := fun (s' : State) => s'.mem = s.mem ∧ s'.hostMem = s.hostMem ∧ s'.cores = s.cores ∧ (∀ g', g' ≠ g → s'.gang g' = s.gang g') ∧
      ∀ c a, a < 2 ^ 20 → (c = core → a < off ∨ off + 16 ≤ a) → spBytes s' g c a 1 = spBytes s g c a 1
    let on := fun (kind : WKind) (w : BitVec 256) => kind = .bar ∧ waitField w 0 4 = off ∧ (waitMode w).testBit 1 = false
    let mine := fun (e : Nat) (u : Team) => keyCore e = core ∧ u.gang = g
    let waits := fun (e : Nat) (u : Team) => mine e u ∧ on u.waitKind u.wait
    let comesBack := fun (e : Nat) (u : Team) => mine e u ∧ ∃ h i kind w, u.heldWait = some (h, i, kind, w) ∧ on kind w
    let ends := fun (s' : State) (b : BarObj) => others s' ∧
      if b.arrivals = 0 ∧ b.bytes = 0 then barObj s' g core off = { b with flags := b.flags ^^^ 1, arrivals := b.reload } ∧
        ∀ e u, s.team e = some u →
          (waits e u → ∃ u', s'.team e = some u' ∧ (waitMode u'.wait).testBit 1 = true ∧ u'.waitKind = .bar ∧ u'.v = u.v ∧ u'.s = u.s ∧
            u'.state = if u.state = .waiting ∧ keyBank e = (s.core core).active then .ready else u.state) ∧
          (¬waits e u → comesBack e u → ∃ u' h i w, u.heldWait = some (h, i, .bar, w) ∧ u' = { u with heldWait := some (h, i, .bar, waitSetDone w) } ∧ s'.team e = some u') ∧
          (¬waits e u → ¬comesBack e u → s'.team e = some u)
      else barObj s' g core off = b ∧ s'.teams = s.teams
    let fl := if 8 ≤ ob.flags then ob.flags % 8 ||| 4 else ob.flags
    fits ob ∧ (∀ b, fits b → barObj (setBarObj s g core off b) g core off = b ∧ others (setBarObj s g core off b)) ∧
    ((∀ n, let by' := (ob.bytes + n) % 2 ^ 32
        ends (barArrival s g core off n) (if ob.arrivals = 0 then { ob with bytes := by', flags := fl ||| 2 }
          else { ob with bytes := by', arrivals := ob.arrivals - 1, flags := fl })) ∧
      (∀ n, n < 2 ^ 32 → ends (barReduce s g core off n) { ob with bytes := (ob.bytes + 2 ^ 32 - n) % 2 ^ 32, flags := fl }))

/-- Whenever an hbar form issues, unguarded or passed, with no hold at a peer: without the barrier it writes NOT_HELD and does nothing; otherwise hbar.arrive of k > 0 releases, arrives and writes the phase seen with OVER of its own arrival (k = 0 writes the phase alone), hbar.sync releases and arrives once and then is an acquire when that completed the phase, else waits, and hbar.wait is an acquire when the phase differs from the parity, else waits. A wait that has ended, or that ctx.load has brought back, ends as an acquire with OK when DONE is set, else with RESET; one to which a team comes back from its handler before its phase is complete waits on. hbar.cnt writes BAD, HELD or BUSY in that order, else takes the barrier with phase and OVER 0 or sets its count, keeping the phase and clearing OVER; hbar.cnt.free frees a quiet barrier that the gang holds, else BAD. An arrival below pending lowers it; one at or above pending flips the phase, restores the count, sets OVER for an excess and marks exactly the waits of the holder's teams on the cluster DONE; those that wait in an active bank become READY. -/
def Obligations.ClusterBarriers : Prop :=
  (∀ (f : VR) (s : State) (k : Nat) (t : Team),
    let n := fld f.m 0 5
    let cl := clusterOf (keyCore k)
    let a := (opdS s k t f.a).toNat
    let st := fun (s1 : State) (v : Nat) => writeS s1 k f.d (BitVec.ofNat 64 v)
    let ph := fun (b : HBar) => if b.phase then 8 else 0
    let rec0 := fun (b : HBar) => waitMake [(0, n), (4, (if b.phase then 1 else 0) + 8), (6, Opd.code f.d), (8, noDeadline)]
    let form := fun (i : Instr) (held : HBar → Prop) => Issues i s k t → peerHold s k = false → Once i f.g s k t (
      (t.waitKind = .saved ∨ (t.waitKind = .hbar ∧ ((waitMode t.wait).testBit 1 = true ∨ (waitMode t.wait).testBit 2 = true)) →
        ((waitMode t.wait).testBit 1 = true → Completes i s k t (st (clearWait (acquire s k t 1) k) (if (waitMode t.wait).testBit 0 then 8 else 0))) ∧
        ((waitMode t.wait).testBit 1 = false → Completes i s k t (st (clearWait s k) (2 + if (waitMode t.wait).testBit 0 then 8 else 0)))) ∧
      (t.waitKind = .hbar → (waitMode t.wait).testBit 1 = false → (waitMode t.wait).testBit 2 = false → Waits i s k t s .hbar t.wait) ∧
      (t.waitKind ≠ .hbar → t.waitKind ≠ .saved → (hbarHeld s k t n = none → Completes i s k t (st s 1)) ∧ ∀ b, hbarHeld s k t n = some b → held b))
    form (.hbarArrive f) (fun b => let j := a % 2 ^ 32
      (j = 0 → Completes (.hbarArrive f) s k t (st s (ph b))) ∧
      (j ≠ 0 → peerOut s k = false → Completes (.hbarArrive f) s k t
        (st (hbarArrival (drain s k t) cl n b j).1 ((if b.pending < j then 4 else 0) + ph b)))) ∧
    form (.hbarSync f) (fun b => 0 < b.pending → peerOut s k = false → let r := (hbarArrival (drain s k t) cl n b 1).1
      (b.pending = 1 → Completes (.hbarSync f) s k t (st (acquire r k t 1) (ph b))) ∧
      (1 < b.pending → Waits (.hbarSync f) s k t r .hbar (rec0 b))) ∧
    form (.hbarWait f) (fun b =>
      (b.phase ≠ decide (a % 2 = 1) → Completes (.hbarWait f) s k t (st (clearWait (acquire s k t 1) k) (ph b))) ∧
      (b.phase = decide (a % 2 = 1) → Waits (.hbarWait f) s k t s .hbar (rec0 b))) ∧
    (Issues (.hbarCnt f) s k t → Once (.hbarCnt f) f.g s k t (
      let done := fun v s1 => Completes (.hbarCnt f) s k t (st s1 v)
      (a < 1 ∨ 65535 < a → done 3 s) ∧
      (1 ≤ a → a ≤ 65535 →
        ((s.cluster cl).hbars.find n = none →
          done 0 (setHBar s cl n { oid := t.oid, kernel := t.kernel, gidx := t.gidx, count := a, pending := a, phase := false, ovf := false })) ∧
        (∀ b, (s.cluster cl).hbars.find n = some b → hbarHeld s k t n = none → done 1 s) ∧
        (∀ b, hbarHeld s k t n = some b → b.pending ≠ b.count → done 2 s) ∧
        (∀ b, hbarHeld s k t n = some b → b.pending = b.count → done 0 (setHBar s cl n { b with count := a, pending := a, ovf := false }))))) ∧
    (Issues (.hbarCntFree f) s k t → Once (.hbarCntFree f) f.g s k t (
      (∀ b, hbarHeld s k t n = some b → b.pending = b.count → Completes (.hbarCntFree f) s k t (st (freeHBar s cl n) 0)) ∧
      (∀ b, hbarHeld s k t n = some b → b.pending ≠ b.count → Completes (.hbarCntFree f) s k t (st s 3)) ∧
      (hbarHeld s k t n = none → Completes (.hbarCntFree f) s k t (st s 3))))) ∧
  (∀ (s : State) (cl n j : Nat) (b : HBar), 0 < j →
    let r := hbarArrival s cl n b j
    let on := fun (kind : WKind) (w : BitVec 256) => kind = .hbar ∧ waitField w 0 4 = n ∧ (waitMode w).testBit 1 = false
    let mine := fun (e : Nat) (u : Team) => clusterOf (keyCore e) = cl ∧ u.oid = b.oid ∧ u.kernel = b.kernel ∧ u.gidx = b.gidx
    let waits := fun (e : Nat) (u : Team) => mine e u ∧ on u.waitKind u.wait
    let comesBack := fun (e : Nat) (u : Team) => mine e u ∧ ∃ h i kind w, u.heldWait = some (h, i, kind, w) ∧ on kind w
    (r.2.1 = decide (b.pending ≤ j)) ∧ (r.2.2 = decide (b.pending < j)) ∧ r.1.mem = s.mem ∧ r.1.cores = s.cores ∧
    (∀ c m, (c, m) ≠ (cl, n) → (r.1.cluster c).hbars.find m = (s.cluster c).hbars.find m) ∧
    (j < b.pending → (r.1.cluster cl).hbars.find n = some { b with pending := b.pending - j } ∧ r.1.teams = s.teams ∧ r.1.halos = s.halos) ∧
    (b.pending ≤ j → (r.1.cluster cl).hbars.find n = some { b with pending := b.count, phase := !b.phase, ovf := b.ovf || decide (b.pending < j) } ∧
      ∀ e u, s.team e = some u →
        (waits e u → ∃ u', r.1.team e = some u' ∧ (waitMode u'.wait).testBit 1 = true ∧ u'.v = u.v ∧ u'.s = u.s ∧ u'.p = u.p ∧
          u'.state = if u.state = .waiting ∧ keyBank e = (s.core (keyCore e)).active then .ready else u.state) ∧
        (¬waits e u → comesBack e u → ∃ u' h i w, u.heldWait = some (h, i, .hbar, w) ∧ u' = { u with heldWait := some (h, i, .hbar, waitSetDone w) } ∧ r.1.team e = some u') ∧
        (¬waits e u → ¬comesBack e u → r.1.team e = some u)))

/-- Whenever one of the four issues, unguarded or passed, with no hold at a peer: a fill-ring offset that is no multiple of 16 raises MISALIGN and a descriptor outside its limits SCRATCH. rng.await with more than k slots filled is an acquire and writes the offset of slot rd + k; at its deadline it writes all ones; otherwise it waits with the record of R234. rng.release of 1 to wr - rd slots releases, raises rd and writes 0, any other count writes 1 and changes nothing. seqwait writes 2 for a queue that the context has not, 0 as an acquire when the completion word has reached B, 1 at the deadline, and otherwise waits. halo raises MISALIGN or SCRATCH for its barrier offset B, where it has one, and then for its descriptor; with both in order it writes NOT_HELD, BAD_TEAM or BAD_RANGE in this order and changes nothing else, or, with nothing wrong and no request to a peer out, releases, notes the copy and arrives once on the cluster barrier. That B is looked at before the descriptor is the model's order (log entry 74), and so are the low 32 bits of an offset operand (log entry 25). -/
def Obligations.RingSequenceAndHaloInstructions : Prop :=
  ∀ (f : VR) (s : State) (k : Nat) (t : Team), peerHold s k = false →
    let off := offS s k t f.a
    let core := keyCore k
    let r := fillRing s t.gang core off
    let n := offS s k t f.b
    let have' := (r.wr + 2 ^ 32 - r.rd) % 2 ^ 32
    let mask := lanesOf t f.g
    let ring := fun (i : Instr) (acts : Prop) => Issues i s k t → Once i f.g s k t (
      (off % 16 ≠ 0 → Traps i s k t s { bits := cMisalign, addr := BitVec.ofNat 64 off, mask := mask }) ∧
      (off % 16 = 0 → fillGood r off (spAlloc s t) = false → Traps i s k t s { bits := cScratch, addr := BitVec.ofNat 64 off, mask := mask }) ∧
      (off % 16 = 0 → fillGood r off (spAlloc s t) = true → acts))
    let dl := fun (kind : WKind) => if t.waitKind = kind then waitField t.wait 16 8 else if f.c.isN then noDeadline else min noDeadline (s.tick + (opdS s k t f.c).toNat)
    let past := fun (kind : WKind) => dl kind ≠ noDeadline ∧ dl kind ≤ s.tick
    let ends := fun (i : Instr) (s1 : State) (v : W64) => Completes i s k t (writeS (clearWait s1 k) k f.d v)
    ring (.rngAwait f) (
      (n < have' → ends (.rngAwait f) (acquire s k t 1) (BitVec.ofNat 64 (off + 16 + r.bytes * ((r.rd + n) % 2 ^ r.slots)))) ∧
      (have' ≤ n → past .ring → ends (.rngAwait f) s (BitVec.allOnes 64)) ∧
      (have' ≤ n → ¬past .ring → Waits (.rngAwait f) s k t s .ring (waitMake [(0, off), (4, n), (8, Opd.code f.d), (16, dl .ring)]))) ∧
    ring (.rngRelease f) (
      (1 ≤ n → n ≤ have' → peerOut s k = false →
        Completes (.rngRelease f) s k t (writeS (spWriteNat (drain s k t) t.gang core (off + 4) 4 ((r.rd + n) % 2 ^ 32)) k f.d 0)) ∧
      (n = 0 ∨ have' < n → Completes (.rngRelease f) s k t (writeS s k f.d 1))) ∧
    (Issues (.seqwait f) s k t → Once (.seqwait f) f.g s k t (
      let b := (opdS s k t f.b).toNat
      (completionOf s t.oid off = none → ends (.seqwait f) s 2) ∧
      ∀ v, completionOf s t.oid off = some v →
        (b ≤ v → ends (.seqwait f) (acquire s k t 2) 0) ∧
        (v < b → past .seq → ends (.seqwait f) s 1) ∧
        (v < b → ¬past .seq → Waits (.seqwait f) s k t s .seq (waitMake [(0, off), (8, Opd.code f.d), (16, dl .seq), (24, b)])))) ∧
    (Issues (.halo f) s k t → Once (.halo f) f.g s k t (
      let i := Instr.halo f
      let h := haloDesc s t.gang core off
      let bn := fld f.m 0 5
      let status := fun v => Completes i s k t (writeS s k f.d v)
      let barrier := f.b.isN = false → n % 16 = 0 ∧ n + 16 ≤ spAlloc s t
      let aligned := off % 16 = 0 ∧ off + 16 ≤ spAlloc s t ∧ barrier
      let traps := fun (bits : W64) (a : Nat) => Traps i s k t s { bits := bits, addr := BitVec.ofNat 64 a, mask := mask }
      (f.b.isN = false → n % 16 ≠ 0 → traps cMisalign n) ∧
      (f.b.isN = false → n % 16 = 0 → spAlloc s t < n + 16 → traps cScratch n) ∧
      (barrier → off % 16 ≠ 0 → traps cMisalign off) ∧
      (barrier → off % 16 = 0 → spAlloc s t < off + 16 → traps cScratch off) ∧
      (aligned → hbarHeld s k t bn = none → status 1) ∧
      (aligned → ∀ b, hbarHeld s k t bn = some b →
        (special s k t 15 0 ≤ h.team → status 2) ∧
        (h.team < special s k t 15 0 → haloInRange h (spAlloc s t) = false → status 3) ∧
        (h.team < special s k t 15 0 → haloInRange h (spAlloc s t) = true → peerOut s k = false →
          let s1 := drain s k t
          let src := match s1.gang t.gang with | some g => keyCore (g.teams.getD h.team 0) | none => core
          let copy : Halo := { team := k, gang := t.gang, core := core, srcCore := src, bar := bn, go := false, rows := h.rows, rowBytes := h.rowBytes, stride := 16 * h.stride, src := h.src, dst := h.dst, obj := if f.b.isN then none else some n }
          Completes i s k t (writeS (hbarArrival { s1 with nextId := s1.nextId + 1, halos := s1.halos.put s1.nextId copy } (clusterOf core) bn b 1).1 k f.d 0)))))

/-- When the engine looks at a watched offset, with no earlier access to it left, the block is ignored without the tag; the count is the one that the access wrote; a header outside its limits stops its ring as BAD_ENTRY at index 0 and a notify too far above done as OVERRUN; a ring with a status is left; otherwise its unread entries are read. A COPY that may start (its ring runs, every earlier entry has started, no earlier SIGNAL is incomplete and the cluster's engines have a line left) is marked started and nothing else changes; one that may not start stays. A started COPY between scratchpad ranges that do not overlap, with no barrier, has its bytes at the destination, every other byte of its core's bank outside its header's done count as before, and is complete. A started COPY from memory writes the bytes of its translated source; a SIGNAL whose earlier entries are complete stores its value; a translation fault of either holds PAGE for the publisher, while it lives, with the ring stopped as FAULT. A fill-ring COPY takes the next slot when a - rd < M and otherwise waits. A halo copy waits for its phase, then copies its rows and reduces its barrier. -/
def Obligations.CopyEngineRunsRings : Prop :=
  ∀ s : State,
    (∀ id n, s.notices.find id = some n →
      let h := { ringHdr s n.gang n.core n.off with notify := n.count }
      let s0 := { s with notices := s.notices.erase id }
      let run := exec (.ringNotify id) s
      let cnt := (h.notify + 2 ^ 32 - h.done) % 2 ^ 32
      (noticeBefore s id n = true → run = .next s) ∧ (noticeBefore s id n = false → (h.tag ≠ 0xc0b7 → run = .next s0) ∧
      (h.tag = 0xc0b7 → ringGood h n.off (gangAlloc s n.gang) = false → run = .next (stopRing s0 n.gang n.core n.off 2 0)) ∧
      (h.tag = 0xc0b7 → ringGood h n.off (gangAlloc s n.gang) = true →
        (2 ^ h.size < cnt → run = .next (stopRing s0 n.gang n.core n.off 1 0)) ∧
        (cnt ≤ 2 ^ h.size → h.status ≠ 0 → run = .next s0) ∧
        (cnt ≤ 2 ^ h.size → h.status = 0 → (∀ r ∈ s.rings, ¬(r.core = n.core ∧ r.gang = n.gang ∧ r.off = n.off)) →
          run = .next (raiseDone n.gang n.core n.off 256 (readEntries n h.size (gangAlloc s n.gang) cnt h.done
            { s0 with rings := s.rings ++ [{ core := n.core, gang := n.gang, off := n.off, next := h.done, stopped := false }] })))))) ∧
    (∀ id e, s.entries.find id = some e → e.done = false →
      let c := ringCmd e.raw
      let put := fun (x : RingEntry) => { s with entries := s.entries.put id x }
      let oid := entryOid s e
      let cl := clusterOf e.core
      (c.op = 1 → c.flags.testBit 2 = false → e.started = false →
        (mayStart s e = true → exec (.ringCopy id) s = .next (put { e with started := true })) ∧ (mayStart s e = false → exec (.ringCopy id) s = .next s)) ∧
      (c.op = 1 → c.flags = 3 → c.bar = 0xffff → e.started = true → e.slot = none → (∃ x, s.gang e.gang = some x) →
        c.src + c.len ≤ 2 ^ 20 → c.dst + c.len ≤ 2 ^ 20 → e.ring + 32 ≤ 2 ^ 20 → overlaps c.dst c.len (e.ring + 4) 4 = false →
        ∃ s', exec (.ringCopy id) s = .next s' ∧ spBytes s' e.gang e.core c.dst c.len = spBytes s e.gang e.core c.src c.len ∧
          (∀ q a, a < 2 ^ 20 → (q = e.core → (a < c.dst ∨ c.dst + c.len ≤ a) ∧ (a < e.ring + 4 ∨ e.ring + 8 ≤ a)) → spBytes s' e.gang q a 1 = spBytes s e.gang q a 1) ∧
          s'.mem = s.mem ∧ s'.hostMem = s.hostMem ∧ s'.teams = s.teams ∧ (∀ x, s'.entries.find id = some x → x.done = true)) ∧
      (c.op = 1 → c.flags = 2 → e.started = true → e.slot = none → ∀ s1 ps, engineSpan s 0 cl oid (extVA (BitVec.ofNat 64 c.src)) c.len accR = (s1, .ok ps) → spanBad s1 ps = none →
        exec (.ringCopy id) s = .next (finishEntry (reduceFor (spWrite s1 e.gang e.core c.dst (spanBytes s1 ps)) e c) id)) ∧
      (c.op = 1 → c.flags = 2 → e.started = true → ∀ s1 why va leaf, engineSpan s 0 cl oid (extVA (BitVec.ofNat 64 c.src)) c.len accR = (s1, .fault why va leaf) →
        exec (.ringCopy id) s = .next (faultEntry s1 id e why va accR leaf)) ∧
      (c.op = 2 → mayStart s e = true → ((earlierEntries s e).all fun x => x.done) = true → ∀ s1 ps, engineSpan s 0 cl oid (extVA (BitVec.ofNat 64 c.src)) 4 accW = (s1, .ok ps) →
        let w := spanWrite (flushPieces s1 e.core ps) (entryKernel s e) ps (leBytes 4 c.dst)
        w.2 = false → exec (.ringSignal id) s = .next (finishEntry w.1 id)) ∧
      (c.op = 2 → mayStart s e = false ∨ ((earlierEntries s e).all fun x => x.done) = false → exec (.ringSignal id) s = .next s) ∧
      (c.op = 1 → c.flags = 6 → e.started = false → e.slot = none → mayStart s e = true →
        let f := fillRing s e.gang e.core c.dst
        let a := nextSlot s e.gang e.core c.dst
        fillGood f c.dst (gangAlloc s e.gang) = true → c.len ≤ f.bytes →
        ((a + 2 ^ 32 - f.rd) % 2 ^ 32 < 2 ^ f.slots → exec (.fillRingSlotFill id) s = .next (put { e with started := true, slot := some a })) ∧
        (2 ^ f.slots ≤ (a + 2 ^ 32 - f.rd) % 2 ^ 32 → exec (.fillRingSlotFill id) s = .next s)) ∧
      (∀ why va acc leaf t, entryTeam s e = some t → why < 16 → why ≠ rUncorrData → why ≠ rUncorrTable → (∃ x, s.gang e.gang = some x) → e.ring + 32 ≤ 2 ^ 20 →
        let s' := faultEntry s id e why va acc leaf
        s'.team e.team = some (holdCause t (cPage ||| cReason why) 0 (BitVec.ofNat 64 va)) ∧ spNat s' e.gang e.core (e.ring + 11) 1 = 3 ∧
        spNat s' e.gang e.core (e.ring + 12) 4 = e.index % 2 ^ 32 ∧ s'.mem = s.mem)) ∧
    (∀ id h, s.halos.find id = some h →
      (h.go = false → exec (.haloCopy id) s = .next s) ∧
      (h.go = true → (∃ x, s.gang h.gang = some x) → h.rowBytes ≤ h.stride → h.src + h.rows * h.stride ≤ 2 ^ 20 → h.dst + h.rows * h.stride ≤ 2 ^ 20 →
        h.srcCore ≠ h.core ∨ overlaps h.src (h.rows * h.stride) h.dst (h.rows * h.stride) = false →
        ∃ s1, (∀ r, r < h.rows → spBytes s1 h.gang h.core (h.dst + r * h.stride) h.rowBytes = spBytes s h.gang h.srcCore (h.src + r * h.stride) h.rowBytes) ∧
          (∀ q a, a < 2 ^ 20 → (q = h.core → a < h.dst ∨ h.dst + h.rows * h.stride ≤ a) → spBytes s1 h.gang q a 1 = spBytes s h.gang q a 1) ∧
          s1.halos.find id = none ∧ s1.teams = s.teams ∧ s1.mem = s.mem ∧
          exec (.haloCopy id) s = .next (match h.obj with | some b => barReduce s1 h.gang h.core b (h.rows * h.rowBytes) | none => s1)))

/-- Whenever a slot instruction or mma issues (the team-wide ones unguarded or passed): a use that the table of R164 refuses raises SLOT_STATE with the word of R166, one that must wait stalls at issue. slot.claim of free units makes a CLAIMED slot and writes 0 to D, of taken ones writes 1 or, without D, traps with reason 5. slot.release frees a slot or lets its operations drain. slot.rd writes to D each lane's four bytes of the slot and slot.wr stores each lane's four bytes, touching no other byte, when every offset is a multiple of 4 inside the slot. slot.zero, slot.load and slot.store start their operation once their barrier, alignment and pages pass, the last two, when no data snare matches a row, after the team's earlier accesses are performed. mma with usable slots, a legal format block, aligned scales inside the allocation and room in the queue puts its entry, with the scales as they stand, last in the matrix queue and makes its slots BUSY. An operation that starts raises the team's count of outstanding matrix operations by one. -/
def Obligations.SlotInstructions : Prop :=
  ∀ (f : VR) (s : State) (k : Nat) (t : Team),
    let core := keyCore k
    let c := s.core core
    let u := physUnit s k t (slotUnit f)
    let kd := slotKind f
    let use := fun (role : SRole) => slotUse c u kd role
    let word := fun (reason st lane : Nat) => slotWord reason 0 (slotUnit f) kd st lane
    let refuses := fun (i : Instr) (role : SRole) =>
      (∀ st why, use role = .bad st why → Traps i s k t s { bits := cSlotState, addr := word why st 0, mask := lanesOf t f.g }) ∧
      (use role = .wait → Stalls i s k)
    let wide := fun (i : Instr) (role : SRole) (acts : Slot → Prop) => Issues i s k t → Once i f.g s k t (refuses i role ∧ ∀ sl, use role = .ok sl → acts sl)
    let barOk := fun (o : Opd) => o.isN = true ∨ (offS s k t o % 16 = 0 ∧ offS s k t o + 16 ≤ spAlloc s t)
    let barOf := fun (o : Opd) => if o.isN then none else some (offS s k t o)
    let lanes := maskLanes (lanesOf t f.g) t.width
    let offs := laneAddrs lanes (n32Src s k t f.a)
    let inSlot := fun (sl : Slot) => ∀ p ∈ offs, p.2 % 4 = 0 ∧ p.2 < slotBytes sl.kind
    (Issues (.slotClaim f) s k t → Once (.slotClaim f) f.g s k t (
      (slotTaken c u (slotUnitsOf kd) = none → Completes (.slotClaim f) s k t
        (writeS (setSlot s core u { kind := kd, state := .claimed, oid := t.oid, kernel := t.kernel, users := 0, writers := 0, stores := 0 }) k f.d 0)) ∧
      (∀ sl, slotTaken c u (slotUnitsOf kd) = some sl → if f.d.isN
        then Traps (.slotClaim f) s k t s { bits := cSlotState, addr := word 5 sl.state.code 0, mask := lanesOf t f.g }
        else Completes (.slotClaim f) s k t (writeS s k f.d 1)))) ∧
    wide (.slotRelease f) .release (fun sl => Completes (.slotRelease f) s k t
      (if sl.state = .filling ∨ sl.state = .busy then setSlot s core u { sl with state := .draining } else freeSlot s core u)) ∧
    (Issues (.slotRd f) s k t → (lanes = [] → Completes (.slotRd f) s k t s) ∧ (lanes ≠ [] → refuses (.slotRd f) .drain ∧ ∀ sl, use .drain = .ok sl →
      (inSlot sl → WritesD (.slotRd f) s k t f.g f.d false fun L => BitVec.ofNat 64 (leNat (c.opmem.bytes (32768 * u + n32Src s k t f.a L) 4))) ∧
      (∀ p, (offs.find? fun p => decide (p.2 % 4 ≠ 0 ∨ slotBytes sl.kind ≤ p.2)) = some p →
        ∃ m, Traps (.slotRd f) s k t s { bits := cSlotState, addr := word 7 sl.state.code p.1, mask := m } ∧
          ∀ L, L < 1024 → m.getLsbD L = offs.any fun q => decide (q.1 = L ∧ (q.2 % 4 ≠ 0 ∨ slotBytes sl.kind ≤ q.2))))) ∧
    (Issues (.slotWr f) s k t → (lanes = [] → Completes (.slotWr f) s k t s) ∧ (lanes ≠ [] → refuses (.slotWr f) .write ∧ ∀ sl, use .write = .ok sl → inSlot sl →
      ∃ s1, Completes (.slotWr f) s k t s1 ∧ s1.teams = s.teams ∧ s1.mem = s.mem ∧ s1.gangs = s.gangs ∧ (∀ c', c' ≠ core → s1.core c' = s.core c') ∧
        (s1.core core).slots = c.slots ∧
        (∀ p ∈ offs, (∀ q ∈ offs, q.2 = p.2 → q = p) → leNat ((s1.core core).opmem.bytes (32768 * u + p.2) 4) = n32Src s k t f.b p.1 % 2 ^ 32) ∧
        (∀ a, (∀ p ∈ offs, a < 32768 * u + p.2 ∨ 32768 * u + p.2 + 4 ≤ a) → (s1.core core).opmem.byte a = c.opmem.byte a))) ∧
    wide (.slotZero f) .fill (fun sl => barOk f.c → Completes (.slotZero f) s k t (startSlotOp s k t (slotOpOf k t f u 1 0 0 [] (barOf f.c)) sl)) ∧
    (let a := opdS s k t f.a
      let b := opdS s k t f.b
      let moves := fun (i : Instr) (role : SRole) (op acc : Nat) (row : Nat) =>
        wideSnare s k t (lanesOf t f.g) acc ((List.range (slotRows kd)).map fun r => (extVA (rowAddr a b r), row)) = none → wide i role fun sl => barOk f.c →
        (a.toNat % 16 ≠ 0 ∨ b.toNat % 16 ≠ 0 → Traps i s k t s { bits := cMisalign, addr := a, mask := lanesOf t f.g }) ∧
        (a.toNat % 16 = 0 → b.toNat % 16 = 0 → peerHold s k = false → ∀ s1 ls,
          checkWide s k t f.g 1 acc ((transferPages a b row (slotRows kd)).map fun x => (0, x)) = .go s1 ls → (∀ x ∈ ls, isPeer x.2.2 = false) →
          let s2 := drain s1 k t
          let pages : Table Nat := ls.foldl (fun tb x => Table.put tb (x.2.1 / 2 ^ 18) (x.2.2 - x.2.1 % 2 ^ 18)) []
          Completes i s k t (startSlotOp s2 k t (slotOpOf k t f u op a b pages (barOf f.c)) (((s2.core core).slots.find u).getD sl)))
      moves (.slotLoad f) .fill 0 accR (slotRow kd) ∧ moves (.slotStore f) .drain 2 accW (memRow kd f.t)) ∧
    (∀ m : MX, Issues (.mma m) s k t → Once (.mma m) m.g s k t (
      let ix := fun (n : BitVec 6) => physUnit s k t n.toNat
      let ua := slotUse c (ix m.acc) 2 (.acc (m.flags.getLsbD 0))
      let ub := slotUse c (ix m.ua) 0 .reader
      let uc := slotUse c (ix m.ub) 1 .reader
      let fb := fbRead s k t m.fb
      let bad := fun (n unit kind st why : Nat) => Traps (.mma m) s k t s { bits := cSlotState, addr := slotWord why n unit kind st 0, mask := lanesOf t m.g }
      let noBad := fun (x : SUse) => ∀ st why, x ≠ .bad st why
      let okRegions := ∀ r ∈ fbRegions fb, r.2.1 ≠ 0 → r.1 % r.2.2 = 0 ∧ r.1 + r.2.1 ≤ spAlloc s t
      (∀ st why, ua = .bad st why → bad 1 m.acc.toNat 2 st why) ∧
      (∀ st why, noBad ua → ub = .bad st why → bad 2 m.ua.toNat 0 st why) ∧
      (∀ st why, noBad ua → noBad ub → uc = .bad st why → bad 3 m.ub.toNat 1 st why) ∧
      (noBad ua → noBad ub → noBad uc →
        (fbGood fb = false → bad 4 0 0 0 6) ∧
        (fbGood fb = true → okRegions → barOk m.bar →
          (ua = .wait ∨ ub = .wait ∨ uc = .wait ∨ 8 ≤ c.mq.length → Stalls (.mma m) s k) ∧
          (ua ≠ .wait → ub ≠ .wait → uc ≠ .wait → c.mq.length < 8 →
            ∃ s1, Completes (.mma m) s k t s1 ∧ (s1.core core).mq = c.mq ++ [mmEntry s k t m fb (barOf m.bar)] ∧
              (∀ n ∈ [m.acc, m.ua, m.ub], ∃ sl, (s1.core core).slots.find (ix n) = some sl ∧ sl.state = .busy) ∧
              (∃ t0 t1, s.team k = some t0 ∧ s1.team k = some t1 ∧ t1 = { t0 with mxOut := t0.mxOut + 1 }) ∧
              s1.mem = s.mem ∧ s1.gangs = s.gangs ∧ (s1.core core).opmem = c.opmem ∧ (∀ c', c' ≠ core → s1.core c' = s.core c') ∧ ∀ k', k' ≠ k → s1.team k' = s.team k'))))) ∧
    (∀ (op : SlotOp) (sl : Slot) (t0 : Team), s.team k = some t0 → op.op < 3 →
      let s' := startSlotOp s k t op sl
      s'.slotOps.find s.nextId = some op ∧ (s'.core core).slots.find op.unit = some { sl with state := if op.op = 2 then .busy else .filling, users := sl.users + 1, stores := sl.stores + if op.op = 2 then 1 else 0 } ∧
      s'.team k = some { t0 with mxOut := t.mxOut + 1 } ∧ s'.mem = s.mem ∧ (s'.core core).opmem = c.opmem)

/-- While the core clock is stopped operand memory and the array stand still. Otherwise: when a slot.zero or a slot.load whose rows hold no error ends, the slot's bytes are zeros or the rows, every other byte of operand memory is as before, and a slot with no other use is FULL; the operation is gone and the team's count falls. When a slot.store without cached copies of its rows ends, each row stands at its address, in the store's type with its exceptions, and the count falls. The array, when idle, takes the head of the matrix queue and at most one later entry of another team of the gang that shares its B operand. When a pass of one entry ends, every element of the accumulator is the grouped sum of R29 of its row and column over its old value (or 0), each group rounded once; no other byte of operand memory changes, and the exceptions are in the team's float mode. -/
def Obligations.SlotAndMatrixOperationsComplete : Prop :=
  ∀ (s : State) (core : Nat),
    let c := s.core core
    (s.stopped = true → (∀ unit, exec (.slotFillComplete core unit) s = .next s ∧ exec (.slotStoreComplete core unit) s = .next s) ∧
      exec .matrixPassStart s = .next s ∧ exec .matrixPassComplete s = .next s) ∧ (s.stopped = false →
    (∀ (unit id : Nat) (op : SlotOp) (sl : Slot) (t : Team), slotOpAt s core unit (fun n => decide (n < 2)) = some (id, op) → c.slots.find unit = some sl →
      sl.state = .filling → sl.users = 1 → op.bar = none → s.team op.team = some t → (op.op = 0 → (loadRows s op).2 = none) →
      ∃ s', exec (.slotFillComplete core unit) s = .next s' ∧ s'.slotOps.find id = none ∧
        (op.op = 1 → ∀ i, i < slotBytes op.kind → (s'.core core).opmem.byte (32768 * unit + i) = 0) ∧
        (op.op = 0 → (s'.core core).opmem.bytes (32768 * unit) (loadRows s op).1.length = (loadRows s op).1) ∧
        (∀ a, a < 32768 * unit ∨ 32768 * unit + max (slotBytes op.kind) (loadRows s op).1.length ≤ a → (s'.core core).opmem.byte a = c.opmem.byte a) ∧
        (∃ sl', (s'.core core).slots.find unit = some sl' ∧ sl'.state = .full ∧ sl'.users = 0) ∧ s'.mem = s.mem ∧ s'.gangs = s.gangs ∧
        (∃ t', s'.team op.team = some t' ∧ t'.mxOut = t.mxOut - 1 ∧ t'.v = t.v ∧ t'.s = t.s ∧ t'.fmode = t.fmode)) ∧
    ((∀ unit, slotOpAt s core unit (fun n => decide (n < 2)) = none → exec (.slotFillComplete core unit) s = .next s) ∧
      (∀ unit, slotOpAt s core unit (fun n => decide (n = 2)) = none → exec (.slotStoreComplete core unit) s = .next s)) ∧
    (∀ (unit id : Nat) (op : SlotOp) (t : Team), slotOpAt s core unit (fun n => decide (n = 2)) = some (id, op) → op.bar = none → s.team op.team = some t →
      (∀ x, (s.core x).l1 = []) → s.bad = [] →
      let row := memRow op.kind op.ty
      let base := op.pages.get (op.va.toNat / 2 ^ 18) 0
      let at' := fun r => base + op.va.toNat % 2 ^ 18 + r * op.stride.toNat
      op.va.toNat < 2 ^ 63 → row ≤ op.stride.toNat → op.va.toNat % 2 ^ 18 + slotRows op.kind * op.stride.toNat ≤ 2 ^ 18 → base + 2 ^ 18 ≤ 2 ^ 48 →
      ∃ s', exec (.slotStoreComplete core unit) s = .next s' ∧ s'.slotOps.find id = none ∧
        (∀ r, r < slotRows op.kind → homeBytes s' (at' r) row = (storeRow s op r).1) ∧
        (∀ a, (∀ r, r < slotRows op.kind → a < at' r ∨ at' r + row ≤ a) → homeByte s' a = homeByte s a) ∧
        (∀ x, (s'.core x).opmem = (s.core x).opmem) ∧ s'.gangs = s.gangs ∧
        (∃ t', s'.team op.team = some t' ∧ t'.mxOut = t.mxOut - 1 ∧ t'.v = t.v ∧ t'.s = t.s ∧
          t'.fmode = t.fmode ||| BitVec.ofNat 64 (((List.range (slotRows op.kind)).foldl (fun (e : Exc) r => e ||| (storeRow s op r).2) 0).toNat * 2 ^ 13))) ∧
    (s.sel.core = core →
      (c.pass ≠ [] ∨ c.mq = [] → exec .matrixPassStart s = .next s) ∧
      (∀ x r, c.pass = [] → c.mq = x :: r → ∃ s', exec .matrixPassStart s = .next s' ∧ s'.mem = s.mem ∧ s'.teams = s.teams ∧
        (((s'.core core).pass = [x] ∧ (s'.core core).mq = r) ∨
          ∃ seen y rest, r = seen ++ y :: rest ∧ (s'.core core).pass = [x, y] ∧ (s'.core core).mq = seen ++ rest ∧ y.team ≠ x.team ∧ y.gang = x.gang ∧
            y.ub = x.ub ∧ x.noFuse = false ∧ y.noFuse = false ∧ y.window ≤ x.window ∧ ∀ z ∈ seen, z.team ≠ y.team ∧ z.acc ≠ y.acc)) ∧
      (∀ e t kk G cyc, c.pass = [e] → e.bar = none → s.team e.team = some t → t.state ≠ .exiting → mmPair (fbByte e.fb 0) (fbByte e.fb 1) = some (kk, G, cyc) →
        let a := opBytes c e.ua 0 32768
        let b := opBytes c e.ub 0 65536
        let old := fun i j => leNat (c.opmem.bytes (32768 * e.acc + 1024 * i + 4 * j) 4)
        let out := fun i j => accElem kk G (rowA e kk a i) (colB e kk b j) (if e.zero then 0 else old i j)
        ∃ s', exec .matrixPassComplete s = .next s' ∧ (s'.core core).pass = [] ∧ (s'.core core).mq = c.mq ∧ s'.mem = s.mem ∧ s'.gangs = s.gangs ∧
          (∀ i j, i < 128 → j < 256 → leNat ((s'.core core).opmem.bytes (32768 * e.acc + 1024 * i + 4 * j) 4) = (out i j).1 % 2 ^ 32) ∧
          (∀ x, x < 32768 * e.acc ∨ 32768 * e.acc + 131072 ≤ x → (s'.core core).opmem.byte x = c.opmem.byte x) ∧
          ∃ t', s'.team e.team = some t' ∧ t'.mxOut = t.mxOut - 1 ∧ t'.v = t.v ∧ t'.s = t.s ∧ t'.e = t.e ∧
            ∀ i j, i < 128 → j < 256 → ∀ n, n < 5 → (out i j).2.getLsbD n = true → t'.fmode.getLsbD (13 + n) = true)))

/-- Whenever vol.ld or vol.probe issues and steps 2 to 4 of R268 pass, it completes: exec answers the committed state in which each lane's load is bound to its element (the background outside, below an empty entry or where a tile stores nothing, the constant of a constant entry, the stored value of a leaf) or its status word, with the TST trained; when no lane acts it completes with no effect. A handle that is no multiple of 128 raises MISALIGN; an invalid descriptor raises TILE_FORMAT DESC and an unsuited size WIDTH, each for every lane with the lowest one in the word. vol.sync is the fence of its order and scope, once. vol.inv drops the cluster's CLB entries of the OID and handle and nothing else. A pre-walk is gone and changes no team, no byte and no other cluster. -/
def Obligations.VolumeReadsAndProbes : Prop :=
  ∀ (f : VR) (s : State) (k : Nat) (t : Team),
    let m := resumedLanes t f.g
    let va := extVA (opdS s k t f.b)
    let cl := clusterOf (keyCore k)
    let ld : VNeed := { nodes := true, tiles := true, reads := true, elem := true, whole := false }
    let pr : VNeed := { nodes := false, tiles := false, reads := true, elem := false, whole := false }
    let n := if f.t = .n64 then 8 else 4
    let keep := fun (_ : VDesc) (_ : W64) => false
    let front := fun (i : Instr) (size : Nat → Bool) => Issues i s k t → (maskLanes m t.width = [] → Completes i s k t s) ∧
      (maskLanes m t.width ≠ [] → peerHold s k = false → wideSnare s k t m 1 [(va, 128)] = none → va % 128 ≠ 0 →
        Traps i s k t s { bits := cMisalign, addr := BitVec.ofNat 64 va, mask := m }) ∧
      ∀ s1 pa, DescGoes s k t f accR s1 pa →
        let d := volDesc s1 (ctxPart s t.oid) va pa
        let word := fun why => BitVec.ofNat 64 (lowLane m * 2 ^ 22 + 5 * 2 ^ 19 + why)
        (volDescOk s1 d = false → Traps i s k t s1 { bits := cTileFormat, addr := word 4, mask := m }) ∧
        (volDescOk s1 d = true → size d.e = false → Traps i s k t s1 { bits := cTileFormat, addr := word 5, mask := m })
    front (.volLd f) (volSize f.t) ∧ front (.volProbe f) (fun _ => true) ∧
    (Issues (.volLd f) s k t → ∀ s2 d ls ts, VolGoes s k t f accR (volSize f.t) ld keep s2 d ls ts →
      Completes (.volLd f) s k t (trainTst (addLoad s2 k t f.d n 0 (ls.map fun l => boundLane l.lane n (volRead d ts l))) k t f d) ∧
      ∀ l ∈ ls, (l.inside = none → volRead d ts l = d.bg) ∧
        ∀ tile i, l.inside = some (tile, i) → ∃ v, findTile ts tile = some v ∧ ∀ level pa e, v.walk = .found level pa e →
          (veKind e = 0 → volRead d ts l = d.bg) ∧ (veKind e = 3 → volRead d ts l = constVal e d.e) ∧
          (veKind e = 2 → veFmt e = 0 → volRead d ts l = leNat ((v.raw.drop (d.e * i)).take d.e)) ∧
          (veKind e = 2 → veFmt e = 1 → volRead d ts l = if (rawNat v.raw 0 64).testBit i then leNat ((v.raw.drop (72 + d.e * bitmapBelow v.raw i)).take d.e) else d.bg)) ∧
    (Issues (.volProbe f) s k t → ∀ s2 d ls ts, VolGoes s k t f accR (fun _ => true) pr keep s2 d ls ts →
      Completes (.volProbe f) s k t (trainTst (addLoad s2 k t f.d 4 0 (ls.map fun l => boundLane l.lane 4 (probeStatus ts l))) k t f d) ∧
      ∀ l ∈ ls, (l.inside = none → probeStatus ts l = 3) ∧
        ∀ tile i v, l.inside = some (tile, i) → findTile ts tile = some v →
          (∀ level, v.walk = .bad level → level < 8 → probeStatus ts l = 2 ^ 18 + 16 * level) ∧
          (∀ level pa e, v.walk = .found level pa e → level < 8 →
            bitsAt (probeStatus ts l) 4 3 = level ∧ (veKind e = 0 → bitsAt (probeStatus ts l) 0 2 = 0) ∧ (veKind e = 3 → bitsAt (probeStatus ts l) 0 2 = 1) ∧
            (veKind e = 2 → bitsAt (probeStatus ts l) 0 2 = 2 ∧ bitsAt (probeStatus ts l) 2 2 = veFmt e ∧ bitsAt (probeStatus ts l) 17 1 = if v.why = 0 then 0 else 1))) ∧
    (Issues (.volSync f) s k t → Once (.volSync f) f.g s k t (
      let ord := fld f.m 0 2
      let s1 := if ord = 2 ∨ ord = 3 then drain s k t else s
      (peerHold s k = true → Stalls (.volSync f) s k) ∧
      ((peerHold s k || (ordRel ord && peerOut s k) || (ordAcq ord && peerLoadOut s k)) = false →
        Completes (.volSync f) s k t (if ord = 1 ∨ ord = 3 then acquire (bindTeam s1 k) k t (fld f.m 2 3) else s1)))) ∧
    (Issues (.volInv f) s k t → Once (.volInv f) f.g s k t (∃ s1, Completes (.volInv f) s k t s1 ∧
      (∀ x, x ∈ (s1.cluster cl).clb ↔ x ∈ (s.cluster cl).clb ∧ ¬(x.oid = t.oid ∧ x.handle = va)) ∧ (∀ c, c ≠ cl → s1.cluster c = s.cluster c) ∧
      s1.teams = s.teams ∧ s1.mem = s.mem ∧ s1.cores = s.cores)) ∧
    (∀ id, (s.walks.find id = none → exec (.clusterClbPreWalk id) s = .next s) ∧
      ∀ w, s.walks.find id = some w → ∃ s', exec (.clusterClbPreWalk id) s = .next s' ∧ s'.walks.find id = none ∧ s'.teams = s.teams ∧ s'.mem = s.mem ∧
        s'.hostMem = s.hostMem ∧ ∀ c, c ≠ w.cluster → s'.cluster c = s.cluster c)

/-- Whenever vol.st, vol.atom or vol.alloc issues, steps 2 to 4 of R268 pass and every tile is a leaf that the form takes as it is, the word completes: exec answers the committed state in which the lanes have performed, trained. In general its tiles are made writable in order and its lanes perform: with no failure and no block to free it completes; with blocks to free it commits and the team waits for the cymbal past its word; when a lane fails to allocate, QUOTA or VOL_ALLOC is raised for the failing lanes after the others have performed, behind a cymbal where blocks are to be freed. A tile that is walked again is checked as in step 4: a lane whose tile fails there (a malformed entry, NODE, among them) raises TILE_FORMAT, or UNCORRECTABLE, for the failing lanes and no lane performs, and a BUSY leaf there is awaited, behind the cymbal where blocks are to be freed (log entry 28, the model's choice). A store puts the low e bytes of each lane's data at its element, and an atomic also returns the old value and, for an outside lane, the background; no other byte changes. vol.free completes when no tile has a leaf; otherwise each leaf is replaced by an empty entry and the team waits past its word. vol.fmt completes with status 1 in every lane when no tile is to be converted; otherwise its leaves are held BUSY and the team waits at its word. When the cymbal completes, the blocks are pushed to the pool, the version rises by one, and the team goes on or takes its fault; a vol.fmt then converts its tiles and its team goes on past the word with the lanes' statuses in D. That vol.fmt holds its leaves BUSY, the status 1 and the faults of its conversion are log entry 61 (DESIGN CHOICE). -/
def Obligations.VolumeWritesAndTheCymbal : Prop :=
  ∀ (f : VR) (s : State) (k : Nat) (t : Team),
    let cl := clusterOf (keyCore k)
    let wr : VNeed := { nodes := true, tiles := true, reads := true, elem := false, whole := false }
    let n := if f.t = .n64 then 8 else 4
    let work := fun (d : VDesc) (old : List Nat) (version : Option Nat) (fault : Option Frame) =>
      ({ pushes := old.map fun b => (d.pool, b), frames := 0, version := version, fault := fault, fmt := none } : Work)
    let parked := fun (st : State) (d : VDesc) (w : Work) => st.modTeam k fun u => { u with state := .waiting, waitKind := .cymbal, wait := waitMake [(0, d.va)], work := some w }
    let frame := fun (c : Cause) => ({ h := t.h, i := t.i, inst := curWord t, hdr := curHdr t, cause := c.bits, addr := c.addr, mask := c.mask } : Frame)
    let ends := fun (i : Instr) (s3 : State) (trained : State) (d : VDesc) (old : List Nat) (version : Option Nat) (fails : List (Nat × VFail)) =>
      (fails = [] → old = [] → Completes i s k t trained) ∧
      (fails = [] → old ≠ [] → exec i s = .next (parkedPast (parked trained d (work d old version none)) k t)) ∧
      (fails ≠ [] → ∃ c, step5Fault fails = some c ∧
        (old = [] → Traps i s k t s3 c) ∧
        (old ≠ [] → exec i s = .next (waited (parked s3 d (work d old version (some (frame c)))) k t)) ∧
        (c.bits = cVolAlloc ∨ c.bits = cQuota ||| cReason rQuota) ∧ ∀ L, L < 1024 → c.mask.getLsbD L = fails.any fun x => decide (x.1 = L))
    let made := fun (i : Instr) (size : Nat → Bool) (alloc elem : Bool) (train : VDesc → State → State) (perform : State → VDesc → List VLane → List (Tile × VMade) → State) =>
      Issues i s k t → ∀ s2 d ls ts,
        VolGoes s k t f (accR + accW) size { wr with elem := elem } (fun _ e => decide (veKind e ≠ 2) || (!alloc && decide (veFmt e ≠ 0))) s2 d ls ts →
        let F : VForm := { alloc := alloc, need := { wr with elem := elem }, ls := ls }
        let w := makeTiles k t d F ts { s := s2, old := [], changed := [] }
        let fs := laneOthers w.1.s d F w.2
        let s3 := perform w.1.s d ls w.2
        (fs = [] → busyTile (otherTiles w.2) = none → ends i s3 (train d s3) d w.1.old none (laneFails ls w.2)) ∧
        (∀ pa e, fs = [] → busyTile (otherTiles w.2) = some (pa, e) →
          (w.1.old = [] → exec i s = .next (bumpCounter (leafWait w.1.s k pa e) (keyCore k) 0 (issueCycles t))) ∧
          (w.1.old ≠ [] → exec i s = .next (waited (parked w.1.s d (work d w.1.old none none)) k t))) ∧
        (∀ L level why r, fs = (L, level, why) :: r → ∃ c : Cause,
          (why ≠ 0 → c.bits = cTileFormat ∧ c.addr = BitVec.ofNat 64 (L * 2 ^ 22 + level * 2 ^ 19 + why)) ∧ (why = 0 → c.bits = cUncorrectable ∧ c.addr = 0) ∧
          (∀ n, n < 1024 → c.mask.getLsbD n = fs.any fun x => decide (x.1 = n) && (decide (x.2.2 = 0) == decide (why = 0))) ∧
          let s4 := step4Record w.1.s k t (L, level, why)
          (w.1.old = [] → Traps i s k t s4 c) ∧ (w.1.old ≠ [] → exec i s = .next (waited (parked s4 d (work d w.1.old none (some (frame c)))) k t))) ∧
        (∀ at' : VTile → Nat × W64, (∀ v ∈ ts, v.walk = .found 1 (at' v).1 (at' v).2 ∧ veKind (at' v).2 = 2 ∧ (alloc = true ∨ veFmt (at' v).2 = 0)) →
          Completes i s k t (train d (perform s2 d ls (ts.map fun v => (v.tile, .leaf (at' v).1 (at' v).2)))))
    let stores := fun (s1 : State) (d : VDesc) (ls : List VLane) (mk : List (Tile × VMade)) =>
      ls.foldl (fun st l => match laneElem s1 d mk l with
        | some pa => teamHomeWrite (leavePhys st k pa d.e) k d.va pa (leBytes d.e (volData s k t f l.lane)) (curWord t)
        | none => st) s1
    let target := fun (d : VDesc) => if fld f.m 0 2 = 3 then d.fmt else fld f.m 0 2
    made (.volSt f) (volSize f.t) false false (fun d st => trainTst st k t f d) stores ∧
    made (.volAtom f) (fun e => decide (e = n)) false true (fun d st => trainTst st k t f d) (fun s1 d ls mk =>
      let a := volAtomLanes k t (fld f.m 0 4) d (volData s k t f) mk ls s1
      if f.d.isN || a.2.isEmpty then a.1 else addLoad a.1 k t f.d n 0 (a.2.map fun x => boundLane x.1 n x.2)) ∧
    made (.volAlloc f) (fun _ => true) true false (fun _ st => st) (fun s1 _ _ _ => s1) ∧
    (∀ (s1 : State) (d : VDesc) (ls : List VLane) (mk : List (Tile × VMade)), AtHome s1 → d.e ≤ 8 →
      (∀ l ∈ ls, ∀ pa, laneElem s1 d mk l = some pa → pa + d.e ≤ 2 ^ 48) →
      let s2 := stores s1 d ls mk
      (∀ l ∈ ls, ∀ pa, laneElem s1 d mk l = some pa → (∀ x ∈ ls, x ≠ l → ∀ q, laneElem s1 d mk x = some q → q + d.e ≤ pa ∨ pa + d.e ≤ q) →
        homeNat s2 pa d.e = volData s k t f l.lane % 2 ^ (8 * d.e)) ∧
      (∀ a, (∀ l ∈ ls, ∀ pa, laneElem s1 d mk l = some pa → a < pa ∨ pa + d.e ≤ a) → homeByte s2 a = homeByte s1 a) ∧ s2.teams = s1.teams ∧
      (∀ op l pa, ls = [l] → laneElem s1 d mk l = some pa → (d.e = 4 ∨ d.e = 8) →
        let r := volAtomLanes k t op d (volData s k t f) mk ls s1
        r.2 = [(l.lane, homeNat s1 pa d.e)] ∧ homeNat r.1 pa d.e = atomNew op d.e (homeNat s1 pa d.e) (volData s k t f l.lane % 2 ^ (8 * d.e)) 0 % 2 ^ (8 * d.e)) ∧
      (∀ op l, ls = [l] → l.inside = none → volAtomLanes k t op d (volData s k t f) mk ls s1 = (s1, [(l.lane, d.bg)]))) ∧
    (Issues (.volFree f) s k t → ∀ s2 d ls ts,
      VolGoes s k t f (accR + accW) (fun _ => true) { nodes := true, tiles := false, reads := false, elem := false, whole := false } (fun _ e => decide (veKind e = 2)) s2 d ls ts →
      let w := freeTiles k ts { s := s2, old := [], changed := [] }
      let shot := clbShoot w.s t.oid d.va w.changed
      let s3 := if w.old = [] then shot else setD shot cl t.oid d.va
      ends (.volFree f) s3 s3 d w.old (some (versionPa d)) [] ∧ versionPa d = d.pa + 20 ∧
      ((∀ v ∈ ts, tileLeaf v = none) → Completes (.volFree f) s k t (clbShoot s2 t.oid d.va [])) ∧
      (∀ v pa e, ts = [v] → tileLeaf v = some (pa, e) → homeNat (leavePhys s2 k pa 8) pa 8 = e.toNat → badAt (leavePhys s2 k pa 8) pa 8 = false →
        w.old = [veTile e] ∧ w.changed = [tileKey v.tile] ∧ (pa + 8 ≤ 2 ^ 48 → homeNat w.s pa 8 = 0) ∧
        ∀ c x, x ∈ (s3.cluster c).clb → ¬(x.oid = t.oid ∧ x.handle = d.va ∧ x.tile = tileKey v.tile))) ∧
    (Issues (.volFmt f) s k t → ∀ s2 d ls ts,
      VolGoes s k t f (accR + accW) (fun _ => true) { wr with whole := true } (fun d e => decide (veKind e = 2 ∧ veFmt e ≠ target d)) s2 d ls ts →
      let r := fmtHold k (target d) ts s2
      let w : FmtWork := { desc := d, fmt := target d, items := r.2, dst := f.d, lanes := ls.map fun l => (l.lane, l.inside.map fun x => tileKey x.1) }
      (r.2 = [] → Completes (.volFmt f) s k t (writeD r.1 k (resumedLanes t f.g) false f.d fun _ => 1)) ∧
      (r.2 ≠ [] → Waits (.volFmt f) s k t ((clbShoot r.1 t.oid d.va (r.2.map (·.tile))).modTeam k fun u => { u with
          work := some { pushes := [], frames := 0, version := none, fault := none, fmt := some w }, hostWord := curWord t, hostHdr := curHdr t })
        .cymbal (waitMake [(0, d.va)])) ∧
      ((∀ v ∈ ts, ∀ pa e, tileLeaf v = some (pa, e) → veFmt e = target d) → Completes (.volFmt f) s k t (writeD s2 k (resumedLanes t f.g) false f.d fun _ => 1)) ∧
      (∀ v pa e, ts = [v] → tileLeaf v = some (pa, e) → veFmt e ≠ target d → homeNat (leavePhys s2 k pa 8) pa 8 = e.toNat → badAt (leavePhys s2 k pa 8) pa 8 = false →
        r.2 = [{ tile := tileKey v.tile, pa := pa, leaf := e }] ∧ (pa + 8 ≤ 2 ^ 48 → homeNat r.1 pa 8 = (e ||| 1#64 <<< 61).toNat))) ∧
    (∀ core slot kk u w, waitingKey s core slot (waitsFor .cymbal) = some kk → s.team kk = some u → u.work = some w → u.state = .waiting →
      (w.fmt = none →
        let pushed := doPushes s (ctxPart s u.oid) (teamWho u kk) w
        (w.fault = none → ∃ s', exec (.cymbalComplete core slot) s = .next s' ∧ (∃ u', s'.team kk = some u' ∧ u'.state = .ready ∧ u'.work = none ∧ u'.waitKind = .none ∧ u'.wait = 0 ∧ u'.v = u.v ∧ u'.s = u.s ∧ u'.h = u.h ∧ u'.i = u.i) ∧
          (∀ pa, w.version = some pa → AtHome s → pa + 4 ≤ 2 ^ 48 → homeNat s' pa 4 = (homeNat pushed pa 4 + 1) % 2 ^ 32)) ∧
        (∀ fr, w.fault = some fr → exec (.cymbalComplete core slot) s =
          .next (deliverWait (match w.version with | some pa => raiseVersion pushed kk pa | none => pushed) kk u fr))) ∧
      (∀ x, w.fmt = some x →
        let r := fmtItems kk u x x.items s
        (fmtFault u x r.2 = none → ∃ s', exec (.cymbalComplete core slot) s = .next s' ∧
          (∃ u', s'.team kk = some u' ∧ u'.state = .ready ∧ u'.work = none ∧ u'.waitKind = .none ∧ u'.wait = 0) ∧
          (x.dst.isVK = true → ∀ L, L < u.width → L < 1024 → (fmtGood x r.2).getLsbD L = true → reg s' kk false x.dst L = BitVec.ofNat 64 (fmtStatus x r.2 L))) ∧
        (∀ fr, fmtFault u x r.2 = some fr → (fr.cause = cTileFormat ∨ fr.cause = cUncorrectable) ∧ fr.h = u.h ∧ fr.i = u.i ∧
          ∃ s', exec (.cymbalComplete core slot) s = .next s')))

/-- Whenever one of the seven issues (the team-wide ones unguarded or passed), with no hold at a peer, no data snare on what it reaches (log entry 68), its records reached and the checks of R291 passed, it completes: sx.pin is a dev acquire that writes token 0 for an empty list and otherwise raises the pins by one and writes the token, or raises PINS at the limit; sx.unpin releases and, for a current version, lowers the list's pins, for a superseded one its own, which with the last pin retires it, and waits while the list is being edited; sx.ld binds each lane to its element's bytes at the home slice and sx.st stores the low e bytes of each lane there, both with RANGE for indices at or above the total and HANDLE for a type that does not suit; sx.where writes offset and place, or all ones; sx.len writes total, count, start or length, or all ones; sx.next returns an arrival, a resident piece, END or PENDING, or waits; one that has been woken does not validate its token again. A stale token raises STALE before any header is read, and one with no pins UNPINNED. A located index lies in its piece. What the wait records of sx.unpin and sx.next hold is log entry 24, and that a team-wide form which resumes with no lane left completes is log entry 62. -/
def Obligations.StitchReads : Prop :=
  (∀ (f : VR) (s : State) (k : Nat) (t : Team), peerHold s k = false →
    let m := resumedLanes t f.g
    let lanes := maskLanes m t.width
    let tok := opdS s k t f.b
    let rw := accR + accW
    let stitch := fun (i : Instr) (s1 : State) (mask : Mask) (lane why : Nat) => Traps i s k t s1 { bits := cStitch, addr := BitVec.ofNat 64 (lane * 2 ^ 22 + why), mask := mask }
    let version := fun (s1 : State) (v : SVer) => TokenGoes s k t m tok s1 v
    let references := fun (s1 : State) (v : SVer) (s2 : State) (pg : Table Nat) (refs : List (Nat × Nat)) => RefsGo s1 k t m v.va v.count s2 pg refs
    let left := fun (i : Instr) (acts : Prop) => Once i f.g s k t ((¬ someLeft t f.g → Completes i s k t s) ∧ (someLeft t f.g → acts))
    let puts := fun (s1 : State) (v : W64) => writeS s1 k f.d v
    (Issues (.sxPin f) s k t → left (.sxPin f) (
      let va := extVA tok
      let pins := match peekHdr (drain s k t) t.oid va with | some h => decide (h.current ≠ 0) | none => false
      wordsSnare s k t m ((va, 128, accR) :: if pins then [(va + 24, 8, rw)] else []) = none →
      ∀ s1 h, HeaderGoes s k t m va s1 h →
        (h.current = 0 → Completes (.sxPin f) s k t (puts (acquire s1 k t 2) 0)) ∧
        (h.current ≠ 0 → h.pins = 2 ^ 32 - 1 → stitch (.sxPin f) s1 m 0 8) ∧
        (h.current ≠ 0 → h.pins ≠ 2 ^ 32 - 1 → ∀ s2 pg, ReachesAll s1 k t m [(va, 128, rw), (va + 24, 8, rw)] [] s2 pg →
          Completes (.sxPin f) s k t (puts (acquire (stPut s2 k t pg (va + 24) 4 (h.pins + 1)) k t 2)
            (BitVec.ofNat 64 (h.current / 4096 * 4096 + h.serial % 4096)))))) ∧
    (Issues (.sxUnpin f) s k t → peerOut s k = false → left (.sxUnpin f) (
      let s0 := drain s k t
      (tok = 0 → Completes (.sxUnpin f) s k t s0) ∧
      (tok ≠ 0 → wordsSnare s0 k t m (unpinWords s0 t.oid tok) = none → ∀ s1 v, TokenNames s0 k t m tok s1 v →
        (v.hdr.edit = true → Waits (.sxUnpin f) s k t s1 .edit (waitMake [(0, v.hdr.va)])) ∧
        (v.hdr.edit = false → v.pins = 0 → stitch (.sxUnpin f) s1 m 0 2) ∧
        (v.hdr.edit = false → v.pins ≠ 0 → xva v.hdr.current = v.va → ∀ s2 pg refs, UnpinGoes s1 k t m v (v.hdr.va + 24, 8, rw) s2 pg refs →
          Completes (.sxUnpin f) s k t (clearWait (stPut s2 k t pg (v.hdr.va + 24) 4 (v.hdr.pins - 1)) k)) ∧
        (v.hdr.edit = false → v.pins ≠ 0 → xva v.hdr.current ≠ v.va → ∀ s2 pg refs, UnpinGoes s1 k t m v (v.va + 24, 8, rw) s2 pg refs →
          let low := stPut s2 k t pg (v.va + 24) 4 (v.pins - 1)
          (v.pins ≠ 1 → Completes (.sxUnpin f) s k t (clearWait low k)) ∧ (v.pins = 1 → Completes (.sxUnpin f) s k t (clearWait (retire low k t pg v refs) k)))))) ∧
    (let n := if f.t = .n64 then 8 else 4
      let snare := fun (kind : Nat) => sxSnare (drain s k t) k t f m kind lanes
      let out := fun (i : Instr) (kind : Nat) => Issues i s k t → lanes ≠ [] → tok ≠ 0 → snare kind = none → ∀ s1 v, version s1 v →
        (decide (f.t = .n64) ≠ decide (v.hdr.size = 8) → stitch i s1 m (lowLane m) 4) ∧
        (decide (f.t = .n64) = decide (v.hdr.size = 8) → ∀ L, (lanes.find? fun L => decide (v.total ≤ sxIndex s1 k t f L)) = some L →
          stitch i s1 (maskOf 1024 fun x => decide (x ∈ lanes ∧ v.total ≤ sxIndex s1 k t f x)) L 3)
      let flush := fun (s1 : State) (ls : List (Nat × Nat × Nat)) => ls.foldl (fun st x => sxFlush st k t x.2.1) s1
      let data := fun (e L : Nat) => leBytes e (opd s k t (decide (f.t = .n64)) f.d L).toNat
      out (.sxLd f) 1 ∧ out (.sxSt f) 2 ∧ (lanes = [] → (Issues (.sxLd f) s k t → Completes (.sxLd f) s k t s) ∧ (Issues (.sxSt f) s k t → Completes (.sxSt f) s k t s) ∧
        (Issues (.sxWhere f) s k t → Completes (.sxWhere f) s k t s)) ∧
      let loaded := fun (st : State) (e : Nat) (ls : List (Nat × Nat × Nat)) => let s1 := flush (settleAll st k t ls) ls
        Completes (.sxLd f) s k t (addLoad s1 k t f.d n 0
          (ls.map fun x => if badAt s1 x.2.2 e then laneOf x none true else laneOf x (some (leBytes n (homeNat s1 x.2.2 e))) false))
      let stored := fun (st : State) (e : Nat) (ls : List (Nat × Nat × Nat)) => Completes (.sxSt f) s k t (
        digest (ls.foldl (fun st x => teamHomeWrite (sxFlush st k t x.2.1) k x.2.1 x.2.2 (data e x.1) (curWord t)) (settleAll st k t ls)) k (ls.map fun x => (x.2.1, data e x.1)))
      let goes := fun (i : Instr) (acc : Nat) (ends : State → Nat → List (Nat × Nat × Nat) → Prop) => Issues i s k t → ∀ s1 e xs, ElementsGo s k t f acc s1 e xs →
        (∀ s2 ls, checkLanes s1 k t e acc xs = .go s2 ls → (∀ x ∈ ls, isPeer x.2.2 = false) → ends s2 e ls) ∧
        (∀ pa : Nat → Nat, (∀ x ∈ xs, x.2 % e = 0 ∧ Mapped s1 k t acc x.2 (pa x.1)) → ends s1 e (xs.map fun x => (x.1, x.2, pa x.1)))
      goes (.sxLd f) accR loaded ∧ goes (.sxSt f) accW stored) ∧
    (Issues (.sxWhere f) s k t → lanes ≠ [] →
      let both := fun (s1 : State) (a b : Nat → W64) => Completes (.sxWhere f) s k t (writeD (writeD s1 k m false f.d a) k m false (Opd.next f.d 1) b)
      (tok = 0 → both s (fun _ => BitVec.allOnes 64) (fun _ => BitVec.allOnes 64)) ∧
      (tok ≠ 0 → sxSnare (drain s k t) k t f m 0 lanes = none → ∀ s1 v s2 pg refs s3 pg3, version s1 v → references s1 v s2 pg refs →
        ReachesAll s2 k t m ((hitRecs (sxHits s2 k t f refs v.total lanes)).map fun p => (xva p, 64, accR)) pg s3 pg3 →
        ∃ a b, both s3 a b ∧ ∀ L ∈ lanes, match locate refs v.total (sxIndex s2 k t f L) with
          | some (i, off) => a L = BitVec.ofNat 64 off ∧ b L = BitVec.ofNat 64 (i % 2 ^ 13 + pieceNat s3 t.oid pg3 (refs.getD i (0, 0)).1 16 1 % 4 * 2 ^ 16)
          | none => a L = BitVec.allOnes 64 ∧ b L = BitVec.allOnes 64)) ∧
    (Issues (.sxLen f) s k t → left (.sxLen f) (
      let mode := fld f.m 0 2
      let a := if f.a.isN then 0 else offS s k t f.a
      let gives := fun (s1 : State) (v : W64) => Completes (.sxLen f) s k t (puts s1 v)
      (tok = 0 → gives s (if mode < 2 then 0 else BitVec.allOnes 64)) ∧
      (tok ≠ 0 → (∀ v, peekVer (drain s k t) t.oid tok = some v → wordsSnare s k t m (verWords v (decide (2 ≤ mode ∧ a < v.count))) = none) → ∀ s1 v, version s1 v →
        (mode = 0 → gives s1 (BitVec.ofNat 64 v.total)) ∧ (mode = 1 → gives s1 (BitVec.ofNat 64 v.count)) ∧
        (2 ≤ mode → v.count ≤ a → gives s1 (BitVec.allOnes 64)) ∧
        (∀ s2 pg refs, a < v.count → references s1 v s2 pg refs →
          (mode = 2 → gives s2 (BitVec.ofNat 64 (refs.getD a (0, 0)).2)) ∧ (mode = 3 → gives s2 (BitVec.ofNat 64 (refLen refs v.total a))))))) ∧
    (Issues (.sxNext f) s k t → left (.sxNext f) (
      let core := keyCore k
      let c := offS s k t f.a
      let rd := fun (off n : Nat) => spNat s t.gang core (c + off) n
      let here := fun (bits : W64) => Traps (.sxNext f) s k t s { bits := bits, addr := BitVec.ofNat 64 c, mask := lanesOf t f.g }
      (c % 64 ≠ 0 → here cMisalign) ∧ (c % 64 = 0 → spAlloc s t < c + 192 → here cScratch) ∧
      (c % 64 = 0 → c + 192 ≤ spAlloc s t → ∀ s2 pg refs total size,
        ((BitVec.ofNat 64 (rd 0 8) = 0 ∧ s2 = s ∧ pg = [] ∧ refs = [] ∧ total = 0 ∧ size = 1) ∨ (BitVec.ofNat 64 (rd 0 8) ≠ 0 ∧ (∀ v, peekVer (drain s k t) t.oid (BitVec.ofNat 64 (rd 0 8)) = some v → wordsSnare s k t m (verWords v true) = none) ∧ ∃ s1 v,
          (if nextWoken t c then TokenAgain s k t m (BitVec.ofNat 64 (rd 0 8)) s1 v else TokenGoes s k t m (BitVec.ofNat 64 (rd 0 8)) s1 v) ∧ references s1 v s2 pg refs ∧ total = v.total ∧ size = v.hdr.size)) →
        (rd 14 2 ≠ rd 12 2 →
          let e := rd (64 + 2 * (rd 14 2 % 64)) 2
          let status := if e.testBit 15 then 3 else 0
          let s3 := spWriteNat s2 t.gang core (c + 14) 2 ((rd 14 2 + 1) % 2 ^ 16)
          Completes (.sxNext f) s k t (puts (clearWait (if status = 0 then acquire s3 k t 2 else s3) k) (BitVec.ofNat 64 (e % 2 ^ 13 + status * 2 ^ 62)))) ∧
        (rd 14 2 = rd 12 2 →
          let i := rd 8 2
          let note := fun (st : State) (scan : Nat) => spWriteNat (spWriteNat st t.gang core (c + 8) 2 scan) t.gang core (c + 10) 2 (rd 10 2)
          let rec0 := waitMake [(0, c), (6, Opd.code f.d)]
          (∀ s3 pg3, i < refs.length → (rd 10 2 + 2 ^ 16 - rd 14 2) % 2 ^ 16 < 64 → ReachesAll s2 k t m [(xva (refs.getD i (0, 0)).1, 64, accR)] pg s3 pg3 →
            resident s3 t.oid (xva (pieceNat s3 t.oid pg3 (refs.getD i (0, 0)).1 0 8)) (size * refLen refs total i) = true →
            Completes (.sxNext f) s k t (puts (clearWait (acquire (note s3 (i + 1)) k t 2) k) (BitVec.ofNat 64 i))) ∧
          (refs.length ≤ i → rd 10 2 = rd 14 2 → Completes (.sxNext f) s k t (puts (clearWait (note s2 i) k) (BitVec.ofNat 64 (2 * 2 ^ 62)))) ∧
          (refs.length ≤ i → rd 10 2 ≠ rd 14 2 → f.m.getLsbD 0 = true → Completes (.sxNext f) s k t (puts (clearWait (note s2 i) k) (BitVec.ofNat 64 (2 ^ 62)))) ∧
          (refs.length ≤ i → rd 10 2 ≠ rd 14 2 → f.m.getLsbD 0 = false → Waits (.sxNext f) s k t (note s2 i) .next rec0)))))) ∧
  (∀ (s : State) (k : Nat) (t : Team) (m : Mask) (lane : Nat) (tok : W64) (s1 : State) (pa : Nat) (go : State → SVer → Res),
    Reached s k t m 4096 64 accR (extVA (tok &&& ~~~ 0xfff#64)) s1 pa →
    let n := fun (off w : Nat) => homeNat s1 (pa + off) w
    ((n 28 1 ≠ 1 ∧ n 28 1 ≠ 2) ∨ n 18 2 % 4096 ≠ t.oid ∨ n 20 4 % 4096 ≠ tok.toNat % 4096 →
      tokenFront s k t m lane tok go = .trap s1 { bits := cStitch, addr := BitVec.ofNat 64 (lane * 2 ^ 22 + 1), mask := m })) ∧
  (∀ (refs : List (Nat × Nat)) (total x i off : Nat), locate refs total x = some (i, off) →
    i < refs.length ∧ x = (refs.getD i (0, 0)).2 + off ∧ off < refLen refs total i)

/-- Whenever an edit form issues, unguarded or passed, with no request at a peer and no data snare on what it reaches (log entry 68), it is a release; a list under another's edit makes the team wait for it. sx.splice writes SERIAL, RANGE, FULL or an unchanged OK, sx.trunc RANGE or an unchanged OK, and sx.fork NOT_EMPTY, OK for an empty source, SIZE, or OVERFLOW, each with the serial: such a word completes, and the list is as it was; sx.append raises RANGE for a count outside 1 to 2^32 - 1 (log entry 30). Otherwise, once the words, pools and blocks of R282 and R284 are reached, the word begins its edit: EDIT is set and the team waits with it. Publication writes the result to D, clears EDIT, and the team goes on past its word. A team that waits for another's edit issues again once EDIT is 0. A page-in whose pages are all resident sets the record's tier to 0 and enters the piece as an arrival, which raises arrived by one and wakes exactly the teams that wait on the cursor; a failed page-in as a FAILED one. A dead piece whose record is not POOLED just leaves the queue; otherwise its leaves are freed and shot down, its frames pushed, its used count set to 0 and its record pushed to the piece pool; while a word of its records is paged in, it waits. What the wait record of an edit holds is log entry 24, and that a form which resumes with no lane left completes is log entry 62. -/
def Obligations.StitchEditsAndTheirEngines : Prop :=
  (∀ (f : VR) (s : State) (k : Nat) (t : Team), peerHold s k = false → peerOut s k = false →
    let m := resumedLanes t f.g
    let left := fun (i : Instr) (acts : Prop) => Once i f.g s k t ((¬ someLeft t f.g → Completes i s k t s) ∧ (someLeft t f.g → acts))
    let arg := fun (st : State) (j : Nat) => (opdS st k t (Opd.next f.a j)).toNat
    let s0 := drain s k t
    let quiet := fun (va : Nat) (words : SHdr → List (Nat × Nat × Nat)) => wordsSnare s0 k t m (handleWords s0 t.oid va words) = none
    let list := fun (s1 : State) (h : SHdr) => HeaderGoes s0 k t m (xva (arg s0 0)) s1 h
    let wait := fun (i : Instr) (s1 : State) (va : Nat) => Waits i s k t s1 .edit (waitMake [(0, va)])
    let over' := fun (i : Instr) (s1 : State) (code serial : Nat) => Completes i s k t (freeEdit (writeS (clearWait s1 k) k f.d (BitVec.ofNat 64 (code + serial % 2 ^ 32 * 2 ^ 32))) k t)
    let begun := fun (i : Instr) (s1 : State) (x : Edit) => wait i ((stPut s1 k t x.pages (x.header + 21) 1 1).modTeam k fun u => { u with edit := some x, holdsEdit := none }) x.header
    let plain := fun (i : Instr) (s1 : State) (h : SHdr) (old new : List (Nat × Nat)) (total : Nat) (pg : Table Nat) => ∀ s2 pg2 s3 pg3 b,
      EditGoes s1 k t m h ((old ++ new).map (·.1)) [h.vpool] pg s2 pg2 → BlockGoes s2 k t m h new pg2 s3 pg3 b →
      begun i (takeVersion s3 k t h b pg3) { header := h.va, block := b, refs := new, total := total % 2 ^ 64, result := editStatus 0 (h.serial + 1), dst := f.d, path := 0, tail := 0, piece := 0, count := 0, tailLen := 0, pages := pg3 }
    let current := fun (s1 : State) (h : SHdr) (s2 : State) (pg : Table Nat) (refs : List (Nat × Nat)) => CurrentGoes s1 k t m h s2 pg refs
    (Issues (.sxTrunc f) s k t → left (.sxTrunc f) (quiet (xva (arg s0 0)) (fun h =>
        let old := (curRefs s0 t.oid h).map (·.1)
        if editTaken t h || decide (h.total ≤ arg s0 1) then [] else curWords h ++ editWords s0 t.oid h old [h.vpool] (decide (arg s0 1 ≠ 0))) →
      ∀ s1 h, list s1 h → let n := arg s1 1
      (editTaken t h = true → wait (.sxTrunc f) s1 h.va) ∧
      (editTaken t h = false → h.total < n → over' (.sxTrunc f) s1 2 h.serial) ∧
      (editTaken t h = false → n = h.total → over' (.sxTrunc f) s1 0 h.serial) ∧
      (editTaken t h = false → n < h.total → ∀ s2 pg old, current s1 h s2 pg old → plain (.sxTrunc f) s2 h old (old.filter fun r => decide (r.2 < n)) n pg))) ∧
    (Issues (.sxSplice f) s k t → left (.sxSplice f) (∀ sa pa sb s1 h, let nSrc := bitsAt (arg s 1) 48 16
      let stok := BitVec.ofNat 64 (arg s 2)
      let none' := nSrc = 0 ∨ stok = 0
      quiet (xva (arg s 0)) (spliceWords s0 k t f (if nSrc = 0 then 0 else stok)) →
      Reached s0 k t m 128 128 accR (xva (arg s 0)) sa pa →
      ((none' ∧ sb = sa) ∨ (¬ none' ∧ ∃ q, Reached sa k t m 4096 64 accR (extVA (stok &&& ~~~ 0xfff#64)) sb q)) →
      HeaderGoes sb k t m (xva (arg s 0)) s1 h →
      let body := fun (s2 : State) (src : List (Nat × Nat)) (total size : Nat) =>
        let w := arg s2 1
        let p := bitsAt w 0 16
        let r := bitsAt w 16 16
        let j := bitsAt w 32 16
        let n := bitsAt w 48 16
        let want := arg s2 3
        let serialOk := want = 2 ^ 64 - 1 ∨ want = h.serial
        let inRange := p + r ≤ h.count ∧ (0 < n → j + n ≤ src.length ∧ size = h.size)
        (editTaken t h = true → wait (.sxSplice f) s2 h.va) ∧
        (editTaken t h = false → ¬serialOk → over' (.sxSplice f) s2 1 h.serial) ∧
        (editTaken t h = false → serialOk → ¬inRange → over' (.sxSplice f) s2 2 h.serial) ∧
        (editTaken t h = false → serialOk → inRange → h.max < h.count - r + n → over' (.sxSplice f) s2 3 h.serial) ∧
        (editTaken t h = false → serialOk → inRange → h.count - r + n ≤ h.max → r = 0 → n = 0 → over' (.sxSplice f) s2 0 h.serial) ∧
        (editTaken t h = false → serialOk → inRange → h.count - r + n ≤ h.max → r ≠ 0 ∨ n ≠ 0 → ∀ s3 pg old, current s2 h s3 pg old →
          let new := (withLens old h.total).take p ++ ((withLens src total).drop j).take n ++ (withLens old h.total).drop (p + r)
          plain (.sxSplice f) s3 h old (restart 0 new) ((new.map (·.2)).sum) pg)
      (none' → body s1 [] 0 h.size) ∧
      (¬ none' → ∀ s2 v s3 pg src, TokenGoes s1 k t m stok s2 v → RefsGo s2 k t m v.va v.count s3 pg src → body s3 src v.total v.hdr.size))) ∧
    (Issues (.sxFork f) s k t → left (.sxFork f) (
      let va := xva (arg s 0)
      let vb := xva (arg s 1)
      wordsSnare s0 k t m (forkWords s0 t va vb) = none →
      (va % 128 = 0 → vb % 128 ≠ 0 → Traps (.sxFork f) s k t s { bits := cMisalign, addr := BitVec.ofNat 64 vb, mask := m }) ∧
      ∀ sa pa s1 pb, Reached s0 k t m 128 128 accR va sa pa → Reached sa k t m 128 128 accR vb s1 pb →
      let src := stHdr s1 va pa
      let h := stHdr s1 vb pb
      (src.good = false ∨ h.good = false → Traps (.sxFork f) s k t (freeEdit s1 k t) { bits := cStitch, addr := BitVec.ofNat 64 4, mask := m }) ∧
      (src.good = true → h.good = true →
        (editTaken t h = true → wait (.sxFork f) s1 vb) ∧
        (editTaken t h = false → h.current ≠ 0 → over' (.sxFork f) s1 1 h.serial) ∧
        (editTaken t h = false → h.current = 0 → src.current = 0 → over' (.sxFork f) s1 0 h.serial) ∧
        (editTaken t h = false → h.current = 0 → src.current ≠ 0 → src.size ≠ h.size ∨ h.max < src.count → over' (.sxFork f) s1 2 h.serial) ∧
        (editTaken t h = false → h.current = 0 → src.current ≠ 0 → src.size = h.size → src.count ≤ h.max → ∀ s2 pg refs s3 pg3, current s1 src s2 pg refs →
          EditGoes s2 k t m h (refs.map (·.1)) [] pg s3 pg3 →
          (forkOverflow s3 t.oid pg3 (refs.map (·.1)) = true → over' (.sxFork f) s3 3 h.serial) ∧
          (forkOverflow s3 t.oid pg3 (refs.map (·.1)) = false → plain (.sxFork f) s3 h [] refs src.total pg3))))) ∧
    (Issues (.sxAppend f) s k t → left (.sxAppend f) (quiet (xva (arg s0 0)) (fun h => appendWords s0 k t f h) → ∀ s1 h, list s1 h →
      let n := arg s1 1
      (editTaken t h = true → wait (.sxAppend f) s1 h.va) ∧
      (editTaken t h = false → n < 1 ∨ 2 ^ 32 - 1 < n → Traps (.sxAppend f) s k t (freeEdit s1 k t) { bits := cStitch, addr := BitVec.ofNat 64 3, mask := m }) ∧
      (editTaken t h = false → 1 ≤ n → n ≤ 2 ^ 32 - 1 → ∀ s2 pg old s3 pg3 s4' pg4' s4 pg4 b p st, current s1 h s2 pg old → old.getLast? = some (p, st) →
        EditGoes s2 k t m h (old.map (·.1)) [h.vpool] pg s3 pg3 → BlockGoes s3 k t m h [(0, 0)] pg3 s4' pg4' b →
        holders s4' t.oid pg4' p = 1 → fits s4' t.oid pg4' p (h.total - st) n = true → ReachesAll s4' k t m [(xva p + 8, 8, accR + accW)] pg4' s4 pg4 →
        begun (.sxAppend f) (takeVersion s4 k t h b pg4) { header := h.va, block := b, refs := old, total := (h.total + n) % 2 ^ 64, result := BitVec.ofNat 64 h.total, dst := f.d, path := 1, tail := p, piece := 0, count := n, tailLen := h.total - st, pages := pg4 })))) ∧
  (∀ (s : State) (core slot kk : Nat) (u : Team), waitingKey s core slot (waitsFor .edit) = some kk → s.team kk = some u → u.state = .waiting →
    (∀ x, u.edit = some x → ∃ s', exec (.stitchEditPublish core slot) s = .next s' ∧
      (∃ u', s'.team kk = some u' ∧ u'.state = .ready ∧ u'.edit = none ∧ u'.waitKind = .none ∧ u'.h = u.h ∧ u'.i = u.i + 1) ∧
      (x.dst.isSK = true → reg s' kk true x.dst 0 = x.result) ∧
      (∀ b, x.pages.find (x.header / 2 ^ 18) = some b → x.header % 128 = 0 → b + 2 ^ 18 ≤ 2 ^ 48 → s.bad = [] → homeByte s' (b + (x.header + 21) % 2 ^ 18) = 0)) ∧
    (u.edit = none → exec (.stitchEditPublish core slot) s = .next (if editFree s u then s.setTeam kk { u with state := .ready } else s))) ∧
  (∀ s : State, ((∀ x ∈ s.sxPages, x.cluster ≠ clusterOf s.sel.core) → exec .stitchPageIn s = .next s) ∧
    ((∀ x ∈ s.deaths, x.cluster ≠ clusterOf s.sel.core) → exec .pieceDeath s = .next s) ∧
    (∀ x s1, (s.sxPages.find? fun x => decide (x.cluster = clusterOf s.sel.core)) = some x →
      let left := fun (st : State) => { st with sxPages := st.sxPages.erase x }
      (sxPagesIn x (pageVas x.base x.len) s = (s1, .wait) → exec .stitchPageIn s = .next s1) ∧
      (sxPagesIn x (pageVas x.base x.len) s = (s1, .failed) → exec .stitchPageIn s = .next (arrive (left s1) x true)) ∧
      (∀ s2 pa, sxPagesIn x (pageVas x.base x.len) s = (s1, .done) → engineWord s1 x.cluster x.oid (x.prec + 16) accW = (s2, .at pa) →
        exec .stitchPageIn s = .next (arrive (left (homePutNat s2 none pa 1 0)) x false))) ∧
    (∀ (x : SxPage) (failed : Bool), (∃ g, s.gang x.gang = some g) → x.cursor + 192 ≤ 2 ^ 20 →
      let n := spNat s x.gang x.core (x.cursor + 12) 2
      let s' := arrive s x failed
      spNat s' x.gang x.core (x.cursor + 12) 2 = (n + 1) % 2 ^ 16 ∧ s'.mem = s.mem ∧
      spNat s' x.gang x.core (x.cursor + 64 + 2 * (n % 64)) 2 = (x.piece + if failed then 2 ^ 15 else 0) % 2 ^ 16 ∧
      ∀ e u, s.team e = some u →
        let waits := u.gang = x.gang ∧ keyCore e = x.core ∧ u.waitKind = .next ∧ u.state = .waiting ∧ waitField u.wait 0 4 = x.cursor
        (waits → s'.team e = some { u with state := .ready }) ∧ (¬waits → s'.team e = some u)) ∧
    (∀ x s1 pa, (s.deaths.find? fun x => decide (x.cluster = clusterOf s.sel.core)) = some x → engineWord s x.cluster x.oid (xva x.prec) accR = (s1, .at pa) →
      badAt s1 pa 64 = false →
      let left := fun (st : State) => { st with deaths := st.deaths.erase x }
      (homeNat s1 (pa + 17) 1 % 2 = 0 → exec .pieceDeath s = .next (left s1)) ∧
      (homeNat s1 (pa + 17) 1 % 2 = 1 → ∀ s2, engineWord s1 x.cluster x.oid (xva x.prec) (accR + accW) = (s2, .wait) → exec .pieceDeath s = .next s2) ∧
      (∀ s2 pu s3 d q, homeNat s1 (pa + 17) 1 % 2 = 1 → engineWord s1 x.cluster x.oid (xva x.prec) (accR + accW) = (s2, .at pu) →
        deathPush s2 x = (s3, d, q) → d ≠ .wait → q ≠ .wait →
        let b := xva (homeNat s1 pa 8)
        let vas := pageVas b (x.esize * homeNat s1 (pa + 8) 4)
        let lo := b / 2 ^ 18 * 2 ^ 18
        let n := vas.length * 2 ^ 18
        let p := ctxPart s x.oid
        rangeBusy s x.oid lo n = false →
        let fr := freeLeaves ((leafErrs s3 x.oid vas).foldl (fun st va => engineRecord st p x.oid va rUncorrTable accR 0 0 0) s3) none x.oid vas
        let s4 := shootRange (performRange (shootRange fr.1 x.oid lo n) x.oid lo n) x.oid lo n
        let s5 := doPushes s4 p { oid := x.oid, va := 0, acc := 8, core := 0xff, slot := 0 } { pushes := fr.2.map fun y => (pagePool s4 p y.1, y.2), frames := fr.2.length, version := none, fault := none, fmt := none }
        exec .pieceDeath s = .next (left (deathPushed (homePutNat s5 none (pu + 12) 4 0) x d q)))))

/-- A frame that is delivered latches %epc, %einst, %ehdr, %ecause, %eaddr, %emask and %eexec = E and clears %epend; with a handler the team enters it once its store is free and no older team waits for it, with kv and ks zeroed and E = %emask, and otherwise waits for it, until handlerEntry enters it; without a handler, containment acts, as it does from the gang level up for SCRATCH: IGNORE goes on past the word (or where the frame says), RETRY goes on at it, KILL_SELF ends the team. trap.user, outside a handler, is such a frame with USER, IMM16 and resume point (H, i + 1). A trap below 0x8000 releases and parks the team past its word, with its entry posted when the host ring has room, or raises PAGE where the ring does not translate; a reply of state 1 is an acquire, gives D its value and makes the team READY. A call that found its ring full is posted later, and one whose ring no longer translates then fails as its trap does. rte outside a handler raises ILLEGAL_OP; in it, held causes re-enter the handler with NESTED (with a SCRATCH among them their frame goes to containment from the gang level up), and otherwise the team leaves handler mode with E = %eexec at %epc, or, for rte.up, its frame goes to containment; the store is free; the yields and sleeps of the clause act. Model's own (log entries 24, 31 and 62): the wait record of a parked team; the release, the %epc of (H, i + 1) in the entry, the order of wait and post, and the frame of a call that fails later; SCRATCH at the gang level and the lanes of a resumed vol or sx instruction. -/
def Obligations.TrapsHandlersAndReturns : Prop :=
  (∀ (s : State) (k : Nat) (t : Team) (fr : Frame), s.team k = some t →
    let latched := fun (t' : Team) => t'.epc = packEpc fr.h fr.i ∧ t'.einst = fr.inst ∧ t'.ehdr = fr.hdr ∧ t'.ecause = fr.cause ∧ t'.eaddr = fr.addr ∧
      t'.emask = fr.mask ∧ t'.eexec = t.e ∧ t'.epend = 0 ∧ t'.clause = [] ∧ t'.v = t.v ∧ t'.s = t.s ∧ t'.p = t.p
    let s' := deliver s k fr
    (fr.cause &&& cScratch ≠ 0 → s' = contain (latchFrame s k fr) k 1) ∧ (fr.cause &&& cScratch = 0 →
    (hentry s t ≠ 0 → ∃ t', s'.team k = some t' ∧ latched t' ∧ t'.state = .ready ∧
      (storeFree s k = true → olderEntering s k t = false → t'.handler = true ∧ t'.entering = false ∧ t'.h = hentry s t ∧ t'.i = 0 ∧ t'.e = fr.mask ∧
        storeFree s' k = false ∧ (∀ n, n < 16 → kvReg s' k n = 0) ∧ (∀ n, n < 8 → ksReg s' k n = 0)) ∧
      (storeFree s k = false → t'.entering = true ∧ t'.handler = t.handler ∧ t'.h = t.h ∧ t'.e = t.e)) ∧
    (hentry s t = 0 → t.policy = 0 → fr.cause &&& (cUser ||| cAsync ||| cFp 31) = 0 → fr.i < 31 → ∃ t', s'.team k = some t' ∧ latched t' ∧ t'.handler = false ∧
      t'.h = epcH (packEpc fr.h fr.i) ∧ t'.i = fr.i + 1 ∧ t'.e = t.e ∧ t'.state = .ready) ∧
    (hentry s t = 0 → t.policy = 1 → fr.i < 32 → ∃ t', s'.team k = some t' ∧ latched t' ∧ t'.h = epcH (packEpc fr.h fr.i) ∧ t'.i = fr.i ∧ t'.e = t.e ∧ t'.state = .ready) ∧
    (hentry s t = 0 → t.policy = 2 → t.state ≠ .exiting → ∃ t', s'.team k = some t' ∧ t'.state = .exiting) ∧
    (headerOk fr.h = true → epcH (packEpc fr.h fr.i) = fr.h) ∧ (∀ k', k' ≠ k → t.policy < 3 → s'.team k' = s.team k') ∧ (t.policy < 3 → s'.mem = s.mem ∧ s'.gangs = s.gangs))) ∧
  (∀ (s : State) (core slot : Nat) (t : Team), s.team (s.activeKey core slot) = some t → t.entering = true →
    (storeFree s (s.activeKey core slot) = true → olderEntering s (s.activeKey core slot) t = false →
      ∃ s' t', exec (.handlerEntry core slot) s = .next s' ∧ s'.team (s.activeKey core slot) = some t' ∧ t'.handler = true ∧ t'.entering = false ∧
        t'.h = hentry s t ∧ t'.i = 0 ∧ t'.e = t.emask ∧ t'.epc = t.epc) ∧
    (storeFree s (s.activeKey core slot) = false → exec (.handlerEntry core slot) s = .next s)) ∧
  (∀ (f : SYS) (s : State) (k : Nat) (t : Team),
    (Issues (.trapUser f) s k t → Once (.trapUser f) f.g s k t (Traps (.trapUser f) s k t s { bits := cUser, addr := f.lo.zeroExtend 64, mask := lanesOf t f.g, past := true } ∧
      (t.handler = false → hentry s t ≠ 0 → storeFree s k = true → olderEntering s k t = false → ∃ s' t', exec (.trapUser f) s = .next s' ∧ s'.team k = some t' ∧
        t'.handler = true ∧ t'.ecause = cUser ∧ t'.eaddr = f.lo.zeroExtend 64 ∧ t'.epc = packEpc t.h (t.i + 1) ∧ t'.emask = lanesOf t f.g ∧ t'.eexec = t.e ∧ t'.s = t.s ∧ t'.v = t.v))) ∧
    (Issues (.trapSystemCall f) s k t → peerHold s k = false → peerOut s k = false → Once (.trapSystemCall f) f.g s k t (
      let ring := xva (match s.ctx t.oid with | some c => c.hostRing | none => 0)
      let m := lanesOf t f.g
      let parked := fun (st : State) => st.modTeam k fun u => { u with state := .parked, waitKind := .call, hostWord := curWord t, hostHdr := curHdr t, hostMask := m, callEntry := 0, wait := waitMake [(16, (curWord t).toNat)] }
      (∀ sx r e, xlat (drain s k t) (some (keyCore k)) (clusterOf (keyCore k)) t.oid ring (accR + accW) = (sx, .fail r e) → r ≠ rUncorrTable →
        Traps (.trapSystemCall f) s k t sx { bits := cPage ||| cReason r, addr := BitVec.ofNat 64 ring, mask := m }) ∧
      ∀ s1 pg, PagesTranslate (drain s k t) k t (accR + accW) ring 64 → ReachesAll (drain s k t) k t m [(ring, 64, accR + accW)] [] s1 pg →
        let pa := (stPa s1 t.oid pg ring).getD 0
        (ringRoom s1 pa = false → exec (.trapSystemCall f) s = .next (parkedPast (parked s1) k t)) ∧
        (ringRoom s1 pa = true → ∀ s2 pg2, let e := ringEntryVa s1 ring pa
          PagesTranslate s1 k t accW e 64 → ReachesAll s1 k t m [(e, 64, accW)] pg s2 pg2 →
          let s3 := touchD (touchD s2 (clusterOf (keyCore k)) t.oid ring) (clusterOf (keyCore k)) t.oid e
          exec (.trapSystemCall f) s = .next (parkedPast (postCall (parked s3) k { t with hostWord := curWord t } f.lo.toNat (t.i + 1) e pa ((stPa s3 t.oid pg2 e).getD 0)) k t)))) ∧
    (Issues (.rte f) s k t → (t.handler = false → Traps (.rte f) s k t s { bits := cIllegalOp, addr := wordAddr t.h t.i, mask := t.e }) ∧
      (t.handler = true → t.epend &&& cScratch = 0 → ∃ s' t', exec (.rte f) s = .next s' ∧ s'.team k = some t' ∧ t'.clause = [] ∧ t'.v = t.v ∧ t'.s = t.s ∧ t'.p = t.p ∧
        (t.epend = 0 → t'.handler = false ∧ t'.e = t.eexec ∧ t'.h = epcH t.epc ∧ t'.i = epcI t.epc ∧ storeFree s' k = (storeFree s k || decide ((s.core (keyCore k)).store.find (storeKey k) = some (keySlot k)))) ∧
        (t.epend ≠ 0 → t'.handler = true ∧ t'.ecause = t.epend ||| cNested ∧ t'.einst = t.lInst ∧ t'.ehdr = t.lHdr ∧ t'.eaddr = t.lAddr ∧ t'.emask = t.lMask ∧
          t'.epend = 0 ∧ t'.e = t.lMask ∧ t'.h = hentry s t ∧ t'.i = 0 ∧ t'.epc = t.epc ∧ t'.eexec = t.eexec)) ∧
      (t.handler = true → askOf t = { h := t.h, handler := true, yield := false, sleep := 0 } → t.epend = 0 → ∃ s' t', exec (.rte f) s = .next s' ∧ s'.team k = some t' ∧ t'.state = t.state ∧ t'.wake = t.wake) ∧
      (t.handler = true → t.epend = 0 → t.state = .ready → (askOf t).sleep ≠ 0 → ∃ s' t', exec (.rte f) s = .next s' ∧ s'.team k = some t' ∧ t'.state = .sleeping ∧ t'.wake = s.tick + (askOf t).sleep)) ∧
    (∀ up : Bool, let i : Instr := if up then .rteUp f else .rte f
      Issues i s k t → t.handler = true → t.epend &&& cScratch ≠ 0 →
        let t1 := { setSticky t with asks := t.asks.filter fun b => decide (b.handler ≠ t.handler), cct := some (t.h, s.cycle), stalled := false }
        exec i s = .next (bumpCounter (honourAsk (digestPoint (contain ((freeStore (freePipe (s.setTeam k t1) k) k).setTeam k
          { t1 with ecause := t.epend ||| cNested, einst := t.lInst, ehdr := t.lHdr, eaddr := t.lAddr, emask := t.lMask, epend := 0, clause := [], handler := false, e := t.eexec }) k 1) k t1) k (askOf t)) (keyCore k) 0 (issueCycles t))) ∧
    (Issues (.rteUp f) s k t → (t.handler = false → Traps (.rteUp f) s k t s { bits := cIllegalOp, addr := wordAddr t.h t.i, mask := t.e }) ∧
      (t.handler = true → t.epend = 0 → t.state = .ready → ∃ s' t', exec (.rteUp f) s = .next s' ∧ s'.team k = some t' ∧
        (t.policy = 0 → t'.handler = false ∧ t'.e = t.eexec ∧ t'.h = epcH t.epc ∧
          t'.i = if t.epast then epcI t.epc else epcI t.epc + 1) ∧
        (t.policy = 1 → t'.handler = false ∧ t'.e = t.eexec ∧ t'.h = epcH t.epc ∧ t'.i = epcI t.epc) ∧ (t.policy = 2 → t'.state = .exiting)))) ∧
  (∀ (s : State) (core slot kk : Nat) (u : Team), waitingKey s core slot (fun t => decide (t.waitKind = .call ∧ t.state = .parked)) = some kk → s.team kk = some u → u.callEntry = 0 →
    let ring := xva (match s.ctx u.oid with | some c => c.hostRing | none => 0)
    ∀ s1 x, callXlat s kk u ring (accR + accW) = (s1, x) →
      (∀ r e, x = .fail r e → exec (.systemCallReply core slot) s = .next (callFails s1 kk u ring r)) ∧
      (∀ pa e g w, x = .ok pa e g w → badAt s1 pa 64 = false → ringRoom s1 pa = false → exec (.systemCallReply core slot) s = .next s1) ∧
      (∀ pa e g w, x = .ok pa e g w → badAt s1 pa 64 = false → ringRoom s1 pa = true → ∀ s2 q e' g' w', callXlat s1 kk u (ringEntryVa s1 ring pa) accW = (s2, .ok q e' g' w') →
        let s3 := touchD (touchD s2 (clusterOf (keyCore kk)) u.oid ring) (clusterOf (keyCore kk)) u.oid (ringEntryVa s1 ring pa)
        exec (.systemCallReply core slot) s = .next (postCall s3 kk u (bitsAt u.hostWord.toNat 0 16) u.i (ringEntryVa s1 ring pa) pa q))) ∧
  (∀ (s : State) (core slot kk q : Nat) (u : Team) (f : SYS), waitingKey s core slot (fun t => decide (t.waitKind = .call ∧ t.state = .parked)) = some kk → s.team kk = some u →
    u.callEntry ≠ 0 → stPa s u.oid [] u.callEntry = some q →
    (homeNat s (q + 6) 2 ≠ 1 → exec (.systemCallReply core slot) s = .next s) ∧
    (homeNat s (q + 6) 2 = 1 → parse u.hostWord = .trapSystemCall f → let s1 := acquire (settlePhys s kk q 64) kk u 3
      ∃ s' u', exec (.systemCallReply core slot) s = .next s' ∧ s'.team kk = some u' ∧ u'.state = .ready ∧ u'.waitKind = .none ∧ u'.callEntry = 0 ∧ u'.h = u.h ∧ u'.i = u.i ∧
        (f.d.isSK = true → reg s' kk true f.d 0 = BitVec.ofNat 64 (homeNat s1 (q + 16) 8))))

/-- Whenever frd or fwr issues in handler mode with a register that suits: the value of the user register goes to D (a scalar once, a vector or predicate in the lanes of Lanes), or D goes to the user register. Outside a handler neither issues (D, a handler register, fails check 4: log entry 51), and a register that does not suit raises ILLEGAL_OPERAND. sysrd writes the register named, sysrd and syswr of one the team may not access raise ILLEGAL_OP, and syswr writes %fmode (its defined bits), %epc, %eexec, %hentry or a snare register. hb.rd writes an entry or all ones to the pair, hb.wr, hb.clr, hb.frz and hb.thw change the active bank only, hb.ld and hb.st of an image that is reached complete: a page in the TLB suffices; hb.ld takes a valid image with status 0 and refuses another with 1, hb.st sends the image as stores. clk writes the tick, clk.lamport the Lamport clock, dgst the running digest or 0, once all that the team has committed is folded in. halt stops the team past itself with snare 15. %snhit takes the hit of the lowest stopped slot while it is free, and a resume or clear acts on that team, whichever bank is then active. -/
def Obligations.SystemRegistersHistoryAndClocks : Prop :=
  (∀ (f : SYS) (s : State) (k : Nat) (t : Team),
    let core := keyCore k
    let c := s.core core
    let lanes := lanesOf t f.g
    let n := namedCode s k t f
    let r := f.hi.toNat
    let late := fun (i : Instr) (bits : W64) => Traps i s k t s { bits := bits, addr := wordAddr t.h t.i, mask := t.e }
    (Issues (.frd f) s k t → t.handler = true ∧
      (t.handler = true → namedFits s t f n false = false → late (.frd f) cIllegalOperand) ∧
      (t.handler = true → namedFits s t f n false = true →
        (256 ≤ n → n < 320 → f.d.isSK = true → WritesD (.frd f) s k t f.g f.d true fun _ => t.sreg (n - 256)) ∧
        (n < 256 → WritesD (.frd f) s k t f.g f.d false fun L => (laneV (t.vreg n) L).zeroExtend 64) ∧
        (320 ≤ n → f.d.isVK = true → WritesD (.frd f) s k t f.g f.d false fun L => if (t.preg (n - 320)).getLsbD L then 1 else 0))) ∧
    (Issues (.fwr f) s k t → t.handler = true ∧
      (t.handler = true → namedFits s t f n true = false → late (.fwr f) cIllegalOperand) ∧
      (t.handler = true → namedFits s t f n true = true →
        (∀ m : Fin 64, n = 256 + m.val → WritesD (.fwr f) s k t f.g (.s m) true fun _ => opdS s k t f.d) ∧
        (∀ m : Fin 256, n = m.val → WritesD (.fwr f) s k t f.g (.v m) false fun L => opd s k t false f.d L) ∧
        (∀ m : Fin 8, n = 320 + m.val → WritesP (.fwr f) s k t lanes (.p m) fun L => (opd s k t false f.d L).getLsbD 0))) ∧
    ((Issues (.sysrd f) s k t → Once (.sysrd f) f.g s k t (
        (sysAllowed s t r = false → late (.sysrd f) cIllegalOp) ∧
        (sysAllowed s t r = true → r ≠ 6 → r ≠ 7 → WritesD (.sysrd f) s k t f.g f.d true fun _ =>
          if r = 0 then t.fmode else if r = 1 then t.epc else if r = 2 then t.einst else if r = 3 then t.ehdr else if r = 4 then t.ecause
          else if r = 5 then t.eaddr else if r = 8 then t.epend else if r = 9 then hentry s t else c.snares.get r 0) ∧
        (sysAllowed s t r = true → r = 6 ∨ r = 7 → ∀ m : Fin 8, f.d = .p m → m.val ≠ 7 →
          ∃ s1, Completes (.sysrd f) s k t s1 ∧ predOf s1 k m.val = (if r = 6 then t.emask else t.eexec) ∧ (∀ j, j < 8 → j ≠ m.val → predOf s1 k j = predOf s k j) ∧ s1.cores = s.cores ∧ s1.mem = s.mem))) ∧
      (Issues (.syswr f) s k t → Once (.syswr f) f.g s k t (
        let v := opdS s k t f.a
        (sysRO r = true ∨ sysAllowed s t r = false → late (.syswr f) cIllegalOp) ∧
        (sysRO r = false → sysAllowed s t r = true →
          (r = 0 → Completes (.syswr f) s k t (s.modTeam k fun u => { u with fmode := v &&& 0x3fffb#64 })) ∧
          (r = 1 → Completes (.syswr f) s k t (s.modTeam k fun u => { u with epc := v })) ∧
          (r = 7 → Completes (.syswr f) s k t (s.modTeam k fun u => { u with eexec := opdP t f.a })) ∧
          (∀ kn, r = 9 → s.kernel t.kernel = some kn → Completes (.syswr f) s k t (s.setKernel t.kernel { kn with hentry := v })) ∧
          (0x20 ≤ r → r < 0x30 → ∃ s1, Completes (.syswr f) s k t s1 ∧ (s1.core core).snares.get r 0 = v ∧ s1.teams = s.teams ∧ s1.mem = s.mem ∧ (∀ j, j ≠ r → (s1.core core).snares.get j 0 = c.snares.get j 0)) ∧
          (0x30 ≤ r → r < 0x3f → ∃ s1, Completes (.syswr f) s k t s1 ∧ (s1.core core).snares.get r 0 = v &&& 0xfffff000ffffffff ∧ s1.teams = s.teams ∧ s1.mem = s.mem ∧ (∀ j, j ≠ r → (s1.core core).snares.get j 0 = c.snares.get j 0)))))) ∧
    (let tbl := f.hi.toNat
      let ix := (opdS s k t f.a).toNat
      let h := c.activeBank.hist
      let gives := fun (i : Instr) (h' : Hist) => ∃ s1, Completes i s k t s1 ∧ (s1.core core).activeBank.hist = h' ∧ s1.teams = s.teams ∧ s1.mem = s.mem ∧ ∀ c', c' ≠ core → s1.core c' = s.core c'
      (Issues (.hbRd f) s k t → Once (.hbRd f) f.g s k t (
        let v := if hbEntries tbl ≤ ix then 2 ^ 128 - 1 else hbEntry s k tbl ix
        Completes (.hbRd f) s k t (writeS (writeS s k f.d (BitVec.ofNat 64 (v % 2 ^ 64))) k (Opd.next f.d 1) (BitVec.ofNat 64 (v / 2 ^ 64))))) ∧
      (Issues (.hbWr f) s k t → Once (.hbWr f) f.g s k t (
        let v := (opdS s k t f.d).toNat + (opdS s k t (Opd.next f.d 1)).toNat * 2 ^ 64
        (hbEntries tbl ≤ ix → Completes (.hbWr f) s k t s) ∧ (ix < hbEntries tbl → gives (.hbWr f) (hbPut h tbl ix v)))) ∧
      (Issues (.hbClr f) s k t → Once (.hbClr f) f.g s k t (gives (.hbClr f)
        { freeze := if f.lo.getLsbD 4 then 0 else h.freeze, status := if f.lo.getLsbD 4 then 0 else h.status, spt := if f.lo.getLsbD 0 then 0 else h.spt, rst := if f.lo.getLsbD 1 then 0 else h.rst, cct := if f.lo.getLsbD 2 then 0 else h.cct, tst := if f.lo.getLsbD 3 then 0 else h.tst })) ∧
      (Issues (.hbFrz f) s k t → Once (.hbFrz f) f.g s k t (∃ z : BitVec 4, (∀ j, j < 4 → z.getLsbD j = (h.freeze.getLsbD j || f.lo.getLsbD j)) ∧ gives (.hbFrz f) { h with freeze := z })) ∧
      (Issues (.hbThw f) s k t → Once (.hbThw f) f.g s k t (∃ z : BitVec 4, (∀ j, j < 4 → z.getLsbD j = (h.freeze.getLsbD j && !f.lo.getLsbD j)) ∧ gives (.hbThw f) { h with freeze := z })) ∧
      (let a := opdS s k t f.a
        let front := fun (acc : Nat) (s1 : State) (ps : List (Nat × Nat × Nat)) => ImageGoes s k t f.g acc a s1 ps
        let open' := fun (acc : Nat) => wideSnare s k t lanes acc [(extVA a, 2048)] = none
        (∀ acc pa, acc = accR ∨ acc = accW → open' acc → a.toNat % 64 = 0 → peerHold s k = false → rowPages a 2048 = [extVA a] → Mapped s k t acc (extVA a) pa →
          let ps := pagePieces [(extVA a / 2 ^ 18, pa - extVA a % 2 ^ 18)] a 2048
          let s1 := ps.foldl (fun st p => settlePhys st k p.2.1 p.2.2) s
          spanBad s1 ps = none → front acc s1 ps) ∧
        (Issues (.hbLd f) s k t → Once (.hbLd f) f.g s k t ((open' accR → a.toNat % 64 ≠ 0 → Traps (.hbLd f) s k t s { bits := cMisalign, addr := a, mask := lanes }) ∧
          ∀ s1 ps, front accR s1 ps → let img := leNat (spanBytes s1 ps)
            (imageValid img = true → Completes (.hbLd f) s k t (writeS (modHist s1 k fun _ => imageHist img 0) k f.d 0)) ∧ (imageValid img = false → Completes (.hbLd f) s k t (writeS s1 k f.d 1)))) ∧
        (Issues (.hbSt f) s k t → Once (.hbSt f) f.g s k t ((open' accW → a.toNat % 64 ≠ 0 → Traps (.hbSt f) s k t s { bits := cMisalign, addr := a, mask := lanes }) ∧
          ∀ s1 ps, front accW s1 ps →
            let s2 := ps.foldl (fun st p => setD (refreshPhys st k p.2.1 p.2.2) (clusterOf core) t.oid p.1) s1
            let s3 := { s2 with nextId := s2.nextId + 1 }.modTeam k fun u => { u with storesOut := u.storesOut ++ [s2.nextId] }
            Completes (.hbSt f) s k t (writeS (postWords s3 k s2.nextId (imageWords ps) (histImage core (s2.core core).activeBank)) k f.d 0))))) ∧
    (Issues (.clk f) s k t → WritesD (.clk f) s k t f.g f.d true fun _ => BitVec.ofNat 64 s.tick) ∧
    (Issues (.clkLamport f) s k t → WritesD (.clkLamport f) s k t f.g f.d true fun _ => BitVec.ofNat 64 s.dev.lclk) ∧
    (Issues (.dgst f) s k t → (t.digestQ = [] → WritesD (.dgst f) s k t f.g f.d true fun _ => if t.digestMode then t.digest else 0) ∧ (t.digestQ ≠ [] → Once (.dgst f) f.g s k t (Stalls (.dgst f) s k))) ∧
    (Issues (.halt f) s k t → ∃ s' t', exec (.halt f) s = .next s' ∧ s'.team k = some t' ∧ t'.state = .stopped ∧ t'.held = true ∧ t'.heldSnare = 15 ∧ t'.h = t.h ∧ t'.i = t.i + 1 ∧
      t'.v = t.v ∧ t'.s = t.s ∧ t'.p = t.p ∧ t'.e = t.e ∧ s'.mem = s.mem ∧ s'.gangs = s.gangs ∧ ∀ k', k' ≠ k → s'.team k' = s.team k')) ∧
  (∀ (s : State), let core := s.sel.core
    let v := snHit s core
    let slot := fun (i : Nat) => s.activeKey core i
    (v.getLsbD 63 = true → exec .snhitReport s = .next s) ∧
    ((∀ i t, i < 64 → s.team (slot i) = some t → t.held = false) → v.getLsbD 63 = false → exec .snhitReport s = .next s) ∧
    (∀ i t, v.getLsbD 63 = false → i < 64 → s.team (slot i) = some t → t.held = true → (∀ j u, j < i → s.team (slot j) = some u → u.held = false) →
      ∃ s', exec .snhitReport s = .next s' ∧ snHit s' core = BitVec.ofNat 64 (2 ^ 63 + i * 2 ^ 8 + t.heldSnare % 16) ∧ (s'.core core).hitKey = some (slot i) ∧ s'.teams = s.teams ∧ s'.mem = s.mem) ∧
    (v.getLsbD 63 = false → exec .snhitResume s = .next s ∧ exec .snhitClear s = .next s) ∧
    (∀ k t, v.getLsbD 63 = true → (s.core core).hitKey = some k →
      s.team k = some t → t.held = true →
      (∃ s', exec .snhitResume s = .next s' ∧ snHit s' core = 0 ∧ s'.team k = some { t with held := false, state := .ready, passSnare := some t.heldSnare } ∧ s'.mem = s.mem) ∧
      (∃ s', exec .snhitClear s = .next s' ∧ snHit s' core = 0 ∧ s'.team k = some { t with held := false } ∧ s'.mem = s.mem)))

/-- Arbitration of a held pipe, of a core with a swap pending or with no eligible team does nothing. Otherwise the winner is an eligible team of the pipe that no other beats; every loser adds one to its pass-over count (at most 64), the winner's count and yielded bit are cleared, and it takes the pipe, or parks before the first word of a clause with a yield point once the deadline has passed. The expiry of the deadline lets the next arbitration happen. A clause fetch of a ready team, with its page mapped and no error, gives it the header and words, after a held cause is taken; while the waits of the header do not hold it leaves the pipe; a bad header address, header or resume point raises ILLEGAL_CLAUSE. A sleeping team is READY at its tick and a waiting one when its condition or deadline has come. A turn that is over passes to the next partition: the deadline is armed with its slice, its parked teams are READY, and a staged context of it is swapped in; with none staged and another partition's context active, none is swapped in and the core serves no team for the turn. A core without a time-sliced partition is not timed, and the teams that its deadline parked are READY. Model's own (log entries 41, 42, 45, 56 and 57): held causes and waits of a clause fetched again, where a turn ends, when waits are evaluated, a target whose bits [79:64] differ, and the zero %einst and %ehdr of a bad header address. -/
def Obligations.ClausesTurnsAndWakes : Prop :=
  (∀ s : State, let core := s.sel.core
    let pipe := s.sel.pipe
    let c := s.core core
    let cs := contenders s core pipe
    let go := exec .clauseArbitration s
    (c.pipes.find pipe ≠ none ∨ c.swap ≠ none → go = .next s) ∧ (cs = [] → go = .next s) ∧
    (exec .cooperativeDeadlineExpiry s = if deadlinePast s core then go else .next s) ∧
    (c.pipes.find pipe = none → c.swap = none → cs ≠ [] → pipe < 8 → c.active < 2 → ∃ w t, (w, t) ∈ cs ∧ s.team w = some t ∧ keyPipe w = pipe ∧ eligible s w t = true ∧
      (∀ x ∈ cs, beats c.activeBank.hist x.2 t = false) ∧
      (∀ hdr, peekHeader s t = some hdr →
        (∃ s', go = .next s' ∧ (∀ x ∈ cs, x.1 ≠ w → ∃ u, s'.team x.1 = some u ∧ u.passOver = min (x.2.passOver + 1) 64 ∧ u.v = x.2.v ∧ u.s = x.2.s) ∧ s'.mem = s.mem ∧
          ∃ u, s'.team w = some u ∧ u.passOver = 0 ∧ u.yielded = false ∧ u.v = t.v ∧ u.s = t.s ∧ u.h = t.h ∧ u.i = t.i ∧
            (if (hdrOk hdr && hdrYield hdr && deadlinePast s core && decide (t.i = 0)) = true then u.state = .parked ∧ u.waitKind = .deadline ∧ (s'.core core).pipes.find pipe = none
              else u.state = .ready ∧ (s'.core core).pipes.find pipe = some (keySlot w)))))) ∧
  (∀ (s : State) (k : Nat) (t : Team), s.selKey = some k → s.team k = some t → t.clause = [] →
    (t.state ≠ .ready ∨ t.entering = true ∨ halted s k t = true → exec .clauseFetch s = .next s) ∧
    (t.state = .ready → t.busyLeaf = none → t.entering = false → halted s k t = false →
      (headerOk t.h = false ∨ t.farH = true → exec .clauseFetch s = .next (clauseFault s k t cIllegalClause t.h 0)) ∧
      (∀ s1 pa, headerOk t.h = true → t.farH = false → fetchPage s k t (extVA t.h) = .got s1 pa → badAt s1 pa 8 = false → let hdr := BitVec.ofNat 64 (homeNat s1 pa 8)
        let whole := extVA t.h % 2 ^ 18 + 8 + 8 * hdrCount hdr ≤ 2 ^ 18 ∧ badAt s1 (pa + 8) (8 * hdrCount hdr) = false
        let words := (List.range (hdrCount hdr)).map fun j => BitVec.ofNat 64 (homeNat s1 (pa + 8 + 8 * j) 8)
        let held := if t.i = 0 then holdPoison t else t
        (hdrOk hdr = false → 24 < hdrCount hdr ∨ whole → exec .clauseFetch s = .next (clauseFault s1 k t cIllegalClause t.h hdr)) ∧
        (hdrOk hdr = true → whole → t.i ≤ hdrCount hdr → waitsHold s1 k t hdr = false → exec .clauseFetch s = .next (freePipe s1 k)) ∧
        (hdrOk hdr = true → whole → t.i < hdrCount hdr → waitsHold s1 k t hdr = true → t.handler = true ∨ t.i ≠ 0 ∨ t.fpReport = none → heldPoint held = true →
          exec .clauseFetch s = .next (deliverHeld (s1.setTeam k held) k hdr)) ∧
        (hdrOk hdr = true → whole → t.i < hdrCount hdr → waitsHold s1 k t hdr = true → t.handler = true ∨ t.i ≠ 0 ∨ t.fpReport = none → heldPoint held = false →
          exec .clauseFetch s = .next (s1.setTeam k { held with clause := hdr :: words }) ∧
          ∀ j, j < hdrCount hdr → curWord { held with clause := hdr :: words, i := j } = BitVec.ofNat 64 (homeNat s1 (pa + 8 + 8 * j) 8)) ∧
        (hdrOk hdr = true → whole → hdrCount hdr < t.i →
          exec .clauseFetch s = .next (clauseFault s1 k t cIllegalClause t.h hdr))))) ∧
  (∀ (s : State) (core slot : Nat) (t : Team), s.team (s.activeKey core slot) = some t →
    (t.state = .sleeping → t.wake ≤ s.tick → exec (.sleepWake core slot) s = .next (s.setTeam (s.activeKey core slot) { t with state := .ready, wake := 0 })) ∧
    (t.state ≠ .sleeping ∨ s.tick < t.wake → exec (.sleepWake core slot) s = .next s) ∧
    (t.state = .waiting → waitOver? s (s.activeKey core slot) t = true → exec (.waitWake core slot) s = .next (s.setTeam (s.activeKey core slot) { t with state := .ready })) ∧
    (t.state ≠ .waiting ∨ waitOver? s (s.activeKey core slot) t = false → exec (.waitWake core slot) s = .next s) ∧
    (∀ dl, (t.waitKind = .addr ∧ dl = waitField t.wait 24 8) ∨ ((t.waitKind = .ring ∨ t.waitKind = .seq) ∧ dl = waitField t.wait 16 8) →
      dl ≠ noDeadline → dl ≤ s.tick → waitOver? s (s.activeKey core slot) t = true) ∧
    (∀ v, t.waitKind = .seq → completionOf s t.oid (waitField t.wait 0 4) = some v → waitField t.wait 24 8 ≤ v → waitOver? s (s.activeKey core slot) t = true)) ∧
  (∀ s : State, let core := s.sel.core
    let c := s.core core
    let sh := c.bank c.shadow
    (c.activeBank.owner = none ∨ c.idleTurn = true → ∀ pipe, contenders s core pipe = []) ∧
    (sliceParts s core = [] → c.slicePart = none → exec .timeSliceTurnEnd s = .next s) ∧
    (sliceParts s core = [] → c.slicePart ≠ none → ∃ s', exec .timeSliceTurnEnd s = .next s' ∧ (s'.core core).slicePart = none ∧ (s'.core core).deadline = none ∧ (s'.core core).idleTurn = false ∧ s'.mem = s.mem ∧
      (∀ k t, s.team k = some t → (keyCore k = core → t.state = .parked → t.waitKind = .deadline → s'.team k = some { t with state := .ready, waitKind := .none }) ∧ (keyCore k ≠ core → s'.team k = some t))) ∧
    (sliceParts s core ≠ [] → turnOver s core = false → exec .timeSliceTurnEnd s = .next s) ∧
    (∀ p, nextPart (sliceParts s core) c.slicePart = some p → turnOver s core = true → c.swap = none → sh.spilling = false → sh.staging = false → outgoingOk s core = true →
      ∃ s', exec .timeSliceTurnEnd s = .next s' ∧ (s'.core core).slicePart = some p ∧ (s'.core core).deadline = some (s.tick + bitsAt (s.part p).slice.toNat 0 32) ∧ s'.mem = s.mem ∧
        (∀ k t, s.team k = some t → (keyCore k = core ∧ t.state = .parked ∧ t.waitKind = .deadline ∧ ctxPart s t.oid = p → ∃ u, s'.team k = some u ∧ u.state = .ready ∧ u.v = t.v ∧ u.s = t.s) ∧
          (keyCore k ≠ core → s'.team k = some t)) ∧
        (∀ x, sh.owner = some x → ctxPart s x = p → ∃ w, (s'.core core).swap = some w ∧ w.incoming = some x) ∧
        (∀ y, c.activeBank.owner = some y → ctxPart s y ≠ p →
          (sh.owner = none → ∃ w, (s'.core core).swap = some w ∧ w.incoming = none) ∧
          (∀ x, sh.owner = some x → ctxPart s x ≠ p → (s'.core core).swap = none ∧ (s'.core core).idleTurn = true))))

/-- Whenever a form of ctx.swap issues: without SCHED or with an OID of 2^12 or more it raises ILLEGAL_OP; no core gives OK; a live context of another partition gives DENIED; otherwise every core of the mask is checked before any is acted on, the lowest failing core gives its code and number, and with no failing core every core is acted on and D = 0. The codes of each op are those of R68 and R69. Op 0 gives the shadow bank to the context with its staging under way and holds its halves, op 1 sets the swap pending, op 3 empties the shadow bank. ctx.save gives BAD_STATE or DENIED, lets a SAVING context go on, marks a FAILED one for release, or makes the context SAVING; ctx.load gives the status of the record or makes the context READY with the record's fields. The end of the staging fills the history bank and starts the chain swap; cycle 0 frees the pipes and fixes resume points, and comes too for a context that ctx.save takes off the core, or first brings back a team that was swapped out in handler mode; cycle 128 exchanges the banks, gives every L1 line RRV 3 and starts the spill; a spill that succeeds empties the bank, one that waits for a leaf goes on, and one that meets a fault makes the context FAILED; a save that has drained makes the context SAVED, and so does the release of a FAILED one; fields that the part still owes the record and the queue descriptors are written first. A context with PREEMPT = 1 that comes back in one bank holds the other half of that core no longer. With the save area in the TLB and no uncorrectable error, a staging, a spill and a save complete. Model's own: log entry 60 (BUSY or NOT_STAGED with a swap in progress, RESIDENCY for PREEMPT = 0 without both halves), 32 (core field 0 of DENIED, whose tables ctx.load reads by), 69 (a chain swaps each core after its own staging) and 62 (handler teams brought back before a save). -/
def Obligations.ContextSwapSaveLoad : Prop :=
  (∀ (f : SYS) (s : State) (k : Nat) (t : Team),
    let m := opdS s k t f.a
    let oid := (opdS s k t (Opd.next f.a 1)).toNat
    let late := fun (i : Instr) => Traps i s k t s { bits := cIllegalOp, addr := wordAddr t.h t.i, mask := t.e }
    let barred := ctxLive s oid && !partAllowed (teamPart s t) (ctxPart s oid)
    let form := fun (i : Instr) (check : Nat → Nat) (act : State → Nat → State) => Issues i s k t → Once i f.g s k t (
      (teamSched s t = false ∨ 2 ^ 12 ≤ oid → late i) ∧
      (teamSched s t = true → oid < 2 ^ 12 →
        (m = 0 → Completes i s k t (writeS s k f.d 0)) ∧
        (m ≠ 0 → barred = true → Completes i s k t (writeS s k f.d 6)) ∧
        (barred = false → (∀ c, m.getLsbD c = true → check c = 0) → Completes i s k t (writeS ((maskCores m).foldl act s) k f.d 0)) ∧
        (∀ c, barred = false → m.getLsbD c = true → check c ≠ 0 → (∀ c', c' < c → m.getLsbD c' = true → check c' = 0) →
          Completes i s k t (writeS s k f.d (BitVec.ofNat 64 (check c + c * 2 ^ 8))))))
    form (.ctxSwapStage f) (stageCheck s oid) (fun st c => startStage st oid false c) ∧
    form (.ctxSwap f) (swapCheck s oid) (fun st c => requestSwap st c (some oid)) ∧
    form (.ctxSwapChain f) (fun c => if stageCheck s oid c ≠ 0 then stageCheck s oid c else if outgoingOk s c = true then 0 else 7) (fun st c => startStage st oid true c) ∧
    form (.ctxSwapDrop f) (fun c => if stagedOn s oid c = true ∧ (s.core c).swap = none then 0 else 2) (fun st c => settleCtx (dropBank st oid c) oid)) ∧
  (∀ (s : State) (oid core : Nat), let kc := s.core core
    let b := kc.bank kc.shadow
    (s.ctx oid = none → stageCheck s oid core = 1) ∧
    (∀ c, s.ctx oid = some c →
      (ctxRuns c = false → stageCheck s oid core = 1) ∧
      (ctxRuns c = true → b.owner ≠ none ∨ b.spilling = true ∨ kc.swap ≠ none → stageCheck s oid core = 3) ∧
      (ctxRuns c = true → b.owner = none → b.spilling = false → kc.swap = none →
        (c.preempt = true → stageCheck s oid core = if 2 * core + kc.shadow ∈ c.halves ∨ halfHeld s (2 * core + kc.shadow) = false then 0 else 7) ∧
        (c.preempt = false → stageCheck s oid core = if halfHeld s (2 * core) = false ∧ halfHeld s (2 * core + 1) = false ∧ kc.activeBank.owner = none then 0 else 7)) ∧
      (∀ chain, let s1 := startStage s oid chain core
        let b1 := (s1.core core).bank kc.shadow
        b1.owner = some oid ∧ b1.staging = true ∧ b1.spilling = false ∧ b1.chain = chain ∧ b1.loadedHalf = !(c.preempt && c.halves.contains (2 * core + kc.shadow)) ∧
        s1.teams = s.teams ∧ s1.mem = s.mem ∧ ∃ c1, s1.ctx oid = some c1 ∧ c1.state = c.state ∧ ∀ h ∈ halvesOf c core kc.shadow, h ∈ c1.halves) ∧
      (∀ s1, s1 = dropBank s oid core → (s1.core core).bank kc.shadow = Bank.empty ∧ s1.mem = s.mem ∧ ∃ c1, s1.ctx oid = some c1 ∧ (b.loadedHalf = false → c1.halves = c.halves ∧ s1.teams = s.teams) ∧
          (b.loadedHalf = true → ∀ h ∈ halvesOf c core kc.shadow, h ∉ c1.halves))) ∧
    (stagedOn s oid core = true ↔ b.owner = some oid ∧ b.staging = false ∧ b.spilling = false) ∧
    (stagedOn s oid core = false → swapCheck s oid core = 2) ∧ (stagedOn s oid core = true → kc.swap ≠ none → swapCheck s oid core = 3) ∧
    (stagedOn s oid core = true → kc.swap = none → swapCheck s oid core = if outgoingOk s core = true then 0 else 7) ∧
    (kc.activeBank.owner = none → outgoingOk s core = true) ∧ (∀ o c, kc.activeBank.owner = some o → s.ctx o = some c → outgoingOk s core = c.preempt) ∧
    (∀ w, let s1 := requestSwap s core w
      (s1.core core).swap = some { start := s.cycle, begun := false, incoming := w } ∧ (s1.core core).active = kc.active ∧ s1.teams = s.teams ∧ s1.mem = s.mem)) ∧
  (∀ (f : SYS) (s : State) (k : Nat) (t : Team), let oid := (opdS s k t f.a).toNat
    Issues (.ctxSave f) s k t → Once (.ctxSave f) f.g s k t (
      (teamSched s t = false ∨ 2 ^ 12 ≤ oid → Traps (.ctxSave f) s k t s { bits := cIllegalOp, addr := wordAddr t.h t.i, mask := t.e }) ∧
      (teamSched s t = true → oid < 2 ^ 12 →
        (s.ctx oid = none → Completes (.ctxSave f) s k t (writeS s k f.d 1)) ∧
        (∀ c, s.ctx oid = some c →
          (c.state = .saved → Completes (.ctxSave f) s k t (writeS s k f.d 1)) ∧
          (c.state ≠ .saved → partAllowed (teamPart s t) c.partition = false → Completes (.ctxSave f) s k t (writeS s k f.d 6)) ∧
          (c.state = .saving → partAllowed (teamPart s t) c.partition = true → Completes (.ctxSave f) s k t (writeS s k f.d 0)) ∧
          (c.state = .failed → partAllowed (teamPart s t) c.partition = true →
            Completes (.ctxSave f) s k t ((writeS s k f.d 0).setCtx oid { c with releasing := true })) ∧
          (ctxRuns c = true → partAllowed (teamPart s t) c.partition = true →
            ∃ s1 c1, Completes (.ctxSave f) s k t s1 ∧ s1 = startSave (writeS s k f.d 0) oid ∧ s1.ctx oid = some c1 ∧ c1.state = .saving ∧
              ∀ qn q, c.queues.find qn = some q → q.state ≠ .disabled → ∃ q1, c1.queues.find qn = some q1 ∧ q1.state = .suspended))))) ∧
  (∀ (f : SYS) (s : State) (k : Nat) (t : Team), let a := opdS s k t f.a
    let r := partRead s t.oid (extVA a) 4096
    let rcd := match r.2 with | .got bs => some bs | _ => none
    let st := loadStatus r.1 a rcd (partAllowed (teamPart s t))
    Issues (.ctxLoad f) s k t → Once (.ctxLoad f) f.g s k t (
      (teamSched s t = false → Traps (.ctxLoad f) s k t s { bits := cIllegalOp, addr := wordAddr t.h t.i, mask := t.e }) ∧
      (teamSched s t = true → peerHold s k = true → Stalls (.ctxLoad f) s k) ∧
      (teamSched s t = true → peerHold s k = false → r.2 = .wait → exec (.ctxLoad f) s = .next (stallAt r.1 k)) ∧
      (teamSched s t = true → peerHold s k = false → r.2 ≠ .wait →
        (st ≠ 0 → Completes (.ctxLoad f) s k t (writeS r.1 k f.d (BitVec.ofNat 64 st))) ∧
        (∀ bs, st = 0 → rcd = some bs → ∃ s1 c1, Completes (.ctxLoad f) s k t s1 ∧ s1 = loadCtx (writeS r.1 k f.d 0) a.toNat bs ∧ s1.ctx (fieldOf bs 0 2) = some c1 ∧ c1.state = .ready ∧
          c1.partition = fieldOf bs 2 1 ∧ c1.preempt = (fieldOf bs 3 1).testBit 0 ∧ c1.sched = (fieldOf bs 3 1).testBit 1 ∧ c1.policy = bitsAt (fieldOf bs 3 1) 2 2 ∧
          c1.saveArea = a.toNat ∧ c1.saveSeq = fieldOf bs 56 8 ∧ c1.roots = (List.range 4).map fun i => BitVec.ofNat 64 (fieldOf bs (8 + 8 * i) 8))))) ∧
  (∀ (s : State) (area : W64) (allowed : Nat → Bool),
    loadStatus s area none allowed = 4 ∧
    (∀ bs, (area.toNat % 2 ^ 18 ≠ 0 ∨ recordValid bs = false ∨ areaMapped s bs (extVA area) = false → loadStatus s area (some bs) allowed = 4) ∧
      (area.toNat % 2 ^ 18 = 0 → recordValid bs = true → areaMapped s bs (extVA area) = true →
        loadStatus s area (some bs) allowed = if ctxLive s (fieldOf bs 0 2) = true then 5 else if allowed (fieldOf bs 2 1) = true then 0 else 6))) ∧
  (∀ (s : State) (cores : BitVec 64), ∃ s', exec (.swapRequest cores) s = .next s' ∧ s'.mem = s.mem ∧
    (∀ c, cores.getLsbD c = false → s'.core c = s.core c) ∧
    (∀ c w, cores.getLsbD c = true → (s.core c).swap = some w → w.begun = true → s'.core c = s.core c) ∧
    (∀ k t, cores.getLsbD (keyCore k) = false → s.team k = some t → s'.team k = some t)) ∧
  (∀ (s : State) (cores : BitVec 64) (c : Nat) (w : Swap), let kc := s.core c
    let sh := kc.bank kc.shadow
    let begins := ∃ s', exec (.swapRequest cores) s = .next s' ∧ (s'.core c).swap = some { w with start := s.cycle, begun := true } ∧ (s'.core c).pipes = [] ∧
      (s'.core c).active = kc.active ∧ ∀ k t, keyCore k = c → keyBank k = kc.active → s.team k = some t → s'.team k = some { t with clause := [] }
    cores.getLsbD c = true →
    (kc.swap = some w → w.begun = false → begins) ∧
    (∀ o x, kc.swap = none → kc.activeBank.owner = some o → s.ctx o = some x → x.state = .saving → handlersOn s c kc.active = false → sh.spilling = false → sh.staging = false →
      w.incoming = sh.owner → begins) ∧
    (∀ o, kc.swap = none → saveSwap s c = none → strayHandler s c = some o → sh.owner = none → sh.spilling = false → outgoingOk s c = true →
      ∃ s', exec (.swapRequest cores) s = .next s' ∧ let b := (s'.core c).bank kc.shadow
        b.owner = some o ∧ b.staging = true ∧ b.chain = true)) ∧
  (∀ s : State, let core := s.sel.core
    let c := s.core core
    (∀ w, c.swap = some w → w.begun = true → w.start + 128 ≤ s.cycle → c.active < 2 →
      ∃ s' c', exec .swapExchange s = .next s' ∧ c' = s'.core core ∧ c'.active = 1 - c.active ∧ c'.swap = none ∧ c'.pipes = [] ∧
        (∀ e ∈ c'.l1, e.2.rrv = 3 ∧ e.2.reused = false) ∧
        (c'.bank c.active).owner = (c.bank c.active).owner ∧ (c'.bank c.active).spilling = (c.bank c.active).owner.isSome ∧ (c'.bank c.active).hist = (c.bank c.active).hist ∧
        (c'.bank c'.active).owner = (c.bank c.shadow).owner ∧ (c'.bank c'.active).hist = (c.bank c.shadow).hist ∧ c'.idleTurn = false ∧
        (∀ o x, w.incoming = some o → (c.bank c.active).owner ≠ some o → s.ctx o = some x → o ∉ c'.ousted ∧
          ∃ x', s'.ctx o = some x' ∧ (x.preempt = true → 2 * core + c.active ∉ x'.halves))) ∧
    (c.swap = none → exec .swapExchange s = .next s) ∧ (∀ w, c.swap = some w → w.begun = false ∨ s.cycle < w.start + 128 → exec .swapExchange s = .next s)) ∧
  (∀ s : State, let core := s.sel.core
    let c := s.core core
    (spillable s core = none → exec .spillComplete s = .next s ∧ exec .spillError s = .next s) ∧
    (∀ o x, spillable s core = some o → s.ctx o = some x → let a := spill s core o
      let empties := ∃ s' x', exec .spillComplete s = .next s' ∧ (s'.core core).bank c.shadow = Bank.empty ∧ (s'.core core).bank c.active = c.bank c.active ∧
        s'.ctx o = some x' ∧ x'.saveSeq = (x.saveSeq + 1) % 2 ^ 64
      (a.2 = .done → exec .spillError s = .next s ∧ empties) ∧ (core < 64 → AreaGoes s o → empties) ∧
      (a.2 = .wait → exec .spillError s = .next s ∧ exec .spillComplete s = .next a.1) ∧
      (a.2 = .fail → exec .spillComplete s = .next s ∧ ∃ s' x', exec .spillError s = .next s' ∧ (s'.core core).bank c.shadow = Bank.empty ∧ s'.ctx o = some x' ∧ x'.state = .failed))) ∧
  (∀ (s : State), let core := s.sel.core
    let c := s.core core
    let b := c.bank c.shadow
    (b.owner = none ∨ b.staging = false → exec .stagingComplete s = .next s) ∧
    (∀ oid s1 bs, b.owner = some oid → b.staging = true → areaRead s oid (areaHist core) 2048 = (s1, some bs) →
      let whole := match s.ctx oid with | some x => !x.preempt | none => false
      let ls := if b.loadedHalf = true then loadSlots oid core c.shadow 64 (if whole = true then 0 else c.shadow * 2 ^ 20) s1 else loadHeld oid core c.shadow 64 s1
      (ls.2 = false → exec .stagingComplete s = .next s) ∧
      (ls.2 = true → ∃ s', exec .stagingComplete s = .next s' ∧ ((s'.core core).bank c.shadow).owner = some oid ∧ ((s'.core core).bank c.shadow).staging = false ∧
        ((s'.core core).bank c.shadow).hist = stageHist (leNat bs) ∧ (s'.core core).active = c.active ∧
        (b.chain = false → (s'.core core).swap = c.swap) ∧ (b.chain = true → ∃ w, (s'.core core).swap = some w ∧ w.incoming = some oid ∧ w.begun = false))) ∧
    (∀ oid, core < 64 → b.owner = some oid → b.staging = true → AreaGoes s oid →
      (b.loadedHalf = true → ∀ slot, slot < 64 → ∃ bs, areaRead s oid (areaRecord core slot) 256 = (s, some bs) ∧ fieldOf bs 144 1 = 0) →
      ∃ s' bs, areaRead s oid (areaHist core) 2048 = (s, some bs) ∧ exec .stagingComplete s = .next s' ∧ let b1 := (s'.core core).bank c.shadow
        b1.owner = some oid ∧ b1.staging = false ∧ b1.hist = stageHist (leNat bs))) ∧
  (∀ (s0 s : State) (oid : Nat) (c : Ctx), s = payWord (payQueues s0 oid) oid → s.ctx oid = some c →
    let saved := ∃ s' c', exec (.ctxSaveComplete oid) s0 = .next s' ∧ s'.ctx oid = some c' ∧ c'.state = .saved ∧ c'.halves = [] ∧ (∀ e ∈ s'.teams, e.2.oid ≠ oid) ∧
      offBanks s' oid = true ∧ ∀ q ∈ c'.queues, q.2.enabled = false
    (∀ c0, s0.ctx oid = some c0 → c0.wordDue = false → (∀ q ∈ c0.queues, q.2.owed = [] ∧ q.2.descPa ≠ noDesc) → s = s0) ∧
    (ctxBusy s oid = true ∨ c.wordDue = true → exec (.ctxSaveComplete oid) s0 = .next s) ∧
    (ctxBusy s oid = false → c.wordDue = false → c.releasing = true → saved) ∧
    (c.releasing = false → c.state ≠ .saving ∨ offBanks s oid = false ∨ framesDone s oid = false → exec (.ctxSaveComplete oid) s0 = .next s) ∧
    (c.releasing = false → c.state = .saving → offBanks s oid = true → ctxBusy s oid = false → c.wordDue = false → framesDone s oid = true →
      let s1 := flushOid { s with teams := s.teams.map fun e => (e.1, resetWait oid e.2) } oid
      let a := areaWrites oid (saveWrites s1 c) s1
      let fails := ∃ s' c', exec (.ctxSaveComplete oid) s0 = .next s' ∧ s'.ctx oid = some c' ∧ c'.state = .failed
      let word := areaWrite a.1 oid 4 (leBytes 4 CState.saved.code)
      (a.2 = .done → (word.2 = .done → saved) ∧ (word.2 = .wait → exec (.ctxSaveComplete oid) s0 = .next word.1) ∧ (word.2 = .fail → fails)) ∧
      (AreaGoes s oid → (∀ w ∈ saveWrites s1 c, w.1 + w.2.length ≤ areaBytes) → saved) ∧
      (a.2 = .wait → exec (.ctxSaveComplete oid) s0 = .next a.1) ∧ (a.2 = .fail → fails)))

/-- A tail value that the part observes becomes the tail of a running queue, resumes a FAULTED one (after QUOTA only within the quota) and, below the current tail, faults it with TAIL_BACK. A list that is still to be read is read first. The head command of a queue is read when its kind comes: NOP and LINK complete and move the read position; WAIT completes when its dependences are met, and otherwise is kept and completes when they are; LAUNCH makes a kernel in READ; JOB enters the window and starts when it may; a bad command faults the queue with its code. A queue is WAITING when the first command that has been read and has not started is held by more than the CONC rule, and IDLE when all is read and started. A kernel whose conditions hold is admitted, or rejected with its queue at its packet. The next gang that fits is placed whole, each team at the entry header with every lane active. An exiting team whose work has drained frees its slot, and the last team of a gang, counting those in the save area, ends it. A kernel that has ended has its slots released and its command completed, and is RETIRED once the completion word covers it, or runs again serially when its digest differs. The distributor stages an ousted context back in where it may, or takes a cluster for a context that it is not bringing in already. Fields that the part owes queue descriptors are written before a head is read. Model's own (log entries 33, 35, 36, 37, 39 and 40): descriptors and lists that cannot be read, and what a resume checks of them; the entry of TAIL_BACK, and tail values of a FAULTED queue; packet codes fixed when the packet is read; when a queue is WAITING or IDLE; what becomes of the digest record of a killed kernel or of one that cannot be reached; where an ousted context comes back to. -/
def Obligations.QueuesAndKernels : Prop :=
  (∀ (s : State) (oid qn : Nat) (q : Queue) (c : Ctx), s.ctx oid = some c → c.queues.find qn = some q →
    let is := fun (s' : State) (p : Queue → Prop) => ∃ q1, s'.queue oid qn = some q1 ∧ p q1
    let go := exec (.tailAdvanceObserved oid qn) s
    (∀ code e, is (faultQueue s oid qn code e) fun q1 => q1.state = .faulted ∧ q1.fault = code ∧ q1.faultEntry = e ∧ q1.tail = q.tail ∧ q1.readPos = q.readPos ∧ q1.readCount = q.readCount ∧ q1.completion = q.completion) ∧
    (q.state ≠ .disabled → q.state ≠ .faulted → q.state ≠ .suspended →
      let stays := fun (st : QState) => is (queueStep s oid qn) fun q1 => q1.state = st ∧ q1.readPos = q.readPos ∧ q1.readCount = q.readCount
      (headBlocked s oid qn = some true → stays .waiting) ∧ (headBlocked s oid qn = some false → stays .running) ∧
      (unstarted s oid qn = [] →
        (∀ s1, headOf s oid q = (s1, .empty) → stays .idle) ∧ (∀ s1, headOf s oid q = (s1, .wait) → stays .running) ∧
        (∀ s1 bs, headOf s oid q = (s1, .cmd bs) → stays .running) ∧
        (∀ s1 code, headOf s oid q = (s1, .fault code) → queueStep s oid qn = faultQueue s1 oid qn code q.readPos))) ∧
    (ctxRuns c = false ∨ c.listDue = false ∧ (q.state = .disabled ∨ q.state = .suspended) → go = .next s) ∧
    (ctxRuns c = true → c.listDue = true → go = .next (bringQueues s oid)) ∧
    (∀ v r, ctxRuns c = true → c.listDue = false → q.state ≠ .disabled → q.state ≠ .suspended → q.pubs = v :: r →
      (v.1 < q.tail → ∃ s', go = .next s' ∧ is s' fun q1 => q1.tail = q.tail ∧ q1.state = .faulted ∧ (q.state ≠ .faulted → q1.fault = 4 ∧ q1.faultEntry = q.readPos) ∧ (q.state = .faulted → q1.fault = q.fault)) ∧
      (q.tail ≤ v.1 → q.state ≠ .faulted → ∃ s2, go = .next (queueStep s2 oid qn) ∧ is s2 fun q1 => q1.tail = v.1 ∧ q1.pubs = r ∧ q1.state = q.state ∧ q1.readCount = q.readCount) ∧
      (q.tail ≤ v.1 → q.state = .faulted →
        (q.enabled = true ∨ quotaRoom s (ctxPart s oid) = true →
          (q.descBad = 0 → ∃ s2, go = .next (queueStep s2 oid qn) ∧ is s2 fun q1 => q1.tail = v.1 ∧ q1.state = .running ∧ q1.fault = 0 ∧ q1.faultEntry = 0 ∧ q1.enabled = true) ∧
          (q.descBad ≠ 0 → ∃ s', go = .next s' ∧ is s' fun q1 => q1.tail = v.1 ∧ q1.state = .faulted ∧ q1.fault = q.descBad)) ∧
        (q.enabled = false → quotaRoom s (ctxPart s oid) = false → ∃ s', go = .next s' ∧ is s' fun q1 => q1.tail = v.1 ∧ q1.state = .faulted ∧ q1.fault = 8)))) ∧
  (∀ (s : State) (oid qn n : Nat) (q : Queue) (c : Ctx), s.ctx oid = some c → c.queues.find qn = some q → waitMet s oid qn = some n →
    ∃ s' q1, exec (.waitCommand oid qn) s = .next s' ∧ s'.queue oid qn = some q1 ∧ (∀ w ∈ q1.waits, w.1 ≠ n) ∧ q1.readPos = q.readPos ∧
      q1.readCount = q.readCount ∧ (q.issued = [n] → n ≤ q.readCount → q1.completion = n ∧ q1.issued = [])) ∧
  (∀ (s0 s : State) (oid qn : Nat) (q : Queue) (c : Ctx) (s1 : State) (bs : List Byte), s = payQueues s0 oid →
    let is := fun (s' : State) (p : Queue → Prop) => ∃ q1, s'.queue oid qn = some q1 ∧ p q1
    let done := fun (i : Instr) (pos : Nat) => ∃ s', exec i s0 = .next s' ∧ is s' fun q1 => q1.readPos = pos ∧ q1.readCount = q.readCount + 1 ∧
      (q.issued = [] → q1.completion = q.readCount + 1 ∧ q1.issued = []) ∧ (∀ x r, q.issued = x :: r → x ∉ q.ended → x < q.readCount + 1 → q1.completion = q.completion)
    let f := fieldOf bs
    let busy := fun (q1 : Queue) => q1.state = .waiting ∨ q1.state = .running
    s.ctx oid = some c → ctxRuns c = true → c.listDue = false → c.queues.find qn = some q → q.state ≠ .disabled → q.state ≠ .faulted → q.state ≠ .suspended →
    headOf s oid q = (s1, .cmd bs) → (∀ n, knownCommand s1 oid qn c q (q.readCount + n) = false) →
    (f 0 1 = 0 → (f 1 63 = 0 → done (.nopCommand oid qn) (q.readPos + 64)) ∧ (f 1 63 ≠ 0 → exec (.nopCommand oid qn) s0 = .next (faultQueue s1 oid qn 2 q.readPos))) ∧
    (f 0 1 = 0xe →
      (f 1 7 = 0 → f 16 48 = 0 → f 8 8 % 64 = 0 → done (.linkCommand oid qn) (f 8 8)) ∧
      (f 1 7 ≠ 0 ∨ f 16 48 ≠ 0 → exec (.linkCommand oid qn) s0 = .next (faultQueue s1 oid qn 2 q.readPos)) ∧
      (f 1 7 = 0 → f 16 48 = 0 → f 8 8 % 64 ≠ 0 → exec (.linkCommand oid qn) s0 = .next (faultQueue s1 oid qn 3 q.readPos))) ∧
    (f 0 1 = 3 → waitMet s0 oid qn = none → let good := f 1 7 = 0 ∧ f 56 8 = 0 ∧ ∀ i ∈ [8, 24, 40], depReserved bs i = false
      let known := ∀ i ∈ [8, 24, 40], f (i + 8) 2 = 0xffff ∨ (s1.queue oid (f (i + 8) 2)).isSome = true
      let met := ∀ i ∈ [8, 24, 40], f (i + 8) 2 = 0xffff ∨ ∃ x, s1.queue oid (f (i + 8) 2) = some x ∧ f i 8 ≤ x.completion
      (¬ good → exec (.waitCommand oid qn) s0 = .next (faultQueue s1 oid qn 2 q.readPos)) ∧
      (good → ¬ known → exec (.waitCommand oid qn) s0 = .next (faultQueue s1 oid qn 7 q.readPos)) ∧
      (good → met → done (.waitCommand oid qn) (q.readPos + 64)) ∧
      (good → known → ¬ met → ∃ s', exec (.waitCommand oid qn) s0 = .next s' ∧ is s' fun q1 => q1.readPos = q.readPos + 64 ∧ q1.readCount = q.readCount + 1 ∧
        q1.completion = q.completion ∧ (q.readCount + 1, [8, 24, 40].map (depAt bs)) ∈ q1.waits ∧ busy q1 ∧ (unstarted s1 oid qn = [] → q1.state = .waiting))) ∧
    (f 0 1 = 1 → ∃ s' kid kn, exec (.launchCommand oid qn) s0 = .next s' ∧ s'.kernel kid = some kn ∧ kn.state = .read ∧ kn.oid = oid ∧ kn.queue = qn ∧ kn.seq = q.readCount + 2 ∧ kn.pkt = packetOf bs ∧
      kn.addr = q.readPos ∧ kn.nextGang = 0 ∧ kn.bad = packetCode s1 oid bs (packetOf bs) ∧ is s' fun q1 => q1.readPos = q.readPos + 128 ∧ q1.readCount = q.readCount + 2 ∧ busy q1) ∧
    (f 0 1 = 2 → nextJob s0 oid qn = none → (cardCode s1 bs ≠ 0 → exec (.jobCommand oid qn) s0 = .next (faultQueue s1 oid qn (cardCode s1 bs) q.readPos)) ∧
      (cardCode s1 bs = 0 → ∃ s' c1 e, exec (.jobCommand oid qn) s0 = .next s' ∧ s'.ctx oid = some c1 ∧ e ∈ c1.window ∧ e.queue = qn ∧ e.seq = q.readCount + 2 ∧ e.card = bs ∧ e.kernel = none ∧ e.addr = q.readPos ∧
        (q.added = [] → e.progress = 0) ∧ e.done = false ∧ is s' fun q1 => q1.readPos = q.readPos + 128 ∧ q1.readCount = q.readCount + 2 ∧ (e.started = false → busy q1)))) ∧
  (∀ (s : State) (oid qn : Nat) (c : Ctx) (e : Entry), s.ctx oid = some c → c.window.find? (fun e => decide (e.queue = qn) && !e.started) = some e →
    jobReady s oid e = true → outranked s (queuePrio s oid qn) e.order e.seq = false → ∃ s' c1, exec (.jobCommand oid qn) s = .next s' ∧ s'.ctx oid = some c1 ∧ { e with started := true } ∈ c1.window) ∧
  (∀ (s : State) (kid : Nat) (k : Kernel), s.kernel kid = some k → let go := exec (.kernelAdmission kid) s
    (kernelReady s k = false ∨ outranked s (queuePrio s k.oid k.queue) k.order k.seq = true → go = .next s) ∧
    (kernelReady s k = true → outranked s (queuePrio s k.oid k.queue) k.order k.seq = false →
      (∀ s1, admitCode s k = (s1, none) → go = .next s1) ∧
      (∀ s1, admitCode s k = (s1, some 0) → ∃ s' c1 e, go = .next s' ∧ s'.kernel kid = some { k with state := .admitted, hentry := 0 } ∧ s'.ctx k.oid = some c1 ∧ e ∈ c1.window ∧ e.kernel = some kid ∧ e.seq = k.seq ∧
        e.started = true ∧ e.done = false ∧ e.regions = k.pkt.regions) ∧
      (∀ s1 code, admitCode s k = (s1, some code) → code ≠ 0 → ∃ s' q1, go = .next s' ∧ s'.kernel kid = none ∧ s'.queue k.oid k.queue = some q1 ∧ q1.state = .faulted ∧ q1.fault = code ∧ q1.faultEntry = k.addr ∧
        q1.readPos = k.addr ∧ q1.readCount = k.seq - 2 ∧
        (∀ c q, s.ctx k.oid = some c → s.queue k.oid k.queue = some q → k.seq ∉ q.ended → (∀ e ∈ c.window, e.queue = k.queue → e.seq ≠ k.seq) → k.seq ∉ q1.issued))) ∧
    (k.bad = 2 ∨ k.bad = 3 → (s.ctx k.oid).isSome = true → admitCode s k = (s, some k.bad)) ∧
    (∀ c, s.ctx k.oid = some c → k.bad ≠ 2 → contextBad s c k.pkt = true → admitCode s k = (s, some 3)) ∧
    (∀ c, s.ctx k.oid = some c → k.bad ≠ 2 → k.bad ≠ 3 → contextBad s c k.pkt = false → k.pkt.digest = false → admitCode s k = (s, some k.bad))) ∧
  (∀ s : State, let pick := (placeOrder s).findSome? fun k => (fitKernel s k.2).map fun x => (k, x)
    (pick = none → exec .gangPlacement s = .next s) ∧
    (∀ kid k cl places, pick = some ((kid, k), (cl, places)) → (∀ c, (s.core c).active < 2) → ∃ s' gid gn, exec .gangPlacement s = .next s' ∧
      s'.kernel kid = some { k with nextGang := k.nextGang + 1, lastCluster := some cl, state := if k.nextGang + 1 < gangTotal k then .running else .draining } ∧
      s'.gang gid = some gn ∧ gn.kernel = kid ∧ gn.g = k.nextGang ∧ gn.cluster = cl ∧ gn.size = k.pkt.scratch ∧ gn.mem = [] ∧ gn.gone = [] ∧ gn.killed = false ∧ gn.teams.length = k.pkt.teams ∧
      ∀ i p, places[i]? = some p → let key := teamKey p.1 (s.core p.1).active p.2
        s.team key = none ∧ clusterOf p.1 = cl ∧ gn.teams[i]? = some key ∧ ∃ t, s'.team key = some t ∧ t.gang = gid ∧ t.kernel = kid ∧ t.tix = i ∧ t.gidx = k.nextGang ∧ t.stage = stageOf k.pkt i ∧ t.width = k.pkt.width ∧
          t.h = k.pkt.entry ∧ t.i = 0 ∧ t.state = .ready ∧ t.handler = false ∧ (∀ L, L < 1024 → t.e.getLsbD L = decide (L < k.pkt.width)) ∧ t.sreg 0 = k.pkt.args ∧ (∀ n, 0 < n → t.sreg n = 0) ∧ ∀ n, t.vreg n = 0)) ∧
  (∀ (s : State) (core slot : Nat), let who := waitingKey s core slot fun t => decide (t.state = .exiting)
    let go := exec (.exitPerformed core slot) s
    (who = none → go = .next s) ∧
    (∀ k t, who = some k → s.team k = some t → (exitDrained s k t = false → go = .next s) ∧
      (exitDrained s k t = true → ∃ s', go = .next s' ∧ s'.team k = none ∧ (∀ g, s.gang t.gang = some g → (∀ j, j < g.teams.length → j ≠ t.tix → j ∈ g.gone) → s'.gang t.gang = none) ∧
        (∀ g j, s.gang t.gang = some g → j < g.teams.length → j ≠ t.tix → j ∉ g.gone → t.sfcount = 0 → ∃ g', s'.gang t.gang = some g' ∧ t.tix ∈ g'.gone) ∧
        (∀ kn, t.sfcount = 0 → s.kernel t.kernel = some kn →
          s'.kernel t.kernel = some (if t.digestMode = true then { kn with digest := kn.digest ^^^ t.digest.rotateLeft ((t.gidx * kn.pkt.teams + t.tix) % 64) } else kn))))) ∧
  (∀ (s : State) (kid : Nat) (k : Kernel), s.kernel kid = some k → let go := exec (.kernelRetirement kid) s
    (kernelEnded s kid k = false → go = .next s) ∧
    (kernelEnded s kid k = true →
      (k.pkt.digest = false ∨ (digestRecord s k).2 = .over → ∃ s' k1, go = .next s' ∧ s'.kernel kid = some k1 ∧ (k1 = k ∨ k1 = { k with state := .retired }) ∧
        (∀ c u x, (s'.core c).slots.find u = some x → x.kernel = kid → x.state = .draining) ∧ (∀ c1 e, s'.ctx k.oid = some c1 → e ∈ c1.window → ¬ (e.queue = k.queue ∧ e.seq = k.seq)) ∧
        ∀ q, s.queue k.oid k.queue = some q → gridOver s' k1 = true ∧
          (q.issued = [k.seq] → k.seq ≤ q.readCount → k1.state = .retired ∧ ∃ q1, s'.queue k.oid k.queue = some q1 ∧ q1.completion = k.seq ∧ q1.issued = [])) ∧
      (∀ s1, k.pkt.digest = true → digestRecord s k = (s1, .wait) → go = .next s1) ∧
      (∀ s1 k1, k.pkt.digest = true → digestRecord s k = (s1, .again k1) → go = .next (s1.setKernel kid k1) ∧ k1.serial = true ∧ k1.nextGang = 0 ∧ k1.lastCluster = none ∧ k1.digest = 0 ∧ k1.state = .running ∧ k1.pkt = k.pkt))) ∧
  (∀ s : State, let back := (List.range 16).findSome? fun cl => (mayReturn s cl).map fun o => (cl, o)
    let take := (placeOrder s).findSome? fun k => if (fitKernel s k.2).isSome || requestOut s k.2.oid then none else ((List.range 16).find? (preemptible s k.2)).map fun cl => (k.2, cl)
    let staged := fun (s' : State) (c o : Nat) => let b := (s'.core c).bank (s.core c).shadow
      b.owner = some o ∧ b.staging = true ∧ b.chain = true
    (back = none → take = none → exec .distributorPreemption s = .next s) ∧
    (∀ cl o, back = some (cl, o) → ∃ s', exec .distributorPreemption s = .next s' ∧ s'.mem = s.mem ∧ oustedCores s cl o ≠ [] ∧
      ∀ c ∈ oustedCores s cl o, staged s' c o ∧ o ∉ (s'.core c).ousted) ∧
    (∀ k cl, back = none → take = some (k, cl) → ∃ s', exec .distributorPreemption s = .next s' ∧ s'.mem = s.mem ∧
      ∀ i, i < 4 → staged s' (4 * cl + i) k.oid ∧ (s'.core (4 * cl + i)).ousted.head? = (s.core (4 * cl + i)).activeBank.owner))

/-- Reset gives every register its reset value and keeps memory (that memory keeps its bytes is the model's choice, log entry 8). When the part is READY and GO is set the features are checked once: the part runs and its enabled ports train, or NEG_FAIL is set and GO cleared. A CORES or SLICE write is taken when the sharing rule holds, for which a core is still a partition's while a bank holds a context of it, and otherwise dropped with ERR. A register write changes the register at its offset, by the physical function or through the window of a virtual function, and an unassigned offset or a register that the writer may not change leaves all as it was. The first context of a partition is staged where no other context holds the half, and its status says OK once it has been swapped in, or why not. FLUSH raises FB_GEN, releases the waiting teams and makes the requests that peers refused again; FAIL gives the teams their fault. A host invalidation drops the translations and lines of its range. A host access inside an enabled HDM decoder is performed; outside them it stops by name. CAR_CTL takes a legal write; sweeps, once on their tick, the gong, from the snapshot of its own tick, and clock changes, before the sweep of their tick (that they do nothing after it is the model's choice, log entry 62), write one record for every core into a ring with room and set what the next sweep is. A register is read at its offset by either function, and an unassigned offset reads as zero. Model's own beside log entries 8 and 62: the write that EN = 0 makes legal and clock changes outside 700 to 1600 MHz (44), HBM_CH and QUEUES beyond their fields dropped with ERR (46), the status of BOOT (47), GO before READY (48) and the stop outside the decoders (49). -/
def Obligations.HostRegistersStartUpAndObservation : Prop :=
  (∀ s : State, exec .reset s = .next { State.reset with mem := s.mem, hostMem := s.hostMem, bad := s.bad, turns := s.turns, sel := s.sel, outbox := s.outbox, msix := s.msix }) ∧
  (∀ s : State, let good := s.dev.featLo &&& ~~~0xff#64 = 0 ∧ s.dev.featHi = 0 ∧ s.dev.featLo.getLsbD 0 = true
    let check := fun (i : Instr) => ∃ s', exec i s = .next s' ∧ s'.dev.ready = true ∧ s'.mem = s.mem ∧ s'.cores = s.cores ∧ s'.dev.featLo = s.dev.featLo ∧
      (s.dev.run = true → s'.dev.run = true ∧ s'.dev.go = true) ∧
      (s.dev.run = false → ¬ good → s'.dev.run = false ∧ s'.dev.negFail = true ∧ s'.dev.go = false) ∧
      (s.dev.run = false → good → s'.dev.run = true ∧ s'.dev.negFail = false ∧ s'.dev.go = true ∧
        ∀ p, p < 16 → (s.port p).enable = true → (s.port p).state = .down → featOn s 3 = true → (s'.port p).state = .training ∧ (s'.port p).trainStart = s.tick)
    (s.dev.go = false → exec .memoryAndLinkTrainingDone s = .next { s with dev := { s.dev with ready := true } }) ∧
    (s.dev.go = true → check .memoryAndLinkTrainingDone) ∧
    (s.dev.ready = false → exec .devCtlGo s = .next { s with dev := { s.dev with go := true } }) ∧ (s.dev.ready = true → check .devCtlGo)) ∧
  (∀ (s : State) (p : Nat) (v : W64), let q := s.part p
    let err := .next (s.setPart p { q with err := true })
    let share := fun (cores slice : W64) => ∀ x, x < 25 → x = p ∨ (slice ≠ 0 ∧ (s.part x).slice ≠ 0) ∨
      ∀ c, c < 64 → cores.getLsbD c = true ∨ bankOf s p c = true → (s.part x).cores.getLsbD c = false ∧ bankOf s x c = false
    (24 < p → exec (.coresWrite p v) s = .next s ∧ exec (.sliceWrite p v) s = .next s) ∧ (p ≤ 24 →
    (share v q.slice → exec (.coresWrite p v) s = .next (s.setPart p { q with cores := v })) ∧ (¬ share v q.slice → exec (.coresWrite p v) s = err) ∧
    (v.toNat < 2 ^ 32 → (v = 0 ∨ featOn s 6 = true) → share q.cores v → v ≠ 0 → exec (.sliceWrite p v) s = .next (s.setPart p { q with slice := v })) ∧
    (v = 0 → share q.cores v → ∃ s', exec (.sliceWrite p v) s = .next s' ∧ s'.part p = { q with slice := v } ∧ s'.mem = s.mem ∧
      (∀ x ∈ s.cores, (s.core x.1).slicePart = some p → (s'.core x.1).slicePart = none ∧ (s'.core x.1).deadline = none ∧
        ∀ k t, s.team k = some t → keyCore k = x.1 → t.state = .parked → t.waitKind = .deadline → s'.team k = some { t with state := .ready, waitKind := .none }) ∧
      ∀ k t, s.team k = some t → (s.core (keyCore k)).slicePart ≠ some p → s'.team k = some t) ∧
    (2 ^ 32 ≤ v.toNat ∨ (v ≠ 0 ∧ featOn s 6 = false) ∨ ¬ share q.cores v → exec (.sliceWrite p v) s = err))) ∧
  (∀ (s : State) (v : W64), let w := fun (off : Nat) => exec (.registerWrite 0 off v) s
    let d := s.dev
    (d.run = false → w 0x10 = .next { s with dev := { d with featLo := v } } ∧ w 0x18 = .next { s with dev := { d with featHi := v } }) ∧
    (d.run = true → w 0x10 = .next s ∧ w 0x18 = .next s) ∧ w 0x28 = .next s ∧ w 0 = .next s ∧
    w 0x30 = .next (if v.toNat % 2 ^ 18 = 0 then { s with dev := { d with t2Base := v } } else s) ∧
    w 0x1008 = .next (if v.toNat % 2 ^ 12 = 0 then { s with dev := { d with carBase := v } } else s) ∧
    w 0x1010 = .next { s with dev := { d with carSize := v &&& 0x1f#64 } } ∧ w 0x1020 = .next { s with dev := { d with carTail := v } } ∧
    w 0x1028 = .next (if v.getLsbD 0 = true then { s with dev := { d with carOver := false } } else s) ∧ w 0x1000 = exec (.carCtlWrite v) s ∧
    (∀ off, 0x2000 ≤ off → off < 0x100000 → w off = .next s) ∧
    (∀ k, k < 16 → w (0x100000 + 0x100 * k + 0x10) = .next (s.setPort k { s.port k with inBase := v }) ∧ w (0x100000 + 0x100 * k + 0x18) = .next (s.setPort k { s.port k with inBound := v }) ∧
      w (0x100000 + 0x100 * k + 8) = .next s ∧
      (v.getLsbD 0 = false → ∃ s', w (0x100000 + 0x100 * k) = .next s' ∧ (s'.port k).enable = false ∧ (s'.port k).fence = v.getLsbD 2 ∧ (s'.port k).state = .down)) ∧
    (∀ p, p < 25 → let b := 0x400000 + 0x10000 * p
      let q := s.part p
      let takes := fun (bits : Nat) (q1 : Part) => .next (if v.toNat % 2 ^ bits = 0 then s.setPart p q1 else s)
      w b = exec (.coresWrite p v) s ∧ w (b + 0x20) = exec (.sliceWrite p v) s ∧
      w (b + 8) = .next (s.setPart p (if 1 ≤ v.toNat ∧ v.toNat ≤ 64 then { q with hbmCh := v } else { q with err := true })) ∧
      w (b + 0x10) = .next (s.setPart p (if v.toNat ≤ 4096 then { q with queues := v } else { q with err := true })) ∧
      w (b + 0x48) = .next (if v.getLsbD 0 = true then s.setPart p { q with err := false } else s) ∧
      w (b + 0x1000) = takes 18 { q with segHbmBase := v } ∧ w (b + 0x1008) = takes 18 { q with segHbmBound := v } ∧ w (b + 0x1010) = takes 18 { q with segLpBase := v } ∧
      w (b + 0x1018) = takes 18 { q with segLpBound := v } ∧ w (b + 0x1020) = takes 18 { q with segCxBase := v } ∧ w (b + 0x1028) = takes 18 { q with segCxBound := v } ∧
      w (b + 0x1030) = takes 6 { q with poolHbm := v } ∧ w (b + 0x1038) = takes 6 { q with poolLp := v } ∧ w (b + 0x1040) = .next (s.setPart p { q with quota := v }) ∧
      w (b + 0x1048) = .next s ∧ w (b + 0x1050) = takes 12 { q with fbBase := v } ∧ w (b + 0x1058) = .next (s.setPart p { q with fbSize := v &&& 0x1f#64 }) ∧ w (b + 0x1060) = .next s ∧
      w (b + 0x1068) = .next (s.setPart p { q with fbTail := v }) ∧ w (b + 0x1070) = .next s ∧
      ∀ k, k < 16 → w (b + 0x2000 + 16 * k) = takes 18 { q with pwin := q.pwin.put (2 * k) v } ∧ w (b + 0x2000 + 16 * k + 8) = .next (s.setPart p { q with pwin := q.pwin.put (2 * k + 1) v })) ∧
    (∀ fn, 1 ≤ fn → fn ≤ 24 → let w := fun (off : Nat) => exec (.registerWrite fn off v) s
      let q := s.part fn
      (∀ off ∈ [0, 8, 0x10, 0x18, 0x20, 0x40, 0x1000, 0x1008, 0x1010, 0x1018, 0x1020, 0x1028, 0x1030, 0x1038, 0x1040, 0x1048, 0x1060, 0x1070, 0x2000, 0x2008], w off = .next s) ∧
      w 0x30 = .next (s.setPart fn { q with bootVa := v }) ∧ w 0x1050 = .next (if v.toNat % 2 ^ 12 = 0 then s.setPart fn { q with fbBase := v } else s) ∧
      w 0x1068 = .next (s.setPart fn { q with fbTail := v }) ∧ w 0x1088 = .next (s.setPart fn { q with invVa := v }) ∧ ∀ off, 0x3000 ≤ off → w off = .next s) ∧
    (∀ fn off, 24 < fn → exec (.registerWrite fn off v) s = .next s)) ∧
  (∀ (s : State) (p : Nat), let s1 := (bootRecord s p).1
    let rcd := (bootRecord s p).2
    let st := loadStatus s1 (s1.part p).bootVa rcd (partAllowed p)
    let off := s.dev.run = false ∨ (s.part p).cores = 0
    let ends := fun (s2 : State) (n : Nat) => exec (.bootCtlGo p) s = .next (s2.setPart p { s2.part p with bootGo := false, bootStatus := n, bootOid := none })
    (rcd ≠ none → s1 = s) ∧ ((s.part p).bootOid ≠ none → exec (.bootCtlGo p) s = .next s) ∧ ((s.part p).bootOid = none →
    (off → ends s 6) ∧ (¬ off → st ≠ 0 → ends s1 st) ∧
    (∀ bs, ¬ off → st = 0 → rcd = some bs → let oid := fieldOf bs 0 2
      ∃ s' c1, exec (.bootCtlGo p) s = .next s' ∧ s'.ctx oid = some c1 ∧ ctxRuns c1 = true ∧ c1.partition = fieldOf bs 2 1 ∧ c1.saveArea = (s.part p).bootVa.toNat ∧
      (requestOut s' oid = false → (s'.part p).bootGo = false ∧ (s'.part p).bootStatus = 0 ∧ (s'.part p).bootOid = none) ∧
      (requestOut s' oid = true → (s'.part p).bootGo = (s.part p).bootGo ∧ (s'.part p).bootStatus = (s.part p).bootStatus ∧ (s'.part p).bootOid = some oid) ∧
      ∀ c, c < 64 → (s.part p).cores.getLsbD c = true → banksIdle s c = true → let b := (s'.core c).bank (s.core c).shadow
        (halfHeld s (2 * c) = false → halfHeld s (2 * c + 1) = false → b.owner = some oid ∧ b.staging = true ∧ b.chain = true) ∧
        (∀ x ∈ s.ctxs, x.1 ≠ oid → 2 * c + (s.core c).shadow ∈ x.2.halves → b.owner = none)))) ∧
  (∀ (s : State) (p : Nat), let n := ((s.part p).fbGen + 1) % 2 ^ 32
    ∃ s1, exec (.fbCtlFlush p) s = .next ((refusedPeers s p).foldl (fun st r => retryPeer st r.1 r.2) s1) ∧ (s1.part p).fbGen = n ∧ s1.mem = s.mem ∧ s1.peers = s.peers ∧ (∀ cl, (s1.cluster cl).filter = []) ∧
      ∀ k t, s.team k = some t → let waits := hostWaits s p n .host t || hostWaits s p n .peer t
        (waits = false → s1.team k = some t) ∧ (waits = true → s1.team k = some { t with state := .ready, waitKind := .none, wait := 0 })) ∧
  (∀ (s0 s : State) (p : Nat) (oid : BitVec 12), let n := (s0.part p).fbGen + 1
    let mine := s.teams.filter fun e => decide (e.2.oid = oid.toNat) && hostWaits s p n .host e.2
    s = ((refusedPeers s0 p).filter fun r => decide (r.2.oid = oid.toNat)).foldl (fun st r => giveUpPeer st r.1)
      (hostWakes s0 fun t => decide (t.oid = oid.toNat) && hostWaits s0 p n .peer t) →
    (refusedPeers s0 p = [] → (∀ e ∈ s0.teams, hostWaits s0 p n .peer e.2 = false) → s = s0) ∧
    (mine = [] → exec (.fbCtlFail p oid) s0 = .next s) ∧
    (∀ k t, mine = [(k, t)] → let reason := waitField t.wait 10 1
      let cause := (if reason = 6 then cQuota else cPage) ||| cReason reason
      exec (.fbCtlFail p oid) s0 = .next (deliverWait s k t { h := t.h, i := if waitField t.wait 11 1 = accX then 0 else t.i, inst := t.hostWord, hdr := t.hostHdr, cause := cause, addr := BitVec.ofNat 64 (waitField t.wait 0 10), mask := t.hostMask }) ∧
      (t.handler = true → ∀ s', exec (.fbCtlFail p oid) s0 = .next s' → ∃ u, s'.team k = some u ∧ u.epend = t.epend ||| cause ∧ u.state = .ready ∧ u.waitKind = .none ∧ u.h = t.h ∧ u.v = t.v ∧ u.s = t.s))) ∧
  (∀ (s : State) (p : Nat), let q := s.part p
    let oid := bitsAt q.invCtl.toNat 0 12
    let r := invRange (q.invVa.toNat + bitsAt q.invVah.toNat 0 16 * 2 ^ 64) (bitsAt q.invCtl.toNat 32 16 + 1) (q.invCtl.getLsbD 16)
    (q.invCtl.getLsbD 63 = false ∨ rangeBusy s oid r.1 r.2 = true → exec (.invCtlGo p) s = .next s) ∧
    (q.invCtl.getLsbD 63 = true → rangeBusy s oid r.1 r.2 = false → ∃ s', exec (.invCtlGo p) s = .next s' ∧ (s'.part p).invCtl.getLsbD 63 = false ∧
      ((∀ c, s.ctx oid = some c → ∀ q ∈ c.queues, q.2.desc < r.1 ∨ r.1 + r.2 ≤ q.2.desc) → ∀ cl, ∀ e ∈ (s'.cluster cl).tlb, e.oid = oid → overlaps (e.vpn * if e.large = true then 2 ^ 33 else 2 ^ 18) (if e.large = true then 2 ^ 33 else 2 ^ 18) r.1 r.2 = false) ∧
      ∀ c, ∀ l ∈ (s'.core c).l1, l.2.oid = oid → overlaps (128 * l.2.vline) 128 r.1 r.2 = false)) ∧
  (∀ (s : State) (pa : Nat) (bs : List Byte),
    let inside := s.dev.run = true ∧ featOn s 1 = true ∧ (pa + bs.length ≤ 2 ^ 39 ∨ (2 ^ 40 ≤ pa ∧ pa + bs.length ≤ 2 ^ 41))
    (¬ inside → ∀ w, exec (.hostCxlMemAccess w pa bs) s = .fault .noHostDecoder) ∧
    (inside → exec (.hostCxlMemAccess false pa bs) s = .next s ∧
      (badAt s pa bs.length = false → ∃ s', exec (.hostCxlMemAccess true pa bs) s = .next s' ∧ homeBytes s' pa bs.length = bs ∧ s'.hostMem = s.hostMem ∧ s'.teams = s.teams ∧ s'.cores = s.cores ∧
        ∀ a, a < pa ∨ pa + bs.length ≤ a → s'.mem.byte a = s.mem.byte a))) ∧
  (∀ (s : State) (v : W64), let k := bitsAt v.toNat 1 5
    let sz := bitsAt s.dev.carSize.toNat 0 5
    let legal := v.getLsbD 0 = false ∨ (10 ≤ k ∧ k ≤ 24 ∧ 8 ≤ sz ∧ sz ≤ 24)
    (¬ legal → exec (.carCtlWrite v) s = .next s) ∧
    (legal → ∃ s', exec (.carCtlWrite v) s = .next s' ∧ s'.dev = { s.dev with carCtl := v &&& 0x3f#64 } ∧ s'.mem = s.mem ∧
      ∀ c, c < 64 → (s'.core c).absNext = if v.getLsbD 0 = true ∧ carOn s = false then true else (s.core c).absNext)) ∧
  (∀ s : State, let sz := s.dev.carSize.toNat % 32
    let head := s.dev.carHead
    let room := head - s.dev.carTail.toNat + 64 ≤ 2 ^ sz
    let due := carOn s = true ∧ s.tick % 2 ^ bitsAt s.dev.carCtl.toNat 1 5 = 0 ∧ s.dev.sweptAt ≠ some s.tick
    let swept := carOn s = true ∧ s.dev.sweptAt = some s.tick
    let vals := fun (c : Nat) => if (s.core c).absNext = true then (s.core c).counters else (List.range 8).map fun j => ((s.core c).counters.getD j 0 + 2 ^ 48 - (s.core c).lastSweep.getD j 0) % 2 ^ 48
    let rows := fun (cs : List Nat) => (List.range 8).map fun j => (16 + 6 * j, 6, cs.getD j 0)
    let wrote := fun (s' : State) (kind : Nat → Nat) (fs : Nat → List (Nat × Nat × Nat)) => s'.dev.carHead = head + 64 ∧
      ∀ c, c < 64 → homeBytes s' (s.dev.carBase.toNat + 64 * ((head + c) % 2 ^ sz)) 64 = layout 64 ([(0, 8, s.tick), (8, 1, kind c), (9, 1, c)] ++ fs c)
    let marked := fun (s' : State) (new old cause : Nat) => (∀ c, c < 64 → (s'.core c).absNext = true) ∧ s'.teams = s.teams ∧ s'.tick = s.tick ∧ (carOn s = false → s'.mem = s.mem ∧ s'.dev = s.dev) ∧
      (carOn s = true → room → wrote s' (fun _ => 3) fun _ => [(10, 2, new), (12, 2, old), (14, 1, cause)])
    (¬ due → exec .carillonSweep s = .next s) ∧
    (due → ∃ s', exec .carillonSweep s = .next s' ∧ s'.teams = s.teams ∧ s'.dev.sweptAt = some s.tick ∧ (∀ c, c < 64 → (s'.core c).counters = (s.core c).counters ∧ (s'.core c).lastSweep = (s.core c).counters) ∧
      (room → (∀ c, c < 64 → (s'.core c).absNext = false) ∧ wrote s' (fun c => if (s.core c).absNext = true then 1 else 2) fun c => rows (vals c))) ∧
    (s.dev.gongFired = false → exec .gong s = .next { s with dev := { s.dev with gongFired := true, gongAt := s.tick + 1 } }) ∧
    (s.dev.gongFired = true → s.tick < s.dev.gongAt → exec .gong s = .next s) ∧
    (s.dev.gongFired = true → s.dev.gongAt ≤ s.tick → ∃ s', exec .gong s = .next s' ∧ s'.dev.gongFired = false ∧ s'.teams = s.teams ∧ (carOn s = false → s'.mem = s.mem ∧ s'.cores = s.cores) ∧
      (carOn s = true → ¬ due → room → wrote s' (fun _ => 5) fun c => rows (s.dev.snapCounters.get c []))) ∧
    (s.dev.gongFired = true → s.tick = s.dev.gongAt → let s' := latchGong s
      s'.dev.gongTick = s.tick ∧ s'.dev.gongFired = true ∧ s'.teams = s.teams ∧ s'.mem = s.mem ∧ (∀ c, c < 64 → s'.dev.snapCounters.get c [] = (s.core c).counters) ∧
        ∀ p, p < 16 → s'.dev.snapPorts.get p 0 = portStat (s.port p)) ∧
    (∀ mhz, (700 ≤ mhz → mhz ≤ 1600 → s.stopped = false → ¬ swept → ∃ s', exec (.dvfsChange mhz) s = .next s' ∧ s'.mhz = mhz ∧ s'.stopped = false ∧ marked s' mhz s.mhz 1) ∧
      (mhz < 700 ∨ 1600 < mhz ∨ s.stopped = true ∨ swept → exec (.dvfsChange mhz) s = .next s)) ∧
    (swept → exec .clockStop s = .next s ∧ exec .clockRestart s = .next s) ∧
    (s.stopped = true → exec .clockStop s = .next s ∧ (¬ swept → ∃ s', exec .clockRestart s = .next s' ∧ s'.stopped = false ∧ s'.mhz = s.mhz ∧ marked s' s.mhz 0 3)) ∧
    (s.stopped = false → exec .clockRestart s = .next s ∧ (¬ swept → ∃ s', exec .clockStop s = .next s' ∧ s'.stopped = true ∧ s'.mhz = s.mhz ∧ marked s' 0 s.mhz 2))) ∧
  (∀ s : State, (∀ off, 0x2000 ≤ off → off < 0x100000 → registerRead s 0 off = 0) ∧
    ∀ p, 1 ≤ p → p ≤ 24 → ∀ pf : Bool, let rd := fun (off : Nat) => if pf = true then registerRead s 0 (0x400000 + 0x10000 * p + off) else registerRead s p off
      let q := s.part p
      rd 0 = q.cores ∧ rd 0x18 = BitVec.ofNat 64 q.qused ∧ rd 0x40 = (if s.dev.run = true ∧ q.cores ≠ 0 then 1 else 0) ∧ rd 0x48 = (if q.err = true then 1 else 0) ∧
        rd 0x1048 = BitVec.ofNat 64 q.used ∧ rd 0x1080 = 0 ∧ ∀ off, 0x3000 ≤ off → off < 0x10000 → rd off = 0)

/-- Enabling a DOWN port trains it once GZL is accepted, disabling it or a loss of signal takes it DOWN, RETRAIN and a lost lane train it, FENCE and UNFENCE act from the states that allow them, training ends ACTIVE with four lanes, DEGRADED with two or three, or DOWN after 10^8 ticks, and each change of state is told to the host. Requests that a port had sent fail when it stops moving them, those that wait are sent when it comes up and fail when it is DOWN or FENCED; one that the peer has refused stays with the host. A flit sent takes the next sequence number, reports the buffers freed, and stays in the replay buffer until the peer frees its own. A nack of the link sends a flit of the replay buffer again, and the eighth replay of one flit in a row fences the port. A flit with a bad check is nacked, and a good one raises the Lamport clock, of 64 bits; on a port that passes it, it frees buffers and does what its kind says in the order of sending: one that comes early is held, one that has come before is dropped. Model's own: the layout of payloads, the sequence that a nack names and the order of flits (log entry 14), from which states FENCE and RETRAIN act (52), and what a refused request and one on a port that goes DOWN or FENCED lead to (43). -/
def Obligations.PortsAndFlits : Prop :=
  (∀ (s : State) (p : Nat), let q := s.port p
    let up := portUp s p
    let moved := fun (s' : State) (st : PState) => (s'.port p).state = st ∧ (q.state ≠ st → (0, 3) ∈ s'.msix.drop s.msix.length) ∧ (∀ x, x ≠ p → s'.port x = s.port x) ∧
      (q.state ≠ st → (st = .training → (s'.port p).trainStart = s.tick ∧ (s'.port p).lanes = 0 ∧ ∀ e ∈ s'.peers, e.2.port = p → e.2.sent = false ∨ e.2.refused = true) ∧
        ((st = .down ∨ st = .fenced) → ∀ e ∈ s'.peers, e.2.port = p → e.2.refused = true) ∧ ((st = .active ∨ st = .degraded) → ∀ e ∈ s'.peers, e.2.port = p → e.2.sent = true ∨ e.2.refused = true))
    (∃ s', exec (.portEnable p) s = .next s' ∧ (s'.port p).enable = true ∧ moved s' (if s.dev.run = true ∧ featOn s 3 = true ∧ q.state = .down then .training else q.state)) ∧
    (∃ s', exec (.portDisable p) s = .next s' ∧ (s'.port p).enable = false ∧ moved s' .down) ∧
    (up = false → exec (.portRetrain p) s = .next s) ∧ (up = true → ∃ s', exec (.portRetrain p) s = .next s' ∧ moved s' .training) ∧
    (∃ s', exec (.portFence p) s = .next s' ∧ (s'.port p).fence = true ∧ moved s' (if up = true then .fenced else q.state)) ∧
    (∃ s', exec (.portUnfence p) s = .next s' ∧ (s'.port p).fence = false ∧ moved s' (if q.state = .fenced then .training else q.state)) ∧
    (∀ n, (q.state ≠ .training ∨ n < 2 → exec (.portTrainingComplete p n) s = .next s) ∧
      (q.state = .training → 4 ≤ n → ∃ s', exec (.portTrainingComplete p n) s = .next s' ∧ moved s' .active ∧ (s'.port p).lanes = 4) ∧
      (q.state = .training → 2 ≤ n → n < 4 → ∃ s', exec (.portTrainingComplete p n) s = .next s' ∧ moved s' .degraded ∧ (s'.port p).lanes = 2)) ∧
    (q.state ≠ .training ∨ s.tick < q.trainStart + 10 ^ 8 → exec (.portTrainingTimeout p) s = .next s) ∧
    (q.state = .training → q.trainStart + 10 ^ 8 ≤ s.tick → ∃ s', exec (.portTrainingTimeout p) s = .next s' ∧ moved s' .down) ∧
    (q.state ≠ .active → exec (.laneLost p) s = .next s) ∧ (q.state = .active → ∃ s', exec (.laneLost p) s = .next s' ∧ moved s' .training) ∧
    (∃ s', exec (.lossOfSignal p) s = .next s' ∧ moved s' .down) ∧
    (portPasses s p = false ∨ q.replay = [] → exec (.nackReplay p) s = .next s) ∧
    (∀ f r, portPasses s p = true → q.replay = f :: r → let n := if q.replayed = some (fieldOf f 1 1) then q.consecutive + 1 else 1
      ∃ s', exec (.nackReplay p) s = .next s' ∧ s'.outbox = s.outbox ++ [(p, f)] ∧ (s'.port p).replays = (q.replays + 1) % 2 ^ 32 ∧ (s'.port p).consecutive = n ∧ (s'.port p).replayed = some (fieldOf f 1 1) ∧
      (s'.port p).replay = q.replay ∧ (n < 8 → (s'.port p).state = q.state ∧ s'.peers = s.peers) ∧ (8 ≤ n → (s'.port p).fence = true ∧ (up = true → (s'.port p).state = .fenced)))) ∧
  (∀ (s : State) (p kind : Nat) (payload : List Byte), let s' := sendFlit s p kind payload
    let stamp := Nat.max ((s.dev.lclk + 1) % 2 ^ 64) s.tick
    let q := s.port p
    let credits := Nat.min q.freed 0xffff
    s'.dev.lclk = stamp ∧ (s'.port p).seq = (q.seq + 1) % 256 ∧ (s'.port p).freed = q.freed - credits ∧ (s'.port p).consecutive = q.consecutive ∧ (s'.port p).state = q.state ∧ s'.teams = s.teams ∧ s'.mem = s.mem ∧
    ∃ flit, s'.outbox = s.outbox ++ [(p, flit)] ∧ (s'.port p).replay = q.replay ++ [flit] ∧ flit.length = 256 ∧ fieldOf flit 0 1 = kind % 256 ∧ fieldOf flit 1 1 = q.seq % 256 ∧ fieldOf flit 2 2 = credits ∧ fieldOf flit 4 4 = 0 ∧
      fieldOf flit 8 8 = stamp % 2 ^ 64 ∧ flit.drop 248 = leBytes 8 (crc64 0 (flit.take 248)).toNat ∧ (payload.length ≤ 232 → (flit.drop 16).take payload.length = payload)) ∧
  (∀ (s : State) (p : Nat) (flit : List Byte), let f := fieldOf flit
    let kind := f 0 1
    let seq := f 1 1
    let q := s.port p
    let go := exec (.flitReceive p flit) s
    let s1 := { s with dev := { s.dev with lclk := Nat.max s.dev.lclk ((f 8 8 + 1) % 2 ^ 64) } }
    let s2 := modPort s1 p (takeCredits (f 2 2))
    let s3 := modPort s2 p fun x => { x with expect := some ((seq + 1) % 256), freed := x.freed + 1 }
    let good := flit.length = 256 ∧ flit.drop 248 = leBytes 8 (crc64 0 (flit.take 248)).toNat
    let inTurn := q.expect = none ∨ (q.expect = some seq ∧ q.early = [])
    let acts := portUp s p = true ∨ kind = 7 ∨ (kind = 6 ∧ f 16 1 = 0)
    let pa := f 16 8
    let n := f 24 1
    let sends := fun (s4 : State) (k : Nat) (bs : List Byte) => go = .next (sendFlit s4 p k bs)
    (portPasses s p = true ↔ portUp s p = true ∨ q.state = .fenced) ∧
    (∀ c x, (takeCredits c x).replay = x.replay.drop c ∧ (takeCredits c x).state = x.state ∧ (takeCredits c x).expect = x.expect) ∧
    (q.state = .down → go = .next s) ∧ (q.state = .training → ¬ good → go = .next s) ∧ (q.state = .training → good → go = .next s1) ∧
    (portPasses s p = true → ¬ good → ∃ s4, sends s4 6 [0, BitVec.ofNat 8 (q.expect.getD seq)] ∧ (s4.port p).expect = some (q.expect.getD seq) ∧ s4.teams = s.teams ∧ s4.mem = s.mem ∧ s4.dev = s.dev) ∧
    (portPasses s p = true → good → (∀ e, q.expect = some e → seq ≠ e →
      (128 ≤ (seq + 256 - e) % 256 → sends s2 6 [0, BitVec.ofNat 8 e]) ∧
      ((seq + 256 - e) % 256 < 128 → if flit ∈ q.early then go = .next s2 else go = .next (modPort s2 p fun x => { x with early := x.early ++ [flit] }))) ∧
      (inTurn → ¬ acts → go = .next s3) ∧ (inTurn → acts →
      (kind = 1 → (inboundOk s p pa n = false → sends s3 6 [1]) ∧ (inboundOk s p pa n = true → sends s3 (if badAt s pa n = true then 6 else 4) (if badAt s pa n = true then [2] else homeBytes s pa n))) ∧
      (kind = 2 → (inboundOk s p pa (Nat.min n 128) = false → sends s3 6 [1]) ∧
        (inboundOk s p pa (Nat.min n 128) = true → badAt s pa (Nat.min n 128) = false → ∃ s4, sends s4 5 [] ∧ homeBytes s4 pa (Nat.min n 128) = leBytes (Nat.min n 128) (f 32 (Nat.min n 128)) ∧ s4.teams = s.teams)) ∧
      (kind = 3 → (inboundOk s p pa n = false → sends s3 6 [1]) ∧ (inboundOk s p pa n = true → badAt s pa n = true → sends s3 6 [2]) ∧
        (inboundOk s p pa n = true → badAt s pa n = false → let old := homeNat s pa n
          ∃ s4, (if f 26 1 = 1 then sends s4 4 (leBytes n old) else sends s4 5 []) ∧ s4.teams = s.teams ∧
            homeNat s4 pa n = if atomWrites (f 25 1) old (f 40 8 % 2 ^ (8 * n)) = true then atomNew (f 25 1) n old (f 32 8 % 2 ^ (8 * n)) (f 40 8 % 2 ^ (8 * n)) % 2 ^ (8 * n) else old)) ∧
      (kind = 4 → (oldestPeer s p asksOld = none → go = .next s3) ∧
        (∀ id r l lane x, oldestPeer s p asksOld = some (id, r) → r.load = some (l, lane) → s.loads.find l = some x → ∃ s' x', go = .next s' ∧ s'.peers.find id = none ∧ s'.loads.find l = some x' ∧
          ∀ y' ∈ x'.lanes, y'.lane = lane → y'.data = some ((leBytes 232 (f 16 232)).take x.size))) ∧
      (kind = 5 → (oldestPeer s p (fun r => !asksOld r) = none → go = .next s3) ∧
        (∀ id r k, oldestPeer s p (fun r => !asksOld r) = some (id, r) → r.job = none → r.team = some k → go = .next (peerAcquire (storeDone { s3 with peers := s.peers.erase id } k r.num) r))) ∧
      (kind = 6 → (f 16 1 = 0 → go = .next (replayFlit s3 p fun x => decide (fieldOf x 1 1 = f 17 1))) ∧ (f 16 1 ≠ 0 → oldestPeer s p (fun _ => true) = none → go = .next s3) ∧
        (∀ id r, f 16 1 ≠ 0 → oldestPeer s p (fun _ => true) = some (id, r) → r.job = none → go = .next (if f 16 1 = 1 then refusePeer s3 id r else failPeer s3 id))) ∧
      (kind = 7 → go = .next (modPort s3 p fun x => { x with replicas := x.replicas ++ [(pa, f 24 8, f 8 8, s.tick)] })) ∧
      (kind = 0 ∨ 7 < kind → go = .next s3))))

/-- A started copy, gather or collective card of a running context moves its next bytes, positions or request when its ranges translate, and otherwise waits for a page-in, or stops with its queue FAULTED; at its total its command completes. A REPLICA card sends its digest and ends with the partner's answer; when its port has left ACTIVE and DEGRADED before one came, or 10^9 ticks have passed, it ends as timed out, and a serial one that disagrees or times out fences its port. A walk installs the leaf that it finds with A set, sets BUSY and starts a page-in for a parked leaf, and installs nothing on a failure. A page-in of an unchanged leaf moves the page to a frame of the HBM pool, installs the leaf with A = 1, without BUSY, and charges the quota; where the leaf has changed no quota is charged; a failure takes BUSY away and makes the demanding team wait for the host, or leaves its reason to the engine; and what waited on the leaf walks again. pg.map gives the status of PgMap, and with a discarding D raises the fault of status 2 or 3; pg.inv with FREE raises UNCORRECTABLE where a table on the way holds an error, and otherwise pg.inv drops the translations and lines of its range and waits, and its acknowledgement returns the frames and gives D = 0. Model's own: page-ins and walks are one step each (log entry 5), the status for a valid leaf, the order of quota and pops, and pg.map as one step (27), a card that faulted is read and starts again whole (38), and requests on a port that is DOWN or FENCED fail at once, a REPLICA card on a DOWN port ends with TIMEOUT (43). -/
def Obligations.JobEnginesAndPages : Prop :=
  (∀ (s : State) (job : Nat), let stops := fun (i : Instr) => exec i s = .next s
    (jobAt s job 0 = none → stops (.copyJob job)) ∧ (jobAt s job 1 = none → stops (.gatherJob job)) ∧
    (jobAt s job 2 = none → stops (.collectivePut job) ∧ stops (.replicaExchange job) ∧ stops (.replicaTimeout job))) ∧
  (∀ (s : State) (oid : Nat) (e : Entry) (engine reason va acc : Nat) (leaf : W64) (q : Queue), s.queue oid e.queue = some q →
    ∃ q1, (jobFault s oid e engine reason va acc leaf).queue oid e.queue = some q1 ∧ q1.state = .faulted ∧ q1.faultEntry = e.addr ∧ q1.fault = if reasonOf reason = 8 ∨ reasonOf reason = 11 then 6 else 5) ∧
  (∀ (s : State) (job oid : Nat) (e : Entry), jobAt s job 0 = some (oid, e) → let b := fieldOf e.card
    let row := b 24 8
    let total := row * b 32 4
    let stop := Nat.min total (128 * (e.progress / 128 + 1))
    let parts := rowParts row 128 e.progress stop
    let span := fun (acc base stride : Nat) (st : State) => spanAll 0 (b 4 2) oid acc (parts.map fun p => (base + p.1 * stride + p.2.1, p.2.2)) st
    let src := span accR (b 8 8) (b 40 8) s
    let go := exec (.copyJob job) s
    (src.2 = .inr .wait → go = .next src.1) ∧ (∀ reason va leaf, src.2 = .inr (.fault reason va leaf) → go = .next (jobFault src.1 oid e 0 reason va accR leaf)) ∧
    (∀ ps, src.2 = .inl ps → let dst := span accW (b 16 8) (b 48 8) src.1
      (dst.2 = .inr .wait → go = .next dst.1) ∧ (∀ reason va leaf, dst.2 = .inr (.fault reason va leaf) → go = .next (jobFault dst.1 oid e 0 reason va accW leaf)) ∧
      (∀ qs, dst.2 = .inl qs → let w := jobWrite dst.1 (qs.flatMap (·.2)) (ps.flatMap fun x => spanBytes dst.1 x.2)
        (∀ va, w.2 = some va → go = .next (jobFault w.1 oid e 0 11 va accW 0)) ∧
        (w.2 = none → (total ≤ stop → go = .next (commandDone w.1 oid e.queue e.seq)) ∧ (stop < total → go = .next (setJob w.1 oid e { e with progress := stop })) ∧
          ∀ va v n p q, ps.flatMap (·.2) = [(va, p, n)] → qs.flatMap (·.2) = [(v, q, n)] → p + n ≤ 2 ^ 48 → q + n ≤ 2 ^ 48 → homeBytes w.1 q n = homeBytes dst.1 p n)))) ∧
  (∀ (s : State) (job oid : Nat) (e : Entry), jobAt s job 1 = some (oid, e) → let b := fieldOf e.card
    let cl := 4 * b 4 2
    let isz := 2 ^ b 9 1
    let bytes := b 12 4
    let total := b 24 8
    let rows := b 56 8
    let n := Nat.min 1024 (total - e.progress)
    let gather := decide (b 8 1 = 0)
    let trow := fun (i : Nat) => (b 32 8 + i * b 40 8) % 2 ^ 64
    let drow := fun (p : Nat) => (b 48 8 + p * bytes) % 2 ^ 64
    let go := exec (.gatherJob job) s
    let ix := spanAll 1 cl oid accR [(b 16 8 + isz * e.progress, isz * n)] s
    (ix.2 = .inr .wait → go = .next ix.1) ∧ (∀ reason va leaf, ix.2 = .inr (.fault reason va leaf) → go = .next (jobFault ix.1 oid e 1 reason va accR leaf)) ∧
    (∀ l s1 ts s2 ds, ix.2 = .inl l → let raw := l.flatMap fun x => spanBytes ix.1 x.2
      let pos := (List.range n).map fun i => (e.progress + i, leNat ((raw.drop (isz * i)).take isz))
      let live := (distinct (pos.map (·.2))).filter fun i => decide (i < rows)
      spanAll 1 cl oid (if gather = true then accR else accR + accW) (live.map fun i => (trow i, bytes)) ix.1 = (s1, .inl ts) →
      spanAll 1 cl oid (if gather = true then accW else accR) ((pos.filter fun p => gather || decide (p.2 < rows)).map fun p => (drow p.1, bytes)) s1 = (s2, .inl ds) →
      let w := (if gather = true then gatherWindow bytes rows trow drow ts ds pos s2 else scatterWindow (decide (b 8 1 = 1)) rows trow drow ts ds pos s2)
      (∀ va, w.2 = some va → go = .next (jobFault w.1 oid e 1 11 va accW 0)) ∧
      (w.2 = none → total ≤ e.progress + n → go = .next (commandDone w.1 oid e.queue e.seq)) ∧ (w.2 = none → e.progress + n < total → go = .next (setJob w.1 oid e { e with progress := e.progress + n })) ∧
      (∀ p i, gather = true → pos = [(p, i)] → w = jobWrite s2 (piecesOf ds (drow p)) (if i < rows then spanBytes s2 (piecesOf ts (trow i)) else List.replicate bytes 0)) ∧
      (∀ p i, gather = false → pos = [(p, i)] → i < rows →
        w = jobWrite s2 (piecesOf ts (trow i)) (addElems (decide (b 8 1 = 1)) (spanBytes s2 (piecesOf ts (trow i))) (spanBytes s2 (piecesOf ds (drow p))))))) ∧
  (∀ (s : State) (job oid : Nat) (e : Entry), jobAt s job 2 = some (oid, e) → let b := fieldOf e.card
    let op := b 8 1
    let port := b 9 1
    let total := b 32 8
    let go := exec (.collectivePut job) s
    let n := if op = 0 then Nat.min 128 (total - e.progress) else 4
    let x := engineSpan s 2 0 oid (xva ((b 16 8 + e.progress) % 2 ^ 64)) n accR
    let ask := fun (kind pa : Nat) (data : List Byte) => ({ port := port, kind := kind, pa := pa, data := data, va := 0, oid := oid, word := 0, hdr := 0, acq := none, load := none, team := none, num := 0, job := some (oid, e.queue, e.seq), hold := false, sent := false, refused := false } : PeerReq)
    (op = 3 ∨ jobWaits s oid e = true → go = .next s) ∧
    (op ≠ 3 → jobWaits s oid e = false →
      (portDead s port = true → go = .next (jobFault s oid e 2 11 0 accW 0)) ∧ (portDead s port = false → portUp s port = false → go = .next s) ∧
      (portUp s port = true →
        (e.progress < total → (x.2 = .wait → go = .next x.1) ∧ (∀ reason va leaf, x.2 = .fault reason va leaf → go = .next (jobFault x.1 oid e 2 reason va accR leaf)) ∧
          (∀ ps, x.2 = .ok ps → spanBad x.1 ps = none → let w := windowPa s (ctxPart s oid) port (b 24 8 + e.progress) n
            (w = none → go = .next (jobFault x.1 oid e 2 5 0 accW 0)) ∧
            (∀ pa, w = some pa → (op = 0 → go = .next (askPeer x.1 (ask 1 pa (spanBytes x.1 ps)))) ∧
              (op ≠ 0 → go = .next (askPeer x.1 (ask 2 pa (atomPayload (if op = 1 then 12 else 0) 4 (leNat (spanBytes x.1 ps)) 0))))))) ∧
        (total ≤ e.progress → b 40 8 = 0 ∨ total < e.progress → go = .next (commandDone s oid e.queue e.seq)) ∧
        (total = e.progress → b 40 8 ≠ 0 → ∀ pa, windowPa s (ctxPart s oid) port (b 40 8) 4 = some pa → go = .next (askPeer s (ask 1 pa (leBytes 4 (b 48 4))))))) ∧
    (op = 3 → let ex := exec (.replicaExchange job) s
      let out := exec (.replicaTimeout job) s
      let q := s.port port
      (e.sentAt = none → out = .next s ∧ (q.state = .training → ex = .next s) ∧ (q.state ≠ .training → ∀ s1 own serial, replicaDigest s oid e = (s1, .inl (own, serial)) →
        (q.state = .down → ex = .next (replicaEnd s1 oid e own serial none)) ∧
        (q.state ≠ .down → ex = .next (setJob (sendFlit s1 port 7 (leBytes 8 (b 24 8) ++ leBytes 8 own)) oid e
          { e with sentAt := some { tick := s.tick, own := own, serial := serial, left := false } })))) ∧
      (∀ x, e.sentAt = some x → let answer := q.replicas.find? fun r => decide (r.1 = b 24 8 ∧ r.2.2.2 ≤ x.tick + 10 ^ 9)
        (x.left = true → ex = .next (replicaEnd s oid e x.own x.serial none) ∧ out = .next (replicaEnd s oid e x.own x.serial none)) ∧
        (∀ a, x.left = false → answer = some a → ex = .next (replicaEnd s oid e x.own x.serial (some a.2)) ∧ out = .next s) ∧
        (x.left = false → answer = none → ex = .next s ∧ (s.tick < x.tick + 10 ^ 9 → out = .next s) ∧ (x.tick + 10 ^ 9 ≤ s.tick → out = .next (replicaEnd s oid e x.own x.serial none))))) ∧
    (op ≠ 3 → exec (.replicaExchange job) s = .next s ∧ exec (.replicaTimeout job) s = .next s) ∧
    (∀ own serial partner s2 ps w, engineSpan s 2 0 oid (xva (b 32 8)) 64 accW = (s2, .ok ps) →
      let agree := decide (partner.map (·.1) = some own)
      jobWrite s2 ps (layout 64 [(0, 8, b 24 8), (8, 8, own), (16, 8, (partner.map (·.1)).getD 0), (24, 8, (partner.map (·.2.1)).getD 0), (32, 1, (if agree = true then 1 else 0) + if partner.isNone = true then 2 else 0)]) = (w, none) →
      (serial = false ∨ agree = true → replicaEnd s oid e own serial partner = commandDone (modPort w port fun p => { p with replicas := match partner with
        | some y => p.replicas.erase (b 24 8, y) | none => p.replicas }) oid e.queue e.seq) ∧
      (serial = true → agree = false → let z := (replicaEnd s oid e own serial partner).port port
        z.fence = true ∧ z.state = .fenced))) ∧
  (∀ (s : State) (cl oid acc : Nat) (va : BitVec 80) (c : Ctx), let go := exec (.tlbWalk cl oid va acc) s
    (s.ctx oid = none → go = .next s) ∧
    (s.ctx oid = some c → tlbFind (s.cluster cl) oid va.toNat = none →
      (∀ pa q e large, walk s oid va.toNat acc = .ok pa q e large → ∃ s' x, go = .next s' ∧ x ∈ (s'.cluster cl).tlb ∧ x.oid = oid ∧ x.large = large ∧ x.vpn = vpnOf large va.toNat ∧ x.leafPa = q ∧ x.leaf = e ||| 0x100 ∧
        s'.teams = s.teams ∧ (q + 8 ≤ 2 ^ 48 → badAt s q 8 = false → e.toNat = homeNat s q 8 → homeNat s' q 8 = (e ||| 0x100).toNat)) ∧
      (∀ q e, walk s oid va.toNat acc = .parked q e → ∃ s', go = .next s' ∧ tlbFind (s'.cluster cl) oid va.toNat = none ∧ s'.teams = s.teams ∧
        (homeNat s q 8 = e.toNat → badAt s q 8 = false → (q + 8 ≤ 2 ^ 48 → homeNat s' q 8 = (e ||| 8).toNat) ∧
          ∃ x ∈ s'.pageIns, x.2 = { cluster := cl, oid := oid, leafPa := q, leaf := e, va := va.toNat, acc := acc, team := none, mask := 0, code := 0 })) ∧
      (∀ r e, walk s oid va.toNat acc = .fail r e → ∃ s', go = .next s' ∧ tlbFind (s'.cluster cl) oid va.toNat = none ∧ s'.mem = s.mem ∧ s'.teams = s.teams ∧ s'.pageIns = s.pageIns))) ∧
  (∀ s : State, (∀ c ∈ s.ctxs, c.2.wordDue = false ∧ (ctxRuns c.2 = false ∨ c.2.listDue = false) ∧ ∀ q ∈ c.2.queues, q.2.owed = [] ∧ q.2.descPa ≠ noDesc) → retryAll s = s) ∧
  (∀ (s : State) (line : Nat), ∃ s', exec (.busyLeafChange line) s = .next (retryAll s') ∧ s'.mem = s.mem ∧ s'.cores = s.cores ∧ ∀ k t, s.team k = some t →
    (∀ b, t.busyLeaf = some b → b.1 / 128 = line → homeNat s b.1 8 ≠ b.2.toNat → s'.team k = some { t with busyLeaf := none }) ∧
    (t.busyLeaf = none ∨ (∃ b, t.busyLeaf = some b ∧ (b.1 / 128 ≠ line ∨ homeNat s b.1 8 = b.2.toNat)) → s'.team k = some t)) ∧
  (∀ (s : State) (page : Nat), (s.pageIns.find page = none → exec (.pageIn page) s = .next (retryAll s)) ∧
    (∀ x, s.pageIns.find page = some x → let p := ctxPart s x.oid
      let q := s.part p
      let s0 := { s with pageIns := s.pageIns.erase page }
      let pop := poolPop s0 p q.poolHbm.toNat (pageWho x)
      ∃ s', exec (.pageIn page) s = .next (retryAll s') ∧ s'.pageIns.find page = none ∧ (∀ k t b, s'.team k = some t → t.busyLeaf = some b → b.1 ≠ x.leafPa) ∧
        (∀ f src dst, segPa s0 p 2 (pteOff x.leaf) = some src → q.used + 1 ≤ q.quota.toNat → pop.2 = some f → frameGood pop.1 p 0 f = true → segPa pop.1 p 0 f = some dst → badAt pop.1 src (2 ^ 18) = false →
          let copied := copyRange pop.1 src dst (2 ^ 18)
          s'.pageFails = s.pageFails ∧
          (homeNat copied x.leafPa 8 = (x.leaf ||| 8).toNat → badAt copied x.leafPa 8 = false → (s'.part p).used = q.used + 1 ∧
            (x.leafPa + 8 ≤ 2 ^ 48 → homeNat s' x.leafPa 8 = (pagedLeaf x.leaf f).toNat) ∧ (pagedLeaf x.leaf f).getLsbD 8 = true) ∧
          (homeNat copied x.leafPa 8 ≠ (x.leaf ||| 8).toNat → (s'.part p).used = q.used)) ∧
        (∀ src, segPa s0 p 2 (pteOff x.leaf) = some src → q.quota.toNat < q.used + 1 → (s'.part p).used = q.used ∧
          ((∀ k t, x.team = some k → s.team k = some t → t.holdsEdit = none) → x.leafPa + 8 ≤ 2 ^ 48 → badAt s x.leafPa 8 = false → homeNat s x.leafPa 8 = (x.leaf ||| 8).toNat → homeNat s' x.leafPa 8 = x.leaf.toNat) ∧
          (∀ k t, x.team = some k → s.team k = some t → t.busyLeaf.map (·.1) = some x.leafPa → ∃ t', s'.team k = some t' ∧ t'.state = .waiting ∧ t'.waitKind = .host ∧ t'.v = t.v ∧ t'.s = t.s) ∧
          (x.team = none → { leafPa := x.leafPa, oid := x.oid, cluster := x.cluster, code := x.code, reason := 6 } ∈ s'.pageFails)))) ∧
  (∀ (f : SYS) (s : State) (k : Nat) (t : Team), let va := extVA (opdS s k t f.a)
    let s1 := drain s k t
    let late := fun (i : Instr) => Traps i s k t s { bits := cIllegalOp, addr := wordAddr t.h t.i, mask := t.e }
    let r := fun (s1 : State) => pgMapRun s1 { oid := t.oid, va := va, acc := 0, core := keyCore k, slot := keySlot k } va (f.lo.getLsbD 0) (f.lo.getLsbD 1) (if f.lo.getLsbD 2 = true then 1 else 0)
    let trap := fun (s1 : State) (bits : W64) => Traps (.pgMap f) s k t s1 { bits := bits, addr := BitVec.ofNat 64 va, mask := lanesOf t f.g }
    let n := (opdS s k t (Opd.next f.a 1)).toNat
    (Issues (.pgMap f) s k t → Once (.pgMap f) f.g s k t (
      (t.handler = false → teamSched s t = false → late (.pgMap f)) ∧
      (t.handler = true ∨ teamSched s t = true → (peerHold s k = true → Stalls (.pgMap f) s k) ∧
        (peerHold s k = false → peerOut s k = false →
          (∀ c, (r s1).2 = some c → f.d.isN = false ∨ (c ≠ 2 ∧ c ≠ 3) → Completes (.pgMap f) s k t (writeS (r s1).1 k f.d (BitVec.ofNat 64 c))) ∧
          ((r s1).2 = some 2 → f.d.isN = true → trap (r s1).1 (cQuota ||| cReason 6)) ∧ ((r s1).2 = some 3 → f.d.isN = true → trap (r s1).1 (cPage ||| cReason 7)) ∧
          ((r s1).2 = none → ∃ s2, trap s2 cUncorrectable))))) ∧
    (Issues (.pgInv f) s k t → Once (.pgInv f) f.g s k t (
      (f.lo.getLsbD 0 = true → t.handler = false → teamSched s t = false → late (.pgInv f)) ∧
      (f.lo.getLsbD 0 = false ∨ t.handler = true ∨ teamSched s t = true →
        (n < 1 ∨ 65536 < n → Completes (.pgInv f) s k t (writeS s k f.d 1)) ∧
        (1 ≤ n → n ≤ 65536 → (peerHold s k = true → Stalls (.pgInv f) s k) ∧
          (peerHold s k = false → peerOut s k = false → f.lo.getLsbD 0 = true → ∀ x r, leafErrs s1 t.oid ((List.range n).map fun i => (invRange va n (f.lo.getLsbD 1)).1 + i * 2 ^ 18) = x :: r →
            ∃ s2, Traps (.pgInv f) s k t s2 { bits := cUncorrectable, addr := BitVec.ofNat 64 x, mask := lanesOf t f.g }) ∧
          (peerHold s k = false → peerOut s k = false → f.lo.getLsbD 0 = false ∨ leafErrs s1 t.oid ((List.range n).map fun i => (invRange va n (f.lo.getLsbD 1)).1 + i * 2 ^ 18) = [] → ∃ s2, Waits (.pgInv f) s k t s2 .pgInv (waitMake [(0, va), (10, n)]) ∧ let g := invRange va n (f.lo.getLsbD 1)
            (∀ cl, ∀ e ∈ (s2.cluster cl).tlb, e.oid = t.oid → overlaps (e.vpn * if e.large = true then 2 ^ 33 else 2 ^ 18) (if e.large = true then 2 ^ 33 else 2 ^ 18) g.1 g.2 = false) ∧
            ∀ c, ∀ l ∈ (s2.core c).l1, l.2.oid = t.oid → overlaps (128 * l.2.vline) 128 g.1 g.2 = false)))))) ∧
  (∀ (s : State) (w : Who) (va : Nat) (wr x : Bool) (tier level q : Nat) (e : W64), mapWalk s (ctxPart s w.oid) va 4 (rootOf s w.oid va) = .entry level q e →
    (level = 4 → pteV e = true → pgMapRun s w va wr x tier = (s, some 1)) ∧
    (level = 4 → pteV e = false → let a := allocFrames s (ctxPart s w.oid) w [tier]
      (a.2 = .quota → pgMapRun s w va wr x tier = (a.1, some 2)) ∧ (a.2 = .empty → pgMapRun s w va wr x tier = (a.1, some 3)) ∧ (a.2 = .bad → pgMapRun s w va wr x tier = (a.1, some 6)) ∧
      (∀ f, a.2 = .ok [f] → pgMapRun s w va wr x tier = (entryPut a.1 (some w.core) q
        (BitVec.ofNat 64 (1 + (if wr = true then 2 else 0) + (if x = true then 4 else 0) + tier * 2 ^ 4 + f + bitsAt (homeNat a.1 q 8) 56 7 * 2 ^ 56)).toNat, some 0)))) ∧
  (∀ (s : State) (core : Option Nat) (q v : Nat), q + 8 ≤ 2 ^ 48 → badAt s q 8 = false → v < 2 ^ 64 → homeNat (entryPut s core q v) q 8 = v) ∧
  (∀ (s : State) (core slot : Nat), let who := waitingKey s core slot (waitsFor .pgInv)
    let go := exec (.pgInvAckComplete core slot) s
    (who = none → go = .next s) ∧
    (∀ k t f, who = some k → s.team k = some t → parse t.hostWord = .pgInv f → let g := invRange (waitField t.wait 0 10) (waitField t.wait 10 4) (f.lo.getLsbD 1)
      (rangeBusy s t.oid g.1 g.2 = true → go = .next s) ∧
      (rangeBusy s t.oid g.1 g.2 = false → t.state = .waiting → ∃ s' t', go = .next s' ∧ s'.team k = some t' ∧ t'.state = .ready ∧ t'.waitKind = .none ∧ t'.work = none ∧ t'.h = t.h ∧ t'.i = t.i + 1 ∧
        (f.d.isSK = true → reg s' k true f.d 0 = 0) ∧ (∀ w, t.work = some w → (s'.part (ctxPart s t.oid)).used = (s.part (ctxPart s t.oid)).used - w.frames))))

/-- For every state whose device memory, host memory, operand memories and scratchpads are in their canonical form (addresses strictly rising, no listed byte equal to what an unlisted address reads as), if step answers a next state then its memories are in that form too. That an unlisted byte reads 0 is the model's choice (log entry 2). -/
def Obligations.StepKeepsMemoriesCanonical : Prop :=
  ∀ s s' : State, MemoriesCanonical s → step s = .next s' → MemoriesCanonical s'

/-- In State.reset every memory is canonical and lists nothing; no team, context, kernel, gang, slot, load, store, page-in or request exists; the part is not READY, not RUN, without features; every port is DOWN and not enabled; partition 0 has every core and 4,096 queues, the others none, each with 64 HBM channels, no queue in use and no page used; every control bank of every core is empty, with no swap and no deadline; every TLB and L1 is empty; the carillon is off. Registers for which the spec gives no reset value hold what log entry 3 names. -/
def Obligations.ResetStateIsTheSpecs : Prop :=
  MemoriesCanonical State.reset ∧ State.reset.mem = [] ∧ State.reset.hostMem = [] ∧ State.reset.teams = [] ∧ State.reset.ctxs = [] ∧ State.reset.kernels = [] ∧ State.reset.gangs = [] ∧
  State.reset.loads = [] ∧ State.reset.posts = [] ∧ State.reset.fills = [] ∧ State.reset.slotOps = [] ∧ State.reset.pageIns = [] ∧ State.reset.peers = [] ∧ State.reset.outbox = [] ∧
  State.reset.dev.ready = false ∧ State.reset.dev.run = false ∧ State.reset.dev.go = false ∧ State.reset.dev.negFail = false ∧ State.reset.dev.featLo = 0 ∧ carOn State.reset = false ∧ State.reset.stopped = false ∧
  (∀ p, p < 16 → (State.reset.port p).state = .down ∧ (State.reset.port p).enable = false ∧ (State.reset.port p).fence = false) ∧
  (∀ p, p < 25 → (State.reset.part p).cores = (if p = 0 then BitVec.allOnes 64 else 0) ∧ (State.reset.part p).queues = (if p = 0 then 4096 else 0) ∧ (State.reset.part p).hbmCh = 64 ∧ (State.reset.part p).quota = 0 ∧ (State.reset.part p).qused = 0 ∧ (State.reset.part p).used = 0 ∧ (State.reset.part p).err = false ∧ (State.reset.part p).bootGo = false ∧ (State.reset.part p).fbHead = 0 ∧
    (State.reset.part p).fbGen = 0 ∧ (State.reset.part p).slice = 0) ∧
  (∀ c, c < 64 → (State.reset.core c).active = 0 ∧ (State.reset.core c).bank0 = Bank.empty ∧ (State.reset.core c).bank1 = Bank.empty ∧ (State.reset.core c).swap = none ∧ (State.reset.core c).deadline = none ∧
    (State.reset.core c).l1 = [] ∧ (State.reset.core c).slots = [] ∧ (State.reset.core c).pipes = []) ∧
  (∀ cl, cl < 16 → (State.reset.cluster cl).tlb = [] ∧ (State.reset.cluster cl).fused = false)
end

