-- ==== Sys2Proof/Laws/Access.lean ====
section
/-! SUPPORT. Accesses whose pages the TLB has: the checks of R200 pass and change nothing. -/

namespace Sys2Proof.Machine

/-- What a TLB entry gives a lane. -/
def tlbLane (s : State) (cl oid : Nat) (pa : Nat → Nat) (p : Nat × Nat) : Nat × Nat × XRes :=
  (p.1, p.2, match tlbFind (s.cluster cl) oid p.2 with | some e => .ok (pa p.1) e.leafPa e.leaf e.large | none => .ok (pa p.1) 0 0 false)

variable {s : State} {k : Nat} {t : Team} {size acc : Nat} {pa : Nat → Nat}

/-- Lanes that the TLB maps are translated by it, and nothing changes. -/
theorem xlatLanes_mapped (core : Nat) : ∀ lanes : List (Nat × Nat), (∀ p ∈ lanes, Mapped s k t acc p.2 (pa p.1)) →
    xlatLanes core (clusterOf (keyCore k)) t.oid acc lanes s = (s, lanes.map (tlbLane s (clusterOf (keyCore k)) t.oid pa))
  | [], _ => rfl
  | p :: r, h => by
    obtain ⟨-, e, he, hu, -⟩ := h p (by simp)
    have h1 : xlat s (some core) (clusterOf (keyCore k)) t.oid p.2 acc = (s, .ok (pa p.1) e.leafPa e.leaf e.large) := by
      simp [xlat, he, hu]
    have h2 := xlatLanes_mapped core r fun q hq => h q (by simp [hq])
    simp only [xlatLanes, h1, h2, List.map_cons, tlbLane, he]

theorem tlbLane_ok (cl oid : Nat) (p : Nat × Nat) : ∃ q e b, tlbLane s cl oid pa p = (p.1, p.2, .ok (pa p.1) q e b) := by
  unfold tlbLane; split <;> exact ⟨_, _, _, rfl⟩

/-- Translated lanes go on as they are. -/
theorem actOnXlat_mapped (lanes : List (Nat × Nat)) (cl oid : Nat) :
    actOnXlat s k t acc (lanes.map (tlbLane s cl oid pa)) = .go s (lanes.map fun p => (p.1, p.2, pa p.1)) := by
  have hok : ∀ x ∈ lanes.map (tlbLane s cl oid pa), ∃ L va a q e b, x = (L, va, XRes.ok a q e b) := by
    intro x hx
    obtain ⟨p, -, rfl⟩ := List.mem_map.1 hx
    obtain ⟨q, e, b, h⟩ := tlbLane_ok (s := s) (pa := pa) cl oid p
    exact ⟨_, _, _, q, e, b, h⟩
  have hfold : ∀ (f : State → Nat × Nat × XRes → State) (l : List (Nat × Nat × XRes)), (∀ x ∈ l, ∀ st, f st x = st) → ∀ st, l.foldl f st = st := by
    intro f l
    induction l with
    | nil => intros; rfl
    | cons x r ih => intro h st; rw [List.foldl_cons, h x (by simp)]; exact ih (fun y hy => h y (by simp [hy])) st
  simp only [actOnXlat]
  rw [hfold _ _ (by intro x hx st; obtain ⟨L, va, a, q, e, b, rfl⟩ := hok x hx; rfl)]
  rw [List.find?_eq_none.2 (by intro x hx; obtain ⟨L, va, a, q, e, b, rfl⟩ := hok x hx; simp [failOf])]
  rw [List.findSome?_eq_none_iff.2 (by intro x hx; obtain ⟨L, va, a, q, e, b, rfl⟩ := hok x hx; rfl)]
  simp only
  congr 1
  clear hok
  induction lanes with
  | nil => rfl
  | cons p r ih =>
    obtain ⟨q, e, b, h⟩ := tlbLane_ok (s := s) (pa := pa) cl oid p
    rw [List.map_cons, List.filterMap_cons, h, List.map_cons, ih]

/-- Aligned lanes that the TLB maps pass alignment, translation and permission (R200). -/
theorem permLanes_mapped (lanes : List (Nat × Nat)) (h : ∀ p ∈ lanes, p.2 % size = 0 ∧ Mapped s k t acc p.2 (pa p.1)) :
    permLanes s k t size acc lanes = .go s (lanes.map fun p => (p.1, p.2, pa p.1)) := by
  have h0 : lanes.find? (fun p => decide (p.2 % size ≠ 0)) = none := by
    rw [List.find?_eq_none]; intro p hp; simp [(h p hp).1]
  simp only [permLanes, h0, xlatLanes_mapped _ lanes fun p hp => (h p hp).2, actOnXlat_mapped]

/-- The same with D for a write: it is set already (R245). -/
theorem checkLanes_mapped (lanes : List (Nat × Nat)) (h : ∀ p ∈ lanes, p.2 % size = 0 ∧ Mapped s k t acc p.2 (pa p.1)) :
    checkLanes s k t size acc lanes = .go s (lanes.map fun p => (p.1, p.2, pa p.1)) := by
  simp only [checkLanes, permLanes_mapped lanes h]
  congr 1
  by_cases ha : acc / 2 % 2 = 1
  · simp only [ha, if_true]
    induction lanes with
    | nil => rfl
    | cons p r ih =>
      obtain ⟨-, -, e, he, -, hd⟩ := h p (by simp)
      have : setD s (clusterOf (keyCore k)) t.oid p.2 = s := by simp [setD, he, hd ha]
      simp only [List.map_cons, List.foldl_cons, this]
      exact ih fun q hq => h q (by simp [hq])
  · simp [ha]

/-- The same for an instruction that acts once for the team. -/
theorem checkWide_mapped (g : Guard) (lanes : List (Nat × Nat)) (h : ∀ p ∈ lanes, p.2 % size = 0 ∧ Mapped s k t acc p.2 (pa p.1)) :
    checkWide s k t g size acc lanes = .go s (lanes.map fun p => (p.1, p.2, pa p.1)) := by
  simp only [checkWide, checkLanes_mapped lanes h]

theorem filterMap_some {α β : Type} {g : α → Option β} {f : α → β} : ∀ {l : List α}, (∀ p ∈ l, g p = some (f p)) → l.filterMap g = l.map f
  | [], _ => rfl
  | q :: r, h => by rw [List.filterMap_cons, h q (by simp), List.map_cons, filterMap_some fun p hp => h p (by simp [hp])]

/-- Aligned lanes that reach their bytes pass the checks of a load, which change nothing (R179, R200). -/
theorem checkLoad_loadable (lanes : List (Nat × Nat)) (hl : (lanes.map (·.1)).Nodup) (h : ∀ p ∈ lanes, p.2 % size = 0 ∧ Loadable s k t p.2 (pa p.1)) :
    checkLoad s k t size lanes = .go s (lanes.map fun p => (p.1, p.2, pa p.1)) := by
  have h0 : (lanes.any fun p => decide (p.2 % size ≠ 0)) = false := by
    rw [List.any_eq_false]; intro p hp; simp [(h p hp).1]
  have hm : ∀ p ∈ lanes.filter (fun p => ((findLine s (keyCore k) t.oid p.2).map fun x => (p.1, p.2, 128 * x.2.2.pline + p.2 % 128)).isNone),
      p.2 % size = 0 ∧ Mapped s k t accR p.2 (pa p.1) := by
    intro p hp
    obtain ⟨h1, h2⟩ := List.mem_filter.1 hp
    refine ⟨(h p h1).1, ?_⟩
    have := (h p h1).2
    unfold Loadable at this
    cases hf : findLine s (keyCore k) t.oid p.2 with
    | none => simpa [hf] using this
    | some x => simp [hf] at h2
  simp only [checkLoad, h0, checkLanes_mapped _ hm]
  simp only [Bool.false_eq_true, if_false]
  congr 1
  have key : ∀ p ∈ lanes, (match (findLine s (keyCore k) t.oid p.2).map fun x => (p.1, p.2, 128 * x.2.2.pline + p.2 % 128) with
      | some x => some x
      | none => ((lanes.filter fun p => ((findLine s (keyCore k) t.oid p.2).map fun x => (p.1, p.2, 128 * x.2.2.pline + p.2 % 128)).isNone).map
          fun p => (p.1, p.2, pa p.1)).find? fun x => decide (x.1 = p.1)) = some (p.1, p.2, pa p.1) := by
    intro p hp
    cases hf : findLine s (keyCore k) t.oid p.2 with
    | some x =>
      have := (h p hp).2
      unfold Loadable at this
      rw [hf] at this
      simp [this]
    | none =>
      simp only [Option.map_none]
      rw [List.find?_map]
      have : (lanes.filter fun p => ((findLine s (keyCore k) t.oid p.2).map fun x => (p.1, p.2, 128 * x.2.2.pline + p.2 % 128)).isNone).find?
          ((fun x => decide (x.1 = p.1)) ∘ fun p => (p.1, p.2, pa p.1)) = some p := by
        have hmem : p ∈ lanes.filter fun p => ((findLine s (keyCore k) t.oid p.2).map fun x => (p.1, p.2, 128 * x.2.2.pline + p.2 % 128)).isNone :=
          List.mem_filter.2 ⟨hp, by simp [hf]⟩
        have hnd : ((lanes.filter fun p => ((findLine s (keyCore k) t.oid p.2).map fun x => (p.1, p.2, 128 * x.2.2.pline + p.2 % 128)).isNone).map (·.1)).Nodup :=
          hl.sublist ((List.filter_sublist).map _)
        generalize lanes.filter (fun p => ((findLine s (keyCore k) t.oid p.2).map fun x => (p.1, p.2, 128 * x.2.2.pline + p.2 % 128)).isNone) = l at hmem hnd
        clear hf h hl h0 hm
        induction l with
        | nil => cases hmem
        | cons q r ih =>
          rw [List.find?_cons]
          by_cases hq : q.1 = p.1
          · simp only [Function.comp, hq, decide_true]
            rcases List.mem_cons.1 hmem with rfl | hr
            · rfl
            · simp only [List.map_cons, List.nodup_cons] at hnd
              exact absurd (List.mem_map.2 ⟨p, hr, hq.symm⟩) hnd.1
          · simp only [Function.comp, hq, decide_false]
            rcases List.mem_cons.1 hmem with rfl | hr
            · exact absurd rfl hq
            · exact ih hr (by simp only [List.map_cons, List.nodup_cons] at hnd; exact hnd.2)
      rw [this]; rfl
  exact filterMap_some key

theorem linesOf_sub_aux (lanes : List (Nat × Nat × Nat)) : ∀ acc : List (Nat × Nat × Nat), 
   ∃ r, r.Sublist lanes ∧ lanes.foldl (fun acc x => if isPeer x.2.2 || acc.any (fun a => decide (a.2.1 / 128 = x.2.1 / 128)) then acc else acc ++ [x]) acc = acc ++ r := by
  induction lanes with
  | nil => intro acc; exact ⟨[], by simp, by simp⟩
  | cons x l ih =>
    intro acc
    simp only [List.foldl_cons]
    split
    · obtain ⟨r, h1, h2⟩ := ih acc; exact ⟨r, h1.cons _, h2⟩
    · obtain ⟨r, h1, h2⟩ := ih (acc ++ [x]); exact ⟨x :: r, h1.cons_cons _, by rw [h2]; simp⟩
/-- The lines that lanes touch are named by some of the lanes, in order. -/
theorem linesOf_sub (lanes : List (Nat × Nat × Nat)) : (linesOf lanes).Sublist lanes := by
  obtain ⟨r, h1, h2⟩ := linesOf_sub_aux lanes []
  unfold linesOf; rw [h2]; simpa using h1

/-- A mask word has at most 32 lanes. -/
theorem group_le (l : List (Nat × Nat × Nat)) (h : (l.map (·.1)).Pairwise (· < ·)) (w : Nat) : (l.filter fun x => decide (x.1 / 32 = w)).length ≤ 32 := by
  have hs : ((l.filter fun x => decide (x.1 / 32 = w)).map (·.1)).Pairwise (· < ·) :=
    h.sublist ((List.filter_sublist).map _)
  have hb : ∀ x ∈ (l.filter fun x => decide (x.1 / 32 = w)).map (·.1), 32 * w ≤ x ∧ x < 32 * w + 32 := by
    intro x hx; simp at hx; obtain ⟨a, b, h1, h2⟩ := hx; omega
  rw [← List.length_map (f := (·.1))]
  generalize (l.filter fun x => decide (x.1 / 32 = w)).map (·.1) = m at hs hb
  have : ∀ (m : List Nat) (lo : Nat), m.Pairwise (· < ·) → (∀ x ∈ m, lo ≤ x ∧ x < 32 * w + 32) → m.length ≤ 32 * w + 32 - lo := by
    intro m
    induction m with
    | nil => intros; simp
    | cons a r ih =>
      intro lo h1 h2
      have h3 := ih (a + 1) (List.pairwise_cons.1 h1).2 (fun x hx => ⟨(List.pairwise_cons.1 h1).1 x hx, (h2 x (by simp [hx])).2⟩)
      have := h2 a (by simp)
      simp only [List.length_cons]; omega
  have := this m (32 * w) hs hb
  omega

/-- Half of the demand misses free are enough for the first word (R205). -/
theorem missStall_room {s : State} {k : Nat} {t : Team} {lanes : List (Nat × Nat × Nat)} (h : (lanes.map (·.1)).Pairwise (· < ·))
    (hd : demandMisses s (keyCore k) ≤ 32) : missStall s k t lanes = false := by
  unfold missStall
  split
  · rename_i g _ hg
    have hm : g ∈ byWord (linesOf lanes) := by rw [hg]; simp
    simp only [byWord, List.mem_filterMap] at hm
    obtain ⟨w, -, hw⟩ := hm
    split at hw
    · cases hw
    · cases hw
      have h1 : ((linesOf lanes).map (·.1)).Pairwise (· < ·) := h.sublist ((linesOf_sub lanes).map _)
      have h2 := group_le _ h1 w
      have h3 : missesOf s (keyCore k) t.oid ((linesOf lanes).filter fun x => decide (x.1 / 32 = w)) ≤ 32 := Nat.le_trans (List.length_filter_le _ _) h2
      simp only [missRoom]
      simp; omega
  · rfl

/-- The lanes of a mask ascend. -/
theorem maskLanes_sorted (m : Mask) (w : Nat) : (maskLanes m w).Pairwise (· < ·) := by
  unfold maskLanes
  exact (List.pairwise_lt_range).sublist (List.filter_sublist)

end Sys2Proof.Machine
end

