-- ==== Sys2Proof/Laws/Table.lean ====
section
/-! SUPPORT. Tables and memory: what is found after a change, and that every change keeps the canonical form. -/

namespace Sys2Proof.Machine

/-! ## Reads after changes -/

theorem Table.erase_cons {α : Type} (p : Nat × α) (r : Table α) (k : Nat) :
    Table.erase (p :: r) k = if p.1 = k then r.erase k else p :: r.erase k := by
  by_cases h : p.1 = k <;> simp [Table.erase, h]

theorem Table.find_filter_ne {α : Type} (t : Table α) {k k' : Nat} (h : k' ≠ k) : (t.erase k).find k' = t.find k' := by
  induction t with
  | nil => rfl
  | cons p r ih =>
    rw [Table.erase_cons]
    by_cases hp : p.1 = k
    · rw [if_pos hp, ih, Table.find, if_neg (by omega)]
    · rw [if_neg hp]; simp only [Table.find, ih]

@[simp] theorem Table.find_erase_self {α : Type} (t : Table α) (k : Nat) : (t.erase k).find k = none := by
  induction t with
  | nil => rfl
  | cons p r ih =>
    rw [Table.erase_cons]
    by_cases hp : p.1 = k
    · rw [if_pos hp, ih]
    · rw [if_neg hp]; simp only [Table.find, if_neg hp, ih]

theorem Table.find_insert_ne {α : Type} (t : Table α) (v : α) {k k' : Nat} (h : k' ≠ k) : (t.insert k v).find k' = t.find k' := by
  induction t with
  | nil => simp [Table.insert, Table.find, Ne.symm h]
  | cons p r ih =>
    obtain ⟨a, w⟩ := p
    simp only [Table.insert]
    split
    · simp [Table.find, Ne.symm h]
    · simp only [Table.find, ih]

theorem Table.find_insert_self {α : Type} (t : Table α) (k : Nat) (v : α) (h : t.find k = none) : (t.insert k v).find k = some v := by
  induction t with
  | nil => simp [Table.insert, Table.find]
  | cons p r ih =>
    obtain ⟨a, w⟩ := p
    simp only [Table.insert]
    split
    · simp [Table.find]
    · simp only [Table.find] at h ⊢
      split at h
      · simp at h
      · simp_all

@[simp] theorem Table.find_put_self {α : Type} (t : Table α) (k : Nat) (v : α) : (t.put k v).find k = some v :=
  Table.find_insert_self _ _ _ (Table.find_erase_self t k)

theorem Table.find_put_ne {α : Type} (t : Table α) (v : α) {k k' : Nat} (h : k' ≠ k) : (t.put k v).find k' = t.find k' := by
  rw [Table.put, Table.find_insert_ne _ _ h, Table.find_filter_ne _ h]

theorem Table.find_put {α : Type} (t : Table α) (v : α) (k k' : Nat) :
    (t.put k v).find k' = if k' = k then some v else t.find k' := by
  split
  · next h => rw [h, Table.find_put_self]
  · next h => exact Table.find_put_ne t v h

@[simp] theorem Table.get_put_self {α : Type} (t : Table α) (k : Nat) (v d : α) : (t.put k v).get k d = v := by
  simp [Table.get]

theorem Table.get_put_ne {α : Type} (t : Table α) (v d : α) {k k' : Nat} (h : k' ≠ k) : (t.put k v).get k' d = t.get k' d := by
  simp [Table.get, Table.find_put_ne _ _ h]

theorem Table.get_put {α : Type} (t : Table α) (v d : α) (k k' : Nat) :
    (t.put k v).get k' d = if k' = k then v else t.get k' d := by
  split
  · next h => rw [h, Table.get_put_self]
  · next h => exact Table.get_put_ne t v d h

theorem Table.find_modify {α : Type} (t : Table α) (k k' : Nat) (f : α → α) :
    (t.modify k f).find k' = if k' = k then (t.find k).map f else t.find k' := by
  unfold Table.modify
  cases hk : t.find k with
  | none =>
    simp only [Option.map_none]
    split
    · next h => rw [h, hk]
    · rfl
  | some v => simp only [Option.map_some, Table.find_put]

/-! ## The canonical form -/

/-- Every key is above a bound. -/
def Table.above {α : Type} (t : Table α) (n : Nat) : Prop := ∀ p ∈ t, n < p.1

theorem Table.sorted_cons {α : Type} (p : Nat × α) (r : Table α) :
    Table.sorted (p :: r) = true ↔ Table.above r p.1 ∧ Table.sorted r = true := by
  induction r generalizing p with
  | nil => simp [Table.sorted, Table.above]
  | cons q r ih =>
    simp only [Table.sorted, Bool.and_eq_true, decide_eq_true_eq, Table.above, List.mem_cons, forall_eq_or_imp, ih]
    constructor
    · rintro ⟨h1, h2, h3⟩
      exact ⟨⟨h1, fun x hx => Nat.lt_trans h1 (h2 x hx)⟩, h2, h3⟩
    · rintro ⟨⟨h1, -⟩, h2, h3⟩
      exact ⟨h1, h2, h3⟩

theorem Table.sorted_filter {α : Type} (t : Table α) (f : Nat × α → Bool) (h : Table.sorted t = true) :
    Table.sorted (t.filter f : Table α) = true := by
  induction t with
  | nil => simpa using h
  | cons p r ih =>
    rw [Table.sorted_cons] at h
    rw [List.filter_cons]
    split
    · rw [Table.sorted_cons]
      exact ⟨fun q hq => h.1 q (List.mem_filter.1 hq).1, ih h.2⟩
    · exact ih h.2

theorem Table.mem_insert {α : Type} (t : Table α) (k : Nat) (v : α) (q : Nat × α) :
    q ∈ t.insert k v ↔ q = (k, v) ∨ q ∈ t := by
  induction t with
  | nil => simp [Table.insert]
  | cons p r ih =>
    simp only [Table.insert]
    split
    · simp
    · simp only [List.mem_cons, ih]
      constructor <;> rintro (h | h | h) <;> simp [h]

theorem Table.sorted_insert {α : Type} (t : Table α) (k : Nat) (v : α) (h : Table.sorted t = true) (hk : ∀ p ∈ t, p.1 ≠ k) :
    Table.sorted (t.insert k v) = true := by
  induction t with
  | nil => simp [Table.insert, Table.sorted]
  | cons p r ih =>
    simp only [Table.insert]
    have h0 := h
    rw [Table.sorted_cons] at h
    split
    · next hlt =>
      rw [Table.sorted_cons]
      refine ⟨?_, h0⟩
      intro q hq
      rcases List.mem_cons.1 hq with rfl | hq
      · exact hlt
      · exact Nat.lt_trans hlt (h.1 q hq)
    · next hge =>
      rw [Table.sorted_cons]
      refine ⟨?_, ih h.2 fun q hq => hk q (List.mem_cons_of_mem _ hq)⟩
      intro q hq
      rcases (Table.mem_insert r k v q).1 hq with rfl | hq
      · have := hk p List.mem_cons_self; simp only at hge ⊢; omega
      · exact h.1 q hq

theorem Table.sorted_erase {α : Type} (t : Table α) (k : Nat) (h : Table.sorted t = true) : Table.sorted (t.erase k) = true :=
  Table.sorted_filter t _ h

theorem Table.sorted_put {α : Type} (t : Table α) (k : Nat) (v : α) (h : Table.sorted t = true) :
    Table.sorted (t.put k v) = true :=
  Table.sorted_insert _ k v (Table.sorted_erase t k h) fun p hp => by
    simpa using (List.mem_filter.1 hp).2

/-! ## Memory (R181, log entry 2) -/

theorem Memory.wf_iff (m : Memory) : m.wf = true ↔ Table.sorted (α := Byte) m = true ∧ ∀ c ∈ m, c.2 ≠ Memory.blank := by
  simp [Memory.wf, List.all_eq_true]

/-- A byte read after a byte write. -/
theorem Memory.byte_setByte (m : Memory) (a b : Nat) (x : Byte) : (m.setByte a x).byte b = if b = a then x else m.byte b := by
  unfold Memory.setByte Memory.byte
  by_cases hx : x = Memory.blank
  · rw [if_pos hx]
    by_cases hb : b = a
    · subst hb; simp [Table.get, hx]
    · simp [Table.get, Table.find_filter_ne _ hb, hb]
  · rw [if_neg hx, Table.get_put]

theorem Memory.wf_setByte (m : Memory) (a : Nat) (x : Byte) (h : m.wf = true) : (m.setByte a x).wf = true := by
  rw [Memory.wf_iff] at h ⊢
  unfold Memory.setByte
  split
  · exact ⟨Table.sorted_erase _ _ h.1, fun c hc => h.2 c (List.mem_filter.1 hc).1⟩
  · next hx =>
    refine ⟨Table.sorted_put _ _ _ h.1, fun c hc => ?_⟩
    rcases (Table.mem_insert _ _ _ _).1 hc with rfl | hc
    · exact hx
    · exact h.2 c (List.mem_filter.1 hc).1

theorem Memory.wf_setBytes (bs : List Byte) (m : Memory) (a : Nat) (h : m.wf = true) : (m.setBytes a bs).wf = true := by
  induction bs generalizing m a with
  | nil => exact h
  | cons b r ih => exact ih _ _ (Memory.wf_setByte m a b h)

theorem Memory.wf_setNat (m : Memory) (a n v : Nat) (h : m.wf = true) : (m.setNat a n v).wf = true :=
  Memory.wf_setBytes _ m a h

theorem Memory.wf_filter (m : Memory) (f : Host.Cell → Bool) (h : m.wf = true) : Memory.wf (m.filter f) = true := by
  rw [Memory.wf_iff] at h ⊢
  exact ⟨Table.sorted_filter _ _ h.1, fun c hc => h.2 c (List.mem_filter.1 hc).1⟩

theorem Memory.wf_zero (m : Memory) (a n : Nat) (h : m.wf = true) : (m.zero a n).wf = true := Memory.wf_filter m _ h

/-- The byte at b after a list of bytes has been written from a up. -/
theorem Memory.byte_setBytes (bs : List Byte) (m : Memory) (a b : Nat) :
    (m.setBytes a bs).byte b = if a ≤ b ∧ b < a + bs.length then bs.getD (b - a) 0 else m.byte b := by
  induction bs generalizing m a with
  | nil => simp only [Memory.setBytes, List.length_nil]; rw [if_neg (by omega)]
  | cons x r ih =>
    simp only [Memory.setBytes, ih, Memory.byte_setByte, List.length_cons]
    by_cases h1 : b = a
    · subst h1
      rw [if_neg (by omega), if_pos rfl, if_pos (by omega)]; simp
    · by_cases h2 : a + 1 ≤ b ∧ b < a + 1 + r.length
      · rw [if_pos h2, if_pos (by omega)]
        obtain ⟨j, hj⟩ : ∃ j, b - a = j + 1 := ⟨b - a - 1, by omega⟩
        rw [hj, List.getD_cons_succ, show b - (a + 1) = j by omega]
      · rw [if_neg h2, if_neg h1, if_neg (by omega)]

theorem Memory.length_bytes (m : Memory) (a n : Nat) : (m.bytes a n).length = n := by
  induction n generalizing a with
  | zero => rfl
  | succ n ih => simp [Memory.bytes, ih]

/-- What is written is what is read. -/
theorem Memory.bytes_congr (m m' : Memory) (a n : Nat) (h : ∀ b, a ≤ b → b < a + n → m.byte b = m'.byte b) :
    m.bytes a n = m'.bytes a n := by
  induction n generalizing a with
  | zero => rfl
  | succ n ih =>
    simp only [Memory.bytes]
    rw [h a (Nat.le_refl a) (by omega), ih (a + 1) fun b h1 h2 => h b (by omega) (by omega)]

theorem Memory.bytes_setBytes (bs : List Byte) (m : Memory) (a : Nat) : (m.setBytes a bs).bytes a bs.length = bs := by
  induction bs generalizing m a with
  | nil => rfl
  | cons x r ih =>
    have hx : (Memory.setBytes m a (x :: r)).byte a = x := by rw [Memory.byte_setBytes]; simp
    simp only [List.length_cons, Memory.bytes, hx]
    exact congrArg (x :: ·) (ih (m.setByte a x) (a + 1))

theorem length_leBytes (n v : Nat) : (leBytes n v).length = n := by
  induction n generalizing v with
  | zero => rfl
  | succ n ih => simp [leBytes, ih]

theorem leNat_leBytes (n v : Nat) : leNat (leBytes n v) = v % 256 ^ n := by
  induction n generalizing v with
  | zero => simp [leBytes, leNat, Nat.mod_one]
  | succ n ih =>
    simp only [leBytes, leNat, ih, BitVec.toNat_ofNat]
    have h := Nat.mod_mul (a := 256) (b := 256 ^ n) (x := v)
    rw [Nat.mul_comm, ← Nat.pow_succ] at h
    exact h.symm

/-- A number read where it was written. -/
theorem Memory.nat_setNat (m : Memory) (a n v : Nat) : (m.setNat a n v).nat a n = v % 256 ^ n := by
  have h := Memory.bytes_setBytes (leBytes n v) m a
  rw [length_leBytes] at h
  rw [Memory.nat, Memory.setNat, h, leNat_leBytes]

end Sys2Proof.Machine
end

