-- ==== Sys2Proof/Laws/State.lean ====
section
/-! SUPPORT. What each update of the state leaves in each field, and what is read after it. -/

namespace Sys2Proof.Machine

/-! ## setCore -/

@[simp] theorem State.setCore_tick (s : State) (c : Nat) (v : Core) : (s.setCore c v).tick = s.tick := rfl
@[simp] theorem State.setCore_cycle (s : State) (c : Nat) (v : Core) : (s.setCore c v).cycle = s.cycle := rfl
@[simp] theorem State.setCore_edge (s : State) (c : Nat) (v : Core) : (s.setCore c v).edge = s.edge := rfl
@[simp] theorem State.setCore_mhz (s : State) (c : Nat) (v : Core) : (s.setCore c v).mhz = s.mhz := rfl
@[simp] theorem State.setCore_stopped (s : State) (c : Nat) (v : Core) : (s.setCore c v).stopped = s.stopped := rfl
@[simp] theorem State.setCore_mem (s : State) (c : Nat) (v : Core) : (s.setCore c v).mem = s.mem := rfl
@[simp] theorem State.setCore_hostMem (s : State) (c : Nat) (v : Core) : (s.setCore c v).hostMem = s.hostMem := rfl
@[simp] theorem State.setCore_bad (s : State) (c : Nat) (v : Core) : (s.setCore c v).bad = s.bad := rfl
@[simp] theorem State.setCore_fuse (s : State) (c : Nat) (v : Core) : (s.setCore c v).fuse = s.fuse := rfl
@[simp] theorem State.setCore_l2 (s : State) (c : Nat) (v : Core) : (s.setCore c v).l2 = s.l2 := rfl
@[simp] theorem State.setCore_l2Fill (s : State) (c : Nat) (v : Core) : (s.setCore c v).l2Fill = s.l2Fill := rfl
@[simp] theorem State.setCore_dev (s : State) (c : Nat) (v : Core) : (s.setCore c v).dev = s.dev := rfl
@[simp] theorem State.setCore_parts (s : State) (c : Nat) (v : Core) : (s.setCore c v).parts = s.parts := rfl
@[simp] theorem State.setCore_ports (s : State) (c : Nat) (v : Core) : (s.setCore c v).ports = s.ports := rfl
@[simp] theorem State.setCore_ctxs (s : State) (c : Nat) (v : Core) : (s.setCore c v).ctxs = s.ctxs := rfl
@[simp] theorem State.setCore_kernels (s : State) (c : Nat) (v : Core) : (s.setCore c v).kernels = s.kernels := rfl
@[simp] theorem State.setCore_gangs (s : State) (c : Nat) (v : Core) : (s.setCore c v).gangs = s.gangs := rfl
@[simp] theorem State.setCore_clusters (s : State) (c : Nat) (v : Core) : (s.setCore c v).clusters = s.clusters := rfl
@[simp] theorem State.setCore_teams (s : State) (c : Nat) (v : Core) : (s.setCore c v).teams = s.teams := rfl
@[simp] theorem State.setCore_loads (s : State) (c : Nat) (v : Core) : (s.setCore c v).loads = s.loads := rfl
@[simp] theorem State.setCore_posts (s : State) (c : Nat) (v : Core) : (s.setCore c v).posts = s.posts := rfl
@[simp] theorem State.setCore_fills (s : State) (c : Nat) (v : Core) : (s.setCore c v).fills = s.fills := rfl
@[simp] theorem State.setCore_slotOps (s : State) (c : Nat) (v : Core) : (s.setCore c v).slotOps = s.slotOps := rfl
@[simp] theorem State.setCore_notices (s : State) (c : Nat) (v : Core) : (s.setCore c v).notices = s.notices := rfl
@[simp] theorem State.setCore_rings (s : State) (c : Nat) (v : Core) : (s.setCore c v).rings = s.rings := rfl
@[simp] theorem State.setCore_entries (s : State) (c : Nat) (v : Core) : (s.setCore c v).entries = s.entries := rfl
@[simp] theorem State.setCore_halos (s : State) (c : Nat) (v : Core) : (s.setCore c v).halos = s.halos := rfl
@[simp] theorem State.setCore_pageIns (s : State) (c : Nat) (v : Core) : (s.setCore c v).pageIns = s.pageIns := rfl
@[simp] theorem State.setCore_pageFails (s : State) (c : Nat) (v : Core) : (s.setCore c v).pageFails = s.pageFails := rfl
@[simp] theorem State.setCore_sxPages (s : State) (c : Nat) (v : Core) : (s.setCore c v).sxPages = s.sxPages := rfl
@[simp] theorem State.setCore_deaths (s : State) (c : Nat) (v : Core) : (s.setCore c v).deaths = s.deaths := rfl
@[simp] theorem State.setCore_walks (s : State) (c : Nat) (v : Core) : (s.setCore c v).walks = s.walks := rfl
@[simp] theorem State.setCore_peers (s : State) (c : Nat) (v : Core) : (s.setCore c v).peers = s.peers := rfl
@[simp] theorem State.setCore_turns (s : State) (c : Nat) (v : Core) : (s.setCore c v).turns = s.turns := rfl
@[simp] theorem State.setCore_sel (s : State) (c : Nat) (v : Core) : (s.setCore c v).sel = s.sel := rfl
@[simp] theorem State.setCore_nextId (s : State) (c : Nat) (v : Core) : (s.setCore c v).nextId = s.nextId := rfl
@[simp] theorem State.setCore_outbox (s : State) (c : Nat) (v : Core) : (s.setCore c v).outbox = s.outbox := rfl
@[simp] theorem State.setCore_msix (s : State) (c : Nat) (v : Core) : (s.setCore c v).msix = s.msix := rfl

/-! ## setCluster -/

@[simp] theorem State.setCluster_tick (s : State) (c : Nat) (v : Cluster) : (s.setCluster c v).tick = s.tick := rfl
@[simp] theorem State.setCluster_cycle (s : State) (c : Nat) (v : Cluster) : (s.setCluster c v).cycle = s.cycle := rfl
@[simp] theorem State.setCluster_edge (s : State) (c : Nat) (v : Cluster) : (s.setCluster c v).edge = s.edge := rfl
@[simp] theorem State.setCluster_mhz (s : State) (c : Nat) (v : Cluster) : (s.setCluster c v).mhz = s.mhz := rfl
@[simp] theorem State.setCluster_stopped (s : State) (c : Nat) (v : Cluster) : (s.setCluster c v).stopped = s.stopped := rfl
@[simp] theorem State.setCluster_mem (s : State) (c : Nat) (v : Cluster) : (s.setCluster c v).mem = s.mem := rfl
@[simp] theorem State.setCluster_hostMem (s : State) (c : Nat) (v : Cluster) : (s.setCluster c v).hostMem = s.hostMem := rfl
@[simp] theorem State.setCluster_bad (s : State) (c : Nat) (v : Cluster) : (s.setCluster c v).bad = s.bad := rfl
@[simp] theorem State.setCluster_fuse (s : State) (c : Nat) (v : Cluster) : (s.setCluster c v).fuse = s.fuse := rfl
@[simp] theorem State.setCluster_l2 (s : State) (c : Nat) (v : Cluster) : (s.setCluster c v).l2 = s.l2 := rfl
@[simp] theorem State.setCluster_l2Fill (s : State) (c : Nat) (v : Cluster) : (s.setCluster c v).l2Fill = s.l2Fill := rfl
@[simp] theorem State.setCluster_dev (s : State) (c : Nat) (v : Cluster) : (s.setCluster c v).dev = s.dev := rfl
@[simp] theorem State.setCluster_parts (s : State) (c : Nat) (v : Cluster) : (s.setCluster c v).parts = s.parts := rfl
@[simp] theorem State.setCluster_ports (s : State) (c : Nat) (v : Cluster) : (s.setCluster c v).ports = s.ports := rfl
@[simp] theorem State.setCluster_ctxs (s : State) (c : Nat) (v : Cluster) : (s.setCluster c v).ctxs = s.ctxs := rfl
@[simp] theorem State.setCluster_kernels (s : State) (c : Nat) (v : Cluster) : (s.setCluster c v).kernels = s.kernels := rfl
@[simp] theorem State.setCluster_gangs (s : State) (c : Nat) (v : Cluster) : (s.setCluster c v).gangs = s.gangs := rfl
@[simp] theorem State.setCluster_cores (s : State) (c : Nat) (v : Cluster) : (s.setCluster c v).cores = s.cores := rfl
@[simp] theorem State.setCluster_teams (s : State) (c : Nat) (v : Cluster) : (s.setCluster c v).teams = s.teams := rfl
@[simp] theorem State.setCluster_loads (s : State) (c : Nat) (v : Cluster) : (s.setCluster c v).loads = s.loads := rfl
@[simp] theorem State.setCluster_posts (s : State) (c : Nat) (v : Cluster) : (s.setCluster c v).posts = s.posts := rfl
@[simp] theorem State.setCluster_fills (s : State) (c : Nat) (v : Cluster) : (s.setCluster c v).fills = s.fills := rfl
@[simp] theorem State.setCluster_slotOps (s : State) (c : Nat) (v : Cluster) : (s.setCluster c v).slotOps = s.slotOps := rfl
@[simp] theorem State.setCluster_notices (s : State) (c : Nat) (v : Cluster) : (s.setCluster c v).notices = s.notices := rfl
@[simp] theorem State.setCluster_rings (s : State) (c : Nat) (v : Cluster) : (s.setCluster c v).rings = s.rings := rfl
@[simp] theorem State.setCluster_entries (s : State) (c : Nat) (v : Cluster) : (s.setCluster c v).entries = s.entries := rfl
@[simp] theorem State.setCluster_halos (s : State) (c : Nat) (v : Cluster) : (s.setCluster c v).halos = s.halos := rfl
@[simp] theorem State.setCluster_pageIns (s : State) (c : Nat) (v : Cluster) : (s.setCluster c v).pageIns = s.pageIns := rfl
@[simp] theorem State.setCluster_pageFails (s : State) (c : Nat) (v : Cluster) : (s.setCluster c v).pageFails = s.pageFails := rfl
@[simp] theorem State.setCluster_sxPages (s : State) (c : Nat) (v : Cluster) : (s.setCluster c v).sxPages = s.sxPages := rfl
@[simp] theorem State.setCluster_deaths (s : State) (c : Nat) (v : Cluster) : (s.setCluster c v).deaths = s.deaths := rfl
@[simp] theorem State.setCluster_walks (s : State) (c : Nat) (v : Cluster) : (s.setCluster c v).walks = s.walks := rfl
@[simp] theorem State.setCluster_peers (s : State) (c : Nat) (v : Cluster) : (s.setCluster c v).peers = s.peers := rfl
@[simp] theorem State.setCluster_turns (s : State) (c : Nat) (v : Cluster) : (s.setCluster c v).turns = s.turns := rfl
@[simp] theorem State.setCluster_sel (s : State) (c : Nat) (v : Cluster) : (s.setCluster c v).sel = s.sel := rfl
@[simp] theorem State.setCluster_nextId (s : State) (c : Nat) (v : Cluster) : (s.setCluster c v).nextId = s.nextId := rfl
@[simp] theorem State.setCluster_outbox (s : State) (c : Nat) (v : Cluster) : (s.setCluster c v).outbox = s.outbox := rfl
@[simp] theorem State.setCluster_msix (s : State) (c : Nat) (v : Cluster) : (s.setCluster c v).msix = s.msix := rfl

/-! ## setPart -/

@[simp] theorem State.setPart_tick (s : State) (p : Nat) (v : Part) : (s.setPart p v).tick = s.tick := rfl
@[simp] theorem State.setPart_cycle (s : State) (p : Nat) (v : Part) : (s.setPart p v).cycle = s.cycle := rfl
@[simp] theorem State.setPart_edge (s : State) (p : Nat) (v : Part) : (s.setPart p v).edge = s.edge := rfl
@[simp] theorem State.setPart_mhz (s : State) (p : Nat) (v : Part) : (s.setPart p v).mhz = s.mhz := rfl
@[simp] theorem State.setPart_stopped (s : State) (p : Nat) (v : Part) : (s.setPart p v).stopped = s.stopped := rfl
@[simp] theorem State.setPart_mem (s : State) (p : Nat) (v : Part) : (s.setPart p v).mem = s.mem := rfl
@[simp] theorem State.setPart_hostMem (s : State) (p : Nat) (v : Part) : (s.setPart p v).hostMem = s.hostMem := rfl
@[simp] theorem State.setPart_bad (s : State) (p : Nat) (v : Part) : (s.setPart p v).bad = s.bad := rfl
@[simp] theorem State.setPart_fuse (s : State) (p : Nat) (v : Part) : (s.setPart p v).fuse = s.fuse := rfl
@[simp] theorem State.setPart_l2 (s : State) (p : Nat) (v : Part) : (s.setPart p v).l2 = s.l2 := rfl
@[simp] theorem State.setPart_l2Fill (s : State) (p : Nat) (v : Part) : (s.setPart p v).l2Fill = s.l2Fill := rfl
@[simp] theorem State.setPart_dev (s : State) (p : Nat) (v : Part) : (s.setPart p v).dev = s.dev := rfl
@[simp] theorem State.setPart_ports (s : State) (p : Nat) (v : Part) : (s.setPart p v).ports = s.ports := rfl
@[simp] theorem State.setPart_ctxs (s : State) (p : Nat) (v : Part) : (s.setPart p v).ctxs = s.ctxs := rfl
@[simp] theorem State.setPart_kernels (s : State) (p : Nat) (v : Part) : (s.setPart p v).kernels = s.kernels := rfl
@[simp] theorem State.setPart_gangs (s : State) (p : Nat) (v : Part) : (s.setPart p v).gangs = s.gangs := rfl
@[simp] theorem State.setPart_clusters (s : State) (p : Nat) (v : Part) : (s.setPart p v).clusters = s.clusters := rfl
@[simp] theorem State.setPart_cores (s : State) (p : Nat) (v : Part) : (s.setPart p v).cores = s.cores := rfl
@[simp] theorem State.setPart_teams (s : State) (p : Nat) (v : Part) : (s.setPart p v).teams = s.teams := rfl
@[simp] theorem State.setPart_loads (s : State) (p : Nat) (v : Part) : (s.setPart p v).loads = s.loads := rfl
@[simp] theorem State.setPart_posts (s : State) (p : Nat) (v : Part) : (s.setPart p v).posts = s.posts := rfl
@[simp] theorem State.setPart_fills (s : State) (p : Nat) (v : Part) : (s.setPart p v).fills = s.fills := rfl
@[simp] theorem State.setPart_slotOps (s : State) (p : Nat) (v : Part) : (s.setPart p v).slotOps = s.slotOps := rfl
@[simp] theorem State.setPart_notices (s : State) (p : Nat) (v : Part) : (s.setPart p v).notices = s.notices := rfl
@[simp] theorem State.setPart_rings (s : State) (p : Nat) (v : Part) : (s.setPart p v).rings = s.rings := rfl
@[simp] theorem State.setPart_entries (s : State) (p : Nat) (v : Part) : (s.setPart p v).entries = s.entries := rfl
@[simp] theorem State.setPart_halos (s : State) (p : Nat) (v : Part) : (s.setPart p v).halos = s.halos := rfl
@[simp] theorem State.setPart_pageIns (s : State) (p : Nat) (v : Part) : (s.setPart p v).pageIns = s.pageIns := rfl
@[simp] theorem State.setPart_pageFails (s : State) (p : Nat) (v : Part) : (s.setPart p v).pageFails = s.pageFails := rfl
@[simp] theorem State.setPart_sxPages (s : State) (p : Nat) (v : Part) : (s.setPart p v).sxPages = s.sxPages := rfl
@[simp] theorem State.setPart_deaths (s : State) (p : Nat) (v : Part) : (s.setPart p v).deaths = s.deaths := rfl
@[simp] theorem State.setPart_walks (s : State) (p : Nat) (v : Part) : (s.setPart p v).walks = s.walks := rfl
@[simp] theorem State.setPart_peers (s : State) (p : Nat) (v : Part) : (s.setPart p v).peers = s.peers := rfl
@[simp] theorem State.setPart_turns (s : State) (p : Nat) (v : Part) : (s.setPart p v).turns = s.turns := rfl
@[simp] theorem State.setPart_sel (s : State) (p : Nat) (v : Part) : (s.setPart p v).sel = s.sel := rfl
@[simp] theorem State.setPart_nextId (s : State) (p : Nat) (v : Part) : (s.setPart p v).nextId = s.nextId := rfl
@[simp] theorem State.setPart_outbox (s : State) (p : Nat) (v : Part) : (s.setPart p v).outbox = s.outbox := rfl
@[simp] theorem State.setPart_msix (s : State) (p : Nat) (v : Part) : (s.setPart p v).msix = s.msix := rfl

/-! ## setPort -/

@[simp] theorem State.setPort_tick (s : State) (p : Nat) (v : Port) : (s.setPort p v).tick = s.tick := rfl
@[simp] theorem State.setPort_cycle (s : State) (p : Nat) (v : Port) : (s.setPort p v).cycle = s.cycle := rfl
@[simp] theorem State.setPort_edge (s : State) (p : Nat) (v : Port) : (s.setPort p v).edge = s.edge := rfl
@[simp] theorem State.setPort_mhz (s : State) (p : Nat) (v : Port) : (s.setPort p v).mhz = s.mhz := rfl
@[simp] theorem State.setPort_stopped (s : State) (p : Nat) (v : Port) : (s.setPort p v).stopped = s.stopped := rfl
@[simp] theorem State.setPort_mem (s : State) (p : Nat) (v : Port) : (s.setPort p v).mem = s.mem := rfl
@[simp] theorem State.setPort_hostMem (s : State) (p : Nat) (v : Port) : (s.setPort p v).hostMem = s.hostMem := rfl
@[simp] theorem State.setPort_bad (s : State) (p : Nat) (v : Port) : (s.setPort p v).bad = s.bad := rfl
@[simp] theorem State.setPort_fuse (s : State) (p : Nat) (v : Port) : (s.setPort p v).fuse = s.fuse := rfl
@[simp] theorem State.setPort_l2 (s : State) (p : Nat) (v : Port) : (s.setPort p v).l2 = s.l2 := rfl
@[simp] theorem State.setPort_l2Fill (s : State) (p : Nat) (v : Port) : (s.setPort p v).l2Fill = s.l2Fill := rfl
@[simp] theorem State.setPort_dev (s : State) (p : Nat) (v : Port) : (s.setPort p v).dev = s.dev := rfl
@[simp] theorem State.setPort_parts (s : State) (p : Nat) (v : Port) : (s.setPort p v).parts = s.parts := rfl
@[simp] theorem State.setPort_ctxs (s : State) (p : Nat) (v : Port) : (s.setPort p v).ctxs = s.ctxs := rfl
@[simp] theorem State.setPort_kernels (s : State) (p : Nat) (v : Port) : (s.setPort p v).kernels = s.kernels := rfl
@[simp] theorem State.setPort_gangs (s : State) (p : Nat) (v : Port) : (s.setPort p v).gangs = s.gangs := rfl
@[simp] theorem State.setPort_clusters (s : State) (p : Nat) (v : Port) : (s.setPort p v).clusters = s.clusters := rfl
@[simp] theorem State.setPort_cores (s : State) (p : Nat) (v : Port) : (s.setPort p v).cores = s.cores := rfl
@[simp] theorem State.setPort_teams (s : State) (p : Nat) (v : Port) : (s.setPort p v).teams = s.teams := rfl
@[simp] theorem State.setPort_loads (s : State) (p : Nat) (v : Port) : (s.setPort p v).loads = s.loads := rfl
@[simp] theorem State.setPort_posts (s : State) (p : Nat) (v : Port) : (s.setPort p v).posts = s.posts := rfl
@[simp] theorem State.setPort_fills (s : State) (p : Nat) (v : Port) : (s.setPort p v).fills = s.fills := rfl
@[simp] theorem State.setPort_slotOps (s : State) (p : Nat) (v : Port) : (s.setPort p v).slotOps = s.slotOps := rfl
@[simp] theorem State.setPort_notices (s : State) (p : Nat) (v : Port) : (s.setPort p v).notices = s.notices := rfl
@[simp] theorem State.setPort_rings (s : State) (p : Nat) (v : Port) : (s.setPort p v).rings = s.rings := rfl
@[simp] theorem State.setPort_entries (s : State) (p : Nat) (v : Port) : (s.setPort p v).entries = s.entries := rfl
@[simp] theorem State.setPort_halos (s : State) (p : Nat) (v : Port) : (s.setPort p v).halos = s.halos := rfl
@[simp] theorem State.setPort_pageIns (s : State) (p : Nat) (v : Port) : (s.setPort p v).pageIns = s.pageIns := rfl
@[simp] theorem State.setPort_pageFails (s : State) (p : Nat) (v : Port) : (s.setPort p v).pageFails = s.pageFails := rfl
@[simp] theorem State.setPort_sxPages (s : State) (p : Nat) (v : Port) : (s.setPort p v).sxPages = s.sxPages := rfl
@[simp] theorem State.setPort_deaths (s : State) (p : Nat) (v : Port) : (s.setPort p v).deaths = s.deaths := rfl
@[simp] theorem State.setPort_walks (s : State) (p : Nat) (v : Port) : (s.setPort p v).walks = s.walks := rfl
@[simp] theorem State.setPort_peers (s : State) (p : Nat) (v : Port) : (s.setPort p v).peers = s.peers := rfl
@[simp] theorem State.setPort_turns (s : State) (p : Nat) (v : Port) : (s.setPort p v).turns = s.turns := rfl
@[simp] theorem State.setPort_sel (s : State) (p : Nat) (v : Port) : (s.setPort p v).sel = s.sel := rfl
@[simp] theorem State.setPort_nextId (s : State) (p : Nat) (v : Port) : (s.setPort p v).nextId = s.nextId := rfl
@[simp] theorem State.setPort_outbox (s : State) (p : Nat) (v : Port) : (s.setPort p v).outbox = s.outbox := rfl
@[simp] theorem State.setPort_msix (s : State) (p : Nat) (v : Port) : (s.setPort p v).msix = s.msix := rfl

/-! ## setTeam -/

@[simp] theorem State.setTeam_tick (s : State) (k : Nat) (t : Team) : (s.setTeam k t).tick = s.tick := rfl
@[simp] theorem State.setTeam_cycle (s : State) (k : Nat) (t : Team) : (s.setTeam k t).cycle = s.cycle := rfl
@[simp] theorem State.setTeam_edge (s : State) (k : Nat) (t : Team) : (s.setTeam k t).edge = s.edge := rfl
@[simp] theorem State.setTeam_mhz (s : State) (k : Nat) (t : Team) : (s.setTeam k t).mhz = s.mhz := rfl
@[simp] theorem State.setTeam_stopped (s : State) (k : Nat) (t : Team) : (s.setTeam k t).stopped = s.stopped := rfl
@[simp] theorem State.setTeam_mem (s : State) (k : Nat) (t : Team) : (s.setTeam k t).mem = s.mem := rfl
@[simp] theorem State.setTeam_hostMem (s : State) (k : Nat) (t : Team) : (s.setTeam k t).hostMem = s.hostMem := rfl
@[simp] theorem State.setTeam_bad (s : State) (k : Nat) (t : Team) : (s.setTeam k t).bad = s.bad := rfl
@[simp] theorem State.setTeam_fuse (s : State) (k : Nat) (t : Team) : (s.setTeam k t).fuse = s.fuse := rfl
@[simp] theorem State.setTeam_l2 (s : State) (k : Nat) (t : Team) : (s.setTeam k t).l2 = s.l2 := rfl
@[simp] theorem State.setTeam_l2Fill (s : State) (k : Nat) (t : Team) : (s.setTeam k t).l2Fill = s.l2Fill := rfl
@[simp] theorem State.setTeam_dev (s : State) (k : Nat) (t : Team) : (s.setTeam k t).dev = s.dev := rfl
@[simp] theorem State.setTeam_parts (s : State) (k : Nat) (t : Team) : (s.setTeam k t).parts = s.parts := rfl
@[simp] theorem State.setTeam_ports (s : State) (k : Nat) (t : Team) : (s.setTeam k t).ports = s.ports := rfl
@[simp] theorem State.setTeam_ctxs (s : State) (k : Nat) (t : Team) : (s.setTeam k t).ctxs = s.ctxs := rfl
@[simp] theorem State.setTeam_kernels (s : State) (k : Nat) (t : Team) : (s.setTeam k t).kernels = s.kernels := rfl
@[simp] theorem State.setTeam_gangs (s : State) (k : Nat) (t : Team) : (s.setTeam k t).gangs = s.gangs := rfl
@[simp] theorem State.setTeam_clusters (s : State) (k : Nat) (t : Team) : (s.setTeam k t).clusters = s.clusters := rfl
@[simp] theorem State.setTeam_cores (s : State) (k : Nat) (t : Team) : (s.setTeam k t).cores = s.cores := rfl
@[simp] theorem State.setTeam_loads (s : State) (k : Nat) (t : Team) : (s.setTeam k t).loads = s.loads := rfl
@[simp] theorem State.setTeam_posts (s : State) (k : Nat) (t : Team) : (s.setTeam k t).posts = s.posts := rfl
@[simp] theorem State.setTeam_fills (s : State) (k : Nat) (t : Team) : (s.setTeam k t).fills = s.fills := rfl
@[simp] theorem State.setTeam_slotOps (s : State) (k : Nat) (t : Team) : (s.setTeam k t).slotOps = s.slotOps := rfl
@[simp] theorem State.setTeam_notices (s : State) (k : Nat) (t : Team) : (s.setTeam k t).notices = s.notices := rfl
@[simp] theorem State.setTeam_rings (s : State) (k : Nat) (t : Team) : (s.setTeam k t).rings = s.rings := rfl
@[simp] theorem State.setTeam_entries (s : State) (k : Nat) (t : Team) : (s.setTeam k t).entries = s.entries := rfl
@[simp] theorem State.setTeam_halos (s : State) (k : Nat) (t : Team) : (s.setTeam k t).halos = s.halos := rfl
@[simp] theorem State.setTeam_pageIns (s : State) (k : Nat) (t : Team) : (s.setTeam k t).pageIns = s.pageIns := rfl
@[simp] theorem State.setTeam_pageFails (s : State) (k : Nat) (t : Team) : (s.setTeam k t).pageFails = s.pageFails := rfl
@[simp] theorem State.setTeam_sxPages (s : State) (k : Nat) (t : Team) : (s.setTeam k t).sxPages = s.sxPages := rfl
@[simp] theorem State.setTeam_deaths (s : State) (k : Nat) (t : Team) : (s.setTeam k t).deaths = s.deaths := rfl
@[simp] theorem State.setTeam_walks (s : State) (k : Nat) (t : Team) : (s.setTeam k t).walks = s.walks := rfl
@[simp] theorem State.setTeam_peers (s : State) (k : Nat) (t : Team) : (s.setTeam k t).peers = s.peers := rfl
@[simp] theorem State.setTeam_turns (s : State) (k : Nat) (t : Team) : (s.setTeam k t).turns = s.turns := rfl
@[simp] theorem State.setTeam_sel (s : State) (k : Nat) (t : Team) : (s.setTeam k t).sel = s.sel := rfl
@[simp] theorem State.setTeam_nextId (s : State) (k : Nat) (t : Team) : (s.setTeam k t).nextId = s.nextId := rfl
@[simp] theorem State.setTeam_outbox (s : State) (k : Nat) (t : Team) : (s.setTeam k t).outbox = s.outbox := rfl
@[simp] theorem State.setTeam_msix (s : State) (k : Nat) (t : Team) : (s.setTeam k t).msix = s.msix := rfl

/-! ## modTeam -/

@[simp] theorem State.modTeam_tick (s : State) (k : Nat) (f : Team → Team) : (s.modTeam k f).tick = s.tick := rfl
@[simp] theorem State.modTeam_cycle (s : State) (k : Nat) (f : Team → Team) : (s.modTeam k f).cycle = s.cycle := rfl
@[simp] theorem State.modTeam_edge (s : State) (k : Nat) (f : Team → Team) : (s.modTeam k f).edge = s.edge := rfl
@[simp] theorem State.modTeam_mhz (s : State) (k : Nat) (f : Team → Team) : (s.modTeam k f).mhz = s.mhz := rfl
@[simp] theorem State.modTeam_stopped (s : State) (k : Nat) (f : Team → Team) : (s.modTeam k f).stopped = s.stopped := rfl
@[simp] theorem State.modTeam_mem (s : State) (k : Nat) (f : Team → Team) : (s.modTeam k f).mem = s.mem := rfl
@[simp] theorem State.modTeam_hostMem (s : State) (k : Nat) (f : Team → Team) : (s.modTeam k f).hostMem = s.hostMem := rfl
@[simp] theorem State.modTeam_bad (s : State) (k : Nat) (f : Team → Team) : (s.modTeam k f).bad = s.bad := rfl
@[simp] theorem State.modTeam_fuse (s : State) (k : Nat) (f : Team → Team) : (s.modTeam k f).fuse = s.fuse := rfl
@[simp] theorem State.modTeam_l2 (s : State) (k : Nat) (f : Team → Team) : (s.modTeam k f).l2 = s.l2 := rfl
@[simp] theorem State.modTeam_l2Fill (s : State) (k : Nat) (f : Team → Team) : (s.modTeam k f).l2Fill = s.l2Fill := rfl
@[simp] theorem State.modTeam_dev (s : State) (k : Nat) (f : Team → Team) : (s.modTeam k f).dev = s.dev := rfl
@[simp] theorem State.modTeam_parts (s : State) (k : Nat) (f : Team → Team) : (s.modTeam k f).parts = s.parts := rfl
@[simp] theorem State.modTeam_ports (s : State) (k : Nat) (f : Team → Team) : (s.modTeam k f).ports = s.ports := rfl
@[simp] theorem State.modTeam_ctxs (s : State) (k : Nat) (f : Team → Team) : (s.modTeam k f).ctxs = s.ctxs := rfl
@[simp] theorem State.modTeam_kernels (s : State) (k : Nat) (f : Team → Team) : (s.modTeam k f).kernels = s.kernels := rfl
@[simp] theorem State.modTeam_gangs (s : State) (k : Nat) (f : Team → Team) : (s.modTeam k f).gangs = s.gangs := rfl
@[simp] theorem State.modTeam_clusters (s : State) (k : Nat) (f : Team → Team) : (s.modTeam k f).clusters = s.clusters := rfl
@[simp] theorem State.modTeam_cores (s : State) (k : Nat) (f : Team → Team) : (s.modTeam k f).cores = s.cores := rfl
@[simp] theorem State.modTeam_loads (s : State) (k : Nat) (f : Team → Team) : (s.modTeam k f).loads = s.loads := rfl
@[simp] theorem State.modTeam_posts (s : State) (k : Nat) (f : Team → Team) : (s.modTeam k f).posts = s.posts := rfl
@[simp] theorem State.modTeam_fills (s : State) (k : Nat) (f : Team → Team) : (s.modTeam k f).fills = s.fills := rfl
@[simp] theorem State.modTeam_slotOps (s : State) (k : Nat) (f : Team → Team) : (s.modTeam k f).slotOps = s.slotOps := rfl
@[simp] theorem State.modTeam_notices (s : State) (k : Nat) (f : Team → Team) : (s.modTeam k f).notices = s.notices := rfl
@[simp] theorem State.modTeam_rings (s : State) (k : Nat) (f : Team → Team) : (s.modTeam k f).rings = s.rings := rfl
@[simp] theorem State.modTeam_entries (s : State) (k : Nat) (f : Team → Team) : (s.modTeam k f).entries = s.entries := rfl
@[simp] theorem State.modTeam_halos (s : State) (k : Nat) (f : Team → Team) : (s.modTeam k f).halos = s.halos := rfl
@[simp] theorem State.modTeam_pageIns (s : State) (k : Nat) (f : Team → Team) : (s.modTeam k f).pageIns = s.pageIns := rfl
@[simp] theorem State.modTeam_pageFails (s : State) (k : Nat) (f : Team → Team) : (s.modTeam k f).pageFails = s.pageFails := rfl
@[simp] theorem State.modTeam_sxPages (s : State) (k : Nat) (f : Team → Team) : (s.modTeam k f).sxPages = s.sxPages := rfl
@[simp] theorem State.modTeam_deaths (s : State) (k : Nat) (f : Team → Team) : (s.modTeam k f).deaths = s.deaths := rfl
@[simp] theorem State.modTeam_walks (s : State) (k : Nat) (f : Team → Team) : (s.modTeam k f).walks = s.walks := rfl
@[simp] theorem State.modTeam_peers (s : State) (k : Nat) (f : Team → Team) : (s.modTeam k f).peers = s.peers := rfl
@[simp] theorem State.modTeam_turns (s : State) (k : Nat) (f : Team → Team) : (s.modTeam k f).turns = s.turns := rfl
@[simp] theorem State.modTeam_sel (s : State) (k : Nat) (f : Team → Team) : (s.modTeam k f).sel = s.sel := rfl
@[simp] theorem State.modTeam_nextId (s : State) (k : Nat) (f : Team → Team) : (s.modTeam k f).nextId = s.nextId := rfl
@[simp] theorem State.modTeam_outbox (s : State) (k : Nat) (f : Team → Team) : (s.modTeam k f).outbox = s.outbox := rfl
@[simp] theorem State.modTeam_msix (s : State) (k : Nat) (f : Team → Team) : (s.modTeam k f).msix = s.msix := rfl

/-! ## setCtx -/

@[simp] theorem State.setCtx_tick (s : State) (o : Nat) (c : Ctx) : (s.setCtx o c).tick = s.tick := rfl
@[simp] theorem State.setCtx_cycle (s : State) (o : Nat) (c : Ctx) : (s.setCtx o c).cycle = s.cycle := rfl
@[simp] theorem State.setCtx_edge (s : State) (o : Nat) (c : Ctx) : (s.setCtx o c).edge = s.edge := rfl
@[simp] theorem State.setCtx_mhz (s : State) (o : Nat) (c : Ctx) : (s.setCtx o c).mhz = s.mhz := rfl
@[simp] theorem State.setCtx_stopped (s : State) (o : Nat) (c : Ctx) : (s.setCtx o c).stopped = s.stopped := rfl
@[simp] theorem State.setCtx_mem (s : State) (o : Nat) (c : Ctx) : (s.setCtx o c).mem = s.mem := rfl
@[simp] theorem State.setCtx_hostMem (s : State) (o : Nat) (c : Ctx) : (s.setCtx o c).hostMem = s.hostMem := rfl
@[simp] theorem State.setCtx_bad (s : State) (o : Nat) (c : Ctx) : (s.setCtx o c).bad = s.bad := rfl
@[simp] theorem State.setCtx_fuse (s : State) (o : Nat) (c : Ctx) : (s.setCtx o c).fuse = s.fuse := rfl
@[simp] theorem State.setCtx_l2 (s : State) (o : Nat) (c : Ctx) : (s.setCtx o c).l2 = s.l2 := rfl
@[simp] theorem State.setCtx_l2Fill (s : State) (o : Nat) (c : Ctx) : (s.setCtx o c).l2Fill = s.l2Fill := rfl
@[simp] theorem State.setCtx_dev (s : State) (o : Nat) (c : Ctx) : (s.setCtx o c).dev = s.dev := rfl
@[simp] theorem State.setCtx_parts (s : State) (o : Nat) (c : Ctx) : (s.setCtx o c).parts = s.parts := rfl
@[simp] theorem State.setCtx_ports (s : State) (o : Nat) (c : Ctx) : (s.setCtx o c).ports = s.ports := rfl
@[simp] theorem State.setCtx_kernels (s : State) (o : Nat) (c : Ctx) : (s.setCtx o c).kernels = s.kernels := rfl
@[simp] theorem State.setCtx_gangs (s : State) (o : Nat) (c : Ctx) : (s.setCtx o c).gangs = s.gangs := rfl
@[simp] theorem State.setCtx_clusters (s : State) (o : Nat) (c : Ctx) : (s.setCtx o c).clusters = s.clusters := rfl
@[simp] theorem State.setCtx_cores (s : State) (o : Nat) (c : Ctx) : (s.setCtx o c).cores = s.cores := rfl
@[simp] theorem State.setCtx_teams (s : State) (o : Nat) (c : Ctx) : (s.setCtx o c).teams = s.teams := rfl
@[simp] theorem State.setCtx_loads (s : State) (o : Nat) (c : Ctx) : (s.setCtx o c).loads = s.loads := rfl
@[simp] theorem State.setCtx_posts (s : State) (o : Nat) (c : Ctx) : (s.setCtx o c).posts = s.posts := rfl
@[simp] theorem State.setCtx_fills (s : State) (o : Nat) (c : Ctx) : (s.setCtx o c).fills = s.fills := rfl
@[simp] theorem State.setCtx_slotOps (s : State) (o : Nat) (c : Ctx) : (s.setCtx o c).slotOps = s.slotOps := rfl
@[simp] theorem State.setCtx_notices (s : State) (o : Nat) (c : Ctx) : (s.setCtx o c).notices = s.notices := rfl
@[simp] theorem State.setCtx_rings (s : State) (o : Nat) (c : Ctx) : (s.setCtx o c).rings = s.rings := rfl
@[simp] theorem State.setCtx_entries (s : State) (o : Nat) (c : Ctx) : (s.setCtx o c).entries = s.entries := rfl
@[simp] theorem State.setCtx_halos (s : State) (o : Nat) (c : Ctx) : (s.setCtx o c).halos = s.halos := rfl
@[simp] theorem State.setCtx_pageIns (s : State) (o : Nat) (c : Ctx) : (s.setCtx o c).pageIns = s.pageIns := rfl
@[simp] theorem State.setCtx_pageFails (s : State) (o : Nat) (c : Ctx) : (s.setCtx o c).pageFails = s.pageFails := rfl
@[simp] theorem State.setCtx_sxPages (s : State) (o : Nat) (c : Ctx) : (s.setCtx o c).sxPages = s.sxPages := rfl
@[simp] theorem State.setCtx_deaths (s : State) (o : Nat) (c : Ctx) : (s.setCtx o c).deaths = s.deaths := rfl
@[simp] theorem State.setCtx_walks (s : State) (o : Nat) (c : Ctx) : (s.setCtx o c).walks = s.walks := rfl
@[simp] theorem State.setCtx_peers (s : State) (o : Nat) (c : Ctx) : (s.setCtx o c).peers = s.peers := rfl
@[simp] theorem State.setCtx_turns (s : State) (o : Nat) (c : Ctx) : (s.setCtx o c).turns = s.turns := rfl
@[simp] theorem State.setCtx_sel (s : State) (o : Nat) (c : Ctx) : (s.setCtx o c).sel = s.sel := rfl
@[simp] theorem State.setCtx_nextId (s : State) (o : Nat) (c : Ctx) : (s.setCtx o c).nextId = s.nextId := rfl
@[simp] theorem State.setCtx_outbox (s : State) (o : Nat) (c : Ctx) : (s.setCtx o c).outbox = s.outbox := rfl
@[simp] theorem State.setCtx_msix (s : State) (o : Nat) (c : Ctx) : (s.setCtx o c).msix = s.msix := rfl

/-! ## setKernel -/

@[simp] theorem State.setKernel_tick (s : State) (k : Nat) (v : Kernel) : (s.setKernel k v).tick = s.tick := rfl
@[simp] theorem State.setKernel_cycle (s : State) (k : Nat) (v : Kernel) : (s.setKernel k v).cycle = s.cycle := rfl
@[simp] theorem State.setKernel_edge (s : State) (k : Nat) (v : Kernel) : (s.setKernel k v).edge = s.edge := rfl
@[simp] theorem State.setKernel_mhz (s : State) (k : Nat) (v : Kernel) : (s.setKernel k v).mhz = s.mhz := rfl
@[simp] theorem State.setKernel_stopped (s : State) (k : Nat) (v : Kernel) : (s.setKernel k v).stopped = s.stopped := rfl
@[simp] theorem State.setKernel_mem (s : State) (k : Nat) (v : Kernel) : (s.setKernel k v).mem = s.mem := rfl
@[simp] theorem State.setKernel_hostMem (s : State) (k : Nat) (v : Kernel) : (s.setKernel k v).hostMem = s.hostMem := rfl
@[simp] theorem State.setKernel_bad (s : State) (k : Nat) (v : Kernel) : (s.setKernel k v).bad = s.bad := rfl
@[simp] theorem State.setKernel_fuse (s : State) (k : Nat) (v : Kernel) : (s.setKernel k v).fuse = s.fuse := rfl
@[simp] theorem State.setKernel_l2 (s : State) (k : Nat) (v : Kernel) : (s.setKernel k v).l2 = s.l2 := rfl
@[simp] theorem State.setKernel_l2Fill (s : State) (k : Nat) (v : Kernel) : (s.setKernel k v).l2Fill = s.l2Fill := rfl
@[simp] theorem State.setKernel_dev (s : State) (k : Nat) (v : Kernel) : (s.setKernel k v).dev = s.dev := rfl
@[simp] theorem State.setKernel_parts (s : State) (k : Nat) (v : Kernel) : (s.setKernel k v).parts = s.parts := rfl
@[simp] theorem State.setKernel_ports (s : State) (k : Nat) (v : Kernel) : (s.setKernel k v).ports = s.ports := rfl
@[simp] theorem State.setKernel_ctxs (s : State) (k : Nat) (v : Kernel) : (s.setKernel k v).ctxs = s.ctxs := rfl
@[simp] theorem State.setKernel_gangs (s : State) (k : Nat) (v : Kernel) : (s.setKernel k v).gangs = s.gangs := rfl
@[simp] theorem State.setKernel_clusters (s : State) (k : Nat) (v : Kernel) : (s.setKernel k v).clusters = s.clusters := rfl
@[simp] theorem State.setKernel_cores (s : State) (k : Nat) (v : Kernel) : (s.setKernel k v).cores = s.cores := rfl
@[simp] theorem State.setKernel_teams (s : State) (k : Nat) (v : Kernel) : (s.setKernel k v).teams = s.teams := rfl
@[simp] theorem State.setKernel_loads (s : State) (k : Nat) (v : Kernel) : (s.setKernel k v).loads = s.loads := rfl
@[simp] theorem State.setKernel_posts (s : State) (k : Nat) (v : Kernel) : (s.setKernel k v).posts = s.posts := rfl
@[simp] theorem State.setKernel_fills (s : State) (k : Nat) (v : Kernel) : (s.setKernel k v).fills = s.fills := rfl
@[simp] theorem State.setKernel_slotOps (s : State) (k : Nat) (v : Kernel) : (s.setKernel k v).slotOps = s.slotOps := rfl
@[simp] theorem State.setKernel_notices (s : State) (k : Nat) (v : Kernel) : (s.setKernel k v).notices = s.notices := rfl
@[simp] theorem State.setKernel_rings (s : State) (k : Nat) (v : Kernel) : (s.setKernel k v).rings = s.rings := rfl
@[simp] theorem State.setKernel_entries (s : State) (k : Nat) (v : Kernel) : (s.setKernel k v).entries = s.entries := rfl
@[simp] theorem State.setKernel_halos (s : State) (k : Nat) (v : Kernel) : (s.setKernel k v).halos = s.halos := rfl
@[simp] theorem State.setKernel_pageIns (s : State) (k : Nat) (v : Kernel) : (s.setKernel k v).pageIns = s.pageIns := rfl
@[simp] theorem State.setKernel_pageFails (s : State) (k : Nat) (v : Kernel) : (s.setKernel k v).pageFails = s.pageFails := rfl
@[simp] theorem State.setKernel_sxPages (s : State) (k : Nat) (v : Kernel) : (s.setKernel k v).sxPages = s.sxPages := rfl
@[simp] theorem State.setKernel_deaths (s : State) (k : Nat) (v : Kernel) : (s.setKernel k v).deaths = s.deaths := rfl
@[simp] theorem State.setKernel_walks (s : State) (k : Nat) (v : Kernel) : (s.setKernel k v).walks = s.walks := rfl
@[simp] theorem State.setKernel_peers (s : State) (k : Nat) (v : Kernel) : (s.setKernel k v).peers = s.peers := rfl
@[simp] theorem State.setKernel_turns (s : State) (k : Nat) (v : Kernel) : (s.setKernel k v).turns = s.turns := rfl
@[simp] theorem State.setKernel_sel (s : State) (k : Nat) (v : Kernel) : (s.setKernel k v).sel = s.sel := rfl
@[simp] theorem State.setKernel_nextId (s : State) (k : Nat) (v : Kernel) : (s.setKernel k v).nextId = s.nextId := rfl
@[simp] theorem State.setKernel_outbox (s : State) (k : Nat) (v : Kernel) : (s.setKernel k v).outbox = s.outbox := rfl
@[simp] theorem State.setKernel_msix (s : State) (k : Nat) (v : Kernel) : (s.setKernel k v).msix = s.msix := rfl

/-! ## setGang -/

@[simp] theorem State.setGang_tick (s : State) (g : Nat) (v : Gang) : (s.setGang g v).tick = s.tick := rfl
@[simp] theorem State.setGang_cycle (s : State) (g : Nat) (v : Gang) : (s.setGang g v).cycle = s.cycle := rfl
@[simp] theorem State.setGang_edge (s : State) (g : Nat) (v : Gang) : (s.setGang g v).edge = s.edge := rfl
@[simp] theorem State.setGang_mhz (s : State) (g : Nat) (v : Gang) : (s.setGang g v).mhz = s.mhz := rfl
@[simp] theorem State.setGang_stopped (s : State) (g : Nat) (v : Gang) : (s.setGang g v).stopped = s.stopped := rfl
@[simp] theorem State.setGang_mem (s : State) (g : Nat) (v : Gang) : (s.setGang g v).mem = s.mem := rfl
@[simp] theorem State.setGang_hostMem (s : State) (g : Nat) (v : Gang) : (s.setGang g v).hostMem = s.hostMem := rfl
@[simp] theorem State.setGang_bad (s : State) (g : Nat) (v : Gang) : (s.setGang g v).bad = s.bad := rfl
@[simp] theorem State.setGang_fuse (s : State) (g : Nat) (v : Gang) : (s.setGang g v).fuse = s.fuse := rfl
@[simp] theorem State.setGang_l2 (s : State) (g : Nat) (v : Gang) : (s.setGang g v).l2 = s.l2 := rfl
@[simp] theorem State.setGang_l2Fill (s : State) (g : Nat) (v : Gang) : (s.setGang g v).l2Fill = s.l2Fill := rfl
@[simp] theorem State.setGang_dev (s : State) (g : Nat) (v : Gang) : (s.setGang g v).dev = s.dev := rfl
@[simp] theorem State.setGang_parts (s : State) (g : Nat) (v : Gang) : (s.setGang g v).parts = s.parts := rfl
@[simp] theorem State.setGang_ports (s : State) (g : Nat) (v : Gang) : (s.setGang g v).ports = s.ports := rfl
@[simp] theorem State.setGang_ctxs (s : State) (g : Nat) (v : Gang) : (s.setGang g v).ctxs = s.ctxs := rfl
@[simp] theorem State.setGang_kernels (s : State) (g : Nat) (v : Gang) : (s.setGang g v).kernels = s.kernels := rfl
@[simp] theorem State.setGang_clusters (s : State) (g : Nat) (v : Gang) : (s.setGang g v).clusters = s.clusters := rfl
@[simp] theorem State.setGang_cores (s : State) (g : Nat) (v : Gang) : (s.setGang g v).cores = s.cores := rfl
@[simp] theorem State.setGang_teams (s : State) (g : Nat) (v : Gang) : (s.setGang g v).teams = s.teams := rfl
@[simp] theorem State.setGang_loads (s : State) (g : Nat) (v : Gang) : (s.setGang g v).loads = s.loads := rfl
@[simp] theorem State.setGang_posts (s : State) (g : Nat) (v : Gang) : (s.setGang g v).posts = s.posts := rfl
@[simp] theorem State.setGang_fills (s : State) (g : Nat) (v : Gang) : (s.setGang g v).fills = s.fills := rfl
@[simp] theorem State.setGang_slotOps (s : State) (g : Nat) (v : Gang) : (s.setGang g v).slotOps = s.slotOps := rfl
@[simp] theorem State.setGang_notices (s : State) (g : Nat) (v : Gang) : (s.setGang g v).notices = s.notices := rfl
@[simp] theorem State.setGang_rings (s : State) (g : Nat) (v : Gang) : (s.setGang g v).rings = s.rings := rfl
@[simp] theorem State.setGang_entries (s : State) (g : Nat) (v : Gang) : (s.setGang g v).entries = s.entries := rfl
@[simp] theorem State.setGang_halos (s : State) (g : Nat) (v : Gang) : (s.setGang g v).halos = s.halos := rfl
@[simp] theorem State.setGang_pageIns (s : State) (g : Nat) (v : Gang) : (s.setGang g v).pageIns = s.pageIns := rfl
@[simp] theorem State.setGang_pageFails (s : State) (g : Nat) (v : Gang) : (s.setGang g v).pageFails = s.pageFails := rfl
@[simp] theorem State.setGang_sxPages (s : State) (g : Nat) (v : Gang) : (s.setGang g v).sxPages = s.sxPages := rfl
@[simp] theorem State.setGang_deaths (s : State) (g : Nat) (v : Gang) : (s.setGang g v).deaths = s.deaths := rfl
@[simp] theorem State.setGang_walks (s : State) (g : Nat) (v : Gang) : (s.setGang g v).walks = s.walks := rfl
@[simp] theorem State.setGang_peers (s : State) (g : Nat) (v : Gang) : (s.setGang g v).peers = s.peers := rfl
@[simp] theorem State.setGang_turns (s : State) (g : Nat) (v : Gang) : (s.setGang g v).turns = s.turns := rfl
@[simp] theorem State.setGang_sel (s : State) (g : Nat) (v : Gang) : (s.setGang g v).sel = s.sel := rfl
@[simp] theorem State.setGang_nextId (s : State) (g : Nat) (v : Gang) : (s.setGang g v).nextId = s.nextId := rfl
@[simp] theorem State.setGang_outbox (s : State) (g : Nat) (v : Gang) : (s.setGang g v).outbox = s.outbox := rfl
@[simp] theorem State.setGang_msix (s : State) (g : Nat) (v : Gang) : (s.setGang g v).msix = s.msix := rfl

/-! ## Reads after updates -/

@[simp] theorem State.team_setTeam_self (s : State) (k : Nat) (t : Team) : (s.setTeam k t).team k = some t :=
  Table.find_put_self s.teams k t
theorem State.team_setTeam (s : State) (k k' : Nat) (t : Team) : (s.setTeam k t).team k' = if k' = k then some t else s.team k' :=
  Table.find_put s.teams t k k'
theorem State.team_modTeam (s : State) (k k' : Nat) (f : Team → Team) :
    (s.modTeam k f).team k' = if k' = k then (s.team k).map f else s.team k' := Table.find_modify s.teams k k' f
theorem State.team_modTeam_self (s : State) (k : Nat) (f : Team → Team) : (s.modTeam k f).team k = (s.team k).map f := by
  simp [State.team_modTeam]
@[simp] theorem State.core_setCore_self (s : State) (c : Nat) (v : Core) : (s.setCore c v).core c = v :=
  Table.get_put_self s.cores c v Core.reset
theorem State.core_setCore (s : State) (c c' : Nat) (v : Core) : (s.setCore c v).core c' = if c' = c then v else s.core c' :=
  Table.get_put s.cores v Core.reset c c'
theorem State.cluster_setCluster (s : State) (c c' : Nat) (v : Cluster) :
    (s.setCluster c v).cluster c' = if c' = c then v else s.cluster c' := Table.get_put s.clusters v Cluster.reset c c'
theorem State.port_setPort (s : State) (p p' : Nat) (v : Port) : (s.setPort p v).port p' = if p' = p then v else s.port p' :=
  Table.get_put s.ports v Port.reset p p'
theorem State.part_setPart (s : State) (p p' : Nat) (v : Part) : (s.setPart p v).part p' = if p' = p then v else s.part p' := by
  unfold State.part State.setPart
  rw [Table.get_put]
theorem State.ctx_setCtx (s : State) (o o' : Nat) (c : Ctx) : (s.setCtx o c).ctx o' = if o' = o then some c else s.ctx o' :=
  Table.find_put s.ctxs c o o'
theorem State.kernel_setKernel (s : State) (k k' : Nat) (v : Kernel) :
    (s.setKernel k v).kernel k' = if k' = k then some v else s.kernel k' := Table.find_put s.kernels v k k'
theorem State.gang_setGang (s : State) (g g' : Nat) (v : Gang) : (s.setGang g v).gang g' = if g' = g then some v else s.gang g' :=
  Table.find_put s.gangs v g g'

/-! ## Parts that one update does not touch -/

@[simp] theorem State.team_setCore (s : State) (c : Nat) (v : Core) (n : Nat) : (s.setCore c v).team n = s.team n := rfl
@[simp] theorem State.cluster_setCore (s : State) (c : Nat) (v : Core) (n : Nat) : (s.setCore c v).cluster n = s.cluster n := rfl
@[simp] theorem State.part_setCore (s : State) (c : Nat) (v : Core) (n : Nat) : (s.setCore c v).part n = s.part n := rfl
@[simp] theorem State.port_setCore (s : State) (c : Nat) (v : Core) (n : Nat) : (s.setCore c v).port n = s.port n := rfl
@[simp] theorem State.ctx_setCore (s : State) (c : Nat) (v : Core) (n : Nat) : (s.setCore c v).ctx n = s.ctx n := rfl
@[simp] theorem State.kernel_setCore (s : State) (c : Nat) (v : Core) (n : Nat) : (s.setCore c v).kernel n = s.kernel n := rfl
@[simp] theorem State.gang_setCore (s : State) (c : Nat) (v : Core) (n : Nat) : (s.setCore c v).gang n = s.gang n := rfl
@[simp] theorem State.team_setCluster (s : State) (c : Nat) (v : Cluster) (n : Nat) : (s.setCluster c v).team n = s.team n := rfl
@[simp] theorem State.core_setCluster (s : State) (c : Nat) (v : Cluster) (n : Nat) : (s.setCluster c v).core n = s.core n := rfl
@[simp] theorem State.part_setCluster (s : State) (c : Nat) (v : Cluster) (n : Nat) : (s.setCluster c v).part n = s.part n := rfl
@[simp] theorem State.port_setCluster (s : State) (c : Nat) (v : Cluster) (n : Nat) : (s.setCluster c v).port n = s.port n := rfl
@[simp] theorem State.ctx_setCluster (s : State) (c : Nat) (v : Cluster) (n : Nat) : (s.setCluster c v).ctx n = s.ctx n := rfl
@[simp] theorem State.kernel_setCluster (s : State) (c : Nat) (v : Cluster) (n : Nat) : (s.setCluster c v).kernel n = s.kernel n := rfl
@[simp] theorem State.gang_setCluster (s : State) (c : Nat) (v : Cluster) (n : Nat) : (s.setCluster c v).gang n = s.gang n := rfl
@[simp] theorem State.team_setPart (s : State) (p : Nat) (v : Part) (n : Nat) : (s.setPart p v).team n = s.team n := rfl
@[simp] theorem State.core_setPart (s : State) (p : Nat) (v : Part) (n : Nat) : (s.setPart p v).core n = s.core n := rfl
@[simp] theorem State.cluster_setPart (s : State) (p : Nat) (v : Part) (n : Nat) : (s.setPart p v).cluster n = s.cluster n := rfl
@[simp] theorem State.port_setPart (s : State) (p : Nat) (v : Part) (n : Nat) : (s.setPart p v).port n = s.port n := rfl
@[simp] theorem State.ctx_setPart (s : State) (p : Nat) (v : Part) (n : Nat) : (s.setPart p v).ctx n = s.ctx n := rfl
@[simp] theorem State.kernel_setPart (s : State) (p : Nat) (v : Part) (n : Nat) : (s.setPart p v).kernel n = s.kernel n := rfl
@[simp] theorem State.gang_setPart (s : State) (p : Nat) (v : Part) (n : Nat) : (s.setPart p v).gang n = s.gang n := rfl
@[simp] theorem State.team_setPort (s : State) (p : Nat) (v : Port) (n : Nat) : (s.setPort p v).team n = s.team n := rfl
@[simp] theorem State.core_setPort (s : State) (p : Nat) (v : Port) (n : Nat) : (s.setPort p v).core n = s.core n := rfl
@[simp] theorem State.cluster_setPort (s : State) (p : Nat) (v : Port) (n : Nat) : (s.setPort p v).cluster n = s.cluster n := rfl
@[simp] theorem State.part_setPort (s : State) (p : Nat) (v : Port) (n : Nat) : (s.setPort p v).part n = s.part n := rfl
@[simp] theorem State.ctx_setPort (s : State) (p : Nat) (v : Port) (n : Nat) : (s.setPort p v).ctx n = s.ctx n := rfl
@[simp] theorem State.kernel_setPort (s : State) (p : Nat) (v : Port) (n : Nat) : (s.setPort p v).kernel n = s.kernel n := rfl
@[simp] theorem State.gang_setPort (s : State) (p : Nat) (v : Port) (n : Nat) : (s.setPort p v).gang n = s.gang n := rfl
@[simp] theorem State.core_setTeam (s : State) (k : Nat) (t : Team) (n : Nat) : (s.setTeam k t).core n = s.core n := rfl
@[simp] theorem State.cluster_setTeam (s : State) (k : Nat) (t : Team) (n : Nat) : (s.setTeam k t).cluster n = s.cluster n := rfl
@[simp] theorem State.part_setTeam (s : State) (k : Nat) (t : Team) (n : Nat) : (s.setTeam k t).part n = s.part n := rfl
@[simp] theorem State.port_setTeam (s : State) (k : Nat) (t : Team) (n : Nat) : (s.setTeam k t).port n = s.port n := rfl
@[simp] theorem State.ctx_setTeam (s : State) (k : Nat) (t : Team) (n : Nat) : (s.setTeam k t).ctx n = s.ctx n := rfl
@[simp] theorem State.kernel_setTeam (s : State) (k : Nat) (t : Team) (n : Nat) : (s.setTeam k t).kernel n = s.kernel n := rfl
@[simp] theorem State.gang_setTeam (s : State) (k : Nat) (t : Team) (n : Nat) : (s.setTeam k t).gang n = s.gang n := rfl
@[simp] theorem State.core_modTeam (s : State) (k : Nat) (f : Team → Team) (n : Nat) : (s.modTeam k f).core n = s.core n := rfl
@[simp] theorem State.cluster_modTeam (s : State) (k : Nat) (f : Team → Team) (n : Nat) : (s.modTeam k f).cluster n = s.cluster n := rfl
@[simp] theorem State.part_modTeam (s : State) (k : Nat) (f : Team → Team) (n : Nat) : (s.modTeam k f).part n = s.part n := rfl
@[simp] theorem State.port_modTeam (s : State) (k : Nat) (f : Team → Team) (n : Nat) : (s.modTeam k f).port n = s.port n := rfl
@[simp] theorem State.ctx_modTeam (s : State) (k : Nat) (f : Team → Team) (n : Nat) : (s.modTeam k f).ctx n = s.ctx n := rfl
@[simp] theorem State.kernel_modTeam (s : State) (k : Nat) (f : Team → Team) (n : Nat) : (s.modTeam k f).kernel n = s.kernel n := rfl
@[simp] theorem State.gang_modTeam (s : State) (k : Nat) (f : Team → Team) (n : Nat) : (s.modTeam k f).gang n = s.gang n := rfl
@[simp] theorem State.team_setCtx (s : State) (o : Nat) (c : Ctx) (n : Nat) : (s.setCtx o c).team n = s.team n := rfl
@[simp] theorem State.core_setCtx (s : State) (o : Nat) (c : Ctx) (n : Nat) : (s.setCtx o c).core n = s.core n := rfl
@[simp] theorem State.cluster_setCtx (s : State) (o : Nat) (c : Ctx) (n : Nat) : (s.setCtx o c).cluster n = s.cluster n := rfl
@[simp] theorem State.part_setCtx (s : State) (o : Nat) (c : Ctx) (n : Nat) : (s.setCtx o c).part n = s.part n := rfl
@[simp] theorem State.port_setCtx (s : State) (o : Nat) (c : Ctx) (n : Nat) : (s.setCtx o c).port n = s.port n := rfl
@[simp] theorem State.kernel_setCtx (s : State) (o : Nat) (c : Ctx) (n : Nat) : (s.setCtx o c).kernel n = s.kernel n := rfl
@[simp] theorem State.gang_setCtx (s : State) (o : Nat) (c : Ctx) (n : Nat) : (s.setCtx o c).gang n = s.gang n := rfl
@[simp] theorem State.team_setKernel (s : State) (k : Nat) (v : Kernel) (n : Nat) : (s.setKernel k v).team n = s.team n := rfl
@[simp] theorem State.core_setKernel (s : State) (k : Nat) (v : Kernel) (n : Nat) : (s.setKernel k v).core n = s.core n := rfl
@[simp] theorem State.cluster_setKernel (s : State) (k : Nat) (v : Kernel) (n : Nat) : (s.setKernel k v).cluster n = s.cluster n := rfl
@[simp] theorem State.part_setKernel (s : State) (k : Nat) (v : Kernel) (n : Nat) : (s.setKernel k v).part n = s.part n := rfl
@[simp] theorem State.port_setKernel (s : State) (k : Nat) (v : Kernel) (n : Nat) : (s.setKernel k v).port n = s.port n := rfl
@[simp] theorem State.ctx_setKernel (s : State) (k : Nat) (v : Kernel) (n : Nat) : (s.setKernel k v).ctx n = s.ctx n := rfl
@[simp] theorem State.gang_setKernel (s : State) (k : Nat) (v : Kernel) (n : Nat) : (s.setKernel k v).gang n = s.gang n := rfl
@[simp] theorem State.team_setGang (s : State) (g : Nat) (v : Gang) (n : Nat) : (s.setGang g v).team n = s.team n := rfl
@[simp] theorem State.core_setGang (s : State) (g : Nat) (v : Gang) (n : Nat) : (s.setGang g v).core n = s.core n := rfl
@[simp] theorem State.cluster_setGang (s : State) (g : Nat) (v : Gang) (n : Nat) : (s.setGang g v).cluster n = s.cluster n := rfl
@[simp] theorem State.part_setGang (s : State) (g : Nat) (v : Gang) (n : Nat) : (s.setGang g v).part n = s.part n := rfl
@[simp] theorem State.port_setGang (s : State) (g : Nat) (v : Gang) (n : Nat) : (s.setGang g v).port n = s.port n := rfl
@[simp] theorem State.ctx_setGang (s : State) (g : Nat) (v : Gang) (n : Nat) : (s.setGang g v).ctx n = s.ctx n := rfl
@[simp] theorem State.kernel_setGang (s : State) (g : Nat) (v : Gang) (n : Nat) : (s.setGang g v).kernel n = s.kernel n := rfl

end Sys2Proof.Machine
end

