-- ==== Sys2Proof/Laws/Ops.lean ====
section
/-! SUPPORT. What the shared operations of an instruction word do: issue, commit, the end of a clause, and the writes of
registers and predicates. -/

namespace Sys2Proof.Machine

/-! ## Issue -/

/-- A word that issues has its meaning, and nothing else happens. -/
theorem issue_ready {i : Instr} {s : State} {k : Nat} {t : Team} (h : Issues i s k t) (body : Nat → Team → State → Res) :
    issue i s body = finish k (charge k (issueCycles t) (body k t s)) := by
  obtain ⟨hp, ht, hr, hg, h2, h3, h4, hs, hf, hq⟩ := h
  cases htm : s.team k with
  | none => simp [htm] at ht
  | some t0 =>
    simp only [htm, Option.map_some, Option.some.injEq] at ht
    have hn : (t.poison.find? fun p => (readCodes s k t i).any p.regs.contains) = none :=
      List.find?_eq_none.2 fun p hp => by simp [hq p hp]
    simp only [issue, hp, htm, ht, hr, hg, h2, h3, h4, hs, hf, hn]
    simp

/-- The team of an issuing word, as the state holds it. -/
theorem Issues.stored {i : Instr} {s : State} {k : Nat} {t : Team} (h : Issues i s k t) :
    ∃ t0, s.team k = some t0 ∧ t = claimWait i t0 := by
  have ht := h.team
  cases htm : s.team k with
  | none => simp [htm] at ht
  | some t0 => exact ⟨t0, rfl, by simpa [htm] using ht.symm⟩

theorem claimWait_eq (i : Instr) (t : Team) : ∃ w, claimWait i t = { t with waitKind := w } := by
  unfold claimWait
  split
  · exact ⟨_, rfl⟩
  · exact ⟨t.waitKind, rfl⟩

theorem issue_commit {i : Instr} {s s1 : State} {k : Nat} {t : Team} {body : Nat → Team → State → Res} (h : Issues i s k t)
    (hb : body k t s = .commit s1) : issue i s body = committed s1 k t := by
  rw [issue_ready h, hb]; rfl

theorem issue_jump {i : Instr} {s s1 : State} {k : Nat} {t : Team} {target : W64} {body : Nat → Team → State → Res}
    (h : Issues i s k t) (hb : body k t s = .jump s1 target) : issue i s body = transferred s1 k t target := by
  rw [issue_ready h, hb]; rfl

theorem issue_trap {i : Instr} {s s1 : State} {k : Nat} {t : Team} {c : Cause} {body : Nat → Team → State → Res}
    (h : Issues i s k t) (hb : body k t s = .trap s1 c) : issue i s body = faulted s1 k t c := by
  rw [issue_ready h, hb]; rfl

/-! ## Counters and pipes -/

@[simp] theorem bumpCounter_rest (s : State) (c j n : Nat) : (bumpCounter s c j n).rest = s.rest := rfl
@[simp] theorem bumpCounter_team (s : State) (c j n k : Nat) : (bumpCounter s c j n).team k = s.team k := rfl
theorem bumpCounter_core (s : State) (c j n c' : Nat) :
    (bumpCounter s c j n).core c' = if c' = c then { s.core c with counters := (s.core c).counters.set j (((s.core c).counters.getD j 0 + n) % 2 ^ 48) }
      else s.core c' := State.core_setCore _ _ _ _

@[simp] theorem freePipe_team (s : State) (k k' : Nat) : (freePipe s k).team k' = s.team k' := by
  unfold freePipe; dsimp only; split <;> rfl
@[simp] theorem freePipe_rest (s : State) (k : Nat) : (freePipe s k).rest = s.rest := by
  unfold freePipe; dsimp only; split <;> rfl
theorem freePipe_core_ne (s : State) {k c : Nat} (h : c ≠ keyCore k) : (freePipe s k).core c = s.core c := by
  unfold freePipe; dsimp only; split
  · rw [State.core_setCore, if_neg h]
  · rfl
theorem freePipe_core (s : State) (k : Nat) :
    ∃ q, (freePipe s k).core (keyCore k) = { s.core (keyCore k) with pipes := q } := by
  unfold freePipe; dsimp only; split
  · exact ⟨_, State.core_setCore_self _ _ _⟩
  · exact ⟨_, rfl⟩

/-- What two states share when they differ only in the pipes and the counters of one core and in the teams. -/
structure SameCores (s s' : State) (k : Nat) : Prop where
  others : ∀ c, c ≠ keyCore k → s'.core c = s.core c
  own : ∃ q n, s'.core (keyCore k) = { s.core (keyCore k) with pipes := q, counters := n }
  rest : s'.rest = s.rest

theorem SameCores.refl (s : State) (k : Nat) : SameCores s s k := ⟨fun _ _ => rfl, ⟨_, _, rfl⟩, rfl⟩

theorem SameCores.trans {s s' s'' : State} {k : Nat} (h : SameCores s s' k) (h' : SameCores s' s'' k) : SameCores s s'' k := by
  obtain ⟨q, n, e⟩ := h.own
  obtain ⟨q', n', e'⟩ := h'.own
  exact ⟨fun c hc => (h'.others c hc).trans (h.others c hc), ⟨q', n', by rw [e', e]⟩, h'.rest.trans h.rest⟩

theorem SameCores.bump (s : State) (k j n : Nat) : SameCores s (bumpCounter s (keyCore k) j n) k :=
  ⟨fun c hc => by rw [bumpCounter_core, if_neg hc], ⟨_, _, by rw [bumpCounter_core, if_pos rfl]⟩, rfl⟩

theorem SameCores.pipe (s : State) (k : Nat) : SameCores s (freePipe s k) k :=
  ⟨fun _ hc => freePipe_core_ne s hc, let ⟨q, e⟩ := freePipe_core s k; ⟨q, _, e⟩, freePipe_rest s k⟩

theorem SameCores.team (s : State) (k k' : Nat) (t : Team) : SameCores s (s.setTeam k' t) k := ⟨fun _ _ => rfl, ⟨_, _, rfl⟩, rfl⟩

theorem SameCores.kv {s s' : State} {k : Nat} (h : SameCores s s' k) (k' n : Nat) : kvReg s' k' n = kvReg s k' n := by
  unfold kvReg
  by_cases hc : keyCore k' = keyCore k
  · obtain ⟨q, m, e⟩ := h.own; rw [hc, e]
  · rw [h.others _ hc]

theorem SameCores.ks {s s' : State} {k : Nat} (h : SameCores s s' k) (k' n : Nat) : ksReg s' k' n = ksReg s k' n := by
  unfold ksReg
  by_cases hc : keyCore k' = keyCore k
  · obtain ⟨q, m, e⟩ := h.own; rw [hc, e]
  · rw [h.others _ hc]

/-! ## Commit -/

/-- What a commit or the end of a clause leaves in the team: all but what Team.rest sets aside, and the registers and E. -/
structure SameTeam (t t' : Team) : Prop where
  rest : t'.rest = t.rest
  v : t'.v = t.v
  s : t'.s = t.s
  p : t'.p = t.p
  e : t'.e = t.e
  width : t'.width = t.width
  report : t'.fpReport = t.fpReport

theorem SameTeam.refl (t : Team) : SameTeam t t := ⟨rfl, rfl, rfl, rfl, rfl, rfl, rfl⟩

theorem SameTeam.trans {a b c : Team} (h : SameTeam a b) (h' : SameTeam b c) : SameTeam a c :=
  ⟨h'.rest.trans h.rest, h'.v.trans h.v, h'.s.trans h.s, h'.p.trans h.p, h'.e.trans h.e, h'.width.trans h.width,
    h'.report.trans h.report⟩

@[simp] theorem rawWrite_team (s : State) (pa : Nat) (bs : List Byte) (k : Nat) : (rawWrite s pa bs).team k = s.team k := by
  unfold rawWrite; split <;> rfl

@[simp] theorem noteTail_team (s : State) (who : Option Nat) (pa n k : Nat) : (noteTail s who pa n).team k = s.team k := by
  unfold noteTail; split <;> rfl
theorem noteTail_core (s : State) (who : Option Nat) (pa n c : Nat) : (noteTail s who pa n).core c = s.core c := by
  unfold noteTail; split <;> rfl

/-- A store at the home slices changes no team and no core. -/
theorem homePut_units (s : State) (who : Option Nat) (pa : Nat) (bs : List Byte) :
    (∀ k, (homePut s who pa bs).team k = s.team k) ∧ ∀ c, (homePut s who pa bs).core c = s.core c := by
  unfold homePut homeWrite
  split
  · have h : ∀ (l : List Nat) (p : Nat → Bool) (s : State),
        (∀ k, (l.foldl (fun st i => if p i then st else rawWrite st (pa + i) [bs.getD i 0]) s).team k = s.team k) ∧
          ∀ c, (l.foldl (fun st i => if p i then st else rawWrite st (pa + i) [bs.getD i 0]) s).core c = s.core c := by
      intro l p
      induction l with
      | nil => exact fun s => ⟨fun _ => rfl, fun _ => rfl⟩
      | cons a l ih =>
        intro s
        rw [List.foldl_cons]
        obtain ⟨h1, h2⟩ := ih (if p a then s else rawWrite s (pa + a) [bs.getD a 0])
        refine ⟨fun k => (h1 k).trans ?_, fun c => (h2 c).trans ?_⟩ <;> split
        · rfl
        · exact rawWrite_team _ _ _ _
        · rfl
        · unfold rawWrite; split <;> rfl
    have h' := h (List.range bs.length) (fun i => (keepGood s pa bs).any fun g => decide ((pa + i) / 32 = g)) s
    exact ⟨fun k => (noteTail_team _ _ _ _ _).trans (h'.1 k), fun c => (noteTail_core _ _ _ _ _).trans (h'.2 c)⟩
  · refine ⟨fun k => (noteTail_team _ _ _ _ _).trans (rawWrite_team _ _ _ _), fun c => (noteTail_core _ _ _ _ _).trans ?_⟩
    unfold rawWrite; split <;> rfl

@[simp] theorem carRecord_team (s : State) (kind core : Nat) (fs : List (Nat × Nat × Nat)) (k : Nat) :
    (carRecord s kind core fs).team k = s.team k := by
  unfold carRecord; dsimp only; split
  · rfl
  · exact (homePut_units _ _ _ _).1 k

theorem absNext_fold (l : List Nat) (t : Table Core) (c : Nat) :
    ∃ b, (l.foldl (fun t c => t.put c { t.get c Core.reset with absNext := true }) t).get c Core.reset =
      { t.get c Core.reset with absNext := b } := by
  induction l generalizing t with
  | nil => exact ⟨_, rfl⟩
  | cons a l ih =>
    obtain ⟨b, hb⟩ := ih (t.put a { t.get a Core.reset with absNext := true })
    rw [List.foldl_cons, hb, Table.get_put]
    by_cases h : c = a
    · subst h; exact ⟨b, by rw [if_pos rfl]⟩
    · exact ⟨b, by rw [if_neg h]⟩

theorem rawWrite_core (s : State) (pa : Nat) (bs : List Byte) (c : Nat) : (rawWrite s pa bs).core c = s.core c := by
  unfold rawWrite; split <;> rfl

theorem carRecord_core (s : State) (kind core : Nat) (fs : List (Nat × Nat × Nat)) (c : Nat) :
    ∃ b, (carRecord s kind core fs).core c = { s.core c with absNext := b } := by
  unfold carRecord
  generalize List.range 64 = l
  dsimp only
  split
  · exact absNext_fold l s.cores c
  · exact ⟨(s.core c).absNext, (homePut_units _ _ _ _).2 c⟩

/-- The handler stores of every core are as they were. -/
def SameStores (s s' : State) : Prop := ∀ c, (s'.core c).kv = (s.core c).kv ∧ (s'.core c).ks = (s.core c).ks

theorem SameCores.stores {s s' : State} {k : Nat} (h : SameCores s s' k) : SameStores s s' := fun c => by
  by_cases hc : c = keyCore k
  · obtain ⟨q, m, e⟩ := h.own; rw [hc, e]; exact ⟨rfl, rfl⟩
  · rw [h.others _ hc]; exact ⟨rfl, rfl⟩

theorem SameStores.trans {s s' s'' : State} (h : SameStores s s') (h' : SameStores s' s'') : SameStores s s'' := fun c =>
  ⟨(h' c).1.trans (h c).1, (h' c).2.trans (h c).2⟩

theorem SameStores.kv {s s' : State} (h : SameStores s s') (k n : Nat) : kvReg s' k n = kvReg s k n := by
  unfold kvReg; rw [(h _).1]

theorem SameStores.ks {s s' : State} (h : SameStores s s') (k n : Nat) : ksReg s' k n = ksReg s k n := by
  unfold ksReg; rw [(h _).2]

theorem carRecord_stores (s : State) (kind core : Nat) (fs : List (Nat × Nat × Nat)) : SameStores s (carRecord s kind core fs) := fun c => by
  obtain ⟨b, e⟩ := carRecord_core s kind core fs c
  rw [e]; exact ⟨rfl, rfl⟩

/-- The digest record is all that the end of a clause does beyond its team, its pipe and the yield counter. -/
theorem completeClause_spec {s : State} {k : Nat} {t : Team} (ht : s.team k = some t) (target : W64) :
    (∀ k', k' ≠ k → (completeClause s k target).team k' = s.team k') ∧
    (∃ t', (completeClause s k target).team k = some t' ∧ SameTeam t t' ∧ t'.h = target ∧ t'.i = 0 ∧ t'.clause = [] ∧
      t'.fmode = t.fmode ||| BitVec.ofNat 64 (t.fpFlags.toNat * 2 ^ 13) ∧ t'.fpFlags = 0 ∧
      ((hdrDigest (curHdr t) && t.digestMode && carOn s) = false → t'.digestQ = t.digestQ)) ∧
    SameStores s (completeClause s k target) ∧
    ((hdrDigest (curHdr t) && t.digestMode && carOn s) = false → SameCores s (completeClause s k target) k) := by
  have key : ∀ s2 : State, (∀ k', k' ≠ k → s2.team k' = s.team k') →
      (∃ t', s2.team k = some t' ∧ SameTeam t t' ∧ t'.h = target ∧ t'.i = 0 ∧ t'.clause = [] ∧
        t'.fmode = t.fmode ||| BitVec.ofNat 64 (t.fpFlags.toNat * 2 ^ 13) ∧ t'.fpFlags = 0 ∧ t'.digestQ = t.digestQ) →
      SameCores s s2 k →
      (∀ k', k' ≠ k → (digestPoint s2 k t).team k' = s.team k') ∧
      (∃ t', (digestPoint s2 k t).team k = some t' ∧
        SameTeam t t' ∧ t'.h = target ∧ t'.i = 0 ∧ t'.clause = [] ∧
        t'.fmode = t.fmode ||| BitVec.ofNat 64 (t.fpFlags.toNat * 2 ^ 13) ∧ t'.fpFlags = 0 ∧
        ((hdrDigest (curHdr t) && t.digestMode && carOn s) = false → t'.digestQ = t.digestQ)) ∧
      SameStores s (digestPoint s2 k t) ∧
      ((hdrDigest (curHdr t) && t.digestMode && carOn s) = false → SameCores s (digestPoint s2 k t) k) := by
    intro s2 h1 h2 h3
    have hcar : carOn s2 = carOn s := by unfold carOn; rw [show s2.dev = s2.rest.dev from rfl, h3.rest]; rfl
    obtain ⟨u, hu, hs, e1, e2, e3, e4, e5, e6⟩ := h2
    unfold digestPoint digestRec
    rw [hcar]
    refine ⟨?_, ?_, ?_, ?_⟩
    · intro k' hk; split
      · split
        · rw [carRecord_team, h1 k' hk]
        · rw [State.team_modTeam, if_neg hk, h1 k' hk]
      · exact h1 k' hk
    · split
      · rename_i hd
        split
        · rw [carRecord_team]; exact ⟨u, hu, hs, e1, e2, e3, e4, e5, fun _ => e6⟩
        · refine ⟨{ u with digestQ := u.digestQ ++ [.point] }, by rw [State.team_modTeam, if_pos rfl, hu]; rfl, ⟨?_, hs.v, hs.s, hs.p, hs.e, hs.width, hs.report⟩, e1, e2, e3, e4, e5,
            fun h => by rw [h] at hd; cases hd⟩
          exact (show Team.rest _ = u.rest from rfl).trans hs.rest
      · exact ⟨u, hu, hs, e1, e2, e3, e4, e5, fun _ => e6⟩
    · split
      · split
        · exact h3.stores.trans (carRecord_stores _ _ _ _)
        · exact h3.stores
      · exact h3.stores
    · intro hd; rw [hd]; exact h3
  simp only [completeClause, ht]
  refine key _ ?_ ?_ ?_
  · intro k' hk; split <;> simp [State.team_setTeam, hk]
  · split
    · exact ⟨_, (bumpCounter_team _ _ _ _ _).trans ((freePipe_team _ _ _).trans (State.team_setTeam_self _ _ _)),
        ⟨rfl, rfl, rfl, rfl, rfl, rfl, rfl⟩, rfl, rfl, rfl, rfl, rfl, rfl⟩
    · exact ⟨_, (freePipe_team _ _ _).trans (State.team_setTeam_self _ _ _), ⟨rfl, rfl, rfl, rfl, rfl, rfl, rfl⟩, rfl, rfl, rfl, rfl, rfl, rfl⟩
  · split
    · exact ((SameCores.team s k k _).trans (SameCores.pipe _ k)).trans (SameCores.bump _ k 6 1)
    · exact (SameCores.team s k k _).trans (SameCores.pipe _ k)

theorem committed_spec {s1 : State} {k : Nat} {t t1 : Team} (ht : s1.team k = some t1) (hc : SameClause t t1) :
    (∀ k', k' ≠ k → (committed s1 k t).team k' = s1.team k') ∧
    (∃ t', (committed s1 k t).team k = some t' ∧ SameTeam t1 t' ∧ (writesDigest s1 t = false → t'.digestQ = t1.digestQ) ∧
      (lastWord t = false → t'.fpFlags = t1.fpFlags ∧ t'.fmode = t1.fmode) ∧
      (lastWord t = true → t'.fpFlags = 0 ∧ t'.fmode = t1.fmode ||| BitVec.ofNat 64 (t1.fpFlags.toNat * 2 ^ 13))) ∧
    Onward (committed s1 k t) k t ∧
    SameStores s1 (committed s1 k t) ∧
    (writesDigest s1 t = false → SameCores s1 (committed s1 k t) k) := by
  have hh : curHdr t1 = curHdr t := by unfold curHdr; rw [hc.clause]
  have hb := SameCores.bump s1 k 0 (issueCycles t)
  unfold committed commitWord writesDigest
  simp only [bumpCounter_team, ht]
  by_cases hl : t1.i + 1 < hdrCount (curHdr t1)
  · have hl' : lastWord t = false := by rw [hc.i, hh] at hl; simp [lastWord, hl]
    simp only [hl, if_true]
    refine ⟨fun k' hk => by simp [State.team_setTeam, hk], ⟨advance t1, by simp, ⟨rfl, rfl, rfl, rfl, rfl, rfl, rfl⟩, fun _ => rfl, fun _ => ⟨rfl, rfl⟩, fun h => by rw [hl'] at h; simp at h⟩, ⟨fun _ => ?_, fun h => ?_⟩, (hb.trans (SameCores.team _ k k _)).stores, fun _ => ?_⟩
    · exact ⟨advance t1, by simp, hc.h, by simp [advance, hc.i], hc.clause, hc.state⟩
    · rw [hl'] at h; simp at h
    · exact hb.trans (SameCores.team _ k k _)
  · have hl' : lastWord t = true := by rw [hc.i, hh] at hl; simp [lastWord, hl]
    simp only [hl, if_false]
    have hn : nextHeader t1 = nextHeader t := by unfold nextHeader; rw [hc.h, hh]
    obtain ⟨h1, ⟨t', h2, h3, h4, h5, h6, h9, h10, h11⟩, h8, h7⟩ := completeClause_spec (s := bumpCounter s1 (keyCore k) 0 (issueCycles t)) (t := t1) (k := k)
      (by simp [ht]) (nextHeader t1)
    refine ⟨fun k' hk => (h1 k' hk).trans (by simp), ⟨t', h2, h3, fun hd => h11 (by rw [hh, hc.digestMode]; rw [hl', Bool.true_and] at hd; exact hd),
      fun h => (by rw [hl'] at h; simp at h), fun _ => ⟨h10, h9⟩⟩, ⟨fun h => ?_, fun _ => ⟨t', h2, by rw [h4, hn], h5, h6⟩⟩, hb.stores.trans h8, fun hd => hb.trans (h7 ?_)⟩
    · rw [hl'] at h; simp at h
    · rw [hh, hc.digestMode]; rw [hl', Bool.true_and] at hd; exact hd

end Sys2Proof.Machine
end

