-- ==== Sys2Proof/Laws/Registers.lean ====
section
/-! SUPPORT. Masks, lane vectors, and the writes of registers and predicates. -/

namespace Sys2Proof.Machine

/-! ## Masks and lane vectors -/

theorem packBits_lt (f : Nat → Bool) (n : Nat) : packBits f n < 2 ^ n := by
  induction n with
  | zero => simp [packBits]
  | succ n ih => simp only [packBits, Nat.pow_succ]; split <;> omega

theorem testBit_packBits (f : Nat → Bool) (n i : Nat) : (packBits f n).testBit i = (decide (i < n) && f i) := by
  induction n with
  | zero => simp [packBits]
  | succ n ih =>
    have hlt := packBits_lt f n
    simp only [packBits]
    by_cases hf : f n
    · simp only [hf, if_true]
      rw [Nat.add_comm]
      by_cases hi : i = n
      · subst hi
        rw [Nat.testBit_two_pow_add_eq]
        rw [ih]; simp [hf]
      · by_cases hlt' : i < n
        · rw [Nat.testBit_two_pow_add_gt hlt', ih]
          simp [hlt', Nat.lt_succ_of_lt hlt']
        · have : packBits f n + 2 ^ n < 2 ^ i := by
            have : 2 ^ (n + 1) ≤ 2 ^ i := Nat.pow_le_pow_right (by decide) (by omega)
            rw [Nat.pow_succ] at this; omega
          rw [Nat.add_comm, Nat.testBit_lt_two_pow this]
          simp [show ¬ i < n + 1 by omega]
    · simp only [hf]
      rw [if_neg (by simp), Nat.add_zero, ih]
      by_cases hi : i = n
      · subst hi; simp [hf]
      · rw [show decide (i < n + 1) = decide (i < n) from decide_eq_decide.2 (by omega)]

/-- Lane L of a mask built from a rule. -/
theorem maskOf_lane (n : Nat) (f : Nat → Bool) (L : Nat) : (maskOf n f).getLsbD L = (decide (L < 1024) && (decide (L < n) && f L)) := by
  simp only [maskOf, BitVec.getLsbD_ofNat, testBit_packBits]

theorem packLanes_lt (f : Nat → W32) (n : Nat) : packLanes f n < 2 ^ (32 * n) := by
  induction n with
  | zero => simp [packLanes]
  | succ n ih =>
    have hx := (f n).isLt
    have : (f n).toNat * 2 ^ (32 * n) + 2 ^ (32 * n) ≤ 2 ^ 32 * 2 ^ (32 * n) := by
      rw [← Nat.succ_mul]; exact Nat.mul_le_mul_right _ hx
    have e : 2 ^ (32 * (n + 1)) = 2 ^ 32 * 2 ^ (32 * n) := by rw [← Nat.pow_add]; congr 1; omega
    simp only [packLanes]; omega

theorem packLanes_lane (f : Nat → W32) (n L : Nat) : packLanes f n / 2 ^ (32 * L) % 2 ^ 32 = if L < n then (f L).toNat else 0 := by
  induction n with
  | zero => simp [packLanes]
  | succ n ih =>
    have hlt := packLanes_lt f n
    simp only [packLanes]
    by_cases h1 : L < n
    · rw [if_pos (by omega)]
      have e : 2 ^ (32 * n) = 2 ^ (32 * L) * (2 ^ 32 * 2 ^ (32 * (n - L - 1))) := by
        rw [← Nat.pow_add, ← Nat.pow_add]; congr 1; omega
      rw [e, Nat.mul_comm (f n).toNat, Nat.mul_assoc, Nat.add_mul_div_left _ _ (Nat.two_pow_pos _)]
      rw [Nat.mul_assoc, Nat.add_mul_mod_self_left, ih, if_pos h1]
    · by_cases h2 : L = n
      · subst h2
        rw [if_pos (by omega), Nat.add_mul_div_right _ _ (Nat.two_pow_pos _), Nat.div_eq_of_lt hlt, Nat.zero_add]
        exact Nat.mod_eq_of_lt (f L).isLt
      · rw [if_neg (by omega)]
        have hall := packLanes_lt f (n + 1)
        simp only [packLanes] at hall
        have : 2 ^ (32 * (n + 1)) ≤ 2 ^ (32 * L) := Nat.pow_le_pow_right (by decide) (by omega)
        rw [Nat.div_eq_of_lt (by omega), Nat.zero_mod]

/-- Lane L of a vector register built from a rule. -/
theorem laneV_buildV (n : Nat) (f : Nat → W32) {L : Nat} (hL : L < 1024) : laneV (buildV n f) L = if L < n then f L else 0 := by
  apply BitVec.eq_of_toNat_eq
  simp only [laneV, buildV, BitVec.extractLsb'_toNat, BitVec.toNat_ofNat, Nat.shiftRight_eq_div_pow]
  have e : 2 ^ 32768 = 2 ^ (32 * L) * (2 ^ 32 * 2 ^ (32768 - 32 * L - 32)) := by
    rw [← Nat.pow_add, ← Nat.pow_add]; congr 1; omega
  rw [e, Nat.mod_mul_right_div_self, Nat.mod_mul_right_mod, packLanes_lane]
  split <;> simp

theorem laneV_mergeV (w : Nat) (old : BitVec 32768) (lanes : Mask) (f : Nat → W32) {L : Nat} (hw : L < w) (hL : L < 1024) :
    laneV (mergeV w old lanes f) L = if lanes.getLsbD L then f L else laneV old L := by
  rw [mergeV, laneV_buildV _ _ hL, if_pos hw]

/-! ## Writes of D -/

/-- Everything but the D of a register write: see writeD_frame. -/
structure RegFrame (s s1 : State) (k : Nat) (t : Team) : Prop where
  others : ∀ k', k' ≠ k → s1.team k' = s.team k'
  own : ∃ t1, s1.team k = some t1 ∧ t1 = { t with v := t1.v, s := t1.s }
  cores : ∀ c, c ≠ keyCore k → s1.core c = s.core c
  core : s1.core (keyCore k) = { s.core (keyCore k) with kv := (s1.core (keyCore k)).kv, ks := (s1.core (keyCore k)).ks }
  stores : ∀ k' n, (keyCore k' ≠ keyCore k ∨ storeKey k' ≠ storeKey k) →
    (n < 16 → kvReg s1 k' n = kvReg s k' n) ∧ (n < 8 → ksReg s1 k' n = ksReg s k' n)
  rest : s1.rest = s.rest

theorem RegFrame.refl {s : State} {k : Nat} {t : Team} (ht : s.team k = some t) : RegFrame s s k t :=
  ⟨fun _ _ => rfl, ⟨t, ht, rfl⟩, fun _ _ => rfl, rfl, fun _ _ _ => ⟨fun _ => rfl, fun _ => rfl⟩, rfl⟩

theorem RegFrame.team {s : State} {k : Nat} {t t1 : Team} (h : t1 = { t with v := t1.v, s := t1.s }) : RegFrame s (s.setTeam k t1) k t :=
  ⟨fun k' h => by rw [State.team_setTeam, if_neg h], ⟨_, State.team_setTeam_self _ _ _, h⟩, fun _ _ => rfl, rfl,
    fun _ _ _ => ⟨fun _ => rfl, fun _ => rfl⟩, rfl⟩

theorem keyPipe_lt (k : Nat) : keyPipe k < 8 := Nat.mod_lt _ (by decide)

@[simp] theorem setKv_team (s : State) (k n k' : Nat) (v : BitVec 32768) : (setKv s k n v).team k' = s.team k' := rfl
@[simp] theorem setKs_team (s : State) (k n k' : Nat) (v : W64) : (setKs s k n v).team k' = s.team k' := rfl

theorem setKv_core (s : State) (k n c : Nat) (v : BitVec 32768) :
    (setKv s k n v).core c = if c = keyCore k then { s.core (keyCore k) with kv := (s.core (keyCore k)).kv.put (16 * storeKey k + n) v } else s.core c :=
  State.core_setCore _ _ _ _
theorem setKs_core (s : State) (k n c : Nat) (v : W64) :
    (setKs s k n v).core c = if c = keyCore k then { s.core (keyCore k) with ks := (s.core (keyCore k)).ks.put (8 * storeKey k + n) v } else s.core c :=
  State.core_setCore _ _ _ _

theorem setKv_kv (s : State) (k n k' m : Nat) (v : BitVec 32768) (hn : n < 16) (hm : m < 16) :
    kvReg (setKv s k n v) k' m = if keyCore k' = keyCore k ∧ storeKey k' = storeKey k ∧ m = n then v else kvReg s k' m := by
  unfold kvReg
  rw [setKv_core]
  by_cases hc : keyCore k' = keyCore k
  · rw [if_pos hc, Table.get_put, hc]
    by_cases hq : 16 * storeKey k' + m = 16 * storeKey k + n
    · rw [if_pos hq, if_pos ⟨rfl, by omega, by omega⟩]
    · rw [if_neg hq, if_neg (fun h => hq (by rw [h.2.1, h.2.2]))]
  · rw [if_neg hc, if_neg (fun h => hc h.1)]
theorem setKs_ks (s : State) (k n k' m : Nat) (v : W64) (hn : n < 8) (hm : m < 8) :
    ksReg (setKs s k n v) k' m = if keyCore k' = keyCore k ∧ storeKey k' = storeKey k ∧ m = n then v else ksReg s k' m := by
  unfold ksReg
  rw [setKs_core]
  by_cases hc : keyCore k' = keyCore k
  · rw [if_pos hc, Table.get_put, hc]
    by_cases hq : 8 * storeKey k' + m = 8 * storeKey k + n
    · rw [if_pos hq, if_pos ⟨rfl, by omega, by omega⟩]
    · rw [if_neg hq, if_neg (fun h => hq (by rw [h.2.1, h.2.2]))]
  · rw [if_neg hc, if_neg (fun h => hc h.1)]
@[simp] theorem setKv_ks (s : State) (k n k' m : Nat) (v : BitVec 32768) : ksReg (setKv s k n v) k' m = ksReg s k' m := by
  unfold ksReg; rw [setKv_core]; split
  · next h => rw [h]
  · rfl
@[simp] theorem setKs_kv (s : State) (k n k' m : Nat) (v : W64) : kvReg (setKs s k n v) k' m = kvReg s k' m := by
  unfold kvReg; rw [setKs_core]; split
  · next h => rw [h]
  · rfl

theorem halves_append (x : W64) : (x.extractLsb' 32 32 ++ x.truncate 32 : BitVec 64) = x := by
  apply BitVec.eq_of_getLsbD_eq
  intro i hi
  simp only [BitVec.getLsbD_append, BitVec.getLsbD_extractLsb', BitVec.truncate_eq_setWidth, BitVec.getLsbD_setWidth]
  by_cases h : i < 32
  · simp [h]
  · simp [h, show 32 + (i - 32) = i by omega, show i - 32 < 32 by omega]

@[simp] theorem Team.vreg_setV (t : Team) (n m : Nat) (x : BitVec 32768) : (t.setV n x).vreg m = if m = n then x else t.vreg m :=
  Table.get_put t.v x 0 n m
@[simp] theorem Team.sreg_setV (t : Team) (n m : Nat) (x : BitVec 32768) : (t.setV n x).sreg m = t.sreg m := rfl
@[simp] theorem Team.sreg_setS (t : Team) (n m : Nat) (x : W64) : (t.setS n x).sreg m = if m = n then x else t.sreg m :=
  Table.get_put t.s x 0 n m
@[simp] theorem Team.vreg_setS (t : Team) (n m : Nat) (x : W64) : (t.setS n x).vreg m = t.vreg m := rfl
theorem Team.preg_setP (t : Team) (n m : Nat) (x : Mask) (hm : m ≠ 7) : (t.setP n x).preg m = if m = n then x else t.preg m := by
  unfold Team.preg Team.setP
  rw [if_neg hm, if_neg hm]
  exact Table.get_put t.p x 0 n m

theorem Team.vreg_congr {t t' : Team} (h : t'.v = t.v) (n : Nat) : t'.vreg n = t.vreg n := by unfold Team.vreg; rw [h]
theorem Team.sreg_congr {t t' : Team} (h : t'.s = t.s) (n : Nat) : t'.sreg n = t.sreg n := by unfold Team.sreg; rw [h]

/-- A register read depends on the team's registers and on its handler store. -/
theorem reg_congr {s s' : State} {k : Nat} {t t' : Team} (ht : s.team k = some t) (ht' : s'.team k = some t') (hv : t'.v = t.v)
    (hs : t'.s = t.s) (hst : SameStores s s') (wide : Bool) {o : Opd} (ho : isReg o = true) (L : Nat) : reg s' k wide o L = reg s k wide o L := by
  unfold reg
  rw [ht, ht']
  dsimp only
  cases o with
  | v n => simp only [opd, Team.vreg_congr hv]
  | s n => simp only [opd, Team.sreg_congr hs]
  | kv n => simp only [opd, SameStores.kv hst]
  | ks n => simp only [opd, SameStores.ks hst]
  | p n => cases ho
  | x n => cases ho
  | rsv n => cases ho
  | none => cases ho

/-- What writeD does: D in the lanes of the mask, or once; nothing else. -/
structure Wrote (s s1 : State) (k : Nat) (t : Team) (lanes : Mask) (wide : Bool) (d : Opd) (f : Nat → W64) : Prop where
  frame : RegFrame s s1 k t
  lanes : d.isVK = true → ∀ L, L < t.width → L < 1024 →
    reg s1 k wide d L = if lanes.getLsbD L then (if wide then f L else (f L).truncate 32 |>.zeroExtend 64) else reg s k wide d L
  scalar : d.isSK = true → reg s1 k true d 0 = f 0
  others : ∀ o L, isReg o = true → o ∉ destOf wide d → L < t.width → L < 1024 → reg s1 k false o L = reg s k false o L

theorem Wrote.none {s : State} {k : Nat} {t : Team} (ht : s.team k = some t) (lanes : Mask) (wide : Bool) (d : Opd) (f : Nat → W64)
    (h1 : d.isVK = false) (h2 : d.isSK = false) : Wrote s s k t lanes wide d f :=
  ⟨RegFrame.refl ht, fun h => by simp [h1] at h, fun h => by simp [h2] at h, fun _ _ _ _ _ _ => rfl⟩

theorem writeD_v {s : State} {k : Nat} {t : Team} (ht : s.team k = some t) (lanes : Mask) (wide : Bool) (n : Fin 256) (f : Nat → W64) :
    Wrote s (writeD s k lanes wide (.v n) f) k t lanes wide (.v n) f := by
  refine ⟨?_, fun _ L hw hL => ?_, fun h => by simp [Opd.isSK] at h, fun o L ho hd hw hL => ?_⟩
  · simp only [writeD, ht]
    split
    · exact RegFrame.team rfl
    · exact RegFrame.team rfl
  · cases wide
    · simp only [writeD, ht, reg, State.team_setTeam_self, opd, Bool.false_eq_true, if_false, Team.vreg_setV, if_true, laneV_mergeV _ _ _ _ hw hL]
      split <;> rfl
    · simp only [writeD, ht, reg, State.team_setTeam_self, opd, if_true, Team.vreg_setV, if_neg (show ¬ n.val = n.val + 1 by omega),
        if_neg (show ¬ n.val + 1 = n.val by omega), laneV_mergeV _ _ _ _ hw hL]
      split
      · exact halves_append _
      · rfl
  · cases wide
    · simp only [writeD, ht, reg, State.team_setTeam_self, Bool.false_eq_true, if_false]
      cases o <;> simp_all [isReg, Opd.isVK, Opd.isSK, opd, destOf, kvReg, ksReg, State.setTeam, State.core, Fin.ext_iff]
    · simp only [writeD, ht, reg, State.team_setTeam_self, if_true]
      cases o with
      | v m =>
        have h1 : ¬ m.val = n.val := fun e => hd (by simp [destOf, Opd.isVK, Fin.ext e])
        have h2 : ¬ m.val = n.val + 1 := fun e => hd (by
          have : n.val + 1 < 256 := by omega
          simp [destOf, Opd.isVK, Opd.next, this, Fin.ext_iff, e])
        simp [opd, h1, h2]
      | s m => simp [opd]
      | kv m => rfl
      | ks m => rfl
      | _ => simp [isReg, Opd.isVK, Opd.isSK] at ho

theorem writeD_s {s : State} {k : Nat} {t : Team} (ht : s.team k = some t) (lanes : Mask) (wide : Bool) (n : Fin 64) (f : Nat → W64) :
    Wrote s (writeD s k lanes wide (.s n) f) k t lanes wide (.s n) f := by
  simp only [writeD, ht]
  refine ⟨RegFrame.team rfl, fun h => by simp [Opd.isVK] at h, fun _ => ?_, fun o L ho hd hw hL => ?_⟩
  · simp [reg, opd]
  · simp only [reg, ht, State.team_setTeam_self]
    cases o <;> simp_all [isReg, Opd.isVK, Opd.isSK, opd, destOf, kvReg, ksReg, State.setTeam, State.core, Fin.ext_iff]

theorem setKv_frame {s : State} {k : Nat} {t : Team} (ht : s.team k = some t) (n : Nat) (hn : n < 16) (x : BitVec 32768) :
    RegFrame s (setKv s k n x) k t := by
  refine ⟨fun _ _ => rfl, ⟨t, ht, rfl⟩, fun c hc => by rw [setKv_core, if_neg hc], by rw [setKv_core, if_pos rfl], fun k' m hk => ⟨fun hm => ?_, fun _ => by simp⟩, rfl⟩
  rw [setKv_kv _ _ _ _ _ _ hn hm, if_neg]
  rintro ⟨h1, h2, -⟩
  rcases hk with hk | hk
  · exact hk h1
  · exact hk h2

theorem setKs_frame {s : State} {k : Nat} {t : Team} (ht : s.team k = some t) (n : Nat) (hn : n < 8) (x : W64) :
    RegFrame s (setKs s k n x) k t := by
  refine ⟨fun _ _ => rfl, ⟨t, ht, rfl⟩, fun c hc => by rw [setKs_core, if_neg hc], by rw [setKs_core, if_pos rfl], fun k' m hk => ⟨fun _ => by simp, fun hm => ?_⟩, rfl⟩
  rw [setKs_ks _ _ _ _ _ _ hn hm, if_neg]
  rintro ⟨h1, h2, -⟩
  rcases hk with hk | hk
  · exact hk h1
  · exact hk h2

theorem RegFrame.trans {s s1 s2 : State} {k : Nat} {t t1 : Team} (h : RegFrame s s1 k t) (h1 : s1.team k = some t1) (h' : RegFrame s1 s2 k t1) :
    RegFrame s s2 k t := by
  obtain ⟨u, hu, eu⟩ := h.own
  rw [h1] at hu
  obtain rfl := Option.some.inj hu
  obtain ⟨u2, hu2, eu2⟩ := h'.own
  refine ⟨fun k' hk => (h'.others k' hk).trans (h.others k' hk), ⟨u2, hu2, by rw [eu2, eu]⟩, fun c hc => (h'.cores c hc).trans (h.cores c hc), ?_,
    fun k' n hk => ⟨fun hn => ((h'.stores k' n hk).1 hn).trans ((h.stores k' n hk).1 hn), fun hn => ((h'.stores k' n hk).2 hn).trans ((h.stores k' n hk).2 hn)⟩,
    h'.rest.trans h.rest⟩
  rw [h'.core, h.core]

theorem writeD_kv {s : State} {k : Nat} {t : Team} (ht : s.team k = some t) (lanes : Mask) (wide : Bool) (n : Fin 16) (f : Nat → W64)
    (hw16 : wide = true → n.val + 1 < 16) : Wrote s (writeD s k lanes wide (.kv n) f) k t lanes wide (.kv n) f := by
  refine ⟨?_, fun _ L hw hL => ?_, fun h => by simp [Opd.isSK] at h, fun o L ho hd hw hL => ?_⟩
  · simp only [writeD, ht]
    split
    · next h => exact (setKv_frame ht _ n.isLt _).trans (t1 := t) (by simp [ht]) (setKv_frame (by simp [ht]) _ (hw16 h) _)
    · exact setKv_frame ht _ n.isLt _
  · cases wide
    · simp only [writeD, ht, reg, setKv_team, opd, Bool.false_eq_true, if_false, setKv_kv _ _ _ _ _ _ n.isLt n.isLt, and_self, if_true, laneV_mergeV _ _ _ _ hw hL]
      split <;> rfl
    · have h16 := hw16 rfl
      simp only [writeD, ht, reg, setKv_team, opd, if_true, setKv_kv _ _ _ _ _ _ n.isLt n.isLt, setKv_kv _ _ _ _ _ _ h16 n.isLt,
        setKv_kv _ _ _ _ _ _ n.isLt h16, setKv_kv _ _ _ _ _ _ h16 h16, true_and, if_neg (show ¬ n.val = n.val + 1 by omega),
        laneV_mergeV _ _ _ _ hw hL]
      split
      · exact halves_append _
      · rfl
  · cases wide
    · simp only [writeD, ht, reg, setKv_team, Bool.false_eq_true, if_false]
      cases o with
      | kv m =>
        have h1 : ¬ m.val = n.val := fun e => hd (by simp [destOf, Fin.ext e])
        simp [opd, setKv_kv _ _ _ _ _ _ n.isLt m.isLt, h1]
      | _ => simp_all [isReg, Opd.isVK, Opd.isSK, opd]
    · have h16 := hw16 rfl
      simp only [writeD, ht, reg, setKv_team, if_true]
      cases o with
      | kv m =>
        have h1 : ¬ m.val = n.val := fun e => hd (by simp [destOf, Opd.isVK, Fin.ext e])
        have h2 : ¬ m.val = n.val + 1 := fun e => hd (by simp [destOf, Opd.isVK, Opd.next, h16, Fin.ext_iff, e])
        simp [opd, setKv_kv _ _ _ _ _ _ n.isLt m.isLt, setKv_kv _ _ _ _ _ _ h16 m.isLt, h1, h2]
      | _ => simp_all [isReg, Opd.isVK, Opd.isSK, opd]

theorem writeD_ks {s : State} {k : Nat} {t : Team} (ht : s.team k = some t) (lanes : Mask) (wide : Bool) (n : Fin 8) (f : Nat → W64) :
    Wrote s (writeD s k lanes wide (.ks n) f) k t lanes wide (.ks n) f := by
  simp only [writeD, ht]
  refine ⟨setKs_frame ht _ n.isLt _, fun h => by simp [Opd.isVK] at h, fun _ => ?_, fun o L ho hd hw hL => ?_⟩
  · simp [reg, opd, ht, setKs_ks _ _ _ _ _ _ n.isLt n.isLt]
  · simp only [reg, ht, setKs_team]
    cases o with
    | ks m =>
      have h1 : ¬ m.val = n.val := fun e => hd (by simp [destOf, Opd.isVK, Fin.ext e])
      simp [opd, setKs_ks _ _ _ _ _ _ n.isLt m.isLt, h1]
    | _ => simp_all [isReg, Opd.isVK, Opd.isSK, opd]

/-- What a register write does (R17, R40, R111). A 64-bit vector result of the handler store starts below kv15. -/
theorem writeD_spec {s : State} {k : Nat} {t : Team} (ht : s.team k = some t) (lanes : Mask) (wide : Bool) (d : Opd) (f : Nat → W64)
    (hkv : wide = true → ∀ n, d = .kv n → n.val + 1 < 16) : Wrote s (writeD s k lanes wide d f) k t lanes wide d f := by
  cases d with
  | v n => exact writeD_v ht lanes wide n f
  | s n => exact writeD_s ht lanes wide n f
  | kv n => exact writeD_kv ht lanes wide n f fun h => hkv h n rfl
  | ks n => exact writeD_ks ht lanes wide n f
  | _ => simp only [writeD, ht]; exact Wrote.none ht _ _ _ _ rfl rfl

/-! ## A committed word -/

theorem rest_carOn {s s' : State} (h : s'.rest = s.rest) : carOn s' = carOn s := by
  unfold carOn; rw [show s'.dev = s'.rest.dev from rfl, h]; rfl

theorem RegFrame.clause {s s1 : State} {k : Nat} {i : Instr} {t t0 : Team} (hc : t = claimWait i t0)
    (h : RegFrame s s1 k t0) : ∃ t1, s1.team k = some t1 ∧ SameClause t t1 ∧ t1.rest = t.rest ∧ t1.p = t.p ∧ t1.e = t.e ∧ t1.width = t.width := by
  obtain ⟨t1, h1, e1⟩ := h.own
  obtain ⟨w, hw⟩ := claimWait_eq i t0
  exact ⟨t1, h1, ⟨by rw [e1, hc, hw], by rw [e1, hc, hw], by rw [e1, hc, hw], by rw [e1, hc, hw], by rw [e1, hc, hw]⟩,
    by rw [e1, hc, hw]; rfl, by rw [e1, hc, hw], by rw [e1, hc, hw], by rw [e1, hc, hw]⟩

/-- A committed word whose effect leaves the float state as it was raises no float exception. -/
theorem noFloat_of {s1 : State} {k : Nat} {t t1 : Team} (h1 : s1.team k = some t1) (hsc : SameClause t t1)
    (hf : t1.fpFlags = t.fpFlags) (hm : t1.fmode = t.fmode) (hr : t1.fpReport = t.fpReport) : noFloat (committed s1 k t) k t := by
  obtain ⟨-, ⟨t', c2, c3, -, c4, c5⟩, -⟩ := committed_spec h1 hsc
  refine ⟨t', c2, c3.report.trans hr, fun h => ?_, fun h => ?_⟩
  · rw [(c4 h).1, (c4 h).2, hf, hm]; exact ⟨(BitVec.or_zero).symm, rfl⟩
  · rw [(c5 h).1, (c5 h).2, hf, hm]; exact ⟨rfl, by rw [show t.fpFlags ||| 0 = t.fpFlags from BitVec.or_zero]⟩

theorem noFloat_of_frame {s s1 : State} {k : Nat} {i : Instr} {t t0 : Team} (hc : t = claimWait i t0) (h : RegFrame s s1 k t0) :
    noFloat (committed s1 k t) k t := by
  obtain ⟨t1, h1, hsc, -⟩ := h.clause hc
  obtain ⟨t2, h2, e2⟩ := h.own
  rw [h1] at h2
  obtain rfl := Option.some.inj h2
  obtain ⟨w, hw⟩ := claimWait_eq i t0
  exact noFloat_of h1 hsc (by rw [e2, hc, hw]) (by rw [e2, hc, hw]) (by rw [e2, hc, hw])

/-- A word whose effect touches registers only leaves all else as it was. -/
theorem untouched_of_frame {s s1 : State} {k : Nat} {i : Instr} {t t0 : Team} (hc : t = claimWait i t0)
    (h : RegFrame s s1 k t0) : Untouched s (committed s1 k t) k t := by
  obtain ⟨t1, h1, hsc, hr, -, -, -⟩ := h.clause hc
  obtain ⟨c1, ⟨t', c2, c3, cq, -⟩, -, c4, c5⟩ := committed_spec h1 hsc
  have hq : t1.digestQ = t.digestQ := by
    obtain ⟨t2, h2, e2⟩ := h.own
    obtain rfl := Option.some.inj (h1.symm.trans h2)
    obtain ⟨w, hw⟩ := claimWait_eq i t0
    rw [e2, hc, hw]
  have hw : writesDigest s t = false → writesDigest s1 t = false := fun hd => by
    unfold writesDigest at hd ⊢; rw [rest_carOn h.rest]; exact hd
  have hd : writesDigest s t = false → SameCores s1 (committed s1 k t) k := fun hd => c5 (by
    unfold writesDigest at hd ⊢; rw [rest_carOn h.rest]; exact hd)
  refine ⟨fun k' hk => (c1 k' hk).trans (h.others k' hk), ⟨t', c2, c3.rest.trans hr, fun hd => (cq (hw hd)).trans hq⟩, fun hw c hcn => ((hd hw).others c hcn).trans (h.cores c hcn), fun hw => ?_,
    fun hw k' n hk => ?_, fun hw => (hd hw).rest.trans h.rest⟩
  · obtain ⟨q, m, e⟩ := (hd hw).own
    rw [e, h.core]; rfl
  · exact ⟨fun hn => (SameStores.kv c4 k' n).trans ((h.stores k' n hk).1 hn), fun hn => (SameStores.ks c4 k' n).trans ((h.stores k' n hk).2 hn)⟩

theorem onward_of_frame {s s1 : State} {k : Nat} {i : Instr} {t t0 : Team} (hc : t = claimWait i t0)
    (h : RegFrame s s1 k t0) : Onward (committed s1 k t) k t := by
  obtain ⟨t1, h1, hsc, -⟩ := h.clause hc
  exact (committed_spec h1 hsc).2.2.1

/-- Register reads after a committed word are those after its effect. -/
theorem reg_committed {s1 : State} {k : Nat} {t t1 : Team} (h1 : s1.team k = some t1) (hsc : SameClause t t1) (wide : Bool) {o : Opd}
    (ho : isReg o = true) (L : Nat) : reg (committed s1 k t) k wide o L = reg s1 k wide o L := by
  obtain ⟨-, ⟨t', c2, c3, -⟩, -, c4, -⟩ := committed_spec h1 hsc
  exact reg_congr h1 c2 c3.v c3.s c4 wide ho L

theorem predOf_committed {s1 : State} {k : Nat} {t t1 : Team} (h1 : s1.team k = some t1) (hsc : SameClause t t1) (n : Nat) :
    predOf (committed s1 k t) k n = predOf s1 k n := by
  obtain ⟨-, ⟨t', c2, c3, -⟩, -, -, -⟩ := committed_spec h1 hsc
  unfold predOf; rw [h1, c2]; dsimp only; unfold Team.preg; rw [c3.p]

/-- A scalar or vector write, committed. -/
theorem wroteD_of_wrote {s s1 : State} {k : Nat} {i : Instr} {t t0 : Team} {g : Guard} {d : Opd} {wide : Bool} {f : Nat → W64} {lanes : Mask} {w : Bool}
    (ht : s.team k = some t0) (hc : t = claimWait i t0) (h : Wrote s s1 k t0 lanes w d f)
    (hv : d.isVK = true → lanes = lanesOf t g ∧ w = wide) (hs : d.isSK = true → teamRuns t g = true) : WroteD s (committed s1 k t) k t g d wide f := by
  obtain ⟨t1, h1, hsc, hr, hp, he, hwd⟩ := h.frame.clause hc
  have hwt : t.width = t0.width := by obtain ⟨x, hx⟩ := claimWait_eq i t0; rw [hc, hx]
  have hreg : ∀ wide o L, isReg o = true → reg (committed s1 k t) k wide o L = reg s1 k wide o L := fun wide o L ho => reg_committed h1 hsc wide ho L
  refine ⟨fun hd L hw hL => ?_, fun hd => ?_, fun o L ho hn hw hL => ?_, fun n _ => ?_, ?_⟩
  · obtain ⟨rfl, rfl⟩ := hv hd
    rw [hreg _ _ _ (by simp [isReg, hd]), h.lanes hd L (hwt ▸ hw) hL]
  · rw [hreg _ _ _ (by simp [isReg, hd]), h.scalar hd, if_pos (hs hd)]
  · rw [hreg _ _ _ ho]
    by_cases hd : d.isVK = true
    · obtain ⟨rfl, rfl⟩ := hv hd
      exact h.others o L ho hn (hwt ▸ hw) hL
    · exact h.others o L ho (by simpa [destOf, hd] using hn) (hwt ▸ hw) hL
  · rw [predOf_committed h1 hsc]
    unfold predOf; rw [h1, ht]; dsimp only; unfold Team.preg; rw [hp]
    obtain ⟨x, hx⟩ := claimWait_eq i t0; rw [hc, hx]
  · obtain ⟨-, ⟨t', c2, c3, -⟩, -⟩ := committed_spec h1 hsc
    exact ⟨t', c2, c3.e.trans he⟩

theorem wroteD_none {s : State} {k : Nat} {i : Instr} {t t0 : Team} {g : Guard} {d : Opd} {wide : Bool} {f : Nat → W64}
    (ht : s.team k = some t0) (hc : t = claimWait i t0) (hd : d.isSK = true) (hr : teamRuns t g = false) : WroteD s (committed s k t) k t g d wide f := by
  have hf := RegFrame.refl ht
  obtain ⟨t1, h1, hsc, -, hp, he, hwd⟩ := hf.clause hc
  refine ⟨fun h => by cases d <;> simp_all [Opd.isVK, Opd.isSK], fun _ => ?_, fun o L ho _ _ _ => reg_committed h1 hsc false ho L, fun n _ => predOf_committed h1 hsc n, ?_⟩
  · rw [if_neg (by simp [hr]), reg_committed h1 hsc true (by simp [isReg, hd])]
  · obtain ⟨-, ⟨t', c2, c3, -⟩, -⟩ := committed_spec h1 hsc
    exact ⟨t', c2, c3.e.trans he⟩

/-- The per-lane frame of R129: a word whose meaning is alu writes D and nothing else. -/
theorem alu_writes {i : Instr} {s : State} {k : Nat} {t : Team} (h : Issues i s k t) {g : Guard} {d : Opd} {wide : Bool}
    (val : Nat → Team → State → Nat → W64) (hx : exec i s = .next (issue i s fun k t s => alu g d wide k t s (val k t s)))
    (hkv : wide = true → ∀ n, d = .kv n → n.val + 1 < 16) : WritesD i s k t g d wide (val k t s) := by
  obtain ⟨t0, ht, hc⟩ := h.stored
  by_cases hd : d.isSK = true
  · by_cases hr : teamRuns t g = true
    · have hw := writeD_spec ht 0 true d (val k t s) (fun _ n hn => by simp [hn, Opd.isSK] at hd)
      refine ⟨_, by rw [hx, issue_commit h (s1 := writeD s k 0 true d (val k t s)) (by simp [alu, hd, hr])], ?_, noFloat_of_frame hc hw.frame, untouched_of_frame hc hw.frame, onward_of_frame hc hw.frame⟩
      exact wroteD_of_wrote ht hc hw (fun hv => by cases d <;> simp_all [Opd.isVK, Opd.isSK]) fun _ => hr
    · have hr' : teamRuns t g = false := by simpa using hr
      refine ⟨_, by rw [hx, issue_commit h (s1 := s) (by simp [alu, hd, hr'])], wroteD_none ht hc hd hr', noFloat_of_frame hc (RegFrame.refl ht), untouched_of_frame hc (RegFrame.refl ht), onward_of_frame hc (RegFrame.refl ht)⟩
  · have hw := writeD_spec ht (lanesOf t g) wide d (val k t s) hkv
    refine ⟨_, by rw [hx, issue_commit h (s1 := writeD s k (lanesOf t g) wide d (val k t s)) (by simp [alu, hd])], ?_, noFloat_of_frame hc hw.frame, untouched_of_frame hc hw.frame, onward_of_frame hc hw.frame⟩
    exact wroteD_of_wrote ht hc hw (fun _ => ⟨rfl, rfl⟩) fun hs => absurd hs hd

/-- A 64-bit result in the handler store starts at an even register below kv15 (R17, R40). -/
theorem Issues.kvFits {i : Instr} {s : State} {k : Nat} {t : Team} (h : Issues i s k t) {u : Use} (hu : u ∈ i.uses) {n : Fin 16}
    (hn : u.o = .kv n) : n.val + u.vn ≤ 16 := by
  have h4 := h.check4
  simp only [Bool.and_eq_true, dyn4, List.all_eq_true, List.mem_append] at h4
  have := h4.2.1 u (Or.inl hu)
  simp only [useFits, hn, Bool.and_eq_true, decide_eq_true_eq] at this
  exact this.2

/-! ## Writes of predicates -/

/-- What a predicate write does: the lanes of the mask in D, nothing else. -/
structure WroteLanes (s s1 : State) (k : Nat) (t : Team) (lanes : Mask) (d : Opd) (r : Mask) : Prop where
  rest : ∃ q, s1 = s.setTeam k { t with p := q } ∨ s1 = s
  stored : ∃ t1, s1.team k = some t1 ∧ t1 = { t with p := t1.p }
  lanes : ∀ n, d = .p n → n.val < 7 → predOf s1 k n.val = ((predOf s k n.val &&& ~~~lanes) ||| (r &&& lanes))
  others : ∀ m, m < 8 → (∀ n, d = .p n → n.val ≠ m) → predOf s1 k m = predOf s k m

theorem writeP_spec {s : State} {k : Nat} {t : Team} (ht : s.team k = some t) (lanes : Mask) (d : Opd) (r : Mask) :
    WroteLanes s (writeP s k lanes d r) k t lanes d r := by
  have base : (∀ n, d = .p n → n.val = 7) → WroteLanes s s k t lanes d r := fun h =>
    ⟨⟨t.p, Or.inr rfl⟩, ⟨t, ht, rfl⟩, fun n hn h7 => absurd (h n hn) (by omega), fun _ _ _ => rfl⟩
  cases d with
  | p n =>
    simp only [writeP, ht]
    by_cases h7 : n.val = 7
    · rw [if_pos h7]; exact base fun m hm => by cases hm; exact h7
    · rw [if_neg h7]
      refine ⟨⟨_, Or.inl rfl⟩, ⟨_, State.team_setTeam_self _ _ _, rfl⟩, fun m hm hlt => ?_, fun m hm hne => ?_⟩
      · cases hm
        simp only [predOf, State.team_setTeam_self, ht]
        rw [Team.preg_setP _ _ _ _ h7, if_pos rfl]
      · simp only [predOf, State.team_setTeam_self, ht]
        by_cases hm7 : m = 7
        · subst hm7; rfl
        · rw [Team.preg_setP _ _ _ _ hm7, if_neg fun e => hne n rfl e.symm]
  | _ => simp only [writeP]; exact base fun _ h => by cases h

/-- A committed word that changed predicates of its team only, or E. -/
theorem untouched_of_preds {s s1 : State} {k : Nat} {i : Instr} {t t0 t1 : Team} (hc : t = claimWait i t0)
    (ho : ∀ k', k' ≠ k → s1.team k' = s.team k') (hcore : ∀ c, s1.core c = s.core c) (hr : s1.rest = s.rest)
    (h1 : s1.team k = some t1) (e1 : SameClause t0 t1 ∧ t1.rest = t0.rest ∧ t1.digestQ = t0.digestQ) :
    Untouched s (committed s1 k t) k t ∧ Onward (committed s1 k t) k t := by
  obtain ⟨w, hw⟩ := claimWait_eq i t0
  have hsc : SameClause t t1 := ⟨by rw [e1.1.h, hc, hw], by rw [e1.1.i, hc, hw], by rw [e1.1.clause, hc, hw], by rw [e1.1.state, hc, hw], by rw [e1.1.digestMode, hc, hw]⟩
  have htr : t1.rest = t.rest := by rw [e1.2.1, hc, hw]; rfl
  have hq : t1.digestQ = t.digestQ := by rw [e1.2.2, hc, hw]
  obtain ⟨c1, ⟨t', c2, c3, cq, -⟩, c6, c4, c5⟩ := committed_spec h1 hsc
  have hwd : writesDigest s t = false → writesDigest s1 t = false := fun hd => by
    unfold writesDigest at hd ⊢; rw [rest_carOn hr]; exact hd
  have hd : writesDigest s t = false → SameCores s1 (committed s1 k t) k := fun hd => c5 (by
    unfold writesDigest at hd ⊢; rw [rest_carOn hr]; exact hd)
  have hst : SameStores s s1 := fun c => by rw [hcore c]; exact ⟨rfl, rfl⟩
  refine ⟨⟨fun k' hk => (c1 k' hk).trans (ho k' hk), ⟨t', c2, c3.rest.trans htr, fun hd => (cq (hwd hd)).trans hq⟩, fun hw c hcn => ((hd hw).others c hcn).trans (hcore c), fun hw => ?_,
    fun _ k' n _ => ⟨fun _ => SameStores.kv (hst.trans c4) k' n, fun _ => SameStores.ks (hst.trans c4) k' n⟩, fun hw => (hd hw).rest.trans hr⟩, c6⟩
  obtain ⟨q, m, e⟩ := (hd hw).own
  rw [e, hcore]; rfl

/-- A word whose meaning writes one predicate in some lanes. -/
theorem pred_writes {i : Instr} {s : State} {k : Nat} {t : Team} (h : Issues i s k t) {d : Opd} {lanes : Mask} {r : Mask}
    {body : Nat → Team → State → Res} (hx : exec i s = .next (issue i s body)) (hb : body k t s = .commit (writeP s k lanes d r)) :
    WritesP i s k t lanes d fun L => r.getLsbD L := by
  obtain ⟨t0, ht, hc⟩ := h.stored
  obtain ⟨w, hw⟩ := claimWait_eq i t0
  have hp := writeP_spec ht lanes d r
  obtain ⟨t1, h1, e1⟩ := hp.stored
  have hsc0 : SameClause t0 t1 ∧ t1.rest = t0.rest ∧ t1.digestQ = t0.digestQ :=
    ⟨⟨by rw [e1], by rw [e1], by rw [e1], by rw [e1], by rw [e1]⟩, by rw [e1]; rfl, by rw [e1]⟩
  have hrest : (∀ k', k' ≠ k → (writeP s k lanes d r).team k' = s.team k') ∧ (∀ c, (writeP s k lanes d r).core c = s.core c) ∧
      (writeP s k lanes d r).rest = s.rest := by
    obtain ⟨q, e | e⟩ := hp.rest <;> rw [e]
    · exact ⟨fun k' hk => by rw [State.team_setTeam, if_neg hk], fun _ => rfl, rfl⟩
    · exact ⟨fun _ _ => rfl, fun _ => rfl, rfl⟩
  obtain ⟨hu, hon⟩ := untouched_of_preds (s1 := writeP s k lanes d r) hc hrest.1 hrest.2.1 hrest.2.2 h1 hsc0
  have hsc : SameClause t t1 := ⟨by rw [e1, hc, hw], by rw [e1, hc, hw], by rw [e1, hc, hw], by rw [e1, hc, hw], by rw [e1, hc, hw]⟩
  refine ⟨_, by rw [hx, issue_commit h hb], ⟨fun n L hd hn hw hL => ?_, fun m hm hne => ?_, fun o L wide ho _ _ => ?_, ?_⟩,
    noFloat_of h1 hsc (by rw [e1, hc, hw]) (by rw [e1, hc, hw]) (by rw [e1, hc, hw]), hu, hon⟩
  · rw [predOf_committed h1 hsc, hp.lanes n hd hn]
    simp only [BitVec.getLsbD_or, BitVec.getLsbD_and, BitVec.getLsbD_not]
    cases lanes.getLsbD L <;> cases (predOf s k n.val).getLsbD L <;> cases r.getLsbD L <;> simp [hL]
  · rw [predOf_committed h1 hsc, hp.others m hm hne]
  · rw [reg_committed h1 hsc wide ho]
    exact reg_congr ht h1 (by rw [e1]) (by rw [e1]) (fun c => by rw [hrest.2.1 c]; exact ⟨rfl, rfl⟩) wide ho L
  · obtain ⟨-, ⟨t', c2, c3, -⟩, -⟩ := committed_spec h1 hsc
    exact ⟨t', c2, by rw [c3.e, e1, hc, hw]⟩

/-- The per-lane predicate forms (R122, R137). -/
theorem aluP_writes {i : Instr} {s : State} {k : Nat} {t : Team} (h : Issues i s k t) {g : Guard} {d : Opd}
    (val : Nat → Team → State → Nat → Bool) (hx : exec i s = .next (issue i s fun k t s => aluP g d k t s (val k t s))) :
    WritesP i s k t (lanesOf t g) d (val k t s) := by
  obtain ⟨s', h1, ⟨h2, h3, h4, h5⟩, h6⟩ := pred_writes h hx (d := d) (lanes := lanesOf t g) (r := maskOf t.width (val k t s)) rfl
  refine ⟨s', h1, ⟨fun n L hd hn hw hL => ?_, h3, h4, h5⟩, h6⟩
  rw [h2 n L hd hn hw hL, maskOf_lane]; simp [hw, hL]

end Sys2Proof.Machine
end

