-- ==== Sys2Proof/Laws/Forms.lean ====
section
/-! SUPPORT. The families of forms: from the shape of a meaning to what every word of the form does. -/

namespace Sys2Proof.Machine

theorem kvFits_of {i : Instr} {s : State} {k : Nat} {t : Team} (h : Issues i s k t) {d : Opd} {wide : Bool}
    (hu : wide = true → u2 d ∈ i.uses) : wide = true → ∀ n, d = .kv n → n.val + 1 < 16 := by
  intro hw n hn
  have := h.kvFits (hu hw) (n := n) (by simp [u2, hn])
  simp [u2] at this
  omega

theorem ut_wide {ty : ETy} (o : Opd) (h : ty.wide = true) : ut ty o = u2 o := by simp [ut, h]

theorem Computes.of {i : VR → Instr} {wide : VR → Bool} {val : VR → Nat → Team → State → Nat → W64}
    (hx : ∀ f s, exec (i f) s = .next (issue (i f) s fun k t s => alu f.g f.d (wide f) k t s (val f k t s)))
    (hu : ∀ f, wide f = true → u2 f.d ∈ (i f).uses) : Computes i wide val := fun f _ _ _ h =>
  alu_writes h (val f) (hx f _) (kvFits_of h (hu f))

/-- Two values that agree on every word that issues give the same family. -/
theorem Computes.congr {i : VR → Instr} {wide : VR → Bool} {val val' : VR → Nat → Team → State → Nat → W64} (h : Computes i wide val)
    (e : ∀ f k t s, Issues (i f) s k t → val f k t s = val' f k t s) : Computes i wide val' := fun f s k t hi => by
  rw [← e f k t s hi]; exact h f s k t hi

theorem ComputesInt.of {i : VR → Instr} {sat : VR → Bool} {op : VR → Int → Int → Int → Int}
    (hx : ∀ f s, exec (i f) s = intForm (i f) f (sat f) (op f) s) (hu : ∀ f : VR, ut f.t f.d ∈ (i f).uses) : ComputesInt i sat op :=
  Computes.of hx fun f hw => by rw [← ut_wide f.d hw]; exact hu f

theorem ComputesBits.of {i : VR → Instr} {ty : VR → ETy} {op : VR → Nat → Nat → Nat → Nat → Nat → Nat}
    (hx : ∀ f s, exec (i f) s = bitForm (i f) f (ty f) (op f) s) (hu : ∀ f : VR, (ty f).wide = true → ut (ty f) f.d ∈ (i f).uses) : ComputesBits i ty op :=
  Computes.of hx fun f hw => by rw [← ut_wide f.d hw]; exact hu f hw

theorem ComputesImm.of {i : VI → Instr} {val : VI → Nat → Team → State → Nat → W64}
    (hx : ∀ f s, exec (i f) s = .next (issue (i f) s fun k t s => alu f.g f.d false k t s (val f k t s))) : ComputesImm i false val :=
  fun f _ _ _ h => alu_writes h (val f) (hx f _) (fun h => by cases h)

theorem ComputesPred.of {i : VR → Instr} {val : VR → Nat → Team → State → Nat → Bool}
    (hx : ∀ f s, exec (i f) s = .next (issue (i f) s fun k t s => aluP f.g f.d k t s (val f k t s))) : ComputesPred i val :=
  fun f _ _ _ h => aluP_writes h (val f) (hx f _)

end Sys2Proof.Machine
end

