-- ==== Sys2Proof/Laws/Control.lean ====
section
/-! SUPPORT. Transfers, words that set E, and words without an effect of their own. -/

namespace Sys2Proof.Machine

/-- A committed word that changed at most predicates and E of its team. -/
theorem calm_commit {i : Instr} {s s1 : State} {k : Nat} {t t0 t1 : Team} {body : Nat → Team → State → Res} (h : Issues i s k t)
    (hx : exec i s = .next (issue i s body)) (hb : body k t s = .commit s1) (ht : s.team k = some t0) (hc : t = claimWait i t0)
    (ho : ∀ k', k' ≠ k → s1.team k' = s.team k') (hcore : ∀ c, s1.core c = s.core c) (hr : s1.rest = s.rest)
    (h1 : s1.team k = some t1) (e1 : ∃ e p, t1 = { t0 with e := e, p := p }) :
    ∃ s', exec i s = .next s' ∧ (∃ t', s'.team k = some t' ∧ t'.e = t1.e ∧ t'.p = t1.p) ∧ sameRegs s s' k t ∧ noFloat s' k t ∧
      Untouched s s' k t ∧ Onward s' k t := by
  obtain ⟨w, hw⟩ := claimWait_eq i t0
  obtain ⟨e, p, e1⟩ := e1
  have hsc0 : SameClause t0 t1 ∧ t1.rest = t0.rest ∧ t1.digestQ = t0.digestQ :=
    ⟨⟨by rw [e1], by rw [e1], by rw [e1], by rw [e1], by rw [e1]⟩, by rw [e1]; rfl, by rw [e1]⟩
  have hsc : SameClause t t1 := ⟨by rw [e1, hc, hw], by rw [e1, hc, hw], by rw [e1, hc, hw], by rw [e1, hc, hw], by rw [e1, hc, hw]⟩
  obtain ⟨hu, hon⟩ := untouched_of_preds hc ho hcore hr h1 hsc0
  obtain ⟨-, ⟨t', c2, c3, -⟩, -⟩ := committed_spec h1 hsc
  refine ⟨_, by rw [hx, issue_commit h hb], ⟨t', c2, c3.e, c3.p⟩, fun o L wide ho' _ _ => ?_,
    noFloat_of h1 hsc (by rw [e1, hc, hw]) (by rw [e1, hc, hw]) (by rw [e1, hc, hw]), hu, hon⟩
  rw [reg_committed h1 hsc wide ho']
  exact reg_congr ht h1 (by rw [e1]) (by rw [e1]) (fun c => by rw [hcore c]; exact ⟨rfl, rfl⟩) wide ho' L

/-- A word that commits with no effect. -/
theorem passes_of {i : Instr} {s : State} {k : Nat} {t : Team} {body : Nat → Team → State → Res} (h : Issues i s k t)
    (hx : exec i s = .next (issue i s body)) (hb : body k t s = .commit s) : Passes i s k t := by
  obtain ⟨t0, ht, hc⟩ := h.stored
  obtain ⟨w, hw⟩ := claimWait_eq i t0
  obtain ⟨s', h1, ⟨t', h2, h3, h4⟩, h5, h6, h7, h8⟩ := calm_commit h hx hb ht hc (fun _ _ => rfl) (fun _ => rfl) rfl ht ⟨t0.e, t0.p, rfl⟩
  refine ⟨s', h1, h5, fun n _ => ?_, ⟨t', h2, by rw [h3, hc, hw]⟩, h6, h7, h8⟩
  unfold predOf; rw [h2, ht]; dsimp only; unfold Team.preg; rw [h4]

/-- A word that sets E. -/
theorem setsE_of {i : Instr} {s : State} {k : Nat} {t : Team} {op : Team → Mask} (h : Issues i s k t)
    (hx : exec i s = setE i op s) : SetsE i s k t (op t &&& lowMask t.width) := by
  obtain ⟨t0, ht, hc⟩ := h.stored
  obtain ⟨w, hw⟩ := claimWait_eq i t0
  -- the meaning stores the claimed team; its wait kind is no register
  have hb : (fun (k : Nat) (t : Team) (s : State) => Res.commit (s.setTeam k { t with e := op t &&& lowMask t.width })) k t s =
      .commit (s.setTeam k { t with e := op t &&& lowMask t.width }) := rfl
  have h1 : (s.setTeam k { t with e := op t &&& lowMask t.width }).team k = some { t with e := op t &&& lowMask t.width } := State.team_setTeam_self _ _ _
  have hsc : SameClause t { t with e := op t &&& lowMask t.width } := ⟨rfl, rfl, rfl, rfl, rfl⟩
  have hsc0 : SameClause t0 { t with e := op t &&& lowMask t.width } ∧ ({ t with e := op t &&& lowMask t.width } : Team).rest = t0.rest ∧
      ({ t with e := op t &&& lowMask t.width } : Team).digestQ = t0.digestQ :=
    ⟨⟨by rw [hc, hw], by rw [hc, hw], by rw [hc, hw], by rw [hc, hw], by rw [hc, hw]⟩, by rw [hc, hw]; rfl, by rw [hc, hw]⟩
  obtain ⟨hu, hon⟩ := untouched_of_preds (s := s) (s1 := s.setTeam k { t with e := op t &&& lowMask t.width }) hc (fun k' hk => by rw [State.team_setTeam, if_neg hk]) (fun _ => rfl) rfl h1 hsc0
  obtain ⟨-, ⟨t', c2, c3, -⟩, -⟩ := committed_spec h1 hsc
  refine ⟨_, by rw [hx, setE, issue_commit h hb], ⟨t', c2, c3.e⟩, fun o L wide ho' _ _ => ?_, fun n _ => ?_,
    noFloat_of h1 hsc rfl rfl rfl, hu, hon⟩
  · rw [reg_committed h1 hsc wide ho']
    exact reg_congr ht h1 (by rw [hc, hw]) (by rw [hc, hw]) (fun _ => ⟨rfl, rfl⟩) wide ho' L
  · rw [predOf_committed h1 hsc]
    unfold predOf; rw [h1, ht]; dsimp only; unfold Team.preg; rw [hc, hw]

/-- The state after a transfer (R117). -/
theorem transferred_spec {s1 : State} {k : Nat} {t t1 : Team} (ht : s1.team k = some t1) (hc : SameClause t t1) (target : W64) :
    (∀ k', k' ≠ k → (transferred s1 k t target).team k' = s1.team k') ∧
    (∃ t', (transferred s1 k t target).team k = some t' ∧ SameTeam t1 t' ∧ t'.h = target ∧ t'.i = 0 ∧ t'.clause = [] ∧
      t'.fmode = t1.fmode ||| BitVec.ofNat 64 (t1.fpFlags.toNat * 2 ^ 13) ∧ t'.fpFlags = 0 ∧
      (clauseDigest s1 t = false → t'.digestQ = t1.digestQ)) ∧
    SameStores s1 (transferred s1 k t target) ∧
    (clauseDigest s1 t = false → SameCores s1 (transferred s1 k t target) k) := by
  have hh : curHdr t1 = curHdr t := by unfold curHdr; rw [hc.clause]
  have hb := SameCores.bump s1 k 0 (issueCycles t)
  obtain ⟨h1, h2, h3, h4⟩ := completeClause_spec (s := bumpCounter s1 (keyCore k) 0 (issueCycles t)) (k := k) (t := t1) (by simp [ht]) target
  obtain ⟨t', c2, c3, c4, c5, c6, c7, c8, c9⟩ := h2
  exact ⟨fun k' hk => (h1 k' hk).trans (by simp), ⟨t', c2, c3, c4, c5, c6, c7, c8, fun hd => c9 (by rw [hh, hc.digestMode]; exact hd)⟩, hb.stores.trans h3, fun hd => hb.trans (h4 (by rw [hh, hc.digestMode]; exact hd))⟩

/-- A word that transfers and writes no register. -/
theorem jumps_of {i : Instr} {s : State} {k : Nat} {t : Team} {target : W64} {body : Nat → Team → State → Res} (h : Issues i s k t)
    (hx : exec i s = .next (issue i s body)) (hb : body k t s = .jump s target) : Jumps i s k t target [] := by
  obtain ⟨t0, ht, hc⟩ := h.stored
  obtain ⟨w, hw⟩ := claimWait_eq i t0
  have hsc : SameClause t t0 := ⟨by rw [hc, hw], by rw [hc, hw], by rw [hc, hw], by rw [hc, hw], by rw [hc, hw]⟩
  obtain ⟨c1, ⟨t', c2, c3, c4, c5, c6, c7, c8, c11⟩, c9, c10⟩ := transferred_spec ht hsc target
  refine ⟨_, by rw [hx, issue_jump h hb], ⟨t', c2, c4, c5, c6, c8, by rw [c3.report, hc, hw], by rw [c7, hc, hw]⟩, fun p hp => (by cases hp),
    fun o L wide ho _ _ _ => reg_congr ht c2 c3.v c3.s c9 wide ho L, fun n _ => ?_, ⟨t', c2, by rw [c3.e, hc, hw]⟩,
    ⟨c1, ⟨t', c2, by rw [c3.rest, hc, hw]; rfl, fun hd => by rw [c11 hd, hc, hw]⟩, fun hd => (c10 hd).others, fun hd => ?_, fun _ k' n _ => ⟨fun _ => c9.kv k' n, fun _ => c9.ks k' n⟩, fun hd => (c10 hd).rest⟩⟩
  · unfold predOf; rw [c2, ht]; dsimp only; unfold Team.preg; rw [c3.p]
  · obtain ⟨q, m, e⟩ := (c10 hd).own
    rw [e]; rfl

end Sys2Proof.Machine
end

