-- ==== Sys2Proof/Laws/Floats.lean ====
section
/-! SUPPORT. What the frame of the float forms does (R28, R143). -/

namespace Sys2Proof.Machine

theorem find_map {α : Type} (g : Nat → α) (lanes : List Nat) (L : Nat) :
    Table.find (lanes.map fun l => (l, g l)) L = if L ∈ lanes then some (g L) else none := by
  induction lanes with
  | nil => rfl
  | cons a r ih =>
    simp only [List.map_cons, Table.find, ih, List.mem_cons]
    by_cases h : a = L
    · subst h; simp
    · simp [h, Ne.symm h]

theorem get_map {α : Type} (g : Nat → α) (d : α) {lanes : List Nat} {L : Nat} (h : L ∈ lanes) :
    Table.get (lanes.map fun l => (l, g l)) L d = g L := by
  simp [Table.get, find_map, h]

theorem foldl_congr_mem (lanes : List Nat) (f g : Nat → Exc) (h : ∀ L ∈ lanes, f L = g L) (a : Exc) :
    lanes.foldl (fun acc L => acc ||| f L) a = lanes.foldl (fun acc L => acc ||| g L) a := by
  induction lanes generalizing a with
  | nil => rfl
  | cons x r ih =>
    rw [List.foldl_cons, List.foldl_cons, h x List.mem_cons_self, ih fun L hL => h L (List.mem_cons_of_mem _ hL)]

theorem foldl_or (lanes : List Nat) (f : Nat → Exc) (a : Exc) :
    lanes.foldl (fun acc L => acc ||| f L) a = a ||| fpAll lanes f := by
  unfold fpAll
  induction lanes generalizing a with
  | nil => simp
  | cons x r ih => rw [List.foldl_cons, List.foldl_cons, ih, ih (0 ||| f x), BitVec.or_assoc]; simp

theorem find_congr_mem (lanes : List Nat) (p q : Nat → Bool) (h : ∀ L ∈ lanes, p L = q L) : lanes.find? p = lanes.find? q := by
  induction lanes with
  | nil => rfl
  | cons x r ih =>
    rw [List.find?_cons, List.find?_cons, h x List.mem_cons_self, ih fun L hL => h L (List.mem_cons_of_mem _ hL)]

/-- What noteFp does to a team: its flags and its report, by the lanes and their exceptions alone. -/
theorem noteFp_eq (t u : Team) (lanes : List Nat) (e e' : Nat → Exc) (h : ∀ L ∈ lanes, e L = e' L) (hf : u.fmode = t.fmode)
    (hq : u.fpQuiet = t.fpQuiet) (hh : u.h = t.h) (hi : u.i = t.i) (hcl : u.clause = t.clause) (hr : u.fpReport = t.fpReport) :
    noteFp u lanes e = { u with fpFlags := u.fpFlags ||| fpAll lanes e', fpReport := (noteFp t lanes e').fpReport } := by
  have hte : trapEnables u = trapEnables t := by unfold trapEnables; rw [hf]
  have hw : curWord u = curWord t := by unfold curWord; rw [hcl, hi]
  have hfind : lanes.find? (fun L => decide (e L &&& trapEnables u ≠ 0)) = lanes.find? (fun L => decide (e' L &&& trapEnables t ≠ 0)) :=
    find_congr_mem _ _ _ fun L hL => by rw [h L hL, hte]
  unfold noteFp
  simp only [hfind, foldl_congr_mem lanes e e' h, foldl_or]
  cases hm : lanes.find? (fun L => decide (e' L &&& trapEnables t ≠ 0)) with
  | none => simp [hr]
  | some L =>
    have hL := List.mem_of_find?_eq_some hm
    dsimp only
    rw [hr, hq, hh]
    split
    · simp
    · rw [hw, hi, h L hL, hte]

theorem mem_maskLanes (m : Mask) (n L : Nat) : L ∈ maskLanes m n ↔ L < n ∧ m.getLsbD L = true := by
  simp [maskLanes, List.mem_filter]

theorem lowMask_lane (n L : Nat) : (lowMask n).getLsbD L = (decide (L < 1024) && decide (L < n)) := by
  simp only [lowMask, BitVec.getLsbD_ofNat, Nat.testBit_two_pow_sub_one]

theorem maskAny_of_lane {m : Mask} {n L : Nat} (h1 : L < n) (h2 : m.getLsbD L = true) : maskAny m n = true := by
  have h3 : L < 1024 := by
    rcases Nat.lt_or_ge L 1024 with h | h
    · exact h
    · rw [BitVec.getLsbD_of_ge _ _ h] at h2; simp at h2
  simp only [maskAny, decide_eq_true_eq, ne_eq]
  intro h0
  have := congrArg (fun x => x.getLsbD L) h0
  rw [BitVec.getLsbD_and, lowMask_lane, h2] at this
  simp [h1, h3] at this

theorem lane_of_maskAny {m : Mask} {n : Nat} (h : maskAny m n = true) : ∃ L, L < n ∧ m.getLsbD L = true := by
  simp only [maskAny, decide_eq_true_eq, ne_eq] at h
  apply Classical.byContradiction
  intro hn
  apply h
  apply BitVec.eq_of_getLsbD_eq
  intro i hi
  simp only [BitVec.getLsbD_and, lowMask_lane, hi, decide_true, Bool.true_and]
  by_cases hin : i < n
  · have : m.getLsbD i = false := by
      cases hb : m.getLsbD i
      · rfl
      · exact absurd ⟨i, hin, hb⟩ hn
    simp [this]
  · simp [hin]

/-- A scalar float word has a lane to compute in just when it runs. -/
theorem fpLanes_nil {t : Team} {g : Guard} {d : Opd} (hd : d.isSK = true) : fpLanes t g d = [] ↔ teamRuns t g = false := by
  unfold fpLanes
  simp only [hd, if_true]
  cases hm : maskLanes (lanesOf t g) t.width with
  | nil =>
    simp only
    cases hr : teamRuns t g <;> simp
  | cons L r =>
    have hL : L ∈ maskLanes (lanesOf t g) t.width := by rw [hm]; exact List.mem_cons_self
    rw [mem_maskLanes] at hL
    have : teamRuns t g = true := by
      cases g
      · rfl
      all_goals exact maskAny_of_lane hL.1 hL.2
    simp [this]

theorem fpLanes_v {t : Team} {g : Guard} {d : Opd} (hd : d.isSK = false) : fpLanes t g d = maskLanes (lanesOf t g) t.width := by
  simp [fpLanes, hd]

/-- A word whose effect is a register write and the note of its exceptions. -/
theorem float_commit {s s1 : State} {k : Nat} {i : Instr} {t t0 : Team} {lanes : List Nat} {e e' : Nat → Exc}
    (hc : t = claimWait i t0) (hf : RegFrame s s1 k t0) (he : ∀ L ∈ lanes, e L = e' L) :
    (∃ t1 t2, s1.team k = some t1 ∧ (s1.modTeam k fun u => noteFp u lanes e).team k = some t2 ∧ SameClause t t2 ∧ t2.v = t1.v ∧ t2.s = t1.s ∧ t2.p = t1.p ∧
      t2.e = t.e ∧ t1.p = t.p) ∧
    floatState (committed (s1.modTeam k fun u => noteFp u lanes e) k t) k t (fpAll lanes e') (noteFp t lanes e').fpReport ∧
    Untouched s (committed (s1.modTeam k fun u => noteFp u lanes e) k t) k t ∧
    Onward (committed (s1.modTeam k fun u => noteFp u lanes e) k t) k t := by
  obtain ⟨t1, h1, e1⟩ := hf.own
  obtain ⟨w, hw⟩ := claimWait_eq i t0
  have hn := noteFp_eq t t1 lanes e e' he (by rw [e1, hc, hw]) (by rw [e1, hc, hw]) (by rw [e1, hc, hw]) (by rw [e1, hc, hw]) (by rw [e1, hc, hw]) (by rw [e1, hc, hw])
  have h2 : (s1.modTeam k fun u => noteFp u lanes e).team k = some (noteFp t1 lanes e) := by rw [State.team_modTeam_self, h1]; rfl
  rw [hn] at h2
  have hsc : SameClause t { t1 with fpFlags := t1.fpFlags ||| fpAll lanes e', fpReport := (noteFp t lanes e').fpReport } :=
    ⟨by rw [e1, hc, hw], by rw [e1, hc, hw], by rw [e1, hc, hw], by rw [e1, hc, hw], by rw [e1, hc, hw]⟩
  obtain ⟨c1, ⟨t', c2, c3, cq, c4, c5⟩, c6, c7, c8⟩ := committed_spec h2 hsc
  have hd : writesDigest s t = false → SameCores (s1.modTeam k fun u => noteFp u lanes e) (committed (s1.modTeam k fun u => noteFp u lanes e) k t) k := fun hd =>
    c8 (by unfold writesDigest at hd ⊢; rw [← hd, rest_carOn (s := s) (s' := s1.modTeam k fun u => noteFp u lanes e) hf.rest])
  refine ⟨⟨t1, _, h1, h2, hsc, rfl, rfl, rfl, by rw [e1, hc, hw], by rw [e1, hc, hw]⟩, ⟨t', c2, c3.report, fun h => ?_, fun h => ?_⟩, ?_, c6⟩
  · rw [(c4 h).1, (c4 h).2]; exact ⟨by rw [e1, hc, hw], by rw [e1, hc, hw]⟩
  · rw [(c5 h).1, (c5 h).2]; exact ⟨rfl, by rw [e1, hc, hw]⟩
  · refine ⟨fun k' hk => (c1 k' hk).trans ?_, ⟨t', c2, c3.rest.trans ?_, fun hw' => (cq ?_).trans (by rw [e1, hc, hw])⟩, fun hw' c hcn => ((hd hw').others c hcn).trans (hf.cores c hcn), fun hw' => ?_,
      fun hw' k' n hk => ?_, fun hw' => (hd hw').rest.trans hf.rest⟩
    · rw [State.team_modTeam, if_neg hk]; exact hf.others k' hk
    · rw [e1, hc, hw]; rfl
    · unfold writesDigest at hw' ⊢; rw [← hw', rest_carOn (s := s) (s' := s1.modTeam k fun u => noteFp u lanes e) hf.rest]
    · obtain ⟨q, m, eq⟩ := (hd hw').own
      rw [eq]
      show ({ s1.core (keyCore k) with pipes := q, counters := m } : Core).rest = _
      rw [hf.core]; rfl
    · exact ⟨fun hn => (SameStores.kv c7 k' n).trans ((hf.stores k' n hk).1 hn), fun hn => (SameStores.ks c7 k' n).trans ((hf.stores k' n hk).2 hn)⟩

/-- No operand is both a vector and a scalar register. -/
theorem not_sk_of_vk {d : Opd} (h : d.isVK = true) : ¬ d.isSK = true := by cases d <;> simp [Opd.isVK, Opd.isSK] at *

/-- The write of a float word: a scalar D from the first lane it computes in, a vector D in the lanes of the mask. -/
def fpStore (k : Nat) (mask : Mask) (d : Opd) (wide : Bool) (f : Nat → W64) (lanes : List Nat) (s : State) : State :=
  if d.isSK then (match lanes with | L :: _ => writeD s k 0 wide d fun _ => f L | [] => s) else writeD s k mask wide d f

/-- The frame of the float forms: D, the flags and the report, and nothing else. -/
theorem ComputesFloat.of {i : VR → Instr} {wide : VR → Bool} {ty : VR → ETy} {val : VR → Nat → Team → State → Nat → Nat × Exc}
    (hx : ∀ f s, exec (i f) s = .next (issue (i f) s fun k t s => fpForm f.g f.d (wide f) (ty f) k t s (val f k t s)))
    (hu : ∀ f, wide f = true → u2 f.d ∈ (i f).uses) : ComputesFloat i wide ty val := by
  intro f s k t h lanes exc at' hcom
  obtain ⟨t0, ht, hc⟩ := h.stored
  obtain ⟨w, hw⟩ := claimWait_eq (i f) t0
  have hwt : t0.width = t.width := by rw [hc, hw]
  let rs : Table (Nat × Exc) := lanes.map fun L => (L, val f k t s L)
  let e : Nat → Exc := fun L => (rs.get L (0, 0)).2
  have hrs : ∀ L ∈ lanes, rs.get L (0, 0) = val f k t s L := fun L hL => get_map (val f k t s) (0, 0) hL
  have he : ∀ L ∈ lanes, e L = exc L := fun L hL => by show (rs.get L (0, 0)).2 = _; rw [hrs L hL]
  have hfind : (if t.handler then lanes.find? fun L => decide (e L &&& trapEnables t ≠ 0) else none) = none := by
    split
    · next hh =>
      rcases hcom with h0 | h0
      · rw [h0] at hh; simp at hh
      · rw [List.find?_eq_none]
        intro L hL
        rw [he L hL]
        simp [show exc L &&& trapEnables t = 0 from h0 L hL]
    · rfl
  let res : Nat → Nat := fun L => (rs.get L (0, 0)).1
  let s1 : State := fpStore k (lanesOf t f.g) f.d (wide f) (fun L => fitBits (ty f) (res L)) lanes s
  have hbody : fpForm f.g f.d (wide f) (ty f) k t s (val f k t s) = .commit (s1.modTeam k fun u => noteFp u lanes e) := by
    show fpCommit k t s lanes e (fpStore k (lanesOf t f.g) f.d (wide f) (fun L => fitBits (ty f) (res L)) lanes) = _
    unfold fpCommit
    rw [hfind]
  have hk := kvFits_of h (hu f)
  -- what the write does
  have key : RegFrame s s1 k t0 ∧
      (f.d.isVK = true → ∀ L, L < t.width → L < 1024 → reg s1 k (wide f) f.d L =
        if (lanesOf t f.g).getLsbD L then (if wide f then fitBits (ty f) (val f k t s (at' L)).1 else (fitBits (ty f) (val f k t s (at' L)).1).truncate 32 |>.zeroExtend 64)
        else reg s k (wide f) f.d L) ∧
      (f.d.isSK = true → reg s1 k true f.d 0 = if teamRuns t f.g then fitBits (ty f) (val f k t s (at' 0)).1 else reg s k true f.d 0) ∧
      (∀ o L, isReg o = true → o ∉ destOf (wide f) f.d → L < t.width → L < 1024 → reg s1 k false o L = reg s k false o L) := by
    cases hd : f.d.isSK
    · have hs1 : s1 = writeD s k (lanesOf t f.g) (wide f) f.d fun L => fitBits (ty f) (res L) := by simp [s1, fpStore, hd]
      have hwr := writeD_spec ht (lanesOf t f.g) (wide f) f.d (fun L => fitBits (ty f) (res L)) hk
      rw [hs1]
      refine ⟨hwr.frame, fun hv L hL h4 => ?_, fun h => (by cases h), fun o L ho hn hL h4 => hwr.others o L ho hn (hwt ▸ hL) h4⟩
      rw [hwr.lanes hv L (hwt ▸ hL) h4]
      by_cases hl : (lanesOf t f.g).getLsbD L = true
      · have hm : L ∈ lanes := by
          show L ∈ fpLanes t f.g f.d
          rw [fpLanes_v hd, mem_maskLanes]; exact ⟨hL, hl⟩
        have ha : at' L = L := by simp [at', hd]
        simp only [hl, if_true, ha]
        show (if wide f = true then fitBits (ty f) (rs.get L (0, 0)).1 else _) = _
        simp only [res, hrs L hm]
      · simp only [hl, Bool.false_eq_true, if_false]
    · cases hl : lanes with
      | nil =>
        have hs1 : s1 = s := by simp [s1, fpStore, hd, hl]
        have hr : teamRuns t f.g = false := (fpLanes_nil hd).1 hl
        rw [hs1]
        refine ⟨RegFrame.refl ht, fun hv => absurd hd (not_sk_of_vk hv), fun _ => by simp [hr], fun _ _ _ _ _ _ => rfl⟩
      | cons L0 r =>
        have hs1 : s1 = writeD s k 0 (wide f) f.d fun _ => fitBits (ty f) (res L0) := by simp [s1, fpStore, hd, hl]
        have hr : teamRuns t f.g = true := by
          cases hrr : teamRuns t f.g with
          | true => rfl
          | false => have := (fpLanes_nil (d := f.d) hd).2 hrr; rw [show fpLanes t f.g f.d = lanes from rfl, hl] at this; cases this
        have hwr := writeD_spec ht 0 (wide f) f.d (fun _ => fitBits (ty f) (res L0)) hk
        have h0 : at' 0 = L0 := by simp [at', hd, hl]
        have hm : L0 ∈ lanes := by rw [hl]; exact List.mem_cons_self
        rw [hs1]
        refine ⟨hwr.frame, fun hv => absurd hd (not_sk_of_vk hv), fun _ => ?_, fun o L ho hn hL h4 => hwr.others o L ho hn (hwt ▸ hL) h4⟩
        · rw [hwr.scalar hd, hr, if_pos rfl, h0]
          show fitBits (ty f) (rs.get L0 (0, 0)).1 = _
          rw [hrs L0 hm]
  obtain ⟨hf, kv, ks, ko⟩ := key
  obtain ⟨⟨t1, t2, g1, g2, g3, g4, g5, g6, g7, g8⟩, b1, b2, b3⟩ := float_commit (lanes := lanes) (e := e) (e' := exc) hc hf he
  have hsame : ∀ wd o L, isReg o = true → reg (committed (s1.modTeam k fun u => noteFp u lanes e) k t) k wd o L = reg s1 k wd o L := fun wd o L ho => by
    rw [reg_committed g2 g3 wd ho]
    exact reg_congr g1 g2 g4 g5 (fun _ => ⟨rfl, rfl⟩) wd ho L
  refine ⟨_, by rw [hx, issue_commit h hbody], ⟨fun hv L hL h4 => ?_, fun hd => ?_, fun o L ho hn hL h4 => ?_, fun n hn => ?_, ?_⟩, b1, b2, b3⟩
  · rw [hsame _ _ _ (by simp [isReg, hv]), kv hv L hL h4]
  · rw [hsame _ _ _ (by simp [isReg, hd]), ks hd]
  · rw [hsame _ _ _ ho, ko o L ho hn hL h4]
  · rw [predOf_committed g2 g3]
    unfold predOf
    rw [g2, ht]
    dsimp only
    unfold Team.preg
    rw [g6, g8, hc, hw]
  · obtain ⟨-, ⟨t', c2, c3, -⟩, -⟩ := committed_spec g2 g3
    exact ⟨t', c2, c3.e.trans g7⟩

end Sys2Proof.Machine
end

