-- ==== Sys2Proof/Laws/Stitch.lean ====
section
/-! SUPPORT. Records that a word reaches: the checks of R291 and R348 pass, and what follows them runs. -/

namespace Sys2Proof.Machine

variable {s s1 : State} {k : Nat} {t : Team} {m : Mask}

/-- A record that is reached is given to what follows (R291, R348). -/
theorem reachVa_reached {align n acc va pa : Nat} (h : Reached s k t m align n acc va s1 pa) (go : State → Nat → Res) :
    reachVa s k t m align n acc va go = go s1 pa := by
  obtain ⟨hs, ha, ⟨s0, L, v, hm, rfl⟩, hp, hb⟩ := h
  simp only [reachVa, withWide, hs, ha, ne_eq, not_true_eq_false, if_false]
  rw [hm]
  simp [hp, hb]

theorem reachSeq_reached {go : State → Table Nat → Res} : ∀ {ws : List (Nat × Nat × Nat)} {s s1 : State} {pg pg1 : Table Nat},
    ReachedSeq k t m ws s pg s1 pg1 → reachSeq k t m ws s pg go = go s1 pg1
  | [], _, _, _, _, ⟨rfl, rfl⟩ => rfl
  | (va, n, acc) :: r, _, _, _, _, ⟨_, _, h, hr⟩ => by
    rw [reachSeq, reachVa_reached h]; exact reachSeq_reached hr

theorem reachAll_reaches {ws : List (Nat × Nat × Nat)} {pg pg1 : Table Nat} (h : ReachesAll s k t m ws pg s1 pg1) (go : State → Table Nat → Res) :
    reachAll s k t m ws pg go = go s1 pg1 := reachSeq_reached h

/-- A sound header is given to what follows (R291). -/
theorem hdrFront_goes {va lane : Nat} {h : SHdr} (hh : HeaderGoes s k t m va s1 h) (go : State → SHdr → Res) :
    hdrFront s k t m lane accR va go = go s1 h := by
  obtain ⟨pa, hr, rfl, hg⟩ := hh
  simp [hdrFront, reachVa_reached hr, hg]

/-- A token's version is given to what follows (R280, R291). -/
theorem tokenRec_names {tok : W64} {lane : Nat} {v : SVer} (h : TokenNames s k t m tok s1 v) (go : State → SVer → Res) :
    tokenRec s k t m lane tok go = go s1 v := by
  obtain ⟨sa, pa, hd, hr, hst, ho, hser, hh, rfl⟩ := h
  simp only [tokenRec, reachVa_reached hr, hst, ho, hser, and_self, if_true, hdrFront_goes hh]

theorem tokenFront_goes {tok : W64} {lane : Nat} {v : SVer} (h : TokenGoes s k t m tok s1 v) (go : State → SVer → Res) :
    tokenFront s k t m lane tok go = go s1 v := by
  simp [tokenFront, tokenRec_names h.1, h.2]

theorem refsFront_goes {va n : Nat} {pg : Table Nat} {refs : List (Nat × Nat)} (h : RefsGo s k t m va n s1 pg refs)
    (go : State → Table Nat → List (Nat × Nat) → Res) : refsFront s k t m va n go = go s1 pg refs := by
  obtain ⟨hr, rfl⟩ := h
  simp [refsFront, reachAll_reaches hr]

theorem currentRefs_goes {h : SHdr} {pg : Table Nat} {refs : List (Nat × Nat)} (hc : CurrentGoes s k t m h s1 pg refs)
    (go : State → Table Nat → List (Nat × Nat) → Res) : currentRefs s k t m h go = go s1 pg refs := by
  unfold CurrentGoes at hc
  split at hc
  · obtain ⟨rfl, rfl, rfl⟩ := hc; simp [currentRefs, *]
  · simp [currentRefs, *, refsFront_goes hc]

theorem editReach_goes {h : SHdr} {ps pools : List Nat} {pg pg1 : Table Nat} (he : EditGoes s k t m h ps pools pg s1 pg1)
    (go : State → Table Nat → Res) : editReach s k t m h ps pools pg go = go s1 pg1 := by
  obtain ⟨sa, pa, sb, pb, h1, h2, h3⟩ := he
  simp only [editReach, reachAll_reaches h1, reachAll_reaches h2, reachAll_reaches h3]

theorem blockFront_goes {h : SHdr} {refs : List (Nat × Nat)} {pg pg1 : Table Nat} {b : Nat} (hb : BlockGoes s k t m h refs pg s1 pg1 b)
    (go : State → Table Nat → Nat → Res) : blockFront s k t m h refs pg go = go s1 pg1 b := by
  unfold BlockGoes at hb
  split at hb
  · obtain ⟨rfl, rfl, rfl⟩ := hb; simp [blockFront, *]
  · simp [blockFront, popFront, *, hb.1, reachAll_reaches hb.2]

theorem unpinReach_goes {v : SVer} {pins : Nat × Nat × Nat} {pg1 : Table Nat} {refs : List (Nat × Nat)} (h : UnpinGoes s k t m v pins s1 pg1 refs)
    (go : State → Table Nat → List (Nat × Nat) → Res) : unpinReach s k t m v pins go = go s1 pg1 refs := by
  obtain ⟨sa, pa, sb, pb, h1, h2, h3⟩ := h
  simp only [unpinReach, refsFront_goes h1, reachAll_reaches h2, reachAll_reaches h3]

/-- sx.ld and sx.st come to the translation of their elements (R290, R291). -/
theorem sxAccess_goes {f : VR} {acc e : Nat} {xs : List (Nat × Nat)} (h : ElementsGo s k t f acc s1 e xs) (hp : peerHold s k = false)
    (go : State → Nat → List (Nat × Nat × Nat) → Res) :
    sxAccess s k t f acc go = match checkLanes s1 k t e acc xs with
      | .stop r => r
      | .go s4 ls => match ls.filter fun x => isPeer x.2.2 with
        | x :: r => failXlat s4 k t acc ((x :: r).map fun y => (y.1, y.2.1, .fail rSegment 0)) x.2.1 rSegment
        | [] => go (settleAll s4 k t ls) e ls := by
  obtain ⟨sa, v, sb, pb, refs, pc, hl, htok, hpk, hv, hty, hix, hr, ⟨hpc, rfl, rfl⟩, hsn⟩ := h
  have hrange : ((maskLanes (resumedLanes t f.g) t.width).any fun L => decide (v.total ≤ sxIndex sa k t f L)) = false := by
    rw [List.any_eq_false]; intro L hL; simpa using hix L hL
  have h0 : ordRel 0 = false := by decide
  simp only [sxAccess, List.isEmpty_iff, hl, if_false, memGo, hp, h0, Bool.false_and, Bool.or_self, Bool.false_eq_true, htok, hpk, stopOr, tokenFront_goes hv,
    hty, ne_eq, not_true_eq_false, hrange, refsFront_goes hr, reachAll_reaches hpc, withSnare, sxElems, hsn] <;>
  (cases checkLanes s1 k t v.hdr.size acc _ with
   | stop r => rfl
   | go s4 ls => cases ls.filter fun x => isPeer x.2.2 <;> rfl)

end Sys2Proof.Machine
end

