-- ==== Sys2Proof/Laws/Volume.lean ====
section
/-! SUPPORT. The checks of R268 pass, and what follows them runs. -/

namespace Sys2Proof.Machine

variable {s s1 s2 : State} {k : Nat} {t : Team} {f : VR}

/-- Step 4 of R268 passes over tiles that do not fail. -/
theorem volStep4_goes {d : VDesc} {need : VNeed} {ls : List VLane} {ts : List VTile} (h : StepFour s d need ls ts) (go : Res) :
    volStep4 s k t d ls ts need go = go := by
  have h1 : step4Lanes s d need ls (findTile ts) = [] := by
    rw [step4Lanes, List.filterMap_eq_nil_iff]
    intro l hl
    cases hi : l.inside with
    | none => simp
    | some x =>
      cases hf : findTile ts x.1 with
      | none => simp [hf]
      | some v => simp [hf, h.sound l hl x hi v hf]
  have h2 : busyTile ts = none := by
    rw [busyTile, List.findSome?_eq_none_iff]
    intro v hv
    cases hw : v.walk with
    | busy p e => exact absurd hw (h.settled v hv p e)
    | _ => rfl
  simp only [volStep4, h1, h2]

/-- With the descriptor at hand, the checks of step 3 follow. -/
theorem volFront_desc {acc pa : Nat} {size : Nat → Bool} {need : VNeed} {cas : VDesc → W64 → Bool} (h : DescGoes s k t f acc s1 pa)
    (go : State → VDesc → List VLane → List VTile → Res) :
    volFront s k t f acc size need cas go =
      let m := resumedLanes t f.g
      let d := volDesc s1 (ctxPart s t.oid) (extVA (opdS s k t f.b)) pa
      if !volDescOk s1 d then volTrap s1 m cTileFormat (volWord (lowLane m) 5 4)
      else if !size d.e then volTrap s1 m cTileFormat (volWord (lowLane m) 5 5)
      else
        let ls := (maskLanes m t.width).map (volLane s k t d f.a)
        let x := volTiles k t d (tilesOf ls) s1
        volStep4 x.1 k t d ls x.2 need <|
          let y := freshTiles k t d (cas d) x.2 x.1
          volStep4 y.1 k t d ls y.2 need (go y.1 d ls y.2) := by
  have h0 : ordRel 0 = false := by decide
  have hr : Reached s k t (resumedLanes t f.g) 128 128 acc (extVA (opdS s k t f.b)) s1 pa := ⟨h.noSnare, h.reach⟩
  simp only [volFront, List.isEmpty_iff, h.lanes, if_false, memGo, h.free, h0, Bool.false_and, Bool.or_self, Bool.false_eq_true, reachVa_reached hr]

/-- A vol word whose checks pass performs. -/
theorem volFront_goes {acc : Nat} {size : Nat → Bool} {need : VNeed} {cas : VDesc → W64 → Bool} {d : VDesc} {ls : List VLane} {ts : List VTile}
    (h : VolGoes s k t f acc size need cas s2 d ls ts) (go : State → VDesc → List VLane → List VTile → Res) :
    volFront s k t f acc size need cas go = go s2 d ls ts := by
  obtain ⟨s1, pa, sa, ta, hd, rfl, hok, hsz, rfl, htiles, h4, hf, h5⟩ := h
  simp only [volFront_desc hd, hok, hsz, Bool.not_true, Bool.false_eq_true, if_false, htiles, volStep4_goes h4, hf, volStep4_goes h5]

/-- A leaf that the form takes as it is is made writable by doing nothing (R264). -/
theorem makeWritable_leaf {d : VDesc} {tile : Tile} {F : VForm} {n level pa : Nat} {e : W64} {w : VWork} (h2 : veKind e = 2)
    (h3 : F.alloc = true ∨ veFmt e = 0) : makeWritable k t d tile F (n + 1) level pa e w = (w, .leaf pa e) := by
  rw [makeWritable]; simp only [h2, h3, true_and, if_true]

theorem makeTiles_leaves {d : VDesc} {F : VForm} (leaf : VTile → Nat × W64) : ∀ (ts : List VTile) (w : VWork),
    (∀ v ∈ ts, v.walk = .found 1 (leaf v).1 (leaf v).2 ∧ veKind (leaf v).2 = 2 ∧ (F.alloc = true ∨ veFmt (leaf v).2 = 0)) →
    makeTiles k t d F ts w = (w, ts.map fun v => (v.tile, .leaf (leaf v).1 (leaf v).2))
  | [], w, _ => rfl
  | v :: r, w, h => by
    obtain ⟨h1, h2, h3⟩ := h v (by simp)
    have ih := makeTiles_leaves (d := d) (F := F) leaf r w fun x hx => h x (by simp [hx])
    rw [makeTiles]
    simp only [h1, h2, if_true, makeWritable_leaf (n := 15) h2 h3, ih, List.map_cons]

/-- Where every tile is a leaf, none has become anything else. -/
theorem otherTiles_leaves {made : List (Tile × VMade)} (h : ∀ x ∈ made, ∃ p e, x.2 = .leaf p e) : otherTiles made = [] := by
  rw [otherTiles, List.filterMap_eq_nil_iff]
  intro x hx
  obtain ⟨p, e, he⟩ := h x hx
  simp only [he]

/-- Tiles that are leaves leave no lane without one. -/
theorem laneOthers_leaves {d : VDesc} {F : VForm} {made : List (Tile × VMade)} (h : ∀ x ∈ made, ∃ p e, x.2 = .leaf p e) :
    laneOthers s d F made = [] ∧ busyTile (otherTiles made) = none ∧ ∀ ls, laneFails ls made = [] := by
  refine ⟨?_, by rw [otherTiles_leaves h]; rfl, fun ls => ?_⟩
  · rw [laneOthers, otherTiles_leaves h, step4Lanes, List.filterMap_eq_nil_iff]
    intro l _
    cases l.inside <;> rfl
  · rw [laneFails, List.filterMap_eq_nil_iff]
    intro l _
    cases hi : l.inside with
    | none => rfl
    | some x =>
      cases hf : made.find? (fun m => decide (m.1 = x.1)) with
      | none => simp [hf]
      | some y => obtain ⟨p, e, he⟩ := h _ (List.mem_of_find?_eq_some hf); simp [hf, he]

end Sys2Proof.Machine
end

