-- ==== Sys2Proof/Tests/Slice0.lean ====
section
/-! SUPPORT. Tests: words written out from the spec's encodings, ill-formed words that the checks refuse, one-step tests, and a
witness for the hypotheses of every statement. -/

namespace Sys2Proof.Tests
open Machine

/-! ## States for tests -/

/-- The team of width 32 in slot 0 of core 0 is about to issue the word w; everything else is as after reset. -/
def oneWord (w : Nat) : State := placeWord State.reset w

/-- The same, with the team changed. -/
def oneWordOf (f : Team → Team) (w : Nat) : State := (oneWord w).modTeam 0 f

/-- The same, with the team in handler mode. -/
def inHandler (w : Nat) : State := oneWordOf (fun t => { t with handler := true }) w

/-- The conditions of Issues, checked. -/
def issuesB (i : Instr) (s : State) (k : Nat) : Bool :=
  match s.selKey, (s.team k).map (claimWait i) with
  | some k', some t =>
    decide (k' = k) && canIssue t && !halted s k t && classAdmits (hdrClass (curHdr t)) i.op && (i.check3 && dyn3 t i) &&
      (i.check4 && dyn4 s t i) && (pcSnare s k t i).isNone && !((allCodes s k t i).any fun c => (pendingCodes s k).contains c) &&
      t.poison.isEmpty
  | _, _ => false

/-- The check says that the word issues. -/
theorem issues_of {i : Instr} {s : State} {k : Nat} (h : issuesB i s k = true) :
    ∃ t, (s.team k).map (claimWait i) = some t ∧ Issues i s k t := by
  unfold issuesB at h
  split at h
  · rename_i k' t h1 h2
    simp only [Bool.and_eq_true, Bool.not_eq_true', decide_eq_true_eq, Option.isNone_iff_eq_none, List.isEmpty_iff] at h
    obtain ⟨⟨⟨⟨⟨⟨⟨⟨a, b⟩, c⟩, d⟩, e⟩, f⟩, g⟩, x⟩, p⟩ := h
    refine ⟨t, h2, a ▸ h1, h2, b, c, d, ?_, ?_, g, x, ?_⟩
    · simpa using e
    · simpa using f
    · intro q hq; rw [p] at hq; cases hq
  · cases h

/-- Each of some words issues in its state. -/
def issueAll (st : Nat → State) (ws : List Nat) : Bool := ws.all fun w => issuesB (parse (BitVec.ofNat 64 w)) (st w) 0

theorem each_issues {st : Nat → State} {ws : List Nat} (h : issueAll st ws = true) :
    ∀ w ∈ ws, ∃ t, Issues (parse (BitVec.ofNat 64 w)) (st w) 0 t := fun w hw =>
  let ⟨t, _, h'⟩ := issues_of (List.all_eq_true.mp h w hw); ⟨t, h'⟩

set_option maxRecDepth 8000
set_option Elab.async false

/-! ## Hypotheses of the statements: words that issue -/

/-- Words of add, sub, neg, abs, min, max, clamp, mul, mulhi, mad, madw, sad. -/
theorem witness_IntegerArithmetic_words : (∀ w ∈ ([0x00380800007fc400, 0x00b80800007fd801, 0x01380806ffffd800, 0x017a0502ffffcc00, 0x01b80800817fe000, 0x01f80008817fcc00,
      0x0238010204018800, 0x027a0904817fc800, 0x02b80c04817fc400, 0x02f80c0481410c00, 0x0338080400020800, 0x03780c0003011c00] : List Nat), ∃ t, Issues (parse (BitVec.ofNat 64 w)) (oneWord w) 0 t) :=
  each_issues (by decide)

/-- Words of addc, subb. -/
theorem witness_CarryChains_words : (∀ w ∈ ([0x0078010403505000, 0x00f8010403505000] : List Nat), ∃ t, Issues (parse (BitVec.ofNat 64 w)) (oneWord w) 0 t) :=
  each_issues (by decide)

/-- Words of and, or, xor, andn, not, shl, shr, sar, rot, funnel. -/
theorem witness_LogicAndShifts_words : (∀ w ∈ ([0x03b80004047fc000, 0x03f80804007fc000, 0x04380d02007fc000, 0x04780006827fc000, 0x04b80004ffffc000, 0x04f80902827fd000,
      0x05380000047fc000, 0x057a0504827fd000, 0x05b80008817fd000, 0x05f8000081410000] : List Nat), ∃ t, Issues (parse (BitVec.ofNat 64 w)) (oneWord w) 0 t) :=
  each_issues (by decide)

/-- Words of bfx, bfi, popc, clz, ctz, brev, perm, dp4. -/
theorem witness_BitFieldsCountsPermutes_words : (∀ w ∈ ([0x0638080481021000, 0x06780c0004019000, 0x06b80008ffffc000, 0x06f80804ffffc000, 0x073a0504ffffc000, 0x07781006ffffd000,
      0x07b8080881020000, 0x09b8010204010400] : List Nat), ∃ t, Issues (parse (BitVec.ofNat 64 w)) (oneWord w) 0 t) :=
  each_issues (by decide)

/-- Words of sel, cmp, mov, movi, moviHi, lea, sxt, zxt, addi, andi, ori, cmpi. -/
theorem witness_SelectCompareMove_words : (∀ w ∈ ([0x07f8110202504000, 0x083a8302817fc804, 0x08780008ffffc000, 0x08ba05ffffc09c00, 0x08ba05020440800b, 0x08f80d04827fd00f,
      0x093a0902ffffc008, 0x09780904ffffc001, 0x09f80c0082508009, 0x0a380006a1413801, 0x0a780102037fc400, 0x0aba840400001002] : List Nat), ∃ t, Issues (parse (BitVec.ofNat 64 w)) (oneWord w) 0 t) :=
  each_issues (by decide)

/-- Words of fadd, fsub, fmul, ffma, fscale, fdot2, fpma. -/
theorem witness_FloatArithmetic_words : (∀ w ∈ ([0x20380006817fec00, 0x20780800817fe400, 0x20b80c00817fed68, 0x20f808040401280d, 0x24b81000817ffc00, 0x25b8000681002c09,
      0x25f8000003003e59] : List Nat), ∃ t, Issues (parse (BitVec.ofNat 64 w)) (oneWord w) 0 t) :=
  each_issues (by decide)

/-- Words of fmin, fmax, fminl, fmaxl, fcmp, fclass. -/
theorem witness_FloatMinMaxCompareClass_words : (∀ w ∈ ([0x21381008027fec00, 0x21781104047fe800, 0x21b80804007fe400, 0x21f80102037ff000, 0x223a82080450a40d, 0x22780c06ffffec00] : List Nat), ∃ t, Issues (parse (BitVec.ofNat 64 w)) (oneWord w) 0 t) :=
  each_issues (by decide)

/-- Words of frcp, frsq, fsqrt, fexp2, flog2, fsin, fcos, ftanh. -/
theorem witness_FloatApproximationsAndRoots_words : (∀ w ∈ ([0x22b80902ffffe800, 0x22f80008fffff000, 0x23380c06ffffe800, 0x23780c08ffffe400, 0x23b81102ffffe800, 0x23f81104ffffe800,
      0x243a0502ffffe400, 0x24780008ffffe800] : List Nat), ∃ t, Issues (parse (BitVec.ofNat 64 w)) (oneWord w) 0 t) :=
  each_issues (by decide)

/-- Words of fexpo, ffract, frnd, cvt. -/
theorem witness_FloatRoundAndConvert_words : (∀ w ∈ ([0x24fa0904ffffe800, 0x25380000ffffe800, 0x25780104fffff000, 0x26380004ffffde39] : List Nat), ∃ t, Issues (parse (BitVec.ofNat 64 w)) (oneWord w) 0 t) :=
  each_issues (by decide)

/-- Words of qnt, dqnt, smx, relbk. -/
theorem witness_QuantiseSoftmaxBuckets_words : (∀ w ∈ ([0x2678000881022400, 0x26b80d02007fe400, 0x26f810048240a400, 0x27380c04047fc400] : List Nat), ∃ t, Issues (parse (BitVec.ofNat 64 w)) (oneWord w) 0 t) :=
  each_issues (by decide)

/-- Words of brc, ret, jmpi, bra, call. -/
theorem witness_TransfersAndCalls_words : (∀ w ∈ ([0x40ba0502ff800000, 0x413bffffffffc000, 0x417bff02ffffc000, 0x407bfffffa1c0000, 0x40fbfffffa1c0000] : List Nat), ∃ t, Issues (parse (BitVec.ofNat 64 w)) (oneWord w) 0 t) :=
  each_issues (by decide)

/-- Words of mandn, pmov, por, pxor, pfirst, mpush, mpop, mand, melse, pand, pnot, pcnt. -/
theorem witness_MasksAndPredicates_words : (∀ w ∈ ([0x42bbff42ffffc000, 0x43ba8204ffffc000, 0x443a8342a17fc000, 0x447a8541a17fc000, 0x45380d42ffffc000, 0x41fa83ffffffc000,
      0x423bff41ffffc000, 0x427bff41ffffc000, 0x42fbff41ffffc000, 0x43fa8341a0ffc000, 0x44ba8341ffffc000, 0x44f81141ffffc000] : List Nat), ∃ t, Issues (parse (BitVec.ofNat 64 w)) (oneWord w) 0 t) :=
  each_issues (by decide)

/-- Words of exit, exitTeam. -/
theorem witness_ExitRemovesLanesOrEndsTeam_words : (∀ w ∈ ([0x41bbffffffffc000, 0x41bbffffffffc001] : List Nat), ∃ t, Issues (parse (BitVec.ofNat 64 w)) (oneWord w) 0 t) :=
  each_issues (by decide)

/-- Words of sleep, nop, yield. -/
theorem witness_NopYieldSleep_words : (∀ w ∈ ([0x437bffff04410000, 0x403bffffffffc000, 0x433bffffffffc000] : List Nat), ∃ t, Issues (parse (BitVec.ofNat 64 w)) (oneWord w) 0 t) :=
  each_issues (by decide)

/-- Words of vote, ballot, shfl. -/
theorem witness_VotesBallotsShuffles_words : (∀ w ∈ ([0x503a8342ffffc002, 0x507a0942ffffc00e, 0x50b80c00027fc002] : List Nat), ∃ t, Issues (parse (BitVec.ofNat 64 w)) (oneWord w) 0 t) :=
  each_issues (by decide)

/-- Words of rdc, scan, isect. -/
theorem witness_ReductionsScansIntersections_words : (∀ w ∈ ([0x50fa0408ffffc400, 0x51381006ffffc00b, 0x51b8000002410800] : List Nat), ∃ t, Issues (parse (BitVec.ofNat 64 w)) (oneWord w) 0 t) :=
  each_issues (by decide)

/-- Words of ld, ldu. -/
theorem witness_LoadsGo_words : (∀ w ∈ ([0x60380d0481022408, 0x60ba050282010009] : List Nat), ∃ t, Issues (parse (BitVec.ofNat 64 w)) (oneWord w) 0 t) :=
  each_issues (by decide)

/-- Words of st, atom. -/
theorem witness_StoresAndAtomicsGo_words : (∀ w ∈ ([0x6078080802010dab, 0x61780806817fc006] : List Nat), ∃ t, Issues (parse (BitVec.ofNat 64 w)) (oneWord w) 0 t) :=
  each_issues (by decide)

/-- Words of ld, st, atom. -/
theorem witness_AccessChecksComeFirst_words : (∀ w ∈ ([0x60380d0481022408, 0x6078080802010dab, 0x61780806817fc006] : List Nat), ∃ t, Issues (parse (BitVec.ofNat 64 w)) (oneWord w) 0 t) :=
  each_issues (by decide)

/-- Words of ldsp, stsp, atomsp. -/
theorem witness_ScratchpadAccesses_words : (∀ w ∈ ([0x60f811ff02022000, 0x6138080603001485, 0x61bbfe04047fc005] : List Nat), ∃ t, Issues (parse (BitVec.ofNat 64 w)) (oneWord w) 0 t) :=
  each_issues (by decide)

/-- Words of ldsp, stsp, atomsp. -/
theorem witness_OutsideLanesSwitchOff_words : (∀ w ∈ ([0x60f811ff02022000, 0x6138080603001485, 0x61bbfe04047fc005] : List Nat), ∃ t, Issues (parse (BitVec.ofNat 64 w)) (oneWord w) 0 t) :=
  each_issues (by decide)

/-- Words of fence. -/
theorem witness_FenceHasItsOrdersEffects_words : (∀ w ∈ ([0x61fbffffff820000] : List Nat), ∃ t, Issues (parse (BitVec.ofNat 64 w)) (oneWord w) 0 t) :=
  each_issues (by decide)

/-- Words of waitaddr, pfh, msync. -/
theorem witness_WaitaddrHintsAndMsync_words : (∀ w ∈ ([0x623a050281410004, 0x627bff0400003400, 0x517bfe00ffffc000] : List Nat), ∃ t, Issues (parse (BitVec.ofNat 64 w)) (oneWord w) 0 t) :=
  each_issues (by decide)

/-- Words of barArrive, barWait, barTest, barInit, barExpect. -/
theorem witness_BarrierInstructions_words : (∀ w ∈ ([0x80ba0502827fc000, 0x80fbff02827fc002, 0x813a0904817fc000, 0x803bff02827fc000, 0x807bff02817fc000] : List Nat), ∃ t, Issues (parse (BitVec.ofNat 64 w)) (oneWord w) 0 t) :=
  each_issues (by decide)

/-- Words of hbarSync, hbarCnt, hbarArrive, hbarCntFree, hbarWait. -/
theorem witness_ClusterBarriers_words : (∀ w ∈ ([0x817a09ffffffc00e, 0x81bbff02ffffc000, 0x817a0502ffffc02a, 0x81bbffffffffc037, 0x817a0502ffffc04a] : List Nat), ∃ t, Issues (parse (BitVec.ofNat 64 w)) (oneWord w) 0 t) :=
  each_issues (by decide)

/-- Words of rngAwait, rngRelease, seqwait, halo. -/
theorem witness_RingSequenceAndHaloInstructions_words : (∀ w ∈ ([0x883a0904827fc000, 0x887a0902817fc000, 0x88ba090482410000, 0x88fa0502ffffc00f] : List Nat), ∃ t, Issues (parse (BitVec.ofNat 64 w)) (oneWord w) 0 t) :=
  each_issues (by decide)

/-- Words of slotClaim, slotLoad, slotStore, slotZero, slotRd, slotWr, mma, slotRelease. -/
theorem witness_SlotInstructions_words : (∀ w ∈ ([0x903a09ffffffc00e, 0x90bbff02817fc007, 0x90fbff0282410008, 0x913bffffffffc001, 0x91780d04ffffc00e, 0x91bbff04047fc00a,
      0x91fa8542827fc002, 0x907bffffffffc000] : List Nat), ∃ t, Issues (parse (BitVec.ofNat 64 w)) (oneWord w) 0 t) :=
  each_issues (by decide)

/-- Words of volLd, volProbe, volSync, volInv. -/
theorem witness_VolumeReadsAndProbes_words : (∀ w ∈ ([0xa0380804817fd000, 0xa0f80808817fc000, 0xa1fbffffffffc00d, 0xa23bffff817fc000] : List Nat), ∃ t, Issues (parse (BitVec.ofNat 64 w)) (oneWord w) 0 t) :=
  each_issues (by decide)

/-- Words of volSt, volAtom, volAlloc, volFree, volFmt. -/
theorem witness_VolumeWritesAndTheCymbal_words : (∀ w ∈ ([0xa07bfe0481410000, 0xa0b80c048140800c, 0xa13bfe08817fc000, 0xa17bfe06817fc000, 0xa1b80000827fc000] : List Nat), ∃ t, Issues (parse (BitVec.ofNat 64 w)) (oneWord w) 0 t) :=
  each_issues (by decide)

/-- Words of sxUnpin, sxLd, sxSt, sxWhere, sxPin, sxNext, sxLen. -/
theorem witness_StitchReads_words : (∀ w ∈ ([0xb07bffff817fc000, 0xb0b80006827fd000, 0xb0f80d0482408000, 0xb1b8100882408000, 0xb03a05ff827fc000, 0xb13a0502ffffc000,
      0xb17a05ff827fc000] : List Nat), ∃ t, Issues (parse (BitVec.ofNat 64 w)) (oneWord w) 0 t) :=
  each_issues (by decide)

/-- Words of sxTrunc, sxSplice, sxAppend, sxFork. -/
theorem witness_StitchEditsAndTheirEngines_words : (∀ w ∈ ([0xb2ba0902ffffc000, 0xb1fa0504ffffc000, 0xb23a0904ffffc000, 0xb27a0502ffffc000] : List Nat), ∃ t, Issues (parse (BitVec.ofNat 64 w)) (oneWord w) 0 t) :=
  each_issues (by decide)

/-- Words of trapSystemCall, rte, rteUp, trapUser. -/
theorem witness_TrapsHandlersAndReturns_words : (∀ w ∈ ([0xc83a05ff00003400, 0xc87bffff00000000, 0xc87bffff00000001, 0xc83a05ff00008001] : List Nat), ∃ t, Issues (parse (BitVec.ofNat 64 w)) (oneWord w) 0 t) :=
  each_issues (by decide)

/-- Words of hbRd, hbWr, hbClr, hbThw, clkLamport, hbFrz, hbLd, hbSt, sysrd, syswr, clk, dgst, halt, frd, fwr. -/
theorem witness_SystemRegistersHistoryAndClocks_words : (∀ w ∈ ([0xc03a050200010000, 0xc07a050200000000, 0xc0bbffff00000004, 0xc13bffff00000006, 0xcafa05ff00000001, 0xc0fbffff00000002,
      0xc17a050200000000, 0xc1ba090200000000, 0xc93a05ff00020000, 0xc97bff0400010000, 0xcafa09ff00000000, 0xcb3a05ff00000000,
      0xcb7bffff00000000] : List Nat), ∃ t, Issues (parse (BitVec.ofNat 64 w)) (oneWord w) 0 t) ∧
    (∀ w ∈ ([0xc8bab1ff01040000, 0xc8fab1ff01040000] : List Nat), ∃ t, Issues (parse (BitVec.ofNat 64 w)) (inHandler w) 0 t) :=
  ⟨each_issues (by decide), each_issues (by decide)⟩

/-- Words of ctxSwapDrop, ctxSave, ctxSwapStage, ctxSwapChain, ctxLoad, ctxSwap. -/
theorem witness_ContextSwapSaveLoad_words : (∀ w ∈ ([0xca3a090200000003, 0xca7a050200000000, 0xca3a090400000000, 0xca3a090400000002, 0xcaba050400000000, 0xca3a090400000001] : List Nat), ∃ t, Issues (parse (BitVec.ofNat 64 w)) (oneWord w) 0 t) :=
  each_issues (by decide)

/-- Words of pgMap, pgInv. -/
theorem witness_JobEnginesAndPages_words : (∀ w ∈ ([0xc9bbff0200000000, 0xc9fbff0400000000] : List Nat), ∃ t, Issues (parse (BitVec.ofNat 64 w)) (oneWord w) 0 t) :=
  each_issues (by decide)

/-! ## A small world: one context with mapped pages, one kernel, one gang -/

/-- A memory that holds little-endian numbers: address, length, value. Where two overlap, the first is there. -/
def cells (xs : List (Nat × Nat × Nat)) : Memory := xs.foldr (fun x m => m.setBytes x.1 (leBytes x.2.1 x.2.2)) []

/-- Four levels of tables (R239) that map pages 0 and 1 to the frames at 0x140000 and 0x180000, readable, writable,
executable, accessed and dirty, page 2 to a
parked leaf and page 3 to a first-touch leaf. -/
def tables : List (Nat × Nat × Nat) :=
  [(0x40000, 8, 0x80001), (0x80000, 8, 0xc0001), (0xc0000, 8, 0x100001), (0x100000, 8, 0x140187), (0x100008, 8, 0x180187),
   (0x100010, 8, 0x0000000000000031), (0x100018, 8, 0x40)]

def packetOne : Packet :=
  { conc := false, digest := false, fuse := false, polTeam := 0, polGang := 0, polKernel := 0, teams := 1, width := 32, vregs := 256,
    entry := 0, nx := 1, ny := 1, nz := 1, scratch := 65536, sregs := 64, stages := 1, stageMap := 0, fmode := 0, args := 0, digestRec := 0,
    depSeq := 0, depQueue := 0xffff, regions := [] }

def kernelOne : Kernel :=
  { oid := 1, queue := 0, seq := 2, state := .draining, pkt := packetOne, hentry := 0, parent := none, nextGang := 1, lastCluster := some 0, digest := 0,
    serial := false, order := 0, addr := 0, bad := 0 }

def queueOne : Queue :=
  { desc := 0x2000, descPa := 0x142000, prio := 0, state := .running, fault := 0, faultEntry := 0, tail := 0, readPos := 0x3000, readCount := 0, completion := 0,
    enabled := true, pubs := [], seen := [], ended := [], issued := [], waits := [],
    descBad := 0, added := [], owed := [] }

def ctxOne : Ctx :=
  { partition := 0, preempt := true, sched := true, policy := 2, state := .active, roots := [0x40001, 0, 0, 0], queueList := 0x1000, hostRing := 0x4000,
    saveArea := 0x40000, saveSeq := 0, queues := [(0, queueOne)], window := [], halves := [0], listDue := false, wordDue := false, stopClock := 0, releasing := false }

def devOne : Dev := { Dev.reset with featLo := 0xff, ready := true, run := true, go := true }

def partOne : Part := { Part.reset 0 with segHbmBound := 0x40000000, segCxBase := 0x1000000000000, segCxBound := 0x40000000, fbSize := 8, quota := 100, poolHbm := 0x20000 }

def tlbOne : TlbEntry := { oid := 1, large := false, vpn := 0, leafPa := 0x100000, leaf := 0x140187, way := 0 }

/-- The team of a word in a live context with mapped pages, with scratchpad bytes sp and further memory ms. -/
def worldOf (ms sp : List (Nat × Nat × Nat)) (f : Team → Team) (i : Instr) : State :=
  let s := oneWord ((encode i).getD 0).toNat
  let c := s.core 0
  { s.modTeam 0 fun t => f { t with oid := 1, kernel := 1, gang := 1 } with
    mem := cells (tables ++ ms), dev := devOne, parts := [(0, partOne)], ctxs := [(1, ctxOne)], kernels := [(1, kernelOne)],
    gangs := [(1, { kernel := 1, g := 0, oid := 1, cluster := 0, size := 65536, teams := [0], gone := [], killed := false, mem := cells sp })],
    clusters := [(0, { Cluster.reset with tlb := [tlbOne] })],
    cores := [(0, { c with bank0 := { Bank.empty with owner := some 1 } })], nextId := 10 }

def world (i : Instr) : State := worldOf [] [] id i

/-- The team that issues, with its wait claimed. -/
def teamOf (s : State) (i : Instr) : Team := ((s.team 0).map (claimWait i)).getD (Team.blank 32)

/-- The word issues, and more holds of its team. -/
def issuesWith (s : State) (i : Instr) (p : Team → Bool) : Bool := issuesB i s 0 && p (teamOf s i)

def goes : Chk → Bool | .go _ ls => !ls.isEmpty | _ => false
def traps : Chk → Bool | .stop (.trap _ _) => true | _ => false

/-- The conditions of Mapped and of Loadable, checked. -/
def mappedB (s : State) (k : Nat) (t : Team) (acc va pa : Nat) : Bool :=
  !isPeer pa && match tlbFind (s.cluster (clusterOf (keyCore k))) t.oid va with
    | some e => decide (tlbUse s (ctxPart s t.oid) acc va e = some pa ∧ (acc / 2 % 2 = 1 → pteD e.leaf = true))
    | none => false

def loadableB (s : State) (k : Nat) (t : Team) (va pa : Nat) : Bool :=
  match findLine s (keyCore k) t.oid va with
  | some x => decide (pa = 128 * x.2.2.pline + va % 128)
  | none => mappedB s k t accR va pa

theorem mapped_of {s : State} {k : Nat} {t : Team} {acc va pa : Nat} (h : mappedB s k t acc va pa = true) : Mapped s k t acc va pa := by
  unfold mappedB at h
  rw [Bool.and_eq_true, Bool.not_eq_true'] at h
  refine ⟨h.1, ?_⟩
  split at h
  · rename_i e he
    exact ⟨e, he, of_decide_eq_true h.2⟩
  · cases h.2

theorem loadable_of {s : State} {k : Nat} {t : Team} {va pa : Nat} (h : loadableB s k t va pa = true) : Loadable s k t va pa := by
  unfold loadableB at h
  unfold Loadable
  split at h
  · rename_i hx; simpa [hx] using h
  · rename_i hx; simpa [hx] using mapped_of h

def vr (d a b c : Opd) (t : ETy) (m : BitVec 10) : VR := { g := .always, d := d, a := a, b := b, c := c, t := t, m := m }
def mem (d base index : Opd) (size : BitVec 3) : MEM := { g := .always, d := d, base := base, index := index, scope := 0, order := 0, hint := 0, size := size, off := 0 }
def atm (d addr data : Opd) (aop : BitVec 4) : ATM := { g := .always, d := d, addr := addr, data := data, cmp := .none, scope := 0, order := 0, aop := aop, size := 2, noRet := false }
def sys (d a : Opd) (hi lo : BitVec 16) : SYS := { g := .always, d := d, a := a, hi := hi, lo := lo }

/-- The word issues with no request of the team at a peer, and more holds. -/
def issuesFree (s : State) (i : Instr) (p : Team → Bool) : Bool := issuesWith s i p && !peerHold s 0 && !peerOut s 0

def bar (d a b c : Opd) (m : BitVec 10) : VR := vr d a b c .b32 m
def sregs (xs : List (Fin 64 × Nat)) (t : Team) : Team := { t with s := (xs.map fun x => (x.1.val, BitVec.ofNat 64 x.2)) }
def nopW : Instr := .nop (vr .none .none .none .none .b32 0)

/-! ## Records that a word reaches, found by running its checks -/

/-- The condition if it holds. -/
def want {α : Type} (c : Bool) (x : α) : Option α := if c then some x else none

theorem want_of {α : Type} {c : Bool} {x y : α} (h : want c x = some y) : c = true ∧ x = y := by
  unfold want at h
  split at h
  · exact ⟨‹_›, by simpa using h⟩
  · cases h

/-- What a record at an address comes to, if it is reached. -/
def atVa (s : State) (t : Team) (align n acc va : Nat) : Option (State × Nat) :=
  let x := xlatLanes (keyCore 0) (clusterOf (keyCore 0)) t.oid acc [(0, va)] s
  match actOnXlat x.1 0 t acc x.2 with
  | .go s0 [(_, _, pa)] => want (decide (va % align = 0) && !isPeer pa && !badAt (settlePhys s0 0 pa n) pa n) (settlePhys s0 0 pa n, pa)
  | _ => none

theorem reaches_of {s : State} {t : Team} {al n acc va : Nat} {x : State × Nat} (h : atVa s t al n acc va = some x) : Reaches s 0 t al n acc va x.1 x.2 := by
  unfold atVa at h
  dsimp only at h
  split at h
  · rename_i s0 L v pa hg
    obtain ⟨hc, rfl⟩ := want_of h
    simp only [Bool.and_eq_true, decide_eq_true_eq, Bool.not_eq_true'] at hc
    exact ⟨hc.1.1, ⟨s0, L, v, hg, rfl⟩, hc.1.2, hc.2⟩
  · cases h

/-- The same with no data snare for a mask. -/
def reachB (s : State) (t : Team) (m : Mask) (al n acc va : Nat) : Option (State × Nat) :=
  if (wideSnare s 0 t m (reachKind acc n) [(va, n)]).isNone then atVa s t al n acc va else none

theorem reached_of {s : State} {t : Team} {m : Mask} {al n acc va : Nat} {x : State × Nat} (h : reachB s t m al n acc va = some x) :
    Reached s 0 t m al n acc va x.1 x.2 := by
  unfold reachB at h
  split at h
  · rename_i hs
    exact ⟨by simpa using hs, reaches_of h⟩
  · cases h

/-- Pieces that are reached one after the other. -/
def seqB (t : Team) (m : Mask) : List (Nat × Nat × Nat) → State → Table Nat → Option (State × Table Nat)
  | [], s, pg => some (s, pg)
  | (va, n, acc) :: r, s, pg => (reachB s t m 1 n acc va).bind fun x => seqB t m r x.1 (pg.put (va / 2 ^ 18) (x.2 - va % 2 ^ 18))

theorem reachedSeq_of {t : Team} {m : Mask} : ∀ {ws : List (Nat × Nat × Nat)} {s : State} {pg : Table Nat} {x : State × Table Nat},
    seqB t m ws s pg = some x → ReachedSeq 0 t m ws s pg x.1 x.2
  | [], _, _, _, h => by cases h; exact ⟨rfl, rfl⟩
  | (_, _, _) :: _, _, _, _, h => by
    obtain ⟨y, hy, hr⟩ := Option.bind_eq_some_iff.mp h
    exact ⟨y.1, y.2, reached_of hy, reachedSeq_of hr⟩

def allB (s : State) (t : Team) (m : Mask) (ws : List (Nat × Nat × Nat)) (pg : Table Nat) : Option (State × Table Nat) := seqB t m (pageWords ws) s pg

/-- The header that a handle names. -/
def hdrB (s : State) (t : Team) (m : Mask) (va : Nat) : Option (State × SHdr) :=
  (reachB s t m 128 128 accR va).bind fun x => want (stHdr x.1 va x.2).good (x.1, stHdr x.1 va x.2)

theorem header_of {s : State} {t : Team} {m : Mask} {va : Nat} {x : State × SHdr} (h : hdrB s t m va = some x) : HeaderGoes s 0 t m va x.1 x.2 := by
  obtain ⟨y, hy, hr⟩ := Option.bind_eq_some_iff.mp h
  obtain ⟨hg, rfl⟩ := want_of hr
  exact ⟨y.2, reached_of hy, rfl, hg⟩

/-- The version of a record and a header. -/
def verOf (s : State) (pa : Nat) (tok : W64) (h : SHdr) : SVer :=
  let f := fun (o n : Nat) => homeNat s (pa + o) n
  { va := extVA (tok &&& ~~~ 0xfff#64), total := f 8 8, count := f 16 2, pins := if f 28 1 = 1 then h.pins else f 24 4, hdr := h }

/-- The version that a token names. -/
def namesB (s : State) (t : Team) (m : Mask) (tok : W64) : Option (State × SVer) :=
  (reachB s t m 4096 64 accR (extVA (tok &&& ~~~ 0xfff#64))).bind fun x =>
    let f := fun (o n : Nat) => homeNat x.1 (x.2 + o) n;
    (hdrB x.1 t m (xva (f 0 8))).bind fun y =>
      want (decide ((f 28 1 = 1 ∨ f 28 1 = 2) ∧ f 18 2 % 4096 = t.oid ∧ f 20 4 % 4096 = tok.toNat % 4096)) (y.1, verOf x.1 x.2 tok y.2)

theorem names_of {s : State} {t : Team} {m : Mask} {tok : W64} {x : State × SVer} (h : namesB s t m tok = some x) : TokenNames s 0 t m tok x.1 x.2 := by
  obtain ⟨y, hy, hr⟩ := Option.bind_eq_some_iff.mp h
  obtain ⟨z, hz, hr⟩ := Option.bind_eq_some_iff.mp hr
  obtain ⟨hc, rfl⟩ := want_of hr
  obtain ⟨h1, h2, h3⟩ := of_decide_eq_true hc
  exact ⟨y.1, y.2, z.2, reached_of hy, h1, h2, h3, header_of hz, rfl⟩

def tokenB (s : State) (t : Team) (m : Mask) (tok : W64) : Option (State × SVer) := (namesB s t m tok).bind fun x => want (decide (x.2.pins ≠ 0)) x

theorem token_of {s : State} {t : Team} {m : Mask} {tok : W64} {x : State × SVer} (h : tokenB s t m tok = some x) : TokenGoes s 0 t m tok x.1 x.2 := by
  obtain ⟨y, hy, hr⟩ := Option.bind_eq_some_iff.mp h
  obtain ⟨hc, rfl⟩ := want_of hr
  exact ⟨names_of hy, of_decide_eq_true hc⟩

/-- The references of a version. -/
def refsB (s : State) (t : Team) (m : Mask) (va n : Nat) : Option (State × Table Nat × List (Nat × Nat)) :=
  (allB s t m [(va + 64, 16 * n, accR)] []).map fun x => (x.1, x.2, verRefs x.1 t.oid x.2 va n)

theorem refs_of {s : State} {t : Team} {m : Mask} {va n : Nat} {x : State × Table Nat × List (Nat × Nat)} (h : refsB s t m va n = some x) :
    RefsGo s 0 t m va n x.1 x.2.1 x.2.2 := by
  obtain ⟨y, hy, rfl⟩ := Option.map_eq_some_iff.mp h
  exact ⟨reachedSeq_of hy, rfl⟩

/-- The elements of sx.ld or sx.st. -/
def elementsB (s : State) (t : Team) (f : VR) (acc : Nat) : Option (State × Nat × List (Nat × Nat)) :=
  let m := resumedLanes t f.g
  let lanes := maskLanes m t.width;
  (tokenB s t m (opdS s 0 t f.b)).bind fun x => (refsB x.1 t m x.2.va x.2.count).bind fun y =>
    let hs := sxHits y.1 0 t f y.2.2 x.2.total lanes;
    (allB y.1 t m ((hitRecs hs).map fun p => (xva p, 64, accR)) y.2.1).bind fun z =>
      let e := x.2.hdr.size
      let xs := hs.map fun h => (h.1, xva (pieceNat z.1 t.oid z.2 h.2.1 0 8 + e * h.2.2.2));
      want (decide (lanes ≠ [] ∧ opdS s 0 t f.b ≠ 0 ∧ sxSnare (drain s 0 t) 0 t f m (if acc = accR then 1 else 2) lanes = none ∧ decide (f.t = .n64) = decide (x.2.hdr.size = 8) ∧ (∀ L ∈ lanes, sxIndex x.1 0 t f L < x.2.total) ∧
        dataSnare z.1 0 t (if acc = accR then 1 else 2) e xs = none)) (z.1, e, xs)

theorem elements_of {s : State} {t : Team} {f : VR} {acc : Nat} {x : State × Nat × List (Nat × Nat)} (h : elementsB s t f acc = some x) :
    ElementsGo s 0 t f acc x.1 x.2.1 x.2.2 := by
  obtain ⟨a, ha, h⟩ := Option.bind_eq_some_iff.mp h
  obtain ⟨b, hb, h⟩ := Option.bind_eq_some_iff.mp h
  obtain ⟨c, hc, h⟩ := Option.bind_eq_some_iff.mp h
  obtain ⟨hd, rfl⟩ := want_of h
  obtain ⟨h1, h2, h0, h3, h4, h5⟩ := of_decide_eq_true hd
  exact ⟨a.1, a.2, b.1, b.2.1, b.2.2, c.2, h1, h2, h0, token_of ha, h3, h4, refs_of hb, ⟨reachedSeq_of hc, rfl, rfl⟩, h5⟩

/-- The words of an unpin. -/
def unpinB (s : State) (t : Team) (m : Mask) (v : SVer) (pins : Nat × Nat × Nat) : Option (State × Table Nat × List (Nat × Nat)) :=
  (refsB s t m v.va v.count).bind fun x => (allB x.1 t m (unpinRecords v pins x.2.2) x.2.1).bind fun y =>
    (allB y.1 t m (unpinCounts y.1 t.oid y.2 v x.2.2) y.2).map fun z => (z.1, z.2, x.2.2)

theorem unpin_of {s : State} {t : Team} {m : Mask} {v : SVer} {pins : Nat × Nat × Nat} {x : State × Table Nat × List (Nat × Nat)} (h : unpinB s t m v pins = some x) :
    UnpinGoes s 0 t m v pins x.1 x.2.1 x.2.2 := by
  obtain ⟨a, ha, h⟩ := Option.bind_eq_some_iff.mp h
  obtain ⟨b, hb, h⟩ := Option.bind_eq_some_iff.mp h
  obtain ⟨c, hc, rfl⟩ := Option.map_eq_some_iff.mp h
  exact ⟨a.1, a.2.1, b.1, b.2, refs_of ha, reachedSeq_of hb, reachedSeq_of hc⟩

/-- The words of step 1 of an edit. -/
def editB (s : State) (t : Team) (m : Mask) (h : SHdr) (pieces pools : List Nat) (pg : Table Nat) : Option (State × Table Nat) :=
  (allB s t m (editRecords h pools) pg).bind fun a => (allB a.1 t m (editPieces a.1 t.oid a.2 pieces pools) a.2).bind fun b =>
    allB b.1 t m (editCounts b.1 t.oid b.2 pieces) b.2

theorem edit_of {s : State} {t : Team} {m : Mask} {h : SHdr} {pieces pools : List Nat} {pg : Table Nat} {x : State × Table Nat}
    (hx : editB s t m h pieces pools pg = some x) : EditGoes s 0 t m h pieces pools pg x.1 x.2 := by
  obtain ⟨a, ha, hx⟩ := Option.bind_eq_some_iff.mp hx
  obtain ⟨b, hb, hx⟩ := Option.bind_eq_some_iff.mp hx
  exact ⟨a.1, a.2, b.1, b.2, reachedSeq_of ha, reachedSeq_of hb, reachedSeq_of hx⟩

/-- The block of a version with references. -/
def blockB (s : State) (t : Team) (m : Mask) (h : SHdr) (pg : Table Nat) : Option (State × Table Nat × Nat) :=
  match peekPool s t.oid pg h.vpool (blockBytes h.max) 4096 with
  | .got b => (allB s t m [(xva b, blockBytes h.max, accW)] pg).map fun x => (x.1, x.2, b)
  | _ => none

theorem block_of {s : State} {t : Team} {m : Mask} {h : SHdr} {refs : List (Nat × Nat)} {pg : Table Nat} {x : State × Table Nat × Nat} (hr : refs ≠ [])
    (hx : blockB s t m h pg = some x) : BlockGoes s 0 t m h refs pg x.1 x.2.1 x.2.2 := by
  unfold blockB at hx
  unfold BlockGoes
  rw [if_neg hr]
  split at hx
  · rename_i b hb
    obtain ⟨y, hy, rfl⟩ := Option.map_eq_some_iff.mp hx
    exact ⟨hb, reachedSeq_of hy⟩
  · cases hx

/-- Step 4 of R268 passes. -/
def step4B (s : State) (d : VDesc) (need : VNeed) (ls : List VLane) (ts : List VTile) : Bool :=
  (ls.all fun l => match l.inside with | some y => (match findTile ts y.1 with | some v => (tileFault s d need v y.2).isNone | none => true) | none => true) &&
    ts.all fun v => match v.walk with | .busy _ _ => false | _ => true

theorem step4_of {s : State} {d : VDesc} {need : VNeed} {ls : List VLane} {ts : List VTile} (h : step4B s d need ls ts = true) : StepFour s d need ls ts := by
  rw [step4B, Bool.and_eq_true, List.all_eq_true, List.all_eq_true] at h
  refine ⟨fun l hl x hx v hv => ?_, fun v hv pa e he => ?_⟩
  · have := h.1 l hl
    simpa [hx, hv] using this
  · have := h.2 v hv
    simp [he] at this

/-- What a vol word's steps 2 to 4 come to, if they pass. -/
def volB (s : State) (t : Team) (f : VR) (acc : Nat) (size : Nat → Bool) (need : VNeed) (cas : VDesc → W64 → Bool) : Option (State × VDesc × List VLane × List VTile) :=
  let m := resumedLanes t f.g
  let va := extVA (opdS s 0 t f.b);
  if decide (maskLanes m t.width ≠ []) && !peerHold s 0 && (wideSnare s 0 t m (reachKind acc 128) [(va, 128)]).isNone then
    (atVa s t 128 128 acc va).bind fun x =>
      let d := volDesc x.1 (ctxPart s t.oid) va x.2
      let ls := (maskLanes m t.width).map (volLane s 0 t d f.a)
      let a := volTiles 0 t d (tilesOf ls) x.1
      let b := freshTiles 0 t d (cas d) a.2 a.1;
      want (volDescOk x.1 d && size d.e && step4B a.1 d need ls a.2 && step4B b.1 d need ls b.2) (b.1, d, ls, b.2)
  else none

theorem vol_of {s : State} {t : Team} {f : VR} {acc : Nat} {size : Nat → Bool} {need : VNeed} {cas : VDesc → W64 → Bool} {x : State × VDesc × List VLane × List VTile}
    (h : volB s t f acc size need cas = some x) : VolGoes s 0 t f acc size need cas x.1 x.2.1 x.2.2.1 x.2.2.2 := by
  unfold volB at h
  dsimp only at h
  split at h
  · rename_i hc
    simp only [Bool.and_eq_true, decide_eq_true_eq, Bool.not_eq_true', Option.isNone_iff_eq_none] at hc
    obtain ⟨y, hy, hr⟩ := Option.bind_eq_some_iff.mp h
    obtain ⟨hd, rfl⟩ := want_of hr
    simp only [Bool.and_eq_true] at hd
    exact ⟨y.1, y.2, _, _, ⟨hc.1.1, hc.1.2, hc.2, reaches_of hy⟩, rfl, hd.1.1.1, hd.1.1.2, rfl, rfl, step4_of hd.1.2, rfl, step4_of hd.2⟩
  · cases h

/-- Something is found, and more holds of it. -/
theorem found {α : Type} {o : Option α} {p : α → Bool} (h : o.any p = true) : ∃ x, o = some x ∧ p x = true := by
  cases o with
  | none => cases h
  | some x => exact ⟨x, rfl, h⟩

/-! ## Hypotheses of the statements: encodings, numbers, steps -/

theorem witness_DecodeAndEncodeAgree : ∃ i w, Instr.wellFormed i = true ∧ encode i = some w :=
  ⟨.add (vr (.v 5) (.v 4) (.v 6) .none .i32 0), 0x00380a04037fc400, by decide +kernel, by decide +kernel⟩

/-- A float word of a team outside handler mode, and in handler mode with its traps enabled and no exception in any lane; a return whose
target is no multiple of 8. -/
theorem witness_FloatArithmetic :
    (let f := vr (.v 5) (.v 4) (.v 6) .none .f32 0x80
      let st := fun (h : Bool) => worldOf [] [] (fun t => { t with handler := h, fmode := 0x1f00 }) (.fadd f);
      issuesWith (st false) (.fadd f) (fun t => decide (t.handler = false)) = true ∧
      issuesWith (st true) (.fadd f) (fun t => (maskLanes (lanesOf t f.g) t.width).all fun L =>
        decide ((perElement (fun fm v a b _ => deliverF fm v [(fm, a), (fm, b)] (addF v.rm (unpack fm a) (unpack fm b))) f 0 t (st true) L).2 &&& trapEnables t = 0)) = true) ∧
    (let i : Instr := .ret (vr .none .none .none .none .b32 0);
      issuesWith (worldOf [] [] (fun t => { t with s := [(63, 4)] }) i) i (fun t => decide ((t.sreg 63).toNat % 8 ≠ 0)) = true) :=
  ⟨⟨by decide +kernel, by decide +kernel⟩, by decide +kernel⟩

/-- A word of OP 0x380 outside handler mode with a handler and its store free, and the same in handler mode. -/
theorem witness_WordsOutsideTheMapTrap :
    let i : Instr := .translationRangeWord 0xe000000000000000
    let s := { world i with kernels := [(1, { kernelOne with hentry := 0x100 })] }
    let s2 := worldOf [] [] (fun t => { t with handler := true }) i
    (∃ t, s.selKey = some 0 ∧ s.team 0 = some t ∧ canIssue t = true ∧ halted s 0 t = false ∧ t.handler = false ∧ hentry s t ≠ 0 ∧ storeFree s 0 = true ∧ olderEntering s 0 t = false) ∧
    (∃ t, s2.selKey = some 0 ∧ s2.team 0 = some t ∧ canIssue t = true ∧ halted s2 0 t = false ∧ t.handler = true) :=
  ⟨⟨_, by decide +kernel, rfl, by decide +kernel, by decide +kernel, by decide +kernel, by decide +kernel, by decide +kernel, by decide +kernel⟩, ⟨_, by decide +kernel, rfl, by decide +kernel, by decide +kernel, by decide +kernel⟩⟩

theorem witness_StepRunsTheDecodedInstruction :
    let i : Instr := .add (vr (.v 5) (.v 4) (.v 6) .none .i32 0)
    let s := world i
    (∃ t, nextTurn s = .issue 0 0 ∧ (takeTurn s 0 0).selKey = some 0 ∧ s.team 0 = some t ∧ t.clause ≠ [] ∧ decode (curWord t) = .ok i) ∧
    nextTurn { s with turns := [.event 0 0 .gong] } = .event 0 0 .gong ∧ nextTurn { s with turns := [.advance 1 1] } = .advance 1 1 :=
  ⟨⟨_, by decide +kernel, by decide +kernel, rfl, by decide +kernel, by rfl⟩, by decide +kernel, by decide +kernel⟩

theorem witness_CommitMovesOn : ∃ s t t1, State.team s 0 = some t1 ∧ SameClause t t1 ∧ lastWord t = true :=
  ⟨world (.nop (vr .none .none .none .none .b32 0)), _, _, rfl, ⟨rfl, rfl, rfl, rfl, rfl⟩, by decide +kernel⟩

theorem witness_ResultsGoToTheirDestination : ∃ t, (world (.nop (vr .none .none .none .none .b32 0))).team 0 = some t := ⟨_, rfl⟩

/-- A class that does not admit the word, a bad modifier, a bad operand, a matching PC snare and a lost register. -/
theorem witness_ChecksComeInOrder :
    let i : Instr := .add (vr (.v 5) (.v 4) (.v 6) .none .i32 0)
    let ready := fun (j : Instr) (s : State) => decide (j.op < 1024 ∧ opAssigned j.op = true ∧ s.selKey = some 0) && canIssue (teamOf s j) && !halted s 0 (teamOf s j)
    let passes := fun (s : State) => classAdmits (hdrClass (curHdr (teamOf s i))) i.op && (i.check3 && dyn3 (teamOf s i) i) && (i.check4 && dyn4 s (teamOf s i) i)
    let fl : Instr := .fadd (vr (.v 5) (.v 4) (.v 6) .none .f32 0)
    let other := worldOf [] [] (fun t => { t with clause := [headerFor 2, (encode fl).getD 0] }) i
    let snared := { world i with cores := [(0, { (world i).core 0 with snares := [(0x20, 8), (0x30, 0x80001000ffffffff)] })] }
    let lost := worldOf [] [] (fun t => { t with poison := [{ regs := [7], word := 1, hdr := 0, addr := 0 }, { regs := [4], word := 0, hdr := 0, addr := 0 }] }) i;
    (ready fl other && !classAdmits (hdrClass (curHdr (teamOf other fl))) fl.op) = true ∧
    (let j : Instr := .add (vr (.v 5) (.v 4) (.v 6) .none .f32 0);
      ready j (world j) && classAdmits (hdrClass (curHdr (teamOf (world j) j))) j.op && !(j.check3 && dyn3 (teamOf (world j) j) j)) = true ∧
    (let j : Instr := .add (vr (.v 5) (.p 4) (.v 6) .none .i32 0);
      ready j (world j) && classAdmits (hdrClass (curHdr (teamOf (world j) j))) j.op && (j.check3 && dyn3 (teamOf (world j) j) j) && !(j.check4 && dyn4 (world j) (teamOf (world j) j) j)) = true ∧
    (ready i (world i) && passes (world i)) = true ∧
    (ready i snared && passes snared && (pcSnare snared 0 (teamOf snared i) i).isSome) = true ∧
    (ready i lost && passes lost && ((teamOf lost i).poison.find? fun p => (readCodes lost 0 (teamOf lost i) i).any p.regs.contains).isSome) = true :=
  ⟨by decide +kernel, by decide +kernel, by decide +kernel, by decide +kernel, by decide +kernel, by decide +kernel⟩

theorem witness_FitWrapsOrClamps : ETy.i32.isInt = true ∧ ETy.n64.isInt = true := by decide +kernel
theorem witness_RoundingIsNearestOrDirected : (3 : Nat) < 4 ∧ (0 : Int) < 1 := by decide +kernel
theorem witness_ExactValuesRoundToThemselves :
    fmtF32 ∈ [fmtF64, fmtF32, fmtF16, fmtBf16, fmtE4m3, fmtE5m2] ∧ 0x3f800000 < 2 ^ fmtF32.width ∧ isNaN fmtF32 0x3f800000 = false ∧
      (fenv (Team.blank 32) 0).sat = false ∧ (fenv (Team.blank 32) 0).ftzo = false := by decide +kernel

/-! ## Hypotheses of the statements: memory -/

theorem witness_HomeSlicesHoldWhatWasStored :
    badAt State.reset 0x100 8 = false ∧ 0x100 + 8 ≤ 2 ^ 48 ∧ badAt State.reset (2 ^ 48) 8 = false ∧ 2 ^ 48 ≤ 2 ^ 48 := by decide +kernel

def lineOne : Line :=
  { vline := 0, pline := 0x2800, oid := 1, rrv := 3, sig := 0, reused := false, dirty := 0xf, since := 0, leaving := false, writer := 0, data := 0x04030201 }
/-- A state whose core 0 holds a line. -/
def withLine (l : Line) (s : State) : State := { s with cores := [(0, { s.core 0 with l1 := [(0, l)] })] }
/-- Nothing at a peer holds the team. -/
def free (s : State) (order : Nat) : Bool := !peerHold s 0 && !(ordRel order && peerOut s 0)

/-- Loads whose page the TLB has, whose line the L1 has, and whose page a walk finds, of a vector and of a scalar. -/
theorem witness_LoadsGo :
    (let f := mem (.v 4) (.s 2) (.v 1) 2
      let p := fun (s : State) (go : Team → List (Nat × Nat) → Bool) => issuesWith s (.ld f) fun t =>
        let lanes := laneAddrs (maskLanes (lanesOf t f.g) t.width) (memAddr s 0 t f);
        free s 0 && (dataSnare s 0 t 1 4 lanes).isNone && !lanes.isEmpty && go t lanes
      let s := world (.ld f)
      let sL := withLine lineOne s
      let sW := { s with clusters := [] };
      p s (fun t lanes => lanes.all fun q => decide (q.2 % 4 = 0 ∧ demandMisses s 0 ≤ 32) && loadableB s 0 t q.2 0x140000) &&
      p sL (fun t lanes => lanes.all fun q => decide (q.2 % 4 = 0 ∧ (findLine sL 0 t.oid q.2).isSome) && loadableB sL 0 t q.2 0x140000) &&
      p sW (fun t lanes => match checkLoad sW 0 t 4 lanes with
        | .go s1 ls => !(takesMisses f && missStall s1 0 t ls) && !ls.isEmpty
        | _ => false)) = true ∧
    (let f := mem (.s 4) (.s 2) .none 2
      let s := world (.ldu f);
      issuesWith s (.ldu f) fun t => let va := memAddr s 0 t f ((maskFirst (lanesOf t f.g) t.width).getD 0);
        free s 0 && (wideSnare s 0 t (lanesOf t f.g) 1 [(va, 4)]).isNone && decide (va % 4 = 0 ∧ demandMisses s 0 ≤ 32) && loadableB s 0 t va 0x140000) = true :=
  ⟨by decide +kernel, by decide +kernel⟩

def loadOne : Load := { team := 0, word := 0, hdr := 0, dst := .v 4, size := 4, lanes := [{ lane := 3, va := 0, pa := 0x140000, data := some [1, 2, 3, 4], bad := false }], hint := 0, sig := 0 }

theorem witness_LoadedDataReachesRegisters :
    let s := { world (.nop (vr .none .none .none .none .b32 0)) with loads := [(5, loadOne)] }
    ∃ t, s.loads.find 5 = some loadOne ∧ s.team loadOne.team = some t ∧ (∀ x ∈ loadOne.lanes, x.bad = false ∧ ∃ bs, x.data = some bs ∧ bs.length = loadOne.size) ∧
      loadOne.size ∈ [1, 2, 4, 8, 16] ∧ 3 < t.width ∧ s.loads.find 6 = none := by
  refine ⟨_, rfl, rfl, fun x hx => ?_, by decide +kernel, by decide +kernel, by decide +kernel⟩
  cases List.mem_singleton.mp hx
  exact ⟨rfl, _, rfl, rfl⟩

theorem witness_StoresAndAtomicsGo :
    (let f := mem (.v 4) (.s 2) (.v 1) 2
      let s := world (.st f);
      issuesWith s (.st f) fun t => let lanes := laneAddrs (maskLanes (lanesOf t f.g) t.width) (memAddr s 0 t f);
        free s 0 && (dataSnare s 0 t 2 4 lanes).isNone && !lanes.isEmpty && decide (demandMisses s 0 ≤ 32) &&
          (lanes.all fun q => decide (q.2 % 4 = 0) && mappedB s 0 t accW q.2 0x140000) && goes (checkLanes s 0 t 4 accW lanes)) = true ∧
    (let f := atm (.v 4) (.v 8) (.v 6) 0
      let s := world (.atom f);
      issuesWith s (.atom f) fun t => let lanes := laneAddrs (maskLanes (lanesOf t f.g) t.width) fun L => extVA (opd s 0 t true f.addr L);
        free s 0 && (dataSnare s 0 t 3 4 lanes).isNone && !lanes.isEmpty &&
          (lanes.all fun q => decide (q.2 % 4 = 0) && mappedB s 0 t (accR + accW) q.2 0x140000) && goes (permLanes s 0 t 4 (accR + accW) lanes)) = true :=
  ⟨by decide +kernel, by decide +kernel⟩

/-- A misaligned lane, and an unmapped one whose failure is taken as a trap. -/
theorem witness_AccessChecksComeFirst :
    (let f := mem (.v 4) (.s 2) .none 2
      let s := worldOf [] [] (fun t => { t with s := [(2, 1)] }) (.ld f);
      issuesWith s (.ld f) fun t => let lanes := laneAddrs (maskLanes (lanesOf t f.g) t.width) (memAddr s 0 t f);
        free s 0 && (dataSnare s 0 t 1 4 lanes).isNone && (lanes.find? fun p => decide (p.2 % 4 ≠ 0)).isSome) = true ∧
    (let f := mem (.v 4) (.s 2) .none 2
      let s := worldOf [] [] (fun t => { t with s := [(2, 0xc0000)] }) (.st f);
      issuesWith s (.st f) fun t => let lanes := laneAddrs (maskLanes (lanesOf t f.g) t.width) (memAddr s 0 t f);
        free s 0 && (dataSnare s 0 t 2 4 lanes).isNone && traps (checkLanes s 0 t 4 accW lanes)) = true := ⟨by decide +kernel, by decide +kernel⟩

theorem witness_AtomicsReadModifyWrite :
    let s := world (.nop (vr .none .none .none .none .b32 0))
    badAt s 0x140000 4 = false ∧ findLine s 0 1 0 = none ∧ (∃ e, tlbFind (s.cluster 0) 1 0 = some e ∧ pteD e.leaf = true) :=
  ⟨by decide +kernel, by decide +kernel, _, rfl, by decide +kernel⟩

theorem witness_ScratchpadAccesses :
    (let f := mem (.v 4) (.s 2) (.v 1) 2
      let s := world (.ldsp f);
      issuesWith s (.ldsp f) fun t => let lanes := laneAddrs (maskLanes (lanesOf t f.g) t.width) (spOffset s 0 t f);
        !peerHold s 0 && decide (spAlloc s t ≤ 2 ^ 20) && !lanes.isEmpty && lanes.all fun p => decide (p.2 % 4 = 0) && !spBad (spAlloc s t) (spTargets s t.gang 0) p.2 4) = true ∧
    (let f := atm (.v 4) (.v 8) (.v 6) 0
      let s := world (.atomsp { f with scope := 0 });
      issuesWith s (.atomsp { f with scope := 0 }) fun t => let lanes := laneAddrs (maskLanes (lanesOf t f.g) t.width) (n32Src s 0 t f.addr);
        !peerHold s 0 && (s.gang t.gang).isSome && !lanes.isEmpty && lanes.all fun p => decide (p.2 % 4 = 0) && !spBad (spAlloc s t) (spTargets s t.gang 0) p.2 4) = true := ⟨by decide +kernel, by decide +kernel⟩

theorem witness_OutsideLanesSwitchOff :
    let f := mem (.v 4) (.s 2) .none 2
    let s := worldOf [] [] (fun t => { t with s := [(2, 0x10000)] }) (.stsp f);
    (issuesWith s (.stsp f) fun t => let lanes := laneAddrs (maskLanes (lanesOf t f.g) t.width) (spOffset s 0 t f);
      !peerHold s 0 && !lanes.isEmpty && lanes.all fun p => decide (p.2 % 4 = 0) && spBad (spAlloc s t) (spTargets s t.gang 0) p.2 4) = true := by decide +kernel

/-- A fence that no lane passes, one that goes on, and one that an unanswered peer stalls. -/
theorem witness_FenceHasItsOrdersEffects :
    let f := { mem .none .none .none 0 with order := 3 }
    let s := world (.fence f)
    let sP := { s with peers := [(9, { port := 0, kind := 1, pa := 0, data := [], va := 0, oid := 1, word := 0, hdr := 0, acq := none, load := none, team := some 0, num := 1, job := none, hold := true, sent := true, refused := false })] };
    (issuesWith s (.fence f) fun t => decide (lanesOf t f.g ≠ 0) && !(peerHold s 0 || peerOut s 0 || peerLoadOut s 0)) = true ∧
      (issuesWith sP (.fence f) fun _ => peerHold sP 0 || peerOut sP 0 || peerLoadOut sP 0) = true :=
  ⟨by decide +kernel, by decide +kernel⟩

/-- A condition that holds, one whose deadline has come and one still to wait for; a membership mask that agrees and one that does not. -/
theorem witness_WaitaddrHintsAndMsync :
    (let f : ATM := { g := .always, d := .s 6, addr := .s 2, data := .s 4, cmp := .s 8, scope := 3, order := 1, aop := 0, size := 2, noRet := false }
      let p := fun (xs : List (Nat × Nat)) (go : State → Nat → Nat → Nat → Bool) => let s := worldOf [] [] (fun t => { t with s := xs.map fun x => (x.1, BitVec.ofNat 64 x.2) }) (.waitaddr f);
        issuesWith s (.waitaddr f) fun t => let s2 := cleanLine (settle s 0 t 0 0x140000) 0 t 0;
          !peerHold s 0 && (wideSnare s 0 t (lanesOf t f.g) 1 [(0, 4)]).isNone && mappedB s 0 t accR 0 0x140000 && !badAt s2 0x140000 4 &&
            go s2 (homeNat s2 0x140000 4) ((opdS s 0 t f.data).toNat % 2 ^ 32) (waitDeadline s 0 t .addr (waitField t.wait 24 8) f.cmp);
      p [] (fun _ h b _ => waitCond 0 4 h b) && p [(4, 1)] (fun s2 h b dl => !waitCond 0 4 h b && pastDeadline s2 dl) &&
        p [(4, 1), (8, 5)] (fun s2 h b dl => !waitCond 0 4 h b && !pastDeadline s2 dl)) = true ∧
    (let f := vr .none (.v 4) .none .none .b32 0
      let p := fun (x : Nat) (bad : Option (Nat × Nat × Bool) → Bool) => let s := worldOf [] [] (fun t => { t with v := [(4, BitVec.ofNat 32768 x)] }) (.msync f);
        issuesWith s (.msync f) fun t => let ps := participants t f.g;
          !ps.isEmpty && !peerHold s 0 && !peerOut s 0 && bad (msyncBad (ps.map fun L => (L, bitSrc s 0 t f.t f.a L)));
      p (2 ^ 1024 - 1) Option.isNone && p 1 Option.isSome) = true :=
  ⟨by decide +kernel, by decide +kernel⟩

def postOne : Post := { team := 0, num := 7, alloc := true, write := { vline := 1, pline := 0x2801, mask := 0xf, data := 0x04030201 } }
def fillOne : Fill := { core := 0, oid := 1, vline := 2, pline := 0x2802, sig := 0, demand := true, l2Only := false, discard := false, stores := [] }

theorem witness_CachesMoveBytesHome :
    let s0 := world (.nop (vr .none .none .none .none .b32 0))
    let s1 := withLine lineOne { s0 with cycle := 65536 }
    let s2 := { s0 with posts := [(5, postOne)] }
    let s3 := { s0 with fills := [(6, fillOne), (8, { fillOne with l2Only := true }), (9, { fillOne with discard := true })] };
    (s1.bad = [] ∧ (s1.core 0).l1.find 0 = some lineOne ∧ lineOne.leaving = false ∧ lineOne.dirty ≠ 0 ∧ lineOne.since + 65536 ≤ s1.cycle) ∧
    ({ s1 with cycle := 65535 }.cycle < lineOne.since + 65536) ∧
    ((withLine { lineOne with leaving := true } s1).bad = [] ∧ 128 * lineOne.pline + 128 ≤ 2 ^ 48 ∧ lineOne.dirty ≠ 0) ∧
    (s2.bad = [] ∧ s2.posts.find 5 = some postOne ∧ 128 * postOne.write.pline + 128 ≤ 2 ^ 48) ∧
    (s3.bad = [] ∧ s3.posts = [] ∧ s3.fills.find 6 = some fillOne ∧ fillOne.l2Only = false ∧ fillOne.discard = false ∧ fillOne.stores = [] ∧
      findLine s3 0 1 (128 * fillOne.vline) = none ∧ s3.fills.find 8 = some { fillOne with l2Only := true } ∧ s3.fills.find 9 = some { fillOne with discard := true }) := by
  decide +kernel

/-! ## Hypotheses of the statements: barriers, rings, slots -/


/-- The last object of the allocation, the last offset that is no object, and a wait past its deadline. -/
theorem witness_BarrierInstructions :
    (let f := bar .none (.s 2) (.s 4) .none 2
      let i := Instr.barWait f
      let s := worldOf [] [] (sregs [(2, 0xfff0), (4, 1)]) i
      issuesFree s i fun t => decide (offS s 0 t f.a % 16 = 0 ∧ offS s 0 t f.a + 16 ≤ spAlloc s t ∧ t.waitKind ≠ .bar ∧ (barObj s t.gang 0 (offS s 0 t f.a)).flags % 2 ≠ 1)) = true ∧
    (let f := bar .none (.s 2) (.s 4) .none 0
      let i := Instr.barInit f
      let s := worldOf [] [] (sregs [(2, 0x10000), (4, 1)]) i
      issuesFree s i fun t => decide (offS s 0 t f.a % 16 = 0 ∧ spAlloc s t < offS s 0 t f.a + 16)) = true ∧
    (let f := bar .none (.s 2) (.s 4) .none 2;
      let i := Instr.barWait f;
      let s := fun (kind : WKind) (mode : Nat) => worldOf [] [] (fun t => { sregs [(2, 0x100), (4, 1)] t with waitKind := kind, wait := waitMake [(0, 0x100), (4, mode), (8, 0)] }) i;
      issuesFree (s .saved 1) i (fun t => decide (t.waitKind = .saved ∧ (waitMode t.wait).testBit 1 = false)) &&
        issuesFree (s .saved 3) i (fun t => decide (t.waitKind = .saved ∧ (waitMode t.wait).testBit 1 = true)) &&
        issuesFree (s .bar 3) i (fun t => decide (t.waitKind = .bar ∧ (waitMode t.wait).testBit 1 = true)) &&
        issuesFree (s .bar 1) i (fun t => decide (t.waitKind = .bar ∧ (waitMode t.wait).testBit 1 = false ∧ waitField t.wait 8 8 ≤ (s .bar 1).tick))) = true ∧
    (let s := worldOf [] [] (fun t => { t with state := .waiting, waitKind := .bar, wait := waitMake [(8, 0)] }) (.barInit (bar .none (.s 2) (.s 4) .none 0));
      s.activeKey 0 0 = 0 ∧ (∃ t, s.team 0 = some t ∧ t.state = .waiting ∧ t.waitKind = .bar ∧ waitField t.wait 8 8 ≠ noDeadline ∧ waitField t.wait 8 8 ≤ s.tick)) :=
  ⟨by decide +kernel, by decide +kernel, by decide +kernel, by decide +kernel, _, rfl, by decide +kernel, by decide +kernel, by decide +kernel, by decide +kernel⟩

/-- The gang, the last object of a bank, a team that waits on it and one that comes back to such a wait from its handler. -/
theorem witness_BarrierPhases : (∃ x, (world (.barInit (bar .none (.s 2) (.s 4) .none 0))).gang 1 = some x ∧ 0xffff0 % 16 = 0 ∧ 0xffff0 + 16 ≤ 2 ^ 20) ∧
    (let w := waitMake [(0, 0xffff0), (4, 1)];
      let u := { teamOf (world (.barInit (bar .none (.s 2) (.s 4) .none 0))) (.barInit (bar .none (.s 2) (.s 4) .none 0)) with state := .waiting, waitKind := .bar, wait := w };
      (keyCore 0 = 0 ∧ u.gang = 1 ∧ u.waitKind = .bar ∧ waitField u.wait 0 4 = 0xffff0 ∧ (waitMode u.wait).testBit 1 = false) ∧
      ∃ h i kind x, ({ u with waitKind := .none, handler := true, heldWait := some (0x10, 0, .bar, w) } : Team).heldWait = some (h, i, kind, x) ∧ kind = .bar ∧ waitField x 0 4 = 0xffff0) :=
  ⟨⟨_, rfl, by decide +kernel⟩, by decide +kernel, _, _, _, _, rfl, rfl, by decide +kernel⟩

def hbarOne : HBar := { oid := 1, kernel := 1, gidx := 0, count := 3, pending := 1, phase := false, ovf := false }
/-- The world with cluster barrier 14 held by the team's gang. -/
def withHbar (b : HBar) (i : Instr) : State := { world i with clusters := [(0, { Cluster.reset with tlb := [tlbOne], hbars := [(14, b)] })] }

/-- The last arrival, one of several, a resumed wait, and an arrival on the holder's barrier. -/
theorem witness_ClusterBarriers :
    (let i := Instr.hbarSync (bar (.s 4) .none .none .none 0xe);
      issuesFree (withHbar hbarOne i) i fun t => decide (hbarHeld (withHbar hbarOne i) 0 t 14 = some hbarOne ∧ hbarOne.pending = 1 ∧ t.waitKind ≠ .hbar) &&
      issuesFree (withHbar { hbarOne with pending := 2 } i) i fun t => decide (hbarHeld (withHbar { hbarOne with pending := 2 } i) 0 t 14 = some { hbarOne with pending := 2 }) &&
      (let s := (withHbar hbarOne i).modTeam 0 fun t => { t with waitKind := .hbar, wait := waitMake [(0, 14), (4, 10)] };
        issuesFree s i fun t => decide (t.waitKind = .hbar ∧ (waitMode t.wait).testBit 1 = true)) &&
      (let s := (withHbar hbarOne i).modTeam 0 fun t => { t with waitKind := .hbar, wait := waitMake [(0, 14), (4, 8)] };
        issuesFree s i fun t => decide (t.waitKind = .hbar ∧ (waitMode t.wait).testBit 1 = false ∧ (waitMode t.wait).testBit 2 = false)) &&
      (let s := (withHbar hbarOne i).modTeam 0 fun t => { t with waitKind := .saved, wait := waitMake [(0, 14), (4, 12)] };
        issuesFree s i fun t => decide (t.waitKind = .hbar ∧ (waitMode t.wait).testBit 1 = false ∧ (waitMode t.wait).testBit 2 = true))) = true ∧
    (0 < 1 ∧ hbarOne.pending ≤ 1 ∧ 2 < hbarOne.count) := ⟨by decide +kernel, by decide +kernel⟩

/-- A fill ring at 0x100 with 2 slots of 64 bytes of which 1 is filled, a halo descriptor at 0, a ring header at 0x40. -/
def ringCells : List (Nat × Nat × Nat) := [(0x100, 4, 3), (0x104, 4, 2), (0x108, 4, 64), (0x10c, 1, 1)]

theorem witness_RingSequenceAndHaloInstructions :
    (let f := bar (.s 4) (.s 2) (.s 6) .none 0
      let i := Instr.rngAwait f
      let s := worldOf [] ringCells (sregs [(2, 0x100), (6, 0)]) i
      issuesFree s i fun t => decide (offS s 0 t f.a % 16 = 0 ∧ offS s 0 t f.b < filled (fillRing s t.gang 0 0x100)) && fillGood (fillRing s t.gang 0 0x100) 0x100 (spAlloc s t)) = true ∧
    (let f := bar (.s 4) (.s 2) (.s 6) (.s 8) 0
      let i := Instr.rngAwait f
      let s := fun (c : Nat) => worldOf [] ringCells (sregs [(2, 0x100), (6, 1), (8, c)]) i;
      let short := fun (s : State) (t : Team) => decide (offS s 0 t f.a % 16 = 0 ∧ (fillRing s t.gang 0 0x100).wr - (fillRing s t.gang 0 0x100).rd ≤ offS s 0 t f.b) && fillGood (fillRing s t.gang 0 0x100) 0x100 (spAlloc s t);
      issuesFree (s 0) i (fun t => short (s 0) t && decide ((s 0).tick + (opdS (s 0) 0 t f.c).toNat ≤ (s 0).tick)) &&
        issuesFree (s 1) i (fun t => short (s 1) t && decide ((s 1).tick < (s 1).tick + (opdS (s 1) 0 t f.c).toNat))) = true ∧
    (let f := bar (.s 4) (.s 2) (.s 6) .none 0
      let i := Instr.rngRelease f
      let s := fun (n : Nat) => worldOf [] ringCells (sregs [(2, 0x100), (6, n)]) i;
      issuesFree (s 1) i (fun t => decide (offS (s 1) 0 t f.b = 1 ∧ (fillRing (s 1) t.gang 0 0x100).wr - (fillRing (s 1) t.gang 0 0x100).rd = 1)) && issuesFree (s 2) i (fun t => decide (offS (s 2) 0 t f.b = 2))) = true ∧
    (let f := bar (.s 4) (.s 2) (.s 6) .none 0
      let i := Instr.seqwait f
      let s := world i
      issuesFree s i fun t => match completionOf s t.oid (offS s 0 t f.a) with | some v => decide (0 ≤ v) | none => false) = true ∧
    (let f := bar (.s 4) (.s 2) .none .none 0xe
      let i := Instr.halo f
      let s := { worldOf [] [(2, 2, 1), (4, 4, 0), (8, 4, 0x400), (12, 2, 16), (14, 2, 1)] id i with clusters := [(0, { Cluster.reset with tlb := [tlbOne], hbars := [(14, hbarOne)] })] }
      issuesFree s i fun t => let h := haloDesc s t.gang 0 0;
        decide (hbarHeld s 0 t 14 = some hbarOne ∧ h.team < (special s 0 t 15 0)) && haloInRange h (spAlloc s t)) = true :=
  ⟨by decide +kernel, by decide +kernel, by decide +kernel, by decide +kernel, by decide +kernel⟩
/-- The bytes of 64-bit words. -/
def words (xs : List Nat) : List Byte := xs.flatMap (leBytes 8)

/-- A ring header at 0x40 whose tag, size and counts are good, and a started copy of 16 scratchpad bytes. -/
theorem witness_CopyEngineRunsRings :
    (let s := { worldOf [] [(0x40, 4, 1), (0x48, 2, 0xc0b7), (0x4a, 1, 3)] id (.nop (vr .none .none .none .none .b32 0)) with notices := [(3, { core := 0, gang := 1, off := 0x40, team := 0, count := 1 })] };
      let h := ringHdr s 1 0 0x40;
      decide (h.tag = 0xc0b7 ∧ (h.notify + 2 ^ 32 - h.done) % 2 ^ 32 ≤ 2 ^ h.size ∧ h.status = 0 ∧ s.rings = []) && ringGood h 0x40 (gangAlloc s 1)) = true ∧
    (let e : RingEntry := { core := 0, gang := 1, ring := 0x40, index := 0, team := 0, tix := 0, raw := words [0x10ffff0301, 0x1000, 0x2000, 0], started := true, done := false, slot := none };
      let c := ringCmd e.raw;
      decide (c.op = 1 ∧ c.flags = 3 ∧ c.bar = 0xffff ∧ c.src + c.len ≤ 2 ^ 20 ∧ c.dst + c.len ≤ 2 ^ 20 ∧ c.len = 16) && !overlaps c.dst c.len (e.ring + 4) 4 &&
        mayStart { world (.nop (vr .none .none .none .none .b32 0)) with entries := [(4, e)] } e) = true ∧
    (let e : RingEntry := { core := 0, gang := 1, ring := 0x40, index := 0, team := 0, tix := 0, raw := words [0x10ffff0201, 0x1000, 0x2000, 0], started := true, done := false, slot := none };
      let s := { world (.nop (vr .none .none .none .none .b32 0)) with entries := [(4, e)] };
      (match engineSpan s 0 0 (entryOid s e) 0x1000 16 accR with | (s1, .ok ps) => (spanBad s1 ps).isNone | _ => false) &&
        (match engineSpan s 0 0 (entryOid s e) 0xc0000 16 accR with | (s1, .fault why _ _) => decide (why < 16 ∧ why ≠ rUncorrData ∧ why ≠ rUncorrTable) && (s1.team 0).any fun t => decide (t.state ≠ .exiting) | _ => false)) = true :=
  ⟨by decide +kernel, by decide +kernel, by decide +kernel⟩

/-- A SIGNAL with nothing before it, a COPY to the last slot that a fill ring has free and to a full one, a halo copy of one row. -/
theorem witness_CopyEngineRunsRings_more :
    (let e : RingEntry := { core := 0, gang := 1, ring := 0x40, index := 0, team := 0, tix := 0, raw := words [0x10ffff0002, 0x1000, 7, 0], started := false, done := false, slot := none };
      let s := { world (.nop (vr .none .none .none .none .b32 0)) with entries := [(4, e)] };
      decide ((ringCmd e.raw).op = 2) && mayStart s e && ((earlierEntries s e).all fun x => x.done) &&
        (match engineSpan s 0 0 (entryOid s e) 0x1000 4 accW with | (s1, .ok ps) => !(spanWrite (flushPieces s1 0 ps) (kernelOf s 0) ps (leBytes 4 7)).2 | _ => false)) = true ∧
    (let e : RingEntry := { core := 0, gang := 1, ring := 0x40, index := 0, team := 0, tix := 0, raw := words [0x10ffff0601, 0x1000, 0x100, 0], started := false, done := false, slot := none };
      let s := fun (wr : Nat) => { worldOf [] [(0x100, 4, wr), (0x104, 4, 2), (0x108, 4, 64), (0x10c, 1, 1)] id (.nop (vr .none .none .none .none .b32 0)) with entries := [(4, e)] };
      let a := fun (wr : Nat) => nextSlot (s wr) 1 0 0x100;
      decide ((ringCmd e.raw).op = 1 ∧ (ringCmd e.raw).flags = 6 ∧ (ringCmd e.raw).len ≤ 64 ∧ (a 3 + 2 ^ 32 - 2) % 2 ^ 32 < 2 ∧ 2 ≤ (a 4 + 2 ^ 32 - 2) % 2 ^ 32) && mayStart (s 3) e && mayStart (s 4) e &&
        fillGood (fillRing (s 3) 1 0 0x100) 0x100 (gangAlloc (s 3) 1)) = true ∧
    (let h : Halo := { team := 0, gang := 1, core := 0, srcCore := 1, bar := 14, go := true, rows := 1, rowBytes := 16, stride := 16, src := 2 ^ 20 - 16, dst := 2 ^ 20 - 16, obj := none };
      ((world (.nop (vr .none .none .none .none .b32 0))).gang h.gang).isSome = true ∧ h.rowBytes ≤ h.stride ∧ h.src + h.rows * h.stride ≤ 2 ^ 20 ∧ h.dst + h.rows * h.stride ≤ 2 ^ 20 ∧ h.srcCore ≠ h.core) :=
  ⟨by decide +kernel, by decide +kernel, by decide +kernel⟩

def slotOne (kind : Nat) (st : SState) : Slot := { kind := kind, state := st, oid := 1, kernel := 1, users := 0, writers := 0, stores := 0 }
/-- The world with slots in core 0. -/
def withSlots (xs : List (Nat × Slot)) (s : State) : State := { s with cores := [(0, { s.core 0 with slots := xs })] }

/-- Free units, a FULL slot read at its last bytes, a slot to load, and an mma with three slots. -/
theorem witness_SlotInstructions :
    (let f := bar (.s 4) .none .none .none 0xe;
      let i := Instr.slotClaim f;
      issuesWith (world i) i fun t => decide (slotTaken ((world i).core 0) (physUnit (world i) 0 t (slotUnit f)) (slotUnitsOf (slotKind f)) = none)) = true ∧
    (let f := bar (.v 6) (.s 4) .none .none 0xe;
      let i := Instr.slotRd f;
      let s := withSlots [(0xe, slotOne 0 .full)] (worldOf [] [] (sregs [(4, 32764)]) i);
      issuesWith s i fun t => decide (slotUse (s.core 0) (physUnit s 0 t (slotUnit f)) (slotKind f) .drain = .ok (slotOne 0 .full)) &&
        (laneAddrs (maskLanes (lanesOf t f.g) t.width) (n32Src s 0 t f.a)).all fun p => decide (p.2 % 4 = 0 ∧ p.2 < slotBytes 0)) = true ∧
    (let f := bar .none (.s 2) (.s 4) .none 7;
      let i := Instr.slotLoad f;
      let s := withSlots [(7, slotOne 0 .claimed)] (worldOf [] [] (sregs [(2, 0x1000), (4, 0x100)]) i);
      issuesWith s i fun t => decide (slotUse (s.core 0) (physUnit s 0 t (slotUnit f)) (slotKind f) .fill = .ok (slotOne 0 .claimed)) && !peerHold s 0 &&
        goes (checkWide s 0 t f.g 1 accR ((transferPages (opdS s 0 t f.a) (opdS s 0 t f.b) (slotRow 0) (slotRows 0)).map fun x => (0, x)))) = true ∧
    (let m : MX := { g := .always, acc := 8, ua := 4, ub := 2, fb := .s 4, bar := .none, flags := 1 };
      let i := Instr.mma m;
      let s := withSlots [(8, slotOne 2 .claimed), (4, slotOne 0 .full), (2, slotOne 1 .full)] (worldOf [] [] (sregs [(4, 0x0202)]) i);
      issuesWith s i fun t => let fb := fbRead s 0 t m.fb;
        fbGood fb && (fbRegions fb).all (fun r => decide (r.2.1 = 0)) && decide (slotUse (s.core 0) 8 2 (.acc true) = .ok (slotOne 2 .claimed) ∧
          slotUse (s.core 0) 4 0 .reader = .ok (slotOne 0 .full) ∧ slotUse (s.core 0) 2 1 .reader = .ok (slotOne 1 .full) ∧ (s.core 0).mq.length < 8)) = true :=
  ⟨by decide +kernel, by decide +kernel, by decide +kernel, by decide +kernel⟩

def slotOpOne (op : Nat) : SlotOp :=
  { unit := 7, kind := 0, op := op, team := 0, word := 0, va := 0x1000, stride := 256, pages := [(0, 0x140000)], ty := .b32, sat := false, bar := none, gang := 1, core := 0 }
def mmaOne : MmaEntry :=
  { team := 0, gang := 1, word := 0, acc := 8, ua := 4, ub := 2, fb := words [0x0202, 0, 0, 0], zero := true, noFuse := false, bar := none, scaleA := [], scaleB := [], superA := [], superB := [], window := 0 }

theorem witness_SlotAndMatrixOperationsComplete :
    (let s0 := world (.nop (vr .none .none .none .none .b32 0));
      let s := { withSlots [(7, { slotOne 0 .filling with users := 1 })] s0 with slotOps := [(5, slotOpOne 0)] };
      decide (slotOpAt s 0 7 (fun n => decide (n < 2)) = some (5, slotOpOne 0)) && (loadRows s (slotOpOne 0)).2.isNone) = true ∧
    (let s := { world (.nop (vr .none .none .none .none .b32 0)) with slotOps := [(5, slotOpOne 2)] };
      let op := slotOpOne 2;
      decide (slotOpAt s 0 7 (fun n => decide (n = 2)) = some (5, op) ∧ (s.core 0).l1 = [] ∧ s.bad = [] ∧ memRow 0 .b32 ≤ op.stride.toNat ∧
        op.va.toNat % 2 ^ 18 + slotRows 0 * op.stride.toNat ≤ 2 ^ 18 ∧ op.pages.get (op.va.toNat / 2 ^ 18) 0 + 2 ^ 18 ≤ 2 ^ 48)) = true ∧
    (let s0 := world (.nop (vr .none .none .none .none .b32 0));
      let s := { s0 with cores := [(0, { s0.core 0 with pass := [mmaOne] })] };
      decide (s.sel.core = 0 ∧ (s.core 0).pass = [mmaOne] ∧ (mmPair (fbByte mmaOne.fb 0) (fbByte mmaOne.fb 1)).isSome = true) && (s.team 0).isSome) = true ∧
    (let s0 := world (.nop (vr .none .none .none .none .b32 0));
      let s := { s0 with cores := [(0, { s0.core 0 with mq := [mmaOne] })] };
      decide ((s.core 0).pass = [] ∧ (s.core 0).mq = [mmaOne])) = true :=
  ⟨by decide +kernel, by decide +kernel, by decide +kernel, by decide +kernel⟩

/-! ## Hypotheses of the statements: volumes -/

/-- A volume descriptor at 0x1000: a root entry, background 5, 4-byte elements, bounds 8, 8, 8; a pool word. -/
def volCells (root : Nat) : List (Nat × Nat × Nat) :=
  [(0x141000, 8, root), (0x141008, 8, 5), (0x141010, 1, 2), (0x141018, 4, 8), (0x14101c, 4, 8), (0x141020, 4, 8), (0x141028, 8, 0x20000)]
/-- A root with a chain of nodes to an entry of tile (0, 0, 0). -/
def treeCells (leaf : Nat) : List (Nat × Nat × Nat) :=
  volCells (2 ^ 62 + 0x200000) ++ [(0x200000, 8, 2 ^ 62 + 0x240000), (0x240000, 8, 2 ^ 62 + 0x280000), (0x280000, 8, 2 ^ 62 + 0x2c0000), (0x2c0000, 8, leaf), (0x300000, 4, 9), (0x300040, 2, 2)]
/-- A leaf of a format at 0x300000. -/
def leafAt (fmt : Nat) : Nat := 2 ^ 63 + 0x300000 + fmt

def volRegs (x : Nat) (t : Team) : Team := { t with s := [(2, 0x1000), (4, 7)], v := [(4, BitVec.ofNat 32768 x)] }
def needs (tiles reads elem whole : Bool) : VNeed := { nodes := true, tiles := tiles, reads := reads, elem := elem, whole := whole }
/-- The deciding entry of the only tile. -/
def oneEntry (ts : List VTile) : Option (Nat × W64) := match ts with | [v] => (match v.walk with | .found 1 pa e => some (pa, e) | _ => none) | _ => none

/-- The hypotheses on a vol word hold, and more holds of what it comes to. -/
def VolFound (s : State) (i : Instr) (f : VR) (acc : Nat) (size : Nat → Bool) (need : VNeed) (cas : VDesc → W64 → Bool) (p : VDesc → List VLane → List VTile → Bool) : Prop :=
  issuesB i s 0 = true ∧ ∃ s2 d ls ts, VolGoes s 0 (teamOf s i) f acc size need cas s2 d ls ts ∧ p d ls ts = true

theorem vol_found {s : State} {i : Instr} {f : VR} {acc : Nat} {size : Nat → Bool} {need : VNeed} {cas : VDesc → W64 → Bool} {p : VDesc → List VLane → List VTile → Bool}
    (h : (issuesB i s 0 && (volB s (teamOf s i) f acc size need cas).any fun x => p x.2.1 x.2.2.1 x.2.2.2) = true) : VolFound s i f acc size need cas p := by
  rw [Bool.and_eq_true] at h
  obtain ⟨x, hx, hp⟩ := found h.2
  exact ⟨h.1, _, _, _, _, vol_of hx, hp⟩

/-- An element of a DENSE leaf, of a constant, lanes outside, a misaligned handle, an invalid descriptor, a size that does not suit. -/
theorem witness_VolumeReadsAndProbes :
    (let f := bar (.v 6) (.v 4) (.s 2) .none 0
      let st := fun (cells : List (Nat × Nat × Nat)) (x : Nat) => worldOf cells [] (volRegs x) (.volLd f)
      let keep := fun (_ : VDesc) (_ : W64) => false;
      VolFound (st (treeCells (leafAt 0)) 0) (.volLd f) f accR (volSize f.t) (needs true true true false) keep (fun _ ls ts => (oneEntry ts).isSome && ls.any fun l => l.inside.isSome) ∧
      VolFound (st (volCells (3 * 2 ^ 62)) 0) (.volLd f) f accR (volSize f.t) (needs true true true false) keep (fun _ ls ts => !ts.isEmpty && ls.any fun l => l.inside.isSome) ∧
      VolFound (st (volCells 0) 8) (.volLd f) f accR (volSize f.t) (needs true true true false) keep (fun _ ls _ => ls.any fun l => l.inside.isNone)) ∧
    (let f := bar (.v 6) (.v 4) (.s 2) .none 0
      let s := worldOf (treeCells (leafAt 1)) [] (volRegs 0) (.volProbe f);
      VolFound s (.volProbe f) f accR (fun _ => true) { nodes := false, tiles := false, reads := true, elem := false, whole := false } (fun _ _ => false)
        (fun _ ls ts => (oneEntry ts).isSome && ls.any fun l => l.inside.isSome)) ∧
    (let f := bar (.v 6) (.v 4) (.s 2) .none 0
      let i := Instr.volLd f
      let st := fun (cells : List (Nat × Nat × Nat)) (h : Nat) => worldOf cells [] (fun t => { volRegs 0 t with s := [(2, h)] }) i
      let desc := fun (s : State) (p : State → VDesc → Bool) => (atVa s (teamOf s i) 128 128 accR (extVA (opdS s 0 (teamOf s i) f.b))).any fun x =>
        p x.1 (volDesc x.1 (ctxPart s 1) (extVA (opdS s 0 (teamOf s i) f.b)) x.2);
      issuesWith (st [] 0x1040) i (fun t => decide (maskLanes (resumedLanes t f.g) t.width ≠ [] ∧ extVA (opdS (st [] 0x1040) 0 t f.b) % 128 ≠ 0)) &&
        issuesWith (st (volCells 64) 0x1000) i (fun _ => desc (st (volCells 64) 0x1000) fun s1 d => !volDescOk s1 d) &&
        issuesWith (st ((0x141010, 1, 3) :: volCells 0) 0x1000) i (fun _ => desc (st ((0x141010, 1, 3) :: volCells 0) 0x1000) fun s1 d => volDescOk s1 d && !volSize f.t d.e)) = true :=
  ⟨⟨vol_found (by decide +kernel), vol_found (by decide +kernel), vol_found (by decide +kernel)⟩, vol_found (by decide +kernel), by decide +kernel⟩

/-- Leaves taken as they are; a tile to be made; leaves to free and to convert, and none; a wait behind the cymbal. -/
theorem witness_VolumeWritesAndTheCymbal :
    (let f := bar .none (.v 4) (.s 2) (.s 4) 0
      let st := fun (leaf : Nat) => worldOf (treeCells leaf) [] (volRegs 0) (.volSt f)
      let cas := fun (_ : VDesc) (e : W64) => decide (veKind e ≠ 2) || (!false && decide (veFmt e ≠ 0));
      VolFound (st (leafAt 0)) (.volSt f) f (accR + accW) (volSize f.t) (needs true true false false) cas
        (fun _ _ ts => (oneEntry ts).any fun x => decide (veKind x.2 = 2 ∧ veFmt x.2 = 0)) ∧
      VolFound (st 0) (.volSt f) f (accR + accW) (volSize f.t) (needs true true false false) cas (fun _ _ ts => (oneEntry ts).any fun x => decide (veKind x.2 = 0))) ∧
    (let f := bar (.v 6) (.v 4) (.s 2) (.s 4) 0
      let cas := fun (_ : VDesc) (e : W64) => decide (veKind e ≠ 2) || (!false && decide (veFmt e ≠ 0));
      VolFound (worldOf (treeCells (leafAt 0)) [] (volRegs 0) (.volAtom f)) (.volAtom f) f (accR + accW) (fun e => decide (e = 4)) (needs true true true false) cas
        (fun _ _ ts => (oneEntry ts).any fun x => decide (veKind x.2 = 2 ∧ veFmt x.2 = 0))) ∧
    (let f := bar .none (.v 4) (.s 2) .none 0;
      VolFound (worldOf (treeCells (leafAt 1)) [] (volRegs 0) (.volAlloc f)) (.volAlloc f) f (accR + accW) (fun _ => true) (needs true true false false)
        (fun _ e => decide (veKind e ≠ 2) || (!true && decide (veFmt e ≠ 0))) (fun _ _ ts => (oneEntry ts).any fun x => decide (veKind x.2 = 2))) ∧
    (let f := bar .none (.v 4) (.s 2) .none 0
      let st := fun (leaf : Nat) => worldOf (treeCells leaf) [] (volRegs 0) (.volFree f)
      let need : VNeed := { nodes := true, tiles := false, reads := false, elem := false, whole := false }
      let cas := fun (_ : VDesc) (e : W64) => decide (veKind e = 2);
      VolFound (st (leafAt 1)) (.volFree f) f (accR + accW) (fun _ => true) need cas (fun _ _ ts => match ts with | [v] => (tileLeaf v).any fun x => decide (homeNat (st (leafAt 1)) x.1 8 = x.2.toNat ∧ badAt (st (leafAt 1)) x.1 8 = false) | _ => false) ∧
      VolFound (st 0) (.volFree f) f (accR + accW) (fun _ => true) need cas (fun _ _ ts => ts.all fun v => (tileLeaf v).isNone)) ∧
    (let f := bar (.v 6) (.v 4) (.s 2) .none 0
      let st := fun (leaf : Nat) => worldOf (treeCells leaf) [] (volRegs 0) (.volFmt f)
      let cas := fun (_ : VDesc) (e : W64) => decide (veKind e = 2 ∧ veFmt e ≠ 0);
      VolFound (st (leafAt 1)) (.volFmt f) f (accR + accW) (fun _ => true) (needs true true false true) cas (fun _ _ ts => match ts with | [v] => (tileLeaf v).any fun x => decide (veFmt x.2 ≠ 0) | _ => false) ∧
      VolFound (st (leafAt 0)) (.volFmt f) f (accR + accW) (fun _ => true) (needs true true false true) cas (fun _ _ ts => ts.all fun v => (tileLeaf v).all fun x => decide (veFmt x.2 = 0)) ∧
      (fmtHold 0 0 [{ tile := (0, 0, 0), walk := .found 1 0x2c0000 (BitVec.ofNat 64 (leafAt 1)), raw := [], why := 0, uncorr := false }] (st (leafAt 1))).2 ≠ []) ∧
    (let w : Work := { pushes := [(0x20000, 0x40)], frames := 0, version := some 0x141014, fault := none, fmt := none };
      let s := worldOf (volCells 0) [] (fun t => { t with state := .waiting, waitKind := .cymbal, work := some w }) (.volFree (bar .none (.v 4) (.s 2) .none 0));
      decide (waitingKey s 0 0 (waitsFor .cymbal) = some 0 ∧ ((s.team 0).bind fun u => u.work) = some w ∧ (s.core 0).l1 = [] ∧ s.fills = [] ∧ s.posts = [] ∧ s.loads = [] ∧ s.bad = [])) = true ∧
    (let x : FmtWork := { desc := volDesc (worldOf (treeCells (leafAt 1)) [] id nopW) 0 0x1000 0x141000, fmt := 0, items := [{ tile := 0, pa := 0x2c0000, leaf := BitVec.ofNat 64 (leafAt 1) }], dst := .v 6, lanes := [(0, some 0)] }
      let w : Work := { pushes := [], frames := 0, version := none, fault := none, fmt := some x }
      let s := worldOf (treeCells (2 ^ 61 + leafAt 1)) [] (fun t => { t with state := .waiting, waitKind := .cymbal, work := some w }) nopW;
      decide (waitingKey s 0 0 (waitsFor .cymbal) = some 0 ∧ (s.team 0).bind (fun u => u.work) = some w ∧ (s.team 0).all fun u => (fmtFault u x (fmtItems 0 u x x.items s).2).isNone)) = true :=
  ⟨⟨vol_found (by decide +kernel), vol_found (by decide +kernel)⟩, vol_found (by decide +kernel), vol_found (by decide +kernel), ⟨vol_found (by decide +kernel), vol_found (by decide +kernel)⟩,
    ⟨vol_found (by decide +kernel), vol_found (by decide +kernel), by decide +kernel⟩, by decide +kernel, by decide +kernel⟩

/-! ## Hypotheses of the statements: stitched lists -/

/-- A list header at 0x2000, of two pieces, with its current version at 0x3000. -/
def hdrCells : List (Nat × Nat × Nat) :=
  [(0x142000, 8, 0x3000), (0x142008, 8, 6), (0x142010, 2, 2), (0x142012, 2, 8), (0x142014, 1, 2), (0x142018, 4, 1), (0x14201c, 4, 9), (0x142020, 8, 0x30040), (0x142028, 8, 0x30080)]
/-- Its piece records at 0x2100 and 0x2140, with their count words at 0x2200 and 0x2208. -/
def pieceCells : List (Nat × Nat × Nat) :=
  [(0x142100, 8, 0x4000), (0x142108, 4, 8), (0x14210c, 4, 4), (0x142118, 8, 0x2200), (0x142140, 8, 0x5000), (0x142148, 4, 8), (0x14214c, 4, 2), (0x142158, 8, 0x2208), (0x142200, 4, 1), (0x142208, 4, 1)]
/-- An empty list at 0x2400. -/
def emptyCells : List (Nat × Nat × Nat) := [(0x142412, 2, 8), (0x142414, 1, 2), (0x14241c, 4, 3)]
/-- The current version, and a superseded one at 0x6000. -/
def verCells : List (Nat × Nat × Nat) :=
  [(0x143000, 8, 0x2000), (0x143008, 8, 6), (0x143010, 2, 2), (0x143012, 2, 1), (0x143014, 4, 9), (0x14301c, 1, 1), (0x143040, 8, 0x2100), (0x143050, 8, 0x2140), (0x143058, 8, 4)]
def oldCells : List (Nat × Nat × Nat) :=
  [(0x146000, 8, 0x2000), (0x146008, 8, 6), (0x146010, 2, 2), (0x146012, 2, 1), (0x146014, 4, 7), (0x146018, 4, 1), (0x14601c, 1, 2), (0x146040, 8, 0x2100), (0x146050, 8, 0x2140), (0x146058, 8, 4)]
/-- A version pool at 0x30040 that holds the block 0x8000. -/
def poolCells : List (Nat × Nat × Nat) := [(0x170040, 8, 1), (0x170048, 8, 0x30100), (0x170050, 8, 4), (0x170058, 4, 192), (0x170100, 8, 0x8000)]

def stWorld (more : List (Nat × Nat × Nat)) (sp : List (Nat × Nat × Nat)) (xs : List (Fin 64 × Nat)) (i : Instr) : State := worldOf more sp (sregs xs) i
/-- What a token's version and its references come to. -/
def versionB (s : State) (t : Team) (tok : W64) (p : SVer → State → Table Nat → List (Nat × Nat) → Bool) : Bool :=
  (tokenB s t (resumedLanes t .always) tok).any fun x => (refsB x.1 t (resumedLanes t .always) x.2.va x.2.count).any fun y => p x.2 y.1 y.2.1 y.2.2

theorem version_of {s : State} {t : Team} {tok : W64} {p : SVer → State → Table Nat → List (Nat × Nat) → Bool} (h : versionB s t tok p = true) :
    ∃ s1 v s2 pg refs, TokenGoes s 0 t (resumedLanes t .always) tok s1 v ∧ RefsGo s1 0 t (resumedLanes t .always) v.va v.count s2 pg refs ∧ p v s2 pg refs = true := by
  obtain ⟨x, hx, h⟩ := found h
  obtain ⟨y, hy, h⟩ := found h
  exact ⟨_, _, _, _, _, token_of hx, refs_of hy, h⟩

/-- A list that can be pinned; one at its limit. -/
theorem witness_StitchReads_pin :
    let f := bar (.s 6) .none (.s 2) .none 0
    let s := stWorld (hdrCells ++ emptyCells) [] [(2, 0x2000)] (.sxPin f)
    let t := teamOf s (.sxPin f)
    let m := resumedLanes t f.g;
    issuesFree s (.sxPin f) (fun t => decide (extVA (opdS s 0 t f.b) = 0x2000)) = true ∧
      (∃ s1 h s2 pg, HeaderGoes s 0 t m 0x2000 s1 h ∧ h.current ≠ 0 ∧ h.pins ≠ 2 ^ 32 - 1 ∧
        ReachesAll s1 0 t m [(0x2000, 128, accR + accW), (0x2018, 8, accR + accW)] [] s2 pg) ∧
      (∃ s1 h, HeaderGoes (stWorld ((0x142018, 4, 2 ^ 32 - 1) :: hdrCells) [] [(2, 0x2000)] (.sxPin f)) 0 t m 0x2000 s1 h ∧ h.current ≠ 0 ∧ h.pins = 2 ^ 32 - 1) ∧
      ∃ s1 h, HeaderGoes s 0 t m 0x2400 s1 h ∧ h.current = 0 := by
  intro f s t m
  have h : ((hdrB s t m 0x2000).any fun x => decide (x.2.current ≠ 0 ∧ x.2.pins ≠ 2 ^ 32 - 1) &&
      (allB x.1 t m [(0x2000, 128, accR + accW), (0x2018, 8, accR + accW)] []).any fun _ => true) = true := by decide +kernel
  have h2 : ((hdrB (stWorld ((0x142018, 4, 2 ^ 32 - 1) :: hdrCells) [] [(2, 0x2000)] (.sxPin f)) t m 0x2000).any fun x => decide (x.2.current ≠ 0 ∧ x.2.pins = 2 ^ 32 - 1)) = true := by
    decide +kernel
  have h3 : ((hdrB s t m 0x2400).any fun x => decide (x.2.current = 0)) = true := by decide +kernel
  obtain ⟨x, hx, h⟩ := found h
  rw [Bool.and_eq_true, decide_eq_true_eq] at h
  obtain ⟨y, hy, -⟩ := found h.2
  obtain ⟨x2, hx2, h2⟩ := found h2
  obtain ⟨x3, hx3, h3⟩ := found h3
  exact ⟨by decide +kernel, ⟨_, _, _, _, header_of hx, h.1.1, h.1.2, reachedSeq_of hy⟩, ⟨_, _, header_of hx2, of_decide_eq_true h2⟩, _, _, header_of hx3, of_decide_eq_true h3⟩

/-- An unpin of the current version, of the last pin of a superseded one, and of a list that is being edited. -/
theorem witness_StitchReads_unpin :
    let f := bar .none .none (.s 2) .none 0
    let at' := fun (more : List (Nat × Nat × Nat)) (tok : Nat) => stWorld more [] [(2, tok)] (.sxUnpin f)
    let s0 := fun (s : State) => drain s 0 (teamOf s (.sxUnpin f))
    let t := teamOf (at' (hdrCells ++ pieceCells ++ verCells ++ poolCells) 0x3009) (.sxUnpin f)
    let m := resumedLanes t f.g;
    (issuesFree (at' (hdrCells ++ pieceCells ++ verCells ++ poolCells) 0x3009) (.sxUnpin f) (fun _ => true) && issuesFree (at' (hdrCells ++ pieceCells ++ oldCells ++ poolCells) 0x6007) (.sxUnpin f) (fun _ => true)) = true ∧
      (∃ s1 v s2 pg refs, TokenNames (s0 (at' (hdrCells ++ pieceCells ++ verCells ++ poolCells) 0x3009)) 0 t m 0x3009 s1 v ∧ (v.hdr.edit = false ∧ v.pins ≠ 0 ∧ xva v.hdr.current = v.va) ∧
        UnpinGoes s1 0 t m v (v.hdr.va + 24, 8, accR + accW) s2 pg refs) ∧
      (∃ s1 v s2 pg refs, TokenNames (s0 (at' (hdrCells ++ pieceCells ++ oldCells ++ poolCells) 0x6007)) 0 t m 0x6007 s1 v ∧ (v.hdr.edit = false ∧ v.pins = 1 ∧ xva v.hdr.current ≠ v.va) ∧
        UnpinGoes s1 0 t m v (v.va + 24, 8, accR + accW) s2 pg refs) ∧
      ∃ s1 v, TokenNames (s0 (at' ((0x142015, 1, 1) :: hdrCells ++ verCells) 0x3009)) 0 t m 0x3009 s1 v ∧ v.hdr.edit = true := by
  intro f at' s0 t m
  have h : ((namesB (s0 (at' (hdrCells ++ pieceCells ++ verCells ++ poolCells) 0x3009)) t m 0x3009).any fun x => decide (x.2.hdr.edit = false ∧ x.2.pins ≠ 0 ∧ xva x.2.hdr.current = x.2.va) &&
      (unpinB x.1 t m x.2 (x.2.hdr.va + 24, 8, accR + accW)).any fun _ => true) = true := by decide +kernel
  have h2 : ((namesB (s0 (at' (hdrCells ++ pieceCells ++ oldCells ++ poolCells) 0x6007)) t m 0x6007).any fun x => decide (x.2.hdr.edit = false ∧ x.2.pins = 1 ∧ xva x.2.hdr.current ≠ x.2.va) &&
      (unpinB x.1 t m x.2 (x.2.va + 24, 8, accR + accW)).any fun _ => true) = true := by decide +kernel
  have h3 : ((namesB (s0 (at' ((0x142015, 1, 1) :: hdrCells ++ verCells) 0x3009)) t m 0x3009).any fun x => x.2.hdr.edit) = true := by decide +kernel
  obtain ⟨x, hx, h⟩ := found h
  rw [Bool.and_eq_true, decide_eq_true_eq] at h
  obtain ⟨y, hy, -⟩ := found h.2
  obtain ⟨x2, hx2, h2⟩ := found h2
  rw [Bool.and_eq_true, decide_eq_true_eq] at h2
  obtain ⟨y2, hy2, -⟩ := found h2.2
  obtain ⟨x3, hx3, h3⟩ := found h3
  exact ⟨by decide +kernel, ⟨_, _, _, _, _, names_of hx, h.1, unpin_of hy⟩, ⟨_, _, _, _, _, names_of hx2, h2.1, unpin_of hy2⟩, _, _, names_of hx3, h3⟩

/-- A version read with its references, an index inside, the last one and one past the end; lanes that come to their elements. -/
theorem witness_StitchReads :
    (let f := bar (.s 6) .none (.s 2) .none 1
      let s := stWorld (hdrCells ++ verCells) [] [(2, 0x3009)] (.sxLen f)
      let t := teamOf s (.sxLen f);
      issuesFree s (.sxLen f) (fun t => decide (opdS s 0 t f.b = 0x3009) && decide (maskLanes (resumedLanes t f.g) t.width ≠ [])) = true ∧ ∃ s1 v s2 pg refs, TokenGoes s 0 t (resumedLanes t .always) 0x3009 s1 v ∧
        RefsGo s1 0 t (resumedLanes t .always) v.va v.count s2 pg refs ∧
        decide (v.total = 6 ∧ v.count = 2 ∧ refs = [(0x2100, 0), (0x2140, 4)] ∧ locate refs 6 5 = some (1, 1) ∧ locate refs 6 6 = none) = true) ∧
    (let f := bar (.v 6) (.v 4) (.s 2) .none 0
      let i := Instr.sxLd f
      let s := worldOf (hdrCells ++ pieceCells ++ verCells) [] (fun t => { t with s := [(2, 0x3009)], v := [(4, 5)] }) i
      let t := teamOf s i;
      issuesFree s i (fun _ => true) = true ∧ ∃ s1 e xs, ElementsGo s 0 t f accR s1 e xs ∧ (xs.all fun x => decide (x.2 % e = 0) && mappedB s1 0 t accR x.2 (0x140000 + x.2)) = true) ∧
    (let f := bar (.v 6) (.v 4) (.s 2) .none 0
      let i := Instr.sxSt f
      let s := worldOf (hdrCells ++ pieceCells ++ verCells) [] (fun t => { t with s := [(2, 0x3009)], v := [(4, 5)] }) i
      let t := teamOf s i;
      issuesFree s i (fun _ => true) = true ∧ ∃ s1 e xs, ElementsGo s 0 t f accW s1 e xs ∧ (xs.all fun x => decide (x.2 % e = 0) && mappedB s1 0 t accW x.2 (0x140000 + x.2)) = true) ∧
    (let f := bar (.v 6) (.v 4) (.s 2) .none 0
      let i := Instr.sxWhere f
      let s := worldOf (hdrCells ++ pieceCells ++ verCells) [] (fun t => { t with s := [(2, 0x3009)], v := [(4, 6)] }) i
      let t := teamOf s i
      let m := resumedLanes t .always;
      issuesFree s i (fun t => decide (maskLanes m t.width ≠ [])) = true ∧ ∃ s1 v s2 pg refs, TokenGoes s 0 t m 0x3009 s1 v ∧ RefsGo s1 0 t m v.va v.count s2 pg refs ∧
        (allB s2 t m ((hitRecs (sxHits s2 0 t f refs v.total (maskLanes m t.width))).map fun p => (xva p, 64, accR)) pg).isSome = true) := by
  refine ⟨⟨by decide +kernel, version_of (by decide +kernel)⟩, ?_, ?_, ⟨by decide +kernel, version_of (by decide +kernel)⟩⟩
  · intro f i s t
    have h : ((elementsB s t f accR).any fun x => x.2.2.all fun y => decide (y.2 % x.2.1 = 0) && mappedB x.1 0 t accR y.2 (0x140000 + y.2)) = true := by decide +kernel
    obtain ⟨x, hx, h⟩ := found h
    exact ⟨by decide +kernel, _, _, _, elements_of hx, h⟩
  · intro f i s t
    have h : ((elementsB s t f accW).any fun x => x.2.2.all fun y => decide (y.2 % x.2.1 = 0) && mappedB x.1 0 t accW y.2 (0x140000 + y.2)) = true := by decide +kernel
    obtain ⟨x, hx, h⟩ := found h
    exact ⟨by decide +kernel, _, _, _, elements_of hx, h⟩

/-- A cursor at 0x100 with fields scan, issued, arrived and taken at 8, 10, 12 and 14: an arrival to take, a resident piece, the end, and pieces
still under way. -/
theorem witness_StitchReads_next :
    let f := bar (.s 6) (.s 2) .none .none 0
    let i := Instr.sxNext f
    let st := fun (scan issued arrived taken : Nat) => stWorld (hdrCells ++ pieceCells ++ verCells) [(0x100, 8, 0x3009), (0x108, 2, scan), (0x10a, 2, issued), (0x10c, 2, arrived), (0x10e, 2, taken)] [(2, 0x100)] i
    let rd := fun (s : State) (off n : Nat) => spNat s 1 0 (0x100 + off) n
    let goes := fun (s : State) (p : SVer → State → Table Nat → List (Nat × Nat) → Bool) =>
      issuesFree s i (fun t => decide (offS s 0 t f.a = 0x100 ∧ 0x100 + 192 ≤ spAlloc s t)) && versionB s (teamOf s i) (BitVec.ofNat 64 (rd s 0 8)) p;
    (goes (st 0 1 1 0) fun _ _ _ _ => decide (rd (st 0 1 1 0) 14 2 ≠ rd (st 0 1 1 0) 12 2)) = true ∧
    (goes (st 1 1 1 1) fun v s2 pg refs => decide (1 < refs.length) && (allB s2 (teamOf s2 i) (resumedLanes (teamOf s2 i) .always) [(xva (refs.getD 1 (0, 0)).1, 64, accR)] pg).any fun x =>
      resident x.1 1 (xva (pieceNat x.1 1 x.2 (refs.getD 1 (0, 0)).1 0 8)) (v.hdr.size * refLen refs v.total 1)) = true ∧
    (goes (st 2 1 1 1) fun _ _ _ refs => decide (refs.length ≤ 2)) = true ∧ (goes (st 2 2 1 1) fun _ _ _ refs => decide (refs.length ≤ 2 ∧ rd (st 2 2 1 1) 10 2 ≠ rd (st 2 2 1 1) 14 2)) = true :=
  ⟨by decide +kernel, by decide +kernel, by decide +kernel, by decide +kernel⟩

/-- An edit of two references comes to its words, pool and block; a list under another's edit; a word that changes nothing. -/
theorem witness_StitchEditsAndTheirEngines :
    (let f := bar (.s 6) (.s 2) .none .none 0
      let i := Instr.sxTrunc f
      let s := stWorld (hdrCells ++ pieceCells ++ verCells ++ poolCells) [] [(2, 0x2000), (3, 5)] i
      let t := teamOf s i
      let m := resumedLanes t f.g;
      issuesFree s i (fun t => decide ((opdS (drain s 0 t) 0 t (Opd.next f.a 0)).toNat = 0x2000) && decide (maskLanes (resumedLanes t f.g) t.width ≠ [])) = true ∧ ∃ s1 h s2 pg old s3 pg3 s4 pg4 b,
        HeaderGoes (drain s 0 t) 0 t m 0x2000 s1 h ∧ CurrentGoes s1 0 t m h s2 pg old ∧ EditGoes s2 0 t m h ((old ++ old).map (·.1)) [h.vpool] pg s3 pg3 ∧
        BlockGoes s3 0 t m h old pg3 s4 pg4 b ∧ editTaken t h = false ∧ 5 < h.total ∧ old = [(0x2100, 0), (0x2140, 4)] ∧ b = 0x8000 ∧ holders s4 1 pg4 0x2140 = 1 ∧ fits s4 1 pg4 0x2140 (h.total - 4) 6 = true) ∧
    (let f := bar (.s 6) (.s 2) .none .none 0
      let i := Instr.sxFork f
      let s := stWorld (hdrCells ++ emptyCells) [] [(2, 0x2000), (3, 0x2400)] i
      let t := teamOf s i
      let m := resumedLanes t f.g;
      issuesFree s i (fun _ => true) = true ∧ ∃ sa pa s1 pb, Reached (drain s 0 t) 0 t m 128 128 accR 0x2000 sa pa ∧ Reached sa 0 t m 128 128 accR 0x2400 s1 pb ∧
        (let h := stHdr s1 0x2400 pb; (stHdr s1 0x2000 pa).good = true ∧ h.good = true ∧ editTaken t h = false ∧ h.current = 0)) ∧
    (let x : Edit := { header := 0x2000, block := 0x3000, refs := [], total := 5, result := 0, dst := .s 6, path := 0, tail := 0, piece := 0, count := 0, tailLen := 0, pages := [(0, 0x140000)] };
    let s := worldOf hdrCells [] (fun t => { t with state := .waiting, waitKind := .edit, edit := some x }) (.sxTrunc (bar (.s 6) (.s 2) .none .none 0));
    waitingKey s 0 0 (waitsFor .edit) = some 0 ∧ (s.team 0).bind (fun u => u.edit) = some x ∧ s.bad = [] ∧ x.pages.find (x.header / 2 ^ 18) = some 0x140000) ∧
    (let x : SxPage := { cluster := 0, oid := 1, team := 0, gang := 1, core := 0, cursor := 0x100, piece := 1, prec := 0x2140, base := 0x1000, len := 8 };
    let d : Death := { cluster := 0, oid := 1, prec := 0x2140, pool := 0x30040, esize := 4 };
    let s := { worldOf pieceCells [] id (.sxTrunc (bar (.s 6) (.s 2) .none .none 0)) with sxPages := [x], deaths := [d] };
    (s.sxPages.find? fun x => decide (x.cluster = clusterOf s.sel.core)) = some x ∧ (s.gang x.gang).isSome = true ∧
      (match sxPagesIn x (pageVas x.base x.len) s with | (s1, .done) => (match engineWord s1 0 1 (0x2140 + 16) accW with | (_, .at _) => true | _ => false) | _ => false) = true ∧
      (match engineWord s 0 1 0x2140 accR with | (s1, .at pa) => decide (homeNat s1 (pa + 17) 1 % 2 = 0) | _ => false) = true ∧
      (let s' := { worldOf ((0x142151, 1, 1) :: pieceCells ++ poolCells) [] id nopW with deaths := [d] };
        (match engineWord s' 0 1 0x2140 accR with | (s1, .at pa) => decide (homeNat s1 (pa + 17) 1 % 2 = 1 ∧ rangeBusy s' 1 0x5000 32 = false ∧ (deathPush s1 d).2.1 ≠ .wait ∧ (deathPush s1 d).2.2 ≠ .wait) | _ => false) = true)) := by
  refine ⟨?_, ?_, by decide +kernel, by decide +kernel⟩
  · intro f i s t m
    have h : ((hdrB (drain s 0 t) t m 0x2000).any fun x => decide (editTaken t x.2 = false ∧ 5 < x.2.total ∧ x.2.current ≠ 0) && (refsB x.1 t m (xva x.2.current) x.2.count).any fun y =>
        decide (y.2.2 = [(0x2100, 0), (0x2140, 4)]) && (editB y.1 t m x.2 ((y.2.2 ++ y.2.2).map (·.1)) [x.2.vpool] y.2.1).any fun z => (blockB z.1 t m x.2 z.2).any fun w =>
          decide (w.2.2 = 0x8000 ∧ holders w.1 1 w.2.1 0x2140 = 1 ∧ fits w.1 1 w.2.1 0x2140 (x.2.total - 4) 6 = true)) = true := by decide +kernel
    obtain ⟨x, hx, h⟩ := found h
    rw [Bool.and_eq_true, decide_eq_true_eq] at h
    obtain ⟨⟨h1, h2, h3⟩, h⟩ := h
    obtain ⟨y, hy, h⟩ := found h
    rw [Bool.and_eq_true, decide_eq_true_eq] at h
    obtain ⟨h4, h⟩ := h
    obtain ⟨z, hz, h⟩ := found h
    obtain ⟨w, hw, h⟩ := found h
    have hc : CurrentGoes x.1 0 t m x.2 y.1 y.2.1 y.2.2 := by
      unfold CurrentGoes
      rw [if_neg h3]
      exact refs_of hy
    exact ⟨by decide +kernel, _, _, _, _, _, _, _, _, _, _, header_of hx, hc, edit_of hz, block_of (by rw [h4]; decide) hw, h1, h2, h4, of_decide_eq_true h⟩
  · intro f i s t m
    have h : ((reachB (drain s 0 t) t m 128 128 accR 0x2000).any fun x => (reachB x.1 t m 128 128 accR 0x2400).any fun y =>
      decide ((stHdr y.1 0x2000 x.2).good = true ∧ (stHdr y.1 0x2400 y.2).good = true ∧ editTaken t (stHdr y.1 0x2400 y.2) = false ∧ (stHdr y.1 0x2400 y.2).current = 0)) = true := by decide +kernel
    obtain ⟨x, hx, h⟩ := found h
    obtain ⟨y, hy, h⟩ := found h
    exact ⟨by decide +kernel, _, _, _, _, reached_of hx, reached_of hy, of_decide_eq_true h⟩

/-! ## Hypotheses of the statements: exceptions, the system, contexts -/

def handled (s : State) : State := { s with kernels := [(1, { kernelOne with hentry := 0x100 })] }
/-- A state's team in handler mode, with more changed. -/
def inHandlerOf (f : Team → Team) (i : Instr) : State := worldOf [] [] (fun t => f { t with handler := true }) i

/-- The conditions of PagesTranslate, checked. -/
def pagesB (s : State) (t : Team) (acc va n : Nat) : Bool := (cutPages (n / 2 ^ 18 + 2) va n).all fun c =>
  match (xlat s (some (keyCore 0)) (clusterOf (keyCore 0)) t.oid c.1 acc).2 with | .ok pa _ _ _ => !isPeer pa | _ => false

theorem pages_of {s : State} {t : Team} {acc va n : Nat} (h : pagesB s t acc va n = true) : PagesTranslate s 0 t acc va n := by
  intro c hc
  have hx := List.all_eq_true.mp h c hc
  split at hx
  · rename_i pa q e l he
    exact ⟨pa, q, e, l, he, by simpa using hx⟩
  · cases hx

/-- A frame with and without a free store, with each policy; a trap with a handler whose store is free; a return from the handler; a call whose
ring has room, one whose ring does not translate, and one replied to. -/
theorem witness_TrapsHandlersAndReturns :
    (let s := handled (world nopW);
      (s.team 0).any (fun t => decide (hentry s t ≠ 0 ∧ olderEntering s 0 t = false)) = true ∧ storeFree s 0 = true ∧
      storeFree { s with cores := [(0, { s.core 0 with store := [(storeKey 0, 5)] })] } 0 = false ∧
      ((world nopW).team 0).any (fun t => decide (hentry (world nopW) t = 0 ∧ t.policy = 0 ∧ t.state ≠ .exiting)) = true ∧ cIllegalOp &&& cScratch = 0 ∧ cScratch &&& cScratch ≠ 0 ∧
      cIllegalOp &&& (cUser ||| cAsync ||| cFp 31) = 0 ∧ headerOk 0x100 = true) ∧
    (let s := (handled (world nopW)).modTeam 0 fun t => { t with entering := true };
      s.activeKey 0 0 = 0 ∧ storeFree s 0 = true ∧ (s.team 0).any (fun t => decide (t.entering = true ∧ olderEntering s 0 t = false)) = true) ∧
    (let i := Instr.trapUser (sys .none .none 0 0x8001);
      issuesWith (handled (world i)) i (fun t => decide (t.handler = false ∧ hentry (handled (world i)) t ≠ 0) && storeFree (handled (world i)) 0 && !olderEntering (handled (world i)) 0 t) = true) ∧
    (let i := Instr.rte (sys .none .none 0 0);
      (issuesWith (inHandlerOf id i) i (fun t => decide (t.handler = true ∧ t.epend = 0)) && issuesWith (inHandlerOf (fun t => { t with epend := 1 }) i) i (fun t => decide (t.epend ≠ 0)) &&
        issuesWith (world i) i (fun t => decide (t.handler = false))) = true) ∧
    (let i := Instr.rteUp (sys .none .none 0 1);
      (issuesWith (inHandlerOf (fun t => { t with policy := 1 }) i) i (fun t => decide (t.handler = true ∧ t.epend = 0 ∧ t.state = .ready ∧ t.policy = 1)) &&
        issuesWith (inHandlerOf (fun t => { t with epast := true }) i) i (fun t => decide (t.policy = 0 ∧ t.epast = true))) = true) ∧
    (let i := Instr.trapSystemCall (sys .none .none 0 0x3400);
      let st := fun (ring : Nat) => { worldOf [(0x14d000, 8, 0), (0x14d010, 1, 4)] [] id i with ctxs := [(1, { ctxOne with hostRing := ring })] };
      let s := st 0xd000;
      let t := teamOf s i;
      let m := lanesOf t .always;
      (issuesFree s i (fun _ => true) && issuesFree (st 0xd0000) i (fun t => match xlat (drain (st 0xd0000) 0 t) (some (keyCore 0)) 0 t.oid 0xd0000 (accR + accW) with | (_, .fail r _) => decide (r ≠ rUncorrTable) | _ => false)) = true ∧
        ∃ s1 pg s2 pg2, PagesTranslate (drain s 0 t) 0 t (accR + accW) 0xd000 64 ∧ ReachesAll (drain s 0 t) 0 t m [(0xd000, 64, accR + accW)] [] s1 pg ∧
          (let e := ringEntryVa s1 0xd000 ((stPa s1 t.oid pg 0xd000).getD 0);
            ringRoom s1 ((stPa s1 t.oid pg 0xd000).getD 0) = true ∧ PagesTranslate s1 0 t accW e 64 ∧ ReachesAll s1 0 t m [(e, 64, accW)] pg s2 pg2)) ∧
    (let s := worldOf [(0x14d046, 2, 1)] [] (fun t => { t with state := .parked, waitKind := .call, callEntry := 0xd040, hostWord := (encode (.trapSystemCall (sys .none .none 0 0x3400))).getD 0 }) nopW;
      waitingKey s 0 0 (fun t => decide (t.waitKind = .call ∧ t.state = .parked)) = some 0 ∧ stPa s 1 [] 0xd040 = some 0x14d040 ∧ homeNat s (0x14d040 + 6) 2 = 1 ∧
        parse (((s.team 0).map fun u => u.hostWord).getD 0) = .trapSystemCall (sys .none .none 0 0x3400)) := by
  refine ⟨by decide +kernel, by decide +kernel, by decide +kernel, by decide +kernel, by decide +kernel, ?_, by decide +kernel⟩
  intro i st s t m
  have h : (pagesB (drain s 0 t) t (accR + accW) 0xd000 64 && (allB (drain s 0 t) t m [(0xd000, 64, accR + accW)] []).any fun x =>
      let e := ringEntryVa x.1 0xd000 ((stPa x.1 t.oid x.2 0xd000).getD 0)
      ringRoom x.1 ((stPa x.1 t.oid x.2 0xd000).getD 0) && pagesB x.1 t accW e 64 && (allB x.1 t m [(e, 64, accW)] x.2).any fun _ => true) = true := by decide +kernel
  rw [Bool.and_eq_true] at h
  obtain ⟨h1, h⟩ := h
  obtain ⟨x, hx, h⟩ := found h
  rw [Bool.and_eq_true, Bool.and_eq_true] at h
  obtain ⟨y, hy, -⟩ := found h.2
  exact ⟨by decide +kernel, _, _, _, _, pages_of h1, reachedSeq_of hx, h.1.1, pages_of h.1.2, reachedSeq_of hy⟩

theorem witness_SystemRegistersHistoryAndClocks :
    (let p := fun (f : SYS) => issuesWith (inHandlerOf id (.frd f)) (.frd f) fun t => namedFits (inHandlerOf id (.frd f)) t f (namedCode (inHandlerOf id (.frd f)) 0 t f) false;
      (p (sys (.ks 1) .none 257 0) && p (sys (.kv 1) .none 3 0) && p (sys (.kv 1) .none 323 0)) = true) ∧
    (let p := fun (f : SYS) => issuesWith (inHandlerOf id (.fwr f)) (.fwr f) fun t => namedFits (inHandlerOf id (.fwr f)) t f (namedCode (inHandlerOf id (.fwr f)) 0 t f) true;
      (p (sys (.ks 1) .none 257 0) && p (sys (.kv 1) .none 3 0) && p (sys (.kv 1) .none 323 0)) = true) ∧
    (let f := sys (.s 2) .none 2 0;
      issuesWith (world (.sysrd f)) (.sysrd f) fun t => !sysAllowed (world (.sysrd f)) t 2) = true ∧
    (let p := fun (f : SYS) (r : Nat) => issuesWith (inHandlerOf id (.sysrd f)) (.sysrd f) fun t => sysAllowed (inHandlerOf id (.sysrd f)) t r;
      (p (sys (.s 2) .none 4 0) 4 && p (sys (.p 2) .none 6 0) 6) = true) ∧
    (let p := fun (f : SYS) (r : Nat) => issuesWith (inHandlerOf id (.syswr f)) (.syswr f) fun t => sysAllowed (inHandlerOf id (.syswr f)) t r && !sysRO r;
      (p (sys .none (.s 2) 0 0) 0 && p (sys .none (.s 2) 1 0) 1 && p (sys .none (.p 2) 7 0) 7 && p (sys .none (.s 2) 0x2b 0) 0x2b && p (sys .none (.s 2) 0x3b 0) 0x3b) = true) ∧
    (let f := sys (.s 2) (.s 4) 3 0;
      let s := fun (n : Nat) => worldOf [] [] (sregs [(4, n)]) (.hbWr f);
      (issuesWith (s 31) (.hbWr f) (fun t => decide ((opdS (s 31) 0 t f.a).toNat < hbEntries 3)) && issuesWith (s 32) (.hbWr f) (fun t => decide (hbEntries 3 ≤ (opdS (s 32) 0 t f.a).toNat))) = true) ∧
    (let f := sys (.s 2) (.s 4) 0 0;
      let s := worldOf [] [] (sregs [(4, 0x1000)]) (.hbLd f);
      (issuesWith s (.hbLd f) fun t => let a := opdS s 0 t f.a;
        decide (wideSnare s 0 t (lanesOf t f.g) accR [(extVA a, 2048)] = none ∧ a.toNat % 64 = 0 ∧ peerHold s 0 = false ∧ rowPages a 2048 = [extVA a]) && mappedB s 0 t accR (extVA a) 0x141000 &&
          (let ps := pagePieces [(extVA a / 2 ^ 18, 0x141000 - extVA a % 2 ^ 18)] a 2048; (spanBad (ps.foldl (fun st p => settlePhys st 0 p.2.1 p.2.2) s) ps).isNone)) = true) ∧
    (let s := worldOf [] [] (fun t => { t with state := .stopped, held := true, heldSnare := 15 }) nopW;
      (snHit s s.sel.core).getLsbD 63 = false ∧ (s.team (s.activeKey 0 0)).map (fun t => t.held) = some true ∧
      (let s' := { s with cores := [(0, { s.core 0 with snares := (s.core 0).snares.put 0x3f (2 ^ 63 + 15) })] };
        (snHit s' 0).getLsbD 63 = true ∧ (s'.team (s'.activeKey 0 (bitsAt (snHit s' 0).toNat 8 6))).map (fun t => t.held) = some true)) :=
  ⟨by decide +kernel, by decide +kernel, by decide +kernel, by decide +kernel, by decide +kernel, by decide +kernel, by decide +kernel, by decide +kernel⟩

/-- A pipe with a contender, a deadline that has passed; teams whose clause can be fetched, whose waits do not hold, who take a held cause first,
whose header is bad; one that sleeps, one whose deadline has come; a turn that is over. -/
theorem witness_ClausesTurnsAndWakes :
    (let s0 := worldOf [(0x140000, 8, (headerFor 0).toNat)] [] (fun t => { t with clause := [] }) nopW;
      let s := { s0 with cores := [(0, { s0.core 0 with pipes := [] })] };
      (s.core 0).pipes.find 0 = none ∧ (s.core 0).swap = none ∧ (s.core 0).active < 2 ∧ (contenders s 0 0).map (fun x => x.1) = [0] ∧ (peekHeader s (teamOf s nopW)).isSome = true) ∧
    (let st := fun (hdr : W64) (f : Team → Team) => worldOf [(0x140000, 8, hdr.toNat)] [] (fun t => f { t with clause := [] }) nopW;
      let p := fun (s : State) (q : Team → State → W64 → Bool) => decide (s.selKey = some 0) && (s.team 0).any fun t =>
        decide (t.clause = [] ∧ t.state = .ready ∧ t.busyLeaf = none ∧ t.entering = false ∧ halted s 0 t = false ∧ headerOk t.h = true ∧ t.farH = false) &&
          (match fetchPage s 0 t (extVA t.h) with
          | .got s1 pa => let hdr := BitVec.ofNat 64 (homeNat s1 pa 8);
            !badAt s1 pa 8 && decide (extVA t.h % 2 ^ 18 + 8 + 8 * hdrCount hdr ≤ 2 ^ 18) && !badAt s1 (pa + 8) (8 * hdrCount hdr) && q t s1 hdr
          | _ => false);
      let ok := headerFor 0;
      (p (st ok id) fun t s1 hdr => hdrOk hdr && waitsHold s1 0 t hdr && decide (t.i < hdrCount hdr ∧ t.fpReport = none) && !heldPoint (holdPoison t)) = true ∧
      (p (st ok fun t => { t with mxOut := 3 }) fun t s1 hdr => hdrOk hdr && decide (t.i ≤ hdrCount hdr) && (waitsHold s1 0 t hdr || decide (t.mxOut = 3))) = true ∧
      (p (st ok fun t => { t with held := false, poison := [{ regs := [7], word := 1, hdr := ok, addr := 0 }] }) fun t s1 hdr => hdrOk hdr && waitsHold s1 0 t hdr && decide (t.i < hdrCount hdr) && heldPoint (holdPoison t)) = true ∧
      (p (st 0 id) fun _ _ hdr => !hdrOk hdr) = true ∧ (p (st ok fun t => { t with i := 9 }) fun t _ hdr => hdrOk hdr && decide (hdrCount hdr < t.i)) = true ∧ headerOk 4 = false) ∧
    (let s := worldOf [] [] (fun t => { t with state := .sleeping, wake := 0 }) nopW;
      (s.team (s.activeKey 0 0)).map (fun t => decide (t.state = .sleeping ∧ t.wake ≤ s.tick)) = some true) ∧
    (let s := worldOf [] [] (fun t => { t with state := .waiting, waitKind := .ring, wait := waitMake [(16, 0)] }) nopW;
      (s.team (s.activeKey 0 0)).map (fun t => waitOver? s 0 t) = some true) ∧
    (let s0 := world nopW;
      let s := { s0 with parts := [(0, partOne), (1, { Part.reset 1 with slice := 5, cores := 1 })], cores := [(0, { s0.core 0 with deadline := some 0, slicePart := none })], tick := 3 };
      nextPart (sliceParts s 0) (s.core 0).slicePart = some 1 ∧ turnOver s 0 = true ∧ (s.core 0).swap = none ∧ ((s.core 0).bank (s.core 0).shadow).spilling = false ∧
        ((s.core 0).bank (s.core 0).shadow).staging = false ∧ outgoingOk s 0 = true) := by decide +kernel

/-! ## Hypotheses of the statements: contexts in and out -/

def schedCtx (st : CState) : Ctx := { ctxOne with state := st, queues := [] }

def ctxTwo (st : CState) : Ctx := { schedCtx st with halves := [] }

/-- A leaf of 2^33 bytes at the start of tier 0, with A and D set. -/
def areaTlb (oid : Nat) : TlbEntry := { oid := oid, large := true, vpn := 0, leafPa := 0x100000, leaf := 0x8000000000000183, way := 0 }
/-- Context 2 in a state, its save area at hand, beside what a state holds. -/
def withArea (st : CState) (s : State) : State :=
  { s with ctxs := [(1, ctxOne), (2, ctxTwo st)], clusters := [(0, { Cluster.reset with tlb := [tlbOne, areaTlb 2] })] }

theorem area_goes (st : CState) (s : State) (hb : s.bad = []) (hp : s.parts = [(0, partOne)]) : AreaGoes (withArea st s) 2 := by
  refine ⟨hb, ctxTwo st, rfl, fun off ho => ?_⟩
  have hx : xva 0x40000 = 0x40000 := by decide
  refine ⟨areaTlb 2, 0x40000 + off, ?_, ?_, by decide, by unfold areaBytes at ho; omega⟩
  · show [tlbOne, areaTlb 2].find? (fun e => decide (e.oid = 2 ∧ e.vpn = vpnOf e.large (xva 0x40000 + off))) = _
    rw [hx]
    rw [List.find?_cons_of_neg (by simp [tlbOne]), List.find?_cons_of_pos]
    simp only [areaTlb, vpnOf, decide_eq_true_eq]
    unfold areaBytes at ho
    exact ⟨trivial, by simp; omega⟩
  · have hg : Machine.segment (withArea st s) 0 0 = (0, 0x40000000) := by
      simp only [Machine.segment, State.part, withArea, hp]; decide
    have hm : (0x40000 + off) % 2 ^ 33 = 0x40000 + off := by unfold areaBytes at ho; omega
    show tlbUse (withArea st s) 0 accW (xva 0x40000 + off) (areaTlb 2) = some (0x40000 + off)
    rw [hx]
    unfold tlbUse
    rw [show pteW (areaTlb 2).leaf = true by decide, show pteD (areaTlb 2).leaf = true by decide, show pteTier (areaTlb 2).leaf = 0 by decide,
      show pteOff (areaTlb 2).leaf = 0 by decide, show (areaTlb 2).large = true from rfl]
    have ha : accW / 4 % 2 ≠ 1 := by decide
    simp only [ha, hm, segPa, segUsable, hg]
    unfold areaBytes at ho
    simp [tierRange]; omega

/-- A state with two contexts whose team of context 1 reads a mask and an OID from s2 and s3. -/
def swapping (c1 c2 : Ctx) (core : Core → Core) (mask oid : Nat) (i : Instr) : State :=
  let s := worldOf [] [] (sregs [(2, mask), (3, oid)]) i
  { s with ctxs := [(1, c1), (2, c2)], cores := [(0, core (s.core 0))] }
def bankTwo : Bank := { Bank.empty with owner := some 2 }
def swapF : SYS := sys (.s 6) (.s 2) 0 0

/-- The forms of ctx.swap and ctx.save in each of their outcomes, a load of a record that is read, and one whose leaf is BUSY. -/
theorem witness_ContextFormsIssue :
    (let p := fun (i : Instr) (c1 c2 : Ctx) (core : Core → Core) (mask oid : Nat) (q : State → Team → W64 → Nat → Bool) => let s := swapping c1 c2 core mask oid i
      issuesWith s i fun t => q s t (opdS s 0 t swapF.a) (opdS s 0 t (Opd.next swapF.a 1)).toNat;
      let ready := ctxTwo .ready;
      let staged := fun (c : Core) => { c with bank1 := bankTwo };
      let each := fun (i : Instr) (core bad : Core → Core) (check : State → Nat → Nat) =>
        p i { ctxOne with sched := false } ready core 1 2 (fun s t _ _ => !teamSched s t) && p i ctxOne ready core 1 4096 (fun s t _ o => teamSched s t && decide (2 ^ 12 ≤ o)) &&
        p i ctxOne ready core 0 2 (fun _ _ m _ => decide (m = 0)) &&
        p i { ctxOne with partition := 1 } { ready with partition := 2 } core 1 2 (fun s t m o => decide (m = 1) && (ctxLive s o && !partAllowed (teamPart s t) (ctxPart s o))) &&
        p i ctxOne ready core 1 2 (fun s t m o => decide (m = 1 ∧ o = 2) && !(ctxLive s o && !partAllowed (teamPart s t) (ctxPart s o)) && decide (check s 0 = 0)) &&
        p i ctxOne ready bad 1 2 (fun s _ m o => decide (m = 1 ∧ o = 2 ∧ check s 0 ≠ 0));
      (each (.ctxSwapStage swapF) id staged (fun s => stageCheck s 2) && each (.ctxSwap { swapF with lo := 1 }) staged id (fun s => swapCheck s 2) &&
        each (.ctxSwapChain { swapF with lo := 2 }) id staged (fun s c => if stageCheck s 2 c ≠ 0 then stageCheck s 2 c else if outgoingOk s c = true then 0 else 7) &&
        each (.ctxSwapDrop { swapF with lo := 3 }) staged id (fun s c => if stagedOn s 2 c = true ∧ (s.core c).swap = none then 0 else 2)) = true) ∧
    (let p := fun (c1 c2 : Ctx) (oid : Nat) (q : State → Team → Bool) => let s := swapping c1 c2 id oid 0 (.ctxSave swapF)
      issuesWith s (.ctxSave swapF) fun t => decide ((opdS s 0 t swapF.a).toNat = oid) && q s t;
      let sched := fun (s : State) (t : Team) (b : Bool) => teamSched s t && decide (partAllowed (teamPart s t) (ctxPart s 2) = b);
      (p { ctxOne with sched := false } (ctxTwo .ready) 2 (fun s t => !teamSched s t) && p ctxOne (ctxTwo .ready) 5 (fun s t => teamSched s t && decide (s.ctx 5 = none)) &&
        p ctxOne (ctxTwo .saved) 2 (fun s t => sched s t true) && p { ctxOne with partition := 1 } { ctxTwo .ready with partition := 2 } 2 (fun s t => sched s t false) &&
        p ctxOne (ctxTwo .saving) 2 (fun s t => sched s t true) && p ctxOne (ctxTwo .failed) 2 (fun s t => sched s t true) &&
        p ctxOne (ctxTwo .ready) 2 (fun s t => sched s t true && ctxRuns (ctxTwo .ready))) = true) ∧
    (let s := fun (leaf : Nat) (c : Ctx) => { worldOf [(0x100008, 8, leaf)] [] (sregs [(2, 0x40000)]) (.ctxLoad swapF) with mem := cells ((0x100008, 8, leaf) :: tables), ctxs := [(1, c)] };
      let p := fun (leaf : Nat) (c : Ctx) (q : State → Team → Bool) => issuesWith (s leaf c) (.ctxLoad swapF) fun t => q (s leaf c) t;
      (p 0x180187 { ctxOne with sched := false } (fun s t => !teamSched s t) &&
        p 0x18018f ctxOne (fun s t => teamSched s t && !peerHold s 0 && match (partRead s t.oid (extVA (opdS s 0 t swapF.a)) 4096).2 with | .wait => true | _ => false) &&
        p 0x180187 ctxOne (fun s t => teamSched s t && !peerHold s 0 &&
          let r := partRead s t.oid (extVA (opdS s 0 t swapF.a)) 4096
          match r.2 with | .got bs => decide (loadStatus r.1 (opdS s 0 t swapF.a) (some bs) (partAllowed (teamPart s t)) ≠ 0) | _ => false)) = true) := by
  refine ⟨by decide +kernel, by decide +kernel, by decide +kernel⟩


/-- A core with a swap that is not begun, one to be saved, one with a stray handler; a pending swap at its end; spills that go, wait and fail;
stagings that can be read and that wait; saves that have drained, that wait and that fail. -/
theorem witness_ContextSwapSaveLoad :
    (let s0 := world nopW;
      let at1 := fun (f : Core → Core) (cs : Table Ctx) => { s0 with ctxs := cs, cores := [(0, f (s0.core 0))] };
      let two := fun (st : CState) => [(1, ctxOne), (2, ctxTwo st)];
      (((at1 (fun c => { c with swap := some { start := 0, begun := false, incoming := none } }) (two .ready)).core 0).swap = some { start := 0, begun := false, incoming := none } ∧
        saveSwap (at1 id [(1, schedCtx .saving)]) 0 = some { start := 0, begun := false, incoming := none } ∧
        (let s := { at1 id [(1, ctxOne), (2, ctxTwo .saving)] with teams := [(64, { Team.blank 32 with oid := 2, handler := true })] };
          (s.core 0).swap = none ∧ saveSwap s 0 = none ∧ strayHandler s 0 = some 2 ∧ ((s.core 0).bank (s.core 0).shadow).owner = none ∧ outgoingOk s 0 = true)) ∧
      (let s := { at1 (fun c => { c with swap := some { start := 0, begun := true, incoming := none } }) (two .ready) with cycle := 128 };
        s.sel.core = 0 ∧ (s.core 0).active < 2 ∧ (s.core 0).swap = some { start := 0, begun := true, incoming := none } ∧ 0 + 128 ≤ s.cycle)) ∧
    (let sp := fun (st : CState) (s : State) => withArea st { s with teams := [], cores := [(0, { Core.reset with bank1 := { bankTwo with spilling := true } })] };
      spillable (sp .ready (world nopW)) 0 = some 2 ∧ AreaGoes (sp .ready (world nopW)) 2 ∧
      (let s := { sp .ready (world nopW) with clusters := [], ctxs := [(2, { ctxTwo .ready with roots := [] })] }; spillable s 0 = some 2 ∧ (spill s 0 2).2 = .fail) ∧
      (let s := { sp .ready (world nopW) with clusters := [], mem := cells [(0x40000, 8, 0x80001), (0x80000, 8, 0xc0001), (0xc0000, 8, 0x100001), (0x100008, 8, 0x18018f)] }; spillable s 0 = some 2 ∧ (spill s 0 2).2 = .wait)) ∧
    (let sg := fun (held : Bool) (s : State) => withArea .staged { s with teams := [], cores := [(0, { Core.reset with bank1 := { bankTwo with staging := true, loadedHalf := held } })] };
      let s := sg true (world nopW);
      ((s.core 0).bank (s.core 0).shadow).owner = some 2 ∧ ((s.core 0).bank (s.core 0).shadow).staging = true ∧ ((s.core 0).bank (s.core 0).shadow).loadedHalf = true ∧ AreaGoes s 2 ∧
      AreaGoes (sg false (world nopW)) 2 ∧ ∀ slot, slot < 64 → (areaRead s 2 (areaRecord 0 slot) 256).2.any (fun bs => decide (fieldOf bs 144 1 = 0)) = true) ∧
    (let sv := fun (st : CState) (s : State) => withArea st { s with teams := [], gangs := [], kernels := [], cores := [] };
      let s := sv .saving (world nopW);
      s.ctx 2 = some (ctxTwo .saving) ∧ ctxBusy s 2 = false ∧ offBanks s 2 = true ∧ framesDone s 2 = true ∧ AreaGoes s 2 ∧
      ((saveWrites (flushOid { s with teams := s.teams.map fun e => (e.1, resetWait 2 e.2) } 2) (ctxTwo .saving)).all fun w => decide (w.1 + w.2.length ≤ areaBytes)) = true ∧
      (let s := { s with clusters := [], ctxs := [(2, { ctxTwo .saving with roots := [] })] };
        (areaWrites 2 (saveWrites (flushOid { s with teams := s.teams.map fun e => (e.1, resetWait 2 e.2) } 2) (ctxTwo .saving)) s).2 = .fail) ∧
      (let s := { s with ctxs := [(2, { ctxTwo .failed with releasing := true })] }; ctxBusy s 2 = false) ∧
      (let s := { s with pageIns := [(1, { cluster := 0, oid := 2, leafPa := 0, leaf := 0, va := 0, acc := 1, team := none, mask := 0, code := 0 })] }; ctxBusy s 2 = true)) :=
  ⟨⟨by decide +kernel, by decide +kernel⟩, ⟨by decide +kernel, area_goes _ _ rfl rfl, by decide +kernel, by decide +kernel⟩,
    ⟨by decide +kernel, by decide +kernel, by decide +kernel, area_goes _ _ rfl rfl, area_goes _ _ rfl rfl, by decide +kernel⟩,
    ⟨by decide +kernel, by decide +kernel, by decide +kernel, by decide +kernel, area_goes _ _ rfl rfl, by decide +kernel, by decide +kernel, by decide +kernel, by decide +kernel⟩⟩


/-- A record of context 2 at page 1 whose own root entries map its save area by one large leaf. -/
def recorded : State :=
  { worldOf [(0x180000, 2, 2), (0x180003, 1, 3), (0x180008, 8, 0x1c0001), (0x1c0000, 8, 0x200001), (0x200000, 8, 0x240001), (0x240000, 8, 0x8000000000000183)] []
    (sregs [(2, 0x40000)]) (.ctxLoad swapF) with parts := [(0, { partOne with cores := 2, bootRec := 0x180000, bootVa := 0x40000 })] }

theorem recorded_walk (va : Nat) (h : va < 0x40000000) : walkTable recorded 0 va accW 4 0x1c0001 = .ok va 0x240000 0x8000000000000183 true := by
  have h3 : bitsAt va (18 + 15 * 3) 15 = 0 := by unfold bitsAt; omega
  have h2 : bitsAt va (18 + 15 * 2) 15 = 0 := by unfold bitsAt; omega
  have h1 : bitsAt va (18 + 15 * 1) 15 = 0 := by unfold bitsAt; omega
  have hl : leafResult recorded 0 va accW 0x240000 0x8000000000000183 true = .ok va 0x240000 0x8000000000000183 true := by
    have hm : va % 2 ^ 33 = va := by omega
    have hg : Machine.segment recorded 0 0 = (0, 0x40000000) := by decide +kernel
    have hs : segPa recorded 0 0 va = some va := by
      simp only [segPa, segUsable, hg]
      simp [tierRange]; exact h
    unfold leafResult
    rw [show pteOff 0x8000000000000183 = 0 by decide, show pteTier 0x8000000000000183 = 0 by decide, show leafBad 0x8000000000000183 true = false by decide]
    simp only [hm]
    simp [accW, hs]
    rfl
  have go : ∀ n e x base, n ≠ 0 → pteV e = true → tableOk e = true → segPa recorded 0 (pteTier e) (pteOff e) = some base → bitsAt va (18 + 15 * n) 15 = 0 →
      badAt recorded base 8 = false → BitVec.ofNat 64 (homeNat recorded base 8) = x →
      walkTable recorded 0 va accW (n + 1) e = if n = 1 ∧ pteL x = true then leafResult recorded 0 va accW base x true else walkTable recorded 0 va accW n x := by
    intro n e x base hn hv ht hb hz hbad hx
    rw [walkTable]
    simp [hn, hv, ht, hb, hz, hbad, hx]
  rw [go 3 0x1c0001 0x200001 0x1c0000 (by decide) (by decide) (by decide) (by decide +kernel) h3 (by decide +kernel) (by decide +kernel), if_neg (by decide),
    go 2 0x200001 0x240001 0x200000 (by decide) (by decide) (by decide) (by decide +kernel) h2 (by decide +kernel) (by decide +kernel), if_neg (by decide),
    go 1 0x240001 0x8000000000000183 0x240000 (by decide) (by decide) (by decide) (by decide +kernel) h1 (by decide +kernel) (by decide +kernel), if_pos (by decide), hl]

/-- The bytes of the record. -/
def recordedBytes : List Byte := layout 4096 [(0, 2, 2), (3, 1, 3), (8, 8, 0x1c0001)]

theorem recorded_area : areaMapped recorded recordedBytes 0x40000 = true := by
  have hp : fieldOf recordedBytes 2 1 = 0 := by decide +kernel
  have hr : BitVec.ofNat 64 (fieldOf recordedBytes 8 8) = 0x1c0001 := by decide +kernel
  unfold areaMapped
  rw [List.all_eq_true]
  intro i hi
  have hi' : i < 549 := by simpa [areaBytes] using hi
  have hb : bitsAt (0x40000 + i * 2 ^ 18) 78 2 = 0 := by unfold bitsAt; omega
  have hw := recorded_walk (0x40000 + i * 2 ^ 18) (by omega)
  simp only [hp, hb]
  rw [show 8 + 8 * 0 = 8 from rfl, hr, hw]
  have : isPeer (0x40000 + i * 2 ^ 18) = false := by simp [isPeer]; omega
  simp only [this]
  decide

/-- A load that makes its context live; and records that are live already, or of a partition that is not allowed. -/
theorem witness_ContextLoadGoes :
    (issuesWith recorded (.ctxLoad swapF) fun t => teamSched recorded t && !peerHold recorded 0 && decide (opdS recorded 0 t swapF.a = 0x40000) &&
      let r := partRead recorded t.oid 0x40000 4096
      decide (r.1.ctxs = recorded.ctxs) && match r.2 with | .got bs => decide (bs = recordedBytes) | _ => false) = true ∧
    loadStatus recorded 0x40000 (some recordedBytes) (partAllowed 0) = 0 ∧ loadStatus recorded 0x40000 (some recordedBytes) (fun _ => false) = 6 := by
  have hv : recordValid recordedBytes = true := by decide +kernel
  have ha : areaMapped recorded recordedBytes (extVA 0x40000) = true := recorded_area
  have hl : ctxLive recorded (fieldOf recordedBytes 0 2) = false := by decide +kernel
  have key : ¬((0x40000 : W64).toNat % 2 ^ 18 ≠ 0 ∨ recordValid recordedBytes = false ∨ areaMapped recorded recordedBytes (extVA 0x40000) = false) := by
    rintro (h | h | h)
    · exact h (by decide)
    · rw [hv] at h; cases h
    · rw [ha] at h; cases h
  refine ⟨by decide +kernel, ?_, ?_⟩ <;> (unfold loadStatus; dsimp only; rw [if_neg key, hl]; rfl)


/-- A world whose one queue is q, with further memory. -/
def queued (q : Queue) (ms : List (Nat × Nat × Nat)) : State := { worldOf ms [] id nopW with ctxs := [(1, { ctxOne with queues := [(0, q)] })], kernels := [] }
def queueTwo : Queue := { queueOne with tail := 2 }
/-- The head command of the queue is read, nothing of the queue is known, and more holds. -/
def headIs (ms : List (Nat × Nat × Nat)) (p : State → List Byte → Bool) : Bool :=
  match headOf (queued queueTwo ms) 1 queueTwo with | (s1, .cmd bs) => decide (s1.kernels = []) && p s1 bs | _ => false

theorem unknown_of {s1 : State} (h : s1.kernels = []) : ∀ n, knownCommand s1 1 0 { ctxOne with queues := [(0, queueTwo)] } queueTwo n = false := by
  intro n; simp [knownCommand, h, queueTwo, queueOne, ctxOne]

/-- Queues with each kind of tail value to observe, heads of each kind, and each state of the entries. -/
theorem witness_QueuesRead :
    (let v := fun (n tail : Nat) (st : QState) (en : Bool) (bad : Nat) => { queueOne with pubs := [(n, none, 0)], tail := tail, state := st, enabled := en, descBad := bad };
      let p := fun (q : Queue) (c : Queue → Bool) => ctxRuns ctxOne && ((queued q []).queue 1 0).any c;
      (p (v 1 2 .running true 0) (fun q => decide (1 < q.tail)) && p (v 2 1 .idle true 0) (fun q => decide (q.state ≠ .faulted)) && p (v 2 1 .faulted true 0) (fun q => decide (q.state = .faulted)) &&
        p (v 2 1 .faulted true 2) (fun q => decide (q.descBad ≠ 0)) && p (v 2 1 .faulted false 0) (fun q => !q.enabled && !quotaRoom { queued q [] with parts := [(0, { partOne with queues := 0 })] } 0)) = true) ∧
    (unstarted (queued queueOne []) 1 0 = [] ∧ (match (headOf (queued queueOne []) 1 queueOne).2 with | .empty => true | _ => false) = true ∧
      (match (headOf { queued queueTwo [] with mem := cells ((0x100000, 8, 0x14018f) :: tables), clusters := [] } 1 queueTwo).2 with | .wait => true | _ => false) = true ∧
      (match (headOf (queued queueTwo [(0x143000, 1, 7)]) 1 queueTwo).2 with | .fault c => decide (c = 1) | _ => false) = true ∧
      headBlocked (queued { queueOne with waits := [(1, [(9, 0)])] } []) 1 0 = some true ∧
      headBlocked { queued queueOne [] with kernels := [(1, { kernelOne with state := .read, pkt := { packetOne with depQueue := 0xffff } })] } 1 0 = some false) ∧
    (headIs [] (fun _ bs => decide (fieldOf bs 0 1 = 0 ∧ fieldOf bs 1 63 = 0)) && headIs [(0x143001, 1, 1)] (fun _ bs => decide (fieldOf bs 0 1 = 0 ∧ fieldOf bs 1 63 ≠ 0)) &&
      headIs [(0x143000, 1, 0xe), (0x143008, 8, 0x3040)] (fun _ bs => decide (fieldOf bs 0 1 = 0xe ∧ fieldOf bs 1 7 = 0 ∧ fieldOf bs 16 48 = 0 ∧ fieldOf bs 8 8 % 64 = 0)) &&
      headIs [(0x143000, 1, 0xe), (0x143008, 8, 0x3041)] (fun _ bs => decide (fieldOf bs 1 7 = 0 ∧ fieldOf bs 16 48 = 0 ∧ fieldOf bs 8 8 % 64 ≠ 0)) &&
      headIs [(0x143000, 1, 0xe), (0x143010, 1, 1)] (fun _ bs => decide (fieldOf bs 16 48 ≠ 0))) = true ∧
    (let w := fun (q n : Nat) => [(0x143000, 1, 3), (0x143008, 8, n), (0x143010, 2, q), (0x143020, 2, 0xffff), (0x143030, 2, 0xffff)];
      let p := fun (ms : List (Nat × Nat × Nat)) (c : State → List Byte → Bool) => headIs ms fun s1 bs => decide (fieldOf bs 0 1 = 3 ∧ waitMet (queued queueTwo ms) 1 0 = none) && c s1 bs;
      let dep := fun (bs : List Byte) => decide (fieldOf bs 1 7 = 0 ∧ fieldOf bs 56 8 = 0) && [8, 24, 40].all fun i => !depReserved bs i;
      let known := fun (s1 : State) (bs : List Byte) => [8, 24, 40].all fun i => decide (fieldOf bs (i + 8) 2 = 0xffff) || (s1.queue 1 (fieldOf bs (i + 8) 2)).isSome;
      let met := fun (s1 : State) (bs : List Byte) => [8, 24, 40].all fun i => decide (fieldOf bs (i + 8) 2 = 0xffff) || (s1.queue 1 (fieldOf bs (i + 8) 2)).any fun x => decide (fieldOf bs i 8 ≤ x.completion);
      (p (w 0 0) (fun s1 bs => dep bs && known s1 bs && met s1 bs) && p (w 0 1) (fun s1 bs => dep bs && known s1 bs && !met s1 bs) && p (w 9 1) (fun s1 bs => dep bs && !known s1 bs) &&
        p ((0x143038, 1, 1) :: w 0 0) (fun _ bs => !dep bs)) = true ∧
      waitMet (queued { queueOne with waits := [(1, [(0, 0xffff)])], issued := [1] } []) 1 0 = some 1) ∧
    (headIs [(0x143000, 1, 1)] (fun _ bs => decide (fieldOf bs 0 1 = 1)) &&
      headIs [(0x143000, 1, 2)] (fun s1 bs => decide (fieldOf bs 0 1 = 2 ∧ cardCode s1 bs ≠ 0 ∧ nextJob (queued queueTwo [(0x143000, 1, 2)]) 1 0 = none)) &&
      (let ms := [(0x143000, 1, 2), (0x143018, 8, 16), (0x143020, 4, 1)]; headIs ms (fun s1 bs => decide (fieldOf bs 0 1 = 2 ∧ cardCode s1 bs = 0 ∧ nextJob (queued queueTwo ms) 1 0 = none)))) = true ∧
    (let e : Entry := { queue := 0, seq := 2, addr := 0x3000, kernel := none, card := List.replicate 128 0, regions := [], order := 0, started := false, done := false, progress := 0, sentAt := none };
      let c := { ctxOne with window := [e] };
      let s := { queued queueOne [] with ctxs := [(1, c)] };
      s.ctx 1 = some c ∧ c.window.find? (fun e => decide (e.queue = 0) && !e.started) = some e ∧ jobReady s 1 e = true ∧ outranked s (queuePrio s 1 0) e.order e.seq = false) := by
  refine ⟨by decide +kernel, by decide +kernel, by decide +kernel, by decide +kernel, by decide +kernel, by decide +kernel⟩

theorem witness_KernelsRun :
    (let k := { kernelOne with state := .read, nextGang := 0 };
      let st := fun (k : Kernel) (ks : Table Kernel) => { worldOf [] [] id nopW with kernels := (1, k) :: ks, teams := [], gangs := [] };
      let ready := fun (k : Kernel) (ks : Table Kernel) (q : State → Bool) => let s := st k ks; kernelReady s k && !outranked s (queuePrio s k.oid k.queue) k.order k.seq && q s;
      let dig := fun (leaf : Nat) => { st { k with pkt := { packetOne with digest := true, digestRec := 0x40000 } } [] with mem := cells ((0x100008, 8, leaf) :: tables), clusters := [] };
      kernelReady (st kernelOne []) kernelOne = false ∧ outranked (st k []) 0 5 9 = true ∧ ready k [] (fun s => decide ((admitCode s k).2 = some 0)) = true ∧
      ready { k with bad := 3 } [] (fun s => decide ((admitCode s { k with bad := 3 }).2 = some 3)) = true ∧
      (let d := { k with pkt := { packetOne with digest := true, digestRec := 0x40000 } }; kernelReady (dig 0x18018f) d = true ∧ (admitCode (dig 0x18018f) d).2 = none) ∧
      contextBad (st k []) ctxOne { packetOne with scratch := 2 ^ 40 } = true ∧ contextBad (st k []) ctxOne packetOne = false) ∧
    (let k := { kernelOne with state := .admitted, nextGang := 0 };
      let s := { worldOf [] [] id nopW with kernels := [(1, k)], gangs := [], teams := [] };
      (((placeOrder s).findSome? fun k => (fitKernel s k.2).map fun x => (k, x)).any fun x => decide (x.1 = (1, k))) = true ∧ (placeOrder (world nopW)).findSome? (fun k => (fitKernel (world nopW) k.2).map fun x => (k, x)) = none) ∧
    (let s := worldOf [] [] (fun t => { t with state := .exiting }) nopW;
      waitingKey s 0 0 (fun t => decide (t.state = .exiting)) = some 0 ∧ exitDrained s 0 (teamOf s nopW) = true ∧ (teamOf s nopW).sfcount = 0 ∧
      exitDrained { s with notices := [(1, { core := 0, gang := 1, off := 0, team := 0, count := 0 })] } 0 (teamOf s nopW) = false) ∧
    (let s := { world nopW with teams := [], gangs := [] };
      kernelEnded s 1 kernelOne = true ∧ kernelEnded (world nopW) 1 kernelOne = false ∧
      (let k := { kernelOne with pkt := { packetOne with digest := true, digestRec := 0x40000 }, digest := 5 };
        let d := fun (ms : List (Nat × Nat × Nat)) => { s with kernels := [(1, k)], mem := cells (ms ++ tables), clusters := [] };
        kernelEnded (d []) 1 k = true ∧ (match (digestRecord (d []) k).2 with | .over => true | _ => false) = true ∧
          (match (digestRecord (d [(0x100008, 8, 0x18018f)]) k).2 with | .wait => true | _ => false) = true ∧
          (match (digestRecord (d [(0x180018, 1, 1)]) k).2 with | .again k1 => k1.serial | _ => false) = true)) ∧
    (let c1 := fun (o : List Nat) => { Core.reset with bank0 := { Bank.empty with owner := some 1 }, ousted := o };
      let s := { withArea .ready (world nopW) with teams := [], kernels := [], cores := [(0, c1 [2])] };
      mayReturn s 0 = some 2 ∧
      (let k := { kernelOne with oid := 2, state := .admitted, nextGang := 0 };
        let s := { s with kernels := [(1, k)], cores := [(0, c1 []), (1, c1 []), (2, c1 []), (3, c1 [])] };
        placeOrder s = [(1, k)] ∧ fitKernel s k = none ∧ requestOut s 2 = false ∧ preemptible s k 0 = true ∧ (List.range 16).findSome? (fun cl => (mayReturn s cl).map fun o => (cl, o)) = none)) :=
  ⟨by decide +kernel, by decide +kernel, by decide +kernel, by decide +kernel, by decide +kernel⟩


/-- Start-up; CORES and SLICE writes that are shared and not; a first context; faulting teams; invalidations; host accesses; a gong, a sweep. -/
theorem witness_HostRegistersStartUpAndObservation :
    (let s := fun (lo : W64) => { State.reset with dev := { Dev.reset with featLo := lo, go := true } };
      ((s 0xff).dev.featLo &&& ~~~0xff#64 = 0 ∧ (s 0xff).dev.featHi = 0 ∧ (s 0xff).dev.featLo.getLsbD 0 = true ∧ (s 0xff).dev.go = true ∧ (s 0xff).dev.run = false) ∧
        (s 0xfe).dev.featLo.getLsbD 0 = false ∧ State.reset.dev.go = false ∧ State.reset.dev.ready = false) ∧
    (let s := { world nopW with parts := [(0, { partOne with cores := 1 }), (1, { Part.reset 1 with cores := 2 })] };
      let share := fun (p : Nat) (cores slice : W64) => (List.range 25).all fun x => decide (x = p) || decide (slice ≠ 0 ∧ (s.part x).slice ≠ 0) || (List.range 64).all fun c => !(cores.getLsbD c || bankOf s p c) || (!(s.part x).cores.getLsbD c && !bankOf s x c);
      (share 2 4 0 && !share 2 2 0 && share 0 0 5 && featOn s 6) = true) ∧
    (recorded.dev.run = true ∧ (recorded.part 0).cores.getLsbD 1 = true ∧ banksIdle recorded 1 = true ∧ (bootRecord recorded 0).2 = some recordedBytes ∧ (recorded.part 0).bootVa = 0x40000 ∧
      loadStatus recorded (recorded.part 0).bootVa none (partAllowed 0) ≠ 0 ∧ (State.reset.part 1).cores = 0) ∧
    (let s := world nopW;
      s.dev.run = true ∧ featOn s 1 = true ∧ 2 ^ 39 - 4 + 4 ≤ 2 ^ 39 ∧ badAt s (2 ^ 39 - 4) 4 = false) ∧
    (let s := worldOf [] [] (fun t => { t with state := .waiting, waitKind := .host, wait := waitMake [(10, 6)] }) nopW;
      (s.team 0).map (fun t => hostWaits s 0 ((s.part 0).fbGen + 1) .host t) = some true ∧
        (s.teams.filter fun e => decide (e.2.oid = (1 : BitVec 12).toNat) && hostWaits s 0 ((s.part 0).fbGen + 1) .host e.2).map (·.1) = [0] ∧ (world nopW).teams.map (fun e => hostWaits s 0 1 .host e.2 || hostWaits s 0 1 .peer e.2) = [false]) ∧
    (let s := { world nopW with parts := [(0, { partOne with invCtl := 0x8000000000000001 })] };
      (s.part 0).invCtl.getLsbD 63 = true ∧ rangeBusy s 1 (invRange 0 1 false).1 (invRange 0 1 false).2 = false) ∧
    (let on := fun (d : Dev → Dev) => { world nopW with tick := 1024, dev := d { devOne with carCtl := 0x15, carSize := 8 } };
      let due := fun (s : State) => carOn s && decide (s.tick % 2 ^ bitsAt s.dev.carCtl.toNat 1 5 = 0 ∧ s.dev.sweptAt ≠ some s.tick);
      let room := fun (s : State) => decide (s.dev.carHead - s.dev.carTail.toNat + 64 ≤ 2 ^ (s.dev.carSize.toNat % 32));
      (due (on id) && room (on id) && !room (on fun d => { d with carHead := 256 }) && !due (on fun d => { d with sweptAt := some 1024 }) && carOn (on fun d => { d with sweptAt := some 1024 })) = true ∧
      (on id).dev.gongFired = false ∧ (let s := { on (fun d => { d with gongFired := true, gongAt := 1025 }) with tick := 1025 }; due s = false ∧ room s = true ∧ s.dev.gongFired = true ∧ s.tick = s.dev.gongAt) ∧
      (on id).stopped = false ∧ bitsAt (0x15 : W64).toNat 1 5 = 10 ∧ bitsAt (8 : W64).toNat 0 5 = 8) :=
  ⟨by decide +kernel, by decide +kernel, by decide +kernel, by decide +kernel, by decide +kernel, by decide +kernel, by decide +kernel⟩

def portOne (st : PState) : Port := { Port.reset with enable := true, state := st, replay := [List.replicate 256 0], inBound := 0x100000 }

/-- A flit with a good check. -/
def flitOf (kind clock : Nat) (payload : List Byte) : List Byte :=
  let body := leBytes 1 kind ++ List.replicate 7 0 ++ leBytes 8 clock ++ payload ++ List.replicate (232 - payload.length) 0
  body ++ leBytes 8 (crc64 0 body).toNat
/-- A port's world with an answer awaited. -/
def withPeer (r : List (Nat × PeerReq)) : State := { world nopW with ports := [(0, portOne .active)], peers := r }
def peerOne : PeerReq := { port := 0, kind := 0, pa := 0, data := [], va := 0, oid := 1, word := 0, hdr := 0, acq := none, load := none, team := some 0, num := 0, job := none, hold := false, sent := true, refused := false }

theorem witness_PortsAndFlits :
    (let s := fun (st : PState) => { world nopW with ports := [(0, portOne st)], tick := 10 ^ 8 };
      ((s .active).port 0).state = .active ∧ portUp (s .active) 0 = true ∧ ((s .active).port 0).replay ≠ [] ∧ portUp (s .down) 0 = false ∧
      ((s .training).port 0).state = .training ∧ ((s .training).port 0).trainStart + 10 ^ 8 ≤ (s .training).tick ∧ (portOne .fenced).state = .fenced ∧ featOn (s .down) 3 = true) ∧
    (let f := flitOf 1 0 (leBytes 8 0x40 ++ leBytes 1 4);
      let good := fun (flit : List Byte) => decide (flit.length = 256 ∧ flit.drop 248 = leBytes 8 (crc64 0 (flit.take 248)).toNat);
      (good f && decide (fieldOf f 0 1 = 1 ∧ fieldOf f 16 8 = 0x40 ∧ fieldOf f 24 1 = 4) && inboundOk (withPeer []) 0 0x40 4 && !inboundOk (withPeer []) 0 0x200000 4 && !badAt (withPeer []) 0x40 4 &&
        !good (List.replicate 256 1) && good (flitOf 7 0 []) && good (flitOf 6 0 [1]) && good (flitOf 4 0 []) && good (flitOf 5 0 []) && good (flitOf 2 0 []) && good (flitOf 3 0 [])) = true) ∧
    (let l : Load := { team := 0, word := 0, hdr := 0, dst := .none, size := 4, lanes := [{ lane := 0, pa := 0x40, va := 0, data := none, bad := false }], hint := 0, sig := 0 };
      let r := { peerOne with load := some (7, 0) };
      let s := { withPeer [(5, r)] with loads := [(7, l)] };
      oldestPeer s 0 asksOld = some (5, r) ∧ s.loads.find 7 = some l ∧ oldestPeer (withPeer []) 0 asksOld = none) ∧
    (let s := withPeer [(5, peerOne)];
      oldestPeer s 0 (fun r => !asksOld r) = some (5, peerOne) ∧ oldestPeer s 0 (fun _ => true) = some (5, peerOne) ∧ peerOne.job = none ∧ peerOne.team = some 0) := ⟨by decide +kernel, by decide +kernel, by decide +kernel, by decide +kernel⟩


/-- Cards for the three engines in a window; walks of each result; a page to bring in, and one that the quota keeps out; pg.map of each status. -/
def entryOne (eng op : Nat) (ps : List (Nat × Nat × Nat)) : Entry :=
  { queue := 0, seq := 2, addr := 0, kernel := none, card := layout 128 ([(0, 1, 2), (1, 1, eng), (8, 1, op)] ++ ps), regions := [], order := 0, started := true, done := false, progress := 0, sentAt := none }
def withJob (e : Entry) : State := { world nopW with ctxs := [(1, { ctxOne with window := [e] })], ports := [(0, portOne .active)] }
/-- Ranges translate, wait, or fault. -/
def spans : (List (Nat × List (Nat × Nat × Nat)) ⊕ ERes) → Nat | .inl _ => 0 | .inr .wait => 1 | .inr _ => 2
def spanOf : ERes → Nat | .ok _ => 0 | .wait => 1 | .fault _ _ _ => 2

theorem witness_JobEnginesAndPages :
    (let card := fun (src dst : Nat) => layout 128 [(0, 1, 2), (1, 1, 0), (8, 8, src), (16, 8, dst), (24, 8, 16), (32, 4, 1)];
      let e := fun (src dst : Nat) => { entryOne 0 0 [] with card := card src dst };
      let busy := fun (s : State) => { s with mem := cells ((0x100008, 8, 0x18018f) :: tables), clusters := [] };
      let src := fun (s : State) (va : Nat) => spanAll 0 0 1 accR [(va, 16)] s;
      jobAt (withJob (e 0 0x2000)) 1024 0 = some (1, e 0 0x2000) ∧ jobAt (withJob (e 0 0x2000)) 1024 1 = none ∧
      spans (src (withJob (e 0 0x2000)) 0).2 = 0 ∧ spans (spanAll 0 0 1 accW [(0x2000, 16)] (withJob (e 0 0x2000))).2 = 0 ∧
      spans (src (busy (withJob (e 0x40000 0))) 0x40000).2 = 1 ∧ spans (src (withJob (e 0xc0000 0)) 0xc0000).2 = 2) ∧
    (let e := entryOne 1 0 [(9, 1, 2), (12, 4, 8), (16, 8, 0x1000), (24, 8, 1), (32, 8, 0x2000), (40, 8, 8), (48, 8, 0x3000), (56, 8, 4)];
      let s := withJob e;
      jobAt s 1024 1 = some (1, e) ∧ spans (spanAll 1 0 1 accR [(0x1000, 4)] s).2 = 0 ∧ spans (spanAll 1 0 1 accR [(0x2000, 8)] s).2 = 0 ∧ spans (spanAll 1 0 1 accW [(0x3000, 8)] s).2 = 0) ∧
    (let e := entryOne 2 0 [(16, 8, 0x1000), (32, 8, 64)];
      let s := withJob e;
      jobAt s 1024 2 = some (1, e) ∧ jobWaits s 1 e = false ∧ portUp s 0 = true ∧ e.progress < 64 ∧ spanOf (engineSpan s 2 0 1 0x1000 64 accR).2 = 0 ∧ portDead s 0 = false ∧
        portUp { s with ports := [(0, portOne .training)] } 0 = false ∧ portDead { s with ports := [(0, portOne .down)] } 0 = true ∧
        windowPa { s with parts := [(0, { partOne with pwin := [(0, 0x40000), (1, 0x40000)] })] } 0 0 (0 : Nat) 64 = some (0x40000 : Nat)) ∧
    (let e := entryOne 2 3 [(16, 8, 0x1000), (24, 8, 9), (32, 8, 0x1040)];
      let s := withJob e;
      let x : Sent := { tick := 0, own := 5, serial := true, left := false };
      jobAt s 1024 2 = some (1, e) ∧ e.sentAt = none ∧ (match (replicaDigest s 1 e).2 with | .inl _ => true | _ => false) = true ∧ spanOf (engineSpan s 2 0 1 0x1040 64 accW).2 = 0 ∧
        (let e := { e with sentAt := some x }; jobAt (withJob e) 1024 2 = some (1, e) ∧ (withJob e).tick < 0 + 10 ^ 9 ∧ 0 + 10 ^ 9 ≤ { withJob e with tick := 10 ^ 9 }.tick ∧
          ((([(9, 5, 0, 7)] : List (Nat × Nat × Nat × Nat))).find? fun r => decide (r.1 = fieldOf e.card 24 8 ∧ r.2.2.2 ≤ x.tick + 10 ^ 9)) = some (9, 5, 0, 7))) ∧
    (let s := { world nopW with clusters := [] };
      tlbFind (s.cluster 0) 1 0 = none ∧ (match walk s 1 0 accR with | .ok _ _ _ _ => true | _ => false) = true ∧ (match walk s 1 0x80000 accR with | .parked _ _ => true | _ => false) = true ∧
        (match walk s 1 0xc0000 accR with | .fail _ _ => true | _ => false) = true) ∧
    (let x : PageIn := { cluster := 0, oid := 1, leafPa := 0x100010, leaf := 0x31, va := 0x80000, acc := 1, team := none, mask := 0, code := 0 };
      let s := fun (n : Nat) => { worldOf [(0x100010, 1, 0x39)] [] id nopW with mem := cells ((0x100010, 1, 0x39) :: tables), pageIns := [(4, x)], parts := [(0, { partOne with quota := BitVec.ofNat 64 n })] };
      (s 0).pageIns.find 4 = some x ∧ segPa (s 0) 0 2 (pteOff x.leaf) ≠ none ∧ homeNat (s 0) x.leafPa 8 = (x.leaf ||| 8).toNat ∧ ((s 0).part 0).quota.toNat < ((s 0).part 0).used + 1 ∧
        ((s 1).part 0).used + 1 ≤ ((s 1).part 0).quota.toNat) ∧
    (let f := sys .none (.s 2) 0 0;
      let s := fun (n : Nat) => worldOf [] [] (sregs [(2, 0x2000), (3, n)]) (.pgInv f);
      (issuesFree (s 65536) (.pgInv f) (fun t => decide (1 ≤ (opdS (s 65536) 0 t (Opd.next f.a 1)).toNat ∧ (opdS (s 65536) 0 t (Opd.next f.a 1)).toNat ≤ 65536)) &&
        issuesFree (s 65537) (.pgInv f) (fun t => decide (65536 < (opdS (s 65537) 0 t (Opd.next f.a 1)).toNat))) = true) ∧
    (let f := sys (.s 6) (.s 2) 0 1;
      let s := fun (va : Nat) => worldOf [] [] (sregs [(2, va)]) (.pgMap f);
      let r := fun (s1 : State) (t : Team) (va : Nat) => pgMapRun s1 { oid := t.oid, va := va, acc := 0, core := 0, slot := 0 } va true false 0;
      (issuesFree (s 0) (.pgMap f) (fun t => teamSched (s 0) t && decide ((r (drain (s 0) 0 t) t 0).2 = some 1)) && issuesFree (s 0x100000) (.pgMap f) (fun t => decide ((r (drain (s 0x100000) 0 t) t 0x100000).2 ≠ none))) = true) ∧
    (let s := worldOf [] [] (fun t => { t with state := .waiting, waitKind := .pgInv, wait := waitMake [(10, 1)], hostWord := (encode (.pgInv (sys .none (.s 2) 0 0))).getD 0 }) nopW;
      waitingKey s 0 0 (waitsFor .pgInv) = some 0 ∧ (s.team 0).map (fun t => decide (t.state = .waiting)) = some true ∧ rangeBusy s 1 (invRange 0 1 false).1 (invRange 0 1 false).2 = false) :=
  ⟨by decide +kernel, by decide +kernel, by decide +kernel, by decide +kernel, by decide +kernel, by decide +kernel, by decide +kernel, by decide +kernel, by decide +kernel⟩

/-! ## Further clauses of the statements -/

/-- The exit of a kernel's last team with a swap whose request reaches its core, and a word that a load in flight holds. -/
theorem witness_ChecksComeInOrder_more :
    (let i : Instr := .exitTeam (vr .none .none .none .none .b32 1)
      let s := (world i).setCore 0 { (world i).core 0 with swap := some { start := 0, begun := false, incoming := none } };
      s.selKey = some 0 ∧ canIssue (teamOf s i) = true ∧ halted s 0 (teamOf s i) = true ∧ exitsFirst i s 0 (teamOf s i) = true) ∧
    (let i : Instr := .add (vr (.v 5) (.v 4) (.v 6) .none .i32 0)
      let s := { world i with loads := [(5, loadOne)] };
      canIssue (teamOf s i) = true ∧ halted s 0 (teamOf s i) = false ∧ pcSnare s 0 (teamOf s i) i = none ∧ i.check3 = true ∧ i.check4 = true ∧
        ((allCodes s 0 (teamOf s i) i).any fun c => (pendingCodes s 0).contains c) = true) :=
  ⟨by decide +kernel, by decide +kernel⟩

/-- A load of an unmapped page, which waits for the host, one of a parked page, which waits on its leaf, and an atomic of each. -/
theorem witness_AccessChecksComeFirst_more :
    let hosted := fun (c : Chk) => match c with | .stop (.done s1) => (s1.team 0).any fun u => decide (u.state = .waiting ∧ u.waitKind = .host) | _ => false
    let leafed := fun (c : Chk) => match c with | .stop (.done s1) => (s1.team 0).any fun u => u.busyLeaf.isSome | _ => false
    let ld := fun (a : Nat) (p : Chk → Bool) => let f := mem (.v 4) (.s 2) .none 2
      let s := worldOf [] [] (sregs [(2, a)]) (.ld f);
      issuesWith s (.ld f) fun t => let lanes := laneAddrs (maskLanes (lanesOf t f.g) t.width) (memAddr s 0 t f);
        free s 0 && (dataSnare s 0 t 1 4 lanes).isNone && (lanes.find? fun p => decide (p.2 % 4 ≠ 0)).isNone && p (checkLoad s 0 t 4 lanes)
    let atom := fun (a : Nat) (p : Chk → Bool) => let f := atm (.v 4) (.s 2) (.v 6) 0
      let s := worldOf [] [] (sregs [(2, a)]) (.atom f);
      issuesWith s (.atom f) fun t => let lanes := laneAddrs (maskLanes (lanesOf t f.g) t.width) fun L => extVA (opd s 0 t true f.addr L);
        free s 0 && (dataSnare s 0 t 3 4 lanes).isNone && p (permLanes s 0 t 4 (accR + accW) lanes);
    (ld 0x100000 hosted && ld 0x80000 leafed && atom 0x100000 hosted && atom 0x80000 leafed && atom 0xc0000 traps) = true := by decide +kernel

/-- A halo copy whose barrier is misaligned, or outside the allocation, and one whose barrier is in order and whose descriptor is not; a
queue that the context has not; a notice that waits behind an earlier one of its offset. -/
theorem witness_RingSequenceAndHaloInstructions_more :
    (let f := bar (.s 4) (.s 2) (.s 6) .none 0xe
      let i := Instr.halo f
      let p := fun (a b : Nat) (go : State → Team → Bool) => let s := withHbar hbarOne i
        let s1 := s.modTeam 0 (sregs [(2, a), (6, b)]);
        issuesFree s1 i fun t => go s1 t;
      p 0 8 (fun s t => decide (offS s 0 t f.b % 16 ≠ 0)) &&
        p 0 0x10000 (fun s t => decide (offS s 0 t f.b % 16 = 0 ∧ spAlloc s t < offS s 0 t f.b + 16)) &&
        p 8 0xfff0 (fun s t => decide (offS s 0 t f.b % 16 = 0 ∧ offS s 0 t f.b + 16 ≤ spAlloc s t ∧ offS s 0 t f.a % 16 ≠ 0)) &&
        p 0x10000 0xfff0 (fun s t => decide (offS s 0 t f.b % 16 = 0 ∧ offS s 0 t f.b + 16 ≤ spAlloc s t ∧ offS s 0 t f.a % 16 = 0 ∧ spAlloc s t < offS s 0 t f.a + 16)) &&
        p 0 0xfff0 (fun s t => decide (offS s 0 t f.a = 0 ∧ offS s 0 t f.b + 16 ≤ spAlloc s t ∧ hbarHeld s 0 t 14 = some hbarOne))) = true ∧
    (let s := worldOf [] [] (sregs [(2, 1)]) nopW; completionOf s 1 1 = none ∧ (completionOf s 1 0).isSome = true) ∧
    (let n : Notice := { core := 0, gang := 1, off := 0x40, team := 0, count := 1 };
      noticeBefore { world nopW with notices := [(3, n), (4, n)] } 4 n = true ∧ noticeBefore { world nopW with notices := [(3, n), (4, n)] } 3 n = false) :=
  ⟨by decide +kernel, by decide +kernel, by decide +kernel⟩

/-- Tiles whose cached empty entry is gone when they are walked again: the entry met then is a BUSY leaf, and one of a kind that is no leaf. -/
theorem witness_VolumeWritesAndTheCymbal_again :
    let f := bar .none (.v 4) (.s 2) (.s 4) 0
    let clb : ClbEntry := { oid := 1, handle := 0x1000, tile := 0, entry := 0, level := 1, pa := 0x2c0000, set := 0, way := 0 }
    let st := fun (leaf : Nat) => { worldOf (treeCells leaf) [] (volRegs 0) (.volSt f) with clusters := [(0, { Cluster.reset with tlb := [tlbOne], clb := [clb] })] }
    let again := fun (s : State) (d : VDesc) (ls : List VLane) (ts : List VTile) (p : List (Nat × Nat × Nat) → Option (Nat × W64) → Bool) =>
      let F : VForm := { alloc := false, need := writeNeed false, ls := ls }
      let w := makeTiles 0 (teamOf s (.volSt f)) d F ts { s := s, old := [], changed := [] };
      p (laneOthers w.1.s d F w.2) (busyTile (otherTiles w.2))
    let cas := fun (_ : VDesc) (e : W64) => decide (veKind e ≠ 2) || (!false && decide (veFmt e ≠ 0));
    VolFound (st (2 ^ 61 + leafAt 0)) (.volSt f) f (accR + accW) (volSize f.t) (needs true true false false) (fun _ _ => false)
      (fun d ls ts => again (st (2 ^ 61 + leafAt 0)) d ls ts fun fs b => fs.isEmpty && b.isSome) ∧
    VolFound (st (2 ^ 62 + 0x300000)) (.volSt f) f (accR + accW) (volSize f.t) (needs true true false false) (fun _ _ => false)
      (fun d ls ts => again (st (2 ^ 62 + 0x300000)) d ls ts fun fs _ => !fs.isEmpty) ∧
    VolFound (st 0) (.volSt f) f (accR + accW) (volSize f.t) (needs true true false false) cas
      (fun d ls ts => again (st 0) d ls ts fun fs b => fs.isEmpty && b.isNone) :=
  ⟨vol_found (by decide +kernel), vol_found (by decide +kernel), vol_found (by decide +kernel)⟩

/-- No armed snare on what stitch words reach; a woken sx.next; a dead piece whose pages nothing uses, and one whose record's page is BUSY. -/
theorem witness_StitchQuietAndDeaths :
    (let cellsAll := hdrCells ++ pieceCells ++ verCells ++ emptyCells ++ poolCells
      let s := stWorld cellsAll [(0x100, 8, 0x3009)] [(2, 0x2000), (3, 0x2400)] (.sxTrunc (bar (.s 6) (.s 2) .none .none 0))
      let t := teamOf s (.sxTrunc (bar (.s 6) (.s 2) .none .none 0))
      let m := resumedLanes t .always
      let quiet := fun (w : List (Nat × Nat × Nat)) => decide (wordsSnare s 0 t m w = none ∧ w ≠ []);
      quiet ((0x2000, 128, accR) :: [(0x2018, 8, accR + accW)]) && quiet (unpinWords s 1 0x3009) &&
        quiet (handleWords s 1 0x2000 fun h => curWords h ++ editWords s 1 h ((curRefs s 1 h).map (·.1)) [h.vpool] true) &&
        quiet (handleWords s 1 0x2000 fun h => appendWords s 0 t (bar (.s 6) (.s 2) .none .none 0) h) && quiet (forkWords s t 0x2000 0x2400) &&
        quiet (handleWords s 1 0x2000 (spliceWords s 0 t (bar (.s 6) (.s 2) .none .none 0) 0x3009)) &&
        (peekVer s 1 0x3009).any (fun v => quiet (verWords v true)) && decide (sxSnare s 0 t (bar (.v 6) (.v 4) (.s 2) .none 0) m 1 [0, 1] = none)) = true ∧
    (let t := { teamOf (world nopW) nopW with waitKind := .next, wait := waitMake [(0, 0x100), (6, 262)] };
      nextWoken t 0x100 = true ∧ nextWoken t 0x140 = false) ∧
    (let d : Death := { cluster := 0, oid := 1, prec := 0x2140, pool := 0x30040, esize := 4 };
      let s := { worldOf ((0x142151, 1, 1) :: pieceCells ++ poolCells) [] id nopW with deaths := [d] };
      (match engineWord s 0 1 0x2140 accR with
        | (s1, .at pa) => decide (badAt s1 pa 64 = false ∧ homeNat s1 (pa + 17) 1 % 2 = 1) && (match engineWord s1 0 1 0x2140 (accR + accW) with
          | (s2, .at _) => decide ((deathPush s2 d).2.1 ≠ .wait ∧ (deathPush s2 d).2.2 ≠ .wait ∧ rangeBusy s 1 0 (2 ^ 18) = false ∧ (pageVas 0x5000 8).length = 1)
          | _ => false)
        | _ => false) &&
        (let s' := { s with clusters := [(0, { Cluster.reset with tlb := [{ tlbOne with leaf := 0x140107 }] })], mem := cells ((0x100000, 8, 0x14018f) :: (0x142151, 1, 1) :: pieceCells ++ tables) };
          match engineWord s' 0 1 0x2140 accR with
          | (s1, .at pa) => decide (badAt s1 pa 64 = false ∧ homeNat s1 (pa + 17) 1 % 2 = 1) && (match engineWord s1 0 1 0x2140 (accR + accW) with | (_, .wait) => true | _ => false)
          | _ => false)) = true :=
  ⟨by decide +kernel, by decide +kernel, by decide +kernel⟩

/-- A call to post when its ring has room, is full, and does not translate; returns with SCRATCH held and with a sleep asked for. -/
theorem witness_TrapsHandlersAndReturns_more :
    (let st := fun (ring rd wr : Nat) => { worldOf [(0x14d000, 4, wr), (0x14d008, 4, rd), (0x14d010, 1, 4)] [] (fun t => { t with state := .parked, waitKind := .call, callEntry := 0, hostWord := (encode (.trapSystemCall (sys .none .none 0 0x3400))).getD 0 }) nopW with ctxs := [(1, { ctxOne with hostRing := ring })] };
      let room := fun (s : State) (b : Bool) => (s.team 0).any fun u => match callXlat s 0 u 0xd000 (accR + accW) with
        | (s1, .ok pa _ _ _) => decide (badAt s1 pa 64 = false ∧ ringRoom s1 pa = b) && (!b || match callXlat s1 0 u (ringEntryVa s1 0xd000 pa) accW with | (_, .ok _ _ _ _) => true | _ => false)
        | _ => false;
      decide (waitingKey (st 0xd000 0 0) 0 0 (fun t => decide (t.waitKind = .call ∧ t.state = .parked)) = some 0) && room (st 0xd000 0 0) true && room (st 0xd000 0 16) false &&
        ((st 0xd0000 0 0).team 0).any (fun u => match callXlat (st 0xd0000 0 0) 0 u 0xd0000 (accR + accW) with | (_, .fail _ _) => true | _ => false)) = true ∧
    (let i := Instr.rte (sys .none .none 0 0);
      let j := Instr.rteUp (sys .none .none 0 1);
      (issuesWith (inHandlerOf (fun t => { t with epend := cScratch }) i) i (fun t => decide (t.handler = true ∧ t.epend &&& cScratch ≠ 0)) &&
        issuesWith (inHandlerOf (fun t => { t with epend := cScratch }) j) j (fun t => decide (t.handler = true ∧ t.epend &&& cScratch ≠ 0)) &&
        issuesWith (inHandlerOf (fun t => { t with asks := [{ h := t.h, handler := true, yield := false, sleep := 7 }] }) i) i (fun t => decide (t.handler = true ∧ t.epend = 0 ∧ t.state = .ready ∧ (askOf t).sleep ≠ 0)) &&
        issuesWith (inHandlerOf id i) i (fun t => decide (askOf t = { h := t.h, handler := true, yield := false, sleep := 0 }))) = true) :=
  ⟨by decide +kernel, by decide +kernel⟩

/-- A digest with a record still to fold in, and a hit whose slot another bank's team has meanwhile. -/
theorem witness_SystemRegistersHistoryAndClocks_more :
    (let f := sys (.s 2) .none 0 0;
      let s := worldOf [] [] (fun t => { t with digestQ := [.point] }) (.dgst f);
      issuesWith s (.dgst f) fun t => decide (t.digestQ ≠ [])) = true ∧
    (let s := worldOf [] [] (fun t => { t with state := .stopped, held := true, heldSnare := 15 }) nopW;
      let s' := { s with cores := [(0, { s.core 0 with snares := (s.core 0).snares.put 0x3f (2 ^ 63 + 15), hitKey := some 0, active := 1 })] };
      (snHit s' 0).getLsbD 63 = true ∧ (s'.core 0).hitKey = some 0 ∧ (s'.team 0).any (fun t => t.held) = true ∧ s'.activeKey 0 0 ≠ 0) :=
  ⟨by decide +kernel, by decide +kernel⟩

/-- A core without an owner or in an idle turn, one that is no longer timed, and one whose staged context is of another partition. -/
theorem witness_ClausesTurnsAndWakes_more :
    let s0 := world nopW
    let at1 := fun (ps : Table Part) (f : Core → Core) => { s0 with parts := ps, cores := [(0, f (s0.core 0))], ctxs := [(1, ctxOne), (2, { ctxOne with partition := 2 })], tick := 3 }
    let timed := [(0, partOne), (1, { Part.reset 1 with slice := 5, cores := 1 })];
    ((at1 [(0, partOne)] fun c => { c with bank0 := Bank.empty }).core 0).activeBank.owner = none ∧ ((at1 [(0, partOne)] fun c => { c with idleTurn := true }).core 0).idleTurn = true ∧
    (let s := at1 [(0, partOne)] fun c => { c with slicePart := some 0, deadline := some 2 };
      sliceParts s 0 = [] ∧ (s.core 0).slicePart ≠ none ∧ (let s2 := at1 [(0, partOne)] id; sliceParts s2 0 = [] ∧ (s2.core 0).slicePart = none)) ∧
    (let s := at1 timed fun c => { c with deadline := some 0, bank1 := { Bank.empty with owner := some 2 } };
      nextPart (sliceParts s 0) (s.core 0).slicePart = some 1 ∧ turnOver s 0 = true ∧ (s.core 0).swap = none ∧ ((s.core 0).bank (s.core 0).shadow).owner = some 2 ∧ ctxPart s 2 ≠ 1 ∧
        (s.core 0).activeBank.owner = some 1 ∧ ctxPart s 1 ≠ 1 ∧ outgoingOk s 0 = true) ∧
    (let s := at1 timed fun c => { c with deadline := some 0, slicePart := some 1 };
      sliceParts s 0 ≠ [] ∧ turnOver s 0 = false) := by decide +kernel

/-- A context that comes back in the other bank; a save with nothing owed, and one whose state word is still to be written. -/
theorem witness_ContextSwapSaveLoad_more :
    (let s0 := world nopW;
      let s := { s0 with ctxs := [(1, ctxOne), (2, { ctxTwo .staged with halves := [0, 1] })], cycle := 128,
                         cores := [(0, { s0.core 0 with bank1 := bankTwo, ousted := [2], swap := some { start := 0, begun := true, incoming := some 2 } })] };
      (s.core s.sel.core).swap = some { start := 0, begun := true, incoming := some 2 } ∧ (s.core 0).active < 2 ∧ 0 + 128 ≤ s.cycle ∧
        ((s.core 0).bank (s.core 0).active).owner = some 1 ∧ (s.ctx 2).any (fun x => x.preempt && x.halves.contains (2 * 0 + (s.core 0).active)) = true) ∧
    (let sv := fun (c : Ctx) => { withArea .saving (world nopW) with teams := [], gangs := [], kernels := [], cores := [], ctxs := [(2, c)] };
      let c := ctxTwo .saving;
      payWord (payQueues (sv c) 2) 2 = sv c ∧ (c.wordDue = false ∧ c.queues = [] ∧ c.releasing = false ∧
      (let s := { sv { c with wordDue := true } with clusters := [], mem := cells [(0x40000, 8, 0x80001), (0x80000, 8, 0xc0001), (0xc0000, 8, 0x100001), (0x100008, 8, 0x18018f)] };
        ((payWord (payQueues s 2) 2).ctx 2).any (fun x => x.wordDue) = true))) :=
  ⟨by decide +kernel, rfl, by decide +kernel⟩

/-- Queues with nothing owed; a list that is still to be read; a gang whose other teams have left it, and one with a team left. -/
theorem witness_QueuesAndKernels_more :
    payQueues (queued queueTwo []) 1 = queued queueTwo [] ∧ ctxRuns { ctxOne with listDue := true } = true ∧
    (let st := fun (teams gone : List Nat) => let s := worldOf [] [] (fun t => { t with state := .exiting }) nopW;
        { s with gangs := [(1, { kernel := 1, g := 0, oid := 1, cluster := 0, size := 65536, teams := teams, gone := gone, killed := false, mem := [] })] };
      let t := teamOf (st [0, 4] []) nopW;
      waitingKey (st [0, 4] [1]) 0 0 (fun t => decide (t.state = .exiting)) = some 0 ∧ exitDrained (st [0, 4] [1]) 0 t = true ∧ t.sfcount = 0 ∧ t.tix = 0 ∧
        ((List.range 2).all fun j => decide (j = t.tix) || [1].contains j) = true ∧ exitDrained (st [0, 4] []) 0 t = true ∧ 1 ∉ ([] : List Nat)) :=
  ⟨rfl, by decide +kernel, by decide +kernel⟩

/-- A partition that is no longer timed; a boot under way, one on halves that are free and one on a half that is held; a refused request. -/
theorem witness_HostRegistersStartUpAndObservation_more :
    (let s0 := world nopW;
      let s := { s0 with parts := [(0, { partOne with slice := 5, cores := 1 })], cores := [(0, { s0.core 0 with slicePart := some 0, deadline := some 9 })],
                         teams := s0.teams.map fun e => (e.1, { e.2 with state := .parked, waitKind := .deadline }) };
      let share := (List.range 25).all fun x => decide (x = 0) || (List.range 64).all fun c => !((s.part 0).cores.getLsbD c || bankOf s 0 c) || (!(s.part x).cores.getLsbD c && !bankOf s x c);
      share = true ∧ (s.cores.all fun x => decide ((s.core x.1).slicePart = some 0)) = true ∧ (s.team 0).any (fun t => decide (t.state = .parked ∧ t.waitKind = .deadline)) = true) ∧
    ((recorded.part 0).bootOid = none ∧ { recorded.part 0 with bootOid := some 2 }.bootOid ≠ none ∧ banksIdle recorded 1 = true ∧ halfHeld recorded 2 = false ∧ halfHeld recorded 3 = false ∧
      (let s := { recorded with ctxs := recorded.ctxs ++ [(3, { ctxOne with halves := [2 * 1 + (recorded.core 1).shadow] })] };
        banksIdle s 1 = true ∧ (s.ctxs.any fun x => decide (x.1 = 3 ∧ 2 * 1 + (s.core 1).shadow ∈ x.2.halves)) = true)) ∧
    (let s := withPeer [(5, { peerOne with refused := true })];
      (refusedPeers s 0).map (fun r => r.1) = [5] ∧ refusedPeers (withPeer [(5, peerOne)]) 0 = []) ∧
    ((0 : W64).getLsbD 0 = false ∧ (4 : W64).getLsbD 2 = true) :=
  ⟨by decide +kernel, by decide +kernel, by decide +kernel, by decide +kernel⟩

/-- Flits that are bad, in turn, repeated, and ahead of their turn; the eighth replay of one flit; an answer to a store; a nack of the link. -/
theorem witness_PortsAndFlits_more :
    (let s := fun (f : Port → Port) => { world nopW with ports := [(0, f (portOne .active))] };
      let flit := flitOf 1 0 (leBytes 8 0x40 ++ leBytes 1 4);
      let good := fun (flit : List Byte) => decide (flit.length = 256 ∧ flit.drop 248 = leBytes 8 (crc64 0 (flit.take 248)).toNat);
      let turn := fun (e : Option Nat) => decide (((s fun p => { p with expect := e }).port 0).expect = none ∨ (((s fun p => { p with expect := e }).port 0).expect = some (fieldOf flit 1 1) ∧ ((s id).port 0).early = []));
      (good flit && good (flitOf 6 0 [0, 3]) && !good (List.replicate 256 1) && turn none && turn (some 0) && !turn (some 1) &&
        portPasses (s id) 0 && portPasses (s fun p => { p with state := .fenced }) 0 && !portUp (s fun p => { p with state := .fenced }) 0) = true) ∧
    (let flit := flitOf 1 0 (leBytes 8 0x40 ++ leBytes 1 4);
      (decide (fieldOf flit 1 1 = 0 ∧ 128 ≤ (fieldOf flit 1 1 + 256 - 1) % 256 ∧ (fieldOf flit 1 1 + 256 - 255) % 256 < 128 ∧
        fieldOf (flitOf 6 0 [0, 3]) 16 1 = 0) &&
        decide ({ Port.reset with replayed := some 0, consecutive := 7 }.replayed = some (fieldOf flit 1 1))) = true) ∧
    (let r := { peerOne with kind := 1, num := 4, acq := some 3 };
      let s := withPeer [(5, r)];
      oldestPeer s 0 (fun r => !asksOld r) = some (5, r) ∧ r.job = none ∧ r.team = some 0) := ⟨by decide +kernel, by decide +kernel, by decide +kernel⟩

/-- A card whose port has left the states that move flits; the errors of the leaves that are freed; nothing to retry; a fault the engine has met. -/
theorem witness_JobEnginesAndPages_more :
    (let x : Sent := { tick := 0, own := 5, serial := true, left := true };
      let e := { entryOne 2 3 [(16, 8, 0x1000), (24, 8, 9), (32, 8, 0x1040)] with sentAt := some x };
      jobAt (withJob e) 1024 2 = some (1, e) ∧ x.left = true ∧ ((portOne .training).state = .training ∧ (portOne .down).state = .down)) ∧
    (let s := { world nopW with bad := [0x8000] };
      leafErrs s 1 [0] = [0] ∧ leafErrs (world nopW) 1 [0] = [] ∧ ((world nopW).ctxs.all fun c => decide (c.2.wordDue = false ∧ c.2.listDue = false) && c.2.queues.all fun q => decide (q.2.owed = [] ∧ q.2.descPa ≠ noDesc)) = true) ∧
    (let e := { entryOne 0 0 [] with queue := 0 };
      ((withJob e).queue 1 e.queue).isSome = true ∧ reasonOf (notedReason 6) = 6 ∧ reasonOf 8 = 8) ∧
    badAt (world nopW) 0x100000 8 = false := ⟨by decide +kernel, by decide +kernel, by decide +kernel, by decide +kernel⟩

theorem reset_memories_canonical : MemoriesCanonical State.reset :=
  ⟨by decide, by decide, fun _ h => (by cases h), fun _ h => (by cases h)⟩

/-- A step from a state whose memories are canonical. -/
theorem witness_StepKeepsMemoriesCanonical : ∃ s s', MemoriesCanonical s ∧ step s = .next s' := ⟨State.reset, _, reset_memories_canonical, rfl⟩

/-! ## Words written from the spec's encodings (R36, R37, R39, R43, R44, R49) -/

/-- The fields of each format at the bit positions of R37: the opcode, the guard code (7 means unguarded), then the format's. -/
def wVR (op d a b c t m : Nat) : Nat := op * 2 ^ 54 + 7 * 2 ^ 51 + d * 2 ^ 41 + a * 2 ^ 32 + b * 2 ^ 23 + c * 2 ^ 14 + t * 2 ^ 10 + m
def wVI (op d a imm : Nat) : Nat := op * 2 ^ 54 + 7 * 2 ^ 51 + d * 2 ^ 41 + a * 2 ^ 32 + imm
def wMEM (op d base index scope order hint size off : Nat) : Nat :=
  op * 2 ^ 54 + 7 * 2 ^ 51 + d * 2 ^ 41 + base * 2 ^ 32 + index * 2 ^ 23 + scope * 2 ^ 20 + order * 2 ^ 17 + hint * 2 ^ 15 + size * 2 ^ 12 + off
def wATM (op d addr data cmp scope order aop size noRet : Nat) : Nat :=
  op * 2 ^ 54 + 7 * 2 ^ 51 + d * 2 ^ 41 + addr * 2 ^ 32 + data * 2 ^ 23 + cmp * 2 ^ 14 + scope * 2 ^ 11 + order * 2 ^ 8 + aop * 2 ^ 4 + size * 2 + noRet
def wBR (op disp cond pred : Nat) : Nat := op * 2 ^ 54 + 7 * 2 ^ 51 + disp * 2 ^ 24 + cond * 2 ^ 21 + pred * 2 ^ 18
def wSYS (op d a hi lo : Nat) : Nat := op * 2 ^ 54 + 7 * 2 ^ 51 + d * 2 ^ 41 + a * 2 ^ 32 + hi * 2 ^ 16 + lo

def reads (w : Nat) (i : Instr) : Bool := decide (decodeTableWord 64 w = some i)

/-- One word or more of every opcode range, with the place of its opcode counted in R49's list. -/
theorem test_decode_words :
    reads (wVR 0x00d 9 0 1 2 2 1) (.sad { g := .always, d := .v 9, a := .v 0, b := .v 1, c := .v 2, t := .n32, m := 1 }) = true ∧
    reads (wVR 0x020 321 3 258 511 1 4) (.cmp { g := .always, d := .p 1, a := .v 3, b := .s 2, c := .none, t := .i32, m := 4 }) = true ∧
    reads (wVI 0x022 9 511 0x3f800000) (.movi { g := .always, d := .v 9, a := .none, imm := 0x3f800000 }) = true ∧
    reads (wVR 0x080 5 4 6 511 9 0x80) (.fadd { g := .always, d := .v 5, a := .v 4, b := .v 6, c := .none, t := .f32, m := 0x80 }) = true ∧
    reads (wVR 0x083 8 2 4 6 12 0) (.ffma { g := .always, d := .v 8, a := .v 2, b := .v 4, c := .v 6, t := .f64, m := 0 }) = true ∧
    reads (wVR 0x098 7 3 511 511 1 9) (.cvt { g := .always, d := .v 7, a := .v 3, b := .none, c := .none, t := .i32, m := 9 }) = true ∧
    reads (wVR 0x09c 7 3 4 511 1 1) (.relbk { g := .always, d := .v 7, a := .v 3, b := .v 4, c := .none, t := .i32, m := 1 }) = true ∧
    reads (wBR 0x102 0x3ffffff 4 2) (.brc { g := .always, disp := 0x3ffffff, cond := 4, pred := 2, rsv := 0 }) = true ∧
    reads (wVI 0x10d 511 511 100) (.sleep { g := .always, d := .none, a := .none, imm := 100 }) = true ∧
    reads (wVR 0x112 322 321 511 511 0 0) (.pnot { g := .always, d := .p 2, a := .p 1, b := .none, c := .none, t := .b32, m := 0 }) = true ∧
    reads (wVR 0x140 322 321 511 511 0 2) (.vote { g := .always, d := .p 2, a := .p 1, b := .none, c := .none, t := .b32, m := 2 }) = true ∧
    reads (wVR 0x142 7 3 257 511 0 3) (.shfl { g := .always, d := .v 7, a := .v 3, b := .s 1, c := .none, t := .b32, m := 3 }) = true ∧
    reads (wVR 0x145 511 3 511 511 0 0) (.msync { g := .always, d := .none, a := .v 3, b := .none, c := .none, t := .b32, m := 0 }) = true ∧
    reads (wMEM 0x181 4 258 1 2 2 1 3 0xfff) (.st { g := .always, d := .v 4, base := .s 2, index := .v 1, scope := 2, order := 2, hint := 1, size := 3, off := 0xfff }) = true ∧
    reads (wATM 0x185 4 8 6 5 3 3 9 2 0) (.atom { g := .always, d := .v 4, addr := .v 8, data := .v 6, cmp := .v 5, scope := 3, order := 3, aop := 9, size := 2, noRet := false }) = true ∧
    reads (wVR 0x203 511 258 260 511 0 2) (.barWait { g := .always, d := .none, a := .s 2, b := .s 4, c := .none, t := .b32, m := 2 }) = true ∧
    reads (wVR 0x205 258 511 511 511 0 0x1e) (.hbarSync { g := .always, d := .s 2, a := .none, b := .none, c := .none, t := .b32, m := 0x1e }) = true ∧
    reads (wVR 0x205 258 260 511 511 0 0x5e) (.hbarWait { g := .always, d := .s 2, a := .s 4, b := .none, c := .none, t := .b32, m := 0x5e }) = true ∧
    reads (wVR 0x223 258 260 262 511 0 3) (.halo { g := .always, d := .s 2, a := .s 4, b := .s 6, c := .none, t := .b32, m := 3 }) = true ∧
    reads (wVR 0x243 511 258 260 511 13 0x180) (.slotStore { g := .always, d := .none, a := .s 2, b := .s 4, c := .none, t := .e4m3, m := 0x180 }) = true ∧
    reads (wVR 0x282 6 4 258 260 0 12) (.volAtom { g := .always, d := .v 6, a := .v 4, b := .s 2, c := .s 4, t := .b32, m := 12 }) = true ∧
    reads (wVR 0x287 511 511 511 511 0 0xd) (.volSync { g := .always, d := .none, a := .none, b := .none, c := .none, t := .b32, m := 0xd }) = true ∧
    reads (wVR 0x2c5 258 260 262 511 0 2) (.sxLen { g := .always, d := .s 2, a := .s 4, b := .s 6, c := .none, t := .b32, m := 2 }) = true ∧
    reads (wVR 0x2ca 258 260 511 511 0 0) (.sxTrunc { g := .always, d := .s 2, a := .s 4, b := .none, c := .none, t := .b32, m := 0 }) = true ∧
    reads (wSYS 0x300 258 260 4 0) (.hbRd { g := .always, d := .s 2, a := .s 4, hi := 4, lo := 0 }) = true ∧
    reads (wSYS 0x302 511 511 0 31) (.hbClr { g := .always, d := .none, a := .none, hi := 0, lo := 31 }) = true ∧
    reads (wSYS 0x320 511 511 0 0x8001) (.trapUser { g := .always, d := .none, a := .none, hi := 0, lo := 0x8001 }) = true ∧
    reads (wSYS 0x320 258 511 0 0x7fff) (.trapSystemCall { g := .always, d := .s 2, a := .none, hi := 0, lo := 0x7fff }) = true ∧
    reads (wSYS 0x321 511 511 0 1) (.rteUp { g := .always, d := .none, a := .none, hi := 0, lo := 1 }) = true ∧
    reads 0xc8baafff01460000 (.frd { g := .always, d := .kv 15, a := .none, hi := 326, lo := 0 }) = true ∧
    reads (wSYS 0x324 258 511 0x3f 0) (.sysrd { g := .always, d := .s 2, a := .none, hi := 0x3f, lo := 0 }) = true ∧
    reads (wSYS 0x328 258 260 0 2) (.ctxSwapChain { g := .always, d := .s 2, a := .s 4, hi := 0, lo := 2 }) = true ∧
    reads (wSYS 0x32d 511 511 0 0) (.halt { g := .always, d := .none, a := .none, hi := 0, lo := 0 }) = true := by decide +kernel

/-- A guarded word keeps its guard; an unguarded one with PN = 1, an unassigned code and one of the translation range are refused. -/
theorem test_decode_guards :
    reads (wVR 0x000 5 4 6 511 1 0 - 7 * 2 ^ 51 + 2 * 2 ^ 51 + 2 ^ 50) (.add { g := .neg 2, d := .v 5, a := .v 4, b := .v 6, c := .none, t := .i32, m := 0 }) = true ∧
    (parse (BitVec.ofNat 64 (wVR 0x000 5 4 6 511 1 0 + 2 ^ 50))).check3 = false ∧ opAssigned 0x02b = false ∧ opAssigned 0x380 = false ∧
    parse (BitVec.ofNat 64 (wVR 0x3ff 0 0 0 0 0 0)) = .translationRangeWord (BitVec.ofNat 64 (wVR 0x3ff 0 0 0 0 0 0)) := by decide +kernel

/-! ## Ill-formed words: check 3 and check 4 of R48 refuse them -/

/-- Words that break a T, M, reserved-bit, scope, order, hint, size or condition rule, range by range. -/
theorem test_check3_refuses : ([
    wVR 0x000 5 4 6 511 9 0, wVR 0x000 5 4 6 511 1 2, wVR 0x005 5 4 511 511 2 0, wVR 0x00a 5 4 6 511 5 0, wVR 0x00c 6 4 6 8 3 0, wVR 0x00d 6 4 6 8 3 0, wVR 0x001 5 4 6 321 1 0, wVR 0x013 5 4 6 511 1 2,
    wVR 0x018 5 4 6 7 6 0, wVR 0x01e 5 4 6 7 1 0, wVR 0x020 321 4 6 511 1 6, wVR 0x020 321 4 6 511 0 2, wVR 0x020 321 4 6 511 1 0x20, wVR 0x023 6 4 8 511 2 0, wVR 0x024 5 4 511 511 0 0, wVR 0x024 5 4 511 511 0 33,
    wVR 0x026 5 4 6 7 1 8, wVI 0x02a 321 4 (6 * 2 ^ 29), wVR 0x080 5 4 6 511 1 0, wVR 0x080 5 4 6 511 9 (5 * 128), wVR 0x080 5 4 6 511 9 3, wVR 0x083 5 4 6 7 15 0, wVR 0x086 5 4 6 511 10 0, wVR 0x088 321 4 6 511 9 0x200,
    wVR 0x08a 5 4 511 511 9 0x100, wVR 0x08d 5 4 511 511 12 0, wVR 0x095 5 4 511 511 9 0x40, wVR 0x096 5 4 6 7 14 0, wVR 0x097 5 4 6 7 9 0, wVR 0x098 5 4 511 511 1 1, wVR 0x098 5 4 511 511 9 (1 + 16), wVR 0x099 5 4 6 511 10 0,
    wVR 0x09b 5 4 6 7 10 0, wVR 0x09c 5 4 6 511 2 0, wVR 0x100 511 511 511 511 0 1, wVR 0x106 511 511 511 511 0 2, wBR 0x101 0 1 7, wBR 0x101 0 0 3, wBR 0x102 0 0 7, wBR 0x102 0 5 1, wBR 0x101 0 0 7 + 1,
    wVR 0x140 321 322 511 511 0 3, wVR 0x142 5 4 6 511 1 0, wVR 0x143 5 4 511 511 0 0, wVR 0x143 5 4 511 511 1 6, wVR 0x143 5 4 511 511 1 8, wVR 0x146 5 4 6 258 1 0,
    wMEM 0x180 4 258 511 0 2 0 2 0, wMEM 0x181 4 258 511 0 1 0 2 0, wMEM 0x180 4 258 511 1 0 0 2 0, wMEM 0x180 4 258 511 4 1 0 2 0, wMEM 0x180 4 258 511 0 4 0 2 0, wMEM 0x180 4 258 511 0 0 3 2 0, wMEM 0x180 4 258 511 0 0 0 5 0,
    wMEM 0x183 4 258 511 0 0 1 2 0, wMEM 0x183 4 258 511 2 1 0 2 0, wATM 0x185 4 8 6 511 0 0 13 2 0, wATM 0x185 4 8 6 511 0 0 0 1 0, wATM 0x186 4 8 6 511 2 1 0 2 0, wMEM 0x187 511 511 511 3 0 0 0 0, wMEM 0x187 511 511 511 3 3 0 0 1,
    wATM 0x188 258 260 262 511 0 0 4 2 0, wATM 0x188 258 260 262 511 0 1 0 2 0, wMEM 0x189 511 258 511 2 1 0 2 0, wMEM 0x189 511 258 511 0 0 2 2 0,
    wVR 0x200 511 258 260 511 0 1, wVR 0x203 511 258 260 511 0 3, wVR 0x205 511 511 511 511 0 0x60, wVR 0x206 511 258 511 511 0 0x40, wVR 0x220 258 260 262 511 0 1, wVR 0x223 258 260 511 511 0 0x20,
    wVR 0x240 511 511 511 511 0 0xc0, wVR 0x242 511 258 260 511 9 0, wVR 0x243 511 258 260 511 9 0, wVR 0x244 511 511 511 511 0 0x200, wVR 0x282 6 4 258 260 0 9, wVR 0x286 6 4 258 511 0 4, wVR 0x287 511 511 511 511 0 0, wVR 0x280 6 4 258 511 1 0,
    wVR 0x2c4 258 260 511 511 0 2, wVR 0x2c5 258 511 262 511 0 4, wVR 0x2c2 6 4 258 511 1 0, wSYS 0x300 258 260 5 0, wSYS 0x301 258 260 4 0, wSYS 0x302 511 511 0 0, wSYS 0x303 511 511 0 16, wSYS 0x305 258 260 0 1,
    wSYS 0x320 511 511 1 0, wSYS 0x321 511 511 0 2, wSYS 0x322 343 511 512 0, wSYS 0x322 343 258 1 0, wSYS 0x324 258 511 4 1, wSYS 0x326 511 260 0 8, wSYS 0x327 511 260 0 3, wSYS 0x328 258 260 0 4, wSYS 0x329 258 260 0 1, wSYS 0x32b 258 511 0 2,
    wSYS 0x32c 258 511 1 0, wSYS 0x32d 511 511 0 1] : List Nat).all (fun w => !(parse (BitVec.ofNat 64 w)).check3) = true := by decide +kernel

/-- Words that pass check 3 and break an operand rule: an unused field that is not 511, a kind not allowed, a pair or group that
is not aligned, a register that does not exist. -/
theorem test_check4_refuses : ([
    wVR 0x000 5 4 6 7 1 0, wVR 0x000 321 4 6 511 1 0, wVR 0x000 258 4 6 511 1 0, wVR 0x000 5 4 6 511 3 0, wVR 0x001 258 4 6 321 2 0, wVR 0x01f 5 4 6 7 0 0, wVR 0x020 5 4 6 511 1 0, wVR 0x020 327 4 6 511 1 0, wVI 0x022 5 4 0, wVI 0x02a 5 4 0,
    wVR 0x000 511 4 6 511 1 0, wVR 0x080 5 4 6 511 12 0, wVR 0x083 5 4 6 511 9 0, wVR 0x088 321 4 6 7 9 0, wVR 0x09b 258 4 6 7 9 0, wVR 0x100 0 511 511 511 0 0, wVR 0x105 511 4 511 511 0 0, wVR 0x107 5 511 511 511 0 0, wVI 0x10d 5 511 0,
    wVR 0x10e 327 321 511 511 0 0, wVR 0x140 322 5 511 511 0 0, wVR 0x141 5 321 511 511 0 0, wVR 0x142 258 4 6 511 0 0, wVR 0x146 5 4 6 7 2 0, wMEM 0x180 258 258 511 0 0 0 2 0, wMEM 0x180 5 258 511 0 0 0 3 0, wMEM 0x180 6 258 511 0 0 0 4 0,
    wMEM 0x182 4 258 511 0 0 0 2 0, wMEM 0x181 258 258 511 0 0 0 4 0, wATM 0x185 511 8 6 511 0 0 0 2 0, wATM 0x185 4 8 6 511 0 0 9 2 0, wATM 0x185 4 8 6 5 0 0 0 2 0, wMEM 0x187 0 511 511 3 3 0 0 0, wATM 0x188 258 260 4 511 0 0 0 2 0,
    wVR 0x200 511 4 260 511 0 0, wVR 0x204 511 258 260 511 0 0, wVR 0x205 258 258 511 511 0 0, wVR 0x220 511 260 262 511 0 0, wVR 0x240 4 511 511 511 0 0, wVR 0x242 511 258 4 511 0 0, wVR 0x245 258 4 511 511 0 0, wVR 0x240 511 511 511 511 0 0x81,
    wVR 0x280 258 4 258 511 0 0, wVR 0x287 511 511 258 511 0 1, wVR 0x2c0 4 511 258 511 0 0, wVR 0x2c5 258 260 262 511 0 0, wVR 0x2c7 258 261 511 511 0 0, wSYS 0x300 4 260 0 0, wSYS 0x321 258 511 0 0, wSYS 0x322 258 511 1 0, wSYS 0x322 343 511 260 0,
    wSYS 0x323 343 511 327 0, wSYS 0x324 258 511 6 0, wSYS 0x324 258 511 10 0, wSYS 0x325 511 4 0 0, wSYS 0x328 4 260 0 0, wSYS 0x32b 4 511 0 0] : List Nat).all
      (fun w => (parse (BitVec.ofNat 64 w)).check3 && !(parse (BitVec.ofNat 64 w)).check4) = true := by decide +kernel

/-! ## Single steps whose results the spec gives -/

/-- A team of width 32 with 32-bit lane values: register and value of lane 0. -/
def vregs (xs : List (Nat × Nat)) (t : Team) : Team := { t with v := xs.map fun x => (x.1, BitVec.ofNat 32768 x.2) }

/-- The register after one step of a word in the small world. -/
def after (i : Instr) (f : Team → Team) (wide : Bool) (o : Opd) : Option Nat := (stepNext (worldOf [] [] f i)).map fun s => (reg s 0 wide o 0).toNat

/-- A sum wraps at 32 bits, or clamps with M[0] (R132). -/
theorem test_add_wraps : after (.add (vr (.v 5) (.v 4) (.v 6) .none .i32 0)) (vregs [(4, 0x7fffffff), (6, 1)]) false (.v 5) = some 0x80000000 := by decide +kernel
theorem test_add_clamps : after (.add (vr (.v 5) (.v 4) (.v 6) .none .i32 1)) (vregs [(4, 0x7fffffff), (6, 1)]) false (.v 5) = some 0x7fffffff := by decide +kernel
/-- A source that is also the destination is read before the write. -/
theorem test_sub_reads_before_it_writes : after (.sub (vr (.v 5) (.v 5) (.v 5) .none .n32 0)) (vregs [(5, 7)]) false (.v 5) = some 0 := by decide +kernel
/-- 1.0 + 2.0 = 3.0; 1.0 + 2^-24 rounds to even with code 0 and up with code 4 (R43). -/
theorem test_fadd : after (.fadd (vr (.v 5) (.v 4) (.v 6) .none .f32 0)) (vregs [(4, 0x3f800000), (6, 0x40000000)]) false (.v 5) = some 0x40400000 := by decide +kernel
theorem test_fadd_to_even : after (.fadd (vr (.v 5) (.v 4) (.v 6) .none .f32 0)) (vregs [(4, 0x3f800000), (6, 0x33800000)]) false (.v 5) = some 0x3f800000 := by decide +kernel
theorem test_fadd_up : after (.fadd (vr (.v 5) (.v 4) (.v 6) .none .f32 0x200)) (vregs [(4, 0x3f800000), (6, 0x33800000)]) false (.v 5) = some 0x3f800001 := by decide +kernel
/-- -1.5 to an integer is -2 to nearest even and -1 toward zero (R43, R154). -/
theorem test_cvt_nearest : after (.cvt (vr (.v 5) (.v 4) .none .none .i32 0x89)) (vregs [(4, 0xbfc00000)]) false (.v 5) = some 0xfffffffe := by decide +kernel
theorem test_cvt_truncates : after (.cvt (vr (.v 5) (.v 4) .none .none .i32 0x109)) (vregs [(4, 0xbfc00000)]) false (.v 5) = some 0xffffffff := by decide +kernel
/-- movi writes its immediate to every lane; the team goes on in the next clause. -/
theorem test_movi : after (.movi { g := .always, d := .v 9, a := .none, imm := 0x3f800000 }) id false (.v 9) = some 0x3f800000 := by decide +kernel
theorem test_next_clause : (stepNext (world nopW)).map (fun s => (s.team 0).map fun t => (t.h, t.i, t.clause)) = some (some (16, 0, [])) := by decide +kernel
/-- A branch by one unit goes to H + 8 (R45). -/
theorem test_bra : (stepNext (world (.bra { g := .always, disp := 1, cond := 0, pred := 7, rsv := 0 }))).map (fun s => (s.team 0).map fun t => (t.h, t.i)) = some (some (8, 0)) := by decide +kernel
/-- A store puts the low byte of its number at the lowest address (R3). -/
theorem test_stsp_is_little_endian : (stepNext (worldOf [] [] (fun t => { vregs [(4, 0x11223344)] t with e := 1 }) (.stsp (mem (.v 4) .none .none 2)))).map (fun s => spBytes s 1 0 0 4) = some [0x44, 0x33, 0x22, 0x11] := by decide +kernel
/-- A system register read: %epc in handler mode. -/
theorem test_sysrd : after (.sysrd (sys (.s 2) .none 1 0)) (fun t => { t with handler := true, epc := 0x1234 }) true (.s 2) = some 0x1234 := by decide +kernel
/-- A word of the translation range with a handler: its code is in %einst and the team is in the handler at its entry (R51, R300). -/
theorem test_translation_range : (stepNext (handled (world (.translationRangeWord 0xe800000000000123)))).map (fun s => (s.team 0).map fun t => (t.handler, t.einst, t.h, t.i, t.ecause)) =
    some (some (true, 0xe800000000000123, 0x100, 0, cIllegalOp)) := by decide +kernel

end Sys2Proof.Tests
end

section
/-! SUPPORT. Stores at the home slices: what they leave unchanged, and what is read after them (R3, R181, R193). -/

namespace Sys2Proof.Machine

/-! ## A store without an error granule -/

/-- A publication that a store notes changes the contexts' queues and the number of the next one, and nothing else. -/
theorem noteTail_frame (s : State) (who : Option Nat) (pa n : Nat) :
    noteTail s who pa n = { s with nextId := (noteTail s who pa n).nextId, ctxs := (noteTail s who pa n).ctxs } := by
  unfold noteTail
  split <;> rfl

/-- Where no granule of the range holds an error, the bytes are stored as they stand. -/
theorem homePut_of_good {s : State} {pa : Nat} {bs : List Byte} (who : Option Nat) (hg : badAt s pa bs.length = false) :
    homePut s who pa bs = noteTail (rawWrite s pa bs) who pa bs.length := by
  simp [homePut, homeWrite, hg]

theorem noteTail_homeByte (s : State) (who : Option Nat) (pa n a : Nat) : homeByte (noteTail s who pa n) a = homeByte s a := by
  rw [noteTail_frame]; rfl

theorem noteTail_homeBytes (s : State) (who : Option Nat) (pa n a m : Nat) :
    homeBytes (noteTail s who pa n) a m = homeBytes s a m := by
  rw [noteTail_frame]; rfl

theorem rawWrite_host {s : State} {pa : Nat} (bs : List Byte) (h : 2 ^ 48 ≤ pa) :
    rawWrite s pa bs = { s with hostMem := s.hostMem.setBytes (hostAddr s pa) bs } := if_pos h

theorem rawWrite_device {s : State} {pa : Nat} (bs : List Byte) (h : pa < 2 ^ 48) :
    rawWrite s pa bs = { s with mem := s.mem.setBytes pa bs } := if_neg (Nat.not_le.2 h)

/-- The range of a store reads as the bytes stored. -/
theorem homeBytes_rawWrite (s : State) (pa : Nat) (bs : List Byte) : homeBytes (rawWrite s pa bs) pa bs.length = bs := by
  rcases Nat.lt_or_ge pa (2 ^ 48) with h | h
  · rw [rawWrite_device bs h, homeBytes, if_neg (Nat.not_le.2 h)]
    exact Memory.bytes_setBytes bs s.mem pa
  · rw [rawWrite_host bs h, homeBytes, if_pos h]
    exact Memory.bytes_setBytes bs s.hostMem (hostAddr s pa)

/-- A byte outside the range of a store, in the same memory, reads as before. -/
theorem homeByte_rawWrite_outside {s : State} {pa a : Nat} {bs : List Byte} (hside : a < 2 ^ 48 ↔ pa < 2 ^ 48)
    (hout : a < pa ∨ pa + bs.length ≤ a) : homeByte (rawWrite s pa bs) a = homeByte s a := by
  rcases Nat.lt_or_ge pa (2 ^ 48) with h | h
  · have ha : ¬ 2 ^ 48 ≤ a := by omega
    rw [rawWrite_device bs h]
    simp only [homeByte, if_neg ha, Memory.byte_setBytes]
    exact if_neg (by omega)
  · have ha : 2 ^ 48 ≤ a := by omega
    rw [rawWrite_host bs h]
    simp only [homeByte, if_pos ha, hostAddr, Memory.byte_setBytes]
    exact if_neg (by omega)

/-- A store in one of the two memories leaves every byte of the other as before. -/
theorem homeByte_rawWrite_other {s : State} {pa a : Nat} {bs : List Byte} (hside : a < 2 ^ 48 ↔ 2 ^ 48 ≤ pa) :
    homeByte (rawWrite s pa bs) a = homeByte s a := by
  rcases Nat.lt_or_ge pa (2 ^ 48) with h | h
  · have ha : 2 ^ 48 ≤ a := by omega
    rw [rawWrite_device bs h]
    simp only [homeByte, if_pos ha]; rfl
  · have ha : ¬ 2 ^ 48 ≤ a := by omega
    rw [rawWrite_host bs h]
    simp only [homeByte, if_neg ha]

/-- A store changes no team, core, cluster, error granule or gang. -/
theorem homePut_frame {s : State} {pa : Nat} {bs : List Byte} (who : Option Nat) (hg : badAt s pa bs.length = false) :
    (homePut s who pa bs).teams = s.teams ∧ (homePut s who pa bs).cores = s.cores ∧ (homePut s who pa bs).clusters = s.clusters ∧
      (homePut s who pa bs).bad = s.bad ∧ (homePut s who pa bs).gangs = s.gangs := by
  rw [homePut_of_good who hg, noteTail_frame]
  unfold rawWrite
  split <;> exact ⟨rfl, rfl, rfl, rfl, rfl⟩

/-! ## Numbers and compare-and-swaps -/

/-- A number reads as it was stored, modulo its size (R3). -/
theorem homeNat_homePutNat {s : State} {pa n : Nat} (who : Option Nat) (v : Nat) (hg : badAt s pa n = false) :
    homeNat (homePutNat s who pa n v) pa n = v % 2 ^ (8 * n) := by
  have hl := length_leBytes n v
  have hbytes := homeBytes_rawWrite s pa (leBytes n v)
  rw [hl] at hbytes
  rw [homeNat, homePutNat, homePut_of_good who (hl.symm ▸ hg), noteTail_homeBytes, hbytes, leNat_leBytes, Nat.pow_mul]

/-- A compare-and-swap finds the old value and stores the new one, or does nothing (R193). -/
theorem homeCas_cases {s : State} {pa : Nat} (old new : W64) (hg : badAt s pa 8 = false) :
    (homeNat s pa 8 = old.toNat ∧ homeCas s pa old new = (homePutNat s none pa 8 new.toNat, true)) ∨
    (homeNat s pa 8 ≠ old.toNat ∧ homeCas s pa old new = (s, false)) := by
  by_cases h : homeNat s pa 8 = old.toNat <;> simp [homeCas, h, hg]

/-! ## The statement -/

/-- Settles O29: it holds, from what a store writes (homeBytes_rawWrite and the two lemmas on the bytes outside it) and the frame of
a store without an error granule. -/
theorem homeSlicesHoldWhatWasStored : Obligations.HomeSlicesHoldWhatWasStored := by
  intro s who pa bs hg _ s'
  have hput : s' = noteTail (rawWrite s pa bs) who pa bs.length := homePut_of_good who hg
  obtain ⟨hteams, hcores, hclusters, hbad, hgangs⟩ := homePut_frame who hg
  refine ⟨?_, fun a hside hout => ?_, fun a hside => ?_, fun k => congrArg (Table.find · k) hteams, hcores, hclusters,
    hbad, hgangs, ?_, ?_⟩
  · rw [hput, noteTail_homeBytes, homeBytes_rawWrite]
  · rw [hput, noteTail_homeByte, homeByte_rawWrite_outside hside hout]
  · rw [hput, noteTail_homeByte, homeByte_rawWrite_other hside]
  · rintro n v rfl
    exact homeNat_homePutNat who v hg
  · intro old new hlen
    rw [hlen] at hg
    rcases homeCas_cases old new hg with ⟨hold, hcas⟩ | ⟨hold, hcas⟩
    · have hnew := homeNat_homePutNat none new.toNat hg
      simp [hcas, hold, hnew, Nat.mod_eq_of_lt new.isLt]
    · simp [hcas, hold]

end Sys2Proof.Machine
end

section
/-! SUPPORT. The canonical form of every memory (log entry 2), as a predicate that reads four fields of the state: what writes them
keeps it, and an update of any other field keeps it by definition. -/

namespace Sys2Proof.Machine

/-! ## The predicate -/

/-- Device memory, host memory, operand memories and scratchpads in their canonical form. -/
structure CanonicalParts (mem hostMem : Memory) (cores : Table Core) (gangs : Table Gang) : Prop where
  mem : mem.wf = true
  hostMem : hostMem.wf = true
  opmem : ∀ c ∈ cores, c.2.opmem.wf = true
  scratch : ∀ g ∈ gangs, g.2.mem.wf = true

/-- MemoriesCanonical of a state, by the four fields that it reads. -/
def Canonical (s : State) : Prop := CanonicalParts s.mem s.hostMem s.cores s.gangs

theorem canonical_iff {s : State} : Canonical s ↔ MemoriesCanonical s :=
  ⟨fun h => ⟨h.mem, h.hostMem, h.opmem, h.scratch⟩, fun h => ⟨h.mem, h.hostMem, h.opmem, h.scratch⟩⟩

/-- The state that the meaning of an instruction word leaves is canonical, whatever becomes of the word. -/
def Res.Canonical : Res → Prop
  | .commit s | .jump s _ | .stall s | .leave s | .trap s _ | .endTeam s | .park s | .done s => Machine.Canonical s

/-- What a check of lanes hands on, or ends the word with, is canonical. -/
def Chk.Canonical : Chk → Prop
  | .go s _ => Machine.Canonical s
  | .stop r => r.Canonical

/-- What a clause fetch reaches or stops in is canonical. -/
def FRes.Canonical : FRes → Prop
  | .got s _ | .stop s => Machine.Canonical s

/-- Where there is a next state, it is canonical. -/
def OutCanonical : Out → Prop
  | .next s => Canonical s
  | _ => True

/-! ## Updates of other fields -/

/-- A record update that takes its memories, cores and gangs from one canonical state. -/
theorem mk_canonical
    {tick cycle edge mhz stopped mem hostMem bad fuse l2 l2Fill dev parts ports ctxs kernels gangs clusters cores
      teams loads posts fills slotOps notices rings entries halos pageIns pageFails sxPages deaths walks peers turns
      sel nextId outbox msix}
    (h : CanonicalParts mem hostMem cores gangs) :
    Canonical
      ⟨tick, cycle, edge, mhz, stopped, mem, hostMem, bad, fuse, l2, l2Fill, dev, parts, ports, ctxs, kernels, gangs,
        clusters, cores, teams, loads, posts, fills, slotOps, notices, rings, entries, halos, pageIns, pageFails,
        sxPages, deaths, walks, peers, turns, sel, nextId, outbox, msix⟩ := h

section
variable {s : State} {k : Nat}

theorem setTeam_canonical {t : Team} (h : Canonical s) : Canonical (s.setTeam k t) := h
theorem modTeam_canonical {f : Team → Team} (h : Canonical s) : Canonical (s.modTeam k f) := h
theorem setCtx_canonical {c : Ctx} (h : Canonical s) : Canonical (s.setCtx k c) := h
theorem setKernel_canonical {n : Kernel} (h : Canonical s) : Canonical (s.setKernel k n) := h
theorem setPart_canonical {p : Part} (h : Canonical s) : Canonical (s.setPart k p) := h
theorem setCluster_canonical {c : Cluster} (h : Canonical s) : Canonical (s.setCluster k c) := h

end

/-! ## Branches and folds -/

theorem ite_canonical {s s' : State} {c : Prop} [Decidable c] (h : Canonical s) (h' : Canonical s') :
    Canonical (if c then s else s') := by
  split <;> assumption

theorem foldl_canonical {α : Type} {f : State → α → State} {s : State} {l : List α} (h : Canonical s)
    (hf : ∀ s x, Canonical s → Canonical (f s x)) : Canonical (l.foldl f s) := by
  induction l generalizing s with
  | nil => exact h
  | cons x l ih => exact ih (hf s x h)

/-- A fold that carries a value beside the state. -/
theorem foldl_fst_canonical {α β : Type} {f : State × β → α → State × β} {x : State × β} {l : List α} (h : Canonical x.1)
    (hf : ∀ x a, Canonical x.1 → Canonical (f x a).1) : Canonical (l.foldl f x).1 := by
  induction l generalizing x with
  | nil => exact h
  | cons a l ih => exact ih (hf x a h)

/-! ## What a result hands on -/

theorem Chk.Canonical.stop {c : Chk} {r : Res} (h : c.Canonical) (hc : c = .stop r) : r.Canonical := by subst hc; exact h
theorem Chk.Canonical.go {c : Chk} {s : State} {ls : List (Nat × Nat × Nat)} (h : c.Canonical) (hc : c = .go s ls) :
    Machine.Canonical s := by subst hc; exact h
theorem FRes.Canonical.got {r : FRes} {s : State} {pa : Nat} (h : r.Canonical) (hr : r = .got s pa) : Machine.Canonical s := by
  subst hr; exact h
theorem FRes.Canonical.stop {r : FRes} {s : State} (h : r.Canonical) (hr : r = .stop s) : Machine.Canonical s := by
  subst hr; exact h
theorem fst_canonical {α : Type} {x : State × α} {s : State} {a : α} (h : Canonical x.1) (hx : x = (s, a)) : Canonical s := by
  subst hx; exact h
theorem fresh_canonical {s s' : State} {n : Nat} (h : Canonical s) (hs : s.fresh = (n, s')) : Canonical s' := by
  cases hs; exact h

/-! ## Tables whose values keep a property -/

theorem Table.forall_put {α : Type} (P : α → Prop) {t : Table α} {v : α} (k : Nat) (h : ∀ p ∈ t, P p.2) (hv : P v) :
    ∀ p ∈ t.put k v, P p.2 := by
  intro p hp
  rcases (Table.mem_insert _ _ _ _).1 hp with rfl | hp
  · exact hv
  · exact h p (List.mem_filter.1 hp).1

theorem Table.mem_of_find {α : Type} {t : Table α} {k : Nat} {v : α} (h : t.find k = some v) : (k, v) ∈ t := by
  induction t with
  | nil => cases h
  | cons p r ih =>
    obtain ⟨k', v'⟩ := p
    rw [Table.find] at h
    split at h
    · next hk => cases h; exact hk ▸ List.mem_cons_self
    · exact List.mem_cons_of_mem _ (ih h)

theorem Table.forall_modify {α : Type} (P : α → Prop) {t : Table α} {f : α → α} (k : Nat) (h : ∀ p ∈ t, P p.2)
    (hf : ∀ v, P v → P (f v)) : ∀ p ∈ t.modify k f, P p.2 := by
  unfold Table.modify
  split
  · next v hv => exact Table.forall_put P k h (hf v (h _ (Table.mem_of_find hv)))
  · exact h

theorem Table.forall_map {α : Type} (P : α → Prop) {t : Table α} {f : Nat × α → α} (h : ∀ p ∈ t, P p.2)
    (hf : ∀ p, P p.2 → P (f p)) : ∀ p ∈ (t.map fun p => (p.1, f p) : Table α), P p.2 := by
  intro p hp
  obtain ⟨q, hq, rfl⟩ := List.mem_map.1 hp
  exact hf q (h q hq)

theorem Table.forall_filter {α : Type} (P : α → Prop) {t : Table α} {f : Nat × α → Bool} (h : ∀ p ∈ t, P p.2) :
    ∀ p ∈ (t.filter f : Table α), P p.2 :=
  fun p hp => h p (List.mem_filter.1 hp).1

/-! ## Cores and gangs -/

/-- A core that the table does not list is one after reset, whose operand memory lists nothing. -/
theorem get_opmem {t : Table Core} (h : ∀ c ∈ t, c.2.opmem.wf = true) (c : Nat) : (t.get c Core.reset).opmem.wf = true := by
  unfold Table.get
  cases hc : t.find c with
  | none => rfl
  | some v => exact h _ (Table.mem_of_find hc)

section
variable {s : State}

theorem core_opmem (h : Canonical s) (c : Nat) : (s.core c).opmem.wf = true := get_opmem h.opmem c

theorem gang_scratch {g : Nat} {x : Gang} (h : Canonical s) (hg : s.gang g = some x) : x.mem.wf = true :=
  h.scratch _ (Table.mem_of_find hg)

theorem setCore_canonical {c : Nat} {v : Core} (h : Canonical s) (hv : v.opmem.wf = true) : Canonical (s.setCore c v) :=
  { h with opmem := Table.forall_put (fun v : Core => v.opmem.wf = true) c h.opmem hv }

theorem setGang_canonical {g : Nat} {x : Gang} (h : Canonical s) (hx : x.mem.wf = true) : Canonical (s.setGang g x) :=
  { h with scratch := Table.forall_put (fun x : Gang => x.mem.wf = true) g h.scratch hx }

theorem modGang_canonical {g : Nat} {f : Gang → Gang} (h : Canonical s) (hf : ∀ x, x.mem.wf = true → (f x).mem.wf = true) :
    Canonical { s with gangs := s.gangs.modify g f } :=
  { h with scratch := Table.forall_modify (fun x : Gang => x.mem.wf = true) g h.scratch hf }

/-- An update of every listed core that keeps its operand memory canonical. -/
theorem mapCores_canonical {f : Nat × Core → Core} (h : Canonical s) (hf : ∀ c, c.2.opmem.wf = true → (f c).opmem.wf = true) :
    Canonical { s with cores := s.cores.map fun c => (c.1, f c) } :=
  { h with opmem := Table.forall_map (fun v : Core => v.opmem.wf = true) h.opmem hf }

theorem filterGangs_canonical {f : Nat × Gang → Bool} (h : Canonical s) : Canonical { s with gangs := s.gangs.filter f } :=
  { h with scratch := Table.forall_filter (fun x : Gang => x.mem.wf = true) h.scratch }

end

theorem setBank_opmem {c : Core} {b : Nat} {v : Bank} (h : c.opmem.wf = true) : (c.setBank b v).opmem.wf = true := by
  unfold Core.setBank
  split <;> exact h

/-! ## Every operation of the model, in the order of its files -/

variable {c g j k n o p q u cl hd id lo op pa qn sl va acc job key kid num off oid seq bank code core half hint kind lane line part
  pipe pool port size slot bytes entry extra level order queue scope snare kernel leafPa reason status : Nat}
  {e v tok addr bits leaf word : W64} {l old refs lanes : List (Nat × Nat)} {s s0 : State} {bs flit : List Byte}
  {acq who : Option Nat} {pf wide : Bool} {t : Team} {f : VR} {r : PeerReq} {d : VDesc} {hdr : SHdr} {i : Instr} {m : Mask}
  {go : Res} {body : Nat → Team → State → Res} {w : Who} {x : Nat × Nat × Nat} {b : HBar} {dc : Nat → Nat × Nat} {pg : Table Nat}
  {tile : Tile} {value : BitVec 64}

/-! ## Machine/Home.lean -/

theorem rawWrite_canonical {s : State} {pa : Nat} {bs : List Byte} (h : Canonical s) : Canonical (rawWrite s pa bs) := by
  fun_cases rawWrite
  · exact { h with hostMem := Memory.wf_setBytes _ _ _ h.hostMem }
  · exact { h with mem := Memory.wf_setBytes _ _ _ h.mem }

theorem noteTail_canonical (h : Canonical s) : Canonical (noteTail s who pa n) := by fun_cases noteTail <;> exact h

theorem homeWrite_canonical (h : Canonical s) : Canonical (homeWrite s who pa bs).1 := by
  fun_cases homeWrite
  · exact noteTail_canonical (mk_canonical (foldl_canonical h fun _ _ h' => ite_canonical h' (rawWrite_canonical h')))
  · exact noteTail_canonical (rawWrite_canonical h)

theorem homePut_canonical (h : Canonical s) : Canonical (homePut s who pa bs) := homeWrite_canonical h
theorem homePutNat_canonical {v : Nat} (h : Canonical s) : Canonical (homePutNat s who pa n v) := homePut_canonical h

theorem homeZero_canonical {s : State} {pa n : Nat} (h : Canonical s) : Canonical (homeZero s pa n) := by
  refine mk_canonical ?_
  split
  · exact { h with hostMem := Memory.wf_zero _ _ _ h.hostMem }
  · exact { h with mem := Memory.wf_zero _ _ _ h.mem }

theorem homeCas_canonical {old new : W64} (h : Canonical s) : Canonical (homeCas s pa old new).1 := by
  fun_cases homeCas
  · exact homePutNat_canonical h
  · exact h

theorem l2Touch_canonical (h : Canonical s) : Canonical (l2Touch s pa) := by fun_cases l2Touch <;> exact h

theorem hostRecord_canonical {s : State} {p : Nat} {r : HostRec} (h : Canonical s) : Canonical (hostRecord s p r) := by
  fun_cases hostRecord
  · exact h
  · exact { h with hostMem := Memory.wf_setBytes _ _ _ h.hostMem }

/-- Making every core's next sweep absolute writes no operand memory. -/
theorem absNext_opmem {l : List Nat} {t : Table Core} (h : ∀ c ∈ t, c.2.opmem.wf = true) :
    ∀ c ∈ l.foldl (fun t c => t.put c { t.get c Core.reset with absNext := true }) t, c.2.opmem.wf = true := by
  induction l generalizing t with
  | nil => exact h
  | cons c l ih => exact ih (Table.forall_put (fun v : Core => v.opmem.wf = true) c h (get_opmem h c))

theorem carRecord_canonical {s : State} {kind core : Nat} {fs : List (Nat × Nat × Nat)} (h : Canonical s) :
    Canonical (carRecord s kind core fs) := by
  unfold carRecord
  generalize List.range 64 = l
  dsimp only
  split
  · exact { h with opmem := absNext_opmem h.opmem }
  · exact mk_canonical (homePut_canonical h)

theorem bumpCounter_canonical (h : Canonical s) : Canonical (bumpCounter s core j n) := setCore_canonical h (core_opmem h _)

/-! ## Machine/Operands.lean -/

theorem setKv_canonical {v : BitVec 32768} (h : Canonical s) : Canonical (setKv s k n v) := setCore_canonical h (core_opmem h _)
theorem setKs_canonical (h : Canonical s) : Canonical (setKs s k n v) := setCore_canonical h (core_opmem h _)

theorem writeD_canonical {lanes : Mask} {d : Opd} {f : Nat → W64} (h : Canonical s) : Canonical (writeD s k lanes wide d f) := by
  fun_cases writeD
  case case3 => exact setKv_canonical (setKv_canonical h)
  case case4 => exact setKv_canonical h
  case case6 => exact setKs_canonical h
  all_goals exact h

theorem writeP_canonical {lanes : Mask} {d : Opd} {r : Mask} (h : Canonical s) : Canonical (writeP s k lanes d r) := by
  fun_cases writeP <;> exact h

theorem writeS_canonical {d : Opd} (h : Canonical s) : Canonical (writeS s k d v) := writeD_canonical h

/-! ## Machine/Ops.lean -/

theorem freePipe_canonical (h : Canonical s) : Canonical (freePipe s k) := by
  fun_cases freePipe
  · exact setCore_canonical h (core_opmem h _)
  · exact h

theorem dropStoreLoads_canonical (h : Canonical s) : Canonical (dropStoreLoads s k) := h

theorem freeStore_canonical (h : Canonical s) : Canonical (freeStore s k) := by
  fun_cases freeStore
  · exact dropStoreLoads_canonical (setCore_canonical h (core_opmem h _))
  · exact h

theorem takeStore_canonical (h : Canonical s) : Canonical (takeStore s k) := by
  fun_cases takeStore
  · exact h
  · exact setTeam_canonical (setCore_canonical h (core_opmem h _))

theorem tryEnter_canonical (h : Canonical s) : Canonical (tryEnter s k) := by
  fun_cases tryEnter
  case case2 => exact takeStore_canonical h
  all_goals exact h

theorem exitTeamNow_canonical (h : Canonical s) : Canonical (exitTeamNow s k) :=
  modTeam_canonical (freeStore_canonical (freePipe_canonical h))

theorem killTeam_canonical (h : Canonical s) : Canonical (killTeam s k) := by
  fun_cases killTeam
  case case3 => exact modTeam_canonical (exitTeamNow_canonical h)
  all_goals exact h

theorem killGang_canonical {s : State} {g : Nat} (h : Canonical s) : Canonical (killGang s g) :=
  foldl_canonical (modGang_canonical h fun _ hx => hx) fun _ _ h => killTeam_canonical h

theorem killKernel_canonical (h : Canonical s) : Canonical (killKernel s kid) := by
  fun_cases killKernel
  case case3 => exact hostRecord_canonical (foldl_canonical h fun _ _ h' => killTeam_canonical h')
  all_goals exact h

theorem killCtx_canonical (h : Canonical s) : Canonical (killCtx s o) := foldl_canonical h fun _ _ h' => killKernel_canonical h'
theorem resumeAt_canonical {hdr : W64} {i : Nat} (h : Canonical s) : Canonical (resumeAt s k hdr i) := h

theorem contain_canonical (h : Canonical s) : Canonical (contain s k level) := by
  fun_cases contain
  · exact h
  · exact resumeAt_canonical h
  · exact modTeam_canonical (resumeAt_canonical h)
  · exact killTeam_canonical h
  · exact killGang_canonical h
  · exact killKernel_canonical h
  · exact killCtx_canonical h

theorem latchFrame_canonical {f : Frame} (h : Canonical s) : Canonical (latchFrame s k f) :=
  modTeam_canonical (freePipe_canonical h)

theorem deliver_canonical {f : Frame} (h : Canonical s) : Canonical (deliver s k f) := by
  fun_cases deliver
  case case1 => exact h
  case case3 => exact tryEnter_canonical (modTeam_canonical (latchFrame_canonical h))
  all_goals exact contain_canonical (latchFrame_canonical h)

theorem digestRec_canonical (h : Canonical s) : Canonical (digestRec s k t) := carRecord_canonical h

theorem digestPoint_canonical (h : Canonical s) : Canonical (digestPoint s k t) := by
  fun_cases digestPoint
  case case1 => exact digestRec_canonical h
  all_goals exact h

theorem completeClause_canonical {target : W64} (h : Canonical s) : Canonical (completeClause s k target) := by
  fun_cases completeClause
  · exact h
  · exact digestPoint_canonical (ite_canonical (bumpCounter_canonical (freePipe_canonical h)) (freePipe_canonical h))

theorem commitWord_canonical (h : Canonical s) : Canonical (commitWord s k) := by
  fun_cases commitWord
  case case3 => exact completeClause_canonical h
  all_goals exact h

theorem charge_canonical {r : Res} (h : r.Canonical) : (charge k n r).Canonical := by
  fun_cases charge
  case case3 => exact h
  all_goals exact bumpCounter_canonical h

theorem raise_canonical {c : Cause} (h : Canonical s) : Canonical (raise s k c) := by
  fun_cases raise
  · exact h
  · exact commitWord_canonical h
  · exact deliver_canonical h

theorem stallAt_canonical (h : Canonical s) : Canonical (stallAt s k) := h

theorem finish_canonical {r : Res} (h : r.Canonical) : Canonical (finish k r) := by
  fun_cases finish
  case case1 => exact commitWord_canonical h
  case case2 => exact completeClause_canonical h
  case case3 => exact stallAt_canonical h
  case case5 => exact raise_canonical h
  case case6 =>
    refine exitTeamNow_canonical ?_
    split
    · exact digestPoint_canonical h
    · exact h
  case case8 => exact h
  all_goals exact freePipe_canonical h

theorem stopHeld_canonical (h : Canonical s) : Canonical (stopHeld s k snare) := freePipe_canonical h
theorem unstop_canonical (h : Canonical s) : Canonical (unstop s k snare) := h

theorem stopTeam_canonical (h : Canonical s) : Canonical (stopTeam s k snare) := by
  fun_cases stopTeam
  · exact mk_canonical (stopHeld_canonical h)
  · exact mk_canonical (stopHeld_canonical (unstop_canonical h))
  · exact h

theorem withWide_canonical {ranges : List (Nat × Nat)} (h : Canonical s) (hgo : go.Canonical) :
    (withWide s k t m kind ranges go).Canonical := by
  fun_cases withWide
  · exact stopTeam_canonical h
  · exact hgo

theorem decodeFault_canonical (h : Canonical s) : Canonical (decodeFault s k t bits) := raise_canonical h

theorem issue_canonical (h : Canonical s) (hbody : ∀ a b s, Canonical s → (body a b s).Canonical) : Canonical (issue i s body) := by
  fun_cases issue
  case case4 => exact decodeFault_canonical h
  case case5 => exact decodeFault_canonical h
  case case6 => exact decodeFault_canonical h
  case case7 => exact stopTeam_canonical h
  case case8 => exact finish_canonical h
  case case9 => exact raise_canonical h
  case case10 => exact finish_canonical (charge_canonical (hbody _ _ _ h))
  all_goals exact h

theorem endWait_canonical (h : Canonical s) : Canonical (endWait s k) := by fun_cases endWait <;> exact h

theorem once_canonical {g : Guard} (h : Canonical s) (hbody : ∀ a b s, Canonical s → (body a b s).Canonical) :
    (once g body k t s).Canonical := by
  fun_cases once
  · exact hbody _ _ _ h
  · exact endWait_canonical h

theorem onceLeft_canonical {g : Guard} (h : Canonical s) (hbody : ∀ a b s, Canonical s → (body a b s).Canonical) :
    (onceLeft g body n t s).Canonical := by
  refine once_canonical h fun _ _ _ h' => ?_
  split
  · exact hbody _ _ _ h'
  · exact endWait_canonical h'

theorem teamTrap_canonical {g : Guard} (h : Canonical s) : (teamTrap s t g bits addr).Canonical := h
theorem reenter_canonical (h : Canonical s) : Canonical (reenter s k t) := setTeam_canonical (freePipe_canonical h)

theorem honourAsk_canonical {a : Ask} (h : Canonical s) : Canonical (honourAsk s k a) := by
  fun_cases honourAsk
  case case2 => exact bumpCounter_canonical h
  all_goals exact h

theorem deliverHeld_canonical {hdr : W64} (h : Canonical s) : Canonical (deliverHeld s k hdr) := by
  fun_cases deliverHeld
  case case3 => exact deliver_canonical h
  all_goals exact h

theorem handlerEnd_canonical {up : Bool} (h : Canonical s) : Canonical (handlerEnd s k t up) := by
  fun_cases handlerEnd
  case case2 => exact reenter_canonical h
  case case4 => exact setTeam_canonical (freeStore_canonical (freePipe_canonical h))
  all_goals exact contain_canonical (setTeam_canonical (freeStore_canonical (freePipe_canonical h)))

theorem returnFromHandler_canonical {t0 : Team} {up : Bool} (h : Canonical s0) : Canonical (returnFromHandler s0 k t0 up) :=
  honourAsk_canonical (digestPoint_canonical (handlerEnd_canonical h))

/-! ## Machine/Alu.lean -/

theorem alu_canonical {g : Guard} {d : Opd} {val : Nat → W64} (h : Canonical s) : (alu g d wide k t s val).Canonical := by
  fun_cases alu
  case case2 => exact h
  all_goals exact writeD_canonical h

theorem aluP_canonical {g : Guard} {d : Opd} {val : Nat → Bool} (h : Canonical s) : (aluP g d k t s val).Canonical :=
  writeP_canonical h

/-! ## Machine/FloatOps.lean -/

theorem fpCommit_canonical {lanes : List Nat} {exc : Nat → Exc} {write : State → State} (h : Canonical s)
    (hwrite : ∀ s, Canonical s → Canonical (write s)) : (fpCommit k t s lanes exc write).Canonical := by
  fun_cases fpCommit
  · exact h
  · exact hwrite _ h

theorem fpForm_canonical {g : Guard} {d : Opd} {wide : Bool} {ty : ETy} {k : Nat} {t : Team} {s : State} {val : Nat → Nat × Exc}
    (h : Canonical s) : (fpForm g d wide ty k t s val).Canonical := by
  unfold fpForm
  refine fpCommit_canonical h fun st hst => ?_
  split
  · split
    · exact writeD_canonical hst
    · exact hst
  · exact writeD_canonical hst

theorem execSmx_canonical (h : Canonical s) : OutCanonical (execSmx f s) :=
  issue_canonical h fun _ _ _ h' => fpCommit_canonical h' fun _ h2 => writeD_canonical
    (writeD_canonical (writeD_canonical (writeD_canonical h2)))

/-! ## Machine/CrossLane.lean -/

theorem execRdc_canonical (h : Canonical s) : OutCanonical (execRdc f s) :=
  issue_canonical h fun _ _ _ h' => fpCommit_canonical h' fun _ h2 => ite_canonical (ite_canonical (writeD_canonical h2) h2)
    (writeD_canonical h2)

/-! ## Machine/HistTables.lean -/

theorem learn_canonical {f : Hist → Hist} (h : Canonical s) : Canonical (learn s core oid f) := by
  fun_cases learn
  · exact setCore_canonical h (setBank_opmem (core_opmem h _))
  · exact h

theorem expireCct_canonical {now : Nat} {p : Nat → Bool} (h : Canonical s) : Canonical (expireCct s now p) :=
  foldl_canonical h fun _ _ h' => learn_canonical h'

theorem passCycles_canonical {s : State} {n : Nat} {edge : Table Nat} (h : Canonical s) : Canonical (passCycles s n edge) :=
  expireCct_canonical (mk_canonical (mapCores_canonical h fun _ hc => hc))

theorem endEdge_canonical (h : Canonical s) : Canonical (endEdge s core) := passCycles_canonical h

/-! ## Machine/Xlat.lean -/

theorem setA_canonical (h : Canonical s) : Canonical (setA s leafPa leaf) := by
  fun_cases setA
  · exact h
  · exact homePutNat_canonical h

theorem xlat_canonical {core : Option Nat} (h : Canonical s) : Canonical (xlat s core cl oid va acc).1 := by
  fun_cases xlat
  · exact h
  · refine setCluster_canonical (setA_canonical (setCluster_canonical ?_))
    dsimp +zetaDelta only
    split
    · exact bumpCounter_canonical h
    · exact h
  · refine setCluster_canonical ?_
    dsimp +zetaDelta only
    split
    · exact bumpCounter_canonical h
    · exact h

theorem setD_canonical (h : Canonical s) : Canonical (setD s cl oid va) := by
  fun_cases setD
  case case2 => exact homePutNat_canonical h
  case case5 => exact setCluster_canonical (homePutNat_canonical h)
  all_goals exact h

theorem pageRecord_canonical (h : Canonical s) : Canonical (pageRecord s p oid va reason acc core slot leaf extra) :=
  hostRecord_canonical h

theorem filteredRecord_canonical (h : Canonical s) : Canonical (filteredRecord s k t va reason acc leaf extra) := by
  fun_cases filteredRecord
  · exact h
  · exact pageRecord_canonical h
  · exact setCluster_canonical (pageRecord_canonical h)

theorem hostWait_canonical {hdr : W64} {mask : Mask} (h : Canonical s) : Canonical (hostWait s k t va reason acc word hdr mask) :=
  freePipe_canonical h

theorem dropPageFails_canonical {p : PageFail → Bool} (h : Canonical s) : Canonical (dropPageFails s p) := h

theorem wantPageIn_canonical {team : Option Nat} {mask : Mask} (h : Canonical s) :
    Canonical (wantPageIn s cl oid leafPa leaf va acc team mask code) := by
  fun_cases wantPageIn
  · exact mk_canonical (homeCas_canonical h)
  · exact h

theorem leafWait_canonical (h : Canonical s) : Canonical (leafWait s k leafPa leaf) := h

theorem xlatLanes_canonical (h : Canonical s) : Canonical (xlatLanes core cl oid acc l s).1 := by
  fun_induction xlatLanes
  · exact h
  case case2 ih => exact ih (xlat_canonical h)

theorem failXlat_canonical {xs : LaneX} (h : Canonical s) : (failXlat s k t acc xs va reason).Canonical := by
  fun_cases failXlat
  · exact h
  · exact pageRecord_canonical h
  · exact hostWait_canonical (foldl_canonical h fun _ _ h' => filteredRecord_canonical h')

theorem actOnXlat_canonical {xs : LaneX} (h : Canonical s) : (actOnXlat s k t acc xs).Canonical := by
  fun_cases actOnXlat
  · refine failXlat_canonical (foldl_canonical h fun _ _ h' => ?_)
    split
    · exact wantPageIn_canonical h'
    · exact h'
  · refine leafWait_canonical (foldl_canonical h fun _ _ h' => ?_)
    split
    · exact wantPageIn_canonical h'
    · exact h'
  · refine foldl_canonical h fun _ _ h' => ?_
    split
    · exact wantPageIn_canonical h'
    · exact h'

theorem permLanes_canonical (h : Canonical s) : (permLanes s k t size acc lanes).Canonical := by
  fun_cases permLanes
  · exact h
  · exact actOnXlat_canonical (xlatLanes_canonical h)

theorem checkLanes_canonical (h : Canonical s) : (checkLanes s k t size acc lanes).Canonical := by
  fun_cases checkLanes
  · exact (permLanes_canonical h).stop ‹_›
  · exact ite_canonical (foldl_canonical ((permLanes_canonical h).go ‹_›) fun _ _ h' => setD_canonical h')
      ((permLanes_canonical h).go ‹_›)

theorem wideRes_canonical {r : Res} (h : r.Canonical) : (wideRes k m r).Canonical := by fun_cases wideRes <;> exact h

theorem checkWide_canonical {g : Guard} (h : Canonical s) : (checkWide s k t g size acc lanes).Canonical := by
  fun_cases checkWide
  · exact wideRes_canonical ((checkLanes_canonical h).stop ‹_›)
  · exact checkLanes_canonical h

theorem engineXlat_canonical (h : Canonical s) : Canonical (engineXlat s code cl oid va acc).1 := by
  fun_cases engineXlat
  · exact ite_canonical (setD_canonical (ite_canonical (dropPageFails_canonical (xlat_canonical h)) (xlat_canonical h)))
      (ite_canonical (dropPageFails_canonical (xlat_canonical h)) (xlat_canonical h))
  · exact dropPageFails_canonical (xlat_canonical h)
  · exact wantPageIn_canonical (xlat_canonical h)
  · exact xlat_canonical h

theorem engineRange_canonical (h : Canonical s) : Canonical (engineRange code cl oid acc l s).1 := by
  fun_induction engineRange
  case case1 => exact h
  case case3 ih => exact ih (engineXlat_canonical h)
  case case4 ih => exact ih (engineXlat_canonical h)
  all_goals exact engineXlat_canonical h

theorem engineSpan_canonical (h : Canonical s) : Canonical (engineSpan s code cl oid va n acc).1 := engineRange_canonical h

theorem engineRecord_canonical (h : Canonical s) : Canonical (engineRecord s p oid va reason acc code leaf extra) := by
  fun_cases engineRecord
  · exact pageRecord_canonical h
  · exact h

theorem spanWrite_canonical {l : List (Nat × Nat × Nat)} {r : List Byte} (h : Canonical s) : Canonical (spanWrite s who l r).1 := by
  fun_induction spanWrite
  · exact h
  case case2 ih => exact ih (homeWrite_canonical h)

/-! ## Machine/Flit.lean -/

theorem sendFlit_canonical {payload : List Byte} (h : Canonical s) : Canonical (sendFlit s port kind payload) := h

/-! ## Machine/Cache.lean -/

theorem setLine_canonical {l : Line} (h : Canonical s) : Canonical (setLine s sl key l) := setCore_canonical h (core_opmem h _)
theorem dropLine_canonical (h : Canonical s) : Canonical (dropLine s sl key) := setCore_canonical h (core_opmem h _)

theorem holdUncorr_canonical (h : Canonical s) : Canonical (holdUncorr s k va acc word) := by
  fun_cases holdUncorr
  · exact h
  · exact pageRecord_canonical h

theorem teamHomeWrite_canonical (h : Canonical s) : Canonical (teamHomeWrite s k va pa bs word) := by
  fun_cases teamHomeWrite
  · exact holdUncorr_canonical (homeWrite_canonical h)
  · exact homeWrite_canonical h

theorem sendLine_canonical {w : LineWrite} (h : Canonical s) : Canonical (sendLine s k w word) :=
  foldl_canonical h fun _ _ h' => teamHomeWrite_canonical h'

theorem writeBack_canonical (h : Canonical s) : Canonical (writeBack s sl key) := by
  fun_cases writeBack
  case case3 => exact sendLine_canonical (setLine_canonical h)
  all_goals exact h

theorem flushLine_canonical (h : Canonical s) : Canonical (flushLine s sl key) := dropLine_canonical (writeBack_canonical h)

theorem eachLine_canonical {p : Line → Bool} {f : State → Nat → Nat → State} (h : Canonical s)
    (hf : ∀ s a b, Canonical s → Canonical (f s a b)) : Canonical (eachLine s sl p f) :=
  foldl_canonical h fun _ _ h' => hf _ _ _ h'

theorem hitLine_canonical {l : Line} (h : Canonical s) : Canonical (hitLine s core sl key l) :=
  learn_canonical (setLine_canonical h)

theorem bindLoads_canonical {p : Load → LaneLoad → Bool} {f : Nat → LaneLoad → LaneLoad} (h : Canonical s) :
    Canonical (bindLoads s p f) :=
  h

theorem evict_canonical (h : Canonical s) : Canonical (evict s core sl key oid) := by
  fun_cases evict
  · exact h
  · exact flushLine_canonical h
  · exact learn_canonical (flushLine_canonical h)

theorem storeDone_canonical (h : Canonical s) : Canonical (storeDone s k num) := by fun_cases storeDone <;> exact h

theorem digestRun_canonical {l : List DigestItem} (h : Canonical s) : Canonical (digestRun k l s) := by
  fun_induction digestRun
  case case3 ih => exact ih h
  case case4 ih =>
    refine ih ?_
    split
    · exact digestRec_canonical h
    · exact h
  all_goals exact h

theorem digestItems_canonical {items : List DigestItem} (h : Canonical s) : Canonical (digestItems s k items) := by
  fun_cases digestItems
  case case1 => exact digestRun_canonical h
  all_goals exact h

theorem digest_canonical {recs : List (Nat × List Byte)} (h : Canonical s) : Canonical (digest s k recs) := digestItems_canonical h

theorem digestAnswer_canonical {req : Nat} {item : List DigestItem} (h : Canonical s) : Canonical (digestAnswer s k req item) := by
  fun_cases digestAnswer
  case case1 => exact digestRun_canonical h
  all_goals exact h

theorem dropPeer_canonical (h : Canonical s) : Canonical (dropPeer s id r) := by
  fun_cases dropPeer
  · exact digestAnswer_canonical h
  · exact h

theorem failPeer_canonical (h : Canonical s) : Canonical (failPeer s id) := by
  fun_cases failPeer
  · exact h
  · exact dropPeer_canonical h
  · exact pageRecord_canonical (dropPeer_canonical h)
  · exact mk_canonical (dropPeer_canonical h)
  · exact storeDone_canonical (holdUncorr_canonical (dropPeer_canonical h))

theorem giveUpPeer_canonical (h : Canonical s) : Canonical (giveUpPeer s id) := by
  fun_cases giveUpPeer
  · exact h
  · exact dropPeer_canonical h
  · refine modTeam_canonical ?_
    dsimp +zetaDelta only
    split
    · exact mk_canonical (dropPeer_canonical h)
    · exact storeDone_canonical (dropPeer_canonical h)

theorem refusePeer_canonical (h : Canonical s) : Canonical (refusePeer s id r) := by
  fun_cases refusePeer
  · exact h
  · exact dropPeer_canonical (pageRecord_canonical h)
  · exact giveUpPeer_canonical (filteredRecord_canonical h)
  · exact modTeam_canonical (hostWait_canonical (filteredRecord_canonical h))
  · exact filteredRecord_canonical h

theorem sendPeer_canonical (h : Canonical s) : Canonical (sendPeer s id r) := by
  fun_cases sendPeer
  · exact mk_canonical (sendFlit_canonical h)
  · exact failPeer_canonical h
  · exact h

theorem askPeer_canonical (h : Canonical s) : Canonical (askPeer s r) := sendPeer_canonical h

theorem acceptPost_canonical (h : Canonical s) : Canonical (acceptPost s id) := by
  fun_cases acceptPost
  · exact h
  · exact storeDone_canonical (sendLine_canonical (ite_canonical (l2Touch_canonical h) h))

theorem acceptPosts_canonical {p : Post → Bool} (h : Canonical s) : Canonical (acceptPosts s p) :=
  foldl_canonical h fun _ _ h' => acceptPost_canonical h'

theorem installLine_canonical {f : Fill} (h : Canonical s0) : Canonical (installLine s0 f) := by
  unfold installLine
  extract_lets va sl set s s1 c v key s2 hist s3
  have hs1 : Canonical s1 := foldl_canonical (acceptPosts_canonical h) fun _ _ h' =>
    eachLine_canonical h' fun _ _ _ h2 => flushLine_canonical h2
  exact setLine_canonical (l2Touch_canonical (evict_canonical (setCore_canonical hs1 (core_opmem hs1 _))))

theorem storeInto_canonical {l : Line} {w : LineWrite} (h : Canonical s) : Canonical (storeInto s sl key k l w) :=
  setLine_canonical (ite_canonical (writeBack_canonical h) h)

theorem joinStore_canonical {f : Fill} {x : Nat × Nat × LineWrite} (h : Canonical s) : Canonical (joinStore s f x) := by
  fun_cases joinStore
  · exact h
  · exact storeDone_canonical (storeInto_canonical h)

theorem completeFill_canonical (h : Canonical s) : Canonical (completeFill s id) := by
  fun_cases completeFill
  · exact h
  · exact l2Touch_canonical h
  · exact foldl_canonical (bindLoads_canonical h) fun _ _ h' => storeDone_canonical (sendLine_canonical h')
  · exact foldl_canonical (bindLoads_canonical (installLine_canonical h)) fun _ _ h' => joinStore_canonical h'

theorem fillsNow_canonical {ids : List Nat} (h : Canonical s) : Canonical (fillsNow s core ids) := by
  fun_cases fillsNow
  · exact h
  · exact endEdge_canonical (foldl_canonical h fun _ _ h' => completeFill_canonical h')

theorem requestFill_canonical {f : Fill} (h : Canonical s) : Canonical (requestFill s f) := bumpCounter_canonical h

theorem prefetch_canonical {vline sig : Nat} {l2 : Bool} (h : Canonical s) : Canonical (prefetch s core oid vline sig l2) := by
  fun_cases prefetch
  case case2 => exact requestFill_canonical h
  all_goals exact h

theorem trainSpt_canonical {pc a : Nat} (h : Canonical s) : Canonical (trainSpt s core oid pc a) := by
  fun_cases trainSpt
  · exact foldl_canonical (learn_canonical h) fun _ _ h' => ite_canonical h' (prefetch_canonical h')
  · exact h

theorem dropAlias_canonical (h : Canonical s) : Canonical (dropAlias s core oid va pa) := by
  fun_cases dropAlias
  · exact h
  · exact foldl_canonical (fillsNow_canonical h) fun _ _ h' => eachLine_canonical h' fun _ _ _ h2 => flushLine_canonical h2

theorem settle_canonical (h : Canonical s) : Canonical (settle s k t va pa) :=
  bindLoads_canonical (acceptPosts_canonical (dropAlias_canonical (fillsNow_canonical h)))

theorem settleAll_canonical {lanes : List (Nat × Nat × Nat)} (h : Canonical s) : Canonical (settleAll s k t lanes) :=
  foldl_canonical h fun _ _ h' => settle_canonical h'

theorem drain_canonical (h : Canonical s) : Canonical (drain s k t) :=
  foldl_canonical (bindLoads_canonical (acceptPosts_canonical (fillsNow_canonical h))) fun _ _ h' => eachLine_canonical h'
    fun _ _ _ h2 => writeBack_canonical h2

theorem dropVoid_canonical (h : Canonical s) : Canonical (dropVoid s cl oid) := h

theorem renewLine_canonical (h : Canonical s) : Canonical (renewLine s sl key) := by
  fun_cases renewLine
  · exact h
  · exact dropLine_canonical h
  · exact setLine_canonical h

theorem acquireOid_canonical (h : Canonical s) : Canonical (acquireOid s core oid) :=
  dropVoid_canonical (mk_canonical (foldl_canonical h fun _ _ h' => eachLine_canonical h' fun _ _ _ h2 => renewLine_canonical h2))

theorem acquire_canonical (h : Canonical s) : Canonical (acquire s k t scope) := by
  fun_cases acquire
  · exact acquireOid_canonical h
  · exact h

theorem bindTeam_canonical (h : Canonical s) : Canonical (bindTeam s k) := bindLoads_canonical h

theorem fenceWith_canonical {go : State → Res} (h : Canonical s) (hgo : ∀ s, Canonical s → (go s).Canonical) :
    (fenceWith s k t order scope go).Canonical := by
  fun_cases fenceWith
  · exact h
  · exact hgo _ (ite_canonical (acquire_canonical (bindTeam_canonical (ite_canonical (drain_canonical h) h)))
      (ite_canonical (drain_canonical h) h))

theorem askLane_canonical {x : LaneLoad} (h : Canonical s) : Canonical (askLane s k t id size acq x) := askPeer_canonical h

theorem addLoad_canonical {dst : Opd} {lanes : List LaneLoad} (h : Canonical s) :
    Canonical (addLoad s k t dst size hint lanes acq) :=
  foldl_canonical h fun _ _ h' => askLane_canonical h'

theorem answerMisses_canonical (h : Canonical s) : Canonical (answerMisses s core) :=
  bindLoads_canonical (endEdge_canonical (foldl_canonical h fun _ _ h' => completeFill_canonical h'))

theorem makeRoom_canonical {lines : List (Nat × Nat × Nat)} (h : Canonical s) : Canonical (makeRoom s core oid lines) := by
  fun_cases makeRoom
  · exact h
  · exact answerMisses_canonical h

theorem joinLanes_canonical {ys : List LaneLoad} (h : Canonical s) : Canonical (joinLanes s id ys) := h

theorem refreshLine_canonical (h : Canonical s) : Canonical (refreshLine s sl key) := by
  fun_cases refreshLine
  · exact setLine_canonical (writeBack_canonical h)
  · exact writeBack_canonical h

theorem cleanLine_canonical (h : Canonical s) : Canonical (cleanLine s k t va) := by
  fun_cases cleanLine
  · exact refreshLine_canonical h
  · exact h

theorem flushPhys_canonical (h : Canonical s) : Canonical (flushPhys s core pa n) :=
  foldl_canonical h fun _ _ h' => eachLine_canonical h' fun _ _ _ h2 => flushLine_canonical h2

theorem flushPieces_canonical {ps : List (Nat × Nat × Nat)} (h : Canonical s) : Canonical (flushPieces s core ps) :=
  foldl_canonical h fun _ _ h' => flushPhys_canonical h'

theorem refreshPhys_canonical (h : Canonical s) : Canonical (refreshPhys s k pa n) :=
  foldl_canonical h fun _ _ h' => eachLine_canonical h' fun _ _ _ h2 => refreshLine_canonical h2

theorem settlePhys_canonical (h : Canonical s) : Canonical (settlePhys s k pa n) :=
  refreshPhys_canonical (bindLoads_canonical (acceptPosts_canonical (fillsNow_canonical h)))

theorem loadLine_canonical {p : Nat × Nat} {lanes : List (Nat × Nat × Nat)} (h : Canonical s) :
    Canonical (loadLine s k t hint size id p lanes) := by
  unfold loadLine
  extract_lets core m s1
  have hs1 : Canonical s1 := settle_canonical h
  split
  · extract_lets s2 s3
    have hs2 : Canonical s2 := ite_canonical (writeBack_canonical hs1) hs1
    have hs3 : Canonical s3 := ite_canonical (hitLine_canonical hs2) hs2
    exact joinLanes_canonical (ite_canonical (bumpCounter_canonical hs3) hs3)
  split
  · exact joinLanes_canonical hs1
  · exact joinLanes_canonical
      (ite_canonical (bumpCounter_canonical (ite_canonical (l2Touch_canonical hs1) hs1)) (requestFill_canonical hs1))

theorem loadWord_canonical {lines lanes : List (Nat × Nat × Nat)} (h : Canonical s) :
    Canonical (loadWord s k t hint size id lines lanes) :=
  foldl_canonical (makeRoom_canonical h) fun _ _ h' => loadLine_canonical h'

theorem finishLoad_canonical (h : Canonical s) : Canonical (finishLoad s id) :=
  mk_canonical (foldl_canonical h fun _ _ h' => completeFill_canonical h')

theorem loadLineAcq_canonical {p : Nat × Nat} (h : Canonical s) : Canonical (loadLineAcq s k t hint p) := by
  fun_cases loadLineAcq
  · exact hitLine_canonical (cleanLine_canonical (settle_canonical h))
  · exact cleanLine_canonical (settle_canonical h)

theorem doLoad_canonical {dst : Opd} {lanes : List (Nat × Nat × Nat)} (h : Canonical s) :
    Canonical (doLoad s k t order scope hint size dst lanes) := by
  fun_cases doLoad
  · exact acquire_canonical (addLoad_canonical (foldl_canonical (ite_canonical (drain_canonical h) h) fun _ _ h' =>
      loadLineAcq_canonical h'))
  · exact finishLoad_canonical (fillsNow_canonical (foldl_canonical (addLoad_canonical (ite_canonical (drain_canonical h) h))
      fun _ _ h' => loadWord_canonical h'))
  · exact foldl_canonical (addLoad_canonical (ite_canonical (drain_canonical h) h)) fun _ _ h' => loadWord_canonical h'

theorem askStore_canonical (h : Canonical s) : Canonical (askStore s k t num acq x bs) := askPeer_canonical h

theorem storeLine_canonical {w : LineWrite} (h : Canonical s) : Canonical (storeLine s k t hint num w) := by
  fun_cases storeLine
  · exact bumpCounter_canonical (storeInto_canonical (ite_canonical (hitLine_canonical (settle_canonical h)) (settle_canonical h)))
  · exact storeInto_canonical (ite_canonical (hitLine_canonical (settle_canonical h)) (settle_canonical h))
  · exact sendLine_canonical (settle_canonical h)
  · exact bumpCounter_canonical (mk_canonical (fresh_canonical (settle_canonical h) ‹_›))
  · exact mk_canonical (fresh_canonical (settle_canonical h) ‹_›)
  · exact requestFill_canonical (settle_canonical h)

theorem storeWord_canonical {ws : List ((Nat × Nat × Nat) × LineWrite)} (h : Canonical s) :
    Canonical (storeWord s k t hint num ws) :=
  foldl_canonical (ite_canonical (makeRoom_canonical h) h) fun _ _ h' => storeLine_canonical h'

theorem storeLineRel_canonical {w : LineWrite} (h : Canonical s) : Canonical (storeLineRel s k t hint w) := by
  refine sendLine_canonical ?_
  split
  · exact setLine_canonical (loadLineAcq_canonical h)
  · exact loadLineAcq_canonical h

theorem doStore_canonical {lanes : List (Nat × Nat × Nat)} {data : Nat → List Byte} (h : Canonical s) :
    Canonical (doStore s k t order scope hint lanes data) := by
  unfold doStore
  split
  next num sa hfresh =>
  extract_lets sb s1 ws s2 s3 s4
  have hsb : Canonical sb := modTeam_canonical (fresh_canonical h hfresh)
  have hs1 : Canonical s1 := ite_canonical (drain_canonical hsb) hsb
  have hs2 : Canonical s2 := ite_canonical (foldl_canonical hs1 fun _ _ h' => storeLineRel_canonical h')
    (foldl_canonical hs1 fun _ _ h' => storeWord_canonical h')
  have hs3 : Canonical s3 := foldl_canonical hs2 fun _ _ h' => askStore_canonical h'
  exact digest_canonical (storeDone_canonical (ite_canonical (acquire_canonical hs3) hs3))

theorem writeLoad_canonical {l : Load} (h : Canonical s) : Canonical (writeLoad s l) := by
  fun_cases writeLoad
  case case2 => exact h
  case case3 => exact foldl_canonical h fun _ _ h' => writeD_canonical h'
  all_goals exact writeD_canonical h

theorem poisonLoad_canonical {l : Load} (h : Canonical s) : Canonical (poisonLoad s l) := by
  fun_cases poisonLoad
  · exact foldl_canonical h fun _ _ h' => pageRecord_canonical h'
  · exact h

theorem returnLoad_canonical (h : Canonical s) : Canonical (returnLoad s id) := by
  fun_cases returnLoad
  case case3 => exact poisonLoad_canonical (writeLoad_canonical (mk_canonical (finishLoad_canonical h)))
  all_goals exact finishLoad_canonical h

/-! ## Machine/Scratch.lean -/

theorem spWrite_canonical (h : Canonical s) : Canonical (spWrite s g core off bs) := by
  fun_cases spWrite
  · exact setGang_canonical h (Memory.wf_setBytes _ _ _ (gang_scratch h ‹_›))
  · exact h

theorem spWriteNat_canonical {v : Nat} (h : Canonical s) : Canonical (spWriteNat s g core off n v) := spWrite_canonical h
theorem spEnd_canonical {off : List Nat} (h : Canonical s) : (spEnd s k off).Canonical := by fun_cases spEnd <;> exact h

theorem spNotice_canonical {offs : List Nat} (h : Canonical s) : Canonical (spNotice s k t order size offs) := by
  fun_cases spNotice
  · exact foldl_canonical h fun _ _ h' => h'
  · exact h

theorem setBarObj_canonical {b : BarObj} (h : Canonical s) : Canonical (setBarObj s g core off b) := spWrite_canonical h
theorem wakeBar_canonical (h : Canonical s) : Canonical (wakeBar s g core off) := h

theorem barCheck_canonical {b : BarObj} (h : Canonical s) : Canonical (barCheck s g core off b) := by
  fun_cases barCheck
  · exact wakeBar_canonical (setBarObj_canonical h)
  · exact setBarObj_canonical h

theorem barArrival_canonical (h : Canonical s) : Canonical (barArrival s g core off bytes) := barCheck_canonical h
theorem barReduce_canonical (h : Canonical s) : Canonical (barReduce s g core off bytes) := barCheck_canonical h

theorem barOffset_canonical {g : Guard} (h : Canonical s) (hgo : go.Canonical) : (barOffset s t g off go).Canonical := by
  fun_cases barOffset
  case case3 => exact hgo
  all_goals exact teamTrap_canonical h

/-! ## Machine/Access.lean -/

theorem memGo_canonical (h : Canonical s) (hgo : go.Canonical) : (memGo s k order go).Canonical := by
  fun_cases memGo
  · exact h
  · exact hgo

theorem withSnare_canonical (h : Canonical s) (hgo : go.Canonical) : (withSnare s k t kind size lanes go).Canonical := by
  fun_cases withSnare
  · exact stopTeam_canonical h
  · exact hgo

theorem checkLoad_canonical (h : Canonical s) : (checkLoad s k t size lanes).Canonical := by
  fun_cases checkLoad
  · exact checkLanes_canonical h
  · exact (checkLanes_canonical h).stop ‹_›
  · exact (checkLanes_canonical h).go ‹_›

theorem execLd_canonical {f : MEM} (h : Canonical s) : OutCanonical (execLd f s) := by
  refine issue_canonical h fun _ _ _ h' => memGo_canonical h' (withSnare_canonical h' ?_)
  split
  · exact (checkLoad_canonical h').stop ‹_›
  split
  · exact (checkLoad_canonical h').go ‹_›
  split
  · exact (checkLoad_canonical h').go ‹_›
  · exact trainSpt_canonical (doLoad_canonical ((checkLoad_canonical h').go ‹_›))

theorem execLdu_canonical {f : MEM} (h : Canonical s) : OutCanonical (execLdu f s) := by
  refine issue_canonical h fun _ _ _ h' => once_canonical h' fun _ _ _ h2 => memGo_canonical h2 (withWide_canonical h2 ?_)
  split
  · exact wideRes_canonical ((checkLoad_canonical h2).stop ‹_›)
  split
  · exact (checkLoad_canonical h2).go ‹_›
  · exact doLoad_canonical ((checkLoad_canonical h2).go ‹_›)

theorem execSt_canonical {f : MEM} (h : Canonical s) : OutCanonical (execSt f s) := by
  refine issue_canonical h fun _ _ _ h' => memGo_canonical h' (withSnare_canonical h' ?_)
  split
  · exact (checkLanes_canonical h').stop ‹_›
  split
  · exact (checkLanes_canonical h').go ‹_›
  split
  · exact (checkLanes_canonical h').go ‹_›
  · exact doStore_canonical ((checkLanes_canonical h').go ‹_›)

theorem spAligned_canonical (h : Canonical s) (hgo : go.Canonical) : (spAligned s size lanes go).Canonical := by
  fun_cases spAligned
  · exact h
  · exact hgo

theorem spRelease_canonical (h : Canonical s) : Canonical (spRelease s k t order) := by
  fun_cases spRelease
  · exact drain_canonical h
  · exact h

theorem spAcquire_canonical (h : Canonical s) : Canonical (spAcquire s k t order scope) := by
  fun_cases spAcquire
  · exact acquire_canonical h
  · exact h

theorem execLdsp_canonical {f : MEM} (h : Canonical s) : OutCanonical (execLdsp f s) := by
  refine issue_canonical h fun _ _ _ h' => ?_
  dsimp only
  split
  · exact h'
  · exact memGo_canonical h'
      (spAligned_canonical h'
      (spEnd_canonical (spAcquire_canonical (ite_canonical (spRelease_canonical h') (addLoad_canonical (spRelease_canonical h'))))))

theorem execStsp_canonical {f : MEM} (h : Canonical s) : OutCanonical (execStsp f s) := by
  refine issue_canonical h fun _ _ _ h' => ?_
  dsimp only
  split
  · exact h'
  · exact memGo_canonical h'
      (spAligned_canonical h'
      (spEnd_canonical (spNotice_canonical (foldl_canonical (spRelease_canonical h') fun _ _ h2 => spWrite_canonical h2))))

theorem atomLane_canonical {s : State} {k : Nat} {t : Team} {op n : Nat} {x : Nat × Nat × Nat} {d c : Nat} {word : W64}
    (h : Canonical s) : Canonical (atomLane s k t op n x d c word).1 := by
  have hs : Canonical (match findLine s (keyCore k) t.oid x.2.1 with | some (sl, key, _) => flushLine s sl key | none => s) := by
    split
    · exact flushLine_canonical h
    · exact h
  fun_cases atomLane
  · exact hs
  · exact ite_canonical (teamHomeWrite_canonical (setD_canonical hs)) hs

theorem atomLanes_canonical {l : List (Nat × Nat × Nat)} (h : Canonical s) : Canonical (atomLanes k t op n word dc l s).1 := by
  fun_induction atomLanes
  · exact h
  case case2 ih =>
    refine ih ?_
    dsimp +zetaDelta only
    split
    · exact ite_canonical h (setD_canonical h)
    · exact atomLane_canonical h

theorem askAtoms_canonical {load : Bool} {l : List (LaneLoad × Bool)} (h : Canonical s) :
    Canonical (askAtoms k t op n num load acq dc l s).1 := by
  fun_induction askAtoms
  · exact h
  case case2 ih => exact ih (askPeer_canonical h)
  case case3 ih => exact ih h

theorem doAtom_canonical {f : ATM} {ls : List (Nat × Nat × Nat)} (h : Canonical s) : Canonical (doAtom s k t f dc ls) := by
  unfold doAtom
  extract_lets n op s2 a s3 lds
  have ha : Canonical a.1 := atomLanes_canonical (settleAll_canonical (ite_canonical (drain_canonical h) h))
  have hs3 : Canonical s3 := ite_canonical (acquire_canonical ha) ha
  split
  next num s4 hfresh =>
  have hs4 : Canonical s4 := fresh_canonical hs3 hfresh
  extract_lets s5 q
  have hs5 : Canonical s5 :=
    ite_canonical (foldl_canonical (modTeam_canonical hs4) fun _ _ h' => holdUncorr_canonical h') (mk_canonical hs4)
  have hq : Canonical q.1 := askAtoms_canonical hs5
  exact digestItems_canonical (ite_canonical (storeDone_canonical hq) hq)

theorem execAtom_canonical {f : ATM} (h : Canonical s) : OutCanonical (execAtom f s) := by
  refine issue_canonical h fun _ _ _ h' => memGo_canonical h' (withSnare_canonical h' ?_)
  split
  · exact (permLanes_canonical h').stop ‹_›
  split
  · exact (permLanes_canonical h').go ‹_›
  · exact doAtom_canonical ((permLanes_canonical h').go ‹_›)

theorem atomspLanes_canonical (h : Canonical s) : Canonical (atomspLanes g core op n dc l s).1 := by
  fun_induction atomspLanes
  · exact h
  case case2 ih => exact ih (ite_canonical (spWriteNat_canonical h) h)

theorem execAtomsp_canonical {f : ATM} (h : Canonical s) : OutCanonical (execAtomsp f s) := by
  refine issue_canonical h fun _ _ _ h' => ?_
  dsimp only
  split
  · exact h'
  · exact memGo_canonical h'
      (spAligned_canonical h'
      (spEnd_canonical (spNotice_canonical (ite_canonical (spAcquire_canonical (atomspLanes_canonical (spRelease_canonical h')))
      (addLoad_canonical (spAcquire_canonical (atomspLanes_canonical (spRelease_canonical h'))))))))

theorem execFence_canonical {f : MEM} (h : Canonical s) : OutCanonical (execFence f s) := by
  refine issue_canonical h fun _ _ _ h' => once_canonical h' fun _ _ _ h2 => ?_
  split
  · exact h2
  · exact fenceWith_canonical h2 fun _ h3 => h3

theorem execMsync_canonical (h : Canonical s) : OutCanonical (execMsync f s) := by
  refine issue_canonical h fun _ _ _ h' => ?_
  dsimp only
  split
  · split
    · exact h'
    split
    · exact h'
    · exact fenceWith_canonical h' fun _ h2 => h2
  · exact h'

theorem clearWait_canonical (h : Canonical s) : Canonical (clearWait s k) := h
theorem waitWith_canonical {kind : WKind} {rec : BitVec 256} (h : Canonical s) : (waitWith s k kind rec).Canonical := h

theorem execWaitaddr_canonical {f : ATM} (h : Canonical s) : OutCanonical (execWaitaddr f s) := by
  refine issue_canonical h fun _ _ _ h' => once_canonical h' fun k t s h2 => ?_
  extract_lets n va acq
  split
  · exact h2
  refine withWide_canonical h2 ?_
  split
  · exact (checkWide_canonical h2).stop ‹_›
  next s1 ls hcheck =>
  have hs1 : Canonical s1 := (checkWide_canonical h2).go hcheck
  split
  · exact hs1
  split
  · exact wideRes_canonical (failXlat_canonical hs1)
  extract_lets s2 b
  have hs2 : Canonical s2 := cleanLine_canonical (settle_canonical hs1)
  split
  · exact pageRecord_canonical hs2
  split
  · exact writeS_canonical (clearWait_canonical (ite_canonical (acquire_canonical hs2) hs2))
  split
  · exact writeS_canonical (clearWait_canonical (ite_canonical (acquire_canonical hs2) hs2))
  · exact waitWith_canonical hs2

theorem execPfh_canonical {f : MEM} (h : Canonical s) : OutCanonical (execPfh f s) := by
  refine issue_canonical h fun _ _ _ h' => foldl_canonical h' fun _ _ h2 => ?_
  split
  · exact ite_canonical (hitLine_canonical h2) h2
  · exact ite_canonical h2 (prefetch_canonical h2)

theorem execDirtyLineTimeout_canonical (h : Canonical s) : OutCanonical (execDirtyLineTimeout core line s) := by
  unfold execDirtyLineTimeout
  split
  · exact ite_canonical (setLine_canonical h) h
  · exact h

theorem execWriteBackAccepted_canonical (h : Canonical s) : OutCanonical (execWriteBackAccepted core line s) := by
  unfold execWriteBackAccepted
  split
  · exact ite_canonical (writeBack_canonical h) h
  · exact h

/-! ## Machine/Barrier.lean -/

theorem barForm_canonical {body : Nat → Team → State → Nat → Res} (h : Canonical s)
    (hbody : ∀ a b s c, Canonical s → (body a b s c).Canonical) : OutCanonical (barForm i f body s) :=
  issue_canonical h fun _ _ _ h' => once_canonical h' fun _ _ _ h2 => barOffset_canonical h2 (hbody _ _ _ _ h2)

theorem execBarInit_canonical (h : Canonical s) : OutCanonical (execBarInit f s) :=
  barForm_canonical h fun _ _ _ _ h' => setBarObj_canonical h'

theorem execBarExpect_canonical (h : Canonical s) : OutCanonical (execBarExpect f s) :=
  barForm_canonical h fun _ _ _ _ h' => setBarObj_canonical h'

theorem execBarArrive_canonical (h : Canonical s) : OutCanonical (execBarArrive f s) := by
  refine barForm_canonical h fun _ _ _ _ h' => ?_
  split
  · exact h'
  · exact fenceWith_canonical h' fun _ h2 => writeS_canonical (barArrival_canonical h2)

theorem waitDone_canonical {d : Opd} (h : Canonical s) : (waitDone s k t scope d status).Canonical :=
  writeS_canonical (clearWait_canonical (acquire_canonical h))

theorem waitOver_canonical {d : Opd} (h : Canonical s) : (waitOver s k d status).Canonical :=
  writeS_canonical (clearWait_canonical h)

theorem execBarWait_canonical (h : Canonical s) : OutCanonical (execBarWait f s) := by
  refine barForm_canonical h fun _ _ _ _ h' => ?_
  dsimp only
  split
  · exact h'
  split
  · exact waitDone_canonical h'
  split
  · exact waitOver_canonical h'
  split
  · exact waitDone_canonical h'
  split
  · split
    · exact waitOver_canonical h'
    · exact waitWith_canonical h'
  split
  · exact waitOver_canonical h'
  · exact waitWith_canonical h'

theorem execBarTest_canonical (h : Canonical s) : OutCanonical (execBarTest f s) := by
  refine barForm_canonical h fun _ _ _ _ h' => ?_
  dsimp only
  split
  · exact h'
  split
  · exact waitDone_canonical h'
  · exact waitOver_canonical h'

theorem execBarWaitTimeout_canonical (h : Canonical s) : OutCanonical (execBarWaitTimeout core slot s) := by
  unfold execBarWaitTimeout
  dsimp only
  split
  · exact h
  · exact ite_canonical h h

theorem setHBar_canonical (h : Canonical s) : Canonical (setHBar s cl n b) := h
theorem freeHBar_canonical (h : Canonical s) : Canonical (freeHBar s cl n) := h
theorem hbarWake_canonical (h : Canonical s) : Canonical (hbarWake s cl n b) := h

theorem hbarArrival_canonical (h : Canonical s) : Canonical (hbarArrival s cl n b j).1 := by
  fun_cases hbarArrival
  · exact h
  · exact setHBar_canonical h
  · exact hbarWake_canonical (setHBar_canonical h)

theorem hbarResume_canonical {d : Opd} (h : Canonical s) : (hbarResume s k t d).Canonical := by
  fun_cases hbarResume
  · exact waitDone_canonical h
  · exact waitOver_canonical h

theorem hbarForm_canonical {body : Nat → Team → State → HBar → Nat → Nat → Res} (h : Canonical s)
    (hbody : ∀ a b s c d e, Canonical s → (body a b s c d e).Canonical) : OutCanonical (hbarForm i f body s) := by
  refine issue_canonical h fun _ _ _ h' => once_canonical h' fun _ _ _ h2 => ?_
  dsimp only
  split
  · exact h2
  split
  · exact hbarResume_canonical h2
  split
  · split
    · exact hbarResume_canonical h2
    · exact waitWith_canonical h2
  split
  · exact writeS_canonical h2
  · exact hbody _ _ _ _ _ _ h2

theorem hbarWait_canonical {phase : Bool} {d : Opd} (h : Canonical s) : (hbarWait s k n phase d).Canonical := waitWith_canonical h

theorem execHbarSync_canonical (h : Canonical s) : OutCanonical (execHbarSync f s) := by
  refine hbarForm_canonical h fun _ _ _ _ _ _ h' => fenceWith_canonical h' fun _ h2 => ?_
  dsimp only
  split
  · exact writeS_canonical (acquire_canonical (hbarArrival_canonical h2))
  · exact hbarWait_canonical (hbarArrival_canonical h2)

theorem execHbarArrive_canonical (h : Canonical s) : OutCanonical (execHbarArrive f s) := by
  refine hbarForm_canonical h fun _ _ _ _ _ _ h' => ?_
  dsimp only
  split
  · exact writeS_canonical h'
  · exact fenceWith_canonical h' fun _ h2 => writeS_canonical (hbarArrival_canonical h2)

theorem execHbarWait_canonical (h : Canonical s) : OutCanonical (execHbarWait f s) := by
  refine hbarForm_canonical h fun _ _ _ _ _ _ h' => ?_
  dsimp only
  split
  · exact waitDone_canonical h'
  · exact hbarWait_canonical h'

theorem execHbarCnt_canonical (h : Canonical s) : OutCanonical (execHbarCnt f s) := by
  refine issue_canonical h fun _ _ _ h' => once_canonical h' fun _ _ _ h2 => ?_
  dsimp only
  split
  · exact writeS_canonical h2
  split
  · exact writeS_canonical (setHBar_canonical h2)
  split
  · exact writeS_canonical h2
  split
  · exact writeS_canonical h2
  · exact writeS_canonical (setHBar_canonical h2)

theorem execHbarCntFree_canonical (h : Canonical s) : OutCanonical (execHbarCntFree f s) := by
  refine issue_canonical h fun _ _ _ h' => once_canonical h' fun _ _ _ h2 => ?_
  dsimp only
  split
  · split
    · exact writeS_canonical (freeHBar_canonical h2)
    · exact writeS_canonical h2
  · exact writeS_canonical h2

/-! ## Machine/Ring.lean -/

theorem fillCheck_canonical {g : Guard} {f : Nat} {go : FillRing → Res} (h : Canonical s) (hgo : ∀ a, (go a).Canonical) :
    (fillCheck s k t g f go).Canonical := by
  fun_cases fillCheck
  case case2 => exact hgo _
  all_goals exact teamTrap_canonical h

theorem execRngAwait_canonical (h : Canonical s) : OutCanonical (execRngAwait f s) := by
  refine issue_canonical h fun _ _ _ h' => once_canonical h' fun _ _ _ h2 => fillCheck_canonical h2 fun _ => ?_
  dsimp only
  split
  · exact h2
  split
  · exact writeS_canonical (clearWait_canonical (acquire_canonical h2))
  split
  · exact writeS_canonical (clearWait_canonical h2)
  · exact waitWith_canonical h2

theorem execRngRelease_canonical (h : Canonical s) : OutCanonical (execRngRelease f s) := by
  refine issue_canonical h fun _ _ _ h' => once_canonical h' fun _ _ _ h2 => fillCheck_canonical h2 fun _ => ?_
  dsimp only
  split
  · exact h2
  split
  · exact fenceWith_canonical h2 fun _ h3 => writeS_canonical (spWriteNat_canonical h3)
  · exact writeS_canonical h2

theorem execSeqwait_canonical (h : Canonical s) : OutCanonical (execSeqwait f s) := by
  refine issue_canonical h fun _ _ _ h' => once_canonical h' fun _ _ _ h2 => ?_
  dsimp only
  split
  · exact h2
  split
  · exact writeS_canonical (clearWait_canonical h2)
  split
  · exact waitDone_canonical h2
  split
  · exact waitOver_canonical h2
  · exact waitWith_canonical h2

theorem haloArrive_canonical {hd : HaloDesc} {obj : Option Nat} (h : Canonical s) : (haloArrive s k t f n b hd obj).Canonical :=
  fenceWith_canonical h fun _ h' => writeS_canonical (hbarArrival_canonical h')

theorem execHalo_canonical (h : Canonical s) : OutCanonical (execHalo f s) := by
  refine issue_canonical h fun _ _ _ h' => once_canonical h' fun _ _ _ h2 => ?_
  dsimp only
  split
  · refine barOffset_canonical h2 ?_
    split
    · exact h2
    split
    · exact writeS_canonical h2
    split
    · exact writeS_canonical h2
    split
    · exact writeS_canonical h2
    · exact haloArrive_canonical h2
  refine barOffset_canonical h2 (barOffset_canonical h2 ?_)
  split
  · exact h2
  split
  · exact writeS_canonical h2
  split
  · exact writeS_canonical h2
  split
  · exact writeS_canonical h2
  · exact haloArrive_canonical h2

theorem execHaloCopy_canonical {halo : Nat} (h : Canonical s) : OutCanonical (execHaloCopy halo s) := by
  unfold execHaloCopy
  split
  · exact h
  split
  · exact h
  dsimp only
  split
  · exact barReduce_canonical (mk_canonical (foldl_canonical h fun _ _ h' => spWrite_canonical h'))
  · exact mk_canonical (foldl_canonical h fun _ _ h' => spWrite_canonical h')

theorem setRingStatus_canonical {ix : Nat} (h : Canonical s) : Canonical (setRingStatus s g core hd status ix) :=
  spWriteNat_canonical (spWriteNat_canonical h)

theorem setRing_canonical {r : Ring} (h : Canonical s) : Canonical (setRing s r) := by fun_cases setRing <;> exact h

theorem stopRing_canonical {ix : Nat} (h : Canonical s) : Canonical (stopRing s g core hd status ix) :=
  mk_canonical (setRingStatus_canonical h)

theorem readEntries_canonical {nt : Notice} {alloc i : Nat} (h : Canonical s) : Canonical (readEntries nt size alloc n i s) := by
  fun_induction readEntries
  · exact h
  case case2 ih => exact ih (setRing_canonical (mk_canonical (fresh_canonical h ‹_›)))
  · exact stopRing_canonical h

theorem raiseDone_canonical (h : Canonical s) : Canonical (raiseDone g core hd n s) := by
  fun_induction raiseDone
  case case2 ih => exact ih (spWriteNat_canonical h)
  all_goals exact h

theorem raiseWr_canonical {f : Nat} (h : Canonical s) : Canonical (raiseWr g core f n s) := by
  fun_induction raiseWr
  case case2 ih => exact ih (spWriteNat_canonical h)
  all_goals exact h

theorem finishEntry_canonical (h : Canonical s) : Canonical (finishEntry s id) := by
  fun_cases finishEntry
  · exact h
  · refine mk_canonical (raiseDone_canonical ?_)
    dsimp +zetaDelta only
    split
    · exact raiseWr_canonical h
    · exact h

theorem execRingNotify_canonical {notice : Nat} (h : Canonical s) : OutCanonical (execRingNotify notice s) := by
  unfold execRingNotify
  split
  · exact h
  · exact ite_canonical h
      (ite_canonical h
      (ite_canonical (stopRing_canonical h)
      (ite_canonical (stopRing_canonical h) (ite_canonical h (raiseDone_canonical (readEntries_canonical (setRing_canonical h)))))))

theorem dropUnread_canonical (h : Canonical s) : Canonical (dropUnread s g core hd) := h

theorem faultEntry_canonical {e : RingEntry} (h : Canonical s) : Canonical (faultEntry s id e reason va acc leaf) := by
  fun_cases faultEntry
  · exact dropUnread_canonical (engineRecord_canonical (stopRing_canonical h))
  · exact engineRecord_canonical (setTeam_canonical (stopRing_canonical h))
  · exact setTeam_canonical (stopRing_canonical h)

theorem copySource_canonical {e : RingEntry} {c : RingCmd} (h : Canonical s) : Canonical (copySource s e c oid).1 := by
  fun_cases copySource
  case case1 => exact h
  all_goals exact engineSpan_canonical h

theorem reduceFor_canonical {e : RingEntry} {c : RingCmd} (h : Canonical s) : Canonical (reduceFor s e c) := by
  fun_cases reduceFor
  · exact h
  · exact barReduce_canonical h

theorem runCopy_canonical {e : RingEntry} (h : Canonical s) : Canonical (runCopy s id e oid) := by
  fun_cases runCopy
  · exact faultEntry_canonical (copySource_canonical h)
  · exact copySource_canonical h
  · exact finishEntry_canonical (reduceFor_canonical (spWrite_canonical (copySource_canonical h)))
  · exact faultEntry_canonical (spanWrite_canonical (flushPieces_canonical (engineSpan_canonical (copySource_canonical h))))
  · exact finishEntry_canonical
      (reduceFor_canonical (spanWrite_canonical (flushPieces_canonical (engineSpan_canonical (copySource_canonical h)))))
  · exact faultEntry_canonical (engineSpan_canonical (copySource_canonical h))
  · exact engineSpan_canonical (copySource_canonical h)

theorem execRingCopy_canonical (h : Canonical s) : OutCanonical (execRingCopy entry s) := by
  unfold execRingCopy
  split
  · exact h
  · exact ite_canonical h (ite_canonical (runCopy_canonical h) (ite_canonical h h))

theorem execRingSignal_canonical (h : Canonical s) : OutCanonical (execRingSignal entry s) := by
  unfold execRingSignal
  split
  · exact h
  dsimp only
  split
  · exact h
  split
  · exact ite_canonical (faultEntry_canonical (spanWrite_canonical (flushPieces_canonical (engineSpan_canonical h))))
      (finishEntry_canonical (spanWrite_canonical (flushPieces_canonical (engineSpan_canonical h))))
  · exact faultEntry_canonical (engineSpan_canonical h)
  · exact engineSpan_canonical h

theorem execFillRingSlotFill_canonical (h : Canonical s) : OutCanonical (execFillRingSlotFill entry s) := by
  unfold execFillRingSlotFill
  split
  · exact h
  · exact ite_canonical h
      (ite_canonical (runCopy_canonical h) (ite_canonical (ite_canonical (stopRing_canonical h) (ite_canonical h h)) h))

/-! ## Machine/Slot.lean -/

theorem slotTrap_canonical {g : Guard} {w : W64} (h : Canonical s) : (slotTrap s t g w).Canonical := teamTrap_canonical h
theorem setSlot_canonical {sl : Slot} (h : Canonical s) : Canonical (setSlot s core u sl) := setCore_canonical h (core_opmem h _)
theorem freeSlot_canonical (h : Canonical s) : Canonical (freeSlot s core u) := setCore_canonical h (core_opmem h _)

theorem slotDone_canonical {writer store : Bool} {after : SState} (h : Canonical s) :
    Canonical (slotDone s core u writer store after) := by
  fun_cases slotDone
  case case1 => exact h
  case case3 => exact freeSlot_canonical h
  all_goals exact setSlot_canonical h

theorem withSlot_canonical {role : SRole} {go : Nat → Slot → Res} (h : Canonical s) (hgo : ∀ a b, (go a b).Canonical) :
    (withSlot s k t f role go).Canonical := by
  fun_cases withSlot
  · exact slotTrap_canonical h
  · exact h
  · exact hgo _ _

theorem execSlotClaim_canonical (h : Canonical s) : OutCanonical (execSlotClaim f s) := by
  refine issue_canonical h fun _ _ _ h' => once_canonical h' fun _ _ _ h2 => ?_
  dsimp only
  split
  · exact writeS_canonical (setSlot_canonical h2)
  split
  · exact slotTrap_canonical h2
  · exact writeS_canonical h2

theorem execSlotRelease_canonical (h : Canonical s) : OutCanonical (execSlotRelease f s) :=
  issue_canonical h fun _ _ _ h' => once_canonical h' fun _ _ _ h2 => withSlot_canonical h2 fun _ _ => ite_canonical
    (setSlot_canonical h2) (freeSlot_canonical h2)

theorem slotOffsets_canonical {sl : Slot} {offs : List (Nat × Nat)} (h : Canonical s) (hgo : go.Canonical) :
    (slotOffsets s f sl offs go).Canonical := by
  fun_cases slotOffsets
  · exact h
  · exact hgo

theorem opWrite_canonical {i : Nat} (h : Canonical s) : Canonical (opWrite s core u i bs) :=
  setCore_canonical h (Memory.wf_setBytes _ _ _ (core_opmem h _))

theorem execSlotRd_canonical (h : Canonical s) : OutCanonical (execSlotRd f s) := by
  refine issue_canonical h fun _ _ _ h' => ?_
  dsimp only
  split
  · exact h'
  · exact withSlot_canonical h' fun _ _ => slotOffsets_canonical h' (writeD_canonical h')

theorem execSlotWr_canonical (h : Canonical s) : OutCanonical (execSlotWr f s) := by
  refine issue_canonical h fun _ _ _ h' => ?_
  dsimp only
  split
  · exact h'
  · exact withSlot_canonical h' fun _ _ => slotOffsets_canonical h' (foldl_canonical h' fun _ _ h2 => opWrite_canonical h2)

theorem transferCheck_canonical {g : Guard} {vas : List Nat} {go : State → Table Nat → Res} (h : Canonical s)
    (hgo : ∀ s a, Canonical s → (go s a).Canonical) : (transferCheck s k t g acc vas go).Canonical := by
  fun_cases transferCheck
  · exact (checkWide_canonical h).stop ‹_›
  · exact wideRes_canonical (failXlat_canonical ((checkWide_canonical h).go ‹_›))
  · exact hgo _ _ ((checkWide_canonical h).go ‹_›)

theorem barMaybe_canonical {g : Guard} {o : Opd} {go : Option Nat → Res} (h : Canonical s) (hgo : ∀ a, (go a).Canonical) :
    (barMaybe s k t g o go).Canonical := by
  fun_cases barMaybe
  · exact hgo _
  · exact barOffset_canonical h (hgo _)

theorem startSlotOp_canonical {op : SlotOp} {sl : Slot} (h : Canonical s) : Canonical (startSlotOp s k t op sl) :=
  modTeam_canonical (setSlot_canonical h)

theorem execSlotZero_canonical (h : Canonical s) : OutCanonical (execSlotZero f s) :=
  issue_canonical h fun _ _ _ h' => once_canonical h' fun _ _ _ h2 => withSlot_canonical h2 fun _ _ => barMaybe_canonical h2
    fun _ => startSlotOp_canonical h2

theorem slotTransfer_canonical {store : Bool} (h : Canonical s) : (slotTransfer s k t f store).Canonical := by
  refine withWide_canonical h (withSlot_canonical h fun _ _ => barMaybe_canonical h fun _ => ?_)
  split
  · exact teamTrap_canonical h
  split
  · exact h
  · exact transferCheck_canonical h fun _ _ h' => startSlotOp_canonical (drain_canonical h')

theorem execSlotLoad_canonical (h : Canonical s) : OutCanonical (execSlotLoad f s) :=
  issue_canonical h fun _ _ _ h' => once_canonical h' fun _ _ _ h2 => slotTransfer_canonical h2

theorem execSlotStore_canonical (h : Canonical s) : OutCanonical (execSlotStore f s) :=
  issue_canonical h fun _ _ _ h' => once_canonical h' fun _ _ _ h2 => slotTransfer_canonical h2

theorem matrixDone_canonical {exc : Exc} (h : Canonical s) : Canonical (matrixDone s k exc word) := h

theorem fillSlot'_canonical {o : SlotOp} (h : Canonical s) : Canonical (fillSlot' s o) := by
  fun_cases fillSlot'
  · exact setCore_canonical h (Memory.wf_zero _ _ _ (core_opmem h _))
  · exact holdUncorr_canonical h
  · exact opWrite_canonical h

theorem execSlotFillComplete_canonical {unit : Nat} (h : Canonical s) : OutCanonical (execSlotFillComplete core unit s) := by
  unfold execSlotFillComplete
  split
  · exact h
  split
  · exact h
  refine matrixDone_canonical ?_
  split
  · exact barReduce_canonical (slotDone_canonical (fillSlot'_canonical h))
  · exact slotDone_canonical (fillSlot'_canonical h)

theorem writeRow_canonical {o : SlotOp} {r : Nat} (h : Canonical s) : Canonical (writeRow o s r bs) :=
  foldl_fst_canonical h fun _ _ h' => teamHomeWrite_canonical (flushPhys_canonical h')

theorem execSlotStoreComplete_canonical {unit : Nat} (h : Canonical s) : OutCanonical (execSlotStoreComplete core unit s) := by
  unfold execSlotStoreComplete
  split
  · exact h
  split
  · exact h
  refine matrixDone_canonical ?_
  split
  · exact barReduce_canonical (slotDone_canonical (foldl_canonical h fun _ _ h' => writeRow_canonical h'))
  · exact slotDone_canonical (foldl_canonical h fun _ _ h' => writeRow_canonical h')

theorem scaleCheck_canonical {g : Guard} {fb : List Byte} (h : Canonical s) (hgo : go.Canonical) :
    (scaleCheck s t g fb go).Canonical := by
  fun_cases scaleCheck
  case case3 => exact hgo
  all_goals exact teamTrap_canonical h

theorem mmUse_canonical {writer : Bool} (h : Canonical s) : Canonical (mmUse s core u writer) := by
  fun_cases mmUse
  · exact h
  · exact setSlot_canonical h

theorem execMma_canonical {f : MX} (h : Canonical s) : OutCanonical (execMma f s) := by
  refine issue_canonical h fun _ _ _ h' => once_canonical h' fun _ _ _ h2 => ?_
  dsimp only
  split
  · exact slotTrap_canonical h2
  split
  · exact slotTrap_canonical h2
  refine scaleCheck_canonical h2 (barMaybe_canonical h2 fun _ => ?_)
  split
  · exact h2
  · exact modTeam_canonical (setCore_canonical (mmUse_canonical (mmUse_canonical (mmUse_canonical h2)))
      (core_opmem (mmUse_canonical (mmUse_canonical (mmUse_canonical h2))) _))

theorem mmaPass_canonical {s : State} {core : Nat} {e : MmaEntry} (h : Canonical s) : Canonical (mmaPass s core e).1 := by
  unfold mmaPass
  split
  · exact h
  · exact foldl_fst_canonical h fun _ _ h' => opWrite_canonical h'

theorem execMatrixPassStart_canonical (h : Canonical s) : OutCanonical (execMatrixPassStart s) := by
  unfold execMatrixPassStart
  dsimp only
  split
  · exact h
  split
  · split <;> exact setCore_canonical h (core_opmem h _)
  · exact h

theorem finishMma_canonical {e : MmaEntry} (h : Canonical s) : Canonical (finishMma core s e) := by
  refine matrixDone_canonical (bumpCounter_canonical ?_)
  split
  · exact barArrival_canonical (slotDone_canonical (slotDone_canonical (slotDone_canonical (mmaPass_canonical h))))
  · exact slotDone_canonical (slotDone_canonical (slotDone_canonical (mmaPass_canonical h)))

theorem execMatrixPassComplete_canonical (h : Canonical s) : OutCanonical (execMatrixPassComplete s) :=
  ite_canonical h (foldl_canonical (setCore_canonical h (core_opmem h _)) fun _ _ h' => finishMma_canonical h')

/-! ## Machine/Page.lean -/

theorem poolRecord_canonical {x : Nat} (h : Canonical s) : Canonical (poolRecord s p w reason x) := pageRecord_canonical h

theorem poolPop_canonical (h : Canonical s) : Canonical (poolPop s p off w).1 := by
  fun_cases poolPop
  case case2 => exact poolRecord_canonical h
  case case5 => exact poolRecord_canonical h
  case case6 => exact homePutNat_canonical h
  all_goals exact h

theorem poolPush_canonical {x : Nat} (h : Canonical s) : Canonical (poolPush s p off w x) := by
  fun_cases poolPush
  case case5 => exact homePutNat_canonical (homePutNat_canonical h)
  all_goals exact poolRecord_canonical h

theorem pushBack_canonical {fs : List (Nat × Nat)} (h : Canonical s) : Canonical (pushBack s p w fs) :=
  foldl_canonical h fun _ _ h' => poolPush_canonical h'

theorem popFrames_canonical {l : List Nat} {r : List (Nat × Nat)} (h : Canonical s) : Canonical (popFrames p w l r s).1 := by
  fun_induction popFrames
  · exact h
  · exact pushBack_canonical (poolPop_canonical h)
  case case3 ih => exact ih (poolPop_canonical h)
  · exact pushBack_canonical (poolRecord_canonical (poolPop_canonical h))

theorem chargeUsed_canonical (h : Canonical s) : Canonical (chargeUsed s p n) := h
theorem refundUsed_canonical (h : Canonical s) : Canonical (refundUsed s p n) := h

theorem allocFrames_canonical {tiers : List Nat} (h : Canonical s) : Canonical (allocFrames s p w tiers).1 := by
  fun_cases allocFrames
  case case1 => exact h
  case case2 => exact poolRecord_canonical h
  case case3 => exact h
  case case4 =>
    refine chargeUsed_canonical (foldl_canonical (popFrames_canonical h) fun _ _ h' => ?_)
    split
    · exact homeZero_canonical h'
    · exact h'
  all_goals exact popFrames_canonical h

theorem touchD_canonical (h : Canonical s) : Canonical (touchD s cl oid va) := by
  fun_cases touchD
  case case1 => exact setD_canonical h
  case case3 => exact homePutNat_canonical h
  all_goals exact h

theorem stWrite_canonical (h : Canonical s) : Canonical (stWrite s k t pg va bs) := by
  refine foldl_canonical h fun _ _ h' => ?_
  split
  · exact refreshPhys_canonical (homePut_canonical (settlePhys_canonical (touchD_canonical h')))
  · exact h'

theorem stPut_canonical {v : Nat} (h : Canonical s) : Canonical (stPut s k t pg va n v) := stWrite_canonical h

theorem freeEdit_canonical (h : Canonical s) : Canonical (freeEdit s k t) := by
  fun_cases freeEdit
  · exact h
  · exact modTeam_canonical (stPut_canonical h)

theorem leavePhys_canonical (h : Canonical s) : Canonical (leavePhys s k pa n) := flushPhys_canonical (settlePhys_canonical h)

theorem casEntry_canonical {old new : W64} (h : Canonical s) : Canonical (casEntry s k pa old new).1 :=
  homeCas_canonical (leavePhys_canonical h)

theorem copyRange_canonical {src dst : Nat} (h : Canonical s) : Canonical (copyRange s src dst n) :=
  foldl_canonical (homeZero_canonical h) fun _ _ h' => rawWrite_canonical h'

theorem wakeLeaf_canonical (h : Canonical s) : Canonical (wakeLeaf s leafPa) := h

theorem pageInFail_canonical {x : PageIn} (h : Canonical s) : Canonical (pageInFail s x reason extra) := by
  fun_cases pageInFail
  · exact mk_canonical (dropPageFails_canonical (pageRecord_canonical h))
  · exact pageRecord_canonical h
  · exact filteredRecord_canonical h
  · exact hostWait_canonical (freeEdit_canonical (filteredRecord_canonical h))

theorem pageInTry_canonical {x : PageIn} (h : Canonical s) : Canonical (pageInTry s x).1 := by
  fun_cases pageInTry
  case case3 => exact poolPop_canonical h
  case case4 => exact poolPop_canonical h
  case case5 => exact poolPush_canonical (poolPop_canonical h)
  case case6 => exact pageRecord_canonical (chargeUsed_canonical (homeCas_canonical (copyRange_canonical (poolPop_canonical h))))
  case case7 => exact poolPush_canonical (homeCas_canonical (copyRange_canonical (poolPop_canonical h)))
  all_goals exact h

theorem pageInRun_canonical {x : PageIn} (h : Canonical s) : Canonical (pageInRun s x) := by
  have hr : Canonical (pageInTry s x).1 := pageInTry_canonical h
  rw [pageInRun]
  rcases hx : pageInTry s x with ⟨s1, _ | ⟨reason, extra⟩⟩
  · exact fst_canonical hr hx
  · exact pageInFail_canonical (homeCas_canonical (fst_canonical hr hx))

theorem pageInEnd_canonical {page : Nat} (h : Canonical s) : Canonical (pageInEnd page s) := by
  fun_cases pageInEnd
  · exact h
  · exact wakeLeaf_canonical (pageInRun_canonical h)

theorem leafChange_canonical (h : Canonical s) : Canonical (leafChange line s) := h

theorem execTlbWalk_canonical {cluster : Nat} {va : BitVec 80} {access : Nat} (h : Canonical s) :
    OutCanonical (execTlbWalk cluster oid va access s) := by
  unfold execTlbWalk
  split
  · exact h
  dsimp only
  split
  · exact wantPageIn_canonical (xlat_canonical h)
  · exact xlat_canonical h

theorem deliverWait_canonical {f : Frame} (h : Canonical s) : Canonical (deliverWait s k t f) := by
  fun_cases deliverWait
  · exact h
  · exact deliver_canonical h

theorem hostFails_canonical (h : Canonical s) : Canonical (hostFails s k t) := deliverWait_canonical h
theorem hostWakes_canonical {p : Team → Bool} (h : Canonical s) : Canonical (hostWakes s p) := h

theorem fbFail_canonical (h : Canonical s) : Canonical (fbFail s part oid) :=
  foldl_canonical (foldl_canonical (hostWakes_canonical h) fun _ _ h' => giveUpPeer_canonical h') fun _ _ h' =>
    hostFails_canonical h'

theorem loadAnswer_canonical {l : Nat} {bad : Bool} (h : Canonical s) : Canonical (loadAnswer s l lane bs bad) := h

theorem homeRequest_canonical (h : Canonical s) : Canonical (homeRequest s id k t r pa) := by
  unfold homeRequest
  extract_lets s1 b n x s2 s3
  have hx : Canonical x.1 := atomLane_canonical (s := s1) h
  have hanswer : ∀ items, Canonical
      (digestAnswer (if x.2.1.bad && r.load.isNone then holdUncorr x.1 k r.va (reqAcc r) r.word else x.1) k id items) := fun _ =>
    digestAnswer_canonical (ite_canonical (holdUncorr_canonical hx) hx)
  have hs2 : Canonical s2 := ite_canonical h (ite_canonical (teamHomeWrite_canonical (s := s1) h) (hanswer _))
  have hs3 : Canonical s3 := by
    unfold s3
    split
    · exact loadAnswer_canonical hs2
    · exact storeDone_canonical hs2
  split
  · exact acquire_canonical hs3
  · exact hs3

theorem reask_canonical {old new : Nat} (h : Canonical s) : Canonical (reask s k old new) := h

theorem retryPeer_canonical (h : Canonical s) : Canonical (retryPeer s id r) := by
  fun_cases retryPeer
  · exact h
  · exact dropPeer_canonical h
  · exact sendPeer_canonical (reask_canonical (mk_canonical (xlat_canonical h)))
  · exact homeRequest_canonical (xlat_canonical h)
  · exact refusePeer_canonical (xlat_canonical h)

theorem fbFlush_canonical (h : Canonical s) : Canonical (fbFlush s part) :=
  foldl_canonical (hostWakes_canonical h) fun _ _ h' => retryPeer_canonical h'

theorem entryPut_canonical {core : Option Nat} {v : Nat} (h : Canonical s) : Canonical (entryPut s core q v) := by
  refine homePutNat_canonical ?_
  split
  · exact flushPhys_canonical h
  · exact h

theorem installTables_canonical {core : Option Nat} {leaf : Nat → W64} {l : List Nat} {i : Nat} (h : Canonical s) :
    Canonical (installTables core p va leaf l n i s) := by
  fun_induction installTables
  case case2 ih => exact ih (entryPut_canonical h)
  all_goals exact entryPut_canonical h

theorem pgMapRun_canonical {wr x : Bool} {tier : Nat} (h : Canonical s) : Canonical (pgMapRun s w va wr x tier).1 := by
  fun_cases pgMapRun
  case case6 => exact allocFrames_canonical h
  case case7 => exact allocFrames_canonical h
  case case8 => exact allocFrames_canonical h
  case case9 => exact installTables_canonical (allocFrames_canonical h)
  all_goals exact h

theorem lateIllegal_canonical (h : Canonical s) : (lateIllegal s t).Canonical := h

theorem execPgMap_canonical {f : SYS} (h : Canonical s) : OutCanonical (execPgMap f s) := by
  refine issue_canonical h fun _ _ _ h' => once_canonical h' fun _ _ _ h2 => ?_
  split
  · exact lateIllegal_canonical h2
  split
  · exact h2
  refine fenceWith_canonical h2 fun _ h3 => ?_
  dsimp only
  split
  · exact teamTrap_canonical (pageRecord_canonical (pgMapRun_canonical h3))
  · split
    · exact teamTrap_canonical (pgMapRun_canonical h3)
    · exact writeS_canonical (pgMapRun_canonical h3)
  · split
    · exact teamTrap_canonical (pgMapRun_canonical h3)
    · exact writeS_canonical (pgMapRun_canonical h3)
  · exact writeS_canonical (pgMapRun_canonical h3)

theorem freeLeaves_canonical {s : State} {core : Option Nat} {oid : Nat} {vas : List Nat} (h : Canonical s) :
    Canonical (freeLeaves s core oid vas).1 := by
  fun_induction freeLeaves
  · exact h
  case case2 ih =>
    refine ih ?_
    dsimp +zetaDelta only
    split
    · split
      · exact entryPut_canonical h
      · exact h
    · exact h

theorem performRange_canonical (h : Canonical s) : Canonical (performRange s oid lo n) :=
  bindLoads_canonical (acceptPosts_canonical (foldl_canonical h fun _ _ h' => completeFill_canonical h'))

theorem shootRange_canonical (h : Canonical s) : Canonical (shootRange s oid lo n) :=
  foldl_canonical h fun _ _ h' => eachLine_canonical h' fun _ _ _ h2 => flushLine_canonical h2

theorem execPgInv_canonical {f : SYS} (h : Canonical s) : OutCanonical (execPgInv f s) := by
  refine issue_canonical h fun _ _ _ h' => once_canonical h' fun _ _ _ h2 => ?_
  dsimp only
  split
  · exact lateIllegal_canonical h2
  split
  · exact writeS_canonical h2
  split
  · exact h2
  refine fenceWith_canonical h2 fun _ h3 => ?_
  split
  · exact teamTrap_canonical (pageRecord_canonical h3)
  refine waitWith_canonical (modTeam_canonical (shootRange_canonical ?_))
  split
  · exact freeLeaves_canonical h3
  · exact h3

theorem goOn_canonical {d : Opd} (h : Canonical s) : Canonical (goOn s k d v) := by
  fun_cases goOn
  case case2 => exact modTeam_canonical (writeS_canonical h)
  all_goals exact h

theorem doPushes_canonical {who : Who} {w : Work} (h : Canonical s) : Canonical (doPushes s p who w) :=
  refundUsed_canonical (foldl_canonical h fun _ _ h' => poolPush_canonical h')

theorem partXlat_canonical (h : Canonical s) : Canonical (partXlat s oid va acc).1 := by
  fun_cases partXlat
  · exact ite_canonical (engineRecord_canonical (engineXlat_canonical h)) (engineXlat_canonical h)
  · exact engineXlat_canonical h

theorem partPa_canonical (h : Canonical s) : Canonical (partPa s oid va acc).1 := by fun_cases partPa <;> exact partXlat_canonical h

theorem reachDesc_canonical (h : Canonical s) : Canonical (reachDesc s oid qn) := by
  fun_cases reachDesc
  case case3 => exact setCtx_canonical (partPa_canonical h)
  case case4 => exact partPa_canonical h
  all_goals exact h

theorem walkDescs_canonical (h : Canonical s) : Canonical (walkDescs s oid lo n) := by
  fun_cases walkDescs
  · exact h
  · exact foldl_canonical h fun _ _ h' => reachDesc_canonical h'

theorem execPgInvAckComplete_canonical (h : Canonical s) : OutCanonical (execPgInvAckComplete core slot s) := by
  unfold execPgInvAckComplete
  split
  · exact h
  split
  · exact h
  split
  · dsimp only
    split
    · exact h
    refine goOn_canonical ?_
    split
    · exact doPushes_canonical (walkDescs_canonical (shootRange_canonical (performRange_canonical h)))
    · exact walkDescs_canonical (shootRange_canonical (performRange_canonical h))
  · exact h

theorem execInvCtlGo_canonical (h : Canonical s) : OutCanonical (execInvCtlGo part s) :=
  ite_canonical h (ite_canonical h (setPart_canonical (walkDescs_canonical (shootRange_canonical (performRange_canonical h)))))

/-! ## Machine/Volume.lean -/

theorem walkSettle_canonical (h : Canonical s) : Canonical (walkSettle s who pa) := by
  fun_cases walkSettle
  · exact settlePhys_canonical h
  · exact h

theorem volWalk_canonical {t : Tile} {i : Nat} (h : Canonical s) : Canonical (volWalk who d t n i e s).1 := by
  fun_induction volWalk
  case case4 => exact walkSettle_canonical h
  case case5 ih => exact ih (walkSettle_canonical h)
  all_goals exact h

theorem volRoot_canonical {t : Tile} (h : Canonical s) : Canonical (volRoot s who d t).1 :=
  volWalk_canonical (walkSettle_canonical h)

theorem clbInstall_canonical {handle : Nat} {t : Tile} (h : Canonical s) : Canonical (clbInstall s cl oid handle t level pa e) := by
  fun_cases clbInstall <;> exact h

theorem volWalkIn_canonical (h : Canonical s) : Canonical (volWalkIn s k t d tile).1 := by
  fun_cases volWalkIn
  · split
    · exact clbInstall_canonical (acquire_canonical (volRoot_canonical h))
    · exact acquire_canonical (volRoot_canonical h)

theorem volFind_canonical (h : Canonical s) : Canonical (volFind s k t d tile).1 := by
  fun_cases volFind
  · exact h
  · exact volWalkIn_canonical h

theorem clbShoot_canonical {handle : Nat} {keys : List Nat} (h : Canonical s) : Canonical (clbShoot s oid handle keys) := h
theorem volTrap_canonical (h : Canonical s) : (volTrap s m bits addr).Canonical := h

theorem reachVa_canonical {align : Nat} {go : State → Nat → Res} (h : Canonical s) (hgo : ∀ s a, Canonical s → (go s a).Canonical) :
    (reachVa s k t m align n acc va go).Canonical := by
  refine withWide_canonical h ?_
  split
  · exact volTrap_canonical h
  dsimp only
  split
  · exact wideRes_canonical ((actOnXlat_canonical (xlatLanes_canonical h)).stop ‹_›)
  split
  · exact (actOnXlat_canonical (xlatLanes_canonical h)).go ‹_›
  split
  · exact wideRes_canonical (failXlat_canonical ((actOnXlat_canonical (xlatLanes_canonical h)).go ‹_›))
  split
  · exact volTrap_canonical (pageRecord_canonical (settlePhys_canonical ((actOnXlat_canonical (xlatLanes_canonical h)).go ‹_›)))
  · exact hgo _ _ (settlePhys_canonical ((actOnXlat_canonical (xlatLanes_canonical h)).go ‹_›))

theorem tileOf_canonical {w : VWalk} (h : Canonical s) : Canonical (tileOf s k d tile w).1 := by
  fun_cases tileOf
  case case2 => exact settlePhys_canonical h
  all_goals exact h

theorem volTile_canonical (h : Canonical s) : Canonical (volTile s k t d tile).1 := tileOf_canonical (volFind_canonical h)

theorem freshTile_canonical {cas : W64 → Bool} {v : VTile} (h : Canonical s) : Canonical (freshTile s k t d cas v).1 := by
  fun_cases freshTile
  case case2 => exact settlePhys_canonical h
  case case3 => exact settlePhys_canonical h
  case case4 => exact tileOf_canonical (volWalkIn_canonical (settlePhys_canonical h))
  all_goals exact h

theorem freshTiles_canonical {cas : W64 → Bool} {l : List VTile} (h : Canonical s) : Canonical (freshTiles k t d cas l s).1 := by
  fun_induction freshTiles
  · exact h
  case case2 ih => exact ih (freshTile_canonical h)

theorem volTiles_canonical {l : List Tile} (h : Canonical s) : Canonical (volTiles k t d l s).1 := by
  fun_induction volTiles
  · exact h
  case case2 ih => exact ih (volTile_canonical h)

theorem step4Record_canonical (h : Canonical s) : Canonical (step4Record s k t x) := by
  fun_cases step4Record
  · exact pageRecord_canonical h
  · exact h

theorem volStep4_canonical {ls : List VLane} {ts : List VTile} {need : VNeed} (h : Canonical s) (hgo : go.Canonical) :
    (volStep4 s k t d ls ts need go).Canonical := by
  fun_cases volStep4
  · exact step4Record_canonical h
  · exact leafWait_canonical h
  · exact hgo

theorem volFront_canonical {size : Nat → Bool} {need : VNeed} {cas : VDesc → W64 → Bool}
    {go : State → VDesc → List VLane → List VTile → Res} (h : Canonical s) (hgo : ∀ s a b c, Canonical s → (go s a b c).Canonical) :
    (volFront s k t f acc size need cas go).Canonical := by
  fun_cases volFront
  · exact h
  · refine memGo_canonical h (reachVa_canonical h fun _ _ h' => ?_)
    dsimp only
    split
    · exact volTrap_canonical h'
    split
    · exact volTrap_canonical h'
    · exact volStep4_canonical (volTiles_canonical h') (volStep4_canonical (freshTiles_canonical (volTiles_canonical h'))
        (hgo _ _ _ _ (freshTiles_canonical (volTiles_canonical h'))))

theorem trainTst_canonical (h : Canonical s) : Canonical (trainTst s k t f d) := by
  fun_cases trainTst
  case case3 => exact learn_canonical h
  case case4 => exact mk_canonical (fresh_canonical (learn_canonical h) ‹_›)
  all_goals exact h

theorem execClusterClbPreWalk_canonical (h : Canonical s) : OutCanonical (execClusterClbPreWalk id s) := by
  unfold execClusterClbPreWalk
  split
  · exact h
  dsimp only
  split
  · split
    · exact h
    split
    · exact clbInstall_canonical h
    · exact h
  · exact h

theorem execVolLd_canonical (h : Canonical s) : OutCanonical (execVolLd f s) :=
  issue_canonical h fun _ _ _ h' => volFront_canonical h' fun _ _ _ _ h2 => trainTst_canonical (addLoad_canonical h2)

theorem execVolProbe_canonical (h : Canonical s) : OutCanonical (execVolProbe f s) :=
  issue_canonical h fun _ _ _ h' => volFront_canonical h' fun _ _ _ _ h2 => trainTst_canonical (addLoad_canonical h2)

theorem tileBlock_canonical (h : Canonical s) : Canonical (tileBlock s d w).1 := by
  fun_cases tileBlock
  case case3 => exact poolPop_canonical h
  case case4 => exact poolRecord_canonical (poolPop_canonical h)
  case case5 => exact poolPop_canonical h
  all_goals exact h

theorem touchDesc_canonical (h : Canonical s) : Canonical (touchDesc s cl oid d level) := by
  fun_cases touchDesc
  · exact setD_canonical h
  · exact h

theorem writeNode_canonical (h : Canonical s) : Canonical (writeNode s pa e) := by
  fun_cases writeNode
  · exact homePut_canonical h
  · exact homeZero_canonical h

theorem writeTile_canonical {fmt : Nat} (h : Canonical s) : Canonical (writeTile s d pa fmt e) := by
  fun_cases writeTile
  · exact homeZero_canonical h
  · exact homePut_canonical h

theorem makeWritable_canonical {k : Nat} {t : Team} {d : VDesc} {tile : Tile} {F : VForm} {fuel level pa : Nat} {e : W64} {w : VWork}
    (h : Canonical w.s) : Canonical (makeWritable k t d tile F fuel level pa e w).1.s := by
  induction fuel generalizing level pa e w with
  | zero => exact h
  | succ fuel ih =>
    unfold makeWritable
    extract_lets cl who again
    have hagain : ∀ {s}, Canonical s → Canonical (again s).1.s := by
      intro s hs
      unfold again
      dsimp only
      split
      · exact ih (tileOf_canonical (volRoot_canonical hs))
      · exact tileOf_canonical (volRoot_canonical hs)
    have hblock : Canonical (tileBlock w.s d who).1 := tileBlock_canonical h
    have hframe : Canonical (allocFrames w.s d.part who [0]).1 := allocFrames_canonical h
    clear_value again
    split
    · exact h
    dsimp only
    split
    · split
      · exact hblock
      split
      · exact clbInstall_canonical (clbShoot_canonical (casEntry_canonical (drain_canonical (homePut_canonical hblock))))
      · exact hagain (poolPush_canonical (casEntry_canonical (drain_canonical (homePut_canonical hblock))))
    split
    · split
      · split
        · exact ih (clbInstall_canonical (casEntry_canonical (drain_canonical (touchDesc_canonical (writeNode_canonical hframe)))))
        · exact hagain (refundUsed_canonical (poolPush_canonical (casEntry_canonical (drain_canonical
            (touchDesc_canonical (writeNode_canonical hframe))))))
      all_goals exact hframe
    split
    · exact hblock
    split
    · exact clbInstall_canonical (casEntry_canonical (drain_canonical (writeTile_canonical hblock)))
    · exact hagain (poolPush_canonical (casEntry_canonical (drain_canonical (writeTile_canonical hblock))))

theorem makeTiles_canonical {k : Nat} {t : Team} {d : VDesc} {F : VForm} {vs : List VTile} {w : VWork} (h : Canonical w.s) :
    Canonical (makeTiles k t d F vs w).1.s := by
  induction vs generalizing w with
  | nil => exact h
  | cons v r ih =>
    refine ih ?_
    split
    · split
      · exact makeWritable_canonical h
      dsimp only
      split
      · exact makeWritable_canonical (tileOf_canonical (volWalkIn_canonical h))
      · exact tileOf_canonical (volWalkIn_canonical h)
    · exact h

theorem cymbalWait_canonical {atWord : Bool} {w : Work} (h : Canonical s) : (cymbalWait s k d atWord w).Canonical := by
  fun_cases cymbalWait <;> exact h

theorem volEnd_canonical {old : List Nat} {version : Option Nat} {c : Option Cause} {train : State → State} (h : Canonical s)
    (htrain : ∀ s, Canonical s → Canonical (train s)) : (volEnd s k t d old version c train).Canonical := by
  fun_cases volEnd
  · exact h
  · exact htrain _ h
  · exact cymbalWait_canonical (ite_canonical (htrain _ h) h)

theorem volBusy_canonical {old : List Nat} (h : Canonical s) : (volBusy s k d old pa e).Canonical := by
  fun_cases volBusy
  · exact leafWait_canonical h
  · exact cymbalWait_canonical h

theorem volWrite_canonical {size : Nat → Bool} {alloc elem : Bool} {train : VDesc → State → State}
    {perform : State → VDesc → List VLane → List (Tile × VMade) → State} (h : Canonical s) (htrain : ∀ a s, Canonical s → Canonical
    (train a s)) (hperform : ∀ s a b c, Canonical s → Canonical (perform s a b c)) :
    (volWrite s k t f size alloc elem train perform).Canonical := by
  refine volFront_canonical h fun _ _ _ _ h' => ?_
  dsimp only
  split
  · exact volEnd_canonical (step4Record_canonical (makeTiles_canonical h')) fun _ h2 => h2
  · exact volBusy_canonical (makeTiles_canonical h')
  · exact volEnd_canonical (hperform _ _ _ _ (makeTiles_canonical h')) fun _ h2 => htrain _ _ h2

theorem execVolSt_canonical (h : Canonical s) : OutCanonical (execVolSt f s) := by
  refine issue_canonical h fun _ _ _ h' => volWrite_canonical h' (fun _ _ h2 => trainTst_canonical h2) fun _ _ _ _ h2 =>
    foldl_canonical h2 fun _ _ h3 => ?_
  split
  · exact teamHomeWrite_canonical (leavePhys_canonical h3)
  · exact h3

theorem volAtomLanes_canonical {data : Nat → Nat} {made : List (Tile × VMade)} {l : List VLane} (h : Canonical s) :
    Canonical (volAtomLanes k t op d data made l s).1 := by
  induction l generalizing s with
  | nil => exact h
  | cons l r ih =>
    unfold volAtomLanes
    extract_lets a b
    have ha : Canonical a.1 := by
      unfold a
      split
      · dsimp only
        exact teamHomeWrite_canonical (leavePhys_canonical h)
      · exact h
    exact ih ha

theorem execVolAtom_canonical (h : Canonical s) : OutCanonical (execVolAtom f s) :=
  issue_canonical h fun _ _ _ h' => volWrite_canonical h' (fun _ _ h2 => trainTst_canonical h2) fun _ _ _ _ h2 => ite_canonical
    (volAtomLanes_canonical h2) (addLoad_canonical (volAtomLanes_canonical h2))

theorem execVolAlloc_canonical (h : Canonical s) : OutCanonical (execVolAlloc f s) :=
  issue_canonical h fun _ _ _ h' => volWrite_canonical h' (fun _ _ h2 => h2) fun _ _ _ _ h2 => h2

theorem freeTiles_canonical {k : Nat} {ts : List VTile} {w : VWork} (h : Canonical w.s) : Canonical (freeTiles k ts w).s := by
  unfold freeTiles
  induction ts generalizing w with
  | nil => exact h
  | cons v r ih =>
    refine ih ?_
    dsimp only
    split
    · split
      · exact casEntry_canonical h
      · exact h
    · exact h

theorem execVolFree_canonical (h : Canonical s) : OutCanonical (execVolFree f s) :=
  issue_canonical h fun _ _ _ h' => volFront_canonical h' fun _ _ _ _ h2 => volEnd_canonical
    (ite_canonical (clbShoot_canonical (freeTiles_canonical h2)) (setD_canonical (clbShoot_canonical (freeTiles_canonical h2))))
    fun _ h3 => h3

theorem fmtHold_canonical {fmt : Nat} {l : List VTile} (h : Canonical s) : Canonical (fmtHold k fmt l s).1 := by
  fun_induction fmtHold
  · exact h
  case case2 ih =>
    refine ih ?_
    dsimp +zetaDelta only
    split
    · exact h
    · exact casEntry_canonical h
  case case3 ih => exact ih h

theorem fmtItem_canonical {w : FmtWork} {x : FmtItem} (h : Canonical s) : Canonical (fmtItem k t w x s).1 := by
  fun_cases fmtItem
  case case1 => exact pageRecord_canonical (casEntry_canonical (settlePhys_canonical h))
  case case4 => exact casEntry_canonical (tileBlock_canonical (settlePhys_canonical h))
  case case5 => exact clbInstall_canonical (casEntry_canonical (homePut_canonical (tileBlock_canonical (settlePhys_canonical h))))
  case case6 => exact poolPush_canonical (casEntry_canonical (homePut_canonical (tileBlock_canonical (settlePhys_canonical h))))
  all_goals exact casEntry_canonical (settlePhys_canonical h)

theorem fmtItems_canonical {w : FmtWork} {l : List FmtItem} (h : Canonical s) : Canonical (fmtItems k t w l s).1 := by
  fun_induction fmtItems
  · exact h
  case case2 ih => exact ih (wakeLeaf_canonical (fmtItem_canonical h))

theorem raiseVersion_canonical (h : Canonical s) : Canonical (raiseVersion s k pa) := homePutNat_canonical (leavePhys_canonical h)

theorem fmtFinish_canonical {w : FmtWork} (h : Canonical s) : Canonical (fmtFinish s k t w) := by
  unfold fmtFinish
  extract_lets r old s1 s2 s3 s4
  have hs1 : Canonical s1 := foldl_canonical (fmtItems_canonical h) fun _ _ h' => poolPush_canonical h'
  have hs2 : Canonical s2 := ite_canonical hs1 (raiseVersion_canonical (setD_canonical hs1))
  have hs3 : Canonical s3 := modTeam_canonical hs2
  refine ite_canonical hs3 ?_
  have hs4 : Canonical s4 := writeD_canonical hs3
  split
  · exact deliverWait_canonical hs4
  · exact modTeam_canonical hs4

theorem execCymbalComplete_canonical (h : Canonical s) : OutCanonical (execCymbalComplete core slot s) := by
  unfold execCymbalComplete
  split
  · exact h
  split
  · exact h
  split
  · exact h
  split
  · exact fmtFinish_canonical h
  dsimp only
  split
  · refine deliverWait_canonical ?_
    split
    · exact raiseVersion_canonical (doPushes_canonical h)
    · exact doPushes_canonical h
  refine modTeam_canonical ?_
  split
  · exact raiseVersion_canonical (doPushes_canonical h)
  · exact doPushes_canonical h

theorem execVolFmt_canonical (h : Canonical s) : OutCanonical (execVolFmt f s) := by
  refine issue_canonical h fun _ _ _ h' => volFront_canonical h' fun _ _ _ _ h2 => ?_
  dsimp only
  split
  · split
    · exact writeD_canonical (fmtHold_canonical h2)
    · exact waitWith_canonical (modTeam_canonical (clbShoot_canonical (fmtHold_canonical h2)))
  split
  · exact writeD_canonical (fmtHold_canonical h2)
  · exact waitWith_canonical (modTeam_canonical (clbShoot_canonical (fmtHold_canonical h2)))

theorem execVolSync_canonical (h : Canonical s) : OutCanonical (execVolSync f s) := by
  refine issue_canonical h fun _ _ _ h' => once_canonical h' fun _ _ _ h2 => ?_
  split
  · exact h2
  · exact fenceWith_canonical h2 fun _ h3 => h3

/-! ## Machine/Stitch.lean -/

theorem stTrap_canonical (h : Canonical s) : (stTrap s m lane reason).Canonical := h

theorem reachSeq_canonical {l : List (Nat × Nat × Nat)} {r : Table Nat} {x : (State → Table Nat → Res)} (h : Canonical s)
    (hx : ∀ s a, Canonical s → (x s a).Canonical) : (reachSeq k t m l s r x).Canonical := by
  fun_induction reachSeq
  · exact hx _ _ h
  case case2 ih => exact reachVa_canonical h fun _ _ h' => ih _ _ h' fun _ _ h2 => hx _ _ h2

theorem reachAll_canonical {ws : List (Nat × Nat × Nat)} {go : State → Table Nat → Res} (h : Canonical s)
    (hgo : ∀ s a, Canonical s → (go s a).Canonical) : (reachAll s k t m ws pg go).Canonical :=
  reachSeq_canonical h fun _ _ h' => hgo _ _ h'

theorem hdrFront_canonical {go : State → SHdr → Res} (h : Canonical s) (hgo : ∀ s a, Canonical s → (go s a).Canonical) :
    (hdrFront s k t m lane acc va go).Canonical := by
  refine reachVa_canonical h fun _ _ h' => ?_
  dsimp only
  split
  · exact hgo _ _ h'
  · exact stTrap_canonical h'

theorem tokenRec_canonical {s : State} {k : Nat} {t : Team} {m : Mask} {lane : Nat} {tok : W64} {go : State → SVer → Res}
    (h : Canonical s) (hgo : ∀ s v, Canonical s → (go s v).Canonical) : (tokenRec s k t m lane tok go).Canonical := by
  unfold tokenRec
  refine reachVa_canonical h fun s1 _ h' => ?_
  dsimp only
  split
  · exact hdrFront_canonical h' fun s2 _ h2 => hgo s2 _ h2
  · exact stTrap_canonical h'

theorem tokenFront_canonical {go : State → SVer → Res} (h : Canonical s) (hgo : ∀ s a, Canonical s → (go s a).Canonical) :
    (tokenFront s k t m lane tok go).Canonical := by
  refine tokenRec_canonical h fun _ _ h' => ?_
  split
  · exact stTrap_canonical h'
  · exact hgo _ _ h'

theorem refsFront_canonical {go : State → Table Nat → List (Nat × Nat) → Res} (h : Canonical s)
    (hgo : ∀ s a b, Canonical s → (go s a b).Canonical) : (refsFront s k t m va n go).Canonical :=
  reachAll_canonical h fun _ _ h' => hgo _ _ _ h'

theorem bumpCount_canonical {prec d : Nat} (h : Canonical s) : Canonical (bumpCount s k t pg prec half d) := stPut_canonical h
theorem dropCount_canonical {prec : Nat} (h : Canonical s) : Canonical (dropCount s k t pg prec half) := bumpCount_canonical h

theorem lowerCounts_canonical {l : List Nat} (h : Canonical s) : Canonical (lowerCounts k t pg half l s).1 := by
  fun_induction lowerCounts
  · exact h
  case case2 ih => exact ih (dropCount_canonical h)

theorem queueDeaths_canonical {dead : List Nat} (h : Canonical s) : Canonical (queueDeaths s k t hdr dead) := h
theorem takeBlock_canonical (h : Canonical s) : Canonical (takeBlock s k t pg pool) := stPut_canonical h

theorem stPush_canonical {x : Nat} (h : Canonical s) : Canonical (stPush s k t pg pool x) := by
  fun_cases stPush
  · exact poolRecord_canonical h
  · exact stPut_canonical (stPut_canonical h)

theorem popFront_canonical {align : Nat} {go : Nat → Res} (h : Canonical s) (hgo : ∀ a, (go a).Canonical) :
    (popFront s k t m pg pool bytes align go).Canonical := by
  fun_cases popFront
  · exact hgo _
  · exact stTrap_canonical h
  · exact stTrap_canonical (poolRecord_canonical (takeBlock_canonical h))

theorem stopOr_canonical {n : Option Nat} (h : Canonical s) (hgo : go.Canonical) : (stopOr s k n go).Canonical := by
  fun_cases stopOr
  · exact stopTeam_canonical h
  · exact hgo

theorem execSxPin_canonical (h : Canonical s) : OutCanonical (execSxPin f s) := by
  refine issue_canonical h fun _ _ _ h' => onceLeft_canonical h' fun _ _ _ h2 => ?_
  dsimp only
  split
  · exact h2
  refine stopOr_canonical h2 (hdrFront_canonical h2 fun _ _ h3 => ?_)
  split
  · exact writeS_canonical (acquire_canonical h3)
  split
  · exact stTrap_canonical h3
  · exact reachAll_canonical h3 fun _ _ h4 => writeS_canonical (acquire_canonical (stPut_canonical h4))

theorem editWait_canonical {hva : Nat} (h : Canonical s) : (editWait s k hva).Canonical := waitWith_canonical h

theorem retire_canonical {v : SVer} (h : Canonical s) : Canonical (retire s k t pg v refs) :=
  queueDeaths_canonical (stPush_canonical (stPut_canonical (lowerCounts_canonical h)))

theorem unpinReach_canonical {v : SVer} {pins : Nat × Nat × Nat} {go : State → Table Nat → List (Nat × Nat) → Res} (h : Canonical s)
    (hgo : ∀ s a b, Canonical s → (go s a b).Canonical) : (unpinReach s k t m v pins go).Canonical :=
  refsFront_canonical h fun _ _ _ h' => reachAll_canonical h' fun _ _ h2 => reachAll_canonical h2 fun _ _ h3 => hgo _ _ _ h3

theorem unpinNow_canonical {v : SVer} (h : Canonical s) : (unpinNow s k t m v).Canonical := by
  fun_cases unpinNow
  · exact unpinReach_canonical h fun _ _ _ h' => clearWait_canonical (stPut_canonical h')
  · exact unpinReach_canonical h fun _ _ _ h' => clearWait_canonical (ite_canonical (retire_canonical (stPut_canonical h'))
      (stPut_canonical h'))

theorem execSxUnpin_canonical (h : Canonical s) : OutCanonical (execSxUnpin f s) := by
  refine issue_canonical h fun _ _ _ h' => onceLeft_canonical h' fun _ _ _ h2 => ?_
  dsimp only
  split
  · exact h2
  refine fenceWith_canonical h2 fun _ h3 => ?_
  split
  · exact h3
  refine stopOr_canonical h2 (tokenRec_canonical h3 fun _ _ h4 => ?_)
  split
  · exact editWait_canonical h4
  split
  · exact stTrap_canonical h4
  · exact unpinNow_canonical h4

theorem sxAccess_canonical {go : State → Nat → List (Nat × Nat × Nat) → Res} (h : Canonical s)
    (hgo : ∀ s a b, Canonical s → (go s a b).Canonical) : (sxAccess s k t f acc go).Canonical := by
  fun_cases sxAccess
  · exact h
  · refine memGo_canonical h ?_
    dsimp only
    split
    · exact stTrap_canonical h
    refine stopOr_canonical h (tokenFront_canonical h fun _ _ h' => ?_)
    split
    · exact stTrap_canonical h'
    split
    · exact stTrap_canonical h'
    refine refsFront_canonical h' fun _ _ _ h2 => reachAll_canonical h2 fun _ _ h3 => withSnare_canonical h3 ?_
    split
    · exact (checkLanes_canonical h3).stop ‹_›
    split
    · exact failXlat_canonical ((checkLanes_canonical h3).go ‹_›)
    · exact hgo _ _ _ (settleAll_canonical ((checkLanes_canonical h3).go ‹_›))

theorem sxFlush_canonical (h : Canonical s) : Canonical (sxFlush s k t va) := by
  fun_cases sxFlush
  · exact flushLine_canonical h
  · exact h

theorem execSxLd_canonical (h : Canonical s) : OutCanonical (execSxLd f s) :=
  issue_canonical h fun _ _ _ h' => sxAccess_canonical h' fun _ _ _ h2 => addLoad_canonical (foldl_canonical h2 fun _ _ h3 =>
    sxFlush_canonical h3)

theorem execSxSt_canonical (h : Canonical s) : OutCanonical (execSxSt f s) :=
  issue_canonical h fun _ _ _ h' => sxAccess_canonical h' fun _ _ _ h2 => digest_canonical (foldl_canonical h2 fun _ _ h3 =>
    teamHomeWrite_canonical (sxFlush_canonical h3))

theorem execSxWhere_canonical (h : Canonical s) : OutCanonical (execSxWhere f s) := by
  refine issue_canonical h fun _ _ _ h' => ?_
  dsimp only
  split
  · exact h'
  refine memGo_canonical h' ?_
  split
  · exact writeD_canonical (writeD_canonical h')
  · exact stopOr_canonical h' (tokenFront_canonical h' fun _ _ h2 => refsFront_canonical h2 fun _ _ _ h3 => reachAll_canonical h3
      fun _ _ h4 => writeD_canonical (writeD_canonical h4))

theorem execSxLen_canonical (h : Canonical s) : OutCanonical (execSxLen f s) := by
  refine issue_canonical h fun _ _ _ h' => onceLeft_canonical h' fun _ _ _ h2 => ?_
  dsimp only
  split
  · exact h2
  split
  · exact writeS_canonical h2
  refine stopOr_canonical h2 (tokenFront_canonical h2 fun _ _ h3 => ?_)
  split
  · exact writeS_canonical h3
  split
  · exact writeS_canonical h3
  split
  · split
    · exact writeS_canonical h3
    · exact refsFront_canonical h3 fun _ _ _ h4 => writeS_canonical h4
  split
  · exact writeS_canonical h3
  · exact refsFront_canonical h3 fun _ _ _ h4 => writeS_canonical h4

theorem editReach_canonical {pieces pools : List Nat} {go : State → Table Nat → Res} (h : Canonical s)
    (hgo : ∀ s a, Canonical s → (go s a).Canonical) : (editReach s k t m hdr pieces pools pg go).Canonical :=
  reachAll_canonical h fun _ _ h' => reachAll_canonical h' fun _ _ h2 => reachAll_canonical h2 fun _ _ h3 => hgo _ _ h3

theorem currentRefs_canonical {go : State → Table Nat → List (Nat × Nat) → Res} (h : Canonical s)
    (hgo : ∀ s a b, Canonical s → (go s a b).Canonical) : (currentRefs s k t m hdr go).Canonical := by
  fun_cases currentRefs
  · exact hgo _ _ _ h
  · exact refsFront_canonical h fun _ _ _ h' => hgo _ _ _ h'

theorem startEdit_canonical {x : Edit} (h : Canonical s) : (startEdit s k t x).Canonical :=
  editWait_canonical (modTeam_canonical (stPut_canonical h))

theorem holdEdit_canonical {r : Res} (h : r.Canonical) : (holdEdit k t hdr r).Canonical := by
  fun_cases holdEdit
  case case1 => exact modTeam_canonical (stPut_canonical h)
  case case6 => exact h
  all_goals exact freeEdit_canonical h

theorem blockFront_canonical {go : State → Table Nat → Nat → Res} (h : Canonical s)
    (hgo : ∀ s a b, Canonical s → (go s a b).Canonical) : (blockFront s k t m hdr refs pg go).Canonical := by
  fun_cases blockFront
  · exact hgo _ _ _ h
  · exact popFront_canonical h fun _ => reachAll_canonical h fun _ _ h' => hgo _ _ _ h'

theorem takeVersion_canonical {b : Nat} (h : Canonical s) : Canonical (takeVersion s k t hdr b pg) := by
  fun_cases takeVersion
  · exact h
  · exact takeBlock_canonical h

theorem plainEdit_canonical {new : List (Nat × Nat)} {total : Nat} {d : Opd} (h : Canonical s) :
    (plainEdit s k t m hdr old new total d pg).Canonical :=
  editReach_canonical h fun _ _ h' => blockFront_canonical h' fun _ _ _ h2 => startEdit_canonical (takeVersion_canonical h2)

theorem editForm_canonical {handle : State → Nat → Team → Nat} {words : State → Nat → Team → SHdr → List (Nat × Nat × Nat)}
    {body : Nat → Team → Mask → State → SHdr → Res} (h : Canonical s)
    (hbody : ∀ a b c s d, Canonical s → (body a b c s d).Canonical) : OutCanonical (editForm i f handle words body s) := by
  refine issue_canonical h fun _ _ _ h' => onceLeft_canonical h' fun _ _ _ h2 => ?_
  dsimp only
  split
  · exact h2
  · exact fenceWith_canonical h2 fun _ h3 => stopOr_canonical h2 (hdrFront_canonical h3 fun _ _ h4 => holdEdit_canonical
      (hbody _ _ _ _ _ h4))

theorem editOver_canonical {d : Opd} {serial : Nat} (h : Canonical s) : (editOver s k d code serial).Canonical :=
  writeS_canonical (clearWait_canonical h)

theorem spliceBody_canonical {src : List (Nat × Nat)} {srcTotal : Nat} (h : Canonical s) :
    (spliceBody s k t m f hdr src srcTotal size).Canonical := by
  fun_cases spliceBody
  · exact editWait_canonical h
  · exact editOver_canonical h
  · exact currentRefs_canonical h fun _ _ _ h' => plainEdit_canonical h'

theorem tokenReach_canonical {go : State → Res} (h : Canonical s) (hgo : ∀ s, Canonical s → (go s).Canonical) :
    (tokenReach s k t m tok go).Canonical := by
  fun_cases tokenReach
  · exact hgo _ h
  · exact reachVa_canonical h fun _ _ h' => hgo _ h'

theorem execSxSplice_canonical (h : Canonical s) : OutCanonical (execSxSplice f s) := by
  refine issue_canonical h fun _ _ _ h' => onceLeft_canonical h' fun _ _ _ h2 => ?_
  dsimp only
  split
  · exact h2
  refine fenceWith_canonical h2 fun _ h3 => stopOr_canonical h2 (reachVa_canonical h3 fun _ _ h4 => tokenReach_canonical h4
    fun _ h5 => hdrFront_canonical h5 fun _ _ h6 => holdEdit_canonical ?_)
  split
  · split
    · exact spliceBody_canonical h6
    · exact tokenFront_canonical h6 fun _ _ h7 => refsFront_canonical h7 fun _ _ _ h8 => spliceBody_canonical h8
  split
  · exact spliceBody_canonical h6
  · exact tokenFront_canonical h6 fun _ _ h7 => refsFront_canonical h7 fun _ _ _ h8 => spliceBody_canonical h8

theorem execSxTrunc_canonical (h : Canonical s) : OutCanonical (execSxTrunc f s) := by
  refine editForm_canonical h fun _ _ _ _ _ h' => ?_
  dsimp only
  split
  · exact editWait_canonical h'
  split
  · exact editOver_canonical h'
  split
  · exact editOver_canonical h'
  · exact currentRefs_canonical h' fun _ _ _ h2 => plainEdit_canonical h2

theorem execSxFork_canonical (h : Canonical s) : OutCanonical (execSxFork f s) := by
  refine issue_canonical h fun _ _ _ h' => onceLeft_canonical h' fun _ _ _ h2 => ?_
  dsimp only
  split
  · exact h2
  refine fenceWith_canonical h2 fun _ h3 => stopOr_canonical h2 ?_
  split
  · exact volTrap_canonical h2
  refine reachVa_canonical h3 fun _ _ h4 => reachVa_canonical h4 fun _ _ h5 => holdEdit_canonical ?_
  split
  · exact stTrap_canonical h5
  split
  · exact editWait_canonical h5
  split
  · exact editOver_canonical h5
  refine currentRefs_canonical h5 fun _ _ _ h6 => editReach_canonical h6 fun _ _ h7 => ?_
  split
  · exact editOver_canonical h7
  · exact plainEdit_canonical h7

theorem mapFree_canonical {core : Option Nat} {l : List (Nat × Nat × W64)} {r : List Nat} {x5 : Table Nat} (h : Canonical s) :
    Canonical (mapFree s core p l r x5).1 := by
  fun_induction mapFree
  case case1 ih => exact ih (entryPut_canonical h)
  · exact h

theorem mapPages_canonical {base : Nat} {copy : List (Nat × Nat × Nat)} {go : State → Table Nat → Res} (h : Canonical s)
    (hgo : ∀ s a, Canonical s → (go s a).Canonical) : (mapPages s k t m base bytes copy pg go).Canonical := by
  fun_cases mapPages
  · exact pageRecord_canonical h
  · exact stTrap_canonical h
  · exact h
  · refine reachAll_canonical h fun _ _ h' => ?_
    dsimp only
    split
    · exact hgo _ _ (mapFree_canonical (allocFrames_canonical h'))
    · exact allocFrames_canonical h'
    · exact stTrap_canonical (allocFrames_canonical h')

theorem appendPiece_canonical {b lt : Nat} {tail : Option Nat} (h : Canonical s) :
    (appendPiece s k t m f hdr old n b lt tail pg).Canonical := by
  refine reachAll_canonical h fun _ _ h' => reachAll_canonical h' fun _ _ h2 => popFront_canonical h2 fun _ => reachAll_canonical h2
    fun _ _ h3 => reachAll_canonical h3 fun _ _ h4 => ?_
  dsimp only
  split
  · exact stTrap_canonical h4
  split
  · exact stTrap_canonical h4
  · exact mapPages_canonical h4 fun _ _ h5 => startEdit_canonical (takeBlock_canonical (takeVersion_canonical h5))

theorem execSxAppend_canonical (h : Canonical s) : OutCanonical (execSxAppend f s) := by
  refine editForm_canonical h fun _ _ _ _ _ h' => ?_
  dsimp only
  split
  · exact editWait_canonical h'
  split
  · exact stTrap_canonical h'
  refine currentRefs_canonical h' fun _ _ _ h2 => editReach_canonical h2 fun _ _ h3 => blockFront_canonical h3 fun _ _ _ h4 => ?_
  split
  · split
    · split
      · exact reachAll_canonical h4 fun _ _ h5 => startEdit_canonical (takeVersion_canonical h5)
      · exact appendPiece_canonical h4
    split
    · exact reachAll_canonical h4 fun _ _ h5 => startEdit_canonical (takeVersion_canonical h5)
    · exact appendPiece_canonical h4
  · exact appendPiece_canonical h4

theorem publishPiece_canonical {x : Edit} (h : Canonical s) : Canonical (publishPiece s k t hdr old x).1 := by
  unfold publishPiece
  extract_lets pg inPlace fresh
  have hinPlace : ∀ {s}, Canonical s → Canonical (inPlace s) := stPut_canonical
  have hfresh : ∀ {s n}, Canonical s → Canonical (fresh s n) := fun h' => stPut_canonical (stPut_canonical h')
  clear_value inPlace fresh
  split
  · exact hinPlace h
  · split
    · exact hinPlace (stPush_canonical h)
    · exact hfresh (stWrite_canonical (ite_canonical (dropCount_canonical h) h))
  · exact hfresh h
  · exact h

theorem publish_canonical {s : State} {k : Nat} {t : Team} {x0 : Edit} (h : Canonical s) : Canonical (publish s k t x0) := by
  fun_cases publish
  next s1 x skip hp oldPs newPs s2 gain s3 s4 s5 s6 s7 loss a s8 =>
  have hs1 : Canonical s1 := fst_canonical (publishPiece_canonical h) hp
  have hs2 : Canonical s2 := ite_canonical hs1 (stWrite_canonical hs1)
  have hs3 : Canonical s3 := foldl_canonical hs2 fun _ _ h' => bumpCount_canonical h'
  have hs4 : Canonical s4 := ite_canonical hs3 (stPut_canonical (stPut_canonical hs3))
  have hs6 : Canonical s6 := stWrite_canonical (stWrite_canonical hs4)
  have hs7 : Canonical s7 := ite_canonical hs6 (foldl_canonical hs6 fun _ _ h' => bumpCount_canonical h')
  have ha : Canonical a.1 := lowerCounts_canonical hs7
  have hs8 : Canonical s8 := ite_canonical ha (stPush_canonical ha)
  exact queueDeaths_canonical (stPut_canonical hs8)

theorem execStitchEditPublish_canonical (h : Canonical s) : OutCanonical (execStitchEditPublish core slot s) := by
  unfold execStitchEditPublish
  split
  · exact h
  split
  · exact h
  split
  · exact goOn_canonical (publish_canonical h)
  · exact ite_canonical h h

theorem setCursor_canonical {scan issued : Nat} (h : Canonical s) : Canonical (setCursor s g core c scan issued) :=
  spWriteNat_canonical (spWriteNat_canonical h)

theorem nextDone_canonical {d : Opd} {piece : Nat} (h : Canonical s) : (nextDone s k t d status piece).Canonical :=
  writeS_canonical (clearWait_canonical (ite_canonical (acquire_canonical h) h))

theorem nextScan_canonical {k : Nat} {t : Team} {m : Mask} {a : NextArgs} {refs : List (Nat × Nat)} {fuel scan issued : Nat}
    {queued : List SxPage} {s : State} {pg : Table Nat} (h : Canonical s) :
    (nextScan k t m a refs fuel scan issued queued s pg).Canonical := by
  induction fuel generalizing scan issued queued s pg with
  | zero => exact h
  | succ fuel ih =>
    have hnote : ∀ {st : State} {sc : Nat}, Canonical st →
        Canonical { setCursor st t.gang (keyCore k) a.cursor sc issued with sxPages := st.sxPages ++ queued } :=
      fun h => mk_canonical (setCursor_canonical h)
    unfold nextScan
    dsimp only
    split
    · refine reachAll_canonical h fun _ _ h' => ?_
      split
      · exact nextDone_canonical (hnote h')
      · exact ih h'
    split
    · exact nextDone_canonical (hnote h)
    split
    · exact nextDone_canonical (hnote h)
    · exact waitWith_canonical (hnote h)

theorem tokenAgain_canonical {s : State} {k : Nat} {t : Team} {m : Mask} {tok : W64} {go : State → SVer → Res}
    (h : Canonical s) (hgo : ∀ s v, Canonical s → (go s v).Canonical) : (tokenAgain s k t m tok go).Canonical := by
  unfold tokenAgain
  refine reachVa_canonical h fun s1 _ h' => ?_
  dsimp only
  exact reachVa_canonical h' fun s2 _ h2 => hgo s2 _ h2

theorem execSxNext_canonical (h : Canonical s) : OutCanonical (execSxNext f s) := by
  refine issue_canonical h fun _ _ _ h' => onceLeft_canonical h' fun _ _ _ h2 => ?_
  dsimp only
  split
  · exact teamTrap_canonical h2
  split
  · exact teamTrap_canonical h2
  split
  · exact h2
  split
  · split
    · exact nextDone_canonical (spWriteNat_canonical h2)
    · exact nextScan_canonical h2
  refine stopOr_canonical h2 ?_
  split
  · refine tokenAgain_canonical h2 fun _ _ h3 => refsFront_canonical h3 fun _ _ _ h4 => ?_
    split
    · exact nextDone_canonical (spWriteNat_canonical h4)
    · exact nextScan_canonical h4
  refine tokenFront_canonical h2 fun _ _ h3 => refsFront_canonical h3 fun _ _ _ h4 => ?_
  split
  · exact nextDone_canonical (spWriteNat_canonical h4)
  · exact nextScan_canonical h4

theorem sxPagesIn_canonical {x : SxPage} {l : List Nat} (h : Canonical s) : Canonical (sxPagesIn x l s).1 := by
  fun_induction sxPagesIn
  case case1 => exact h
  case case4 ih => exact ih h
  case case5 => exact h
  case case6 => exact dropPageFails_canonical h
  case case7 => exact wantPageIn_canonical h
  case case9 ih => exact ih h
  case case10 ih => exact ih h
  all_goals exact engineRecord_canonical h

theorem engineWord_canonical (h : Canonical s) : Canonical (engineWord s cl oid va acc).1 := by
  fun_cases engineWord
  case case2 => exact engineXlat_canonical h
  case case4 => exact engineXlat_canonical h
  all_goals exact engineRecord_canonical (engineXlat_canonical h)

theorem engineStore_canonical {w : EWord} {v : Nat} (h : Canonical s) : Canonical (engineStore s w off n v) := by
  fun_cases engineStore
  · exact homePutNat_canonical h
  · exact h

theorem arrive_canonical {x : SxPage} {failed : Bool} (h : Canonical s) : Canonical (arrive s x failed) :=
  mk_canonical (spWriteNat_canonical (spWriteNat_canonical h))

theorem execStitchPageIn_canonical (h : Canonical s) : OutCanonical (execStitchPageIn s) := by
  unfold execStitchPageIn
  split
  · exact h
  dsimp only
  split
  · exact sxPagesIn_canonical h
  · exact arrive_canonical (mk_canonical (sxPagesIn_canonical h))
  · exact ite_canonical (engineWord_canonical (sxPagesIn_canonical h))
      (arrive_canonical (mk_canonical (engineStore_canonical (engineWord_canonical (sxPagesIn_canonical h)))))

theorem goodWord_canonical {w : EWord} (h : Canonical s) : Canonical (goodWord s oid va n w).1 := by
  fun_cases goodWord
  case case1 => exact engineRecord_canonical h
  all_goals exact h

theorem deathPush_canonical {x : Death} (h : Canonical s) : Canonical (deathPush s x).1 := by
  fun_cases deathPush
  case case2 => exact goodWord_canonical (engineWord_canonical (goodWord_canonical (engineWord_canonical h)))
  all_goals exact goodWord_canonical (engineWord_canonical h)

theorem deathPushed_canonical {x : Death} {d q : EWord} (h : Canonical s) : Canonical (deathPushed s x d q) := by
  fun_cases deathPushed
  case case1 => exact homePutNat_canonical (homePutNat_canonical h)
  case case2 => exact pageRecord_canonical h
  all_goals exact h

theorem execPieceDeath_canonical (h : Canonical s) : OutCanonical (execPieceDeath s) := by
  unfold execPieceDeath
  split
  · exact h
  extract_lets pop p w0 rec0 used who
  have hrec : Canonical rec0.1 := goodWord_canonical (engineWord_canonical h)
  split
  · exact hrec
  · exact hrec
  refine ite_canonical hrec ?_
  extract_lets b n range pushed vas s0 fr s1 s2
  have hused : Canonical used.1 := engineWord_canonical hrec
  have hpushed : Canonical pushed.1 := by
    unfold pushed
    split
    · exact hused
    · exact deathPush_canonical hused
  refine ite_canonical hpushed ?_
  have hs0 : Canonical s0 := foldl_canonical hpushed fun _ _ h' => engineRecord_canonical h'
  have hs1 : Canonical s1 := shootRange_canonical (performRange_canonical (shootRange_canonical (freeLeaves_canonical hs0)))
  exact deathPushed_canonical (engineStore_canonical (doPushes_canonical hs1))

/-! ## Machine/History.lean -/

theorem modHist_canonical {f : Hist → Hist} (h : Canonical s) : Canonical (modHist s k f) :=
  setCore_canonical h (setBank_opmem (core_opmem h _))

theorem writePair_canonical {d : Opd} {v : Nat} (h : Canonical s) : Canonical (writePair s k d v) :=
  writeS_canonical (writeS_canonical h)

theorem execHbWr_canonical {f : SYS} (h : Canonical s) : OutCanonical (execHbWr f s) :=
  issue_canonical h fun _ _ _ h' => once_canonical h' fun _ _ _ h2 => ite_canonical h2 (modHist_canonical h2)

theorem hbFront_canonical {g : Guard} {a : W64} {go : State → List (Nat × Nat × Nat) → Res} (h : Canonical s)
    (hgo : ∀ s a, Canonical s → (go s a).Canonical) : (hbFront s k t g acc a go).Canonical := by
  refine withWide_canonical h ?_
  split
  · exact teamTrap_canonical h
  split
  · exact h
  refine transferCheck_canonical h fun _ _ h' => ?_
  dsimp only
  split
  · exact teamTrap_canonical (pageRecord_canonical (foldl_canonical h' fun _ _ h2 => settlePhys_canonical h2))
  · exact hgo _ _ (foldl_canonical h' fun _ _ h2 => settlePhys_canonical h2)

theorem execHbLd_canonical {f : SYS} (h : Canonical s) : OutCanonical (execHbLd f s) := by
  refine issue_canonical h fun _ _ _ h' => once_canonical h' fun _ _ _ h2 => hbFront_canonical h2 fun _ _ h3 => ?_
  dsimp only
  split
  · exact writeS_canonical (modHist_canonical h3)
  · exact writeS_canonical h3

theorem postWords_canonical (h : Canonical s) : Canonical (postWords s k num l n) := by
  fun_induction postWords
  · exact h
  case case2 ih => exact ih (mk_canonical (fresh_canonical h ‹_›))

theorem execHbSt_canonical {f : SYS} (h : Canonical s) : OutCanonical (execHbSt f s) :=
  issue_canonical h fun _ _ _ h' => once_canonical h' fun _ _ _ h2 => hbFront_canonical h2 fun _ _ h3 => writeS_canonical
    (postWords_canonical
    (modTeam_canonical (mk_canonical (foldl_canonical h3 fun _ _ h4 => setD_canonical (refreshPhys_canonical h4)))))

/-! ## Machine/System.lean -/

theorem postCall_canonical {i entryVa hdrPa entryPa : Nat} (h : Canonical s) :
    Canonical (postCall s k t code i entryVa hdrPa entryPa) :=
  modTeam_canonical (mk_canonical (homePutNat_canonical (homePut_canonical h)))

theorem ringReach_canonical {s : State} {k : Nat} {t : Team} {m : Mask} {va n acc : Nat} {pg : Table Nat}
    {go : State → Table Nat → Res} (h : Canonical s) (hgo : ∀ s pg, Canonical s → (go s pg).Canonical) :
    (ringReach s k t m va n acc pg go).Canonical := by
  fun_cases ringReach
  · next s1 a r hfind =>
    obtain ⟨c, -, hc⟩ := List.exists_of_findSome?_eq_some hfind
    dsimp only at hc
    split at hc <;> try split at hc
    all_goals cases hc
    all_goals exact xlat_canonical h
  · exact reachAll_canonical h hgo

theorem execTrapSystemCall_canonical {f : SYS} (h : Canonical s) : OutCanonical (execTrapSystemCall f s) := by
  refine issue_canonical h fun _ _ _ h' => once_canonical h' fun _ _ _ h2 => ?_
  dsimp only
  split
  · exact h2
  refine fenceWith_canonical h2 fun _ h3 => ringReach_canonical h3 fun _ _ h4 => ?_
  split
  · split
    · exact ringReach_canonical h4 fun _ _ h5 => postCall_canonical (modTeam_canonical (touchD_canonical (touchD_canonical h5)))
    · exact h4
  split
  · exact ringReach_canonical h4 fun _ _ h5 => postCall_canonical (modTeam_canonical (touchD_canonical (touchD_canonical h5)))
  · exact h4

theorem callXlat_canonical (h : Canonical s) : Canonical (callXlat s k t va acc).1 := by
  fun_cases callXlat
  case case3 => exact wantPageIn_canonical (xlat_canonical h)
  all_goals exact xlat_canonical h

theorem callFails_canonical (h : Canonical s) : Canonical (callFails s k t va reason) :=
  deliverWait_canonical (ite_canonical (pageRecord_canonical h) h)

theorem callPost_canonical {ring : Nat} (h : Canonical s) : Canonical (callPost s k t ring) := by
  fun_cases callPost
  case case3 => exact callFails_canonical (callXlat_canonical (callXlat_canonical h))
  case case4 => exact postCall_canonical (touchD_canonical (touchD_canonical (callXlat_canonical (callXlat_canonical h))))
  case case5 => exact callXlat_canonical (callXlat_canonical h)
  case case6 => exact callXlat_canonical h
  case case7 => exact callXlat_canonical h
  all_goals exact callFails_canonical (callXlat_canonical h)

theorem execSystemCallReply_canonical (h : Canonical s) : OutCanonical (execSystemCallReply core slot s) := by
  unfold execSystemCallReply
  split
  · exact h
  split
  · exact h
  dsimp only
  split
  · exact callPost_canonical h
  split
  · exact h
  split
  · split
    · exact modTeam_canonical (writeS_canonical (acquire_canonical (settlePhys_canonical h)))
    · exact h
  · exact h

theorem execRte_canonical {f : SYS} (h : Canonical s) : OutCanonical (execRte f s) := by
  refine issue_canonical h fun _ _ _ h' => ?_
  split
  · exact returnFromHandler_canonical h'
  · exact lateIllegal_canonical h'

theorem execRteUp_canonical {f : SYS} (h : Canonical s) : OutCanonical (execRteUp f s) := by
  refine issue_canonical h fun _ _ _ h' => ?_
  split
  · exact returnFromHandler_canonical h'
  · exact lateIllegal_canonical h'

theorem lateOperand_canonical (h : Canonical s) : (lateOperand s t).Canonical := h

theorem execFrd_canonical {f : SYS} (h : Canonical s) : OutCanonical (execFrd f s) := by
  refine issue_canonical h fun _ _ _ h' => ?_
  dsimp only
  split
  · exact lateIllegal_canonical h'
  split
  · exact lateOperand_canonical h'
  split
  · exact ite_canonical (writeS_canonical h') h'
  · split <;> exact writeD_canonical h'

theorem execFwr_canonical {f : SYS} (h : Canonical s) : OutCanonical (execFwr f s) := by
  refine issue_canonical h fun _ _ _ h' => ?_
  dsimp only
  split
  · exact lateIllegal_canonical h'
  split
  · exact lateOperand_canonical h'
  split
  · exact ite_canonical h' h'
  split
  · exact writeD_canonical h'
  · exact writeP_canonical h'

theorem writeMask_canonical {o : Opd} {v : Mask} (h : Canonical s) : Canonical (writeMask s k o v) := by
  fun_cases writeMask <;> exact h

theorem execSysrd_canonical {f : SYS} (h : Canonical s) : OutCanonical (execSysrd f s) := by
  refine issue_canonical h fun _ _ _ h' => once_canonical h' fun _ _ _ h2 => ?_
  dsimp only
  split
  · exact lateIllegal_canonical h2
  split
  · exact writeMask_canonical h2
  · exact writeS_canonical h2

theorem setSnare_canonical (h : Canonical s) : Canonical (setSnare s core n v) := setCore_canonical h (core_opmem h _)

theorem setSnHit_canonical {key : Option Nat} (h : Canonical s) : Canonical (setSnHit s core v key) :=
  setCore_canonical h (core_opmem h _)

theorem writeSnHit_canonical {resume clear : Bool} (h : Canonical s) : Canonical (writeSnHit s core resume clear) := by
  fun_cases writeSnHit
  · exact h
  · exact setSnHit_canonical h
  · exact modTeam_canonical (setSnHit_canonical h)

theorem sysWrite_canonical (h : Canonical s) : Canonical (sysWrite s k t n v) := by
  fun_cases sysWrite
  case case5 => exact writeSnHit_canonical h
  case case6 => exact setSnare_canonical h
  all_goals exact h

theorem execSyswr_canonical {f : SYS} (h : Canonical s) : OutCanonical (execSyswr f s) := by
  refine issue_canonical h fun _ _ _ h' => once_canonical h' fun _ _ _ h2 => ?_
  dsimp only
  split
  · exact lateIllegal_canonical h2
  split
  · exact h2
  · exact sysWrite_canonical h2

theorem execSnhitReport_canonical (h : Canonical s) : OutCanonical (execSnhitReport s) := by
  unfold execSnhitReport
  dsimp only
  split
  · exact h
  split
  · exact h
  split
  · exact setSnHit_canonical h
  · exact h

/-! ## Machine/Queue.lean -/

theorem partReadAll_canonical (h : Canonical s) : Canonical (partReadAll oid l s).1 := by
  fun_induction partReadAll
  case case1 => exact h
  case case3 => exact engineRecord_canonical (partXlat_canonical h)
  case case4 ih => exact ih (partXlat_canonical h)
  case case5 ih => exact ih (partXlat_canonical h)
  all_goals exact partXlat_canonical h

theorem partRead_canonical (h : Canonical s) : Canonical (partRead s oid va n).1 := partReadAll_canonical h

theorem modQueue_canonical {f : Queue → Queue} (h : Canonical s) : Canonical (modQueue s oid q f) := by
  fun_cases modQueue <;> exact h

theorem descStore_canonical {x : Queue} {w : Nat × Nat × Nat} (h : Canonical s) : Canonical (descStore s oid x w) := by
  fun_cases descStore
  · exact engineRecord_canonical (homeWrite_canonical h)
  · exact homeWrite_canonical h

theorem payOwed_canonical (h : Canonical s) : Canonical (payOwed s oid q) := by
  fun_cases payOwed
  case case2 => exact foldl_canonical (modQueue_canonical (reachDesc_canonical h)) fun _ _ h' => descStore_canonical h'
  case case4 => exact modQueue_canonical (reachDesc_canonical h)
  all_goals exact reachDesc_canonical h

theorem putDesc_canonical {v : Nat} (h : Canonical s) : Canonical (putDesc s oid q off n v) :=
  payOwed_canonical (modQueue_canonical h)

theorem payQueues_canonical (h : Canonical s) : Canonical (payQueues s oid) := by
  fun_cases payQueues
  · exact h
  · exact foldl_canonical h fun _ _ h' => payOwed_canonical h'

theorem setQState_canonical {st : QState} (h : Canonical s) : Canonical (setQState s oid q st) := by
  fun_cases setQState
  case case3 => exact putDesc_canonical (modQueue_canonical h)
  all_goals exact h

theorem setReadPos_canonical {pos count : Nat} (h : Canonical s) : Canonical (setReadPos s oid q pos count) :=
  putDesc_canonical (putDesc_canonical (modQueue_canonical h))

theorem faultQueueBy_canonical {eng : Nat} (h : Canonical s) : Canonical (faultQueueBy s oid q code entry acc eng) :=
  mk_canonical (hostRecord_canonical (setQState_canonical (putDesc_canonical (putDesc_canonical (modQueue_canonical h)))))

theorem faultQueue_canonical (h : Canonical s) : Canonical (faultQueue s oid q code entry) := faultQueueBy_canonical h
theorem useQuota_canonical (h : Canonical s) : Canonical (useQuota s p) := h

theorem admitQueue_canonical (h : Canonical s) : Canonical (admitQueue s oid q) := by
  fun_cases admitQueue
  · exact h
  · exact faultQueue_canonical (useQuota_canonical (modQueue_canonical h))
  · exact setQState_canonical (setReadPos_canonical (useQuota_canonical (modQueue_canonical h)))

theorem startQueue_canonical {ctl : Nat} (h : Canonical s) : Canonical (startQueue s oid q ctl) := by
  fun_cases startQueue
  · exact setQState_canonical (putDesc_canonical (putDesc_canonical (putDesc_canonical h)))
  · exact admitQueue_canonical (putDesc_canonical (putDesc_canonical h))
  · exact faultQueue_canonical (putDesc_canonical (putDesc_canonical h))

theorem descsAt_canonical {l : List Nat} (h : Canonical s) : Canonical (descsAt oid l s).1 := by
  fun_induction descsAt
  · exact h
  case case2 ih | case3 ih | case4 ih | case5 ih =>
    refine ih ?_
    dsimp +zetaDelta only
    split
    · exact h
    · exact partPa_canonical h

/-- A queue kept in its context. -/
theorem putQueue_canonical {s : State} {oid i : Nat} {x : Queue} (h : Canonical s) :
    Canonical (match s.ctx oid with | some c => s.setCtx oid { c with queues := c.queues.put i x } | none => s) := by
  split <;> exact h

theorem readQueue_canonical {s : State} {oid i va : Nat} {pa : Option Nat} {listBad : Bool} {old : Option Queue} (h : Canonical s) :
    Canonical (readQueue s oid i va pa listBad old) := by
  fun_cases readQueue
  · exact putQueue_canonical h
  · exact faultQueue_canonical (engineRecord_canonical (putQueue_canonical h))
  · exact startQueue_canonical (putQueue_canonical h)

theorem renumber_canonical {f : Nat → Nat} (h : Canonical s) : Canonical (renumber s oid f) := by fun_cases renumber <;> exact h

theorem setListDue_canonical {due : Bool} (h : Canonical s) : Canonical (setListDue s oid due) := by
  fun_cases setListDue <;> exact h

/-- A context whose queues are dropped. -/
theorem dropQueues_canonical {s : State} {oid : Nat} (h : Canonical s) :
    Canonical (match s.ctx oid with | some x => s.setCtx oid { x with queues := [], listDue := false } | none => s) := by
  split <;> exact h

theorem readQueues_canonical {s : State} {oid : Nat} (h : Canonical s) : Canonical (readQueues s oid) := by
  have hlist : ∀ {va n}, Canonical (partRead s oid va n).1 := partRead_canonical h
  fun_cases readQueues
  · exact h
  · exact setListDue_canonical hlist
  · exact setListDue_canonical (partRead_canonical hlist)
  · exact setListDue_canonical (descsAt_canonical (partRead_canonical hlist))
  · exact foldl_canonical (renumber_canonical (dropQueues_canonical (descsAt_canonical (partRead_canonical hlist))))
      fun _ _ h' => readQueue_canonical h'
  · exact dropQueues_canonical (partRead_canonical hlist)
  · exact dropQueues_canonical hlist

theorem headOf_canonical {q : Queue} (h : Canonical s) : Canonical (headOf s oid q).1 := by
  fun_cases headOf
  case case1 => exact h
  case case7 => exact partRead_canonical (partRead_canonical h)
  case case8 => exact partRead_canonical (partRead_canonical h)
  case case9 => exact partRead_canonical (partRead_canonical h)
  case case10 => exact partRead_canonical (partRead_canonical h)
  all_goals exact partRead_canonical h

theorem retireKernel_canonical (h : Canonical s) : Canonical (retireKernel s oid qn seq) := h

theorem raiseCompletion_canonical (h : Canonical s) : Canonical (raiseCompletion oid qn n s) := by
  fun_induction raiseCompletion
  case case4 ih => exact ih (putDesc_canonical (modQueue_canonical (retireKernel_canonical h)))
  all_goals exact h

theorem queueStep_canonical (h : Canonical s) : Canonical (queueStep s oid qn) := by
  fun_cases queueStep
  case case1 => exact h
  case case2 => exact h
  case case3 => exact setQState_canonical h
  case case4 => exact setQState_canonical h
  case case8 => exact faultQueue_canonical (headOf_canonical h)
  all_goals exact setQState_canonical (headOf_canonical h)

theorem completeAll_canonical (h : Canonical s) : Canonical (completeAll s oid qn) := raiseCompletion_canonical h

theorem stepWaiting_canonical (h : Canonical s) : Canonical (stepWaiting s oid) := by
  fun_cases stepWaiting
  case case2 => exact foldl_canonical h fun _ _ h' => queueStep_canonical h'
  all_goals exact h

theorem commandDone_canonical (h : Canonical s) : Canonical (commandDone s oid qn seq) := by
  refine stepWaiting_canonical (queueStep_canonical (completeAll_canonical ?_))
  split
  · exact setCtx_canonical (modQueue_canonical h)
  · exact modQueue_canonical h

theorem takeCommand_canonical {q : Queue} {next : Nat} (h : Canonical s) : Canonical (takeCommand s oid qn q n next) :=
  modQueue_canonical (setReadPos_canonical h)

theorem unread_canonical {addr : Nat} (h : Canonical s) : Canonical (unread s oid qn seq addr) := by
  fun_cases unread
  · exact h
  · exact setReadPos_canonical (modQueue_canonical h)

theorem onHead_canonical {s0 : State} {oid qn kind : Nat} {f : State → Queue → List Byte → State} (h : Canonical s0)
    (hf : ∀ s q bs, Canonical s → Canonical (f s q bs)) : Canonical (onHead s0 oid qn kind f) := by
  have hs : Canonical (payQueues s0 oid) := payQueues_canonical h
  unfold onHead
  dsimp only
  generalize payQueues s0 oid = s at hs ⊢
  split
  · exact hs
  split
  · exact hs
  next c _ q _ =>
  split
  · exact hs
  have hq : Canonical (headOf s oid q).1 := headOf_canonical hs
  generalize headOf s oid q = hd at hq ⊢
  split
  · exact queueStep_canonical hq
  · exact hq
  · exact faultQueue_canonical hq
  · exact ite_canonical hq
      (ite_canonical (queueStep_canonical (completeAll_canonical (setReadPos_canonical hq))) (hf _ _ _ hq))

theorem execNopCommand_canonical (h : Canonical s) : OutCanonical (execNopCommand oid queue s) :=
  onHead_canonical h fun _ _ _ h' => ite_canonical (faultQueue_canonical h') (commandDone_canonical (takeCommand_canonical h'))

theorem execLinkCommand_canonical (h : Canonical s) : OutCanonical (execLinkCommand oid queue s) :=
  onHead_canonical h fun _ _ _ h' => ite_canonical (faultQueue_canonical h') (ite_canonical (faultQueue_canonical h')
    (commandDone_canonical (takeCommand_canonical h')))

theorem execWaitCommand_canonical (h : Canonical s) : OutCanonical (execWaitCommand oid queue s) := by
  unfold execWaitCommand
  split
  · exact commandDone_canonical (modQueue_canonical h)
  · exact onHead_canonical h fun _ _ _ h' => ite_canonical (faultQueue_canonical h') (ite_canonical (faultQueue_canonical h')
      (ite_canonical (commandDone_canonical (takeCommand_canonical h'))
      (queueStep_canonical (modQueue_canonical (takeCommand_canonical h')))))

theorem execLaunchCommand_canonical (h : Canonical s) : OutCanonical (execLaunchCommand oid queue s) :=
  onHead_canonical h fun _ _ _ h' => queueStep_canonical (setKernel_canonical (takeCommand_canonical h'))

theorem startJob_canonical (h : Canonical s) : Canonical (startJob s oid qn) := by
  refine queueStep_canonical ?_
  split <;> exact h

theorem execJobCommand_canonical (h : Canonical s) : OutCanonical (execJobCommand oid queue s) := by
  unfold execJobCommand
  split
  · exact startJob_canonical h
  refine onHead_canonical h fun _ _ _ h' => ?_
  dsimp only
  split
  · exact faultQueue_canonical h'
  split
  · exact startJob_canonical (setCtx_canonical (takeCommand_canonical h'))
  · exact takeCommand_canonical h'

theorem resumeQueue_canonical {q : Queue} (h : Canonical s) : Canonical (resumeQueue s oid qn q) := by
  fun_cases resumeQueue
  case case3 => exact admitQueue_canonical h
  case case4 =>
    exact queueStep_canonical (setQState_canonical (ite_canonical (putDesc_canonical (putDesc_canonical (modQueue_canonical h)))
      (admitQueue_canonical (putDesc_canonical (putDesc_canonical (modQueue_canonical h))))))
  all_goals exact faultQueue_canonical h

/-! ## Machine/Context.lean -/

theorem areaStores_canonical {r : List Byte} (h : Canonical s) : Canonical (areaStores oid l r s).1 := by
  fun_induction areaStores
  case case1 => exact h
  case case5 => exact engineRecord_canonical (homeWrite_canonical (partPa_canonical h))
  case case6 ih => exact ih (homeWrite_canonical (partPa_canonical h))
  all_goals exact partPa_canonical h

theorem areaWrite_canonical (h : Canonical s) : Canonical (areaWrite s oid off bs).1 := by
  fun_cases areaWrite
  · exact h
  · exact areaStores_canonical h

theorem areaWrites_canonical {l : List (Nat × List Byte)} (h : Canonical s) : Canonical (areaWrites oid l s).1 := by
  fun_induction areaWrites
  · exact h
  case case2 ih => exact ih (areaWrite_canonical h)
  · exact areaWrite_canonical h

theorem areaRead_canonical (h : Canonical s) : Canonical (areaRead s oid off n).1 := by
  fun_cases areaRead
  case case1 => exact h
  all_goals exact partRead_canonical h

theorem writeWord_canonical (h : Canonical s) : Canonical (writeWord s oid) := by
  fun_cases writeWord
  · exact h
  · exact setCtx_canonical (areaWrite_canonical h)
  · exact areaWrite_canonical h

theorem payWord_canonical (h : Canonical s) : Canonical (payWord s oid) := by
  fun_cases payWord
  case case1 => exact writeWord_canonical h
  all_goals exact h

theorem setCtxState_canonical {st : CState} (h : Canonical s) : Canonical (setCtxState s oid st) := by
  fun_cases setCtxState
  case case3 => exact writeWord_canonical h
  all_goals exact h

theorem settleCtx_canonical (h : Canonical s) : Canonical (settleCtx s oid) := by
  fun_cases settleCtx
  case case2 => exact setCtxState_canonical h
  all_goals exact h

theorem settleOpt_canonical {o : Option Nat} (h : Canonical s) : Canonical (settleOpt s o) := by
  fun_cases settleOpt
  · exact settleCtx_canonical h
  · exact h

theorem loadWindow_canonical {place : Nat} (h : Canonical s) : Canonical (loadWindow s oid core slot place t).1 := by
  fun_cases loadWindow <;> exact areaRead_canonical (areaRead_canonical (areaRead_canonical h))

theorem rekey_canonical {s : State} {gid tix k : Nat} (h : Canonical s) : Canonical (rekey s gid tix k) :=
  modGang_canonical h fun _ hg => hg

theorem loadSlots_canonical {oid core bank n place : Nat} {s : State} (h : Canonical s) :
    Canonical (loadSlots oid core bank n place s).1 := by
  fun_induction loadSlots
  · exact h
  · exact areaRead_canonical h
  case case3 ih => exact ih (areaRead_canonical h)
  · exact loadWindow_canonical (areaRead_canonical h)
  case case5 g dead t1 w t2 hw s1 s2 ih =>
    have hs1 : Canonical s1 := setTeam_canonical (loadWindow_canonical (areaRead_canonical h))
    refine ih ?_
    clear_value g
    unfold s2
    split
    · exact rekey_canonical hs1
    · exact hs1

theorem loadHeld_canonical (h : Canonical s) : Canonical (loadHeld oid core bank n s).1 := by
  fun_induction loadHeld
  · exact h
  case case2 ih => exact ih h
  · exact areaRead_canonical h
  case case4 ih => exact ih (ite_canonical (areaRead_canonical h) (setTeam_canonical (areaRead_canonical h)))

theorem setBankOf_canonical {b : Nat} {f : Bank → Bank} (h : Canonical s) : Canonical (setBankOf s core b f) :=
  setCore_canonical h (setBank_opmem (core_opmem h _))

theorem addHalves_canonical {hs : List Nat} (h : Canonical s) : Canonical (addHalves s oid hs) := by fun_cases addHalves <;> exact h

theorem dropHalves_canonical {hs : List Nat} (h : Canonical s) : Canonical (dropHalves s oid hs) := by
  fun_cases dropHalves <;> exact h

theorem eraseBank_canonical (h : Canonical s) : Canonical (eraseBank s core bank) := h

theorem startStage_canonical {chain : Bool} (h : Canonical s) : Canonical (startStage s oid chain core) := by
  fun_cases startStage
  · exact h
  · exact setBankOf_canonical h
  · exact addHalves_canonical (setBankOf_canonical h)

theorem requestSwap_canonical {incoming : Option Nat} (h : Canonical s) : Canonical (requestSwap s core incoming) :=
  setCore_canonical h (core_opmem h _)

theorem dropBank_canonical (h : Canonical s) : Canonical (dropBank s oid core) := by
  fun_cases dropBank
  · exact h
  · exact eraseBank_canonical (dropHalves_canonical (setBankOf_canonical h))
  · exact setBankOf_canonical h

theorem swapForm_canonical {f : SYS} {check : State → Nat → Nat → Nat} {act : State → Nat → Nat → State} (h : Canonical s)
    (hact : ∀ s a b, Canonical s → Canonical (act s a b)) : OutCanonical (swapForm i f check act s) := by
  refine issue_canonical h fun _ _ _ h' => once_canonical h' fun _ _ _ h2 => ?_
  dsimp only
  split
  · exact lateIllegal_canonical h2
  split
  · exact writeS_canonical h2
  split
  · exact writeS_canonical h2
  split
  · exact writeS_canonical h2
  · exact writeS_canonical (foldl_canonical h2 fun _ _ h3 => hact _ _ _ h3)

theorem execCtxSwapStage_canonical {f : SYS} (h : Canonical s) : OutCanonical (execCtxSwapStage f s) :=
  swapForm_canonical h fun _ _ _ h' => startStage_canonical h'

theorem execCtxSwap_canonical {f : SYS} (h : Canonical s) : OutCanonical (execCtxSwap f s) :=
  swapForm_canonical h fun _ _ _ h' => requestSwap_canonical h'

theorem execCtxSwapChain_canonical {f : SYS} (h : Canonical s) : OutCanonical (execCtxSwapChain f s) :=
  swapForm_canonical h fun _ _ _ h' => startStage_canonical h'

theorem execCtxSwapDrop_canonical {f : SYS} (h : Canonical s) : OutCanonical (execCtxSwapDrop f s) :=
  swapForm_canonical h fun _ _ _ h' => settleCtx_canonical (dropBank_canonical h')

theorem execStagingComplete_canonical (h : Canonical s) : OutCanonical (execStagingComplete s) := by
  unfold execStagingComplete
  extract_lets core c bn b
  split
  · exact h
  refine ite_canonical h ?_
  extract_lets img whole ls
  have himg : Canonical img.1 := areaRead_canonical h
  split
  · exact himg
  have hls : Canonical ls.1 := by
    unfold ls
    split
    · exact loadSlots_canonical himg
    · exact loadHeld_canonical himg
  refine ite_canonical h ?_
  extract_lets s1 s2
  have hs2 : Canonical s2 := settleCtx_canonical (setBankOf_canonical hls)
  exact ite_canonical (requestSwap_canonical hs2) hs2

theorem beginSwap_canonical {w : Swap} (h : Canonical s) : Canonical (beginSwap s core w) :=
  mk_canonical (setCore_canonical h (core_opmem h _))

theorem execSwapRequest_canonical {cores : BitVec 64} (h : Canonical s) : OutCanonical (execSwapRequest cores s) := by
  refine foldl_canonical h fun _ _ h' => ?_
  split
  · exact ite_canonical h' (beginSwap_canonical h')
  split
  · exact beginSwap_canonical h'
  dsimp only
  split
  · exact ite_canonical (startStage_canonical h') h'
  · exact h'

theorem rereadRoots_canonical (h : Canonical s) : Canonical (rereadRoots s oid) := by
  fun_cases rereadRoots
  · exact setCtx_canonical (areaRead_canonical h)
  · exact areaRead_canonical h

theorem cameBack_canonical (h : Canonical s) : Canonical (cameBack s core oid) := setCore_canonical h (core_opmem h _)

theorem endHold_canonical (h : Canonical s) : Canonical (endHold s oid core bank) := by
  fun_cases endHold
  case case3 => exact mk_canonical (eraseBank_canonical (dropHalves_canonical h))
  all_goals exact h

theorem bootDone_canonical {st : Nat} (h : Canonical s) : Canonical (bootDone s p st) := h

theorem settleBoot_canonical (h : Canonical s) : Canonical (settleBoot s) := by
  refine foldl_canonical h fun _ _ h' => ?_
  split
  · exact ite_canonical h' (bootDone_canonical h')
  · exact h'

theorem exchange_canonical {w : Swap} (h : Canonical s) : Canonical (exchange s core w) := by
  unfold exchange
  extract_lets c old new out loaded c1 s1 s2 s3 s4 s5
  have hs4 : Canonical s4 :=
    mk_canonical (setBankOf_canonical (setBankOf_canonical (setCore_canonical h (core_opmem h core))))
  have hs5 : Canonical s5 := by
    unfold s5
    split
    · extract_lets back
      have hback : Canonical back := rereadRoots_canonical (ite_canonical hs4 (endHold_canonical (cameBack_canonical hs4)))
      exact ite_canonical (acquireOid_canonical hback) hback
    · exact hs4
  exact settleBoot_canonical (settleOpt_canonical (settleOpt_canonical hs5))

theorem execSwapExchange_canonical (h : Canonical s) : OutCanonical (execSwapExchange s) := by
  unfold execSwapExchange
  dsimp only
  split
  · exact ite_canonical (exchange_canonical h) h
  · exact h

theorem cutBank_canonical (h : Canonical s) : Canonical (cutBank s core bank) :=
  mk_canonical (foldl_canonical h fun _ _ h' => freeEdit_canonical h')

theorem raiseSeq_canonical (h : Canonical s) : Canonical (raiseSeq s oid).1 := by
  fun_cases raiseSeq
  · exact h
  · exact areaWrite_canonical h

theorem spill_canonical (h : Canonical s) : Canonical (spill s core oid).1 := by
  fun_cases spill
  · exact raiseSeq_canonical (areaWrites_canonical (cutBank_canonical h))
  · exact areaWrites_canonical (cutBank_canonical h)

theorem execSpillComplete_canonical (h : Canonical s) : OutCanonical (execSpillComplete s) := by
  unfold execSpillComplete
  dsimp only
  split
  · exact h
  split
  · exact settleCtx_canonical (setBankOf_canonical (spill_canonical h))
  · exact spill_canonical h
  · exact h

theorem suspendQueues_canonical (h : Canonical s) : Canonical (suspendQueues s oid) := by
  fun_cases suspendQueues
  · exact h
  · exact foldl_canonical h fun _ _ h' => ite_canonical (setReadPos_canonical h') (setQState_canonical (setReadPos_canonical h'))

theorem failCtx_canonical (h : Canonical s) : Canonical (failCtx s oid) := by
  fun_cases failCtx
  · exact setCtxState_canonical (suspendQueues_canonical h)
  · exact hostRecord_canonical (setCtxState_canonical (suspendQueues_canonical h))

theorem execSpillError_canonical (h : Canonical s) : OutCanonical (execSpillError s) := by
  unfold execSpillError
  dsimp only
  split
  · exact h
  · exact ite_canonical (failCtx_canonical (setBankOf_canonical (spill_canonical h))) h

theorem flushOid_canonical (h : Canonical s) : Canonical (flushOid s oid) :=
  foldl_canonical h fun _ _ h' => eachLine_canonical h' fun _ _ _ h2 => flushLine_canonical h2

theorem forgetCtx_canonical {s : State} {oid : Nat} (h : Canonical s) : Canonical (forgetCtx s oid) := by
  fun_cases forgetCtx
  · exact h
  · exact setCtx_canonical (setPart_canonical (mk_canonical (mapCores_canonical h fun _ hc => hc)))

theorem execCtxSaveComplete_canonical (h : Canonical s0) : OutCanonical (execCtxSaveComplete oid s0) := by
  unfold execCtxSaveComplete
  extract_lets s s1
  have hs : Canonical s := payWord_canonical (payQueues_canonical h)
  split
  · exact hs
  refine ite_canonical hs (ite_canonical (forgetCtx_canonical (setCtx_canonical hs)) (ite_canonical hs ?_))
  extract_lets a w
  have ha : Canonical a.1 := areaWrites_canonical (flushOid_canonical (mk_canonical hs))
  split
  · have hw : Canonical w.1 := areaWrite_canonical ha
    split
    · exact forgetCtx_canonical (setCtx_canonical hw)
    · exact failCtx_canonical hw
    · exact hw
  · exact ha
  · exact failCtx_canonical ha

theorem dropRefused_canonical (h : Canonical s) : Canonical (dropRefused s oid) :=
  foldl_canonical (hostWakes_canonical h) fun _ _ h' => giveUpPeer_canonical h'

theorem startSave_canonical (h : Canonical s0) : Canonical (startSave s0 oid) := by
  refine settleBoot_canonical (foldl_canonical (setCtxState_canonical (suspendQueues_canonical ?_)) fun _ _ h' => ite_canonical
    (dropBank_canonical h') h')
  split
  · exact dropRefused_canonical h
  · exact h

theorem execCtxSave_canonical {f : SYS} (h : Canonical s) : OutCanonical (execCtxSave f s) := by
  refine issue_canonical h fun _ _ _ h' => once_canonical h' fun _ _ _ h2 => ?_
  dsimp only
  split
  · exact lateIllegal_canonical h2
  split
  · exact writeS_canonical h2
  split
  · exact writeS_canonical h2
  split
  · exact writeS_canonical h2
  split
  · exact writeS_canonical h2
  split
  · exact setCtx_canonical (writeS_canonical h2)
  · exact startSave_canonical (writeS_canonical h2)

theorem dropOld_canonical {s : State} {oid : Nat} (h : Canonical s) : Canonical (dropOld s oid) :=
  mk_canonical (filterGangs_canonical h)

theorem cursorJobs_canonical {old l : List Entry} (h : Canonical s) : Canonical (cursorJobs oid bs old n l s).1 := by
  fun_induction cursorJobs
  · exact h
  case case2 ih => exact ih h
  case case3 ih => exact ih h
  · exact partRead_canonical h
  case case5 ih => exact ih (mk_canonical (partRead_canonical h))
  case case6 ih => exact ih (partRead_canonical h)

theorem readCursors_canonical {old : List Entry} (h : Canonical s) : Canonical (readCursors s oid old).1 := by
  fun_cases readCursors
  · exact areaRead_canonical h
  · exact cursorJobs_canonical (areaRead_canonical h)

theorem issueJobs_canonical {es : List Entry} (h : Canonical s) : Canonical (issueJobs s oid es) :=
  foldl_canonical h fun _ _ h' => modQueue_canonical h'

theorem setWindow_canonical {w : List Entry} (h : Canonical s) : Canonical (setWindow s oid w) := by fun_cases setWindow <;> exact h

theorem bringQueues_canonical (h : Canonical s) : Canonical (bringQueues s oid) := by
  fun_cases bringQueues
  · exact setListDue_canonical (readCursors_canonical h)
  · exact readQueues_canonical (setWindow_canonical (readCursors_canonical h))
  · exact setWindow_canonical (readQueues_canonical (setWindow_canonical (readCursors_canonical h)))
  · exact foldl_canonical (issueJobs_canonical (readQueues_canonical (setWindow_canonical (readCursors_canonical h)))) fun _ _ h' =>
      queueStep_canonical h'

theorem loadCtx_canonical {area : Nat} (h : Canonical s) : Canonical (loadCtx s area bs) :=
  bringQueues_canonical (setCtxState_canonical (setCtx_canonical (ite_canonical h (dropOld_canonical h))))

theorem execCtxLoad_canonical {f : SYS} (h : Canonical s) : OutCanonical (execCtxLoad f s) := by
  refine issue_canonical h fun _ _ _ h' => once_canonical h' fun _ _ _ h2 => ?_
  dsimp only
  split
  · exact lateIllegal_canonical h2
  split
  · exact h2
  split
  · split
    · exact partRead_canonical h2
    split
    · split
      · exact writeS_canonical (partRead_canonical h2)
      · exact loadCtx_canonical (writeS_canonical (partRead_canonical h2))
    split
    · exact writeS_canonical (partRead_canonical h2)
    · exact loadCtx_canonical (writeS_canonical (partRead_canonical h2))
  split
  · exact partRead_canonical h2
  split
  · split
    · exact writeS_canonical (partRead_canonical h2)
    · exact loadCtx_canonical (writeS_canonical (partRead_canonical h2))
  split
  · exact writeS_canonical (partRead_canonical h2)
  · exact loadCtx_canonical (writeS_canonical (partRead_canonical h2))

theorem retryCtx_canonical (h : Canonical s) : Canonical (retryCtx s oid) := by
  fun_cases retryCtx
  case case1 => exact bringQueues_canonical (payWord_canonical (payQueues_canonical h))
  all_goals exact payWord_canonical (payQueues_canonical h)

theorem retryAll_canonical (h : Canonical s) : Canonical (retryAll s) := foldl_canonical h fun _ _ h' => retryCtx_canonical h'

theorem execTailAdvanceObserved_canonical (h : Canonical s) : OutCanonical (execTailAdvanceObserved oid queue s) := by
  unfold execTailAdvanceObserved
  split
  · exact h
  split
  · exact bringQueues_canonical h
  split
  · exact h
  split
  · exact h
  split
  · exact queueStep_canonical h
  · exact ite_canonical (ite_canonical (modQueue_canonical h) (faultQueue_canonical (modQueue_canonical h)))
      (ite_canonical (resumeQueue_canonical (modQueue_canonical (modQueue_canonical h)))
      (queueStep_canonical (modQueue_canonical (modQueue_canonical h))))

/-! ## Machine/Control.lean -/

theorem jumpTo_canonical {target : W64} (h : Canonical s) : (jumpTo s k t target).Canonical := by fun_cases jumpTo <;> exact h

theorem execBrc_canonical {f : BR} (h : Canonical s) : OutCanonical (execBrc f s) := by
  refine issue_canonical h fun _ _ _ h' => ?_
  split <;> exact h'

theorem execExit_canonical (h : Canonical s) : OutCanonical (execExit f s) := by
  refine issue_canonical h fun _ _ _ h' => ?_
  dsimp only
  split <;> exact h'

theorem execSleep_canonical {f : VI} (h : Canonical s) : OutCanonical (execSleep f s) := by
  refine issue_canonical h fun _ _ _ h' => ?_
  split <;> exact h'

theorem setE_canonical {op : Team → Mask} (h : Canonical s) : OutCanonical (setE i op s) := issue_canonical h fun _ _ _ h' => h'

/-! ## Machine/Kernel.lean -/

theorem admitCode_canonical {s : State} {k : Kernel} (h : Canonical s) : Canonical (admitCode s k).1 := by
  have hr : Canonical (if k.pkt.digest then partPa s k.oid (xva k.pkt.digestRec) (accR + accW) else (s, .at 0)).1 := by
    split
    · exact partPa_canonical h
    · exact h
  fun_cases admitCode
  case case4 | case5 | case6 => exact hr
  all_goals exact h

theorem rejectKernel_canonical {k : Kernel} (h : Canonical s) : Canonical (rejectKernel s kid k code) :=
  faultQueue_canonical (unread_canonical h)

theorem admitKernel_canonical {k : Kernel} (h : Canonical s) : Canonical (admitKernel s kernel k) := by
  fun_cases admitKernel <;> exact h

theorem execKernelAdmission_canonical (h : Canonical s) : OutCanonical (execKernelAdmission kernel s) := by
  unfold execKernelAdmission
  split
  · exact h
  split
  · exact h
  dsimp only
  split
  · exact admitCode_canonical h
  · exact queueStep_canonical (admitKernel_canonical (admitCode_canonical h))
  · exact rejectKernel_canonical (admitCode_canonical h)

theorem setFused_canonical {fused : Bool} (h : Canonical s) : Canonical (setFused s cl fused) := by
  fun_cases setFused
  · exact h
  · exact setCluster_canonical (foldl_canonical h fun _ _ h' => eachLine_canonical h' fun _ _ _ h2 => flushLine_canonical h2)

theorem placeTeams_canonical {k : Kernel} {gid : Nat} (h : Canonical s) : Canonical (placeTeams k kid gid l n s) := by
  fun_induction placeTeams
  · exact h
  case case2 ih => exact ih (setCore_canonical h (core_opmem h _))

theorem placeGang_canonical {k : Kernel} {places : List (Nat × Nat)} (h : Canonical s) : Canonical (placeGang s kid k cl places) :=
  queueStep_canonical (setKernel_canonical (placeTeams_canonical (setGang_canonical (mk_canonical (setFused_canonical h)) rfl)))

theorem execGangPlacement_canonical (h : Canonical s) : OutCanonical (execGangPlacement s) := by
  unfold execGangPlacement
  split
  · exact placeGang_canonical h
  · exact h

theorem foldDigest_canonical (h : Canonical s) : Canonical (foldDigest s t) := by fun_cases foldDigest <;> exact h

/-- The scratchpad of a gang on a core that it leaves, unless a halo copy still reads it. -/
theorem dropScratch_canonical {s : State} {core g : Nat} (h : Canonical s) :
    Canonical { s with
      gangs := if haloReads s g core then s.gangs
        else s.gangs.modify g fun x => { x with mem := x.mem.filter fun c => decide (c.1 / 2 ^ 20 ≠ core) } } := by
  split
  · exact h
  · exact modGang_canonical h fun _ hx => Memory.wf_filter _ _ hx

theorem leaveGang_canonical {s : State} {core : Nat} {t : Team} (h : Canonical s) : Canonical (leaveGang s core t) := by
  unfold leaveGang
  extract_lets s0 mine s1 s2
  have hs0 : Canonical s0 := modGang_canonical h fun _ hg => hg
  have hs1 : Canonical s1 := ite_canonical hs0 (mk_canonical (dropScratch_canonical hs0))
  have hs2 : Canonical s2 := ite_canonical hs1 hs1
  exact ite_canonical (filterGangs_canonical hs2) hs2

theorem scratchExit_canonical {level : Nat × Nat} (h : Canonical s) : Canonical (scratchExit s k t level) := by
  fun_cases scratchExit
  case case3 => exact killGang_canonical (hostRecord_canonical h)
  case case4 => exact killKernel_canonical (hostRecord_canonical h)
  case case5 => exact killCtx_canonical (hostRecord_canonical h)
  all_goals exact hostRecord_canonical h

theorem execExitPerformed_canonical (h : Canonical s) : OutCanonical (execExitPerformed core slot s) := by
  unfold execExitPerformed
  split
  · exact h
  split
  · exact h
  refine ite_canonical h ?_
  extract_lets level s1 s2 s3 s4 s5
  have hs1 : Canonical s1 :=
    foldl_canonical (freeEdit_canonical h) fun _ _ h' => eachLine_canonical h' fun _ _ _ h2 => writeBack_canonical h2
  have hs4 : Canonical s4 := leaveGang_canonical (mk_canonical (foldDigest_canonical hs1))
  have hs5 : Canonical s5 := ite_canonical (setFused_canonical hs4) hs4
  exact ite_canonical hs5 (scratchExit_canonical hs5)

theorem releaseSlots_canonical {s : State} {kid : Nat} (h : Canonical s) : Canonical (releaseSlots s kid) :=
  mapCores_canonical h fun _ hc => hc

theorem endKernel_canonical {k : Kernel} (h : Canonical s) : Canonical (endKernel s kid k) :=
  commandDone_canonical (releaseSlots_canonical h)

theorem digestRecord_canonical {k : Kernel} (h : Canonical s) : Canonical (digestRecord s k).1 := by
  fun_cases digestRecord
  case case3 => exact engineRecord_canonical (partPa_canonical h)
  case case4 => exact homePutNat_canonical (homePutNat_canonical (partPa_canonical h))
  case case5 => exact hostRecord_canonical (homePutNat_canonical (homePutNat_canonical (partPa_canonical h)))
  case case6 => exact homePutNat_canonical (homePutNat_canonical (partPa_canonical h))
  all_goals exact partPa_canonical h

theorem execKernelRetirement_canonical (h : Canonical s) : OutCanonical (execKernelRetirement kernel s) := by
  unfold execKernelRetirement
  split
  · exact h
  split
  · exact h
  split
  · dsimp only
    split
    · exact setKernel_canonical (digestRecord_canonical h)
    · exact digestRecord_canonical h
    · exact endKernel_canonical (digestRecord_canonical h)
  · exact endKernel_canonical h

theorem setOusted_canonical {cs : List Nat} {f : Core → List Nat} (h : Canonical s) : Canonical (setOusted s cs f) :=
  foldl_canonical h fun _ _ h' => setCore_canonical h' (core_opmem h' _)

theorem takeCluster_canonical (h : Canonical s) : Canonical (takeCluster s oid cl) :=
  foldl_canonical (setOusted_canonical h) fun _ _ h' => startStage_canonical h'

theorem returnCores_canonical {cs : List Nat} (h : Canonical s) : Canonical (returnCores s o cs) :=
  foldl_canonical (setOusted_canonical h) fun _ _ h' => startStage_canonical h'

theorem execDistributorPreemption_canonical (h : Canonical s) : OutCanonical (execDistributorPreemption s) := by
  unfold execDistributorPreemption
  split
  · exact returnCores_canonical h
  split
  · exact takeCluster_canonical h
  · exact h

/-! ## Machine/Jobs.lean -/

theorem setJob_canonical {old new : Entry} (h : Canonical s) : Canonical (setJob s oid old new) := by fun_cases setJob <;> exact h

theorem jobFault_canonical {e : Entry} {engine : Nat} (h : Canonical s) : Canonical (jobFault s oid e engine reason va acc leaf) :=
  faultQueueBy_canonical
    (unread_canonical (setJob_canonical (ite_canonical (modQueue_canonical (engineRecord_canonical h)) (engineRecord_canonical h))))

theorem jobAdvance_canonical {e : Entry} {progress total : Nat} (h : Canonical s) :
    Canonical (jobAdvance s oid e progress total) := by
  fun_cases jobAdvance
  · exact commandDone_canonical h
  · exact setJob_canonical h

theorem jobWrite_canonical {l : List (Nat × Nat × Nat)} {r : List Byte} (h : Canonical s) : Canonical (jobWrite s l r).1 := by
  fun_induction jobWrite
  · exact h
  case case2 ih => exact ih (homeWrite_canonical h)

theorem spanAll_canonical (h : Canonical s) : Canonical (spanAll code cl oid acc l s).1 := by
  fun_induction spanAll
  case case1 => exact h
  case case3 ih => exact ih (engineSpan_canonical h)
  case case4 ih => exact ih (engineSpan_canonical h)
  all_goals exact engineSpan_canonical h

theorem execCopyJob_canonical (h : Canonical s) : OutCanonical (execCopyJob job s) := by
  unfold execCopyJob
  split
  · exact h
  dsimp only
  split
  · split
    · exact jobFault_canonical (spanAll_canonical h)
    · exact spanAll_canonical h
  split
  · split
    · exact jobFault_canonical (spanAll_canonical (spanAll_canonical h))
    · exact spanAll_canonical (spanAll_canonical h)
  split
  · exact jobFault_canonical (jobWrite_canonical (spanAll_canonical (spanAll_canonical h)))
  · exact jobAdvance_canonical (jobWrite_canonical (spanAll_canonical (spanAll_canonical h)))

theorem windowWriteRow_canonical {x : State × Option Nat} {ps : List (Nat × Nat × Nat)} (h : Canonical x.1) :
    Canonical (windowWriteRow x ps bs).1 :=
  jobWrite_canonical h

theorem gatherWindow_canonical {rows : Nat} {trow drow : Nat → Nat} {ts ds : List (Nat × List (Nat × Nat × Nat))}
    {pos : List (Nat × Nat)} (h : Canonical s) : Canonical (gatherWindow bytes rows trow drow ts ds pos s).1 :=
  foldl_fst_canonical h fun _ _ h' => foldl_fst_canonical h' fun _ _ h2 => windowWriteRow_canonical h2

theorem scatterWindow_canonical {float : Bool} {rows : Nat} {trow drow : Nat → Nat} {ts ds : List (Nat × List (Nat × Nat × Nat))}
    {pos : List (Nat × Nat)} (h : Canonical s) : Canonical (scatterWindow float rows trow drow ts ds pos s).1 := by
  refine foldl_fst_canonical h fun _ _ h' => ?_
  split
  · exact h'
  · exact windowWriteRow_canonical h'

theorem execGatherJob_canonical (h : Canonical s) : OutCanonical (execGatherJob job s) := by
  unfold execGatherJob
  split
  · exact h
  dsimp only
  split
  · split
    · exact jobFault_canonical (spanAll_canonical h)
    · exact spanAll_canonical h
  split
  · split
    · exact jobFault_canonical (spanAll_canonical (spanAll_canonical h))
    · exact spanAll_canonical (spanAll_canonical h)
  split
  · split
    · exact jobFault_canonical (spanAll_canonical (spanAll_canonical (spanAll_canonical h)))
    · exact spanAll_canonical (spanAll_canonical (spanAll_canonical h))
  split
  · refine jobFault_canonical ?_
    split
    · exact gatherWindow_canonical (spanAll_canonical (spanAll_canonical (spanAll_canonical h)))
    · exact scatterWindow_canonical (spanAll_canonical (spanAll_canonical (spanAll_canonical h)))
  refine jobAdvance_canonical ?_
  split
  · exact gatherWindow_canonical (spanAll_canonical (spanAll_canonical (spanAll_canonical h)))
  · exact scatterWindow_canonical (spanAll_canonical (spanAll_canonical (spanAll_canonical h)))

/-! ## Machine/Sched.lean -/

theorem countLosses_canonical {win : Nat} {cs : List (Nat × Team)} (h : Canonical s) : Canonical (countLosses s win cs) :=
  foldl_canonical h fun _ _ h' => h'

theorem beforeIssue_canonical {s s' : State} {k : Nat} {t : Team} {hdr : W64} (h : Canonical s)
    (hs : beforeIssue s k t hdr = some s') : Canonical s' := by
  revert hs
  fun_cases beforeIssue
  · rintro ⟨⟩
    exact deliver_canonical h
  · rintro ⟨⟩
    exact deliverHeld_canonical h
  · exact nofun

theorem learnCct_canonical (h : Canonical s) : Canonical (learnCct s k t) := by
  fun_cases learnCct
  · exact h
  · exact learn_canonical h

theorem takePipe_canonical (h : Canonical s) : Canonical (takePipe s k t) := by
  fun_cases takePipe
  · exact bumpCounter_canonical h
  · exact setCore_canonical (learnCct_canonical h) (core_opmem (learnCct_canonical h) _)

theorem arbitrate_canonical (h : Canonical s) : Canonical (arbitrate s core pipe) := by
  fun_cases arbitrate
  case case3 => exact countLosses_canonical h
  case case4 => exact takePipe_canonical (countLosses_canonical h)
  all_goals exact h

theorem clauseFault_canonical (h : Canonical s) : Canonical (clauseFault s k t bits addr word) := by
  fun_cases clauseFault
  · exact setTeam_canonical (freePipe_canonical h)
  · exact deliver_canonical (setTeam_canonical (freePipe_canonical h))

theorem fetchFail_canonical (h : Canonical s) : Canonical (fetchFail s k t va reason leaf) := by
  fun_cases fetchFail
  · exact clauseFault_canonical h
  · exact clauseFault_canonical (pageRecord_canonical h)
  · exact hostWait_canonical (filteredRecord_canonical h)

theorem fetchPage_canonical (h : Canonical s) : (fetchPage s k t va).Canonical := by
  fun_cases fetchPage
  case case2 => exact xlat_canonical h
  case case3 => exact leafWait_canonical (xlat_canonical h)
  case case4 => exact leafWait_canonical (wantPageIn_canonical (xlat_canonical h))
  all_goals exact fetchFail_canonical (xlat_canonical h)

theorem takeClause_canonical {s : State} {k : Nat} {t : Team} {hdr : W64} {words : List W64} (h : Canonical s) :
    Canonical (takeClause s k t hdr words) := by
  fun_cases takeClause
  · exact clauseFault_canonical h
  · exact freePipe_canonical h
  · exact completeClause_canonical (setTeam_canonical h)
  · exact beforeIssue_canonical h ‹_›
  · exact h

theorem fetchClause_canonical (h : Canonical s) : Canonical (fetchClause s k t) := by
  fun_cases fetchClause
  case case1 => exact clauseFault_canonical h
  case case2 => exact (fetchPage_canonical h).stop ‹_›
  case case5 => exact takeClause_canonical ((fetchPage_canonical h).got ‹_›)
  case case6 => exact (fetchPage_canonical ((fetchPage_canonical h).got ‹_›)).stop ‹_›
  case case7 => exact fetchFail_canonical ((fetchPage_canonical ((fetchPage_canonical h).got ‹_›)).got ‹_›)
  case case8 => exact takeClause_canonical ((fetchPage_canonical ((fetchPage_canonical h).got ‹_›)).got ‹_›)
  all_goals exact fetchFail_canonical ((fetchPage_canonical h).got ‹_›)

theorem execClauseFetch_canonical (h : Canonical s) : OutCanonical (execClauseFetch s) := by
  unfold execClauseFetch
  split
  · exact h
  split
  · exact h
  · exact ite_canonical (fetchClause_canonical h) h

theorem execSleepWake_canonical (h : Canonical s) : OutCanonical (execSleepWake core slot s) := by
  unfold execSleepWake
  dsimp only
  split
  · exact h
  · exact ite_canonical h h

theorem execWaitWake_canonical (h : Canonical s) : OutCanonical (execWaitWake core slot s) := by
  unfold execWaitWake
  dsimp only
  split
  · exact h
  · exact ite_canonical h h

theorem illegalWord_canonical (h : Canonical s) : Canonical (illegalWord s) := by
  fun_cases illegalWord
  case case3 => exact decodeFault_canonical h
  all_goals exact h

theorem disarm_canonical (h : Canonical s) : Canonical (disarm s core) := by
  fun_cases disarm
  · exact h
  · exact mk_canonical (setCore_canonical h (core_opmem h _))

theorem beginTurn_canonical (h : Canonical s) : Canonical (beginTurn s core p) :=
  mk_canonical (setCore_canonical h (core_opmem h _))

theorem idleFor_canonical (h : Canonical s) : Canonical (idleFor s core) := setCore_canonical h (core_opmem h _)

theorem execTimeSliceTurnEnd_canonical (h : Canonical s) : OutCanonical (execTimeSliceTurnEnd s) := by
  unfold execTimeSliceTurnEnd
  dsimp only
  split
  · exact disarm_canonical h
  · exact ite_canonical h
      (ite_canonical (beginTurn_canonical h)
      (ite_canonical h (ite_canonical (requestSwap_canonical (beginTurn_canonical h))
      (ite_canonical (beginTurn_canonical h) (ite_canonical (requestSwap_canonical (beginTurn_canonical h))
      (idleFor_canonical (beginTurn_canonical h)))))))

/-! ## Machine/Link.lean -/

theorem failJob_canonical {j : Nat × Nat × Nat} (h : Canonical s) : Canonical (failJob s id j reason) := by
  fun_cases failJob
  · exact jobFault_canonical h
  · exact h

theorem failRequest_canonical (h : Canonical s) : Canonical (failRequest s id r) := by
  fun_cases failRequest
  · exact failJob_canonical h
  · exact failPeer_canonical h

theorem refuseRequest_canonical (h : Canonical s) : Canonical (refuseRequest s id r) := by
  fun_cases refuseRequest
  · exact failJob_canonical h
  · exact refusePeer_canonical h

theorem failPort_canonical {all : Bool} (h : Canonical s) : Canonical (failPort s port all) :=
  foldl_canonical h fun _ _ h' => failRequest_canonical h'

theorem sendWaiting_canonical (h : Canonical s) : Canonical (sendWaiting s port) :=
  foldl_canonical h fun _ _ h' => mk_canonical (sendFlit_canonical h')

theorem leaveReplicas_canonical (h : Canonical s) : Canonical (leaveReplicas s port) := h

theorem setPState_canonical {st : PState} {lanes : Nat} (h : Canonical s) : Canonical (setPState s port st lanes) := by
  fun_cases setPState
  case case1 => exact h
  case case4 => exact failPort_canonical (ite_canonical (leaveReplicas_canonical h) h)
  case case5 => exact failPort_canonical (ite_canonical (leaveReplicas_canonical h) h)
  all_goals exact sendWaiting_canonical (ite_canonical (leaveReplicas_canonical h) h)

theorem modPort_canonical {f : Port → Port} (h : Canonical s) : Canonical (modPort s port f) := h

theorem portEnable_canonical (h : Canonical s) : Canonical (portEnable s port) := by
  fun_cases portEnable
  · exact setPState_canonical (modPort_canonical h)
  · exact modPort_canonical h

theorem portDisable_canonical (h : Canonical s) : Canonical (portDisable s port) := setPState_canonical (modPort_canonical h)

theorem portRetrain_canonical (h : Canonical s) : Canonical (portRetrain s port) := by
  fun_cases portRetrain
  · exact setPState_canonical h
  · exact h

theorem portFence_canonical (h : Canonical s) : Canonical (portFence s port) := by
  fun_cases portFence
  · exact setPState_canonical (modPort_canonical h)
  · exact modPort_canonical h

theorem replicaFence_canonical (h : Canonical s) : Canonical (replicaFence s port) := setPState_canonical (modPort_canonical h)

theorem portUnfence_canonical (h : Canonical s) : Canonical (portUnfence s port) := by
  fun_cases portUnfence
  · exact setPState_canonical (modPort_canonical h)
  · exact modPort_canonical h

theorem execPortTrainingComplete_canonical {lanes : Nat} (h : Canonical s) : OutCanonical (execPortTrainingComplete port lanes s) :=
  ite_canonical h (ite_canonical (setPState_canonical h) (ite_canonical (setPState_canonical h) h))

theorem replayFlit_canonical {which : List Byte → Bool} (h : Canonical s) : Canonical (replayFlit s port which) := by
  fun_cases replayFlit
  case case2 => exact portFence_canonical h
  all_goals exact h

theorem inboundRead_canonical {f : Nat → Nat → Nat} (h : Canonical s) : Canonical (inboundRead s port f) := by
  fun_cases inboundRead <;> exact sendFlit_canonical h

theorem inboundWrite_canonical {f : Nat → Nat → Nat} (h : Canonical s) : Canonical (inboundWrite s port f) := by
  fun_cases inboundWrite
  · exact sendFlit_canonical h
  · exact sendFlit_canonical (homeWrite_canonical h)

theorem inboundAtomic_canonical {f : Nat → Nat → Nat} (h : Canonical s) : Canonical (inboundAtomic s port f) := by
  fun_cases inboundAtomic
  case case3 => exact sendFlit_canonical (ite_canonical (homePutNat_canonical h) h)
  case case4 => exact sendFlit_canonical (ite_canonical (homePutNat_canonical h) h)
  all_goals exact sendFlit_canonical h

theorem peerCas_canonical (h : Canonical s) : Canonical (peerCas s id r bs) := by
  fun_cases peerCas
  · exact digestAnswer_canonical (setD_canonical h)
  · exact digestAnswer_canonical h
  · exact h

theorem peerAcquire_canonical (h : Canonical s) : Canonical (peerAcquire s r) := by
  fun_cases peerAcquire
  case case1 => exact acquire_canonical h
  all_goals exact h

theorem peerData_canonical (h : Canonical s) : Canonical (peerData s port bs) := by
  fun_cases peerData
  · exact h
  · refine peerAcquire_canonical ?_
    dsimp +zetaDelta only
    split
    · exact mk_canonical (peerCas_canonical h)
    · exact storeDone_canonical (peerCas_canonical h)
    · exact peerCas_canonical h

theorem jobAcked_canonical (h : Canonical s) : Canonical (jobAcked s oid queue seq n) := by fun_cases jobAcked <;> exact h

theorem peerAck_canonical (h : Canonical s) : Canonical (peerAck s port) := by
  fun_cases peerAck
  · exact h
  · refine peerAcquire_canonical ?_
    dsimp +zetaDelta only
    split
    · exact jobAcked_canonical h
    · exact storeDone_canonical h
    · exact h

theorem peerNack_canonical (h : Canonical s) : Canonical (peerNack s port code seq) := by
  fun_cases peerNack
  · exact replayFlit_canonical h
  · exact h
  · exact refuseRequest_canonical h
  · exact failRequest_canonical h

theorem deliverFlit_canonical {f : Nat → Nat → Nat} (h : Canonical s) : Canonical (deliverFlit s port kind f) := by
  fun_cases deliverFlit
  · exact inboundRead_canonical h
  · exact inboundWrite_canonical h
  · exact inboundAtomic_canonical h
  · exact peerData_canonical h
  · exact peerAck_canonical h
  · exact peerNack_canonical h
  · exact modPort_canonical h
  · exact h

theorem takeFlit_canonical (h : Canonical s) : Canonical (takeFlit s port flit) := by
  fun_cases takeFlit
  · exact deliverFlit_canonical (modPort_canonical h)
  · exact modPort_canonical h

theorem takeEarly_canonical (h : Canonical s) : Canonical (takeEarly port n s) := by
  fun_induction takeEarly
  case case2 ih => exact ih (takeFlit_canonical (modPort_canonical h))
  all_goals exact h

theorem askAgain_canonical (h : Canonical s) : Canonical (askAgain s port) := by
  fun_cases askAgain
  · exact sendFlit_canonical h
  · exact h

theorem orderFlit_canonical (h : Canonical s0) : Canonical (orderFlit s0 port flit) := by
  fun_cases orderFlit
  · exact takeFlit_canonical (modPort_canonical h)
  · exact takeEarly_canonical (takeFlit_canonical (modPort_canonical h))
  · exact askAgain_canonical (takeEarly_canonical (takeFlit_canonical (modPort_canonical h)))
  · exact modPort_canonical h
  · exact modPort_canonical (modPort_canonical h)
  · exact askAgain_canonical (modPort_canonical h)

theorem badFlit_canonical (h : Canonical s) : Canonical (badFlit s port flit) := askAgain_canonical (modPort_canonical h)

theorem execFlitReceive_canonical {flit : List (BitVec 8)} (h : Canonical s) : OutCanonical (execFlitReceive port flit s) :=
  ite_canonical h (ite_canonical (ite_canonical (badFlit_canonical h) h) (ite_canonical (orderFlit_canonical h) h))

theorem execCollectivePut_canonical (h : Canonical s) : OutCanonical (execCollectivePut job s) := by
  unfold execCollectivePut
  split
  · exact h
  dsimp only
  split
  · exact h
  split
  · exact jobFault_canonical h
  split
  · exact h
  split
  · split
    · exact engineSpan_canonical h
    · exact jobFault_canonical (engineSpan_canonical h)
    split
    · exact jobFault_canonical (engineSpan_canonical h)
    split
    · exact jobFault_canonical (engineSpan_canonical h)
    · exact ite_canonical (askPeer_canonical (engineSpan_canonical h)) (askPeer_canonical (engineSpan_canonical h))
  split
  · exact commandDone_canonical h
  split
  · exact jobFault_canonical h
  · exact askPeer_canonical h

theorem replicaDigest_canonical {e : Entry} (h : Canonical s) : Canonical (replicaDigest s oid e).1 := by
  fun_cases replicaDigest <;> exact engineSpan_canonical h

theorem replicaEnd_canonical {e : Entry} {own : Nat} {serial : Bool} {partner : Option (Nat × Nat × Nat)} (h : Canonical s) :
    Canonical (replicaEnd s oid e own serial partner) := by
  fun_cases replicaEnd
  · exact engineSpan_canonical h
  · exact jobFault_canonical (engineSpan_canonical h)
  · exact jobFault_canonical (jobWrite_canonical (engineSpan_canonical h))
  · exact commandDone_canonical
      (ite_canonical
      (hostRecord_canonical (replicaFence_canonical (modPort_canonical (jobWrite_canonical (engineSpan_canonical h)))))
      (modPort_canonical (jobWrite_canonical (engineSpan_canonical h))))

theorem replicaRun_canonical {e : Entry} {timeout : Bool} (h : Canonical s) : Canonical (replicaRun s oid e timeout) := by
  fun_cases replicaRun
  case case2 => exact h
  case case5 => exact h
  case case6 => exact h
  case case7 => exact jobFault_canonical (replicaDigest_canonical h)
  case case8 => exact replicaDigest_canonical h
  case case9 => exact replicaEnd_canonical (replicaDigest_canonical h)
  case case10 => exact setJob_canonical (sendFlit_canonical (replicaDigest_canonical h))
  all_goals exact replicaEnd_canonical h

theorem replicaJob_canonical {timeout : Bool} (h : Canonical s) : Canonical (replicaJob s job timeout) := by
  fun_cases replicaJob
  case case2 => exact replicaRun_canonical h
  all_goals exact h

/-! ## Machine/Observe.lean -/

theorem allAbs_canonical {s : State} (h : Canonical s) : Canonical (allAbs s) := by
  unfold allAbs
  generalize List.range 64 = l
  exact { h with opmem := absNext_opmem h.opmem }

theorem carCtl_canonical (h : Canonical s) : Canonical (carCtl s v) := by
  fun_cases carCtl
  case case2 => exact allAbs_canonical h
  all_goals exact h

theorem sweepCore_canonical (h : Canonical s) : Canonical (sweepCore s core) :=
  carRecord_canonical (setCore_canonical h (core_opmem h _))

theorem sweepAll_canonical (h : Canonical s) : Canonical (sweepAll s) := foldl_canonical h fun _ _ h' => sweepCore_canonical h'

theorem markers_canonical {new old cause : Nat} (h : Canonical s) : Canonical (markers s new old cause) :=
  allAbs_canonical (ite_canonical (foldl_canonical h fun _ _ h' => carRecord_canonical h') h)

theorem fireGong_canonical (h : Canonical s) : Canonical (fireGong s) := by fun_cases fireGong <;> exact h
theorem latchGong_canonical (h : Canonical s) : Canonical (latchGong s) := by fun_cases latchGong <;> exact h

theorem gongRecords_canonical (h : Canonical s) : Canonical (gongRecords s) :=
  mk_canonical (ite_canonical (foldl_canonical (ite_canonical (sweepAll_canonical h) h) fun _ _ h' => carRecord_canonical h')
    (ite_canonical (sweepAll_canonical h) h))

theorem passTime_canonical {ticks cycles : Nat} (h : Canonical s) : Canonical (passTime s ticks cycles) := passCycles_canonical h

theorem settleTick_canonical (h : Canonical s) : Canonical (settleTick s) := by
  fun_cases settleTick
  · exact gongRecords_canonical h
  · exact sweepAll_canonical h
  · exact h

theorem advanceTime_canonical {ticks cycles : Nat} (h : Canonical s) : Canonical (advanceTime s ticks cycles) := by
  fun_cases advanceTime
  · exact passTime_canonical h
  · exact latchGong_canonical (passTime_canonical (settleTick_canonical h))

theorem execDgst_canonical {f : SYS} (h : Canonical s) : OutCanonical (execDgst f s) := by
  refine issue_canonical h fun _ _ _ h' => once_canonical h' fun _ _ _ h2 => ?_
  split
  · exact writeS_canonical h2
  · exact h2

/-! ## Machine/HostPart.lean -/

theorem dropWrite_canonical (h : Canonical s) : Canonical (dropWrite s p) := h

theorem coresWrite_canonical (h : Canonical s) : Canonical (coresWrite s p v) := by
  fun_cases coresWrite
  case case3 => exact dropWrite_canonical h
  all_goals exact h

theorem endSlices_canonical (h : Canonical s) : Canonical (endSlices s p) :=
  foldl_canonical h fun _ _ h' => ite_canonical (disarm_canonical h') h'

theorem sliceWrite_canonical (h : Canonical s) : Canonical (sliceWrite s p v) := by
  fun_cases sliceWrite
  case case2 => exact dropWrite_canonical h
  case case3 => exact endSlices_canonical h
  all_goals exact h

theorem bootRecord_canonical (h : Canonical s) : Canonical (bootRecord s p).1 := by
  fun_cases bootRecord
  case case1 => exact engineRecord_canonical h
  all_goals exact h

theorem bootGo_canonical (h : Canonical s0) : Canonical (bootGo s0 p) := by
  fun_cases bootGo
  · exact h
  · exact bootDone_canonical h
  · exact bootDone_canonical (bootRecord_canonical h)
  · exact settleBoot_canonical
      (setPart_canonical (settleCtx_canonical (foldl_canonical (loadCtx_canonical (bootRecord_canonical h)) fun _ _ h' =>
      startStage_canonical h')))

/-- A reset keeps the two memories and lists no core and no gang (log entry 8). -/
theorem execReset_canonical {s : State} (h : Canonical s) : OutCanonical (execReset s) :=
  CanonicalParts.mk h.mem h.hostMem (fun _ hc => nomatch hc) (fun _ hg => nomatch hg)

theorem checkFeatures_canonical (h : Canonical s) : Canonical (checkFeatures s) := by
  fun_cases checkFeatures
  case case3 => exact foldl_canonical h fun _ _ h' => ite_canonical (portEnable_canonical h') h'
  all_goals exact h

theorem devGo_canonical (h : Canonical s) : Canonical (devGo s) := by
  fun_cases devGo
  · exact checkFeatures_canonical h
  · exact h

theorem pfPart_canonical {ok : Bool} {q : Part} (h : Canonical s) : Canonical (pfPart s p ok q) := by
  fun_cases pfPart
  · exact h
  · exact dropWrite_canonical h

theorem alignedPart_canonical {bits : Nat} {q : Part} (h : Canonical s) : Canonical (alignedPart s p v bits q) := by
  fun_cases alignedPart <;> exact h

theorem blockWrite_canonical (h : Canonical s) : Canonical (blockWrite s pf p off v) := by
  fun_cases blockWrite
  case case1 => exact coresWrite_canonical h
  case case2 => exact pfPart_canonical h
  case case3 => exact pfPart_canonical h
  case case4 => exact sliceWrite_canonical h
  case case5 => exact pfPart_canonical h
  case case6 => exact alignedPart_canonical h
  case case8 => exact bootGo_canonical h
  all_goals exact h

theorem fbCtl_canonical (h : Canonical s) : Canonical (fbCtl s p v) := by
  fun_cases fbCtl
  · exact fbFlush_canonical (ite_canonical (fbFail_canonical h) h)
  · exact ite_canonical (fbFail_canonical h) h

theorem pageWrite_canonical (h : Canonical s) : Canonical (pageWrite s pf p off v) := by
  fun_cases pageWrite
  case case9 => exact h
  case case11 => exact h
  case case12 => exact h
  case case13 => exact h
  case case14 => exact h
  case case15 => exact fbCtl_canonical h
  case case16 => exact h
  case case17 => exact h
  case case18 => exact h
  case case19 => exact h
  all_goals exact alignedPart_canonical h

theorem pwinWrite_canonical (h : Canonical s) : Canonical (pwinWrite s pf p off v) := by
  fun_cases pwinWrite
  · exact h
  · exact alignedPart_canonical h

theorem windowWrite_canonical (h : Canonical s) : Canonical (windowWrite s pf p off v) := by
  fun_cases windowWrite
  · exact blockWrite_canonical h
  · exact pageWrite_canonical h
  · exact pwinWrite_canonical h
  · exact h

theorem startWrite_canonical (h : Canonical s) : Canonical (startWrite s off v) := by
  fun_cases startWrite
  case case5 => exact devGo_canonical h
  all_goals exact h

theorem carWrite_canonical (h : Canonical s) : Canonical (carWrite s off v) := by
  fun_cases carWrite
  case case1 => exact carCtl_canonical h
  case case8 => exact fireGong_canonical h
  all_goals exact h

theorem portCtl_canonical (h : Canonical s) : Canonical (portCtl s k v) := by
  unfold portCtl
  refine ite_canonical (modPort_canonical (portDisable_canonical h)) ?_
  extract_lets s1 s2 s3
  have hs1 : Canonical s1 := portEnable_canonical h
  have hs2 : Canonical s2 := ite_canonical (portRetrain_canonical hs1) hs1
  have hs3 : Canonical s3 := ite_canonical (portFence_canonical hs2) (modPort_canonical hs2)
  exact ite_canonical (portUnfence_canonical hs3) hs3

theorem portWrite_canonical (h : Canonical s) : Canonical (portWrite s k off v) := by
  fun_cases portWrite
  case case1 => exact portCtl_canonical h
  case case4 => exact h
  all_goals exact modPort_canonical h

theorem pfWrite_canonical (h : Canonical s) : Canonical (pfWrite s off v) := by
  fun_cases pfWrite
  · exact startWrite_canonical h
  · exact carWrite_canonical h
  · exact portWrite_canonical h
  · exact windowWrite_canonical h
  · exact h

theorem registerWrite_canonical {fn : Nat} (h : Canonical s) : Canonical (registerWrite s fn off v) := by
  fun_cases registerWrite
  · exact pfWrite_canonical h
  · exact windowWrite_canonical h
  · exact h

theorem execHostCxlMemAccess_canonical {write : Bool} {bytes : List (BitVec 8)} (h : Canonical s) :
    OutCanonical (execHostCxlMemAccess write pa bytes s) := by
  fun_cases execHostCxlMemAccess
  · exact ite_canonical (homePut_canonical h) h
  · exact trivial

/-! ## Machine/Turns.lean -/

theorem dropTurn_canonical (h : Canonical s) : Canonical (dropTurn s) := h
theorem takeTurn_canonical (h : Canonical s) : Canonical (takeTurn s core pipe) := h

theorem onEdge_canonical (h : Canonical s) : Canonical (onEdge s core pipe i) :=
  mk_canonical (ite_canonical (ite_canonical h (passTime_canonical h))
    (expireCct_canonical (ite_canonical h (passTime_canonical h))))

theorem afterPipes_canonical (h : Canonical s) : Canonical (afterPipes s) := mk_canonical (expireCct_canonical h)
theorem strikeGranule_canonical (h : Canonical s) : Canonical (strikeGranule s g) := h

/-! ## The step -/

/-- One arm per instruction and event. -/
theorem exec_canonical (h : Canonical s) : OutCanonical (exec i s) := by
  cases i with
  | bootCtlGo => exact bootGo_canonical h
  | coresWrite => exact coresWrite_canonical h
  | sliceWrite => exact sliceWrite_canonical h
  | registerWrite => exact registerWrite_canonical h
  | fbCtlFlush => exact fbFlush_canonical h
  | fbCtlFail => exact fbFail_canonical h
  | invCtlGo => exact execInvCtlGo_canonical h
  | portEnable => exact portEnable_canonical h
  | portDisable => exact portDisable_canonical h
  | portRetrain => exact portRetrain_canonical h
  | portFence => exact portFence_canonical h
  | portUnfence => exact portUnfence_canonical h
  | portTrainingComplete => exact execPortTrainingComplete_canonical h
  | portTrainingTimeout | laneLost => exact ite_canonical (setPState_canonical h) h
  | lossOfSignal => exact setPState_canonical h
  | flitReceive => exact execFlitReceive_canonical h
  | nackReplay => exact replayFlit_canonical h
  | carCtlWrite => exact carCtl_canonical h
  | dvfsChange | clockRestart => exact ite_canonical (mk_canonical (markers_canonical h)) h
  | hostCxlMemAccess => exact execHostCxlMemAccess_canonical h
  | handlerEntry => exact tryEnter_canonical h
  | sleepWake => exact execSleepWake_canonical h
  | waitWake => exact execWaitWake_canonical h
  | barWaitTimeout => exact execBarWaitTimeout_canonical h
  | swapRequest => exact execSwapRequest_canonical h
  | ctxSaveComplete => exact execCtxSaveComplete_canonical h
  | tailAdvanceObserved => exact execTailAdvanceObserved_canonical h
  | nopCommand => exact execNopCommand_canonical h
  | linkCommand => exact execLinkCommand_canonical h
  | launchCommand => exact execLaunchCommand_canonical h
  | jobCommand => exact execJobCommand_canonical h
  | waitCommand => exact execWaitCommand_canonical h
  | kernelAdmission => exact execKernelAdmission_canonical h
  | exitPerformed => exact execExitPerformed_canonical h
  | kernelRetirement => exact execKernelRetirement_canonical h
  | loadDataReturn => exact returnLoad_canonical h
  | l1Fill => exact completeFill_canonical h
  | dirtyLineTimeout => exact execDirtyLineTimeout_canonical h
  | writeBackAccepted => exact execWriteBackAccepted_canonical h
  | homeSliceAccept => exact acceptPost_canonical h
  | tlbWalk => exact execTlbWalk_canonical h
  | pageIn => exact retryAll_canonical (pageInEnd_canonical h)
  | busyLeafChange => exact retryAll_canonical (leafChange_canonical h)
  | pgInvAckComplete => exact execPgInvAckComplete_canonical h
  | slotFillComplete => exact execSlotFillComplete_canonical h
  | slotStoreComplete => exact execSlotStoreComplete_canonical h
  | ringNotify => exact execRingNotify_canonical h
  | ringCopy => exact execRingCopy_canonical h
  | ringSignal => exact execRingSignal_canonical h
  | fillRingSlotFill => exact execFillRingSlotFill_canonical h
  | haloCopy => exact execHaloCopy_canonical h
  | copyJob => exact execCopyJob_canonical h
  | gatherJob => exact execGatherJob_canonical h
  | collectivePut => exact execCollectivePut_canonical h
  | replicaExchange | replicaTimeout => exact replicaJob_canonical h
  | clusterClbPreWalk => exact execClusterClbPreWalk_canonical h
  | cymbalComplete => exact execCymbalComplete_canonical h
  | stitchEditPublish => exact execStitchEditPublish_canonical h
  | systemCallReply => exact execSystemCallReply_canonical h
  | translationRangeWord | unassignedOpcodeWord => exact illegalWord_canonical h
  | add | sub | neg | abs | min | max | clamp | mul | mulhi | mad | madw | sad | and | or | xor | andn | not | shl | shr | sar | rot
  | funnel | bfx | bfi | popc | clz | ctz | brev | perm | sel | mov | movi | moviHi | lea | sxt | zxt | dp4 | addi | andi | ori
  | fclass | relbk | pcnt | pfirst | ballot | shfl => exact issue_canonical h fun _ _ _ h' => alu_canonical h'
  | addc | subb => exact issue_canonical h fun _ _ _ h' => writeD_canonical (writeP_canonical h')
  | cmp | cmpi | pmov | vote => exact issue_canonical h fun _ _ _ h' => aluP_canonical h'
  | fadd | fsub | fmul | ffma | fmin | fmax | fminl | fmaxl | frcp | frsq | fsqrt | fexp2 | flog2 | fsin | fcos | ftanh | fscale
  | fexpo | ffract | frnd | fdot2 | fpma | cvt | qnt | dqnt => exact issue_canonical h fun _ _ _ h' => fpForm_canonical h'
  | fcmp => exact issue_canonical h fun _ _ _ h' => fpCommit_canonical h' fun _ h2 => writeP_canonical h2
  | smx => exact execSmx_canonical h
  | nop | bra | call | exitTeam | yield => exact issue_canonical h fun _ _ _ h' => h'
  | brc => exact execBrc_canonical h
  | ret | jmpi => exact issue_canonical h fun _ _ _ h' => jumpTo_canonical h'
  | exit => exact execExit_canonical h
  | mpush | pand | por | pxor | pnot => exact issue_canonical h fun _ _ _ h' => writeP_canonical h'
  | mpop | mand | mandn | melse => exact setE_canonical h
  | sleep => exact execSleep_canonical h
  | rdc => exact execRdc_canonical h
  | scan => exact issue_canonical h fun _ _ _ h' => fpCommit_canonical h' fun _ h2 => writeD_canonical h2
  | msync => exact execMsync_canonical h
  | isect => exact issue_canonical h fun _ _ _ h' => writeS_canonical (writeD_canonical h')
  | ld => exact execLd_canonical h
  | st => exact execSt_canonical h
  | ldu => exact execLdu_canonical h
  | ldsp => exact execLdsp_canonical h
  | stsp => exact execStsp_canonical h
  | atom => exact execAtom_canonical h
  | atomsp => exact execAtomsp_canonical h
  | fence => exact execFence_canonical h
  | waitaddr => exact execWaitaddr_canonical h
  | pfh => exact execPfh_canonical h
  | barInit => exact execBarInit_canonical h
  | barExpect => exact execBarExpect_canonical h
  | barArrive => exact execBarArrive_canonical h
  | barWait => exact execBarWait_canonical h
  | barTest => exact execBarTest_canonical h
  | hbarSync => exact execHbarSync_canonical h
  | hbarArrive => exact execHbarArrive_canonical h
  | hbarWait => exact execHbarWait_canonical h
  | hbarCnt => exact execHbarCnt_canonical h
  | hbarCntFree => exact execHbarCntFree_canonical h
  | rngAwait => exact execRngAwait_canonical h
  | rngRelease => exact execRngRelease_canonical h
  | seqwait => exact execSeqwait_canonical h
  | halo => exact execHalo_canonical h
  | slotClaim => exact execSlotClaim_canonical h
  | slotRelease => exact execSlotRelease_canonical h
  | slotLoad => exact execSlotLoad_canonical h
  | slotStore => exact execSlotStore_canonical h
  | slotZero => exact execSlotZero_canonical h
  | slotRd => exact execSlotRd_canonical h
  | slotWr => exact execSlotWr_canonical h
  | mma => exact execMma_canonical h
  | volLd => exact execVolLd_canonical h
  | volSt => exact execVolSt_canonical h
  | volAtom => exact execVolAtom_canonical h
  | volProbe => exact execVolProbe_canonical h
  | volAlloc => exact execVolAlloc_canonical h
  | volFree => exact execVolFree_canonical h
  | volFmt => exact execVolFmt_canonical h
  | volSync => exact execVolSync_canonical h
  | volInv | trapUser => exact issue_canonical h fun _ _ _ h' => once_canonical h' fun _ _ _ h2 => h2
  | sxPin => exact execSxPin_canonical h
  | sxUnpin => exact execSxUnpin_canonical h
  | sxLd => exact execSxLd_canonical h
  | sxSt => exact execSxSt_canonical h
  | sxNext => exact execSxNext_canonical h
  | sxLen => exact execSxLen_canonical h
  | sxWhere => exact execSxWhere_canonical h
  | sxSplice => exact execSxSplice_canonical h
  | sxAppend => exact execSxAppend_canonical h
  | sxFork => exact execSxFork_canonical h
  | sxTrunc => exact execSxTrunc_canonical h
  | hbRd => exact issue_canonical h fun _ _ _ h' => once_canonical h' fun _ _ _ h2 => writePair_canonical h2
  | hbWr => exact execHbWr_canonical h
  | hbClr | hbFrz | hbThw => exact issue_canonical h fun _ _ _ h' => once_canonical h' fun _ _ _ h2 => modHist_canonical h2
  | hbLd => exact execHbLd_canonical h
  | hbSt => exact execHbSt_canonical h
  | trapSystemCall => exact execTrapSystemCall_canonical h
  | rte => exact execRte_canonical h
  | rteUp => exact execRteUp_canonical h
  | frd => exact execFrd_canonical h
  | fwr => exact execFwr_canonical h
  | sysrd => exact execSysrd_canonical h
  | syswr => exact execSyswr_canonical h
  | pgMap => exact execPgMap_canonical h
  | pgInv => exact execPgInv_canonical h
  | ctxSwapStage => exact execCtxSwapStage_canonical h
  | ctxSwap => exact execCtxSwap_canonical h
  | ctxSwapChain => exact execCtxSwapChain_canonical h
  | ctxSwapDrop => exact execCtxSwapDrop_canonical h
  | ctxSave => exact execCtxSave_canonical h
  | ctxLoad => exact execCtxLoad_canonical h
  | clk | clkLamport => exact issue_canonical h fun _ _ _ h' => once_canonical h' fun _ _ _ h2 => writeS_canonical h2
  | dgst => exact execDgst_canonical h
  | halt => exact issue_canonical h fun _ _ _ h' => stopHeld_canonical h'
  | reset => exact execReset_canonical h
  | memoryAndLinkTrainingDone => exact ite_canonical (checkFeatures_canonical h) h
  | devCtlGo => exact devGo_canonical h
  | gong => exact ite_canonical (fireGong_canonical h) (ite_canonical h (gongRecords_canonical h))
  | carillonSweep => exact ite_canonical (sweepAll_canonical h) h
  | clockStop => exact ite_canonical h (mk_canonical (markers_canonical h))
  | clauseArbitration => exact arbitrate_canonical h
  | clauseFetch => exact execClauseFetch_canonical h
  | snhitReport => exact execSnhitReport_canonical h
  | snhitResume | snhitClear => exact writeSnHit_canonical h
  | cooperativeDeadlineExpiry => exact ite_canonical (arbitrate_canonical h) h
  | timeSliceTurnEnd => exact execTimeSliceTurnEnd_canonical h
  | swapExchange => exact execSwapExchange_canonical h
  | spillComplete => exact execSpillComplete_canonical h
  | spillError => exact execSpillError_canonical h
  | stagingComplete => exact execStagingComplete_canonical h
  | gangPlacement => exact execGangPlacement_canonical h
  | distributorPreemption => exact execDistributorPreemption_canonical h
  | matrixPassStart => exact execMatrixPassStart_canonical h
  | matrixPassComplete => exact execMatrixPassComplete_canonical h
  | stitchPageIn => exact execStitchPageIn_canonical h
  | pieceDeath => exact execPieceDeath_canonical h

theorem step_canonical (h : Canonical s) : OutCanonical (step s) := by
  fun_cases step
  · exact exec_canonical (onEdge_canonical (takeTurn_canonical h))
  · exact exec_canonical (afterPipes_canonical (takeTurn_canonical h))
  · exact advanceTime_canonical (dropTurn_canonical h)
  · exact strikeGranule_canonical (dropTurn_canonical h)

/-- Settles O59: it holds. No operation of the model takes a memory out of its canonical form, since all that write one do so byte by
byte (Memory.wf_setBytes), by dropping bytes (Memory.wf_filter), or by starting with nothing listed. -/
theorem stepKeepsMemoriesCanonical : Obligations.StepKeepsMemoriesCanonical := by
  intro s s' h hs
  have hstep : OutCanonical (step s) := step_canonical (canonical_iff.2 h)
  rw [hs] at hstep
  exact canonical_iff.1 hstep

end Sys2Proof.Machine
end

section
/-! SUPPORT. What a write of D or of a predicate leaves as it was, as statements say it (R17, R39, R40, R111, R122). -/

namespace Sys2Proof.Machine

/-- A write of registers leaves all else of the part as it was. -/
theorem RegFrame.untouched {s s1 : State} {k : Nat} {t : Team} (h : RegFrame s s1 k t) : UntouchedIf s s1 k t false := by
  obtain ⟨t1, hteam, ht1⟩ := h.own
  refine ⟨h.others, ⟨t1, hteam, by rw [ht1]; rfl, fun _ => by rw [ht1]⟩, fun _ => h.cores, fun _ => ?_, fun _ => h.stores, fun _ => h.rest⟩
  rw [h.core]; rfl

theorem RegFrame.keeps_preds {s s1 : State} {k : Nat} {t : Team} (ht : s.team k = some t) (h : RegFrame s s1 k t) : samePreds s s1 k := by
  obtain ⟨t1, hteam, ht1⟩ := h.own
  intro n _
  simp only [predOf, hteam, ht, Team.preg]
  rw [ht1]

theorem RegFrame.keeps_e {s s1 : State} {k : Nat} {t : Team} (h : RegFrame s s1 k t) : sameE s1 k t := by
  obtain ⟨t1, hteam, ht1⟩ := h.own
  exact ⟨t1, hteam, by rw [ht1]⟩

/-- D of a kind that holds no result, %zero or 511, is written nothing. -/
theorem writeD_discards (s : State) (k : Nat) (lanes : Mask) (wide : Bool) {d : Opd} (f : Nat → W64) (hv : d.isVK = false)
    (hs : d.isSK = false) : writeD s k lanes wide d f = s := by
  unfold writeD
  cases s.team k with
  | none => rfl
  | some t =>
    cases d with
    | v n | kv n => cases hv
    | s n | ks n => cases hs
    | p n | x n | rsv n | none => rfl

section
variable {s s1 : State} {k : Nat} {t : Team} {lanes : Mask} {d : Opd} {r : Mask}

/-- The lanes of a predicate destination, one by one (R122). -/
theorem WroteLanes.lane (h : WroteLanes s s1 k t lanes d r) {n : Fin 8} {L : Nat} (hd : d = .p n) (hn : n.val < 7) (hL : L < 1024) :
    (predOf s1 k n.val).getLsbD L = if lanes.getLsbD L then r.getLsbD L else (predOf s k n.val).getLsbD L := by
  rw [h.lanes n hd hn]
  simp only [BitVec.getLsbD_or, BitVec.getLsbD_and, BitVec.getLsbD_not, hL, decide_true, Bool.true_and]
  cases lanes.getLsbD L <;> simp

/-- A write of a predicate touches no register, nor anything else of the part. -/
theorem WroteLanes.frame (ht : s.team k = some t) (h : WroteLanes s s1 k t lanes d r) :
    (∀ o L w, isReg o = true → reg s1 k w o L = reg s k w o L) ∧ sameE s1 k t ∧ UntouchedIf s s1 k t false := by
  obtain ⟨q, rfl | rfl⟩ := h.rest
  · refine ⟨fun o L w ho => reg_congr ht (t' := { t with p := q }) (State.team_setTeam_self _ _ _) rfl rfl (fun _ => ⟨rfl, rfl⟩) w ho L,
      ⟨_, State.team_setTeam_self _ _ _, rfl⟩, fun k' hk => by rw [State.team_setTeam, if_neg hk],
      ⟨_, State.team_setTeam_self _ _ _, rfl, fun _ => rfl⟩, fun _ _ _ => rfl, fun _ => rfl, fun _ _ _ _ => ⟨fun _ => rfl, fun _ => rfl⟩, fun _ => rfl⟩
  · exact ⟨fun _ _ _ _ => rfl, ⟨t, ht, rfl⟩, (RegFrame.refl ht).untouched⟩

end

/-- Settles O7: it holds, from what a write of D does (writeD_spec) and what a write of a predicate does (writeP_spec). -/
theorem resultsGoToTheirDestination : Obligations.ResultsGoToTheirDestination := by
  intro s k t ht lanes wide d val hkv s'
  have hw : Wrote s s' k t lanes wide d val := writeD_spec ht lanes wide d val hkv
  refine ⟨hw.lanes, hw.scalar, writeD_discards s k lanes wide val, hw.others, hw.frame.keeps_preds ht, hw.frame.keeps_e, hw.frame.untouched,
    fun r => ?_⟩
  have hp := writeP_spec ht lanes d r
  exact ⟨fun n L hd hn hL => hp.lane hd hn hL, hp.others, hp.frame ht⟩

end Sys2Proof.Machine
end

section
/-! SUPPORT. Votes, ballots and shuffles (R17, R123, R124). -/

namespace Sys2Proof.Machine

/-- A word that issues has operands of the kinds of check 4. -/
theorem Issues.kinds {i : Instr} {s : State} {k : Nat} {t : Team} (h : Issues i s k t) : i.kinds = true := by
  have h4 := h.check4
  simp only [Instr.check4, Bool.and_eq_true] at h4
  exact h4.1.1.1

/-- A ballot's D is a scalar (R123), so that it is no pair of the handler store. -/
theorem Issues.ballot_scalar {f : VR} {s : State} {k : Nat} {t : Team} (h : Issues (.ballot f) s k t) : f.d.isSK = true := by
  have hk : ops4 f Opd.isSK Opd.isP Opd.isN Opd.isN = true := h.kinds
  simp only [ops4, Bool.and_eq_true] at hk
  exact hk.1.1.1

/-- The rule of a vote, by the number in M. -/
theorem voteResult_eq (m : BitVec 10) (bits : List Bool) :
    voteResult m.toNat bits = if m = 0 then bits.any id else if m = 1 then bits.all id else (bits.all id || !bits.any id) := by
  split
  next h => rw [h]; rfl
  next h0 =>
    split
    next h => rw [h]; rfl
    next h1 =>
      have hn0 : m.toNat ≠ 0 := fun e => h0 (BitVec.eq_of_toNat_eq e)
      have hn1 : m.toNat ≠ 1 := fun e => h1 (BitVec.eq_of_toNat_eq e)
      unfold voteResult
      split
      · contradiction
      · contradiction
      · rfl

theorem vote_writes {f : VR} {s : State} {k : Nat} {t : Team} (h : Issues (.vote f) s k t) :
    WritesP (.vote f) s k t (lanesOf t f.g) f.d
      fun _ => voteResult f.m.toNat ((participants t f.g).map fun L => (opdP t f.a).getLsbD L) :=
  aluP_writes h (fun _ t _ _ => voteResult f.m.toNat ((participants t f.g).map fun L => (opdP t f.a).getLsbD L)) rfl

/-- The lane that a shuffle reads (R124), from its M, B and C. -/
def shflSource (f : VR) (k : Nat) (t : Team) (s : State) (L : Nat) : Nat :=
  let index := fun o => shflIndex f.t (opd s k t false o L)
  shflLane (fld f.m 0 2) (if f.c.isN then t.width else floorPow2 (Nat.min (Nat.max (index f.c) 1) t.width)) (index f.b) L

theorem shfl_writes {f : VR} {s : State} {k : Nat} {t : Team} (h : Issues (.shfl f) s k t) :
    WritesD (.shfl f) s k t f.g f.d f.t.wide fun L => fitBits f.t (bitSrc s k t f.t f.a (shflSource f k t s L)) :=
  alu_writes h (fun k t s L => fitBits f.t (bitSrc s k t f.t f.a (shflSource f k t s L))) rfl
    (kvFits_of h fun hw => by rw [← ut_wide f.d hw]; exact List.mem_cons_self)

/-- Settles O27: it holds, since a vote is the frame of R122, and a ballot and a shuffle are that of R129, with the value that the spec gives; the
source lane of a shuffle stands in the statement as shflSource written out. -/
theorem votesBallotsShuffles : Obligations.VotesBallotsShuffles := by
  intro f s k t bits
  refine ⟨fun h => ?_, fun h => ?_, fun h => ?_⟩
  · simp only [bits, ← voteResult_eq]
    exact vote_writes h
  · exact alu_writes h (fun _ t _ _ => (lanesOf t f.g &&& opdP t f.a).extractLsb' (64 * fld f.m 0 4) 64) rfl
      fun _ n hn => absurd h.ballot_scalar (by simp [hn, Opd.isSK])
  · exact shfl_writes h

end Sys2Proof.Machine
end

section
/-! SUPPORT. Rounding at a power of two (R26): the lower neighbour, or the upper one, by the remainder. -/

namespace Sys2Proof.Machine

/-! ## The decision of a mode -/

/-- Whether a mode takes the upper neighbour of n units and a remainder r, where half is half a unit (R26). -/
def roundsUp (rm : Nat) (neg : Bool) (half n r : Nat) : Bool :=
  match rm with
  | 0 => decide (half < r) || (decide (r = half) && decide (n % 2 = 1))
  | 1 => false
  | 2 => neg && decide (r ≠ 0)
  | _ => !neg && decide (r ≠ 0)

/-- The units that a mode makes of n units and a remainder r. -/
def rounded (rm : Nat) (neg : Bool) (half n r : Nat) : Nat := if roundsUp rm neg half n r then n + 1 else n

theorem mode_cases {rm : Nat} (hrm : rm < 4) : rm = 0 ∨ rm = 1 ∨ rm = 2 ∨ rm = 3 := by omega

/-- A remainder below half a unit with no unit below it goes up in a mode directed away from zero only. -/
theorem roundsUp_small {rm half m : Nat} (neg : Bool) (hrm : rm < 4) (h : m < half) :
    roundsUp rm neg half 0 m = (decide (m ≠ 0) && (decide (rm = 2) && neg || decide (rm = 3) && !neg)) := by
  have hle : ¬ half < m := by omega
  have hne : ¬ m = half := by omega
  obtain rfl | rfl | rfl | rfl := mode_cases hrm
  · simp [roundsUp, hle, hne]
  · simp [roundsUp]
  · simp [roundsUp, Bool.and_comm]
  · simp [roundsUp, Bool.and_comm]

/-! ## The units of a mode, against the value of n units and the remainder r -/

section
variable {rm half n r unit : Nat} {neg : Bool}

theorem rounded_neighbour : rounded rm neg half n r = n ∨ rounded rm neg half n r = n + 1 := by
  unfold rounded
  split
  · exact .inr rfl
  · exact .inl rfl

/-- No mode moves a value that is a number of units. -/
theorem rounded_exact (hhalf : 0 < half) (hrm : rm < 4) : rounded rm neg half n 0 = n := by
  have hlow : roundsUp rm neg half n 0 = false := by
    have hne : ¬ 0 = half := by omega
    obtain rfl | rfl | rfl | rfl := mode_cases hrm <;> simp [roundsUp, hne]
  simp [rounded, hlow]

/-- RNE is within half a unit, and takes the even neighbour on a tie. -/
theorem rounded_nearest (hunit : unit = 2 * half) (hr : r < unit) :
    2 * ((rounded 0 neg half n r * unit : Nat) - ((unit * n + r : Nat) : Int)).natAbs ≤ unit ∧
      (2 * ((rounded 0 neg half n r * unit : Nat) - ((unit * n + r : Nat) : Int)).natAbs = unit → rounded 0 neg half n r % 2 = 0) := by
  have hup : roundsUp 0 neg half n r = true ↔ half < r ∨ r = half ∧ n % 2 = 1 := by simp [roundsUp]
  have hnext : (n + 1) * unit = unit * n + unit := by rw [Nat.succ_mul, Nat.mul_comm]
  have hthis : n * unit = unit * n := Nat.mul_comm n unit
  unfold rounded
  split
  next h =>
    rw [hup] at h
    rw [hnext]
    generalize unit * n = x
    omega
  next h =>
    rw [hup] at h
    rw [hthis]
    generalize unit * n = x
    omega

/-- The lower neighbour is not above the value. -/
theorem low_le (h : rounded rm neg half n r = n) : rounded rm neg half n r * unit ≤ unit * n + r := by
  rw [h, Nat.mul_comm]; exact Nat.le_add_right _ _

/-- The upper neighbour, or the value itself, is not below the value. -/
theorem le_high (hr : r < unit) (h : r ≠ 0 → rounded rm neg half n r = n + 1) : unit * n + r ≤ rounded rm neg half n r * unit := by
  obtain hlow | hhigh := rounded_neighbour (rm := rm) (neg := neg) (half := half) (n := n) (r := r)
  · have h0 : r = 0 := Decidable.byContradiction fun hne => by
      have hhigh := h hne
      omega
    rw [hlow, h0, Nat.mul_comm]; exact Nat.le_refl _
  · rw [hhigh, Nat.mul_comm unit, Nat.succ_mul]; exact Nat.add_le_add_left (Nat.le_of_lt hr) _

/-- RTZ keeps the units below. -/
theorem rounded_toZero : rounded 1 neg half n r * unit ≤ unit * n + r := low_le rfl

/-- RDN grows the magnitude of a negative value only. -/
theorem rounded_down (hr : r < unit) :
    if neg then unit * n + r ≤ rounded 2 neg half n r * unit else rounded 2 neg half n r * unit ≤ unit * n + r := by
  cases neg with
  | false => exact low_le rfl
  | true => exact le_high hr fun h0 => by simp [rounded, roundsUp, h0]

/-- RUP grows the magnitude of a positive value only. -/
theorem rounded_up (hr : r < unit) :
    if neg then rounded 3 neg half n r * unit ≤ unit * n + r else unit * n + r ≤ rounded 3 neg half n r * unit := by
  cases neg with
  | false => exact le_high hr fun h0 => by simp [rounded, roundsUp, h0]
  | true => exact low_le rfl

end

/-! ## The model's rounding -/

theorem lt_two_pow_bitLen (m : Nat) : m < 2 ^ bitLen m := by
  unfold bitLen
  split
  next h => subst h; exact Nat.one_pos
  next => exact Nat.lt_log2_self

/-- An exact m·2^e rounded to a multiple of a larger 2^q: the units below, and one more when the mode goes up; inexact when a remainder is
left. The model's short way for a far larger q agrees. -/
theorem roundAt_exact {rm : Nat} (neg : Bool) (m : Nat) {e q : Int} (hrm : rm < 4) (h : e < q) {d : Nat} (hd : d = (q - e).toNat) :
    roundAt rm neg m e false q = (rounded rm neg (2 ^ (d - 1)) (m / 2 ^ d) (m % 2 ^ d), decide (m % 2 ^ d ≠ 0)) := by
  have hpos : 0 < d := by omega
  unfold roundAt
  rw [if_neg (by omega)]
  simp only [← hd, Bool.or_false]
  by_cases hfar : bitLen m + 1 < d
  · have hhalf : m < 2 ^ (d - 1) := Nat.lt_of_lt_of_le (lt_two_pow_bitLen m) (Nat.pow_le_pow_right Nat.two_pos (by omega))
    have hunit : m < 2 ^ d := Nat.lt_of_lt_of_le hhalf (Nat.pow_le_pow_right Nat.two_pos (by omega))
    rw [if_pos hfar, Nat.div_eq_of_lt hunit, Nat.mod_eq_of_lt hunit, rounded, roundsUp_small neg hrm hhalf]
  · rw [if_neg hfar]
    obtain rfl | rfl | rfl | rfl := mode_cases hrm
    all_goals simp [rounded, roundsUp]

/-! ## The statement -/

/-- Settles O16: it holds, since m is n units and a remainder below one, and each mode's decision (roundAt_exact) is by that remainder. -/
theorem roundingIsNearestOrDirected : Obligations.RoundingIsNearestOrDirected := by
  intro rm neg m e q hrm h d r
  have hr : r = (rounded rm neg (2 ^ (d - 1)) (m / 2 ^ d) (m % 2 ^ d), decide (m % 2 ^ d ≠ 0)) := roundAt_exact neg m hrm h rfl
  have hunit : 2 ^ d = 2 * 2 ^ (d - 1) := by rw [← Nat.pow_succ']; congr 1; omega
  have hrem : m % 2 ^ d < 2 ^ d := Nat.mod_lt _ (Nat.two_pow_pos d)
  have hm : 2 ^ d * (m / 2 ^ d) + m % 2 ^ d = m := Nat.div_add_mod m (2 ^ d)
  rw [hr]
  refine ⟨rfl, fun hexact => ?_, rounded_neighbour, fun h0 => ?_, fun h1 => ?_, fun h2 => ?_, fun h3 => ?_⟩
  · have hrem0 : m % 2 ^ d = 0 := by simpa using hexact
    rw [hrem0, Nat.add_zero, Nat.mul_comm] at hm
    rw [hrem0, rounded_exact (Nat.two_pow_pos _) hrm, hm]
  · have hnear := rounded_nearest (neg := neg) (n := m / 2 ^ d) hunit hrem
    subst h0; rwa [hm] at hnear
  · have htrunc := rounded_toZero (neg := neg) (half := 2 ^ (d - 1)) (n := m / 2 ^ d) (r := m % 2 ^ d) (unit := 2 ^ d)
    subst h1; rwa [hm] at htrunc
  · have hdown := rounded_down (neg := neg) (half := 2 ^ (d - 1)) (n := m / 2 ^ d) hrem
    subst h2; rwa [hm] at hdown
  · have hup := rounded_up (neg := neg) (half := 2 ^ (d - 1)) (n := m / 2 ^ d) hrem
    subst h3; rwa [hm] at hup

end Sys2Proof.Machine
end

section
/-! SUPPORT. The values of a format, rounded to that format (R18, R19, R26). -/

namespace Sys2Proof.Machine

/-! ## The six formats -/

/-- How the largest exponent of a format follows from its fields: all-ones exponents are infinities and NaNs, but in e4m3, where only the
all-ones mantissa of three bits is a NaN (R18, R19). -/
structure Fmt.Regular (f : Fmt) : Prop where
  top : f.emax = f.emin + ((2 ^ f.ebits - (if f.noInf then 2 else 3) : Nat) : Int)
  room : 3 ≤ 2 ^ f.ebits
  mant : f.noInf = true → f.mbits = 3

theorem regular_of_mem {f : Fmt} (h : f ∈ [fmtF64, fmtF32, fmtF16, fmtBf16, fmtE4m3, fmtE5m2]) : f.Regular := by
  simp only [List.mem_cons, List.not_mem_nil, or_false] at h
  obtain rfl | rfl | rfl | rfl | rfl | rfl := h
  all_goals exact ⟨by decide, by decide, by decide⟩

/-! ## The fields of a pattern -/

section
variable {f : Fmt} {x : Nat}

theorem fMant_lt (f : Fmt) (x : Nat) : fMant f x < 2 ^ f.mbits := Nat.mod_lt _ (Nat.two_pow_pos _)
theorem fExp_lt (f : Fmt) (x : Nat) : fExp f x < 2 ^ f.ebits := Nat.mod_lt _ (Nat.two_pow_pos _)

/-- A pattern is its sign, its exponent and its mantissa. -/
theorem fields_eq (hx : x < 2 ^ f.width) : f.signBit (fNeg f x) + fExp f x * 2 ^ f.mbits + fMant f x = x := by
  have hlow : x % 2 ^ (f.ebits + f.mbits) = fExp f x * 2 ^ f.mbits + fMant f x := by
    rw [Nat.add_comm f.ebits, Nat.pow_add, Nat.mod_mul, fExp, fMant, Nat.mul_comm, Nat.add_comm]
  have htop : f.signBit (fNeg f x) = 2 ^ (f.ebits + f.mbits) * (x / 2 ^ (f.ebits + f.mbits)) := by
    have hq : x / 2 ^ (f.ebits + f.mbits) < 2 := by
      rw [Nat.div_lt_iff_lt_mul (Nat.two_pow_pos _), ← Nat.pow_succ']
      exact Nat.lt_of_lt_of_eq hx (by congr 1; unfold Fmt.width; omega)
    rw [Fmt.signBit, fNeg, Nat.testBit_eq_decide_div_mod_eq, Nat.mod_eq_of_lt hq]
    obtain h | h := Nat.le_one_iff_eq_zero_or_eq_one.1 (Nat.lt_succ_iff.1 hq)
    · simp [h]
    · simp [h]
  rw [Nat.add_assoc, ← hlow, htop, Nat.div_add_mod]

/-- What a pattern that is no NaN means: an infinity, a zero or subnormal value, or a normal value. -/
theorem unpack_cases (h : isNaN f x = false) :
    (f.noInf = false ∧ fExp f x = 2 ^ f.ebits - 1 ∧ fMant f x = 0 ∧ unpack f x = .inf (fNeg f x)) ∨
    (fExp f x = 0 ∧ unpack f x = .fin (fNeg f x) (fMant f x) f.esub false) ∨
    (fExp f x ≠ 0 ∧ (fExp f x = 2 ^ f.ebits - 1 → f.noInf = true ∧ fMant f x ≠ 7) ∧
      unpack f x = .fin (fNeg f x) (2 ^ f.mbits + fMant f x) (f.esub + (fExp f x - 1 : Nat)) false) := by
  simp only [unpack, h, Bool.false_eq_true, if_false]
  by_cases hinf : isInf f x = true
  · obtain ⟨hno, hfields⟩ : f.noInf = false ∧ fExp f x = 2 ^ f.ebits - 1 ∧ fMant f x = 0 := by simpa [isInf] using hinf
    exact .inl ⟨hno, hfields.1, hfields.2, if_pos hinf⟩
  · by_cases hE : fExp f x = 0
    · exact .inr (.inl ⟨hE, by rw [if_neg hinf, if_pos hE]⟩)
    · refine .inr (.inr ⟨hE, fun htop => ?_, by rw [if_neg hinf, if_neg hE]⟩)
      cases hno : f.noInf <;> simp_all [isInf, isNaN]

end

/-! ## Rounding what is exact -/

theorem bitLen_eq {k m : Nat} (hlo : 2 ^ k ≤ m) (hhi : m < 2 ^ (k + 1)) : bitLen m = k + 1 := by
  have h0 : m ≠ 0 := Nat.ne_zero_of_lt (Nat.lt_of_lt_of_le (Nat.two_pow_pos k) hlo)
  rw [bitLen, if_neg h0, (Nat.log2_eq_iff h0).2 ⟨hlo, hhi⟩]

/-- A multiple of 2^q is kept. -/
theorem roundAt_kept {rm : Nat} {neg : Bool} {m : Nat} {e q : Int} (h : q ≤ e) :
    roundAt rm neg m e false q = (m * 2 ^ (e - q).toNat, false) := if_pos h

section
variable {f : Fmt} {v : FEnv} {neg : Bool} {M : Nat}

/-- A subnormal value rounds to its own bits. -/
theorem roundTo_subnormal (hf : f.Regular) (hftzo : v.ftzo = false) (hM0 : M ≠ 0) (hM : M < 2 ^ f.mbits) :
    roundTo f v (.fin neg M f.esub false) = (f.signBit neg + M, 0) := by
  obtain ⟨k, hk⟩ : ∃ k, M.log2 = k := ⟨_, rfl⟩
  obtain ⟨hlo, hhi⟩ := (Nat.log2_eq_iff hM0).1 hk
  have hkm : k < f.mbits := (Nat.pow_lt_pow_iff_right (by decide)).1 (Nat.lt_of_le_of_lt hlo hM)
  have hesub : f.esub = f.emin - f.mbits := rfl
  have hmax : f.emin ≤ f.emax := by have := hf.top; omega
  have hshift : (f.esub - ((k + 1 : Nat) - 1 + f.esub - f.mbits : Int)).toNat = f.mbits - k := by omega
  have hlen : bitLen (M * 2 ^ (f.mbits - k)) = f.mbits + 1 := by
    apply bitLen_eq
    · calc 2 ^ f.mbits = 2 ^ k * 2 ^ (f.mbits - k) := by rw [← Nat.pow_add]; congr 1; omega
        _ ≤ M * 2 ^ (f.mbits - k) := Nat.mul_le_mul_right _ hlo
    · calc M * 2 ^ (f.mbits - k) < 2 ^ (k + 1) * 2 ^ (f.mbits - k) := Nat.mul_lt_mul_of_pos_right hhi (Nat.two_pow_pos _)
        _ = 2 ^ (f.mbits + 1) := by rw [← Nat.pow_add]; congr 1; omega
  have hpack : packFin f neg M f.esub = f.signBit neg + M := by
    simp only [packFin, if_neg hM0, hk]
    rw [if_pos (by omega)]
    simp
  simp only [roundTo, bitLen_eq hlo hhi]
  rw [if_neg (by simp [hM0]), roundAt_kept (by omega), hshift]
  simp only [hlen]
  rw [if_neg (by omega), if_pos (by omega), if_neg (by simp [hftzo]), roundAt_kept (Int.le_refl _)]
  simp [hpack]

/-- A normal value is not above the largest finite one: with the largest exponent field its mantissa is no NaN's. -/
theorem normal_not_over (hf : f.Regular) {E : Nat} (hE : E < 2 ^ f.ebits) (htop : E = 2 ^ f.ebits - 1 → f.noInf = true ∧ M ≠ 7) :
    ¬ (f.emax < f.emin + (E - 1 : Nat) ∨ (f.noInf = true ∧ f.emin + (E - 1 : Nat) = f.emax ∧ 2 ^ f.mbits + M = 15)) := by
  obtain ⟨hmax, hroom, hmant⟩ := hf
  generalize 2 ^ f.ebits = top at *
  cases hno : f.noInf with
  | false =>
    rw [hno, if_neg (by simp)] at hmax
    have hE1 : E ≠ top - 1 := fun e => absurd (htop e).1 (by simp [hno])
    simp only [Bool.false_eq_true, false_and, or_false]
    omega
  | true =>
    rw [hno, if_pos rfl] at hmax
    rintro (hover | ⟨-, heq, h15⟩)
    · omega
    · rw [hmant hno] at h15
      exact (htop (by omega)).2 (by omega)

/-- A normal value rounds to its own bits. -/
theorem roundTo_normal (hf : f.Regular) {E : Nat} (hE0 : E ≠ 0) (hE : E < 2 ^ f.ebits) (hM : M < 2 ^ f.mbits)
    (htop : E = 2 ^ f.ebits - 1 → f.noInf = true ∧ M ≠ 7) :
    roundTo f v (.fin neg (2 ^ f.mbits + M) (f.esub + (E - 1 : Nat)) false) = (f.signBit neg + E * 2 ^ f.mbits + M, 0) := by
  have hm0 : 2 ^ f.mbits + M ≠ 0 := by have := Nat.two_pow_pos f.mbits; omega
  have hlo : 2 ^ f.mbits ≤ 2 ^ f.mbits + M := Nat.le_add_right _ _
  have hhi : 2 ^ f.mbits + M < 2 ^ (f.mbits + 1) := by rw [Nat.pow_succ]; omega
  have hesub : f.esub = f.emin - f.mbits := rfl
  have hq : ((f.mbits + 1 : Nat) - 1 + (f.esub + (E - 1 : Nat)) - f.mbits : Int) = f.esub + (E - 1 : Nat) := by omega
  have hy : ((f.mbits + 1 : Nat) - 1 + (f.esub + (E - 1 : Nat)) : Int) = f.emin + (E - 1 : Nat) := by omega
  have hpack : packFin f neg (2 ^ f.mbits + M) (f.esub + (E - 1 : Nat)) = f.signBit neg + E * 2 ^ f.mbits + M := by
    have hx : (f.mbits + (f.esub + (E - 1 : Nat)) : Int) = f.emin + (E - 1 : Nat) := by omega
    have hs : (f.esub + (E - 1 : Nat) - (f.emin + (E - 1 : Nat) - f.mbits) : Int) = 0 := by omega
    have hs' : (f.emin + (E - 1 : Nat) - f.mbits - (f.esub + (E - 1 : Nat)) : Int) = 0 := by omega
    have hfield : (f.emin + (E - 1 : Nat) - f.emin + 1 : Int).toNat = E := by omega
    simp only [packFin, if_neg hm0, (Nat.log2_eq_iff hm0).2 ⟨hlo, hhi⟩, hx, hs, hs', hfield]
    rw [if_neg (by omega)]
    simp
  simp only [roundTo, bitLen_eq hlo hhi, hq]
  rw [if_neg (by simp), roundAt_kept (Int.le_refl _)]
  simp only [Int.sub_self, Int.toNat_zero, Nat.pow_zero, Nat.mul_one, bitLen_eq hlo hhi, hy]
  rw [if_neg (normal_not_over hf hE htop), if_neg (by omega), hpack]
  rfl

end

/-! ## The statement -/

/-- Settles O17: it holds, by the three kinds of patterns that are no NaN (unpack_cases). -/
theorem exactValuesRoundToThemselves : Obligations.ExactValuesRoundToThemselves := by
  intro f v x hmem hx hnan hsat hftzo
  have hf : f.Regular := regular_of_mem hmem
  have hfields := fields_eq hx
  obtain ⟨hno, hE, hM, hval⟩ | ⟨hE, hval⟩ | ⟨hE, htop, hval⟩ := unpack_cases hnan
  · rw [hE, hM] at hfields
    simpa [hval, roundTo, hsat, hno, Fmt.infBits] using hfields
  · rw [hE, Nat.zero_mul, Nat.add_zero] at hfields
    rw [hval]
    by_cases hM : fMant f x = 0
    · rw [hM] at hfields ⊢
      simpa [roundTo] using hfields
    · rw [roundTo_subnormal hf hftzo hM (fMant_lt f x), hfields]
  · rw [hval, roundTo_normal hf hE (fExp_lt f x) (fMant_lt f x) htop, hfields]

end Sys2Proof.Machine
end

section
/-! SUPPORT. A failed page-in that is on record at a leaf of the save area: the part's next read through that leaf forgets it (R246), so
that the read is not without effect, although the save area is at hand. -/

namespace Sys2Proof.Machine

/-- A read of the part through a cached leaf with a failed page-in on record drops what is on record there for the part. -/
theorem partXlat_read_cached {s : State} {oid va pa : Nat} {e : TlbEntry} (he : tlbFind (s.cluster 0) oid va = some e)
    (hu : tlbUse s (ctxPart s oid) accR va e = some pa) (hf : s.pageFails.any (failsFor e.leafPa oid 0 0) = true) :
    partXlat s oid va accR = (dropPageFails s (failsFor e.leafPa oid 0 0), .ok pa e.leafPa e.leaf e.large) := by
  have hx : xlat s none 0 oid va accR = (s, .ok pa e.leafPa e.leaf e.large) := by simp [xlat, he, hu]
  have hread : accR / 2 % 2 ≠ 1 := by decide
  simp only [partXlat, engineXlat, hx, hf, hread, if_true, if_false]

/-! ## A context with its save area at hand, and a failure on record -/

/-- A leaf of 2^33 bytes at the start of tier 0, writable, with A and D set, cached for context 0 (R240, R244). -/
def cachedLeaf : TlbEntry := { oid := 0, large := true, vpn := 0, leafPa := 0, leaf := 0x8000000000000183, way := 0 }

/-- Context 0, READY, with its save area at the start of its address space. -/
def stagedCtx : Ctx :=
  { partition := 0, preempt := true, sched := false, policy := 0, state := .ready, roots := [], queueList := 0, hostRing := 0, saveArea := 0, saveSeq := 0,
    queues := [], window := [], halves := [0, 1], listDue := false, wordDue := false, stopClock := 0, releasing := false }

/-- A page-in that the part demanded through cluster 0 for that leaf has failed (R246); the leaf has been mapped since, and a team of
cluster 0 has brought it into the TLB. -/
def failOnRecord : PageFail := { leafPa := 0, oid := 0, cluster := 0, code := 0, reason := rPoolEmpty }

/-- Core 0 stages context 0 in its shadow bank into a half that the context holds, and the failure is on record. -/
def stagingAfterFail : State :=
  { State.reset with
    parts := [(0, { Part.reset 0 with segHbmBound := BitVec.ofNat 64 (2 ^ 33) })], ctxs := [(0, stagedCtx)],
    clusters := [(0, { Cluster.reset with tlb := [cachedLeaf] })],
    cores := [(0, { Core.reset with bank1 := { Bank.empty with owner := some 0, staging := true } })], pageFails := [failOnRecord] }

/-! ## What holds of it -/

theorem tlbFind_stagingAfterFail {va : Nat} (h : va < 2 ^ 33) : tlbFind (stagingAfterFail.cluster 0) 0 va = some cachedLeaf := by
  have hvpn : vpnOf true va = 0 := Nat.div_eq_of_lt h
  exact List.find?_cons_of_pos (by simp [cachedLeaf, hvpn])

theorem segPa_stagingAfterFail {off : Nat} (h : off < 2 ^ 33) : segPa stagingAfterFail 0 0 off = some off := by
  have hseg : Machine.segment stagingAfterFail 0 0 = (0, 2 ^ 33) := by decide
  simpa [segPa, segUsable, hseg, tierRange] using h

theorem tlbUse_stagingAfterFail {acc va : Nat} (hacc : acc < accX) (h : va < 2 ^ 33) : tlbUse stagingAfterFail 0 acc va cachedLeaf = some va := by
  have hW : pteW cachedLeaf.leaf = true := by decide
  have hD : pteD cachedLeaf.leaf = true := by decide
  have hX : ¬ acc / 4 % 2 = 1 := by unfold accX at hacc; omega
  have hoff : pteOff cachedLeaf.leaf + va % 2 ^ 33 = va := by
    rw [show pteOff cachedLeaf.leaf = 0 by decide, Nat.mod_eq_of_lt h, Nat.zero_add]
  have htier : pteTier cachedLeaf.leaf = 0 := by decide
  have hlarge : cachedLeaf.large = true := rfl
  simp only [tlbUse, hW, hD, hX, hlarge, if_true, hoff, htier, segPa_stagingAfterFail h]
  simp

/-- The cached leaf maps the whole save area, and nothing holds an error: AreaGoes says nothing of failures on record. -/
theorem areaGoes_stagingAfterFail : AreaGoes stagingAfterFail 0 := by
  refine ⟨rfl, stagedCtx, rfl, fun off hoff => ⟨cachedLeaf, off, ?_⟩⟩
  have hva : xva stagedCtx.saveArea + off = off := by
    rw [show xva stagedCtx.saveArea = 0 by decide, Nat.zero_add]
  have hlt : off < 2 ^ 33 := by unfold areaBytes at hoff; omega
  rw [hva]
  exact ⟨tlbFind_stagingAfterFail hlt, tlbUse_stagingAfterFail (by decide) hlt, by decide, by omega⟩

/-- Reading the image of the history bank forgets the failure. -/
theorem areaRead_stagingAfterFail : (areaRead stagingAfterFail 0 (areaHist 0) 2048).1.pageFails = [] := by
  have hx : partXlat stagingAfterFail 0 0x1000 accR =
      (dropPageFails stagingAfterFail (failsFor 0 0 0 0), .ok 0x1000 0 cachedLeaf.leaf true) :=
    partXlat_read_cached (tlbFind_stagingAfterFail (by decide)) (tlbUse_stagingAfterFail (by decide) (by decide)) (by decide)
  have hcut : cutPages (2048 / 2 ^ 18 + 2) (xva stagedCtx.saveArea + areaHist 0) 2048 = [(0x1000, 2048)] := by decide
  have hctx : stagingAfterFail.ctx 0 = some stagedCtx := rfl
  have hpeer : isPeer 0x1000 = false := by decide
  have hgood : badAt (dropPageFails stagingAfterFail (failsFor 0 0 0 0)) 0x1000 2048 = false := rfl
  simp only [areaRead, partRead, hctx, hcut, partReadAll, hx, hpeer, hgood]
  rfl

/-! ## The statement -/

/-- Refutes O54: the clause on a staging whose save area is at hand says that the read of the history image leaves the state as it was.
A translation that succeeds drops the failures of earlier page-ins of its leaf (engineXlat, R246), and AreaGoes does not exclude that one
is on record. Here the staging goes into a half that is held, so that the clause asks nothing of the control records. -/
theorem not_contextSwapSaveLoad : ¬ Obligations.ContextSwapSaveLoad := by
  intro h
  obtain ⟨-, -, -, -, -, -, -, -, -, hstaging, -⟩ := h
  obtain ⟨-, -, hatHand⟩ := hstaging stagingAfterFail
  obtain ⟨s', bs, hread, -⟩ := hatHand 0 (by decide) rfl rfl areaGoes_stagingAfterFail (fun hloaded => absurd hloaded (by decide))
  have hsame : (areaRead stagingAfterFail 0 (areaHist 0) 2048).1.pageFails = stagingAfterFail.pageFails := by
    rw [show areaHist 0 = areaHist stagingAfterFail.sel.core from rfl, hread]
  rw [areaRead_stagingAfterFail] at hsame
  exact List.cons_ne_nil _ _ hsame.symm

end Sys2Proof.Machine
end

section
/-! SUPPORT. What the meaning of an issuing word comes to, and the loads of R201 to R205. -/

namespace Sys2Proof.Machine

/-! ## From a word's meaning to its step -/

/-- The meaning of the word, at issue, comes to r. -/
def ComesTo (i : Instr) (s : State) (k : Nat) (t : Team) (r : Res) : Prop := exec i s = .next (finish k (charge k (issueCycles t) r))

section
variable {i : Instr} {s s1 : State} {k : Nat} {t : Team} {r : Res} {c : Cause}

theorem Issues.comesTo {body : Nat → Team → State → Res} (h : Issues i s k t) (hx : exec i s = .next (issue i s body)) :
    ComesTo i s k t (body k t s) := hx.trans (congrArg _ (issue_ready h body))

theorem ComesTo.completes (h : ComesTo i s k t r) (hr : r = .commit s1) : Completes i s k t s1 := by subst hr; exact h

theorem ComesTo.stalls (h : ComesTo i s k t r) (hr : r = .stall s1) : exec i s = .next (stallAt s1 k) := by subst hr; exact h

theorem ComesTo.traps (h : ComesTo i s k t r) (hr : r = .trap s1 c) : Traps i s k t s1 c := by subst hr; exact h

/-- A word that acts once for its team (R111): only the case in which it acts is left to show. -/
theorem Issues.once {g : Guard} {body : Nat → Team → State → Res} {acts : Prop} (h : Issues i s k t)
    (hx : exec i s = .next (issue i s (once g body))) (ha : ComesTo i s k t (body k t s) → acts) : Once i g s k t acts := by
  have hc := h.comesTo hx
  refine ⟨fun hg => hc.completes (by simp [Machine.once, hg]), fun hg => ha ?_⟩
  simpa only [Machine.once, hg, if_true] using hc

/-- An access goes on that no peer window holds. -/
theorem memGo_free {order : Nat} (h : peerHold s k = false ∧ (ordRel order && peerOut s k) = false) (go : Res) : memGo s k order go = go := by
  simp [memGo, h.1, h.2]

theorem withSnare_none {kind size : Nat} {lanes : List (Nat × Nat)} (h : dataSnare s k t kind size lanes = none) (go : Res) :
    withSnare s k t kind size lanes go = go := by simp [withSnare, h]

theorem withWide_none {m : Mask} {kind : Nat} {ranges : List (Nat × Nat)} (h : wideSnare s k t m kind ranges = none) (go : Res) :
    withWide s k t m kind ranges go = go := by simp [withWide, h]

end

/-! ## Loads -/

section
variable {f : MEM} {s s1 : State} {k : Nat} {t : Team}

/-- The lanes that ld acts on, with their addresses. -/
abbrev ldLanes (f : MEM) (s : State) (k : Nat) (t : Team) : List (Nat × Nat) :=
  laneAddrs (maskLanes (lanesOf t f.g) t.width) (memAddr s k t f)

/-- The lanes of an access ascend. -/
theorem laneAddrs_ascend (m : Mask) (w : Nat) (a : Nat → Nat) : ((laneAddrs (maskLanes m w) a).map (·.1)).Pairwise (· < ·) := by
  have he : ((fun p : Nat × Nat => p.1) ∘ fun L => (L, a L)) = id := rfl
  simpa only [laneAddrs, List.map_map, he, List.map_id] using maskLanes_sorted m w

/-- Lanes with addresses that stand for them are the same lanes. -/
theorem withAddrs_lanes (l : List (Nat × Nat)) (pa : Nat → Nat) : (l.map fun p => (p.1, p.2, pa p.1)).map (·.1) = l.map (·.1) := by
  rw [List.map_map]; rfl

/-- Ascending lanes that reach their bytes pass the checks of a load, and find room for their first word's misses (R200, R205). -/
theorem checkLoad_ascending {size : Nat} {lanes : List (Nat × Nat)} {pa : Nat → Nat} (hl : (lanes.map (·.1)).Pairwise (· < ·))
    (h : ∀ p ∈ lanes, p.2 % size = 0 ∧ Loadable s k t p.2 (pa p.1)) (hd : demandMisses s (keyCore k) ≤ 32) :
    checkLoad s k t size lanes = .go s (lanes.map fun p => (p.1, p.2, pa p.1)) ∧
      missStall s k t (lanes.map fun p => (p.1, p.2, pa p.1)) = false :=
  ⟨checkLoad_loadable lanes (hl.imp Nat.ne_of_lt) h, missStall_room ((withAddrs_lanes lanes pa).symm ▸ hl) hd⟩

/-- What ld comes to once its checks pass. -/
theorem ld_comesTo (h : Issues (.ld f) s k t) (hgo : peerHold s k = false ∧ (ordRel f.order.toNat && peerOut s k) = false)
    (hsn : dataSnare s k t 1 (sizeOf f.size) (ldLanes f s k t) = none) {x : Nat × Nat × Nat} {r : List (Nat × Nat × Nat)}
    (hc : checkLoad s k t (sizeOf f.size) (ldLanes f s k t) = .go s1 (x :: r)) :
    ComesTo (.ld f) s k t (if takesMisses f && missStall s1 k t (x :: r) then .stall s1 else
      .commit (trainSpt (doLoad s1 k t f.order.toNat f.scope.toNat f.hint.toNat (sizeOf f.size) f.d (x :: r)) (keyCore k) t.oid
        (wordAddr t.h t.i).toNat x.2.1)) := by
  simpa only [memGo_free hgo, withSnare_none hsn, hc] using h.comesTo rfl

/-- ld of no lane does nothing. -/
theorem ld_noLanes (h : Issues (.ld f) s k t) (hgo : peerHold s k = false ∧ (ordRel f.order.toNat && peerOut s k) = false)
    (hsn : dataSnare s k t 1 (sizeOf f.size) (ldLanes f s k t) = none) (hl : ldLanes f s k t = []) : Completes (.ld f) s k t s := by
  have hc : checkLoad s k t (sizeOf f.size) (ldLanes f s k t) = .go s [] := by
    rw [hl]; exact checkLoad_loadable (pa := id) [] List.nodup_nil (by simp)
  exact (h.comesTo rfl).completes (by simp only [memGo_free hgo, withSnare_none hsn, hc])

/-- The lane that ldu acts on: the lowest active one that passes the guard (R203). -/
abbrev lduLane (f : MEM) (t : Team) : Nat := (maskFirst (lanesOf t f.g) t.width).getD 0

/-- What ldu does, from what it comes to once its checks pass. -/
theorem ldu_acts (h : Issues (.ldu f) s k t) {acts : Prop}
    (ha : (peerHold s k = false ∧ (ordRel f.order.toNat && peerOut s k) = false →
      wideSnare s k t (lanesOf t f.g) 1 [(memAddr s k t f (lduLane f t), sizeOf f.size)] = none →
      ∀ s1 ls, checkLoad s k t (sizeOf f.size) [(lduLane f t, memAddr s k t f (lduLane f t))] = .go s1 ls →
        ComesTo (.ldu f) s k t (if takesMisses f && missStall s1 k t ls then .stall s1 else
          .commit (doLoad s1 k t f.order.toNat f.scope.toNat f.hint.toNat (sizeOf f.size) f.d ls))) → acts) :
    Once (.ldu f) f.g s k t acts := by
  refine h.once rfl fun hx => ha fun hgo hsn s1 ls hc => ?_
  simpa only [List.map_cons, List.map_nil, memGo_free hgo, withWide_none hsn, hc] using hx

end

/-- Settles O30: it holds. The checks pass with nothing changed where every lane reaches its byte (checkLoad_ascending); a load whose checks pass
stalls or commits by its room for misses. -/
theorem loadsGo : Obligations.LoadsGo := by
  intro f s k t size go loaded full
  refine ⟨?_, fun h => ldu_acts h ?_⟩
  · intro h hgo lanes hsn after
    refine ⟨ld_noLanes h hgo hsn, fun pa x r hl hd hx => ?_, fun s1 x r hc => ?_⟩
    · obtain ⟨hc, hm⟩ := checkLoad_ascending (laneAddrs_ascend _ _ _) hl hd
      rw [hx] at hc hm
      exact (ld_comesTo h hgo hsn hc).completes (if_neg (by simp [hm]))
    · have hx := ld_comesTo h hgo hsn hc
      exact ⟨fun hf => hx.stalls (if_pos hf), fun hf => hx.completes (if_neg (Bool.eq_false_iff.1 hf))⟩
  · intro hacts hgo L va hsn
    refine ⟨fun pa hal hl hd => ?_, fun s1 ls hc => ?_⟩
    · obtain ⟨hc, hm⟩ := checkLoad_ascending (lanes := [(L, va)]) (pa := fun _ => pa) (by simp) (by simpa using ⟨hal, hl⟩) hd
      exact (hacts hgo hsn _ _ hc).completes (if_neg (by simpa using fun _ => hm))
    · have hx := hacts hgo hsn _ _ hc
      exact ⟨fun hf => hx.stalls (if_pos hf), fun hf => hx.completes (if_neg (Bool.eq_false_iff.1 hf))⟩

end Sys2Proof.Machine
end

section
/-! SUPPORT. What write-backs, accepted stores and fills do to memory and to the lines of the L1 (R80, R180, R181, R182). -/

namespace Sys2Proof.Machine

/-! ## The runs of a mask -/

/-- A run is not empty, and ends by the last byte looked at. -/
theorem dirtyRuns_within (m : BitVec 128) : ∀ (n i : Nat) (st : Option Nat), (∀ a ∈ st, a < i) →
    ∀ r ∈ dirtyRuns m n i st, 0 < r.2 ∧ r.1 + r.2 ≤ i + n
  | 0, i, some a, h, r, hr => by
    have := h a rfl
    obtain rfl := List.mem_singleton.1 hr
    simp only; omega
  | 0, _, none, _, _, hr => by cases hr
  | n + 1, i, st, h, r, hr => by
    unfold dirtyRuns at hr
    split at hr
    · have ih := dirtyRuns_within m n (i + 1) (some (st.getD i)) (fun a ha => by
        cases ha; cases st with
        | none => exact Nat.lt_succ_self i
        | some b => exact Nat.lt_succ_of_lt (h b rfl)) r hr
      omega
    · have ih := dirtyRuns_within m n (i + 1) none (by simp) r
      cases st with
      | none => have := ih hr; omega
      | some a =>
        have := h a rfl
        rcases List.mem_cons.1 hr with rfl | hr
        · simp only; omega
        · have := ih hr; omega

/-- The runs cover the bytes of the mask from byte i on, and the run that is open at i. -/
theorem dirtyRuns_cover (m : BitVec 128) (j : Nat) : ∀ (n i : Nat) (st : Option Nat), (∀ a ∈ st, a < i) →
    ((∃ r ∈ dirtyRuns m n i st, r.1 ≤ j ∧ j < r.1 + r.2) ↔ (∃ a ∈ st, a ≤ j ∧ j < i) ∨ (i ≤ j ∧ j < i + n ∧ m.getLsbD j = true))
  | 0, i, some a, h => by
    have := h a rfl
    simp only [dirtyRuns, List.mem_singleton, exists_eq_left, Option.mem_def, Option.some.injEq, exists_eq_left']
    omega
  | 0, i, none, _ => by simp [dirtyRuns]; omega
  | n + 1, i, st, h => by
    have split_first : (i ≤ j ∧ j < i + (n + 1) ∧ m.getLsbD j = true) ↔
        (j = i ∧ m.getLsbD i = true) ∨ (i + 1 ≤ j ∧ j < i + 1 + n ∧ m.getLsbD j = true) := by
      by_cases hj : j = i
      · subst hj; simp
      · constructor
        · rintro ⟨h1, h2, h3⟩; exact .inr ⟨by omega, by omega, h3⟩
        · rintro (⟨h1, -⟩ | ⟨h1, h2, h3⟩)
          · exact absurd h1 hj
          · exact ⟨by omega, by omega, h3⟩
    unfold dirtyRuns
    by_cases hm : m.getLsbD i = true
    · have hst : ∀ a ∈ some (st.getD i), a < i + 1 := fun a ha => by
        cases ha; cases st with
        | none => exact Nat.lt_succ_self i
        | some b => exact Nat.lt_succ_of_lt (h b rfl)
      rw [if_pos hm, dirtyRuns_cover m j n (i + 1) _ hst, split_first]
      have hrun : (st.getD i ≤ j ∧ j < i + 1) ↔ (∃ a ∈ st, a ≤ j ∧ j < i) ∨ j = i := by
        cases st with
        | none => simp; omega
        | some b => have := h b rfl; simp; omega
      simp only [Option.mem_def, Option.some.injEq, exists_eq_left', hm, and_true, ← or_assoc] at hrun ⊢
      rw [hrun]
    · rw [if_neg hm]
      have ih := dirtyRuns_cover m j n (i + 1) none (by simp)
      cases st with
      | none => simp only [ih, split_first, hm]; simp
      | some a =>
        have := h a rfl
        have hrun : (a ≤ j ∧ j < a + (i - a)) ↔ a ≤ j ∧ j < i := by omega
        simp only [List.mem_cons, or_and_right, exists_or, exists_eq_left, ih, split_first, hm, hrun]
        simp

/-- Byte j of the data of a line. -/
def lineByte (d : BitVec 1024) (j : Nat) : Byte := BitVec.ofNat 8 (d.toNat / 2 ^ (8 * j))

theorem leBytes_getD (n v i : Nat) (h : i < n) : (leBytes n v).getD i 0 = BitVec.ofNat 8 (v / 256 ^ i) := by
  induction n generalizing v i with
  | zero => omega
  | succ n ih =>
    cases i with
    | zero => simp [leBytes]
    | succ i => rw [leBytes, List.getD_cons_succ, ih _ _ (by omega), Nat.div_div_eq_div_mul, Nat.pow_succ']

/-- The bytes of a run are those of the line. -/
theorem run_byte (d : BitVec 1024) (off n i : Nat) (h : i < n) :
    (leBytes n (bitsAt d.toNat (8 * off) (8 * n))).getD i 0 = lineByte d (off + i) := by
  have e1 : (2 : Nat) ^ (8 * n) = 2 ^ (8 * i) * 2 ^ (8 * (n - i)) := by rw [← Nat.pow_add]; congr 1; omega
  have e2 : (2 : Nat) ^ (8 * off) * 2 ^ (8 * i) = 2 ^ (8 * (off + i)) := by rw [← Nat.pow_add]; congr 1; omega
  have e3 : (2 : Nat) ^ 8 ∣ 2 ^ (8 * (n - i)) := Nat.pow_dvd_pow 2 (by omega)
  rw [leBytes_getD _ _ _ h, lineByte, bitsAt, show (256 : Nat) = 2 ^ 8 by rfl, ← Nat.pow_mul, e1, Nat.mod_mul_right_div_self,
    Nat.div_div_eq_div_mul, e2]
  apply BitVec.eq_of_toNat_eq
  simp only [BitVec.toNat_ofNat, Nat.mod_mod_of_dvd _ e3]

/-- The runs of masked bytes: within the line, with its bytes, and covering the mask. -/
theorem maskedBytes_spec (m : BitVec 128) (d : BitVec 1024) :
    (∀ r ∈ maskedBytes m d, 0 < r.2.length ∧ r.1 + r.2.length ≤ 128 ∧ ∀ i, i < r.2.length → r.2.getD i 0 = lineByte d (r.1 + i)) ∧
    ∀ j, (∃ r ∈ maskedBytes m d, r.1 ≤ j ∧ j < r.1 + r.2.length) ↔ m.getLsbD j = true := by
  refine ⟨fun r hr => ?_, fun j => ?_⟩
  · obtain ⟨q, hq, rfl⟩ := List.mem_map.1 hr
    have := dirtyRuns_within m 128 0 none (by simp) q hq
    simp only [length_leBytes]
    exact ⟨this.1, by omega, fun i hi => run_byte d q.1 q.2 i hi⟩
  · have hc := dirtyRuns_cover m j 128 0 none (by simp)
    have hmask : (∃ r ∈ maskedBytes m d, r.1 ≤ j ∧ j < r.1 + r.2.length) ↔ ∃ q ∈ dirtyRuns m 128 0 none, q.1 ≤ j ∧ j < q.1 + q.2 := by
      constructor
      · rintro ⟨r, hr, hj⟩
        obtain ⟨q, hq, rfl⟩ := List.mem_map.1 hr
        exact ⟨q, hq, by simpa only [length_leBytes] using hj⟩
      · rintro ⟨q, hq, hj⟩
        exact ⟨_, List.mem_map.2 ⟨q, hq, rfl⟩, by simpa only [length_leBytes] using hj⟩
    rw [hmask, hc]
    simp only [Option.mem_def, reduceCtorEq, false_and, exists_false, false_or, Nat.zero_le, true_and, Nat.zero_add]
    exact ⟨fun h => h.2, fun h => ⟨by have := BitVec.lt_of_getLsbD h; omega, h⟩⟩

/-! ## Stores at the home slices -/

/-- Only bytes of memory, and what the part remembers of the queues' tail words (R91), may differ. -/
def HomeOnly (s s' : State) : Prop := s' = { s with mem := s'.mem, hostMem := s'.hostMem, nextId := s'.nextId, ctxs := s'.ctxs }

theorem HomeOnly.refl (s : State) : HomeOnly s s := rfl

theorem HomeOnly.trans {s s' s'' : State} (h : HomeOnly s s') (h' : HomeOnly s' s'') : HomeOnly s s'' := by
  unfold HomeOnly at h'
  rw [h] at h'
  exact h'

section
variable {s s' : State}

theorem HomeOnly.bad (h : HomeOnly s s') : s'.bad = s.bad := by rw [h]
theorem HomeOnly.cores (h : HomeOnly s s') : s'.cores = s.cores := by rw [h]
theorem HomeOnly.teams (h : HomeOnly s s') : s'.teams = s.teams := by rw [h]
theorem HomeOnly.posts (h : HomeOnly s s') : s'.posts = s.posts := by rw [h]
theorem HomeOnly.fills (h : HomeOnly s s') : s'.fills = s.fills := by rw [h]
theorem HomeOnly.clusters (h : HomeOnly s s') : s'.clusters = s.clusters := by rw [h]

end

theorem badAt_sound {s : State} (hb : s.bad = []) (pa n : Nat) : badAt s pa n = false := by simp [badAt, hb]

theorem homePut_homeOnly {s : State} (hb : s.bad = []) (who : Option Nat) (pa : Nat) (bs : List Byte) : HomeOnly s (homePut s who pa bs) := by
  rw [homePut_of_good who (badAt_sound hb pa _)]
  unfold HomeOnly
  rw [noteTail_frame]
  unfold rawWrite
  split <;> rfl

/-- Where no granule holds an error, a team's bytes are all accepted. -/
theorem teamHomeWrite_sound {s : State} (hb : s.bad = []) (k va pa : Nat) (bs : List Byte) (word : W64) :
    teamHomeWrite s k va pa bs word = homePut s (kernelOf s k) pa bs := by
  simp [teamHomeWrite, homePut, homeWrite, badAt_sound hb]

/-- A byte of memory after a store in tier 0 or 1. -/
theorem homeByte_homePut {s : State} (hb : s.bad = []) (who : Option Nat) {pa : Nat} {bs : List Byte} (h0 : 0 < bs.length)
    (hpa : pa + bs.length ≤ 2 ^ 48) (a : Nat) :
    homeByte (homePut s who pa bs) a = if pa ≤ a ∧ a < pa + bs.length then bs.getD (a - pa) 0 else homeByte s a := by
  rw [homePut_of_good who (badAt_sound hb pa _), noteTail_homeByte, rawWrite_device bs (by omega)]
  simp only [homeByte]
  split
  · rw [if_neg (by omega)]; rfl
  · exact Memory.byte_setBytes bs s.mem pa a

theorem sendLine_homeOnly {s : State} (hb : s.bad = []) (k : Nat) (w : LineWrite) (word : W64) : HomeOnly s (sendLine s k w word) := by
  unfold sendLine
  generalize maskedBytes w.mask w.data = l
  induction l generalizing s with
  | nil => exact HomeOnly.refl s
  | cons r l ih =>
    have h := homePut_homeOnly hb (kernelOf s k) (128 * w.pline + r.1) r.2
    rw [List.foldl_cons, teamHomeWrite_sound hb]
    exact h.trans (ih (h.bad.trans hb))

/-- The masked bytes of a line stand at its home slice, and every other byte as before. -/
def Arrives (s s' : State) (pline : Nat) (mask : BitVec 128) (data : BitVec 1024) : Prop :=
  (∀ j, j < 128 → homeByte s' (128 * pline + j) = if mask.getLsbD j then lineByte data j else homeByte s (128 * pline + j)) ∧
    ∀ a, a / 128 ≠ pline → homeByte s' a = homeByte s a

/-- A byte of memory after runs of a line have been stored: that of the line where a run covers it. -/
theorem homeByte_runs (k : Nat) (w : LineWrite) (word : W64) (hp : 128 * w.pline + 128 ≤ 2 ^ 48) (a : Nat) : ∀ (l : List (Nat × List Byte)) (s : State),
    s.bad = [] → (∀ r ∈ l, 0 < r.2.length ∧ r.1 + r.2.length ≤ 128 ∧ ∀ i, i < r.2.length → r.2.getD i 0 = lineByte w.data (r.1 + i)) →
    homeByte (l.foldl (fun st r => teamHomeWrite st k (128 * w.vline + r.1) (128 * w.pline + r.1) r.2 word) s) a =
      open Classical in if ∃ r ∈ l, 128 * w.pline + r.1 ≤ a ∧ a < 128 * w.pline + r.1 + r.2.length then lineByte w.data (a - 128 * w.pline) else homeByte s a
  | [], s, _, _ => by simp
  | r :: l, s, hb, hl => by
    obtain ⟨h0, h1, h2⟩ := hl r (by simp)
    have h := homePut_homeOnly hb (kernelOf s k) (128 * w.pline + r.1) r.2
    rw [List.foldl_cons, teamHomeWrite_sound hb, homeByte_runs k w word hp a l _ (h.bad.trans hb) fun q hq => hl q (by simp [hq]),
      homeByte_homePut hb _ h0 (by omega)]
    simp only [List.mem_cons, or_and_right, exists_or, exists_eq_left]
    by_cases hr : 128 * w.pline + r.1 ≤ a ∧ a < 128 * w.pline + r.1 + r.2.length
    · have := h2 (a - (128 * w.pline + r.1)) (by omega)
      rw [if_pos hr, this, show r.1 + (a - (128 * w.pline + r.1)) = a - 128 * w.pline by omega]
      simp [hr]
    · simp only [hr, false_or, if_false]

/-- What is sent of a line arrives (R180, R181). -/
theorem sendLine_arrives {s : State} (hb : s.bad = []) (k : Nat) (w : LineWrite) (word : W64) (hp : 128 * w.pline + 128 ≤ 2 ^ 48) :
    Arrives s (sendLine s k w word) w.pline w.mask w.data := by
  obtain ⟨hin, hcover⟩ := maskedBytes_spec w.mask w.data
  have hbyte := fun a => homeByte_runs k w word hp a _ s hb hin
  refine ⟨fun j hj => ?_, fun a ha => ?_⟩
  · have hc : (∃ r ∈ maskedBytes w.mask w.data, 128 * w.pline + r.1 ≤ 128 * w.pline + j ∧ 128 * w.pline + j < 128 * w.pline + r.1 + r.2.length) ↔
        w.mask.getLsbD j = true := by
      rw [← hcover j]
      simp only [Nat.add_assoc, Nat.add_le_add_iff_left, Nat.add_lt_add_iff_left]
    rw [sendLine, hbyte, Nat.add_sub_cancel_left]
    simp only [hc]
  · rw [sendLine, hbyte, if_neg]
    rintro ⟨r, hr, h1, h2⟩
    have := (hin r hr).2.1
    omega

/-! ## Write-backs -/

section
variable {s : State} {sl key : Nat} {l : Line}

/-- What a dirty line is sent as. -/
abbrev Line.sent (l : Line) : LineWrite := { vline := l.vline, pline := l.pline, mask := l.dirty, data := l.data }

theorem writeBack_dirty (hl : (s.core sl).l1.find key = some l) (hd : l.dirty ≠ 0) :
    writeBack s sl key = sendLine (setLine s sl key { l with dirty := 0, leaving := false }) l.writer l.sent 0 := by
  simp only [writeBack, hl, if_neg hd]

theorem setLine_find (s : State) (sl key : Nat) (l : Line) : ((setLine s sl key l).core sl).l1.find key = some l := by
  simp [setLine]

/-- A write-back puts the dirty bytes at their home slice and leaves the line clean (R180). -/
theorem writeBack_arrives (hb : s.bad = []) (hl : (s.core sl).l1.find key = some l) (hd : l.dirty ≠ 0) (hp : 128 * l.pline + 128 ≤ 2 ^ 48) :
    Arrives s (writeBack s sl key) l.pline l.dirty l.data ∧
      ((writeBack s sl key).core sl).l1.find key = some { l with dirty := 0, leaving := false } ∧ (writeBack s sl key).teams = s.teams := by
  rw [writeBack_dirty hl hd]
  have ho := sendLine_homeOnly (s := setLine s sl key { l with dirty := 0, leaving := false }) hb l.writer l.sent 0
  refine ⟨sendLine_arrives (s := setLine s sl key { l with dirty := 0, leaving := false }) hb l.writer l.sent 0 hp, ?_, ho.teams⟩
  rw [State.core, ho.cores]
  exact setLine_find s sl key _

end

/-! ## Accepted stores -/

theorem l2Touch_frame (s : State) (pa : Nat) : l2Touch s pa = { s with l2 := (l2Touch s pa).l2, l2Fill := (l2Touch s pa).l2Fill } := by
  unfold l2Touch
  split
  · rfl
  · dsimp only
    split <;> rfl

theorem storeDone_frame (s : State) (k num : Nat) : storeDone s k num = { s with teams := (storeDone s k num).teams } := by
  unfold storeDone
  split <;> rfl

/-- An accepted store puts its bytes at their home slice and is gone (R181, R184). -/
theorem acceptPost_arrives {s : State} {id : Nat} {p : Post} (hb : s.bad = []) (hp : s.posts.find id = some p) (hpl : 128 * p.write.pline + 128 ≤ 2 ^ 48) :
    Arrives s (acceptPost s id) p.write.pline p.write.mask p.write.data ∧ (acceptPost s id).posts.find id = none ∧ (acceptPost s id).cores = s.cores := by
  have key : ∀ s1 : State, (∀ a, homeByte s1 a = homeByte s a) → s1.bad = [] → s1.posts = s.posts.erase id → s1.cores = s.cores →
      let s' := storeDone (sendLine s1 p.team p.write 0) p.team p.num
      Arrives s s' p.write.pline p.write.mask p.write.data ∧ s'.posts.find id = none ∧ s'.cores = s.cores := by
    intro s1 hbyte hbad hposts hcores s'
    have ho := sendLine_homeOnly hbad p.team p.write 0
    have ha := sendLine_arrives hbad p.team p.write 0 hpl
    simp only [Arrives, hbyte] at ha
    simp only [s']
    rw [storeDone_frame]
    exact ⟨ha, by simp only [ho.posts, hposts, Table.find_erase_self], ho.cores.trans hcores⟩
  simp only [acceptPost, hp]
  split
  · refine key _ ?_ ?_ ?_ ?_ <;> rw [l2Touch_frame]
    · exact fun _ => rfl
    · exact hb
  · exact key _ (fun _ => rfl) hb rfl rfl

/-! ## Lines that leave, and the line that a fill installs -/

/-- No L1 has a line that it had not, but for its re-reference value, and teams, fills, errors and fusing are as they were. -/
structure LinesLeave (s s' : State) : Prop where
  lines : ∀ c, ∀ e ∈ (s'.core c).l1, ∃ e0 ∈ (s.core c).l1, e.1 = e0.1 ∧ e.2.vline = e0.2.vline ∧ e.2.oid = e0.2.oid
  teams : s'.teams = s.teams
  fills : s'.fills = s.fills
  bad : s'.bad = s.bad
  clusters : s'.clusters = s.clusters

theorem LinesLeave.refl (s : State) : LinesLeave s s := ⟨fun _ e he => ⟨e, he, rfl, rfl, rfl⟩, rfl, rfl, rfl, rfl⟩

theorem LinesLeave.trans {s s' s'' : State} (h : LinesLeave s s') (h' : LinesLeave s' s'') : LinesLeave s s'' := by
  refine ⟨fun c e he => ?_, h'.teams.trans h.teams, h'.fills.trans h.fills, h'.bad.trans h.bad, h'.clusters.trans h.clusters⟩
  obtain ⟨e1, he1, k1, v1, o1⟩ := h'.lines c e he
  obtain ⟨e0, he0, k0, v0, o0⟩ := h.lines c e1 he1
  exact ⟨e0, he0, k1.trans k0, v1.trans v0, o1.trans o0⟩

theorem LinesLeave.foldl {α : Type} {f : State → α → State} (hf : ∀ s x, s.bad = [] → LinesLeave s (f s x)) :
    ∀ (l : List α) (s : State), s.bad = [] → LinesLeave s (l.foldl f s)
  | [], s, _ => LinesLeave.refl s
  | x :: l, s, hb => (hf s x hb).trans (LinesLeave.foldl hf l (f s x) ((hf s x hb).bad.trans hb))

/-- What a core's update does to lines. -/
theorem LinesLeave.setCore {s : State} {c : Nat} {v : Core}
    (h : ∀ e ∈ v.l1, ∃ e0 ∈ (s.core c).l1, e.1 = e0.1 ∧ e.2.vline = e0.2.vline ∧ e.2.oid = e0.2.oid) : LinesLeave s (s.setCore c v) := by
  refine ⟨fun c' e he => ?_, rfl, rfl, rfl, rfl⟩
  rw [State.core_setCore] at he
  split at he
  · next hc => exact hc ▸ h e he
  · exact ⟨e, he, rfl, rfl, rfl⟩

theorem flushLine_leaves (s : State) (sl key : Nat) (hb : s.bad = []) : LinesLeave s (flushLine s sl key) := by
  -- all entries of the written-back L1 but the one at the key are old ones
  have hw : (writeBack s sl key).teams = s.teams ∧ (writeBack s sl key).fills = s.fills ∧ (writeBack s sl key).bad = s.bad ∧
      (writeBack s sl key).clusters = s.clusters ∧ (∀ c, c ≠ sl → (writeBack s sl key).core c = s.core c) ∧
      ∀ e ∈ ((writeBack s sl key).core sl).l1, e.1 ≠ key → e ∈ (s.core sl).l1 := by
    have hsame : (∀ c, c ≠ sl → s.core c = s.core c) ∧ ∀ e ∈ (s.core sl).l1, e.1 ≠ key → e ∈ (s.core sl).l1 :=
      ⟨fun _ _ => rfl, fun _ h _ => h⟩
    unfold writeBack
    split
    · exact ⟨rfl, rfl, rfl, rfl, hsame⟩
    · next l hl =>
      split
      · exact ⟨rfl, rfl, rfl, rfl, hsame⟩
      · have ho := sendLine_homeOnly (s := setLine s sl key { l with dirty := 0, leaving := false }) hb l.writer l.sent 0
        refine ⟨ho.teams, ho.fills, ho.bad, ho.clusters, fun c hc => ?_, fun e he hk => ?_⟩
        · rw [State.core, ho.cores]
          exact (State.core_setCore _ _ _ _).trans (if_neg hc)
        · rw [State.core, ho.cores] at he
          change e ∈ ((setLine s sl key { l with dirty := 0, leaving := false }).core sl).l1 at he
          rw [setLine, State.core_setCore_self, Table.put] at he
          rcases (Table.mem_insert _ _ _ _).1 he with rfl | he
          · exact absurd rfl hk
          · exact (List.mem_filter.1 he).1
  obtain ⟨hteams, hfills, hbad, hclusters, hother, hlines⟩ := hw
  refine ⟨fun c e he => ?_, hteams, hfills, hbad, hclusters⟩
  rw [flushLine, dropLine, State.core_setCore] at he
  split at he
  · next hc =>
    obtain ⟨he, hk⟩ := List.mem_filter.1 he
    exact ⟨e, hc ▸ hlines e he (by simpa using hk), rfl, rfl, rfl⟩
  · next hc => exact ⟨e, hother c hc ▸ he, rfl, rfl, rfl⟩

theorem Core.setBank_l1 (c : Core) (b : Nat) (v : Bank) : (c.setBank b v).l1 = c.l1 := by
  unfold Core.setBank
  split <;> rfl

theorem learn_leaves (s : State) (core oid : Nat) (g : Hist → Hist) : LinesLeave s (learn s core oid g) := by
  unfold learn
  dsimp only
  split
  · exact LinesLeave.setCore fun e he => ⟨e, Core.setBank_l1 .. ▸ he, rfl, rfl, rfl⟩
  · exact LinesLeave.refl s

theorem evict_leaves {s : State} (hb : s.bad = []) (core sl key oid : Nat) : LinesLeave s (evict s core sl key oid) := by
  unfold evict
  split
  · exact LinesLeave.refl s
  · dsimp only
    split
    · exact flushLine_leaves s sl key hb
    · exact (flushLine_leaves s sl key hb).trans (learn_leaves _ _ _ _)

/-- The victim's way is one of the set's eight, and choosing it changes re-reference values only (R81). -/
theorem chooseVictim_spec (set : Nat) : ∀ (n : Nat) (l1 : Table Line), (chooseVictim l1 set n).2 < 8 ∧
    ∀ e ∈ (chooseVictim l1 set n).1, ∃ e0 ∈ l1, e.1 = e0.1 ∧ e.2.vline = e0.2.vline ∧ e.2.oid = e0.2.oid
  | 0, _ => ⟨by simp [chooseVictim], fun e he => ⟨e, he, rfl, rfl, rfl⟩⟩
  | n + 1, l1 => by
    unfold chooseVictim
    split
    · next w hw =>
      refine ⟨?_, fun e he => ⟨e, he, rfl, rfl, rfl⟩⟩
      rcases Option.or_eq_some_iff.1 hw with h | ⟨-, h⟩ <;> exact List.mem_range.1 (List.mem_of_find?_eq_some h)
    · obtain ⟨hw, hl⟩ := chooseVictim_spec set n (l1.map fun e => (e.1, if e.1 / 8 = set then { e.2 with rrv := e.2.rrv + 1 } else e.2))
      refine ⟨hw, fun e he => ?_⟩
      obtain ⟨e1, he1, hk, hv, ho⟩ := hl e he
      obtain ⟨e0, he0, rfl⟩ := List.mem_map.1 he1
      refine ⟨e0, he0, hk, hv.trans ?_, ho.trans ?_⟩ <;> dsimp only <;> split <;> rfl

/-- A line put where the L1 has none at its address is the one found there. -/
theorem findLine_setLine {s : State} {core oid va key : Nat} {l : Line} (hn : findLine s core oid va = none)
    (hk : key / 8 = l1Set s core va) (hv : l.vline = va / 128) (ho : l.oid = oid) :
    findLine (setLine s (l1Slice s core va) key l) core oid va = some (l1Slice s core va, key, l) := by
  have hnone := List.find?_eq_none.1 (Option.map_eq_none_iff.1 hn)
  have hself : ((setLine s (l1Slice s core va) key l).core (l1Slice s core va)).l1 = (s.core (l1Slice s core va)).l1.put key l := by simp [setLine]
  rw [findLine, show l1Slice (setLine s (l1Slice s core va) key l) core va = l1Slice s core va from rfl,
    show l1Set (setLine s (l1Slice s core va) key l) core va = l1Set s core va from rfl]
  rw [hself]
  cases hf : ((s.core (l1Slice s core va)).l1.put key l).find? fun e => decide (e.1 / 8 = l1Set s core va ∧ e.2.vline = va / 128 ∧ e.2.oid = oid) with
  | none =>
    have := List.find?_eq_none.1 hf (key, l) ((Table.mem_insert _ _ _ _).2 (.inl rfl))
    simp [hk, hv, ho] at this
  | some e =>
    rcases (Table.mem_insert _ _ _ _).1 (List.mem_of_find?_eq_some hf) with rfl | he
    · rfl
    · exact absurd (List.find?_some hf) (hnone e (List.mem_filter.1 he).1)

/-- Lines that leave make no address hit. -/
theorem LinesLeave.findLine_none {s s' : State} (h : LinesLeave s s') {core oid va : Nat} (hn : findLine s core oid va = none) :
    findLine s' core oid va = none ∧ l1Slice s' core va = l1Slice s core va ∧ l1Set s' core va = l1Set s core va := by
  have hf : fusedL1 s' core = fusedL1 s core := by simp only [fusedL1, State.cluster, h.clusters]
  have hsl : l1Slice s' core va = l1Slice s core va := by simp only [l1Slice, hf]
  have hset : l1Set s' core va = l1Set s core va := by simp only [l1Set, hf]
  refine ⟨?_, hsl, hset⟩
  have hnone := List.find?_eq_none.1 (Option.map_eq_none_iff.1 hn)
  rw [findLine, hsl, hset, Option.map_eq_none_iff, List.find?_eq_none]
  intro e he
  obtain ⟨e0, he0, hk, hv, ho⟩ := h.lines _ e he
  have := hnone e0 he0
  rwa [hk, hv, ho]

theorem acceptPosts_nil {s : State} (h : s.posts = []) (p : Post → Bool) : acceptPosts s p = s := by simp [acceptPosts, h]

theorem fillRrv_cases (h : Hist) (sig : Nat) : fillRrv h sig = 2 ∨ fillRrv h sig = 3 := by
  unfold fillRrv
  split
  · exact .inr rfl
  · exact .inl rfl

/-- The line that a fill installs (R80): what is found at its address. -/
theorem installLine_spec {s : State} {f : Fill} (hb : s.bad = []) (hp : s.posts = []) (hn : findLine s f.core f.oid (128 * f.vline) = none) :
    ∃ sl key l, findLine (installLine s f) f.core f.oid (128 * f.vline) = some (sl, key, l) ∧ l.pline = f.pline ∧ l.dirty = 0 ∧
      l.data = BitVec.ofNat 1024 (homeNat (installLine s f) (128 * f.pline) 128) ∧ (l.rrv = 2 ∨ l.rrv = 3) ∧
      (installLine s f).teams = s.teams ∧ (installLine s f).fills = s.fills := by
  unfold installLine
  rw [acceptPosts_nil hp]
  dsimp only
  generalize hs1 : (l1Cores s f.core).foldl (fun st c => eachLine st c (fun l => decide (l.pline = f.pline)) flushLine) s = s1
  have h1 : LinesLeave s s1 := hs1 ▸ LinesLeave.foldl (fun st c hb => LinesLeave.foldl (fun st e hb => flushLine_leaves st c e.1 hb) _ st hb) _ s hb
  generalize hset : l1Set s f.core (128 * f.vline) = set
  generalize hsl : l1Slice s f.core (128 * f.vline) = sl
  generalize hv : chooseVictim (s1.core sl).l1 set 4 = v
  obtain ⟨hway, hlines⟩ := chooseVictim_spec set 4 (s1.core sl).l1
  rw [hv] at hway hlines
  have h2 : LinesLeave s1 (s1.setCore sl { s1.core sl with l1 := v.1 }) := LinesLeave.setCore hlines
  have h3 := evict_leaves (s := s1.setCore sl { s1.core sl with l1 := v.1 }) (h1.bad.trans hb) f.core sl (8 * set + v.2) f.oid
  generalize evict (s1.setCore sl { s1.core sl with l1 := v.1 }) f.core sl (8 * set + v.2) f.oid = s2 at h3
  have h4 : LinesLeave s2 (l2Touch s2 (128 * f.pline)) := by rw [l2Touch_frame]; exact ⟨(LinesLeave.refl s2).lines, rfl, rfl, rfl, rfl⟩
  generalize l2Touch s2 (128 * f.pline) = s3 at h4
  have hall := ((h1.trans h2).trans h3).trans h4
  obtain ⟨hn3, hsl3, hset3⟩ := hall.findLine_none hn
  have hfind := fun l : Line => findLine_setLine (l := l) (key := 8 * set + v.2) hn3 (by rw [hset3, hset]; omega)
  rw [hsl3, hsl] at hfind
  exact ⟨sl, _, _, hfind _ (Nat.mul_div_cancel_left _ (by omega)).symm rfl, rfl, rfl, rfl, fillRrv_cases _ _, hall.teams, hall.fills⟩

/-- A fill that nothing discards and no store joined installs its line (R80, R81). -/
theorem completeFill_installs {s : State} {id : Nat} {f : Fill} (hb : s.bad = []) (hf : s.fills.find id = some f) (hp : s.posts = [])
    (h2 : f.l2Only = false) (hd : f.discard = false) (hst : f.stores = []) (hn : findLine s f.core f.oid (128 * f.vline) = none) :
    ∃ sl key l, findLine (completeFill s id) f.core f.oid (128 * f.vline) = some (sl, key, l) ∧ l.pline = f.pline ∧ l.dirty = 0 ∧
      l.data = BitVec.ofNat 1024 (homeNat (completeFill s id) (128 * f.pline) 128) ∧ (l.rrv = 2 ∨ l.rrv = 3) ∧
      (completeFill s id).teams = s.teams ∧ (completeFill s id).fills.find id = none := by
  have hg : badAt { s with fills := s.fills.erase id } (128 * f.pline) 128 = false := badAt_sound hb _ _
  obtain ⟨sl, key, l, hfind, hpl, hdirty, hdata, hrrv, hteams, hfills⟩ :=
    installLine_spec (s := { s with fills := s.fills.erase id }) (f := f) hb hp hn
  simp only [completeFill, hf, h2, hd, hg, hst, Bool.or_self, Bool.false_eq_true, if_false, List.foldl_nil]
  exact ⟨sl, key, l, hfind, hpl, hdirty, hdata, hrrv, hteams, by
    simp only [bindLoads, hfills, Table.find_erase_self]⟩

/-- A fill for the L2 only, or one that an acquire has discarded, installs no line (R182, R215). -/
theorem completeFill_installs_none {s : State} {id : Nat} {f : Fill} (hf : s.fills.find id = some f) (h : f.l2Only = true ∨ (f.discard = true ∧ f.stores = [])) :
    (completeFill s id).cores = s.cores ∧ (completeFill s id).mem = s.mem ∧ (completeFill s id).teams = s.teams ∧ (completeFill s id).fills.find id = none := by
  simp only [completeFill, hf]
  by_cases h2 : f.l2Only = true
  · rw [if_pos h2, l2Touch_frame]
    exact ⟨rfl, rfl, rfl, Table.find_erase_self _ _⟩
  · obtain ⟨hd, hst⟩ := h.resolve_left h2
    simp only [h2, hd, hst, Bool.true_or, Bool.false_eq_true, if_false, if_true, List.foldl_nil]
    exact ⟨rfl, rfl, rfl, Table.find_erase_self _ _⟩

/-- Settles O39: it holds. A line's masked bytes are runs that the home slice accepts (sendLine_arrives), so a write-back and an accepted store move
exactly them; what a fill does before it puts its line takes lines away only (LinesLeave), so its line is the one found. -/
theorem cachesMoveBytesHome : Obligations.CachesMoveBytesHome := by
  intro s hb arrives
  refine ⟨fun core key l hl => ⟨fun hlv hd hp => ?_, fun hlv => ?_, fun hd hc => ?_, fun hc => ?_⟩, fun id p hp hpl => ?_,
    fun id f hf hposts h2 hd hst hn => ?_, fun id f hf h => ⟨_, rfl, completeFill_installs_none hf h⟩⟩
  · exact ⟨writeBack s core key, by simp [exec, execWriteBackAccepted, hl, hlv], writeBack_arrives hb hl hd hp⟩
  · simp [exec, execWriteBackAccepted, hl, hlv]
  · exact ⟨setLine s core key { l with leaving := true }, by simp only [exec, execDirtyLineTimeout, hl, if_pos (And.intro hd hc)], setLine_find _ _ _ _, rfl, rfl⟩
  · simp [exec, execDirtyLineTimeout, hl, Nat.not_le.2 hc]
  · exact ⟨_, rfl, acceptPost_arrives hb hp hpl⟩
  · obtain ⟨sl, key, l, h⟩ := completeFill_installs hb hf hposts h2 hd hst hn
    exact ⟨_, sl, key, l, rfl, h⟩

end Sys2Proof.Machine
end

section
/-! SUPPORT. What vol.ld and vol.probe read of the tree, and the rest of the volume forms that change no tile (R84, R262, R268, R269, R271,
R273). -/

namespace Sys2Proof.Machine

/-! ## Steps 2 and 3 of R268 -/

section
variable {i : Instr} {s : State} {k : Nat} {t : Team} {f : VR} {acc : Nat} {size : Nat → Bool} {need : VNeed} {cas : VDesc → W64 → Bool}
  {go : State → VDesc → List VLane → List VTile → Res}

/-- A vol word with no lane to act on does nothing. -/
theorem volFront_noLanes (hl : maskLanes (resumedLanes t f.g) t.width = []) : volFront s k t f acc size need cas go = .commit s := by
  simp [volFront, hl]

/-- A handle that is no multiple of 128 raises MISALIGN for every lane (R268). -/
theorem volFront_misaligned (hl : maskLanes (resumedLanes t f.g) t.width ≠ []) (hfree : peerHold s k = false)
    (hsn : wideSnare s k t (resumedLanes t f.g) (reachKind acc 128) [(extVA (opdS s k t f.b), 128)] = none) (ha : extVA (opdS s k t f.b) % 128 ≠ 0) :
    volFront s k t f acc size need cas go =
      .trap s { bits := cMisalign, addr := BitVec.ofNat 64 (extVA (opdS s k t f.b)), mask := resumedLanes t f.g } := by
  have hgo : peerHold s k = false ∧ (ordRel 0 && peerOut s k) = false := ⟨hfree, rfl⟩
  simp only [volFront, List.isEmpty_iff, hl, if_false, memGo_free hgo, reachVa, withWide_none hsn, if_pos ha, volTrap]

/-- The checks of a vol word before step 4 (R268): what it comes to when one of them fails. -/
theorem volChecks (hx : ComesTo i s k t (volFront s k t f accR size need cas go)) :
    (maskLanes (resumedLanes t f.g) t.width = [] → Completes i s k t s) ∧
    (maskLanes (resumedLanes t f.g) t.width ≠ [] → peerHold s k = false →
      wideSnare s k t (resumedLanes t f.g) 1 [(extVA (opdS s k t f.b), 128)] = none → extVA (opdS s k t f.b) % 128 ≠ 0 →
      Traps i s k t s { bits := cMisalign, addr := BitVec.ofNat 64 (extVA (opdS s k t f.b)), mask := resumedLanes t f.g }) ∧
    ∀ s1 pa, DescGoes s k t f accR s1 pa →
      (volDescOk s1 (volDesc s1 (ctxPart s t.oid) (extVA (opdS s k t f.b)) pa) = false →
        Traps i s k t s1 { bits := cTileFormat, addr := volWord (lowLane (resumedLanes t f.g)) 5 4, mask := resumedLanes t f.g }) ∧
      (volDescOk s1 (volDesc s1 (ctxPart s t.oid) (extVA (opdS s k t f.b)) pa) = true →
        size (volDesc s1 (ctxPart s t.oid) (extVA (opdS s k t f.b)) pa).e = false →
        Traps i s k t s1 { bits := cTileFormat, addr := volWord (lowLane (resumedLanes t f.g)) 5 5, mask := resumedLanes t f.g }) := by
  refine ⟨fun hl => hx.completes (volFront_noLanes hl), fun hl hfree hsn ha => hx.traps (volFront_misaligned hl hfree hsn ha),
    fun s1 pa hd => ⟨fun hok => hx.traps ?_, fun hok hsz => hx.traps ?_⟩⟩
  · simp only [volFront_desc hd, hok, Bool.not_false, if_true, volTrap]
  · simp only [volFront_desc hd, hok, hsz, Bool.not_true, Bool.false_eq_true, if_false, Bool.not_false, if_true, volTrap]

end

/-! ## The tiles of the lanes -/

section
variable {k : Nat} {t : Team} {d : VDesc}

theorem tileOf_tile (s : State) (k : Nat) (d : VDesc) (tile : Tile) (w : VWalk) : (tileOf s k d tile w).2.tile = tile := by
  fun_cases tileOf <;> rfl

theorem volTiles_tiles : ∀ (l : List Tile) (s : State), (volTiles k t d l s).2.map (·.tile) = l
  | [], _ => rfl
  | x :: r, s => by
    rw [volTiles, List.map_cons, volTiles_tiles r, volTile, tileOf_tile]

theorem freshTile_tile (s : State) (cas : W64 → Bool) (v : VTile) : (freshTile s k t d cas v).2.tile = v.tile := by
  fun_cases freshTile
  case case4 => exact tileOf_tile _ _ _ _ _
  all_goals rfl

theorem freshTiles_tiles (cas : W64 → Bool) : ∀ (l : List VTile) (s : State), (freshTiles k t d cas l s).2.map (·.tile) = l.map (·.tile)
  | [], _ => rfl
  | v :: r, s => by
    rw [freshTiles, List.map_cons, List.map_cons, freshTiles_tiles cas r, freshTile_tile]

/-- The tiles of lanes: those found before, and those that the lanes name. -/
theorem mem_tilesOf_from (x : Tile) : ∀ (ls : List VLane) (acc : List Tile),
    x ∈ acc ∨ (∃ l ∈ ls, ∃ n, l.inside = some (x, n)) →
    x ∈ ls.foldl (fun acc l => match l.inside with | some x => if acc.contains x.1 then acc else acc ++ [x.1] | none => acc) acc
  | [], acc, h => by simpa using h
  | l :: r, acc, h => by
    rw [List.foldl_cons]
    refine mem_tilesOf_from x r _ ?_
    rcases h with h | ⟨l', hl', n, hn⟩
    · left
      split
      · split
        · exact h
        · exact List.mem_append_left _ h
      · exact h
    · rcases List.mem_cons.1 hl' with rfl | hl'
      · left
        rw [hn]
        dsimp only
        split
        · next hc => exact List.contains_iff_mem.1 hc
        · exact List.mem_append_right _ (List.mem_singleton.2 rfl)
      · exact .inr ⟨l', hl', n, hn⟩

theorem mem_tilesOf {ls : List VLane} {l : VLane} {x : Tile} {n : Nat} (hl : l ∈ ls) (hi : l.inside = some (x, n)) : x ∈ tilesOf ls :=
  mem_tilesOf_from x ls [] (.inr ⟨l, hl, n, hi⟩)

theorem findTile_of_mem {ts : List VTile} {x : Tile} (h : x ∈ ts.map (·.tile)) : ∃ v, findTile ts x = some v := by
  obtain ⟨v, hv, he⟩ := List.mem_map.1 h
  exact Option.isSome_iff_exists.1 (List.find?_isSome.2 ⟨v, hv, decide_eq_true he⟩)

/-- Every tile that a lane names has been walked. -/
theorem VolGoes.tile {s s2 : State} {f : VR} {acc : Nat} {size : Nat → Bool} {need : VNeed} {cas : VDesc → W64 → Bool} {ls : List VLane}
    {ts : List VTile} (h : VolGoes s k t f acc size need cas s2 d ls ts) {l : VLane} {x : Tile} {n : Nat} (hl : l ∈ ls) (hi : l.inside = some (x, n)) :
    ∃ v, findTile ts x = some v := by
  obtain ⟨s1, pa, sa, ta, -, -, -, -, -, htiles, -, hfresh, -⟩ := h
  have hts : ts.map (·.tile) = tilesOf ls := by
    rw [show ts = (freshTiles k t d (cas d) ta sa).2 by rw [hfresh], freshTiles_tiles, show ta = (volTiles k t d (tilesOf ls) s1).2 by rw [htiles],
      volTiles_tiles]
  exact findTile_of_mem (hts ▸ mem_tilesOf hl hi)

end

/-! ## Values and statuses of lanes -/

section
variable {d : VDesc} {ts : List VTile} {l : VLane} {tile : Tile} {n : Nat} {v : VTile}

/-- A lane outside the volume reads the background (R262). -/
theorem volRead_outside (hi : l.inside = none) : volRead d ts l = d.bg := by simp [volRead, hi]

/-- A lane whose tile's deciding entry is e reads by its kind: the background, the constant, or the element of the leaf (R259, R262). -/
theorem volRead_found (hi : l.inside = some (tile, n)) (hv : findTile ts tile = some v) {level pa : Nat} {e : W64} (hw : v.walk = .found level pa e) :
    volRead d ts l = if veKind e = 0 then d.bg else if veKind e = 3 then constVal e d.e else elemVal v.raw (veFmt e) d.e d.bg n := by
  simp only [volRead, hi, hv, hw]

/-- An element of a DENSE tile (R260). -/
theorem elemVal_dense (raw : List Byte) (e bg n : Nat) : elemVal raw 0 e bg n = leNat ((raw.drop (e * n)).take e) := rfl

/-- An element of a BITMAP tile (R260). -/
theorem elemVal_bitmap (raw : List Byte) (e bg n : Nat) :
    elemVal raw 1 e bg n = if (rawNat raw 0 64).testBit n then leNat ((raw.drop (72 + e * bitmapBelow raw n)).take e) else bg := by
  simp only [elemVal, elemAt]
  split <;> rename_i h <;> split at h
  · cases h; rw [if_pos ‹_›]; rfl
  · cases h
  · cases h
  · rw [if_neg ‹_›]

theorem probeStatus_outside (hi : l.inside = none) : probeStatus ts l = 3 := by simp [probeStatus, hi]

/-- The status of a malformed entry (R271). -/
theorem probeStatus_bad (hi : l.inside = some (tile, n)) (hv : findTile ts tile = some v) {level : Nat} (hw : v.walk = .bad level) :
    probeStatus ts l = 2 ^ 18 + 16 * level := by
  simp only [probeStatus, hi, hv, hw]
  omega

/-- The fields of the status of a deciding entry: kind, level, and of a leaf its format and whether its check failed (R271). -/
theorem probeStatus_found (hi : l.inside = some (tile, n)) (hv : findTile ts tile = some v) {level pa : Nat} {e : W64} (hw : v.walk = .found level pa e)
    (hl : level < 8) :
    bitsAt (probeStatus ts l) 4 3 = level ∧ (veKind e = 0 → bitsAt (probeStatus ts l) 0 2 = 0) ∧ (veKind e = 3 → bitsAt (probeStatus ts l) 0 2 = 1) ∧
      (veKind e = 2 → bitsAt (probeStatus ts l) 0 2 = 2 ∧ bitsAt (probeStatus ts l) 2 2 = veFmt e ∧
        bitsAt (probeStatus ts l) 17 1 = if v.why = 0 then 0 else 1) := by
  have hfmt : veFmt e < 4 := Nat.mod_lt _ (by decide)
  simp only [probeStatus, hi, hv, hw]
  by_cases h2 : veKind e = 2
  · have hwhy : (if v.why ≠ 0 then 2 ^ 17 else 0) = 2 ^ 17 * if v.why = 0 then 0 else 1 := by by_cases hz : v.why = 0 <;> simp [hz]
    have hone : (if v.why = 0 then 0 else 1) < 2 := by split <;> decide
    simp only [h2, if_true, hwhy]
    generalize (if v.why = 0 then 0 else 1) = b at hone
    generalize (if veFmt e = 0 then 512 else if veFmt e = 1 then rawNat v.raw 64 2 else rawNat v.raw 2 2) = stored
    simp only [bitsAt]
    omega
  · have hkind : (if veKind e = 3 then 1 else 0) < 2 := by split <;> decide
    simp only [h2, if_false, false_imp_iff, and_true]
    refine ⟨?_, fun h => ?_, fun h => ?_⟩
    · generalize (if veKind e = 3 then 1 else 0) = b at hkind
      simp only [bitsAt]
      omega
    · simp only [h, bitsAt]; simp; omega
    · simp only [h, bitsAt]; simp; omega

end

/-! ## vol.sync, vol.inv and pre-walks -/

section
variable {s : State} {k : Nat} {t : Team} {f : VR}

/-- vol.sync is the fence of its order and scope (R273). -/
theorem volSync_fences (h : Issues (.volSync f) s k t) : Once (.volSync f) f.g s k t (
    (peerHold s k = true → Stalls (.volSync f) s k) ∧
    ((peerHold s k || (ordRel (fld f.m 0 2) && peerOut s k) || (ordAcq (fld f.m 0 2) && peerLoadOut s k)) = false →
      Completes (.volSync f) s k t
        (let s1 := if ordRel (fld f.m 0 2) then drain s k t else s
         if ordAcq (fld f.m 0 2) then acquire (bindTeam s1 k) k t (fld f.m 2 3) else s1))) := by
  refine h.once rfl fun hx => ⟨fun hp => hx.stalls (if_pos hp), fun hp => hx.completes ?_⟩
  rw [Bool.or_assoc, Bool.or_eq_false_iff] at hp
  obtain ⟨hhold, hout⟩ := hp
  simp only [hhold, Bool.false_eq_true, if_false, fenceWith, hout]

/-- vol.inv drops the entries of the OID and the handle from the cluster's CLB (R273). -/
theorem volInv_drops (h : Issues (.volInv f) s k t) : Once (.volInv f) f.g s k t (∃ s1, Completes (.volInv f) s k t s1 ∧
    (∀ x, x ∈ (s1.cluster (clusterOf (keyCore k))).clb ↔
      x ∈ (s.cluster (clusterOf (keyCore k))).clb ∧ ¬(x.oid = t.oid ∧ x.handle = extVA (opdS s k t f.b))) ∧
    (∀ c, c ≠ clusterOf (keyCore k) → s1.cluster c = s.cluster c) ∧ s1.teams = s.teams ∧ s1.mem = s.mem ∧ s1.cores = s.cores) := by
  refine h.once rfl fun hx => ⟨_, hx.completes rfl, fun x => ?_, fun c hc => ?_, rfl, rfl, rfl⟩
  · rw [State.cluster_setCluster, if_pos rfl]
    simp only [List.mem_filter, Bool.not_eq_true', decide_eq_false_iff_not]
  · rw [State.cluster_setCluster, if_neg hc]

end

/-- What an installation in a CLB leaves as it was (R263). -/
structure OnlyCluster (s s' : State) (cl : Nat) : Prop where
  walks : s'.walks = s.walks
  teams : s'.teams = s.teams
  mem : s'.mem = s.mem
  hostMem : s'.hostMem = s.hostMem
  others : ∀ c, c ≠ cl → s'.cluster c = s.cluster c

theorem OnlyCluster.refl (s : State) (cl : Nat) : OnlyCluster s s cl := ⟨rfl, rfl, rfl, rfl, fun _ _ => rfl⟩

theorem clbInstall_onlyCluster (s : State) (cl oid handle : Nat) (tile : Tile) (level pa : Nat) (e : W64) :
    OnlyCluster s (clbInstall s cl oid handle tile level pa e) cl := by
  unfold clbInstall
  dsimp only
  split <;> exact ⟨rfl, rfl, rfl, rfl, fun c hc => by rw [State.cluster_setCluster, if_neg hc]⟩

/-- A pre-walk is gone and changes at most its cluster's CLB (R84). -/
theorem preWalk_onlyCluster {s : State} {id : Nat} {w : PreWalk} (hw : s.walks.find id = some w) :
    ∃ s', exec (.clusterClbPreWalk id) s = .next s' ∧ OnlyCluster { s with walks := s.walks.erase id } s' w.cluster := by
  refine ⟨_, rfl, ?_⟩
  simp only [hw]
  split
  · split
    · exact OnlyCluster.refl _ _
    · split
      · exact clbInstall_onlyCluster _ _ _ _ _ _ _ _
      · exact OnlyCluster.refl _ _
  · exact OnlyCluster.refl _ _

/-- Settles O47: it holds. vol.ld and vol.probe share the checks of R268 (volChecks, volFront_goes); every tile that a lane names has been walked
(VolGoes.tile), and its deciding entry gives the lane's value or status. -/
theorem volumeReadsAndProbes : Obligations.VolumeReadsAndProbes := by
  intro f s k t m va cl ld pr n keep front
  refine ⟨fun h => volChecks (h.comesTo rfl), fun h => volChecks (h.comesTo rfl), fun h s2 d ls ts hg => ⟨(h.comesTo rfl).completes (volFront_goes hg _), ?_⟩,
    fun h s2 d ls ts hg => ⟨(h.comesTo rfl).completes (volFront_goes hg _), ?_⟩, fun h => ?_, volInv_drops, fun id => ⟨fun hw => ?_, fun w hw => ?_⟩⟩
  · refine fun l hl => ⟨volRead_outside, fun tile j hi => ?_⟩
    obtain ⟨v, hv⟩ := hg.tile hl hi
    refine ⟨v, hv, fun level pa e hw => ?_⟩
    rw [volRead_found hi hv hw]
    refine ⟨fun h0 => if_pos h0, fun h3 => by simp [h3], fun h2 hf => by simp [h2, hf, elemVal_dense], fun h2 hf => by simp [h2, hf, elemVal_bitmap]⟩
  · exact fun l _ => ⟨probeStatus_outside, fun tile j v hi hv => ⟨fun level hw _ => probeStatus_bad hi hv hw, fun level pa e hw hlt => probeStatus_found hi hv hw hlt⟩⟩
  · simpa only [ordRel, ordAcq, decide_eq_true_eq] using volSync_fences h
  · simp [exec, execClusterClbPreWalk, hw]
  · obtain ⟨s', hx, ho⟩ := preWalk_onlyCluster hw
    exact ⟨s', hx, ho.walks ▸ Table.find_erase_self _ _, ho.teams, ho.mem, ho.hostMem, ho.others⟩

end Sys2Proof.Machine
end

section
/-! SUPPORT. A word that acts once for its team, found by a wait record and guarded off (R111, R221, R224): its step ends the wait, and the
frame of a word that writes registers only does not allow that. -/

namespace Sys2Proof.Machine

/-- A guarded word that no active lane passes ends the wait that its team has come back from, and clears its record. -/
theorem Issues.endsWait {i : Instr} {s : State} {k : Nat} {t u : Team} {g : Guard} {body : Nat → Team → State → Res} (h : Issues i s k t)
    (hx : exec i s = .next (issue i s (Machine.once g body))) (hg : teamRuns t g = false) (hu : s.team k = some u) (hw : u.waitKind.resumes = true) :
    Completes i s k t (s.setTeam k { u with waitKind := .none, wait := 0 }) := by
  have hend : endWait s k = s.setTeam k { u with waitKind := .none, wait := 0 } := by simp only [endWait, hu, hw, if_true]
  exact hend ▸ (h.once hx (acts := True) fun _ => trivial).1 hg

/-- Such a word does not leave its team's special state as it was: the wait record is part of it (Team.rest). -/
theorem Issues.not_writesD {i : Instr} {s : State} {k : Nat} {t u : Team} {g : Guard} {body : Nat → Team → State → Res} (h : Issues i s k t)
    (hx : exec i s = .next (issue i s (Machine.once g body))) (hg : teamRuns t g = false) (hu : s.team k = some u) (hw : u.waitKind.resumes = true)
    (hrec : u.wait ≠ 0) (d : Opd) (wide : Bool) (val : Nat → W64) : ¬ WritesD i s k t g d wide val := by
  rintro ⟨s', hs', -, -, huntouched, -⟩
  obtain ⟨t', ht', hrest, -⟩ := huntouched.own
  -- the state that the word leaves is the committed one with the wait ended
  obtain rfl : committed (s.setTeam k { u with waitKind := .none, wait := 0 }) k t = s' :=
    Host.Outcome.next.inj ((h.endsWait hx hg hu hw).symm.trans hs')
  obtain ⟨t0, ht0, hclaim⟩ := h.stored
  obtain rfl : u = t0 := Option.some.inj (hu.symm.trans ht0)
  obtain ⟨w, hkind⟩ := claimWait_eq i u
  have hsame : SameClause t { u with waitKind := .none, wait := 0 } := by rw [hclaim, hkind]; exact ⟨rfl, rfl, rfl, rfl, rfl⟩
  obtain ⟨-, ⟨t1, ht1, hteam, -⟩, -⟩ := committed_spec (State.team_setTeam_self s k { u with waitKind := .none, wait := 0 }) hsame
  obtain rfl : t1 = t' := Option.some.inj (ht1.symm.trans ht')
  have hwait : t.wait = 0 := congrArg Team.wait (hrest.symm.trans hteam.rest)
  rw [hclaim, hkind] at hwait
  exact hrec hwait

/-- A guard that names a predicate of no lane keeps a word from acting (R111). -/
theorem teamRuns_noLanes {t : Team} {n : Fin 7} (h : t.preg n.val = 0) : teamRuns t (.pos n) = false := by
  have hoff : t.e &&& t.preg n.val = 0 := (congrArg (t.e &&& ·) h).trans BitVec.and_zero
  have hnone : lanesOf t (.pos n) = 0 := (congrArg (· &&& lowMask t.width) hoff).trans BitVec.zero_and
  exact decide_eq_false fun hne => hne ((congrArg (· &&& lowMask t.width) hnone).trans BitVec.zero_and)

/-! ## clk, guarded off, behind a wait -/

/-- The word @p0 clk s2. -/
def guardedClk : SYS := { g := .pos 0, d := .s 2, a := .none, hi := 0, lo := 0 }

theorem encode_guardedClk : encode (.clk guardedClk) = some 0xcac205ff00000000#64 := rfl

/-- A team of width 32, after reset, that has come back from a bar.wait with its record, whose p0 is false in every lane, and whose clause now has the
word @p0 clk s2 at the resume point. -/
def backFromWait : Team :=
  { Team.blank 32 with clause := [headerFor (classFor 0x32b), 0xcac205ff00000000#64], waitKind := .bar, wait := waitMake [(0, 16)] }

/-- That team holds pipe 0 of core 0; everything else is as after reset. -/
def clkBehindWait : State :=
  { State.reset with teams := [(0, backFromWait)], cores := [(0, { Core.reset with pipes := [(0, 0)] })] }

theorem guardedClk_off : teamRuns backFromWait guardedClk.g = false :=
  teamRuns_noLanes (t := backFromWait) (n := 0) (by unfold Team.preg; rfl)

/-- The word issues there. -/
theorem guardedClk_issues : Issues (.clk guardedClk) clkBehindWait 0 backFromWait where
  pipe := by decide
  team := rfl
  ready := by decide
  going := by decide
  check2 := by decide
  check3 := by decide
  check4 := by decide
  noSnare := by decide
  free := by decide
  sound := by intro p hp; cases hp

/-- Refutes O52: the clause on clk says that the word writes D and leaves its team's wait record as it was, for every guard. Where no active lane passes
the guard, the word ends a wait that its team has come back from (endWait), and clears the record. The clauses on clk.lamport and dgst have the
same fault; those on the other words that act once are stated under their guard (Once). -/
theorem not_systemRegistersHistoryAndClocks : ¬ Obligations.SystemRegistersHistoryAndClocks := by
  intro h
  obtain ⟨hwords, -⟩ := h
  obtain ⟨-, -, -, -, hclk, -⟩ := hwords guardedClk clkBehindWait 0 backFromWait
  exact guardedClk_issues.not_writesD rfl guardedClk_off rfl rfl (by decide) _ _ _ (hclk guardedClk_issues)

end Sys2Proof.Machine
end

section
/-! SUPPORT. The float forms that write D: element by element from up to three sources, or with a value of their own (R143, R146, R150 to R155). -/

namespace Sys2Proof.Machine

/-- A float form whose result stands in the low 32 bits takes one register of D. -/
theorem ComputesFloat.of_narrow {i : VR → Instr} {ty : VR → ETy} {val : VR → Nat → Team → State → Nat → Nat × Exc}
    (hx : ∀ f s, exec (i f) s = .next (issue (i f) s fun k t s => fpForm f.g f.d false (ty f) k t s (val f k t s))) :
    ComputesFloat i (fun _ => false) ty val :=
  .of hx fun _ hw => absurd hw Bool.false_ne_true

/-- A float form whose result has its own type takes what that type takes of D. -/
theorem ComputesFloat.of_own {i : VR → Instr} {val : VR → Nat → Team → State → Nat → Nat × Exc}
    (hx : ∀ f s, exec (i f) s = .next (issue (i f) s fun k t s => fpForm f.g f.d f.t.wide f.t k t s (val f k t s)))
    (hu : ∀ f, ut f.t f.d ∈ (i f).uses) : ComputesFloat i (fun f => f.t.wide) (fun f => f.t) val :=
  .of hx fun f hw => ut_wide f.d hw ▸ hu f

/-- A form of three float sources is the frame of R143 with one operation for every element. -/
theorem ComputesElements.of {i : VR → Instr} {op : VR → Fmt → FEnv → Nat → Nat → Nat → Nat × Exc}
    (hx : ∀ f s, exec (i f) s = fpForm3 (i f) f (op f) s) (hu : ∀ f, ut f.t f.d ∈ (i f).uses) : ComputesElements i op :=
  ComputesFloat.of_own hx hu

/-- Settles O15: it holds. The sums, products and fused products are forms of three sources; fscale and fdot2 give the frame of R143 a value
of their own, which for fdot2 is an f32. -/
theorem floatArithmetic : Obligations.FloatArithmetic := by
  refine ⟨?fadd, ?fsub, ?fmul, ?ffma, ?fpma, ?fscale, ?fdot2⟩
  case fadd | fsub | fmul | ffma | fpma => exact .of (fun _ _ => rfl) fun _ => List.mem_cons_self
  case fscale => exact .of_own (fun _ _ => rfl) fun _ => List.mem_cons_self
  case fdot2 => exact .of_narrow fun _ _ => rfl

/-- Settles O19: it holds. Each form is one of a single source, with the function of its bits that the statement names, so that nothing is asked
of the free values in Config. -/
theorem floatApproximationsAndRoots : Obligations.FloatApproximationsAndRoots := by
  refine ⟨?frcp, ?frsq, ?fsqrt, ?fexp2, ?flog2, ?fsin, ?fcos, ?ftanh⟩
  case frcp | frsq | fsqrt | fexp2 | flog2 | fsin | fcos | ftanh => exact .of (fun _ _ => rfl) fun _ => List.mem_cons_self

/-- Settles O21: it holds. ffract and frnd are forms of a single source; fexpo gives the frame of R143 an i32, and cvt a result of its own type
from a source of another. -/
theorem floatRoundAndConvert : Obligations.FloatRoundAndConvert := by
  refine ⟨?fexpo, ?ffract, ?frnd, ?cvt⟩
  case fexpo => exact .of_narrow fun _ _ => rfl
  case ffract | frnd => exact .of (fun _ _ => rfl) fun _ => List.mem_cons_self
  case cvt => exact .of_own (fun _ _ => rfl) fun _ => List.mem_cons_self

end Sys2Proof.Machine
end

section
/-! SUPPORT. What a bounded form delivers (R150): the nearest value, or free bits within the bound. -/

namespace Sys2Proof.Machine

/-- Free bits that a bounded form admits: their value is within the bound in ulps, or within the absolute one. -/
def admits (f : Fmt) (x : FVal) (ulps : Nat) (absExp : Option Int) (y : Nat) : Bool :=
  closeF (unpack f y) x ulps (ulpExp f x) || (match absExp with | some b => closeF (unpack f y) x 1 b | none => false)

/-- What a bounded form makes of free bits that it admits: a value without an exponent is tiny, and a zero of its sign under FTZO. -/
def freeResult (f : Fmt) (v : FEnv) (y : Nat) : Nat × Exc :=
  if fExp f y = 0 then (if v.ftzo then (f.signBit (fNeg f y), excUF ||| excNX) else (y, excUF ||| excNX)) else (y, excNX)

section
variable {f : Fmt} {x : FVal} {ulps y : Nat} {absExp : Option Int}

/-- The nearest value stands where it is exact or overflows, and where the free bits are not admitted. -/
theorem bounded_eq (v : FEnv) (raw : Nat) :
    bounded f v x raw ulps absExp =
      let near := roundTo f { v with rm := 0 } x
      if near.2 &&& excNX = 0 ∨ near.2 &&& excOF ≠ 0 then near
      else if !admits f x ulps absExp (raw % 2 ^ f.width) then near else freeResult f v (raw % 2 ^ f.width) := rfl

theorem bounded_cases (v : FEnv) (raw : Nat) :
    bounded f v x raw ulps absExp = roundTo f { v with rm := 0 } x ∨
      (admits f x ulps absExp (raw % 2 ^ f.width) = true ∧ bounded f v x raw ulps absExp = freeResult f v (raw % 2 ^ f.width)) := by
  rw [bounded_eq]
  dsimp only
  split
  next => exact .inl rfl
  next =>
    cases admits f x ulps absExp (raw % 2 ^ f.width) with
    | false => exact .inl rfl
    | true => exact .inr ⟨rfl, rfl⟩

theorem admits_close (h : admits f x ulps absExp y = true) :
    closeF (unpack f y) x ulps (ulpExp f x) = true ∨ ∃ b, absExp = some b ∧ closeF (unpack f y) x 1 b = true := by
  rcases (Bool.or_eq_true _ _).mp h with hulp | habs
  · exact .inl hulp
  · cases absExp with
    | none => cases habs
    | some b => exact .inr ⟨b, rfl, habs⟩

theorem freeResult_spec (f : Fmt) (v : FEnv) (y : Nat) :
    (freeResult f v y).2 &&& excNX ≠ 0 ∧
      ((freeResult f v y).1 = y ∨ (v.ftzo = true ∧ fExp f y = 0 ∧ (freeResult f v y).1 = f.signBit (fNeg f y))) := by
  have htiny : (excUF ||| excNX) &&& excNX ≠ 0 := by decide
  have hnormal : excNX &&& excNX ≠ 0 := by decide
  unfold freeResult
  split
  next hexp =>
    split
    next hftzo => exact ⟨htiny, .inr ⟨hftzo, hexp, rfl⟩⟩
    next => exact ⟨htiny, .inl rfl⟩
  next => exact ⟨hnormal, .inl rfl⟩

end

/-- Settles O20: it holds, since a bounded form delivers the nearest value or the result of free bits that it admits (bounded_cases). -/
theorem boundedResultsAreClose : Obligations.BoundedResultsAreClose := by
  intro f v x raw ulps absExp near r
  rcases bounded_cases (f := f) (x := x) (ulps := ulps) (absExp := absExp) v raw with hnear | ⟨hadm, hfree⟩
  · exact .inl hnear
  · obtain ⟨hinexact, hbits⟩ := freeResult_spec f v (raw % 2 ^ f.width)
    rw [← hfree] at hinexact hbits
    exact .inr ⟨_, Nat.mod_lt _ (Nat.two_pow_pos _), admits_close hadm, hinexact, hbits⟩

end Sys2Proof.Machine
end

section
/-! SUPPORT. A float word that writes a predicate: fcmp, and the other forms of R147 to R149. -/

namespace Sys2Proof.Machine

/-! ## The commit of a float word -/

/-- A float word of which no lane traps in handler mode writes, and its exceptions are noted (R28, R299). -/
theorem fpCommit_commits {s : State} {k : Nat} {t : Team} {lanes : List Nat} {e exc : Nat → Exc} (he : ∀ L ∈ lanes, e L = exc L)
    (h : fpCommits t lanes exc) (write : State → State) :
    fpCommit k t s lanes e write = .commit ((write s).modTeam k fun u => noteFp u lanes e) := by
  have hnone : (if t.handler then lanes.find? fun L => decide (e L &&& trapEnables t ≠ 0) else none) = none := by
    rcases h with hout | hclear
    · simp [hout]
    · rw [List.find?_eq_none.2 fun L hL => by simp [he L hL, hclear L hL], ite_self]
  unfold fpCommit
  rw [hnone]

/-- The float state of a committed word, from the flags, the sticky flags and the report that its effect leaves. -/
theorem floatState_of {s1 : State} {k : Nat} {t t1 : Team} {fl : Exc} {r : Option FpReport} (h1 : s1.team k = some t1) (hsc : SameClause t t1)
    (hf : t1.fpFlags = t.fpFlags ||| fl) (hm : t1.fmode = t.fmode) (hr : t1.fpReport = r) : floatState (committed s1 k t) k t fl r := by
  obtain ⟨-, ⟨t', ht', hteam, -, hnext, hlast⟩, -⟩ := committed_spec h1 hsc
  refine ⟨t', ht', hteam.report.trans hr, fun h => ?_, fun h => ?_⟩
  · obtain ⟨hflags, hfmode⟩ := hnext h
    exact ⟨hflags.trans hf, hfmode.trans hm⟩
  · obtain ⟨hflags, hfmode⟩ := hlast h
    exact ⟨hflags, by rw [hfmode, hf, hm]⟩

/-! ## A predicate written, and the exceptions noted -/

/-- A write of a predicate reaches no other team, no core and nothing else of the part. -/
theorem WroteLanes.units {s s1 : State} {k : Nat} {t : Team} {lanes r : Mask} {d : Opd} (h : WroteLanes s s1 k t lanes d r) :
    (∀ k', k' ≠ k → s1.team k' = s.team k') ∧ (∀ c, s1.core c = s.core c) ∧ s1.rest = s.rest := by
  obtain ⟨q, rfl | rfl⟩ := h.rest
  · exact ⟨fun k' hk => by rw [State.team_setTeam, if_neg hk], fun _ => rfl, rfl⟩
  · exact ⟨fun _ _ => rfl, fun _ => rfl, rfl⟩

/-- t1 is the team t of a word that issued, but for its predicates and its wait: what the note of exceptions reads and what a commit leaves. -/
structure ButPreds (t t1 : Team) : Prop where
  clause : SameClause t t1
  rest : t1.rest = t.rest
  queue : t1.digestQ = t.digestQ
  v : t1.v = t.v
  s : t1.s = t.s
  e : t1.e = t.e
  fmode : t1.fmode = t.fmode
  flags : t1.fpFlags = t.fpFlags
  quiet : t1.fpQuiet = t.fpQuiet
  report : t1.fpReport = t.fpReport

/-- A write of a predicate changes the predicates of its team only. -/
theorem WroteLanes.butPreds {s s1 : State} {k : Nat} {t : Team} {lanes r : Mask} {d : Opd} (h : WroteLanes s s1 k t lanes d r) :
    ∃ t1, s1.team k = some t1 ∧ ButPreds t t1 := by
  obtain ⟨t1, h1, e1⟩ := h.stored
  refine ⟨t1, h1, ?_⟩
  rw [e1]
  exact ⟨⟨rfl, rfl, rfl, rfl, rfl⟩, rfl, rfl, rfl, rfl, rfl, rfl, rfl, rfl, rfl⟩

/-- The wait that a word claims as it issues does not count. -/
theorem ButPreds.claimed {t t1 : Team} (h : ButPreds t t1) (i : Instr) : ButPreds (claimWait i t) t1 := by
  obtain ⟨w, hw⟩ := claimWait_eq i t
  obtain ⟨⟨hh, hi, hclause, hstate, hdigest⟩, hrest, hqueue, hv, hs, he, hfmode, hflags, hquiet, hreport⟩ := h
  rw [hw]
  exact ⟨⟨hh, hi, hclause, hstate, hdigest⟩, hrest, hqueue, hv, hs, he, hfmode, hflags, hquiet, hreport⟩

/-- The team u when the exceptions of a word of the team t are noted in it. -/
def noted (t : Team) (lanes : List Nat) (exc : Nat → Exc) (u : Team) : Team :=
  { u with fpFlags := u.fpFlags ||| fpAll lanes exc, fpReport := (noteFp t lanes exc).fpReport }

section
variable {t t1 : Team} {lanes : List Nat} {e exc : Nat → Exc}

theorem ButPreds.noteFp_eq (h : ButPreds t t1) (he : ∀ L ∈ lanes, e L = exc L) : noteFp t1 lanes e = noted t lanes exc t1 :=
  Machine.noteFp_eq t t1 lanes e exc he h.fmode h.quiet h.clause.h h.clause.i h.clause.clause h.report

theorem SameClause.noted {t' : Team} (h : SameClause t t1) : SameClause t (noted t' lanes exc t1) :=
  ⟨h.h, h.i, h.clause, h.state, h.digestMode⟩

end

/-- A float word whose effect is a predicate write and the note of its exceptions (R28, R122). -/
theorem floatP_commits {i : Instr} {s : State} {k : Nat} {t : Team} (h : Issues i s k t) {lanes : List Nat} {e exc : Nat → Exc}
    (he : ∀ L ∈ lanes, e L = exc L) (mask : Mask) (d : Opd) (r : Mask) :
    let s1 := committed ((writeP s k mask d r).modTeam k fun u => noteFp u lanes e) k t
    WroteP s s1 k t mask d (fun L => r.getLsbD L) ∧ floatState s1 k t (fpAll lanes exc) (noteFp t lanes exc).fpReport ∧
      Untouched s s1 k t ∧ Onward s1 k t := by
  intro s1
  obtain ⟨t0, ht, hclaim⟩ := h.stored
  have hp := writeP_spec ht mask d r
  obtain ⟨hteams, hcores, hrest⟩ := hp.units
  obtain ⟨t1, hwritten, hstored⟩ := hp.butPreds
  have hbut : ButPreds t t1 := hclaim ▸ hstored.claimed i
  have hnoted : ((writeP s k mask d r).modTeam k fun u => noteFp u lanes e).team k = some (noted t lanes exc t1) := by
    rw [State.team_modTeam_self, hwritten, Option.map_some, hbut.noteFp_eq he]
  have hclause : SameClause t (noted t lanes exc t1) := hbut.clause.noted
  have hpred : ∀ n, predOf s1 k n = predOf (writeP s k mask d r) k n := fun n => by
    rw [predOf_committed hnoted hclause, predOf, predOf, hnoted, hwritten]; rfl
  obtain ⟨-, ⟨t', ht', hteam, -⟩, -⟩ := committed_spec hnoted hclause
  refine ⟨⟨fun n L hd hn hw hL => ?_, fun m hm hne => ?_, fun o L wide ho _ _ => ?_, ⟨t', ht', hteam.e.trans hbut.e⟩⟩,
    floatState_of hnoted hclause (congrArg (· ||| _) hbut.flags) hbut.fmode rfl,
    untouched_of_preds hclaim (fun k' hk => ?_) hcores hrest hnoted ⟨hstored.clause.noted, hstored.rest, hstored.queue⟩⟩
  · rw [hpred, hp.lane hd hn hL]
  · rw [hpred, hp.others m hm hne]
  · rw [reg_committed hnoted hclause wide ho]
    exact reg_congr ht hnoted hstored.v hstored.s (fun c => by rw [State.core_modTeam, hcores]; exact ⟨rfl, rfl⟩) wide ho L
  · rw [State.team_modTeam, if_neg hk, hteams k' hk]

/-! ## fcmp -/

/-- The truth and the exceptions of a lane of fcmp (R148). -/
def fcmpLane (f : VR) (k : Nat) (t : Team) (s : State) (L : Nat) : Bool × Exc :=
  fpCond (fmtOf f.t) (fld f.m 0 3) (fpElem (fmtOf f.t) (fenv t 0) f.m 8 (bitSrc s k t f.t f.a L))
    (fpElem (fmtOf f.t) (fenv t 0) f.m 6 (bitSrc s k t f.t f.b L))

/-- fcmp computes in every lane of Lanes first, and then writes its predicate there and notes the exceptions. -/
theorem fcmp_commits {f : VR} {s : State} {k : Nat} {t : Team} (h : Issues (.fcmp f) s k t) :
    let lanes := maskLanes (lanesOf t f.g) t.width
    let exc := fun L => (fcmpLane f k t s L).2
    fpCommits t lanes exc →
    ∃ s', exec (.fcmp f) s = .next s' ∧
      WroteP s s' k t (lanesOf t f.g) f.d (fun L => combine (fld f.m 3 2) (fcmpLane f k t s L).1 ((opdP t f.c).getLsbD L)) ∧
      floatState s' k t (fpAll lanes exc) (noteFp t lanes exc).fpReport ∧ Untouched s s' k t ∧ Onward s' k t := by
  intro lanes exc hcommits
  let results : Table (Bool × Exc) := lanes.map fun L => (L, fcmpLane f k t s L)
  have hget : ∀ L ∈ lanes, results.get L (false, 0) = fcmpLane f k t s L := fun L hL => get_map _ _ hL
  have hexc : ∀ L ∈ lanes, (results.get L (false, 0)).2 = exc L := fun L hL => congrArg Prod.snd (hget L hL)
  have hbody := fpCommit_commits (k := k) (s := s) hexc hcommits fun s => writeP s k (lanesOf t f.g) f.d
    (maskOf t.width fun L => combine (fld f.m 3 2) (results.get L (false, 0)).1 ((opdP t f.c).getLsbD L))
  obtain ⟨hwrote, hstate⟩ := floatP_commits h hexc (lanesOf t f.g) f.d
    (maskOf t.width fun L => combine (fld f.m 3 2) (results.get L (false, 0)).1 ((opdP t f.c).getLsbD L))
  refine ⟨_, congrArg Host.Outcome.next (issue_commit h hbody), { hwrote with lanes := fun n L hd hn hw hL => ?_ }, hstate⟩
  rw [hwrote.lanes n L hd hn hw hL, maskOf_lane]
  split
  next hlane => rw [hget L ((mem_maskLanes _ _ _).2 ⟨hw, hlane⟩)]; simp [hw, hL]
  next => rfl

/-! ## The statement -/

/-- Settles O18: it holds. The minima and maxima are forms of two sources, fclass writes D as an integer form does, and fcmp writes a predicate with
the note of its exceptions. -/
theorem floatMinMaxCompareClass : Obligations.FloatMinMaxCompareClass := by
  refine ⟨?fmin, ?fmax, ?fminl, ?fmaxl, ?fclass, ?fcmp⟩
  case fmin | fmax | fminl | fmaxl => exact .of (fun _ _ => rfl) fun _ => List.mem_cons_self
  case fclass => exact .of (fun _ _ => rfl) fun _ hw => absurd hw Bool.false_ne_true
  case fcmp => exact fun _ _ _ _ h => fcmp_commits h

end Sys2Proof.Machine
end

section
/-! SUPPORT. Q16N conversions, online softmax and relative-position buckets (R156 to R159). smx writes four registers from D up. -/

namespace Sys2Proof.Machine

/-! ## Registers from D up -/

/-- n registers from D up written one after the other, each in the lanes of the mask. -/
def writeUp (s : State) (k : Nat) (lanes : Mask) (d : Opd) (val : Nat → Nat → W64) : Nat → State
  | 0 => s
  | n + 1 => writeD (writeUp s k lanes d val n) k lanes false (Opd.next d n) (val n)

/-- What it does: each of the n registers holds its value in the lanes of the mask, and nothing else changes. -/
structure WroteUp (s s1 : State) (k : Nat) (t : Team) (lanes : Mask) (d : Opd) (val : Nat → Nat → W64) (n : Nat) : Prop where
  frame : RegFrame s s1 k t
  lanes : ∀ j L, j < n → L < t.width → L < 1024 →
    reg s1 k false (Opd.next d j) L = if lanes.getLsbD L then (val j L).truncate 32 |>.zeroExtend 64 else reg s k false (Opd.next d j) L
  others : ∀ o L, isReg o = true → (∀ j, j < n → o ≠ Opd.next d j) → L < t.width → L < 1024 → reg s1 k false o L = reg s k false o L

/-- Registers above D are different registers. -/
theorem Opd.next_ne {d : Opd} {i j : Nat} (h : i < j) (hj : (Opd.next d j).isVK = true) : Opd.next d i ≠ Opd.next d j := by
  cases d with
  | v n =>
    by_cases hfits : n.val + j < 256
    · simp [Opd.next, hfits, show n.val + i < 256 by omega, show i ≠ j by omega]
    · simp [Opd.next, hfits, Opd.isVK] at hj
  | kv n =>
    by_cases hfits : n.val + j < 16
    · simp [Opd.next, hfits, show n.val + i < 16 by omega, show i ≠ j by omega]
    · simp [Opd.next, hfits, Opd.isVK] at hj
  | s n | ks n =>
    simp only [Opd.next] at hj
    split at hj <;> cases hj
  | p n | x n | rsv n | none => cases hj

theorem isReg_of_vk {o : Opd} (h : o.isVK = true) : isReg o = true := by simp [isReg, h]

theorem writeUp_spec {s : State} {k : Nat} {t : Team} (ht : s.team k = some t) (lanes : Mask) {d : Opd} (val : Nat → Nat → W64) (n : Nat)
    (hd : ∀ j, j < n → (Opd.next d j).isVK = true) : WroteUp s (writeUp s k lanes d val n) k t lanes d val n := by
  induction n with
  | zero => exact ⟨RegFrame.refl ht, fun j L hj => absurd hj (Nat.not_lt_zero j), fun _ _ _ _ _ _ => rfl⟩
  | succ n ih =>
    obtain ⟨hframe, hlanes, hothers⟩ := ih fun j hj => hd j (Nat.lt_succ_of_lt hj)
    obtain ⟨t1, ht1, e1⟩ := hframe.own
    have hwidth : t1.width = t.width := by rw [e1]
    have hvk := hd n (Nat.lt_succ_self n)
    have hw : Wrote _ (writeUp s k lanes d val (n + 1)) k t1 lanes false (Opd.next d n) (val n) :=
      writeD_spec ht1 lanes false (Opd.next d n) (val n) fun h => absurd h Bool.false_ne_true
    have hlast : ∀ o L, isReg o = true → o ≠ Opd.next d n → L < t.width → L < 1024 →
        reg (writeUp s k lanes d val (n + 1)) k false o L = reg (writeUp s k lanes d val n) k false o L := fun o L ho hne hL h4 =>
      hw.others o L ho (by simpa [destOf] using hne) (hwidth ▸ hL) h4
    refine ⟨hframe.trans ht1 hw.frame, fun j L hj hL h4 => ?_, fun o L ho hne hL h4 => ?_⟩
    · rcases Nat.lt_succ_iff_lt_or_eq.mp hj with hlt | rfl
      · rw [hlast _ L (isReg_of_vk (hd j hj)) (Opd.next_ne hlt hvk) hL h4, hlanes j L hlt hL h4]
      · rw [hw.lanes hvk L (hwidth ▸ hL) h4, hothers _ L (isReg_of_vk hvk) (fun i hi => (Opd.next_ne hi hvk).symm) hL h4]
        rfl
    · rw [hlast o L ho (hne n (Nat.lt_succ_self n)) hL h4, hothers o L ho (fun j hj => hne j (Nat.lt_succ_of_lt hj)) hL h4]

/-- The low 32 bits of a number, as a register holds them. -/
theorem low32_ofNat (x : Nat) : ((BitVec.ofNat 64 x).truncate 32).zeroExtend 64 = BitVec.ofNat 64 (x % 2 ^ 32) := by
  apply BitVec.eq_of_toNat_eq
  simp

/-! ## smx -/

/-- A register of the four results of a lane of smx (R158), from D up. -/
def smxPart (r : Nat × Nat × Nat × Nat × Exc) (j : Nat) : Nat := [r.1, r.2.1, r.2.2.1, r.2.2.2.1].getD j 0

/-- The results and the exceptions of a lane of smx. -/
def smxLane (f : VR) (k : Nat) (t : Team) (s : State) (L : Nat) : Nat × Nat × Nat × Nat × Exc :=
  smxF (fenv t 0) (ftzIn fmtF32 (fenv t 0) (bitSrc s k t .f32 f.a L)) (ftzIn fmtF32 (fenv t 0) (bitSrc s k t .f32 f.b L))
    (ftzIn fmtF32 (fenv t 0) (bitSrc s k t .f32 f.c L))

/-- The D of smx is a vector register at a multiple of four (R158), so that four registers stand from D up. -/
theorem Issues.smx_dest {f : VR} {s : State} {k : Nat} {t : Team} (h : Issues (.smx f) s k t) {j : Nat} (hj : j < 4) : (Opd.next f.d j).isVK = true := by
  have hkinds : ops4 f Opd.isVK Opd.isVSX Opd.isVSX Opd.isVSX = true := h.kinds
  simp only [ops4, Bool.and_eq_true] at hkinds
  obtain ⟨⟨⟨hvk, -⟩, -⟩, -⟩ := hkinds
  have haligned : Use.aligned { o := f.d, vn := 4, va := 4 } = true := by
    have hchecks := h.check4
    simp only [Instr.check4, Bool.and_eq_true, List.all_eq_true] at hchecks
    obtain ⟨⟨⟨-, huses⟩, -⟩, -⟩ := hchecks
    exact huses _ List.mem_cons_self
  cases hd : f.d with
  | v n =>
    simp only [Use.aligned, hd, decide_eq_true_eq] at haligned
    simp [Opd.next, show n.val + j < 256 by omega, Opd.isVK]
  | kv n =>
    simp only [Use.aligned, hd, decide_eq_true_eq] at haligned
    simp [Opd.next, show n.val + j < 16 by omega, Opd.isVK]
  | s n | ks n | p n | x n | rsv n | none => rw [hd] at hvk; cases hvk

/-- smx computes in every lane of Lanes first, and then writes its four registers there and notes the exceptions. -/
theorem smx_commits {f : VR} {s : State} {k : Nat} {t : Team} (h : Issues (.smx f) s k t) :
    let lanes := maskLanes (lanesOf t f.g) t.width
    let exc := fun L => (smxLane f k t s L).2.2.2.2
    fpCommits t lanes exc →
    ∃ s', exec (.smx f) s = .next s' ∧
      (∀ j L, j < 4 → L < t.width → L < 1024 → reg s' k false (Opd.next f.d j) L =
        if (lanesOf t f.g).getLsbD L then BitVec.ofNat 64 (smxPart (smxLane f k t s L) j % 2 ^ 32) else reg s k false (Opd.next f.d j) L) ∧
      (∀ o L, isReg o = true → (∀ j, j < 4 → o ≠ Opd.next f.d j) → L < t.width → L < 1024 → reg s' k false o L = reg s k false o L) ∧
      samePreds s s' k ∧ sameE s' k t ∧ floatState s' k t (fpAll lanes exc) (noteFp t lanes exc).fpReport ∧ Untouched s s' k t ∧ Onward s' k t := by
  intro lanes exc hcommits
  let results : Table (Nat × Nat × Nat × Nat × Exc) := lanes.map fun L => (L, smxLane f k t s L)
  have hget : ∀ L ∈ lanes, results.get L (0, 0, 0, 0, 0) = smxLane f k t s L := fun L hL => get_map _ _ hL
  have hexc : ∀ L ∈ lanes, (results.get L (0, 0, 0, 0, 0)).2.2.2.2 = exc L := fun L hL => congrArg (·.2.2.2.2) (hget L hL)
  let val := fun j L => BitVec.ofNat 64 (smxPart (results.get L (0, 0, 0, 0, 0)) j)
  have hbody := fpCommit_commits (k := k) (s := s) hexc hcommits fun s => writeUp s k (lanesOf t f.g) f.d val 4
  obtain ⟨t0, ht, hclaim⟩ := h.stored
  obtain ⟨w, hkind⟩ := claimWait_eq (.smx f) t0
  have hwidth : t0.width = t.width := by rw [hclaim, hkind]
  obtain ⟨hframe, hlanes, hothers⟩ := writeUp_spec ht (lanesOf t f.g) val 4 fun j hj => h.smx_dest hj
  obtain ⟨⟨t1, t2, ht1, ht2, hclause, hv, hs, hp, he, hp1⟩, hstate⟩ := float_commit hclaim hframe hexc
  have hreg : ∀ o L, isReg o = true → reg (committed ((writeUp s k (lanesOf t f.g) f.d val 4).modTeam k fun u => noteFp u lanes _) k t) k false o L =
      reg (writeUp s k (lanesOf t f.g) f.d val 4) k false o L := fun o L ho => by
    rw [reg_committed ht2 hclause false ho]
    exact reg_congr ht1 ht2 hv hs (fun _ => ⟨rfl, rfl⟩) false ho L
  obtain ⟨-, ⟨t', ht', hteam, -⟩, -⟩ := committed_spec ht2 hclause
  refine ⟨_, congrArg Host.Outcome.next (issue_commit h hbody), fun j L hj hL h4 => ?_, fun o L ho hne hL h4 => ?_, fun n _ => ?_,
    ⟨t', ht', hteam.e.trans he⟩, hstate⟩
  · rw [hreg _ L (isReg_of_vk (h.smx_dest hj)), hlanes j L hj (hwidth ▸ hL) h4]
    split
    next hlane => rw [low32_ofNat, hget L ((mem_maskLanes _ _ _).2 ⟨hL, hlane⟩)]
    next => rfl
  · rw [hreg o L ho, hothers o L ho hne (hwidth ▸ hL) h4]
  · rw [predOf_committed ht2 hclause, predOf, predOf, ht2, ht]
    simp only [Team.preg, hp, hp1, hclaim, hkind]

/-! ## The statement -/

/-- Settles O22: it holds. qnt and dqnt give the frame of R143 a value of their own, relbk that of R129, and smx writes its four registers one after the
other, which are different registers since D is a multiple of four. -/
theorem quantiseSoftmaxBuckets : Obligations.QuantiseSoftmaxBuckets := by
  refine ⟨?qnt, ?dqnt, ?relbk, ?smx⟩
  case qnt | dqnt => exact .of_narrow fun _ _ => rfl
  case relbk => exact .of (fun _ _ => rfl) fun _ hw => absurd hw Bool.false_ne_true
  case smx => exact fun _ _ _ _ h => smx_commits h

end Sys2Proof.Machine
end
